-- ==== Sys2Proof/Word.lean ====
section
/-!
DEFINITION. The words of the machine: bytes, 64-bit registers, 80-bit instruction words (R323), the bits of a
vector register, a mask and an accumulator tile (R149).
-/

namespace Sys2Proof

abbrev Byte := BitVec 8
abbrev W32 := BitVec 32
abbrev W64 := BitVec 64
/-- An instruction word (R323). -/
abbrev W80 := BitVec 80
/-- A 64-byte code line (R325). -/
abbrev Line := BitVec 512
/-- A vector register of one desk: 512 bytes. -/
abbrev VReg := BitVec 4096
/-- A mask register of one desk: 1,024 bits. -/
abbrev KReg := BitVec 1024
/-- An accumulator tile of one desk: 8 KiB, 32 by 64 FP32. -/
abbrev Tile := BitVec 65536

end Sys2Proof
end

