-- ==== Sys2Proof/Machine/Table.lean ====
section
/-!
DEFINITION. Sparse tables in one canonical form: strictly rising keys, no entry equal to the table's default. Memory
is such a table of bytes (`Host.Cell`), the register files are such tables of words.
-/

namespace Sys2Proof

/-- A sparse table by natural-number key. -/
abbrev Tbl (α : Type) := List (Nat × α)

namespace Machine

/-- The entry at `k`, or the default. -/
def tget {α : Type} (d : α) : Tbl α → Nat → α
  | [], _ => d
  | (j, v) :: t, k => if j = k then v else tget d t k

/-- Put `v` at `k`, keeping the keys rising. -/
def tput {α : Type} : Tbl α → Nat → α → Tbl α
  | [], k, v => [(k, v)]
  | (j, w) :: t, k, v =>
    if k < j then (k, v) :: (j, w) :: t
    else if k = j then (k, v) :: t
    else (j, w) :: tput t k v

/-- Take the entries at `k` out. -/
def tdel {α : Type} : Tbl α → Nat → Tbl α
  | [], _ => []
  | (j, w) :: t, k => if j = k then tdel t k else (j, w) :: tdel t k

/-- Write `v` at `k`: the default is not listed. -/
def tset {α : Type} [DecidableEq α] (d : α) (t : Tbl α) (k : Nat) (v : α) : Tbl α :=
  if v = d then tdel t k else tput t k v

/-- Keys strictly rise from `lo` and no entry is the default. -/
def twfFrom {α : Type} [DecidableEq α] (d : α) : Nat → Tbl α → Bool
  | _, [] => true
  | lo, (k, v) :: t => decide (lo ≤ k) && decide (v ≠ d) && twfFrom d (k + 1) t

/-- The canonical form. -/
def twf {α : Type} [DecidableEq α] (d : α) (t : Tbl α) : Bool := twfFrom d 0 t

/-- `n` consecutive entries from `a`, of a table that lists nothing below `a`. -/
def twalk {α : Type} (d : α) : Nat → Nat → Tbl α → List α
  | 0, _, _ => []
  | n + 1, a, [] => d :: twalk d n (a + 1) []
  | n + 1, a, (k, v) :: t =>
    if k = a then v :: twalk d n (a + 1) t else d :: twalk d n (a + 1) ((k, v) :: t)

/-- `n` consecutive entries from `a`. -/
def tgetN {α : Type} (d : α) (t : Tbl α) (a n : Nat) : List α :=
  twalk d n a (t.dropWhile fun e => e.1 < a)

/-- The entries of consecutive keys from `a` that are not the default. -/
def tcells {α : Type} [DecidableEq α] (d : α) : Nat → List α → Tbl α
  | _, [] => []
  | a, v :: vs => if v = d then tcells d (a + 1) vs else (a, v) :: tcells d (a + 1) vs

/-- Write consecutive entries from `a`. -/
def tsetN {α : Type} [DecidableEq α] (d : α) (t : Tbl α) (a : Nat) (vs : List α) : Tbl α :=
  (t.takeWhile fun e => e.1 < a) ++ tcells d a vs
    ++ ((t.dropWhile fun e => e.1 < a).dropWhile fun e => e.1 < a + vs.length)

/-- Drop the entries of the keys that `p` names. -/
def tdrop {α : Type} (p : Nat → Bool) (t : Tbl α) : Tbl α := t.filter fun e => !p e.1

/-- The `n`-byte little-endian number of a list of bytes (R5). -/
def leNat : List Byte → Nat
  | [] => 0
  | b :: bs => b.toNat + 256 * leNat bs

/-- The `n` low bytes of a number, least first (R5). -/
def leBytes : Nat → Nat → List Byte
  | 0, _ => []
  | n + 1, v => BitVec.ofNat 8 v :: leBytes n (v / 256)

/-- Replace the element at an index; past the end, nothing. -/
def listSet {α : Type} (l : List α) (k : Nat) (v : α) : List α := l.set k v

/-- Sign extension of the low `n` bits of a number to 64 bits. -/
def sext64 (n v : Nat) : W64 := (BitVec.ofNat n v).signExtend 64

end Machine
end Sys2Proof
end

