-- ==== Sys2Proof/Machine/Codes.lean ====
section
/-!
DEFINITION. The check codes and digests of the spec: CRC-16 of block signatures (R132), CRC-32 of graphs and images
(R98, R272), SHA-256 (R86, R137).
-/

namespace Sys2Proof.Machine

/-- One bit of CRC-16, polynomial 0x1021, most significant bit first (R132). -/
def crc16Bit (r : BitVec 16) : BitVec 16 := if r.msb then (r <<< 1) ^^^ 0x1021 else r <<< 1

def crc16Shift : Nat → BitVec 16 → BitVec 16
  | 0, r => r
  | n + 1, r => crc16Shift n (crc16Bit r)

def crc16Byte (r : BitVec 16) (b : Byte) : BitVec 16 := crc16Shift 8 (r ^^^ (b.setWidth 16 <<< 8))

/-- CRC-16 over the ten little-endian bytes of a word (R132). -/
def crc16Word (r : BitVec 16) (w : W80) : BitVec 16 := (leBytes 10 w.toNat).foldl crc16Byte r

/-- One bit of CRC-32 (IEEE 802.3, reflected). -/
def crc32Bit (r : W32) : W32 := if r.getLsbD 0 then (r >>> 1) ^^^ 0xEDB88320 else r >>> 1

def crc32Shift : Nat → W32 → W32
  | 0, r => r
  | n + 1, r => crc32Shift n (crc32Bit r)

/-- CRC-32 (IEEE 802.3) of bytes (R98). -/
def crc32 (bs : List Byte) : W32 :=
  ~~~ (bs.foldl (fun r b => crc32Shift 8 (r ^^^ b.setWidth 32)) (BitVec.allOnes 32))

/-! SHA-256 (FIPS 180-4). The round constants are the fractional bits of cube roots of the first 64 primes, the initial
hash those of square roots of the first eight. -/

def isPrime (n : Nat) : Bool := 2 ≤ n && (List.range n).all fun d => d < 2 || n % d != 0
def primes : List Nat := (List.range 312).filter isPrime

/-- Largest r with r^k ≤ n, by bits from bit `b` down. -/
def rootBits (k n : Nat) : Nat → Nat → Nat
  | 0, r => r
  | b + 1, r => if (r + 2 ^ b) ^ k ≤ n then rootBits k n b (r + 2 ^ b) else rootBits k n b r

/-- First 32 fractional bits of the k-th root of a prime. -/
def rootFrac (k p : Nat) : W32 := BitVec.ofNat 32 (rootBits k (p * 2 ^ (32 * k)) 40 0)

def shaK : List W32 := primes.map (rootFrac 3)
def shaInit : List W32 := (primes.take 8).map (rootFrac 2)

/-- The message schedule, newest word first. -/
def shaExtend : Nat → List W32 → List W32
  | 0, w => w
  | n + 1, w =>
    let g := fun k => w.getD k 0
    let s0 := (g 14).rotateRight 7 ^^^ (g 14).rotateRight 18 ^^^ (g 14) >>> 3
    let s1 := (g 1).rotateRight 17 ^^^ (g 1).rotateRight 19 ^^^ (g 1) >>> 10
    shaExtend n ((g 15 + s0 + g 6 + s1) :: w)

def shaRound (st : List W32) (kw : W32 × W32) : List W32 :=
  match st with
  | [a, b, c, d, e, f, g, h] =>
    let s1 := e.rotateRight 6 ^^^ e.rotateRight 11 ^^^ e.rotateRight 25
    let ch := (e &&& f) ^^^ (~~~e &&& g)
    let t1 := h + s1 + ch + kw.1 + kw.2
    let s0 := a.rotateRight 2 ^^^ a.rotateRight 13 ^^^ a.rotateRight 22
    let mj := (a &&& b) ^^^ (a &&& c) ^^^ (b &&& c)
    [t1 + s0 + mj, a, b, c, d + t1, e, f, g]
  | _ => st

def beWord (bs : List Byte) : W32 := bs.foldl (fun a b => (a <<< 8) ||| b.setWidth 32) 0

def shaBlock (st : List W32) (blk : List Byte) : List W32 :=
  let w0 := (List.range 16).map fun k => beWord ((blk.drop (4 * k)).take 4)
  let w := (shaExtend 48 w0.reverse).reverse
  (st.zip ((shaK.zip w).foldl shaRound st)).map fun p => p.1 + p.2

def shaPad (bs : List Byte) : List Byte :=
  bs ++ [0x80] ++ List.replicate ((119 - bs.length % 64) % 64) 0 ++ (leBytes 8 (8 * bs.length)).reverse

def shaBlocks : Nat → List W32 → List Byte → List W32
  | 0, st, _ => st
  | n + 1, st, bs => shaBlocks n (shaBlock st (bs.take 64)) (bs.drop 64)

/-- SHA-256 of bytes, first byte of the digest most significant. -/
def sha256 (bs : List Byte) : BitVec 256 :=
  let p := shaPad bs
  (shaBlocks (p.length / 64) shaInit p).foldl (fun a w => (a <<< 32) ||| w.setWidth 256) 0

end Sys2Proof.Machine
end

