-- ==== Sys2Proof/Machine/Aes.lean ====
section
/-!
DEFINITION. AES-256 (FIPS 197), XTS over one 64-byte data unit (IEEE 1619) and CMAC (NIST SP 800-38B), which R230 names. A key
is read most significant byte first, as the standards print it (log 56).
-/

namespace Sys2Proof.Machine

/-! ## The field and the S-box -/

/-- b · x. -/
def xtime (b : Byte) : Byte := (b <<< 1) ^^^ (if b.msb then 0x1B else 0)

/-- a · b, over the bits of b from the lowest. -/
def gmul (a b : Byte) : Byte :=
  ((List.range 8).foldl (fun (r : Byte × Byte) j => (if b.getLsbD j then r.1 ^^^ r.2 else r.1, xtime r.2)) (0, a)).1

/-- a⁻¹ = a^254, with 0 to 0. -/
def ginv (a : Byte) : Byte :=
  ((List.range 6).foldl (fun (r : Byte × Byte) _ => let q := gmul r.2 r.2; (gmul r.1 q, q)) (gmul a a, gmul a a)).1

/-- The affine map after the inverse. -/
def subByte (a : Byte) : Byte :=
  let b := ginv a
  b ^^^ b.rotateLeft 1 ^^^ b.rotateLeft 2 ^^^ b.rotateLeft 3 ^^^ b.rotateLeft 4 ^^^ 0x63
def invSubByte (a : Byte) : Byte := ginv (a.rotateLeft 1 ^^^ a.rotateLeft 3 ^^^ a.rotateLeft 6 ^^^ 0x05)

/-! ## The cipher; a block is 16 bytes, column by column -/

def xorBytes (a b : List Byte) : List Byte := (a.zip b).map fun e => e.1 ^^^ e.2

/-- The 32 bytes of a key. -/
def keyBytes (k : BitVec 256) : List Byte := (leBytes 32 k.toNat).reverse

/-- One more word of the key schedule, the words so far newest first. -/
def nextWord (ws : List (List Byte)) : List Byte :=
  let i := ws.length
  let t := ws.headD []
  let t := if i % 8 = 0 then xorBytes ((t.rotateLeft 1).map subByte) [(List.range (i / 8 - 1)).foldl (fun b _ => xtime b) 1, 0, 0, 0]
    else if i % 8 = 4 then t.map subByte else t
  xorBytes (ws.getD 7 []) t

/-- The 15 round keys. -/
def roundKeys (k : BitVec 256) : List (List Byte) :=
  let b := keyBytes k
  let w0 := ((List.range 8).map fun j => (b.drop (4 * j)).take 4).reverse
  let ws := ((List.range 52).foldl (fun ws _ => nextWord ws :: ws) w0).reverse
  (List.range 15).map fun r => ((ws.drop (4 * r)).take 4).flatten

/-- Row `r` of each column moves `r` columns, to the left or (`inv`) to the right. -/
def shiftRows (inv : Bool) (b : List Byte) : List Byte :=
  (List.range 16).map fun j => b.getD ((4 * (j / 4 + (if inv then 4 - j % 4 else j % 4)) + j % 4) % 16) 0

/-- Each column times the circulant matrix of `m`. -/
def mixColumns (m : List Byte) (b : List Byte) : List Byte :=
  (List.range 16).map fun j => (List.range 4).foldl (fun x i =>
    x ^^^ gmul (b.getD (4 * (j / 4) + i) 0) (m.getD ((i + 4 - j % 4) % 4) 0)) 0

/-- AES-256 of a block, and back, under its round keys. -/
def aesEnc (ks : List (List Byte)) (b : List Byte) : List Byte :=
  let mid := ((ks.drop 1).take 13).foldl (fun b k => xorBytes (mixColumns [2, 3, 1, 1] (shiftRows false (b.map subByte))) k)
    (xorBytes b (ks.getD 0 []))
  xorBytes (shiftRows false (mid.map subByte)) (ks.getD 14 [])
def aesDec (ks : List (List Byte)) (b : List Byte) : List Byte :=
  let mid := (((ks.drop 1).take 13).reverse).foldl (fun b k => mixColumns [14, 11, 13, 9] (xorBytes ((shiftRows true b).map invSubByte) k))
    (xorBytes b (ks.getD 14 []))
  xorBytes ((shiftRows true mid).map invSubByte) (ks.getD 0 [])

/-! ## XTS and CMAC -/

/-- A tweak times α: little-endian, reduced by x¹²⁸ + x⁷ + x² + x + 1. -/
def timesAlpha (t : Nat) : Nat := (2 * t % 2 ^ 128) ^^^ (if t.testBit 127 then 0x87 else 0)

/-- The four blocks of a data unit, little-endian, through `f` under XTS. -/
def xtsBlocks (f : List Byte → List Byte) (k2 : BitVec 256) (tweak : BitVec 128) (x : BitVec 512) : BitVec 512 :=
  let t0 := leNat (aesEnc (roundKeys k2) (leBytes 16 tweak.toNat))
  BitVec.ofNat 512 (leNat (((List.range 4).foldl (fun (r : Nat × List Byte) j =>
    let t := leBytes 16 r.1
    (timesAlpha r.1, r.2 ++ xorBytes (f (xorBytes (leBytes 16 (x.toNat / 2 ^ (128 * j) % 2 ^ 128)) t)) t)) (t0, [])).2))
def xtsEncrypt (k1 k2 : BitVec 256) (tweak : BitVec 128) (x : BitVec 512) : BitVec 512 := xtsBlocks (aesEnc (roundKeys k1)) k2 tweak x
def xtsDecrypt (k1 k2 : BitVec 256) (tweak : BitVec 128) (x : BitVec 512) : BitVec 512 := xtsBlocks (aesDec (roundKeys k1)) k2 tweak x

/-- A block as a number, most significant byte first. -/
def beNat (b : List Byte) : Nat := leNat b.reverse

/-- CMAC of whole blocks, as a number of 128 bits. -/
def cmacBlocks (k : BitVec 256) (m : List Byte) : Nat :=
  let ks := roundKeys k
  let l := beNat (aesEnc ks (List.replicate 16 0))
  let k1 := (leBytes 16 ((2 * l % 2 ^ 128) ^^^ (if l.testBit 127 then 0x87 else 0))).reverse
  let n := m.length / 16
  beNat ((List.range n).foldl (fun x j =>
    let b := (m.drop (16 * j)).take 16
    aesEnc ks (xorBytes x (if j + 1 = n then xorBytes b k1 else b))) (List.replicate 16 0))

/-- The integrity tag of a sector: the low 32 bits of the CMAC of the tweak's bytes and the ciphertext's (R230). -/
def sectorTag (k : BitVec 256) (tweak : BitVec 128) (c : BitVec 512) : BitVec 32 :=
  BitVec.ofNat 32 (cmacBlocks k (leBytes 16 tweak.toNat ++ leBytes 64 c.toNat))

end Sys2Proof.Machine
end

