-- ==== Sys2Proof/Syntax.lean ====
section
/-!
DEFINITION. The instructions: one constructor for each row of spec/opcode_table.json. The 224 words carry the tag
fields of R323 and the operand fields of their format (R331); the 104 events of the device and its surroundings
carry what the outside supplies with them (a written value, a class, a message).
-/

namespace Sys2Proof

/-- The five engines and their walkers (R153). -/
inductive Eng where
  | s | a | v | m | x
  deriving DecidableEq, Repr, Inhabited

/-- The tag fields of every word (R323): producer distance, allocate bit, allocated tag, consume mask. -/
structure Hdr where
  pd : BitVec 3
  av : Bool
  atag : BitVec 4
  cmask : BitVec 16
  deriving DecidableEq, Repr, Inhabited

/-! The operand formats of R331, most significant field first. -/

structure FBK where
  n : BitVec 13
  crc : BitVec 16
  deriving DecidableEq, Repr, Inhabited

structure FLP where
  rs : Bool
  count : BitVec 32
  len : BitVec 9
  deriving DecidableEq, Repr, Inhabited

structure FPW where
  t0 : BitVec 15
  t1 : BitVec 15
  t2 : BitVec 15
  deriving DecidableEq, Repr, Inhabited

structure FSR where
  d : BitVec 5
  a : BitVec 5
  b : BitVec 5
  c : BitVec 5
  csr : BitVec 8
  deriving DecidableEq, Repr, Inhabited

structure FSI where
  d : BitVec 5
  a : BitVec 5
  imm : BitVec 32
  deriving DecidableEq, Repr, Inhabited

structure FSL where
  d : BitVec 5
  imm : BitVec 40
  deriving DecidableEq, Repr, Inhabited

structure FSM where
  d : BitVec 5
  a : BitVec 5
  sz : BitVec 2
  sx : Bool
  off : BitVec 16
  deriving DecidableEq, Repr, Inhabited

structure FB where
  a : BitVec 5
  b : BitVec 5
  off : BitVec 24
  deriving DecidableEq, Repr, Inhabited

structure FAR where
  x : BitVec 4
  y : BitVec 4
  z : BitVec 4
  deriving DecidableEq, Repr, Inhabited

structure FAI where
  x : BitVec 4
  y : BitVec 4
  s : BitVec 5
  imm : BitVec 32
  deriving DecidableEq, Repr, Inhabited

structure FAM where
  ad : BitVec 4
  as : BitVec 4
  an : BitVec 4
  tok : BitVec 5
  mode : BitVec 8
  sc : BitVec 5
  imm : BitVec 15
  deriving DecidableEq, Repr, Inhabited

structure FAO where
  ad : BitVec 4
  sv : BitVec 5
  sw : BitVec 5
  sz : Bool
  ret : Bool
  deriving DecidableEq, Repr, Inhabited

structure FXS where
  d : BitVec 6
  s : BitVec 6
  dir : BitVec 2
  edge : BitVec 2
  nl : BitVec 3
  deriving DecidableEq, Repr, Inhabited

structure FXC where
  dst : BitVec 5
  loc : BitVec 5
  len : BitVec 5
  ctr : BitVec 5
  tok : BitVec 5
  mode : BitVec 8
  deriving DecidableEq, Repr, Inhabited

structure FVR where
  vd : BitVec 6
  va : BitVec 6
  vb : BitVec 6
  vc : BitVec 6
  ty : BitVec 5
  k : BitVec 3
  kz : Bool
  rm : BitVec 3
  oc : Bool
  aux : BitVec 8
  deriving DecidableEq, Repr, Inhabited

structure FVI where
  vd : BitVec 6
  ty : BitVec 5
  imm : BitVec 32
  deriving DecidableEq, Repr, Inhabited

structure FVM where
  v : BitVec 6
  sb : BitVec 5
  sx : BitVec 5
  vx : BitVec 6
  k : BitVec 3
  rc : Bool
  srec : BitVec 5
  off : BitVec 14
  deriving DecidableEq, Repr, Inhabited

structure FMA where
  c : BitVec 2
  sa : BitVec 5
  sb : BitVec 5
  rc : Bool
  srec : BitVec 5
  deriving DecidableEq, Repr, Inhabited

structure FMQ where
  vd : BitVec 6
  sd : BitVec 5
  va : BitVec 6
  dst : Bool
  rm : BitVec 3
  deriving DecidableEq, Repr, Inhabited

structure FCN where
  h : BitVec 5
  v : BitVec 5
  scope : BitVec 3
  t : BitVec 5
  d : BitVec 5
  imm : BitVec 22
  deriving DecidableEq, Repr, Inhabited

/-! What the outside supplies with an event. -/

/-- The PCIe function a host access names (R22): PF0 or VF k. -/
inductive HostFn where
  | pf0
  | vf (k : Nat)
  deriving DecidableEq, Repr, Inhabited

/-- The AtomicOps the endpoint completes (R23). -/
inductive HostAtomic where
  | fetchAdd | swap | cas
  deriving DecidableEq, Repr, Inhabited

/-- The class memories of R126. -/
inductive ClassMem where
  | vreg | mask | acc | tower | scratch | loopBuf | fetchBuf | queue | remap
  deriving DecidableEq, Repr, Inhabited

/-- A 64-byte unit that can hold poison (R129), as the locator of R484 names it: global memory by physical unit,
a line of a physical tower, a unit of a vector register, accumulator, mask register or scratch, a queue element
(0 QS, 1 QV, 3 QF; counted from the head), a counter. -/
inductive PUnit where
  | phys (unit : Nat)
  | tower (c phys line : Nat)
  | vreg (c desk reg unit : Nat)
  | acc (c desk tile seg : Nat)
  | mask (c desk k unit : Nat)
  | queue (c q entry : Nat)
  | scratch (c line : Nat)
  | code (c va : Nat)
  | counter (handle : Nat)
  deriving DecidableEq, Repr, Inhabited

/-- What the cost estimator decides for a victim (R118). -/
inductive TeamAct where
  | drain | discard | save
  deriving DecidableEq, Repr, Inhabited

/-- What the boot ROM finds at power-good (R86, R87, R147, R148): outcomes of the checks that rest on keys, flash
and the self-test, the measured values, and the lines of the firmware image that starts. -/
structure BootInput where
  rootKeyOk : Bool
  primaryOk : Bool
  fallbackOk : Bool
  repair : List (BitVec 8)
  repairSigOk : Bool
  serial : BitVec 128
  defects : List (Nat × Nat)
  certMatches : Bool
  romDigest : BitVec 256
  imageDigest : BitVec 256
  imageSvn : BitVec 32
  e0Host : Bool
  saveBytes : Nat
  cxl : List Nat
  image : List (BitVec 512)
  deriving DecidableEq, Repr, Inhabited

/-- The node iteration that a message of the pair is about, and the member of its team (R43). -/
structure IterTag where
  inst : Nat
  node : Nat
  it : Nat
  rank : Nat
  deriving DecidableEq, Repr, Inhabited

/-- The node that a kill notice names, with the rollback count of the run that was killed (R139). -/
structure KilledNode where
  node : Nat
  rollbacks : Nat
  deriving DecidableEq, Repr, Inhabited

/-- The master's decision (R138): COMMIT or ABORT, whether the ABORT counts as a mismatch, the master's copy of the rollback
count of the run that it decides. -/
structure PairVerdict where
  commit : Bool
  counted : Bool
  rollbacks : Nat
  deriving DecidableEq, Repr, Inhabited

/-- A tower line with the poison that travels with it: false media, true integrity (R130). -/
abbrev FarLine := List (BitVec 8) × Option Bool

/-- A corridor request between packages (R25, R389, R390): the sender's partition and class, the class and the desks of the
receiver, tower offset and bytes of each desk, the lines that an XSEND writes (none: an XRECV reads), the counter of its add. -/
structure FarReq where
  part : Nat
  src : Nat
  cls : Nat
  desks : List Nat
  off : Nat
  len : Nat
  data : Option (List FarLine)
  add : Option (BitVec 64)
  deriving DecidableEq, Repr, Inhabited

/-- Where what arrives at CORRIDOR_REQUEST_ARRIVAL comes from: a request of a class of this package; a request of another package; its
answer to a request of a class, with the lines of a read, or its refusal. -/
inductive CorSource where
  | cls (c : Nat)
  | ask (pkg : Nat) (r : FarReq)
  | answer (c : Nat) (lines : List FarLine)
  | refused (c : Nat)
  deriving DecidableEq, Repr, Inhabited

/-- One row of spec/opcode_table.json each. -/

inductive Instr where
  /-- BLK, opcode 0x01 (R351). A block header is passed by every walker, and its word count and CRC are checked. -/
  | blk (h : Hdr) (f : FBK)
  /-- LOOP, opcode 0x02 (R352). Opens a hardware loop with an immediate or register count. -/
  | loop (h : Hdr) (f : FLP)
  /-- PSW, opcode 0x03 (R353). Schedule switch: chooses a variant by the schedule key and sets HUB. -/
  | psw (h : Hdr) (f : FPW)
  /-- NOP, opcode 0x04 (R351). No operation. -/
  | nop (h : Hdr)
  /-- ADD, opcode 0x05 (R354). s[D] ← a + b. -/
  | add (h : Hdr) (f : FSR)
  /-- SUB, opcode 0x06 (R354). s[D] ← a − b. -/
  | sub (h : Hdr) (f : FSR)
  /-- MUL, opcode 0x07 (R354). Low 64 bits of the product. -/
  | mul (h : Hdr) (f : FSR)
  /-- MULH, opcode 0x08 (R354). High 64 bits of the signed product. -/
  | mulh (h : Hdr) (f : FSR)
  /-- MULHU, opcode 0x09 (R354). High 64 bits of the unsigned product. -/
  | mulhu (h : Hdr) (f : FSR)
  /-- DIV, opcode 0x0A (R355). Signed division truncating toward zero, without trapping. -/
  | div (h : Hdr) (f : FSR)
  /-- DIVU, opcode 0x0B (R355). Unsigned division without trapping. -/
  | divu (h : Hdr) (f : FSR)
  /-- REM, opcode 0x0C (R355). Signed remainder. -/
  | rem (h : Hdr) (f : FSR)
  /-- REMU, opcode 0x0D (R355). Unsigned remainder. -/
  | remu (h : Hdr) (f : FSR)
  /-- AND, opcode 0x0E (R354). Bitwise AND. -/
  | and (h : Hdr) (f : FSR)
  /-- OR, opcode 0x0F (R354). Bitwise OR. -/
  | or (h : Hdr) (f : FSR)
  /-- XOR, opcode 0x10 (R354). Bitwise XOR. -/
  | xor (h : Hdr) (f : FSR)
  /-- SHL, opcode 0x11 (R354). Shift left by b[5:0]. -/
  | shl (h : Hdr) (f : FSR)
  /-- SHR, opcode 0x12 (R354). Logical shift right. -/
  | shr (h : Hdr) (f : FSR)
  /-- SRA, opcode 0x13 (R354). Arithmetic shift right. -/
  | sra (h : Hdr) (f : FSR)
  /-- MIN, opcode 0x14 (R354). Signed minimum. -/
  | min (h : Hdr) (f : FSR)
  /-- MAX, opcode 0x15 (R354). Signed maximum. -/
  | max (h : Hdr) (f : FSR)
  /-- MINU, opcode 0x16 (R354). Unsigned minimum. -/
  | minu (h : Hdr) (f : FSR)
  /-- MAXU, opcode 0x17 (R354). Unsigned maximum. -/
  | maxu (h : Hdr) (f : FSR)
  /-- POPC, opcode 0x18 (R354). Population count. -/
  | popc (h : Hdr) (f : FSR)
  /-- CLZ, opcode 0x19 (R354). Count of leading zeros. -/
  | clz (h : Hdr) (f : FSR)
  /-- CTZ, opcode 0x1A (R354). Count of trailing zeros. -/
  | ctz (h : Hdr) (f : FSR)
  /-- ADDI, opcode 0x1B (R356). Add a sign-extended immediate. -/
  | addi (h : Hdr) (f : FSI)
  /-- MULI, opcode 0x1C (R356). Multiply by a sign-extended immediate. -/
  | muli (h : Hdr) (f : FSI)
  /-- ANDI, opcode 0x1D (R356). AND with a zero-extended immediate. -/
  | andi (h : Hdr) (f : FSI)
  /-- ORI, opcode 0x1E (R356). OR with a zero-extended immediate. -/
  | ori (h : Hdr) (f : FSI)
  /-- XORI, opcode 0x1F (R356). XOR with a zero-extended immediate. -/
  | xori (h : Hdr) (f : FSI)
  /-- SHLI, opcode 0x20 (R356). Shift left by an immediate. -/
  | shli (h : Hdr) (f : FSI)
  /-- SHRI, opcode 0x21 (R356). Logical shift right by an immediate. -/
  | shri (h : Hdr) (f : FSI)
  /-- SRAI, opcode 0x22 (R356). Arithmetic shift right by an immediate. -/
  | srai (h : Hdr) (f : FSI)
  /-- LI, opcode 0x23 (R357). Load a sign-extended 40-bit immediate. -/
  | li (h : Hdr) (f : FSL)
  /-- LIH, opcode 0x24 (R357). Replace bits [63:40] with an immediate. -/
  | lih (h : Hdr) (f : FSL)
  /-- CMPEQ, opcode 0x25 (R358). Compare for equality. -/
  | cmpeq (h : Hdr) (f : FSR)
  /-- CMPNE, opcode 0x26 (R358). Compare for inequality. -/
  | cmpne (h : Hdr) (f : FSR)
  /-- CMPLT, opcode 0x27 (R358). Signed less-than compare. -/
  | cmplt (h : Hdr) (f : FSR)
  /-- CMPLTU, opcode 0x28 (R358). Unsigned less-than compare. -/
  | cmpltu (h : Hdr) (f : FSR)
  /-- CMPLE, opcode 0x29 (R358). Signed less-or-equal compare. -/
  | cmple (h : Hdr) (f : FSR)
  /-- CMPLEU, opcode 0x2A (R358). Unsigned less-or-equal compare. -/
  | cmpleu (h : Hdr) (f : FSR)
  /-- CMPEQI, opcode 0x2B (R358). Compare with an immediate for equality. -/
  | cmpeqi (h : Hdr) (f : FSI)
  /-- CMPLTI, opcode 0x2C (R358). Signed less-than compare with an immediate. -/
  | cmplti (h : Hdr) (f : FSI)
  /-- SEL, opcode 0x2D (R358). Select s[A] or s[B] by s[C]. -/
  | sel (h : Hdr) (f : FSR)
  /-- BR, opcode 0x2E (R360). Unconditional PC-relative branch. -/
  | br (h : Hdr) (f : FB)
  /-- BRR, opcode 0x2F (R360). Branch to the word address in s[A]. -/
  | brr (h : Hdr) (f : FSR)
  /-- BZ, opcode 0x30 (R360). Branch if s[A] is zero. -/
  | bz (h : Hdr) (f : FB)
  /-- BNZ, opcode 0x31 (R360). Branch if s[A] is non-zero. -/
  | bnz (h : Hdr) (f : FB)
  /-- BEQ, opcode 0x32 (R360). Branch if equal. -/
  | beq (h : Hdr) (f : FB)
  /-- BNE, opcode 0x33 (R360). Branch if not equal. -/
  | bne (h : Hdr) (f : FB)
  /-- BLT, opcode 0x34 (R360). Branch if signed less than. -/
  | blt (h : Hdr) (f : FB)
  /-- BGE, opcode 0x35 (R360). Branch if signed greater or equal. -/
  | bge (h : Hdr) (f : FB)
  /-- BLTU, opcode 0x36 (R360). Branch if unsigned less than. -/
  | bltu (h : Hdr) (f : FB)
  /-- BGEU, opcode 0x37 (R360). Branch if unsigned greater or equal. -/
  | bgeu (h : Hdr) (f : FB)
  /-- BQ, opcode 0x38 (R360). Branch if the matching QB outcome is 1. -/
  | bq (h : Hdr) (f : FB)
  /-- BQN, opcode 0x39 (R360). Branch if the matching QB outcome is 0. -/
  | bqn (h : Hdr) (f : FB)
  /-- CALL, opcode 0x3A (R361). Push the return address and branch. -/
  | call (h : Hdr) (f : FB)
  /-- CALLR, opcode 0x3B (R361). Push the return address and branch to s[A]. -/
  | callr (h : Hdr) (f : FSR)
  /-- RET, opcode 0x3C (R361). Pop a return address and continue there. -/
  | ret (h : Hdr)
  /-- QPOP, opcode 0x3D (R362). Pop the head of QS into s[D]. -/
  | qpop (h : Hdr) (f : FSR)
  /-- FQPUSH, opcode 0x3E (R363). Push a format word into QF. -/
  | fqpush (h : Hdr) (f : FSR)
  /-- PRIO, opcode 0x3F (R364). Request a change of the team's own priority class. -/
  | prio (h : Hdr) (f : FSI)
  /-- SLEEPNS, opcode 0x40 (R366). Wait d nanoseconds on the S walker. -/
  | sleepns (h : Hdr) (f : FSR)
  /-- RDLNC, opcode 0x41 (R367). Read the local nanosecond counter, or trap in pair mode. -/
  | rdlnc (h : Hdr) (f : FSR)
  /-- RDCSR, opcode 0x42 (R368). Read a control register. -/
  | rdcsr (h : Hdr) (f : FSR)
  /-- WRCSR, opcode 0x43 (R368). Write a control register under its own layout. -/
  | wrcsr (h : Hdr) (f : FSR)
  /-- LDS, opcode 0x44 (R369). Load from sequencer scratch. -/
  | lds (h : Hdr) (f : FSM)
  /-- STS, opcode 0x45 (R369). Store to sequencer scratch. -/
  | sts (h : Hdr) (f : FSM)
  /-- EXIT, opcode 0x46 (R370). Arrive at the exit barrier once every word has completed, with the team ending when all members
  arrive. -/
  | exit (h : Hdr)
  /-- AADD, opcode 0x50 (R374). a[X] ← a[Y] + a[Z]. -/
  | aadd (h : Hdr) (f : FAR)
  /-- ASUB, opcode 0x51 (R374). a[X] ← a[Y] − a[Z]. -/
  | asub (h : Hdr) (f : FAR)
  /-- AADDI, opcode 0x52 (R374). a[X] ← a[Y] + s[S] + m. -/
  | aaddi (h : Hdr) (f : FAI)
  /-- AMULI, opcode 0x53 (R374). a[X] ← a[Y] + s[S]·m. -/
  | amuli (h : Hdr) (f : FAI)
  /-- ASHLI, opcode 0x54 (R374). a[X] ← a[Y]·2^imm + s[S]. -/
  | ashli (h : Hdr) (f : FAI)
  /-- AMOV, opcode 0x55 (R374). a[X] ← s[S] + m. -/
  | amov (h : Hdr) (f : FAI)
  /-- AMOVI, opcode 0x56 (R374). Set the upper 32 bits of an a-register from an immediate. -/
  | amovi (h : Hdr) (f : FAI)
  /-- COPY, opcode 0x57 (R377). Move a block of bytes between global memory and towers. -/
  | copy (h : Hdr) (f : FAM)
  /-- COPY2D, opcode 0x58 (R379). Move R rows of W bytes with pitches. -/
  | copy2d (h : Hdr) (f : FAM)
  /-- GATHER, opcode 0x59 (R380). Gather indexed global rows into the tower. -/
  | gather (h : Hdr) (f : FAM)
  /-- SCATTER, opcode 0x5A (R380). Scatter tower rows to indexed global rows. -/
  | scatter (h : Hdr) (f : FAM)
  /-- LDQ, opcode 0x5B (R382). Load one value into QS or QV. -/
  | ldq (h : Hdr) (f : FAM)
  /-- AQEQ, opcode 0x5C (R375). Push a[X] = a[Y] into QB. -/
  | aqeq (h : Hdr) (f : FAR)
  /-- AQNE, opcode 0x5D (R375). Push a[X] ≠ a[Y] into QB. -/
  | aqne (h : Hdr) (f : FAR)
  /-- AQLT, opcode 0x5E (R375). Push the signed less-than outcome into QB. -/
  | aqlt (h : Hdr) (f : FAR)
  /-- AQLTU, opcode 0x5F (R375). Push the unsigned less-than outcome into QB. -/
  | aqltu (h : Hdr) (f : FAR)
  /-- AQEQI, opcode 0x60 (R375). Push the equality outcome against s[S] + m into QB. -/
  | aqeqi (h : Hdr) (f : FAI)
  /-- AQLTI, opcode 0x61 (R375). Push the signed less-than outcome against s[S] + m into QB. -/
  | aqlti (h : Hdr) (f : FAI)
  /-- KVMAP, opcode 0x62 (R383). Map a key in a block-store pool, allocating a block if it is absent. -/
  | kvmap (h : Hdr) (f : FAM)
  /-- KVSHARE, opcode 0x63 (R383). Map a new key onto an existing key's block. -/
  | kvshare (h : Hdr) (f : FAM)
  /-- KVFREE, opcode 0x64 (R383). Release every live entry of a sequence. -/
  | kvfree (h : Hdr) (f : FAM)
  /-- VIEW_DEF, opcode 0x65 (R384). Define a view slot and return its aliases. -/
  | viewDef (h : Hdr) (f : FAM)
  /-- BREFILL, opcode 0x66 (R385). Refill towers of a column set through broadcast columns. -/
  | brefill (h : Hdr) (f : FAM)
  /-- RFDEFER, opcode 0x67 (R387). Put refresh deferral in force with a limit, or end it. -/
  | rfdefer (h : Hdr) (f : FAI)
  /-- RFNOW, opcode 0x68 (R387). End deferral and start background passes. -/
  | rfnow (h : Hdr)
  /-- RDRETB, opcode 0x69 (R387). Push RETB into QS. -/
  | rdretb (h : Hdr)
  /-- XSH, opcode 0x70 (R388). Systolic shift of vector registers. -/
  | xsh (h : Hdr) (f : FXS)
  /-- XSHT, opcode 0x71 (R388). Systolic shift of tower lines. -/
  | xsht (h : Hdr) (f : FXS)
  /-- XSEND, opcode 0x72 (R390). Send tower bytes to a corridor address. -/
  | xsend (h : Hdr) (f : FXC)
  /-- XRECV, opcode 0x73 (R390). Read tower bytes from a corridor address. -/
  | xrecv (h : Hdr) (f : FXC)
  /-- XBCAST, opcode 0x74 (R390). Broadcast tower bytes to a set of classes. -/
  | xbcast (h : Hdr) (f : FXC)
  /-- VADD, opcode 0x78 (R400). Element-wise add. -/
  | vadd (h : Hdr) (f : FVR)
  /-- VSUB, opcode 0x79 (R400). Element-wise subtract. -/
  | vsub (h : Hdr) (f : FVR)
  /-- VMUL, opcode 0x7A (R400). Element-wise multiply. -/
  | vmul (h : Hdr) (f : FVR)
  /-- VFMA, opcode 0x7B (R400). Fused multiply-add. -/
  | vfma (h : Hdr) (f : FVR)
  /-- VFNMA, opcode 0x7C (R400). Fused negated multiply-add. -/
  | vfnma (h : Hdr) (f : FVR)
  /-- VMIN, opcode 0x7D (R400). Element-wise minimum. -/
  | vmin (h : Hdr) (f : FVR)
  /-- VMAX, opcode 0x7E (R400). Element-wise maximum. -/
  | vmax (h : Hdr) (f : FVR)
  /-- VABS, opcode 0x7F (R400). Absolute value. -/
  | vabs (h : Hdr) (f : FVR)
  /-- VNEG, opcode 0x80 (R400). Negation. -/
  | vneg (h : Hdr) (f : FVR)
  /-- VADDSAT, opcode 0x81 (R400). Saturating integer add. -/
  | vaddsat (h : Hdr) (f : FVR)
  /-- VSUBSAT, opcode 0x82 (R400). Saturating integer subtract. -/
  | vsubsat (h : Hdr) (f : FVR)
  /-- VMULH, opcode 0x83 (R400). High half of the integer product. -/
  | vmulh (h : Hdr) (f : FVR)
  /-- VADD_Q, opcode 0x84 (R401). Add a popped QV scalar. -/
  | vaddQ (h : Hdr) (f : FVR)
  /-- VSUB_Q, opcode 0x85 (R401). Subtract a popped QV scalar. -/
  | vsubQ (h : Hdr) (f : FVR)
  /-- VMUL_Q, opcode 0x86 (R401). Multiply by a popped QV scalar. -/
  | vmulQ (h : Hdr) (f : FVR)
  /-- VFMA_Q, opcode 0x87 (R401). Fused multiply-add with a QV scalar. -/
  | vfmaQ (h : Hdr) (f : FVR)
  /-- VMIN_Q, opcode 0x88 (R401). Minimum with a QV scalar. -/
  | vminQ (h : Hdr) (f : FVR)
  /-- VMAX_Q, opcode 0x89 (R401). Maximum with a QV scalar. -/
  | vmaxQ (h : Hdr) (f : FVR)
  /-- VAND_Q, opcode 0x8A (R401). AND with a QV scalar. -/
  | vandQ (h : Hdr) (f : FVR)
  /-- VOR_Q, opcode 0x8B (R401). OR with a QV scalar. -/
  | vorQ (h : Hdr) (f : FVR)
  /-- VXOR_Q, opcode 0x8C (R401). XOR with a QV scalar. -/
  | vxorQ (h : Hdr) (f : FVR)
  /-- VCMPEQ_Q, opcode 0x8D (R401). Compare for equality with a QV scalar. -/
  | vcmpeqQ (h : Hdr) (f : FVR)
  /-- VCMPLT_Q, opcode 0x8E (R401). Less-than compare with a QV scalar. -/
  | vcmpltQ (h : Hdr) (f : FVR)
  /-- VCMPLE_Q, opcode 0x8F (R401). Less-or-equal compare with a QV scalar. -/
  | vcmpleQ (h : Hdr) (f : FVR)
  /-- VAND, opcode 0x90 (R402). Bitwise AND. -/
  | vand (h : Hdr) (f : FVR)
  /-- VOR, opcode 0x91 (R402). Bitwise OR. -/
  | vor (h : Hdr) (f : FVR)
  /-- VXOR, opcode 0x92 (R402). Bitwise XOR. -/
  | vxor (h : Hdr) (f : FVR)
  /-- VNOT, opcode 0x93 (R402). Bitwise NOT. -/
  | vnot (h : Hdr) (f : FVR)
  /-- VPOPC, opcode 0x94 (R402). Population count per element. -/
  | vpopc (h : Hdr) (f : FVR)
  /-- VCLZ, opcode 0x95 (R402). Count of leading zeros per element. -/
  | vclz (h : Hdr) (f : FVR)
  /-- VSHL, opcode 0x96 (R402). Shift left by element. -/
  | vshl (h : Hdr) (f : FVR)
  /-- VSHR, opcode 0x97 (R402). Logical shift right by element. -/
  | vshr (h : Hdr) (f : FVR)
  /-- VSRA, opcode 0x98 (R402). Arithmetic shift right by element. -/
  | vsra (h : Hdr) (f : FVR)
  /-- VSHLI, opcode 0x99 (R402). Shift left by an immediate. -/
  | vshli (h : Hdr) (f : FVR)
  /-- VSHRI, opcode 0x9A (R402). Logical shift right by an immediate. -/
  | vshri (h : Hdr) (f : FVR)
  /-- VSRAI, opcode 0x9B (R402). Arithmetic shift right by an immediate. -/
  | vsrai (h : Hdr) (f : FVR)
  /-- VCMPEQ, opcode 0x9C (R403). Compare for equality into a mask. -/
  | vcmpeq (h : Hdr) (f : FVR)
  /-- VCMPNE, opcode 0x9D (R403). Compare for inequality into a mask. -/
  | vcmpne (h : Hdr) (f : FVR)
  /-- VCMPLT, opcode 0x9E (R403). Less-than compare into a mask. -/
  | vcmplt (h : Hdr) (f : FVR)
  /-- VCMPLE, opcode 0x9F (R403). Less-or-equal compare into a mask. -/
  | vcmple (h : Hdr) (f : FVR)
  /-- VCMPUN, opcode 0xA0 (R403). Unordered test into a mask. -/
  | vcmpun (h : Hdr) (f : FVR)
  /-- KAND, opcode 0xA1 (R404). Mask AND. -/
  | kand (h : Hdr) (f : FVR)
  /-- KOR, opcode 0xA2 (R404). Mask OR. -/
  | kor (h : Hdr) (f : FVR)
  /-- KXOR, opcode 0xA3 (R404). Mask XOR. -/
  | kxor (h : Hdr) (f : FVR)
  /-- KANDN, opcode 0xA4 (R404). Mask AND-NOT. -/
  | kandn (h : Hdr) (f : FVR)
  /-- KNOT, opcode 0xA5 (R404). Mask NOT. -/
  | knot (h : Hdr) (f : FVR)
  /-- KSET, opcode 0xA6 (R404). Set a mask from VL for a type. -/
  | kset (h : Hdr) (f : FVR)
  /-- VSEL, opcode 0xA7 (R405). Select elements by a mask. -/
  | vsel (h : Hdr) (f : FVR)
  /-- VCVT, opcode 0xA8 (R407). Convert between element types. -/
  | vcvt (h : Hdr) (f : FVR)
  /-- VWADD, opcode 0xA9 (R409). Widening add. -/
  | vwadd (h : Hdr) (f : FVR)
  /-- VWMUL, opcode 0xAA (R409). Widening multiply. -/
  | vwmul (h : Hdr) (f : FVR)
  /-- VWFMA, opcode 0xAB (R409). Widening fused multiply-add. -/
  | vwfma (h : Hdr) (f : FVR)
  /-- VDOT4, opcode 0xAC (R411). Four-way 8-bit dot product into 32 bits. -/
  | vdot4 (h : Hdr) (f : FVR)
  /-- VNRW, opcode 0xAD (R410). Narrow an interleaved pair or quad. -/
  | vnrw (h : Hdr) (f : FVR)
  /-- VRCP, opcode 0xAE (R412). Reciprocal to 16 significant bits. -/
  | vrcp (h : Hdr) (f : FVR)
  /-- VRSQ, opcode 0xAF (R412). Reciprocal square root to 16 significant bits. -/
  | vrsq (h : Hdr) (f : FVR)
  /-- VRCPF, opcode 0xB0 (R412). Newton refinement of a reciprocal. -/
  | vrcpf (h : Hdr) (f : FVR)
  /-- VRSQF, opcode 0xB1 (R412). Newton refinement of a reciprocal square root. -/
  | vrsqf (h : Hdr) (f : FVR)
  /-- VEXP2, opcode 0xB2 (R412). Power of two to 16 significant bits. -/
  | vexp2 (h : Hdr) (f : FVR)
  /-- VRSUM, opcode 0xB3 (R413). Sum reduction within a desk. -/
  | vrsum (h : Hdr) (f : FVR)
  /-- VRMAX, opcode 0xB4 (R413). Maximum reduction. -/
  | vrmax (h : Hdr) (f : FVR)
  /-- VRMIN, opcode 0xB5 (R413). Minimum reduction. -/
  | vrmin (h : Hdr) (f : FVR)
  /-- VRAMAX, opcode 0xB6 (R413). Largest-magnitude reduction. -/
  | vramax (h : Hdr) (f : FVR)
  /-- VPERM, opcode 0xB7 (R406). Permute elements by index. -/
  | vperm (h : Hdr) (f : FVR)
  /-- VSLIDEUP, opcode 0xB8 (R406). Slide elements up. -/
  | vslideup (h : Hdr) (f : FVR)
  /-- VSLIDEDN, opcode 0xB9 (R406). Slide elements down. -/
  | vslidedn (h : Hdr) (f : FVR)
  /-- VSPLAT, opcode 0xBA (R405). Broadcast one element. -/
  | vsplat (h : Hdr) (f : FVR)
  /-- VMOV, opcode 0xBB (R405). Copy a register under a mask. -/
  | vmov (h : Hdr) (f : FVR)
  /-- VMOVI, opcode 0xBC (R405). Fill elements with an immediate. -/
  | vmovi (h : Hdr) (f : FVI)
  /-- VLD, opcode 0xBD (R414). Load a register from contiguous tower lines. -/
  | vld (h : Hdr) (f : FVM)
  /-- VLDS, opcode 0xBE (R414). Strided tower load. -/
  | vlds (h : Hdr) (f : FVM)
  /-- VLDX, opcode 0xBF (R414). Indexed tower load. -/
  | vldx (h : Hdr) (f : FVM)
  /-- VST, opcode 0xC0 (R414). Store a register to contiguous tower lines, optionally naming a record. -/
  | vst (h : Hdr) (f : FVM)
  /-- VSTS, opcode 0xC1 (R414). Strided tower store. -/
  | vsts (h : Hdr) (f : FVM)
  /-- VSTX, opcode 0xC2 (R414). Indexed tower store. -/
  | vstx (h : Hdr) (f : FVM)
  /-- VQBC, opcode 0xC3 (R401). Broadcast a popped QV element. -/
  | vqbc (h : Hdr) (f : FVR)
  /-- MMA_BF16, opcode 0xC8 (R427). BF16 matrix step accumulated into an FP32 tile. -/
  | mmaBf16 (h : Hdr) (f : FMA)
  /-- MMA_E4M3, opcode 0xC9 (R427). E4M3 matrix step with accumulation. -/
  | mmaE4m3 (h : Hdr) (f : FMA)
  /-- MMA_E5M2, opcode 0xCA (R427). E5M2 matrix step with accumulation. -/
  | mmaE5m2 (h : Hdr) (f : FMA)
  /-- MMA_K4, opcode 0xCB (R427). K4 matrix step with accumulation. -/
  | mmaK4 (h : Hdr) (f : FMA)
  /-- MMAZ_BF16, opcode 0xCC (R427). BF16 matrix step without an accumulator addend. -/
  | mmazBf16 (h : Hdr) (f : FMA)
  /-- MMAZ_E4M3, opcode 0xCD (R427). E4M3 matrix step without an addend. -/
  | mmazE4m3 (h : Hdr) (f : FMA)
  /-- MMAZ_E5M2, opcode 0xCE (R427). E5M2 matrix step without an addend. -/
  | mmazE5m2 (h : Hdr) (f : FMA)
  /-- MMAZ_K4, opcode 0xCF (R427). K4 matrix step without an addend. -/
  | mmazK4 (h : Hdr) (f : FMA)
  /-- MZERO, opcode 0xD0 (R431). Zero an accumulator tile. -/
  | mzero (h : Hdr) (f : FMA)
  /-- MLDC, opcode 0xD1 (R431). Load an accumulator tile from the tower. -/
  | mldc (h : Hdr) (f : FMA)
  /-- MSTC, opcode 0xD2 (R431). Store an accumulator tile to the tower, optionally naming a record. -/
  | mstc (h : Hdr) (f : FMA)
  /-- MSTAT, opcode 0xD3 (R437). Copy a published record into a tower line. -/
  | mstat (h : Hdr) (f : FMA)
  /-- QCVT_K4, opcode 0xD4 (R433). Quantise an accumulator tile to K4 under a record scale. -/
  | qcvtK4 (h : Hdr) (f : FMQ)
  /-- QCVT_E4M3, opcode 0xD5 (R433). Quantise an accumulator tile to E4M3. -/
  | qcvtE4m3 (h : Hdr) (f : FMQ)
  /-- QCVT_E5M2, opcode 0xD6 (R433). Quantise an accumulator tile to E5M2. -/
  | qcvtE5m2 (h : Hdr) (f : FMQ)
  /-- CADD, opcode 0xD8 (R441). Release, then add a register value to a counter. -/
  | cadd (h : Hdr) (f : FCN)
  /-- CADDI, opcode 0xD9 (R441). Release, then add an immediate to a counter. -/
  | caddi (h : Hdr) (f : FCN)
  /-- CWAIT, opcode 0xDA (R443). Wait until a counter reaches a value, then acquire. -/
  | cwait (h : Hdr) (f : FCN)
  /-- CWAIT_T, opcode 0xDB (R444). Timed counter wait. -/
  | cwaitT (h : Hdr) (f : FCN)
  /-- CREAD, opcode 0xDC (R445). Read a counter. -/
  | cread (h : Hdr) (f : FCN)
  /-- BARRIVE, opcode 0xDD (R446). Arrive at a barrier and open the barrier region. -/
  | barrive (h : Hdr) (f : FCN)
  /-- BWAIT, opcode 0xDE (R448). Wait for the barrier's arrivals and bytes, then acquire. -/
  | bwait (h : Hdr) (f : FCN)
  /-- BEXP, opcode 0xDF (R447). Set the byte expectation. -/
  | bexp (h : Hdr) (f : FCN)
  /-- FENCE, opcode 0xE0 (R451). Place markers in engine queues. -/
  | fence (h : Hdr) (f : FCN)
  /-- JOIN, opcode 0xE1 (R451). Stop walkers until the markers reach their queue heads. -/
  | join (h : Hdr)
  /-- PHASE, opcode 0xE2 (R452). Release and acquire as one event. -/
  | phase (h : Hdr) (f : FCN)
  /-- AMO_ADD, opcode 0xE3 (R453). Atomic add. -/
  | amoAdd (h : Hdr) (f : FAO)
  /-- AMO_MAX, opcode 0xE4 (R453). Atomic unsigned maximum. -/
  | amoMax (h : Hdr) (f : FAO)
  /-- AMO_MIN, opcode 0xE5 (R453). Atomic unsigned minimum. -/
  | amoMin (h : Hdr) (f : FAO)
  /-- AMO_AND, opcode 0xE6 (R453). Atomic AND. -/
  | amoAnd (h : Hdr) (f : FAO)
  /-- AMO_OR, opcode 0xE7 (R453). Atomic OR. -/
  | amoOr (h : Hdr) (f : FAO)
  /-- AMO_XCHG, opcode 0xE8 (R453). Atomic exchange. -/
  | amoXchg (h : Hdr) (f : FAO)
  /-- AMO_CAS, opcode 0xE9 (R453). Atomic compare and swap. -/
  | amoCas (h : Hdr) (f : FAO)
  /-- SRREAD, opcode 0xEA (R455). Read a statistics record. -/
  | srread (h : Hdr) (f : FSR)
  /-- SRREAD_POL, opcode 0xEB (R455). Read a record and replace its policy. -/
  | srreadPol (h : Hdr) (f : FSR)
  /-- SRREAD_CLR, opcode 0xEC (R455). Read a record, clear it and set its policy. -/
  | srreadClr (h : Hdr) (f : FSR)
  /-- TRAP, opcode 0xF0 (R456). Raise the software trap at completion. -/
  | trap (h : Hdr) (f : FSI)
  /-- RETT, opcode 0xF1 (R457). Return from the trap handler. -/
  | rett (h : Hdr) (f : FSI)
  /-- HBEAT, opcode 0xF2 (R459). Record a firmware heartbeat and complete a live update. -/
  | hbeat (h : Hdr)
  /-- PLD, opcode 0xF3 (R460). Firmware load from physical memory. -/
  | pld (h : Hdr) (f : FSM)
  /-- PST, opcode 0xF4 (R460). Firmware store to physical memory. -/
  | pst (h : Hdr) (f : FSM)
  /-- EVPOP, opcode 0xF5 (R461). Pop an event from the timetable event queue. -/
  | evpop (h : Hdr) (f : FSR)
  /-- EVDONE, opcode 0xF6 (R461). Close an event with an action. -/
  | evdone (h : Hdr) (f : FSR)
  /-- MBXRD, opcode 0xF7 (R462). Read a mailbox register. -/
  | mbxrd (h : Hdr) (f : FSR)
  /-- MBXWR, opcode 0xF8 (R462). Write a mailbox register. -/
  | mbxwr (h : Hdr) (f : FSR)
  /-- FWCSR, opcode 0xF9 (R463). Read and optionally write a firmware register. -/
  | fwcsr (h : Hdr) (f : FSR)
  /-- SHOOT, opcode 0xFA (R464). Send a shoot-down to a partition and wait for its acknowledgements. -/
  | shoot (h : Hdr) (f : FSR)
  /-- REGISTER_WRITE (R62). A host write to a register that has no behaviour of its own, such as QBASE, HMTO or an MBARG register,
  stores the value, discarding writes to unlisted offsets. -/
  | registerWrite (fn : HostFn) (off : Nat) (v : BitVec 64)
  /-- INSTANCE_END (R70). An ended instance writes its completion record, performs the completion add on success and sends MSI-X if
  IRQ is set. -/
  | instanceEnd (inst : Nat)
  /-- NANOSECOND_WAIT_EXPIRY (R56). The countdown of a SLEEPNS or CWAIT.T timeout reaches zero. -/
  | nanosecondWaitExpiry (c : Nat)
  /-- NODE_KILL (R134). A killed node stops its teams, cancels in-flight work, discards staged writes, zeroes poisoned lines and
  clears its registers. -/
  | nodeKill (inst node : Nat) (cause : BitVec 8)
  /-- ANCHOR_SWAP_COMPLETE (R247). The completed anchor swap makes staged writes device-visible, performs the signal adds and
  restarts the hall monitor. -/
  | anchorSwapComplete (inst node : Nat)
  /-- PAGE_WALK_COMPLETE (R209). A walk of an inverted page table returns a frame or halts the A walker with a halt record. -/
  | pageWalkComplete (c : Nat)
  /-- CODE_PAGE_SCAN (R338). The scanner checks an executable frame at its first fetch and caches the result, refusing an offending
  frame. -/
  | codePageScan (c va : Nat)
  /-- FETCH_LINE_MISS (R350). A code line not held in the fetch buffers is read from its frame and checked by ECC. -/
  | fetchLineMiss (c va : Nat)
  /-- COUNTER_REQUEST_ARRIVAL (R253). The home synchronisation engine performs an add, wait or read in arrival order and
  re-evaluates waiting records. -/
  | counterRequestArrival (c id : Nat)
  /-- EPOCH_REQUEST (R242). The publication point serialises node-scope releases and acquires and assigns epochs. -/
  | epochRequest (c id : Nat)
  /-- RECORD_MERGE (R316). The home engine merges a class's partial into a statistics record and raises its GEN. -/
  | recordMerge (die idx c : Nat)
  /-- TRAP_MERGE (R321). The home engine raises a record's AMAX to the trapping QCVT's largest input and raises GEN. -/
  | trapMerge (c : Nat)
  /-- MAP_OP_ARRIVAL (R227). The pool's home die performs a KVMAP, KVSHARE or KVFREE in arrival order. -/
  | mapOpArrival (c id : Nat)
  /-- WORD_COMPLETION (R162). An issued word completes, and its reservation becomes a token while its token register is written. -/
  | wordCompletion (c id : Nat)
  /-- HALL_MONITOR_EXPIRY (R75). A queue's hall monitor count reaching HMTO starts the partition reset of the owning partition. -/
  | hallMonitorExpiry (k q : Nat)
  /-- COLD_START (R86). At power-good the boot ROM verifies the root key, firmware and repair record, self-tests, derives the
  identity key and starts firmware. -/
  | coldStart (b : BootInput)
  /-- WARM_RESET (R32). Warm reset sets the grant to level 2 until firmware writes a cap, and preserves the black box and the LNC. -/
  | warmReset
  /-- QWIDX_WRITE (R64). A write of a queue's write index makes entries pending, or halts the queue with ERR 2 on overrun. -/
  | qwidxWrite (k q : Nat) (v : BitVec 32)
  /-- QUEUE_ENABLE (R63). A QCTL write that sets EN starts consumption from QRIDX, or leaves EN 0 with ERR 1 when LOG2N is outside 4
  to 16. -/
  | queueEnable (k q : Nat) (v : BitVec 64)
  /-- QUEUE_DISABLE (R65). A QCTL write that clears EN stops consumption at an entry boundary while live instances continue. -/
  | queueDisable (k q : Nat) (v : BitVec 64)
  /-- ENTRY_NOP (R68). A consumed NOP launch entry writes a completion record with status 0x00. -/
  | entryNop (k q : Nat)
  /-- ENTRY_LAUNCH (R99). A consumed LAUNCH entry starts the one-time read and check of the graph snapshot. -/
  | entryLaunch (k q : Nat)
  /-- LAUNCH_ACCEPTANCE (R100). When the snapshot checks end, the instance is accepted as held or refused with the lowest failing
  status. -/
  | launchAcceptance (k q : Nat)
  /-- ENTRY_CADD (R68). A consumed CADD entry adds CVAL to counter CCTR as a device-scope release and writes its completion record. -/
  | entryCadd (k q : Nat)
  /-- ENTRY_CWAIT (R68). A consumed CWAIT entry blocks the queue until counter SCTR is at least SVAL. -/
  | entryCwait (k q : Nat)
  /-- ENTRY_CWAIT_SATISFIED (R68). When its counter condition is met, a blocked CWAIT entry writes its completion record and the
  queue moves on. -/
  | entryCwaitSatisfied (k q : Nat)
  /-- ENTRY_READ_ERROR (R64). A read completion for a queue entry that carries an error halts the queue with ERR 3. -/
  | entryReadError (k q : Nat)
  /-- INSTANCE_START (R101). A held instance whose counter, handle and exclusivity conditions are all met takes its counters, sets
  them to zero and starts running. -/
  | instanceStart (inst : Nat)
  /-- PART_CREATE (R80). The mailbox command creates partition k, zeroes its counters, sets STATE 1 and enables its VF, or is
  refused. -/
  | partCreate
  /-- PART_DESTROY (R80). The mailbox command scrubs and frees a halted partition and disables its VF. -/
  | partDestroy
  /-- PART_RESET (R80). The mailbox command runs the partition reset sequence with status 0x07 and STATE 5. -/
  | partReset
  /-- PART_REARM (R78). The mailbox command returns a halted or fenced partition to running and clears halts on queues with ERR 0 or
  4. -/
  | partRearm
  /-- FW_LOAD (R91). The mailbox command loads, scans and verifies a firmware image into the standby slots and extends measurement
  7. -/
  | fwLoad
  /-- FW_ACTIVATE (R92). The mailbox command stops queues, freezes timers, writes the handover structure and starts the new image at
  the transfer point. -/
  | fwActivate
  /-- FW_REVERSION (R93). No HBEAT within 10 ms of the transfer point stops the new image and resumes the old one. -/
  | fwReversion
  /-- PAIR_CONFIG (R80). The mailbox command forms a pair with a peer package for a set of partitions. -/
  | pairConfig
  /-- PCAP_WRITE (R81). A write of the level cap is applied by firmware within 10 µs. -/
  | pcapWrite (v : BitVec 64)
  /-- BBCTL_WRITE (R85). A write of black-box control sets or clears FRZ, freezing recording and clearing LOST. -/
  | bbctlWrite (die : Nat) (v : BitVec 64)
  /-- READBACK_READ (R83). A host read of the PF0 read-back window returns each 64-byte line as it stood at one moment. -/
  | readbackRead (off : Nat)
  /-- READBACK_WRITE (R83). A host write to the read-back window completes as Unsupported Request with no effect. -/
  | readbackWrite (off : Nat) (v : BitVec 64)
  /-- HOST_BAR_READ (R262). A host read through a partition BAR returns device-visible contents, or Completer Abort on poison, or UR
  when the address is unbacked or the VF is unconfigured. -/
  | hostBarRead (fn : HostFn) (bar off n : Nat)
  /-- HOST_BAR_WRITE (R236). A host write through a partition BAR is an unstaged write to the device-visible contents. -/
  | hostBarWrite (k off : Nat) (data : List (BitVec 8))
  /-- HOST_ATOMICOP (R23). A host AtomicOp is executed at the controller of the home HBM stack. -/
  | hostAtomicop (k off : Nat) (op : HostAtomic) (wide : Bool) (x y : BitVec 64)
  /-- GET_VERSION (R89). The SPDM responder answers GET_VERSION over DOE. -/
  | getVersion
  /-- GET_CAPABILITIES (R89). The SPDM responder answers GET_CAPABILITIES. -/
  | getCapabilities
  /-- NEGOTIATE_ALGORITHMS (R89). The SPDM responder negotiates RSASSA-3072, SHA-256, FFDHE3072 and AES-256-GCM. -/
  | negotiateAlgorithms (rsassa3072 sha256 ffdhe3072 aes256gcm : Bool)
  /-- GET_DIGESTS (R89). The SPDM responder returns the certificate chain digest of slot 0. -/
  | getDigests
  /-- GET_CERTIFICATE (R89). The SPDM responder returns the slot-0 certificate chain. -/
  | getCertificate (slot off len : Nat)
  /-- CHALLENGE (R89). The SPDM responder signs a challenge with the identity key. -/
  | challenge (slot : Nat) (nonce : BitVec 256)
  /-- GET_MEASUREMENTS (R90). The SPDM responder returns measurements 1 to 8, signed when requested. -/
  | getMeasurements (index : Nat) (signed : Bool) (nonce : BitVec 256)
  /-- KEY_EXCHANGE (R89). The SPDM responder performs an FFDHE3072 key exchange to open a secure session. -/
  | keyExchange (slot : Nat) (pub : Nat)
  /-- FINISH (R89). The SPDM responder completes the secure session handshake. -/
  | finish (session : Nat) (mac : BitVec 256)
  /-- HEARTBEAT (R89). The SPDM responder answers a session heartbeat. -/
  | heartbeat (session : Nat)
  /-- END_SESSION (R89). The SPDM responder closes a secure session. -/
  | endSession (session : Nat)
  /-- POWER_EVALUATION (R32). Every 10 µs the power controller evaluates rail telemetry and may lower the grant or raise it by one
  level. -/
  | powerEvaluation (target : BitVec 3)
  /-- FREQUENCY_TRANSITION (R34). A class clock reaches a new value without a glitch, and nanosecond waits convert their remainder. -/
  | frequencyTransition (c : Nat)
  /-- SENSOR_SAMPLE (R52). Every 1 µs the hotspot guard samples the junction sensors and lowers or releases the thermal cap. -/
  | sensorSample (c t0 t1 t2 t3 : Nat)
  /-- RAMP_PERMIT_STEP (R44). Every 250 ns a class's ramp permit rises by 8 units until it reaches 32. -/
  | rampPermitStep (c : Nat)
  /-- WINDOW_ARBITRATION (R49). In each 8-ck window each vertical pair of units is granted full or half rate. -/
  | windowArbitration (c pair : Nat) (computeAsks baseAsks : Bool)
  /-- LNC_TICK (R54). Each 125 MHz reference tick advances every class's LNC by 8. -/
  | lncTick
  /-- SHADOW_LATCH_REPLAY (R123). A late transition caught by a shadow latch replays the stage for 2 ck and enters a 64-ck replay
  hold. -/
  | shadowLatchReplay (c : Nat)
  /-- REPLAY_HOLD_END (R123). After 64 ck the replay hold ends and the class returns to its clock with its detectors armed. -/
  | replayHoldEnd (c : Nat)
  /-- REPLAY_GOVERNOR_WINDOW (R125). At the end of each 1 µs window the replay governor lowers or raises its clock cap. -/
  | replayGovernorWindow (c : Nat)
  /-- CORRECTABLE_ERROR (R126). A correctable error in a class memory freezes the class for 24 ck, writes back the word and enters
  it in the patch table. -/
  | correctableError (c : Nat) (m : ClassMem) (loc : BitVec 56)
  /-- FREEZE_END (R126). After 24 ck the freeze ends, held results land and the 256-ck freeze guard begins. -/
  | freezeEnd (c : Nat)
  /-- FREEZE_GUARD_END (R128). After 256 ck the freeze guard ends. -/
  | freezeGuardEnd (c : Nat)
  /-- UNCORRECTABLE_ERROR (R129). An uncorrectable error detected without consumption marks its unit as media poison. -/
  | uncorrectableError (u : PUnit)
  /-- REFRESH_TICK (R181). Each 1 µs reference tick adds w(T) to the consumption of every tower in use. -/
  | refreshTick
  /-- BACKGROUND_PASS_START (R184). A background refresh pass starts on a tower whose consumption is at least 1,000,000 with no
  deferral in force. -/
  | backgroundPassStart (c t : Nat)
  /-- REFRESH_PASS_COMPLETE (R183). A completed refresh pass resets the tower's consumption to that accumulated since the pass
  began. -/
  | refreshPassComplete (c t : Nat)
  /-- FORCING (R187). A tower's consumption reaching LIM or 1,950,000 clears deferral, starts forced passes, stops refills and
  raises the refresh-forced trap. -/
  | forcing (c : Nat)
  /-- REFILL_REINJECT (R188). With THND = 0, firmware re-injects stopped refills from their NEXT beat once FRC is 0 on every class
  of the column set. -/
  | refillReinject (c id : Nat)
  /-- NODE_READY (R105). A node becomes ready when its wait-edge counter reaches WAITV, as a device-scope acquire. -/
  | nodeReady (inst node : Nat)
  /-- DISPENSE_SCAN (R113). The timetable unit scans its items in key order and dispatches each item it can place. -/
  | dispenseScan
  /-- VICTIM_DECISION (R118). The cost estimator decides for each victim whether it drains, is discarded or is saved. -/
  | victimDecision (team : Nat)
  /-- DRAIN_BOUND_EXPIRY (R118). A draining team that has not ended within Tdrain + Tsave is decided again without rows 1 and 2. -/
  | drainBoundExpiry (team : Nat)
  /-- SAVE_COMPLETE (R281). The team's image is written whole and its classes become free. -/
  | saveComplete (team : Nat)
  /-- RESUME_COMPLETE (R282). After restore, re-injection and acquire, the resumed team's walkers restart from their recorded
  positions. -/
  | resumeComplete (team : Nat)
  /-- NODE_RETIREMENT (R106). When its last team ends, a node exchanges its pair digest and begins the anchor swap. -/
  | nodeRetirement (inst node : Nat)
  /-- PAIR_DIGEST_RECEIVED (R138). The master compares the partner's digest with its own and sends COMMIT or ABORT. -/
  | pairDigestReceived (inst node rollbacks : Nat) (digest : BitVec 256)
  /-- PAIR_DIGEST_TIMEOUT (R138). No partner digest within 50 µs makes the master ABORT and count a mismatch. -/
  | pairDigestTimeout (inst node : Nat)
  /-- PAIR_DECISION_RECEIVED (R138). A received COMMIT or ABORT makes the package swap anchors or kill the node. -/
  | pairDecisionReceived (inst node : Nat) (v : PairVerdict)
  /-- PAIR_DECISION_TIMEOUT (R138). A partner with no decision within 100 µs of sending its digest fences the partition. -/
  | pairDecisionTimeout (inst node : Nat)
  /-- KILL_NOTICE_RECEIVED (R139). A kill notice from the peer kills the same node on this package. -/
  | killNoticeReceived (inst : Nat) (node : KilledNode)
  /-- FENCE_NOTICE_RECEIVED (R140). A fence notice from the peer fences the partition on this package. -/
  | fenceNoticeReceived (k : Nat)
  /-- PAIR_SELECTION_RECEIVED (R43). The master's schedule selection is taken by the partner's waiting PSW, or treated as a mismatch
  when its ordinal differs. -/
  | pairSelectionReceived (c : IterTag) (ord : Nat) (e : BitVec 2)
  /-- PAIR_SELECTION_TIMEOUT (R43). No selection within 50 µs of the partner reaching a PSW counts as a pair digest mismatch. -/
  | pairSelectionTimeout (c : Nat)
  /-- PAIR_SAVE_DECISION_TIMEOUT (R283). A partner that receives no pre-emption decision within 50 µs fences the partition. -/
  | pairSaveDecisionTimeout (team : Nat)
  /-- CORRIDOR_REQUEST_ARRIVAL (R141). The destination performs a corridor request exactly once and acknowledges it,
  re-acknowledging duplicates. -/
  | corridorRequestArrival (src : CorSource) (seq : BitVec 16)
  /-- CORRIDOR_ACK_TIMEOUT (R142). An unacknowledged request is resent by the alternate route after 4 µs, and a delivery fault
  follows the third resend. -/
  | corridorAckTimeout (c : Nat) (seq : BitVec 16)
  /-- STAIRWELL_DRAIN (R143). Firmware installs alternate routing tables and marks a stairwell router draining. -/
  | stairwellDrain (die r : Nat)
  /-- STAIRWELL_RETIRE (R143). A draining router whose in-flight count reaches zero is retired. -/
  | stairwellRetire (die r : Nat)
  /-- STAIRWELL_FAILURE (R144). An abrupt router failure loses its packets and firmware installs alternate tables within 50 µs. -/
  | stairwellFailure (die r : Nat)
  /-- K_LINK_FLIT_RETRY (R24). A flit that fails its check is retried, and eight retries in a row take the link down. -/
  | kLinkFlitRetry (link : Nat)
  /-- LINK_TRAINING (R26). Link training detects crossed or missing pair cables and reports them, so that the pair is not formed. -/
  | linkTraining (straight : Bool) (far : List (BitVec 8))
  /-- BRIDGE_LANE_FAILURE (R29). A failed bridge lane is replaced by a spare within 2 µs, or the bridge runs at 7/8 of its
  bandwidth. -/
  | bridgeLaneFailure (dir lane : Nat)
  /-- SHOOTDOWN_RECEIPT (R214). A class's translation port receives a shoot-down for a VPN and drops its cached translation. -/
  | shootdownReceipt (c : Nat) (vpn : BitVec 40)
  /-- SHOOTDOWN_ACK (R214). The port acknowledges once every access and word that used the translation has completed or halted. -/
  | shootdownAck (c : Nat) (vpn : BitVec 40)
  /-- MIGRATION (R216). The base die moves a page to a free frame and relinks its chain, or aborts on error. -/
  | migration (table src dst : Nat) (err : Bool) (bad : List Nat)
  /-- WAIT_CANCEL_ARRIVAL (R254). A timed-wait cancel that arrives before any satisfying add ends the wait with timeout status. -/
  | waitCancelArrival (c id : Nat)
  /-- REMAP_TABLE_WRITE (R189). Firmware writes a remap entry of a class that belongs to no partition, refusing invalid or duplicate
  spares. -/
  | remapTableWrite (c d phys : Nat)
  /-- RTBL_WRITE (R199). Firmware installs a router's primary and alternate stairwells, refusing retired or failed stairwells. -/
  | rtblWrite (c pri alt : Nat)
  /-- PAIR_SAVE_DECISION_RECEIVED (R283). The partner package receives the master's drain, discard or save decision for a team on
  the pair links and applies it to its own copy of the team. -/
  | pairSaveDecisionReceived (team : Nat) (act : TeamAct)
  /-- KEY_PROVISIONING (R229). In an SPDM secure session the host provisions the XTS key pair and integrity key of a confidential
  partition into the key slots of both base dies. -/
  | keyProvisioning (k : Nat) (key1 key2 ikey : BitVec 256)
  deriving DecidableEq, Repr, Inhabited

end Sys2Proof
end

