-- ==== Sys2Proof/Config.lean ====
section
/-!
DEFINITION. What the spec leaves to the implementation or leaves open: free values, constants with no body. A claim
holds whatever they are.
-/

namespace Sys2Proof

/-- Who executes a word: a class's walker, or the timetable processor of a die (R153, R458). -/
inductive Ctx where
  | cls (c : Nat) (e : Eng)
  | fw (die : Nat)
  deriving DecidableEq, Repr, Inhabited

/-- What moves in one step (log 1): an event of the outside or of a device unit, the walker `e` of class `c`, the
timetable processor of a die, or the firmware's prescribed service of the oldest event of a die (R188, R213, R270,
R322). -/
inductive Mover where
  | event (i : Instr)
  | walker (c : Nat) (e : Eng)
  | fw (die : Nat)
  | service (die : Nat)
  deriving DecidableEq, Repr, Inhabited

namespace Config

/-- Which agent moves when the agenda is empty; applied to the step counter (log 1). -/
opaque arbiter : Nat → Mover

/-- LNC of a class at a power-up, applied to 40 times the number of the power-up plus the class (R54, R55 leave it open;
log 5). -/
opaque lncBase : Nat → BitVec 64

/-- A value the spec states no result for; applied to the step counter (log 8). -/
opaque freeWord : Nat → BitVec 64

/-- A byte the spec leaves open (the opaque block of R276); applied to the step counter and an index. -/
opaque freeByte : Nat → Nat → BitVec 8

/-- Whether a fused multiply-add of 0 and ∞ with a quiet NaN addend signals invalid, which IEEE 754-2019 leaves to the
implementation (R298; log 20). -/
opaque fmaInvalid : Bool

/-! Functions of standards that the spec names and does not write out: uninterpreted (log 23). -/

/-- What the signed image format holds, which the spec does not lay out: whether the signature verifies (R86), the digest it
covers, whether the range of handover versions includes 1 (R91), the security version (R88), the code lines. -/
opaque imageSigned : List (BitVec 8) → Bool
opaque imageDigest : List (BitVec 8) → BitVec 256
opaque imageTakesHandover1 : List (BitVec 8) → Bool
opaque imageSvn : List (BitVec 8) → BitVec 32
opaque imageLines : List (BitVec 8) → List (BitVec 512)

/-- The frame of H0 that holds the handover memory (R92, R463). -/
opaque handoverFrame : Nat

/-- The physical address of a die's save area, in frames of that die that firmware owns (R271; log 25). -/
opaque saveArea : Nat → Nat

/-- Where a class's window of BAR2 shows its sequencer scratch, beyond the remap table: R82 gives no offset (log 53). -/
opaque scratchShown : Nat

/-- Where the timetable state of a die's read-back block shows the heartbeat word, which R82 and R459 name without an offset (log
41). -/
opaque beatShown : Nat

/-- The frames of a stack, by the first one's number, that hold its inverted page table, and those that hold its anchor array
(R207, R209; log 6). -/
opaque tableFrame : Nat → Nat
opaque anchorFrame : Nat → Nat

/-- The address, in sectors, under which a sector of an encrypted frame is stored that nothing has addressed yet (R230; log 56). -/
opaque sectorVa : Nat → Nat

/-- The offset of MBARG7 in PF0 BAR0, which R79's seven offsets for eight registers leave open (log 40). -/
opaque mbarg7At : Nat

/-- What the telemetry block of a die shows at an offset, of its ballast time (ns) and energy (unit-ns): R82 lays no layout down
(log 41). -/
opaque telemetry : Nat → Nat → Nat → BitVec 8

/-- A byte of an entry of the image directory, of the instance, node, iteration ordinal, offset and length it gives: R82 lays the
64 bytes not out (log 41). -/
opaque directoryByte : Nat → Nat → Nat → Nat → Nat → Nat → BitVec 8

/-- The 64 KiB frame, by number, behind a 64 KiB piece of a partition's BAR2 window (R22; log 24). -/
opaque barFrame : Nat → Nat → Nat

/-- Digests whose input the spec does not lay out: of the partition table, of a pair configuration (peer, master, set), of the
boot configuration (R90; log 23). -/
opaque partitionDigest : List (Nat × List (BitVec 64)) → BitVec 256
opaque pairDigest : Nat → Bool → Nat → BitVec 256
opaque bootDigest : Bool → Nat → BitVec 256

/-- The certificate chain of slot 0, a signature with the identity key, the verification data of a session (R87, R89). -/
opaque certChain : List (BitVec 8)
opaque signature : List (BitVec 8) → List (BitVec 8)
opaque sessionMac : Nat → BitVec 256
opaque exchangeKey : Nat → Nat → List (BitVec 8)

end Config
end Sys2Proof
end

