-- ==== Sys2Proof/Machine/State.lean ====
section
/-!
DEFINITION. The state of the machine as plain data: everything INVENTORY.md lists under '## State', the reasons a step
can stop, and the machine right after reset.
-/

namespace Sys2Proof.Machine

/-- Why a step stops with a fault. -/
inductive Fault where
  /-- The walker that moves has no instruction at its position: the bytes the fetch path delivered are not an
  instruction (R336). Raised by `step`; safe: the scanner lets no such word through (R339). -/
  | notAnInstruction
  deriving DecidableEq, Repr, Inhabited

/-- Why a step has no meaning. -/
inductive Refusal where
  /-- The instruction has no meaning yet. Raised by an arm of `exec`; safe. -/
  | notModelled (mnemonic : String)
  deriving DecidableEq, Repr, Inhabited

/-! ## A class -/

/-- An active hardware loop of a walker (R172): first word of the body, word after it, passes left. -/
structure LoopCtx where
  start : Nat
  stop : Nat
  cnt : Nat
  run : Nat
  deriving DecidableEq, Repr, Inhabited

/-- A walker (R154, R156, R172, R361): program counter as a word index, text ordinal, loops (innermost first), return
stack (innermost first), QB branches passed, parked by a trap handler (R267), at EXIT (R157). -/
structure Walker where
  wi : Nat := 0
  ord : Nat := 0
  loops : List LoopCtx := []
  rstack : List Nat := []
  qbSeen : Nat := 0
  parked : Bool := false
  atExit : Bool := false
  deriving DecidableEq, Repr, Inhabited

/-- A word instance that some walker has passed and its own walker has not issued yet (R335). -/
structure PathWord where
  ord : Nat
  eng : Eng
  instr : Instr
  deriving DecidableEq, Repr, Inhabited

/-- Where an issued word that has not completed stands. -/
inductive OpStatus where
  /-- issued; its request or data movement is under way -/
  | issued
  /-- a waiting record stands at the home synchronisation engine (R253); of a QCVT, its trap merge is under way (R321) -/
  | waiting
  /-- the countdown of a CWAIT.T has expired and the cancel is under way (R254) -/
  | cancelling
  /-- halted in a later batch (R211) -/
  | halted
  /-- stopped by forcing (R196, R188) -/
  | stopped
  /-- a QCVT that RETT lets issue again (R269) -/
  | again
  /-- rescale raised: issued, writes nothing until it issues again (R265) -/
  | rescale
  /-- the answer of the request is there; the word completes -/
  | answered
  deriving DecidableEq, Repr, Inhabited

/-- A view slot (R220, R274). -/
structure ViewSlot where
  defined : Bool := false
  base : Nat := 0
  pitch : Nat := 0
  nc : Nat := 0
  nr : Nat := 0
  e : Nat := 0
  deriving DecidableEq, Repr, Inhabited

/-- One side of a data movement: a tower offset of a desk of a class; a window-table address; an offset of a view in a slot; a
block-store handle, which resolves on every use (R226); a line read at issue, with its poison (R163); none. -/
inductive End where
  | tower (c desk off : Nat)
  | mem (va : Nat)
  | view (slot : Nat) (v : ViewSlot) (tiled : Bool) (off : Nat)
  | handle (va : Nat)
  | line (bs : List Byte) (p : Option Bool)
  | none
  deriving DecidableEq, Repr, Inhabited

/-- `len` bytes to move, in access order. -/
structure Move where
  src : End
  dst : End
  len : Nat
  deriving DecidableEq, Repr, Inhabited

/-- A class's partial of a statistics record (R315): record handle, largest magnitude (FP32), bins, count, OVF. -/
structure Partial where
  hdl : Nat
  amax : W32 := 0
  bins : List Nat := List.replicate 16 0
  count : Nat := 0
  ovf : Bool := false
  deriving DecidableEq, Repr, Inhabited

/-- A corridor request of an issued word (R141, R142): how often it was sent again, the reference tick of the last sending (none:
it has not left), whether a router lost that (R144), the stairwells on its way by die and number (R200), whether it has been
performed and acknowledged. -/
structure Sending where
  sends : Nat := 0
  left : Option Nat := none
  lost : Bool := false
  wells : List (Nat × Nat) := []
  done : Bool := false
  deriving DecidableEq, Repr, Inhabited

/-- A tower line of a word that takes its lines pass by pass (R416, R434): the pass, desk, register unit, tower offset, enabled lanes,
the line with its poison once it is known. -/
structure Strip where
  pass : Nat
  desk : Nat
  unit : Nat
  off : Nat
  mask : Nat
  line : List Byte := []
  p : Option Bool := none
  deriving DecidableEq, Repr, Inhabited

/-- An issued word that has not completed (an entry of the replay queue, R277): its number (in issue order), ordinal, the run it
belongs to (0 the kernel's path, else the number of a handler run), its engine, the values it read at issue, its status, bytes
already accessed (PROG of R211), the reference tick of its issue, the sequence number of its first corridor request and those
requests (R141), the movements that it presented at issue (R203), the translations that it holds, by page and frame (R211, R214),
what it has measured so far and the bytes it wrote of elements not yet whole, by record and address (R314), the class-clock cycles
left of its nanosecond wait (R56), a result that a freeze holds, by scalar register (R126), the view slots as a GATHER or SCATTER
issued with them (R220) and what it has read again of its index lists after a halt (R381), the tower lines of a word that takes
them pass by pass. `prog` counts bytes (R211), waves (R428) or passes. -/
structure InFlight where
  id : Nat
  ord : Nat
  run : Nat
  eng : Eng
  instr : Instr
  ops : List W64 := []
  status : OpStatus := .issued
  prog : Nat := 0
  start : Nat := 0
  seq : Option Nat := none
  reqs : List Sending := []
  moves : List Move := []
  pages : List (Nat × Nat) := []
  meas : List Partial := []
  odd : List (Nat × Nat × Byte) := []
  rem : Nat := 0
  held : Option (List (Nat × W64)) := none
  slots : List ViewSlot := []
  index : List (List Nat) := []
  segs : List Strip := []
  deriving DecidableEq, Repr, Inhabited

/-- A word of a saved team whose requests have left and are not acknowledged: the class's router keeps the resend duty (R280). -/
structure Routed where
  team : Nat
  inst : Nat
  node : Nat
  op : InFlight
  deriving DecidableEq, Repr, Inhabited

/-- The halt record (R211), with the table that halted and the event that went to firmware. -/
structure HaltRec where
  fva : W64 := 0
  ord : Nat := 0
  cause : Byte := 0
  kind : Byte := 0
  valid : Bool := false
  table : Nat := 0
  prog : Nat := 0
  ev : Nat := 0
  deriving DecidableEq, Repr, Inhabited

/-- A cause: held pending while the handler runs (R268, R264), or taken (R265, R269). `op` is the issued word that raised it; none
for a word that had not issued and for the class's own. -/
structure Cause where
  code : Byte
  eng : Option Eng
  ord : Nat
  tinfo : W64
  op : Option Nat := none
  deriving DecidableEq, Repr, Inhabited

/-- The block the S walker is in (R132): header's word index, words left, CRC so far, CRC carried. -/
structure BlockSig where
  head : Nat
  left : Nat
  crc : BitVec 16
  want : BitVec 16
  deriving DecidableEq, Repr, Inhabited

/-- A FENCE passed by a walker (R251): its place on the path and the queues it names. -/
structure FenceMark where
  id : Nat
  ord : Nat
  run : Nat
  qset : BitVec 3
  deriving DecidableEq, Repr, Inhabited

/-- The trap frame (R266, R274): the interrupted walkers, TFMT, what the interlocks held for the interrupted path. -/
structure TrapFrame where
  run : Nat
  block : Option BlockSig
  ws : Walker
  wa : Walker
  wv : Walker
  wm : Walker
  wx : Walker
  pend : List PathWord
  resolved : List (Nat × Nat)
  deriving DecidableEq, Repr, Inhabited

/-- A partial on the way to its record's home (R260): the class that sent it, the node that it ran. -/
structure Transit where
  cls : Nat
  inst : Nat
  node : Nat
  part : Partial
  deriving DecidableEq, Repr, Inhabited

/-- A refresh pass that runs on a tower (R183): tower, consumption at its beginning, forced. -/
structure Pass where
  tower : Nat
  at0 : Nat
  forced : Bool
  deriving DecidableEq, Repr, Inhabited

/-- A GATHER or SCATTER that has taken its tokens and not issued (R381): where it stands, what it has read of its index lists, by
desk, unless a page fault made it forget them. -/
structure Taken where
  run : Nat
  ord : Nat
  index : Option (List (List Nat))
  deriving DecidableEq, Repr, Inhabited

/-- A class: sequencer, walkers, desks (R149-R152). Per-desk registers are keyed desk·32 + v, desk·8 + k, desk·4 + c. `busy`:
matrix work goes on, `load`: the matrix-rail load, ballast included, in 1/625 of a unit (R44, R45); `batch`: the translations of
the first batch of the word that the A walker issues; `trap`: the cause that the handler or firmware serves; `qhead`: pops made
from QS, QV and QF, by queue, below the queue's size; `regionOp`: the BARRIVE that opened the barrier region; `answers`: the lines
with which the class has answered reads of other packages, by source and sequence number, of those in `seen` (R141); `strictOld`:
what STRICT held before a WRCSR, by run and ordinal; `retire`: words that RETT retired, by engine, run and ordinal (R269). -/
structure ClassState where
  sreg : Tbl W64 := []
  areg : Tbl W64 := []
  ws : Walker := {}
  wa : Walker := {}
  wv : Walker := {}
  wm : Walker := {}
  wx : Walker := {}
  tok : Tbl Nat := []
  rsv : Tbl Nat := []
  qs : List W64 := []
  qv : List W64 := []
  qb : List Bool := []
  qf : List W64 := []
  qbAll : List Bool := []
  slip : BitVec 13 := 0x1000
  vl : BitVec 10 := 0x200
  thnd : W64 := 0
  srseed : W64 := 1
  strict : BitVec 2 := 0
  strictOld : List (Nat × Nat × BitVec 2) := []
  vlOld : List (Nat × BitVec 10) := []
  ceil : BitVec 2 := 0
  own : BitVec 2 := 0
  eff : BitVec 2 := 0
  clks : BitVec 4 := 4
  hub : Nat := 8
  vsel : BitVec 2 := 0
  kbkt : Nat := 0
  klvl : BitVec 3 := 2
  bal : Bool := false
  busy : Bool := false
  load : Nat := 0
  tcode : Byte := 0
  teng : BitVec 3 := 7
  hmode : Bool := false
  tord : BitVec 48 := 0
  tinfo : W64 := 0
  remap : Tbl Nat := []
  views : List ViewSlot := []
  halt : HaltRec := {}
  frame : Option TrapFrame := none
  tfmt : Option W64 := none
  causes : List Cause := []
  trap : Option Cause := none
  qhead : Tbl Nat := []
  region : Option W64 := none
  regionCount : Nat := 0
  regionOp : Nat := 0
  bexp : BitVec 40 := 0
  inflight : List InFlight := []
  nextId : Nat := 0
  pend : List PathWord := []
  resolved : List (Nat × Nat) := []
  block : Option BlockSig := none
  run : Nat := 0
  runs : Nat := 0
  fences : List FenceMark := []
  retire : List (Eng × Nat × Nat) := []
  taken : List Taken := []
  partials : List Partial := []
  fetchBuf : List (Nat × Nat × Line) := []
  loopBuf : Tbl W80 := []
  tcache : List (Nat × Nat) := []
  batch : List (Nat × Nat) := []
  walk : Option Nat := none
  shootAcks : List Nat := []
  sectors : List (Nat × Nat) := []
  dirty : Tbl Bool := []
  patch : List (ClassMem × Nat) := []
  frozen : Bool := false
  guard : Bool := false
  replayHold : Bool := false
  govCap : Option Nat := none
  replays : Nat := 0
  quiet : Nat := 0
  permit : Nat := 8
  refusals : List Nat := []
  temps : List Nat := [25, 25, 25, 25]
  thermRow : Nat := 0
  thermBelow : Nat := 0
  thermPeak : Nat := 0
  rpri : Nat := 0
  ralt : Nat := 0
  seqNo : BitVec 16 := 0
  seen : List (Nat × Nat) := []
  answers : List (Nat × Nat × List FarLine) := []
  router : List Routed := []
  cons : Tbl Nat := []
  passes : List Pass := []
  defer : Bool := false
  lim : BitVec 24 := 0
  lncStart : W64 := 0
  lncResume : W64 := 0
  lncBar : Option W64 := none
  pswAt : Option Nat := none
  live : Bool := false
  hold : Option Nat := none
  v : Tbl VReg := []
  k : Tbl KReg := []
  tile : Tbl Tile := []
  srgen : Tbl W32 := []
  aflg : Tbl (BitVec 6) := []
  deriving DecidableEq, Repr, Inhabited

/-! ## Timetable unit -/

/-- A launch queue (R62-R65, R73, R74). `hm` counts whole µs since the restart, `hmPart`: the restart lies inside a µs, `hmDue`:
a tick has decided the expiry; `stopping`: a write that clears EN waits for the entry boundary; `armed`: a CWAIT entry,
`waits`: the counter, the value and whether the condition has been met of its waiting record (R253), `checking`: a LAUNCH entry
under check; `wait`: a LAUNCH was held by the instance limit. -/
structure Queue where
  qbase : W64 := 0
  en : Bool := false
  pceil : BitVec 2 := 3
  log2n : Nat := 0
  qwidx : W32 := 0
  qridx : W32 := 0
  hmto : W32 := 0
  err : Byte := 0
  wait : Bool := false
  halt : Bool := false
  hm : Nat := 0
  hmPart : Bool := false
  hmDue : Bool := false
  stopping : Bool := false
  armed : Option (List Byte) := none
  waits : Option (Nat × Nat × Bool) := none
  checking : Option (List Byte) := none
  deriving DecidableEq, Repr, Inhabited

/-- A partition (R60, R78, R486): state, watchdog count, classes, counter and record ranges, floors, confidential; the unpaged segments
that its frames were addressed by, newest first: VBASE, PBASE, length (R230). -/
structure Partition where
  state : Nat := 0
  wdcnt : Nat := 0
  args : List W64 := []
  keys : Option (BitVec 256 × BitVec 256 × BitVec 256) := none
  mismatches : Nat := 0
  paired : Bool := false
  peer : Option Nat := none
  queues : List Queue := [{}, {}, {}, {}, {}, {}, {}, {}]
  segs : List (Nat × Nat × Nat) := []
  deriving DecidableEq, Repr, Inhabited

/-- What the snapshot holds of one node (R99): the 128 bytes of its record, its schedule table, its window table, the
geometries of the pools its window table names (R225). -/
structure NodeSnap where
  record : List Byte
  sched : List Byte
  win : List Byte
  pools : List (Nat × List Nat)
  deriving DecidableEq, Repr, Inhabited

/-- States of a node. -/
inductive NodeState where
  | waiting | ready | digest | swapping | retired
  deriving DecidableEq, Repr, Inhabited

/-- Which issued word: its team, run, ordinal, number. -/
structure WordId where
  team : Nat
  run : Nat
  ord : Nat
  id : Nat
  deriving DecidableEq, Repr, Inhabited

/-- A staged write (R242-R245): class, physical byte, its address, value, epoch (none while pending), the poison that came
with it (R130), the word that wrote it (none while it moves on), whether that is a counted transfer, whose own add publishes
it (R258). -/
structure Staged where
  cls : Nat
  pa : Nat
  va : Nat
  byte : Byte
  epoch : Option Nat
  pz : Option Bool := none
  word : Option WordId := none
  counted : Bool := false
  deriving DecidableEq, Repr, Inhabited

/-- A shadow frame (R218): source frame's physical address, the table, the shadow's frame index, whose memory holds the source's
device-visible bytes at allocation. -/
structure Shadow where
  frame : Nat
  table : Nat
  idx : Nat
  deriving DecidableEq, Repr, Inhabited

/-- A running node (R105-R107): state, whether its wait edge has been satisfied (R253), ordinal of its next new iteration,
rollbacks, discarded iterations waiting, shadows, staged writes, node epoch, recorded epoch of each class; in pair mode its
digest, the tick of it, the partner's rollback count and digest (R138), one more than the rollback count of the latest run whose
mismatch has been counted here (R140). -/
structure Node where
  state : NodeState := .waiting
  met : Bool := false
  next : Nat := 0
  rollbacks : Nat := 0
  restarts : List Nat := []
  shadows : List Shadow := []
  staged : List Staged := []
  epoch : Nat := 0
  recorded : Tbl Nat := []
  digest : Option (BitVec 256) := none
  digestAt : Nat := 0
  partner : Option (Nat × BitVec 256) := none
  judged : Nat := 0
  deriving DecidableEq, Repr, Inhabited

/-- States of an instance (R101). -/
inductive InstState where
  | held | running | ended
  deriving DecidableEq, Repr, Inhabited

/-- An instance: number, queue, launch entry (128 bytes), header, whether its start's wait on SCTR has been satisfied (R253), nodes,
PCEIL at acceptance, status at its end, the reference tick of its acceptance. -/
structure Instance where
  num : Nat
  part : Nat
  queue : Nat
  entry : List Byte
  gid : W32
  excl : Bool
  snaps : List NodeSnap
  nctr : Nat
  state : InstState := .held
  sctrMet : Bool := false
  h0 : Nat := 0
  nodes : List Node := []
  nrb : Nat := 0
  lowp : Bool := false
  pceil : BitVec 2 := 3
  status : Byte := 0
  accepted : Nat := 0
  deriving DecidableEq, Repr, Inhabited

/-- What the timetable unit may dispense (R113): a new iteration, a discarded one, a saved team, with its effective class. -/
structure Item where
  eff : Nat
  fresh : Nat
  inst : Nat
  node : Nat
  ord : Nat
  team : Option Nat
  deriving DecidableEq, Repr, Inhabited

/-- A pre-emption request: an item that a scan passed over, the teams it takes (R117). -/
structure Request where
  item : Item
  victims : List Nat
  deriving DecidableEq, Repr, Inhabited

/-- What is decided for a team (R118). -/
inductive TeamState where
  | running | draining | saving | saved | resuming | decided
  deriving DecidableEq, Repr, Inhabited

/-- A saved image (R272): the members' states, the saved granules (rank, physical tower, granule) with their bytes and poison,
where it lies in the save area, the lengths of its opaque blocks (free, R276), the level granted at the save. -/
structure Image where
  members : List ClassState
  cells : List Host.Cell
  poison : List (PUnit × Bool)
  grans : List (Nat × Nat × Nat)
  off : Nat
  opq : List Nat
  level : Nat
  deriving DecidableEq, Repr, Inhabited

/-- A team (R108, R112-R120). `since`: the reference tick of its latest dispatch or resume, `resumed`: that it was a resume;
`elapsed` and `lastSave` in ns; `decidedAt`: the tick of the last decision, `bound`: of a drain, in units of 0.01 ns. -/
structure Team where
  id : Nat
  inst : Nat
  node : Nat
  ord : Nat
  classes : List Nat
  state : TeamState := .running
  own : BitVec 2
  loans : List (Nat × BitVec 2) := []
  placed : Nat := 0
  arrived : List Nat := []
  since : Nat := 0
  elapsed : Nat := 0
  lastSave : Nat := 0
  resumed : Bool := false
  bound : Nat := 0
  decidedAt : Nat := 0
  image : Option Image := none
  deriving DecidableEq, Repr, Inhabited

/-! ## The package -/

/-- An entry of an inverted page table (R208). -/
structure IptEntry where
  vpn : Nat := 0
  part : Nat := 0
  v : Bool := false
  sa : Bool := false
  mig : Bool := false
  shd : Bool := false
  next : Nat := 0xFFFFFFFF
  shadow : Nat := 0xFFFFFFFF
  deriving DecidableEq, Repr, Inhabited

/-- An inverted page table (R207-R209): anchors and entries by index; the frames of the shadow reserve, those in use among them
(R218, R244; log 10). -/
structure Ipt where
  anchor : Tbl Nat := []
  entry : Tbl IptEntry := []
  reserve : List Nat := []
  deriving DecidableEq, Repr, Inhabited

/-- Rounds of a barrier for teams of one size (R449): handle, size, durations carried by arrivals of each round, schedule key
(level, bucket) of each completed round. -/
structure Barrier where
  handle : Nat
  size : Nat
  durs : List (Nat × Nat) := []
  keys : List (Nat × BitVec 3 × Nat) := []
  deriving DecidableEq, Repr, Inhabited

/-- A statistics record (R309, R310). -/
structure Record where
  amax : W32 := 0
  bins : List Nat := List.replicate 16 0
  count : Nat := 0
  gen : Nat := 0
  policy : W32 := 0
  deriving DecidableEq, Repr, Inhabited

/-- An event for firmware (R461). -/
structure FwEvent where
  code : Byte
  cls : Byte
  part : Byte
  id : Nat
  tinfo : W64
  tcause : W64
  inst : W64
  deriving DecidableEq, Repr, Inhabited

/-- A stairwell router (R201): STATE. INFL follows from the requests under way. -/
structure Stairwell where
  state : Nat := 0
  deriving DecidableEq, Repr, Inhabited

/-- A black-box entry (R145). -/
structure BbEntry where
  seq : W32
  part : Nat
  code : Nat
  cls : Byte
  unit : Byte
  time : W64
  tag : W64
  detail : W64
  deriving DecidableEq, Repr, Inhabited

/-- A firmware image as verified (R91): its words, security version and digest. -/
structure FwImage where
  words : Tbl W80 := []
  svn : W32 := 0
  digest : BitVec 256 := 0
  deriving DecidableEq, Repr, Inhabited

/-- A wait of a timetable processor at a counter's engine (R253, R458): handle, value, byte form, the counter's value at the step
that satisfied it. -/
structure FwWait where
  hdl : Nat
  val : Nat
  byt : Bool
  met : Option Nat := none
  deriving DecidableEq, Repr, Inhabited

/-- A processor that a live update has stopped (R92, R93). -/
structure FwCtx where
  sreg : Tbl W64
  wi : Nat
  rstack : List Nat
  loops : List LoopCtx
  image : FwImage
  sleepUntil : Option Nat := none
  wait : Option FwWait := none
  deriving DecidableEq, Repr, Inhabited

/-- A timetable processor (R458-R463) that runs the active image, its standby slot, the processor that a live update has
stopped; `slot` names which of the die's two processors is active. `shoot`: a SHOOT under way, its VPN, the classes that have
not acknowledged, how many it names. -/
structure FwState where
  sreg : Tbl W64 := []
  wi : Nat := 0
  rstack : List Nat := []
  loops : List LoopCtx := []
  err : Bool := false
  running : Bool := false
  image : FwImage := {}
  standby : Option FwImage := none
  previous : Option FwCtx := none
  slot : Nat := 0
  beat : W64 := 0
  shoot : Option (Nat × List Nat × Nat) := none
  sleepUntil : Option Nat := none
  wait : Option FwWait := none
  deriving DecidableEq, Repr, Inhabited

/-- A base die. `balNs` and `balEnergy`: its telemetry counters of ballast time, in ns, and of ballast energy, in unit·ns (R46). -/
structure Die where
  bb : List BbEntry := []
  seq : W32 := 0
  lost : Nat := 0
  head : Nat := 0
  frz : Bool := false
  evq : List FwEvent := []
  openEv : List FwEvent := []
  nextEv : Nat := 0
  scan : List (Nat × Option Nat) := []
  wells : List Stairwell := [{}, {}, {}, {}, {}, {}, {}, {}]
  balNs : Nat := 0
  balEnergy : Nat := 0
  fw : FwState := {}
  deriving DecidableEq, Repr, Inhabited

/-- What leaves the package. -/
inductive OutMsg where
  | msix (fn : HostFn) (vector : Nat)
  | completion (data : List Byte)
  | unsupported
  | completerAbort
  | dropped
  | doe (code : Nat) (data : List Byte)
  | pairMsg (kind : Nat) (args : List Nat)
  | corridor (pkg : Nat) (seq : BitVec 16) (r : FarReq)
  | corridorAck (pkg cls : Nat) (seq : BitVec 16) (lines : List (List Byte × Option Bool))
  | corridorRefusal (pkg cls : Nat) (seq : BitVec 16)
  deriving DecidableEq, Repr, Inhabited

/-- The SPDM responder (R89): stage of the connection, session under way. -/
structure Spdm where
  stage : Nat := 0
  session : Option Nat := none
  established : Bool := false
  nextSession : Nat := 1
  deriving DecidableEq, Repr, Inhabited

/-- A live update under way (R92). -/
structure Update where
  started : Bool := false
  transferAt : Nat := 0
  deriving DecidableEq, Repr, Inhabited

/-- A node whose kill or failure is due (R131, R134). -/
structure Kill where
  inst : Nat
  node : Nat
  cause : Byte
  deriving DecidableEq, Repr, Inhabited

/-- A migration under way (R216): table, source and destination frame, VPN, classes that have not acknowledged. -/
structure Mig where
  table : Nat
  src : Nat
  dst : Nat
  vpn : Nat
  pending : List Nat
  deriving DecidableEq, Repr, Inhabited

/-- A selection of the master (R43): the node iteration and the member it is for, the ordinal of the PSW within it, the variant. -/
structure PairSel where
  tag : IterTag
  ord : Nat
  e : BitVec 2
  deriving DecidableEq, Repr, Inhabited

/-- The machine. -/
structure State where
  agenda : List Mover := []
  tick : Nat := 0
  focus : Ctx := .cls 0 .s
  ticks8 : Nat := 0
  born : Nat := 0
  grant : Nat := 2
  capped : Bool := false
  raisedAt : Option Nat := none
  evalAt : Option Nat := none
  pcap : Nat := 2
  mbcmd : W64 := 0
  mbarg : List W64 := [0, 0, 0, 0, 0, 0, 0, 0]
  mbstat : BitVec 16 := 0
  bootstat : BitVec 17 := 0
  boot : BootInput
  disabled : List Nat := []
  cls : List ClassState
  dies : List Die := [{}, {}]
  parts : List Partition
  insts : List Instance := []
  nextInst : Nat := 1
  teams : List Team := []
  nextTeam : Nat := 0
  placeCount : Nat := 0
  requests : List Request := []
  ipts : List Ipt
  ctr : Tbl Nat := []
  barriers : List Barrier := []
  recs : Tbl Record := []
  transit : List Transit := []
  mem : List Host.Cell := []
  poison : List (PUnit × Bool) := []
  tweaks : Tbl Nat := []
  tags : Tbl W32 := []
  kills : List Kill := []
  spdm : Spdm := {}
  meas : List (BitVec 256)
  update : Update := {}
  handovers : Nat := 0
  migs : List Mig := []
  pairPeer : Option Nat := none
  pairMaster : Bool := false
  pairSet : Nat := 0
  pairSel : List PairSel := []
  cabling : Bool := false
  farPort : Tbl Nat := []
  klink : List (Bool × Nat)
  spare : List Nat := [4, 4]
  degraded : List Bool := [false, false]
  out : List OutMsg := []
  deriving DecidableEq, Repr, Inhabited

/-- A class after reset. RTBL by grid row and column (R199; R14: row local div 5, column local mod 5). -/
def ClassState.reset (c : Nat) : ClassState :=
  let e := if (c % 20) % 5 ≤ 1 then 0 else 1
  { rpri := 2 * (c % 20 / 5) + e, ralt := 2 * (c % 20 / 5) + (1 - e) }

/-- What boot found, kept for the measurements (log 4: a boot that succeeded). -/
def bootReset : BootInput :=
  { rootKeyOk := true, primaryOk := true, fallbackOk := true, repair := [], repairSigOk := true, serial := 0,
    defects := [], certMatches := true, romDigest := 0, imageDigest := 0, imageSvn := 0, e0Host := false,
    saveBytes := 16 * 2 ^ 30, cxl := [0, 0, 0, 0, 0, 0], image := [] }

/-- The machine right after reset: every field the spec gives a reset value at that value, every other at the value
logs 3 to 6, 10 and 30 name. -/
def State.reset : State :=
  { boot := bootReset
    bootstat := 6
    cls := (List.range 40).map ClassState.reset
    parts := List.replicate 17 {}
    ipts := { entry := [(0, { part := 31 })] } :: List.replicate 7 {}
    meas := List.replicate 8 0
    klink := List.replicate 12 (true, 0) }

end Sys2Proof.Machine
end

