-- ==== Sys2Proof/Machine/Ops.lean ====
section
/-!
DEFINITION. The named operations over the state: classes, registers of whoever executes, bytes of memory, tower
lines, poison, queues, LNC, black box, messages to the outside.
-/

namespace Sys2Proof.Machine

/-- The outcome of an instruction. -/
abbrev Out := Host.Outcome State Fault Refusal

/-! ## Classes and dies -/

def getCls (s : State) (c : Nat) : ClassState := s.cls.getD c default
def modCls (s : State) (c : Nat) (f : ClassState → ClassState) : State := { s with cls := s.cls.modify c f }
def getDie (s : State) (b : Nat) : Die := s.dies.getD b default
def modDie (s : State) (b : Nat) (f : Die → Die) : State := { s with dies := s.dies.modify b f }
def modFw (s : State) (b : Nat) (f : FwState → FwState) : State := modDie s b fun d => { d with fw := f d.fw }
/-- Classes 0-19 lie on die 0, 20-39 on die 1 (R14). -/
def dieOf (c : Nat) : Nat := c / 20
/-- Local index of a class (R14). -/
def localOf (c : Nat) : Nat := c % 20

def walkerOf (k : ClassState) : Eng → Walker
  | .s => k.ws | .a => k.wa | .v => k.wv | .m => k.wm | .x => k.wx

def setWalker (k : ClassState) (e : Eng) (w : Walker) : ClassState :=
  match e with
  | .s => { k with ws := w } | .a => { k with wa := w } | .v => { k with wv := w }
  | .m => { k with wm := w } | .x => { k with wx := w }

def modWalker (s : State) (c : Nat) (e : Eng) (f : Walker → Walker) : State :=
  modCls s c fun k => setWalker k e (f (walkerOf k e))

def engines : List Eng := [.s, .a, .v, .m, .x]

/-- Engine code of TCAUSE.ENG (R266). -/
def engCode : Eng → BitVec 3
  | .s => 0 | .a => 1 | .v => 2 | .m => 3 | .x => 4

/-! ## Registers of whoever executes (R150, R458) -/

/-- s[n]; s0 reads zero. -/
def sget (s : State) (n : BitVec 5) : W64 :=
  if n = 0 then 0 else
  match s.focus with
  | .cls c _ => tget 0 (getCls s c).sreg n.toNat
  | .fw d => tget 0 (getDie s d).fw.sreg n.toNat

/-- Write s[n] of class `c`; a write to s0 is discarded. -/
def setS (s : State) (c : Nat) (n : Nat) (v : W64) : State :=
  if n = 0 then s else modCls s c fun k => { k with sreg := tset 0 k.sreg n v }

/-- s[n] ← v; a write to s0 is discarded (R150, R348). -/
def sset (s : State) (n : BitVec 5) (v : W64) : State :=
  match s.focus with
  | .cls c _ => setS s c n.toNat v
  | .fw d => if n = 0 then s else modFw s d fun f => { f with sreg := tset 0 f.sreg n.toNat v }

/-- The class that executes; a timetable processor has none. -/
def focusCls (s : State) : Nat :=
  match s.focus with
  | .cls c _ => c
  | .fw _ => 40

/-- The class state of the class that executes. -/
def me (s : State) : ClassState := getCls s (focusCls s)
def modMe (s : State) (f : ClassState → ClassState) : State := modCls s (focusCls s) f

/-- a[n] (R150). -/
def aget (s : State) (n : BitVec 4) : W64 := tget 0 (me s).areg n.toNat
/-- a[n] ← v. -/
def aset (s : State) (n : BitVec 4) (v : W64) : State :=
  modMe s fun k => { k with areg := tset 0 k.areg n.toNat v }

/-! ## Time (R54) -/

/-- LNC of class `c`: its power-up value, rounded to units of 8, plus 8 for each reference tick; `born` numbers the
power-up. -/
def lnc (s : State) (c : Nat) : W64 :=
  (Config.lncBase (40 * s.born + c) &&& ~~~7#64) + BitVec.ofNat 64 (8 * s.ticks8)

/-- Nanoseconds of the reference clock since power-up. -/
def nowNs (s : State) : Nat := 8 * s.ticks8

/-- A free value, and the counter that makes the next one fresh (log 8). -/
def freeVal (s : State) : W64 := Config.freeWord s.tick
def bump (s : State) : State := { s with tick := s.tick + 1 }
/-- Several free values of one step, and the counter past `n` of them (log 8). -/
def freeNth (s : State) (j : Nat) : W64 := Config.freeWord (s.tick + j)
def bumpBy (s : State) (n : Nat) : State := { s with tick := s.tick + n }

/-! ## Bytes -/

def readByte (s : State) (a : Nat) : Byte := tget 0 s.mem a
def readBytes (s : State) (a n : Nat) : List Byte := tgetN 0 s.mem a n
def readNat (s : State) (a n : Nat) : Nat := leNat (readBytes s a n)
def writeBytes (s : State) (a : Nat) (bs : List Byte) : State := { s with mem := tsetN 0 s.mem a bs }
def writeNat (s : State) (a n v : Nat) : State := writeBytes s a (leBytes n v)

/-- A write to physical memory; the scan results of the frames it touches are dropped (R338), and fetch line buffers that
hold lines of those frames are cleared (R350). -/
def writePhys (s : State) (a : Nat) (bs : List Byte) : State :=
  let hits := fun (fr : Nat) => decide (fr < a + bs.length) && decide (a < fr + 65536)
  { writeBytes s a bs with
    dies := s.dies.map fun d => { d with scan := d.scan.filter fun e => !hits e.1 }
    cls := s.cls.map fun k => if k.fetchBuf.any fun l => hits (l.2.1 / 65536 * 65536) then { k with fetchBuf := [] } else k }
def writePhysNat (s : State) (a n v : Nat) : State := writePhys s a (leBytes n v)

/-- Bytes [b, b + n) become a copy of [a, a + n); the two do not meet. -/
def copyCells (m : List Host.Cell) (a b n : Nat) : List Host.Cell :=
  m.filter (fun e => decide (e.1 < b))
    ++ ((m.filter fun e => decide (a ≤ e.1) && decide (e.1 < a + n)).map fun e => (e.1 - a + b, e.2))
    ++ m.filter fun e => decide (b + n ≤ e.1)

/-- One canonical address space: physical addresses of R18 below 2^52, then the towers, the scratches. -/
def towerAddr (c phys off : Nat) : Nat := 2 ^ 52 + (c * 34 + phys) * 2 ^ 25 + off
def scratchAddr (c off : Nat) : Nat := 2 ^ 53 + c * 2 ^ 16 + off
/-- Each die has two timetable processors, slots 0 and 1 (R91). -/
def fwScratchAddr (die slot off : Nat) : Nat := scratchAddr (40 + die + 2 * slot) off

/-- Where the scratch of whoever executes begins (R369, R458). -/
def myScratch (s : State) : Nat :=
  match s.focus with
  | .cls c _ => scratchAddr c 0
  | .fw d => fwScratchAddr d (getDie s d).fw.slot 0

/-! ## The physical map (R18, R207) -/

/-- The port paired with a stack's table, and back. -/
def portTable (p : Nat) : Nat := match p with | 0 => 0 | 1 => 1 | 2 => 2 | 3 => 4 | 4 => 5 | _ => 6
def tablePort (t : Nat) : Option Nat :=
  match t with | 0 => some 0 | 1 => some 1 | 2 => some 2 | 4 => some 3 | 5 => some 4 | 6 => some 5 | _ => none

/-- Frames of HBM in a table. -/
def hbmFrames : Nat := 786432

/-- Table and frame index of a physical address that an inverted page table covers (R207). -/
def frameIdx (pa : Nat) : Option (Nat × Nat) :=
  if pa < 2 ^ 39 then (if pa % 2 ^ 36 < hbmFrames * 65536 then some (pa / 2 ^ 36, pa % 2 ^ 36 / 65536) else none)
  else if 2 ^ 44 ≤ pa ∧ pa < 2 ^ 44 + 6 * 2 ^ 42 then
    some (portTable ((pa - 2 ^ 44) / 2 ^ 42), hbmFrames + (pa - 2 ^ 44) % 2 ^ 42 / 65536)
  else none

/-- Physical address of a frame of a table. -/
def framePa (t f : Nat) : Nat :=
  if f < hbmFrames then t * 2 ^ 36 + f * 65536
  else match tablePort t with
    | some p => 2 ^ 44 + p * 2 ^ 42 + (f - hbmFrames) * 65536
    | none => 2 ^ 43

/-- The die of an HBM or second-tier address: H0-H3 and E0-E2 are die 0's (R232). -/
def dieOfPa (pa : Nat) : Nat := if pa < 2 ^ 44 then pa / 2 ^ 36 / 4 % 2 else (pa - 2 ^ 44) / 2 ^ 42 / 3 % 2

/-- Host memory (R18). -/
def hostBase : Nat := 2 ^ 51

/-- Capacity that port E`p` enumerated: an upstream port to the host has no expander behind it (R20). -/
def cxlCap (b : BootInput) (p : Nat) : Nat := if b.e0Host && p == 0 then 0 else b.cxl.getD p 0

/-- The address is backed (R18). -/
def backed (s : State) (pa : Nat) : Bool :=
  if hostBase ≤ pa then decide (pa < 2 ^ 52)
  else if 2 ^ 44 ≤ pa then decide (pa < 2 ^ 44 + 6 * 2 ^ 42)
    && decide ((pa - 2 ^ 44) % 2 ^ 42 < cxlCap s.boot ((pa - 2 ^ 44) / 2 ^ 42))
  else decide (pa < 2 ^ 39) && decide (pa % 2 ^ 36 < hbmFrames * 65536)

/-! ## Graph snapshot fields (R103) -/

def byteField (r : List Byte) (off n : Nat) : Nat := leNat ((r.drop off).take n)
def bitField (v hi lo : Nat) : Nat := v / 2 ^ lo % 2 ^ (hi + 1 - lo)

def instOf (s : State) (num : Nat) : Option Instance := s.insts.find? fun i => i.num = num
def modInst (s : State) (num : Nat) (f : Instance → Instance) : State :=
  { s with insts := s.insts.map fun i => if i.num = num then f i else i }
def modNode (s : State) (num node : Nat) (f : Node → Node) : State :=
  modInst s num fun i => { i with nodes := i.nodes.modify node f }
def nodeOf (s : State) (num node : Nat) : Node :=
  match instOf s num with
  | some i => i.nodes.getD node default
  | none => default
def snapOf (s : State) (num node : Nat) : NodeSnap :=
  match instOf s num with
  | some i => i.snaps.getD node default
  | none => default
/-- First word of a loop-nest record. -/
def recWord (r : List Byte) : Nat := byteField r 0 8
def recHeat (r : List Byte) : Nat := bitField (recWord r) 61 60
def recPrio (r : List Byte) : Nat := bitField (recWord r) 59 58
def recTag (r : List Byte) : W64 := BitVec.ofNat 64 (byteField r 104 8)

/-- An edge: its 32-bit field and its value. -/
def recWait (r : List Byte) : Nat × Nat := (byteField r 56 4, byteField r 64 8)
def edgeOn (e : Nat) : Bool := e.testBit 31
def edgeAbs (e : Nat) : Bool := e.testBit 30
/-- The counter an edge names in an instance whose counter 0 is `h0`. -/
def edgeHandle (h0 e : Nat) : Nat := if edgeAbs e then e % 2 ^ 25 else h0 + e % 256

/-- A word of a launch entry; the counter and value that its start waits for (R66, R68). -/
def entWord (e : List Byte) (n : Nat) : Nat := byteField e (8 * n) 8
def entSctr (e : List Byte) : Nat := entWord e 6 / 2 ^ 32
def entSval (e : List Byte) : Nat := entWord e 7

/-- The team whose members stand on class `c` now: not one that is saved. -/
def teamOf (s : State) (c : Nat) : Option Team :=
  s.teams.find? fun t => t.classes.contains c && t.state != .saved
def modTeam (s : State) (id : Nat) (f : Team → Team) : State :=
  { s with teams := s.teams.map fun t => if t.id = id then f t else t }
/-- Partition of an instance; 0 for none. -/
def partOfInst (s : State) (num : Nat) : Nat :=
  match instOf s num with
  | some i => i.part
  | none => 0
/-- Partition of the team on a class; 0 for none. -/
def partOf (s : State) (c : Nat) : Nat :=
  match teamOf s c with
  | some t => partOfInst s t.inst
  | none => 0
def getPart (s : State) (k : Nat) : Partition := s.parts.getD k default
def modPart (s : State) (k : Nat) (f : Partition → Partition) : State := { s with parts := s.parts.modify k f }
def getQueue (s : State) (k q : Nat) : Queue := (getPart s k).queues.getD q default
def modQueue (s : State) (k q : Nat) (f : Queue → Queue) : State :=
  modPart s k fun p => { p with queues := p.queues.modify q f }

/-- PART_CREATE's arguments that the partition keeps (R486): MBARG1-7 as the command had them. -/
def partArg (s : State) (k j : Nat) : Nat := ((getPart s k).args.getD j 0).toNat

/-- The seating plan holds on a class that runs a hot node (R111, R176). -/
def hotOn (s : State) (c : Nat) : Bool :=
  match teamOf s c with
  | some t => recHeat (snapOf s t.inst t.node).record == 2
  | none => false
/-- Active desks of the seating plan (R111): row + column even, four columns to a row. -/
def deskActive (hot : Bool) (d : Nat) : Bool := !hot || (d / 4 + d % 4) % 2 == 0
/-- The dark neighbour that an active desk borrows (R111). -/
def borrowed (d : Nat) : Nat := if (d / 4) % 2 == 0 then d + 1 else d - 1
/-- The desks that execute. -/
def desksOf (s : State) (c : Nat) : List Nat := (List.range 32).filter (deskActive (hotOn s c))

/-! ## Towers (R176, R177, R189) -/

/-- Physical tower of a desk, through the class's remap table (R189). -/
def physTower (k : ClassState) (d : Nat) : Nat := tget d k.remap d
/-- A class's tower offset is in range: below 32 MiB, or below 64 MiB under the seating plan (R177). -/
def towerLimit (hot : Bool) : Nat := if hot then 2 ^ 26 else 2 ^ 25
/-- Tower and line offset a desk's offset names (R176). -/
def towerOf (k : ClassState) (d off : Nat) : Nat × Nat :=
  if off < 2 ^ 25 then (physTower k d, off) else (physTower k (borrowed d), off - 2 ^ 25)
/-- The address of a desk's tower offset. -/
def towerByte (k : ClassState) (c d off : Nat) : Nat :=
  let t := towerOf k d off
  towerAddr c t.1 t.2
/-- Mark the 64 KiB granule of a written tower byte dirty (R119). -/
def markDirty (s : State) (c phys off : Nat) : State :=
  modCls s c fun k => { k with dirty := tset false k.dirty (phys * 512 + off / 65536) true }

/-! ## Poison (R129, R484) -/

def poisonAt (s : State) (u : PUnit) : Option Bool := (s.poison.find? fun e => e.1 = u).map (·.2)
def clearPoison (s : State) (u : PUnit) : State :=
  { s with poison := s.poison.filter fun e => e.1 ≠ u, tags := s.tags.filter fun e => .phys e.1 ≠ u }
/-- A sector of HBM, where integrity poison lives (R129; log 52). -/
def inHbm : PUnit → Bool
  | .phys n => decide (64 * n < 2 ^ 39)
  | _ => false
/-- Mark a unit, false media, true integrity: integrity poison that moves off HBM is media poison there (R130, R484; log 52). -/
def setPoison (s : State) (u : PUnit) (kind : Bool) : State :=
  let t := clearPoison s u
  { t with poison := (u, kind && inHbm u) :: t.poison }
/-- Write a unit's poison as that of another unit (R130: moving data carries its poison with it). -/
def movePoison (s : State) (p : Option Bool) (dst : PUnit) : State :=
  match p with
  | some k => setPoison s dst k
  | none => clearPoison s dst

/-- The poison locator (R484). `va` stands for the address of a unit of global memory. -/
def locator (u : PUnit) (va : Nat) : W64 :=
  BitVec.ofNat 64 <|
    match u with
    | .phys _ => va / 64 * 64 % 2 ^ 56
    | .tower _ p l => 2 ^ 60 + p * 2 ^ 48 + l * 64
    | .vreg _ d r n => 2 * 2 ^ 60 + d * 2 ^ 48 + r * 2 ^ 8 + n
    | .acc _ d t g => 3 * 2 ^ 60 + d * 2 ^ 48 + t * 2 ^ 8 + g
    | .mask _ d k n => 4 * 2 ^ 60 + d * 2 ^ 48 + k * 4 + n
    | .queue _ q n => 5 * 2 ^ 60 + n * 2 ^ 8 + q
    | .scratch _ l => 6 * 2 ^ 60 + l * 64
    | .code _ va => 7 * 2 ^ 60 + va
    | .counter h => 8 * 2 ^ 60 + h

/-- The active desk that borrows the registers of a dark one (R111). -/
def borrower (d : Nat) : Nat := if (d / 4) % 2 == 0 then d - 1 else d + 1

/-- The locator as the class that holds the unit names it: under the seating plan the registers of a dark desk are v32-v63 of the
active desk that borrows them (R149, R178, R484). -/
def locatorOn (s : State) (u : PUnit) (va : Nat) : W64 :=
  match u with
  | .vreg c d r n => if deskActive (hotOn s c) d then locator u va else locator (.vreg c (borrower d) (r + 32) n) va
  | _ => locator u va

/-! ## Black box and messages (R85, R145) -/

/-- Record an event: with FRZ it is only counted in LOST. -/
def bbRecord (s : State) (die part code : Nat) (cls unit : Byte) (tag detail : W64) : State :=
  let t := if cls = 0xFF then lnc s (20 * die) else lnc s cls.toNat
  modDie s die fun d =>
    if d.frz then { d with lost := min 0xFFFF (d.lost + 1) }
    else { d with
      bb := ⟨d.seq, part, code, cls, unit, t, tag, detail⟩ :: d.bb.take 4095
      seq := d.seq + 1
      head := (d.head + 1) % 4096 }

/-- An event of a class: on its die, with its partition and its node's TAG. -/
def bbClass (s : State) (c code : Nat) (unit : Byte) (detail : W64) : State :=
  let tag := match teamOf s c with
    | some t => recTag (snapOf s t.inst t.node).record
    | none => 0
  bbRecord s (dieOf c) (partOf s c) code (BitVec.ofNat 8 c) unit tag detail

def send (s : State) (m : OutMsg) : State := { s with out := s.out ++ [m] }
/-- KL5 and KL11 are the pair links (R26). -/
def pairLinksDown (s : State) : Bool := [5, 11].all fun l => !(s.klink.getD l (true, 0)).1
/-- A message on both pair links (R27, R138-R140): it leaves while one of them is up; a flit that gets through ends that link's
retries in a row (R24). -/
def sendPair (s : State) (kind : Nat) (args : List Nat) : State :=
  if pairLinksDown s then s
  else { send s (.pairMsg kind args) with
    klink := (s.klink.zipIdx).map fun e => if (e.2 == 5 || e.2 == 11) && e.1.1 then (true, 0) else e.1 }
/-- MSI-X (R70, R75). -/
def msix (s : State) (fn : HostFn) (v : Nat) : State := send s (.msix fn v)

/-- Put an agent at the head of the agenda: it moves next. -/
def due (s : State) (m : Mover) : State := { s with agenda := m :: s.agenda }

/-! ## Queues of a class (R158) -/

def pushQs (s : State) (c : Nat) (v : W64) : State := modCls s c fun k => { k with qs := k.qs ++ [v] }
def pushQv (s : State) (c : Nat) (v : W64) : State := modCls s c fun k => { k with qv := k.qv ++ [v] }
/-- A push into QB also resolves the matching branch for every walker (R156). -/
def pushQb (s : State) (c : Nat) (b : Bool) : State :=
  modCls s c fun k => { k with qb := k.qb ++ [b], qbAll := k.qbAll ++ [b] }

/-! ## Tags (R161) -/

def tokens (k : ClassState) (j : Nat) : Nat := tget 0 k.tok j
def reserved (k : ClassState) (j : Nat) : Nat := tget 0 k.rsv j
def addToken (k : ClassState) (j : Nat) : ClassState := { k with tok := tset 0 k.tok j (tokens k j + 1) }
def addReserve (k : ClassState) (j : Nat) : ClassState := { k with rsv := tset 0 k.rsv j (reserved k j + 1) }
def dropReserve (k : ClassState) (j : Nat) : ClassState := { k with rsv := tset 0 k.rsv j (reserved k j - 1) }
/-- The tags a consume mask names. -/
def maskTags (m : BitVec 16) : List Nat := (List.range 16).filter fun j => m.getLsbD j
/-- One token from each tag of the mask, all together. -/
def takeTokens (k : ClassState) (m : BitVec 16) : ClassState :=
  { k with tok := (maskTags m).foldl (fun t j => tset 0 t j (tget 0 t j - 1)) k.tok }
/-- Every tag of the mask holds a token. -/
def tokensReady (k : ClassState) (m : BitVec 16) : Bool := (maskTags m).all fun j => 1 ≤ tokens k j
/-- The allocated tag has room for a reservation. -/
def allocReady (k : ClassState) (h : Hdr) : Bool :=
  !h.av || decide (tokens k h.atag.toNat + reserved k h.atag.toNat < 15)

/-! ## Counters (R252-R255) -/

def ctrGet (s : State) (h : Nat) : Nat := tget 0 s.ctr h
def ctrSet (s : State) (h v : Nat) : State := { s with ctr := tset 0 s.ctr h v }
/-- The condition of a wait for `w`, ordinary or byte form (R442, R443). -/
def waitMet (s : State) (h w : Nat) (byt : Bool) : Bool :=
  if byt then decide ((ctrGet s h + 2 ^ 40 - w % 2 ^ 40) % 2 ^ 40 < 2 ^ 39)
  else decide (w ≤ ctrGet s h)

end Sys2Proof.Machine
end

