-- ==== Sys2Proof/Machine/Crypt.lean ====
section
/-!
DEFINITION. Inverted page tables as they are held (R207-R209) and encrypted frames (R229-R231): which key a frame is under, what a
sector holds as stored, tampering, frames whose key goes.
-/

namespace Sys2Proof.Machine

/-! ## Tables (R208, R209) -/

def iptOf (s : State) (t : Nat) : Ipt := s.ipts.getD t default
def iptEntry (s : State) (t f : Nat) : IptEntry := tget {} (iptOf s t).entry f
def setIptEntry (s : State) (t f : Nat) (e : IptEntry) : State :=
  { s with ipts := s.ipts.modify t fun x => { x with entry := tset {} x.entry f e } }
/-- An anchor that nothing has set ends its chain. -/
def anchorOf (s : State) (t h : Nat) : Nat := tget 0xFFFFFFFF (iptOf s t).anchor h
def setAnchor (s : State) (t h f : Nat) : State :=
  { s with ipts := s.ipts.modify t fun x => { x with anchor := tset 0xFFFFFFFF x.anchor h f } }

/-- A page can be system-atomic in this frame of a table: an HBM frame, with E0 the host-coherent upstream port (R21, R234). -/
def saAllowed (s : State) (f : Nat) : Bool := s.boot.e0Host && decide (f < hbmFrames)

/-! ## Keys, addresses, tweaks (R229, R230) -/

/-- The partition whose key encrypts the HBM frame of an address, with its keys. -/
def keyOf (s : State) (pa : Nat) : Option (Nat × (BitVec 256 × BitVec 256 × BitVec 256)) :=
  match frameIdx pa with
  | none => none
  | some x =>
    let p := (iptEntry s x.1 x.2).part
    if x.2 < hbmFrames && decide (1 ≤ p) && decide (p ≤ 16) && partArg s p 7 % 2 == 1 then (getPart s p).keys.map fun k => (p, k)
    else none

/-- The source frame of a shadow frame (R218). -/
def shadowSource (s : State) (t f : Nat) : Option Nat :=
  ((s.insts.flatMap fun i => i.nodes.flatMap (·.shadows)).find? fun h => h.table == t && h.idx == f).map (·.frame)

/-- The virtual address of a frame's byte: its page; else that under which the sector was written last, else that of the newest unpaged
segment of its partition that maps it; none where nothing has addressed it (log 56). -/
def vaOfPa (s : State) (pa : Nat) : Option Nat :=
  match frameIdx pa with
  | none => none
  | some x =>
    let e := iptEntry s x.1 x.2
    let plain := fun (a : Nat) =>
      match (s.tweaks.find? fun y => y.1 = a / 64).map (·.2) with
      | some v => some (64 * v + a % 64)
      | none => ((getPart s e.part).segs.find? fun g => decide (g.2.1 ≤ a) && decide (a < g.2.1 + g.2.2)).map fun g => g.1 + (a - g.2.1)
    if e.v then some (e.vpn * 65536 + pa % 65536)
    else if e.shd then
      match shadowSource s x.1 x.2 with
      | none => none
      | some b =>
        match frameIdx b with
        | none => none
        | some y =>
          let o := iptEntry s y.1 y.2
          if o.v then some (o.vpn * 65536 + pa % 65536) else plain (b + pa % 65536)
    else plain pa

/-- The tweak of a sector of a partition at an address. -/
def tweakAt (part va : Nat) : BitVec 128 := BitVec.ofNat 128 (va / 64 % 2 ^ 50 + part * 2 ^ 50)

/-- The tweak under which a sector is stored; a sector that nothing has addressed yet is stored under an address that is open (R230;
log 56). -/
def tweakOf (s : State) (part pa : Nat) : BitVec 128 := tweakAt part ((vaOfPa s pa).getD (64 * Config.sectorVa (pa / 64)))

/-- The keys and the tweak of a sector; none where the frame is not encrypted. -/
def sealOf (s : State) (u : Nat) : Option ((BitVec 256 × BitVec 256 × BitVec 256) × BitVec 128) :=
  (keyOf s (64 * u)).map fun x => (x.2, tweakOf s x.1 (64 * u))

/-- A sector of an unpaged encrypted frame is written under an address (R230). -/
def noteVa (s : State) (u va : Nat) : State :=
  if (keyOf s (64 * u)).isSome then { s with tweaks := tput s.tweaks u (va / 64) } else s

/-- Every sector of `n` bytes at a physical address is written under the addresses from `va` on. -/
def noteSpan (s : State) (a va n : Nat) : State :=
  if s.parts.all fun p => p.keys.isNone then s
  else (List.range ((a + n - 1) / 64 + 1 - a / 64)).foldl (fun s j => noteVa s (a / 64 + j) (va / 64 * 64 + 64 * j)) s

/-- A read under another address than the one that the sector was written under fails its tag (R129, R230). -/
def misread (s : State) (u va : Nat) : Bool :=
  match keyOf s (64 * u), vaOfPa s (64 * u) with
  | some _, some v => v / 64 != va / 64
  | _, _ => false

/-- The poison that a read at a physical address under `va` meets. -/
def poisonUnder (s : State) (u va : Nat) : Option Bool :=
  match poisonAt s (.phys u) with
  | some k => some k
  | none => if misread s u va then some true else none

/-- Nothing that is read can be poisoned: no unit is marked, no frame holds a tag. -/
def allClean (s : State) : Bool := s.poison.isEmpty && s.parts.all fun p => p.keys.isNone

/-! ## Sectors as stored (R230, R231) -/

/-- 64 bytes of HBM as stored. -/
def storedSector (s : State) (u : Nat) : BitVec 512 :=
  let plain := BitVec.ofNat 512 (readNat s (64 * u) 64)
  match sealOf s u with
  | none => plain
  | some ((k1, k2, _), tw) => xtsEncrypt k1 k2 tw plain

/-- The tag that a sector holds: as computed, unless the sector was tampered with; with integrity poison that moved here the complement
of the right one (R231). -/
def heldTag (s : State) (u : Nat) (ki : BitVec 256) (tw : BitVec 128) : BitVec 32 :=
  let right := sectorTag ki tw (storedSector s u)
  if poisonAt s (.phys u) = some true then ((s.tags.find? fun e => e.1 = u).map (·.2)).getD (~~~right) else right

/-- Replace a sector as stored, its tag as it is: one that does not match is integrity poison, one that does is none (R129). -/
def storeSector (s : State) (u : Nat) (c : BitVec 512) : State :=
  match sealOf s u with
  | none => writePhysNat s (64 * u) 64 c.toNat
  | some ((k1, k2, ki), tw) =>
    let held := heldTag s u ki tw
    let s' := writePhysNat s (64 * u) 64 (xtsDecrypt k1 k2 tw c).toNat
    if poisonAt s (.phys u) = some false then s'
    else if sectorTag ki tw c = held then clearPoison s' (.phys u)
    else { setPoison s' (.phys u) true with tags := tput s.tags u held }

/-- A frame whose key goes holds what it held as stored; there is no tag to fail any more (R229). -/
def unsealFrame (s : State) (t f : Nat) : State :=
  let a := framePa t f
  if (keyOf s a).isNone then s
  else (List.range 1024).foldl (fun s' j =>
    let u := a / 64 + j
    let s' := writePhysNat s' (64 * u) 64 (storedSector s u).toNat
    if poisonAt s' (.phys u) = some true then clearPoison s' (.phys u) else s') s

/-- Every frame of a partition whose keys go. -/
def unsealPart (s : State) (k : Nat) : State :=
  ((s.ipts.zipIdx).flatMap fun e => (e.1.entry.filter fun x => x.2.part = k).map fun x => (e.2, x.1)).foldl
    (fun s x => unsealFrame s x.1 x.2) s

end Sys2Proof.Machine
end

