-- ==== Sys2Proof/Machine/Lend.lean ====
section
/-!
DEFINITION. Priority of a team and what is lent to it (R115, R116, R364, R450).
-/

namespace Sys2Proof.Machine

/-- A team's effective class: the numerically lowest of its own and every class lent to it (R115). -/
def effOf (t : Team) : BitVec 2 := t.loans.foldl (fun m l => minBv m l.2) t.own
where minBv (a b : BitVec 2) : BitVec 2 := if a.toNat ≤ b.toNat then a else b

/-- OWN and EFF reach PRIOC on every member (R364, R365). -/
def publishPrio (s : State) (id : Nat) : State :=
  match s.teams.find? fun t => t.id = id with
  | none => s
  | some t => t.classes.foldl (fun s c => modCls s c fun k => { k with own := t.own, eff := effOf t }) s

/-- A word that waits at the engine: its request has arrived and was not met. -/
def isWaiting (f : InFlight) : Bool :=
  match f.instr with
  | .cwait _ _ => f.status == .waiting
  | .cwaitT _ _ => f.status == .waiting || (f.status == .cancelling && f.prog == 1)
  | .bwait _ _ => f.status == .waiting
  | _ => false

/-- The nodes to which the members of a team lend, by a BWAIT with LEND that waits (R450). -/
def lendsTo (s : State) (t : Team) : List Nat :=
  t.classes.flatMap fun c => ((getCls s c).inflight.filter isWaiting).filterMap fun f =>
    match f.instr with
    | .bwait _ g => if g.imm.getLsbD 20 then some (g.imm.extractLsb' 0 8).toNat else none
    | _ => none

/-- A team that stands on its classes and has not been saved or begun to be. -/
def onClasses (t : Team) : Bool := t.state == .running || t.state == .draining || t.state == .decided

/-- One team lends its effective class to the teams of a node of its instance that have a higher one. -/
def lendTo (s : State) (id n : Nat) : State :=
  match s.teams.find? fun t => t.id = id with
  | none => s
  | some t =>
    { s with teams := s.teams.map fun u =>
        if u.inst = t.inst ∧ u.node = n ∧ (effOf t).toNat < (effOf u).toNat
        then { u with loans := (t.id, effOf t) :: u.loans } else u }

/-- One pass of lending over the teams. -/
def lendOnce (s : State) : State :=
  (s.teams.filter onClasses).foldl (fun s t => (lendsTo s t).foldl (fun s n => lendTo s t.id n) s) s

/-- Loans as the waits, the teams and their own classes stand now. Lending is transitive: a pass for each team carries a class
through the longest chain (R115). -/
def relend (s : State) : State :=
  let s0 := { s with teams := s.teams.map fun t => { t with loans := [] } }
  let s1 := s.teams.foldl (fun s _ => lendOnce s) s0
  s1.teams.foldl (fun s t => if t.state == .saved then s else publishPrio s t.id) s1

/-- Recompute the loans where a loan could have changed. -/
def relendIf (b : Bool) (s : State) : State := if b then relend s else s

end Sys2Proof.Machine
end

