-- ==== Sys2Proof/Machine/Contain.lean ====
section
/-!
DEFINITION. Containment: events for firmware, node failure (R107), node kill and rollback (R134, R135), consumption of
poison (R131), what each takes away.
-/

namespace Sys2Proof.Machine

/-! ## Events for firmware (R461) -/

/-- Put an event into the die's timetable event queue; its identifier is the die's next. -/
def pushEvent (s : State) (die : Nat) (code cls part : Nat) (tinfo tcause inst : W64) : State :=
  modDie s die fun d =>
    { d with
      evq := d.evq ++ [⟨BitVec.ofNat 8 code, BitVec.ofNat 8 cls, BitVec.ofNat 8 part, d.nextEv, tinfo, tcause, inst⟩]
      nextEv := (d.nextEv + 1) % 2 ^ 40 }

/-- TCAUSE (R266). -/
def tcauseOf (k : ClassState) : W64 :=
  (k.tcode ++ k.teng ++ BitVec.ofBool k.hmode ++ 0#4 ++ k.tord : BitVec 64)

/-! ## Stopping what runs -/

/-! ## Passes and the end of deferral (R183, R184) -/

/-- Physical towers in use: those of the 32 desks (R189). -/
def towersInUse (k : ClassState) : List Nat := (List.range 32).map (physTower k)

/-- Consumption of a tower in 1/256 µs-equivalents (R181). -/
def consOf (k : ClassState) (t : Nat) : Nat := tget 0 k.cons t

/-- 1,000,000 µs-equivalents. -/
def passAt : Nat := 1000000 * 256

def passOn (k : ClassState) (t : Nat) : Bool := k.passes.any fun p => p.tower == t

/-- Start a pass on a tower; a background pass that runs on it stops. -/
def startPass (forced : Bool) (k : ClassState) (t : Nat) : ClassState :=
  { k with passes := ⟨t, consOf k t, forced⟩ :: k.passes.filter fun p => p.tower != t }

/-- Towers in use with no pass running whose consumption reaches `n`. -/
def idleAt (k : ClassState) (n : Nat) : List Nat :=
  (towersInUse k).dedup.filter fun t => !passOn k t && decide (n ≤ consOf k t)

/-- Deferral ends: towers that have reached 1,000,000 start their pass (R184). -/
def endDefer (k : ClassState) : ClassState :=
  let k := { k with defer := false, lim := 0 }
  (idleAt k passAt).foldl (startPass false) k

/-- Deferral ends with the team, whatever ends it (R184, R186). -/
def leaveDefer (k : ClassState) : ClassState := if k.defer then endDefer k else { k with lim := 0 }

/-- What stays of a class whose team is stopped: its state as it stood, without its in-flight operations (R107); deferral
ends. -/
def stopClass (k : ClassState) : ClassState :=
  { leaveDefer k with
    live := false, inflight := [], pend := [], resolved := [], walk := none, hold := none, fences := [],
    partials := [], causes := [], trap := none, retire := [], taken := [], pswAt := none, batch := [] }

/-- Registers, masks, accumulators, tags, queues and loop counters cleared (R134 step 5). -/
def clearClass (k : ClassState) : ClassState :=
  { stopClass k with
    sreg := [], areg := [], v := [], k := [], tile := [], tok := [], rsv := [], qs := [], qv := [], qb := [], qf := [],
    qbAll := [], ws := { k.ws with loops := [] }, wa := { k.wa with loops := [] }, wv := { k.wv with loops := [] },
    wm := { k.wm with loops := [] }, wx := { k.wx with loops := [] } }

/-- Apply `f` to each class. -/
def stopClasses (f : ClassState → ClassState) (cs : List Nat) (s : State) : State :=
  cs.foldl (fun s c => modCls s c f) s

/-- A shadow frame goes back to firmware's reserve: SHADOW of its source is cleared (R218). -/
def freeShadow (s : State) (sh : Shadow) : State :=
  match frameIdx sh.frame with
  | none => s
  | some x =>
    let s := unsealFrame s sh.table sh.idx
    setIptEntry (setIptEntry s x.1 x.2 { iptEntry s x.1 x.2 with shadow := 0xFFFFFFFF }) x.1 sh.idx { part := 31 }

/-- The node's staged writes are discarded and its shadow frames freed (R134 step 3). -/
def discardStaged (s : State) (inst node : Nat) : State :=
  let n := nodeOf s inst node
  let s := n.shadows.foldl freeShadow s
  modNode s inst node fun n => { n with shadows := [], staged := [], epoch := 0, recorded := [], digest := none, partner := none }

/-- The classes that a node's teams hold now. -/
def nodeClasses (s : State) (inst node : Nat) : List Nat :=
  (s.teams.filter fun t => t.inst = inst && t.node = node && t.state != .saved).flatMap (·.classes)

/-- Routers keep requests of saved teams only (R280). -/
def cleanRouters (s : State) : State :=
  if s.cls.any fun k => !k.router.isEmpty then
    { s with cls := s.cls.map fun k => { k with router := k.router.filter fun r => s.teams.any fun t => t.id = r.team } }
  else s

/-- Take the teams of a node away; their images are freed, partials of theirs that have not merged and selections for their
iterations go (R107), their loans end. -/
def dropTeams (s : State) (inst node : Nat) : State :=
  relend (cleanRouters { s with
    teams := s.teams.filter fun t => !(t.inst = inst && t.node = node)
    transit := s.transit.filter fun t => !(t.inst = inst && t.node = node)
    pairSel := s.pairSel.filter fun x => !(x.tag.inst = inst && x.tag.node = node) })

/-- Give the instance its end: state ended, status for its completion record (R69, R101). -/
def endInst (s : State) (num : Nat) (status : Byte) : State :=
  modInst s num fun i => if i.state = .ended then i else { i with state := .ended, status := status }

/-- One node of a failing instance stopped and discarded (R107): its classes keep their state. -/
def stopNode (s : State) (inst node : Nat) : State :=
  let s := stopClasses stopClass (nodeClasses s inst node) s
  discardStaged (dropTeams s inst node) inst node

/-- Numbers of the nodes that have not retired. -/
def unretired (i : Instance) : List Nat :=
  ((i.nodes.zipIdx).filter fun e => e.1.state != .retired).map (·.2)

/-- The instance fails: every unretired node stopped and discarded, status 0x04 (R107). -/
def failInst (s : State) (num : Nat) : State :=
  match instOf s num with
  | none => s
  | some i =>
    if i.state = .ended then s
    else endInst ((unretired i).foldl (fun s n => stopNode s num n) s) num 0x04

/-- The causes of a kill or failure that R146 lists. -/
def bbCauses : List Nat := [0x02, 0x12, 0x13, 0x20, 0x34, 0xFF]

/-- The cause byte of a black-box entry whose causing event has no code among those that R146 lists: free among them (log 48). -/
def openCause (s : State) : Nat := bbCauses.getD ((freeVal s).toNat % 6) 0xFF

/-- A node fails for a cause that the black box names (0x011, R146). DESIGN CHOICE (log 69): the die of the node's first class records
it, die 0 where no class runs it. -/
def failNode (s : State) (inst node : Nat) (cause : Nat) : State :=
  let r := (snapOf s inst node).record
  let die := match nodeClasses s inst node with
    | c :: _ => dieOf c
    | [] => 0
  failInst (bbRecord s die (partOfInst s inst) 0x011 0xFF 0xFF (recTag r) (BitVec.ofNat 64 (cause * 256))) inst

/-- A node fails for a cause outside R146's list. -/
def failNodeOpen (s : State) (inst node : Nat) : State := failNode (bump s) inst node (openCause s)

/-! ## Kill (R134-R136) -/

/-- Poisoned tower and scratch lines of a class written with zeros and unpoisoned, each recorded as 0x016. -/
def zeroPoisoned (c : Nat) (s : State) : State :=
  s.poison.foldl (fun s e =>
    match e.1 with
    | .tower c' p l =>
      if c' = c then clearPoison (bbClass (writeBytes s (towerAddr c p (l * 64)) (List.replicate 64 0)) c 0x016
        (BitVec.ofNat 8 p) (locator e.1 0)) e.1 else s
    | .scratch c' l =>
      if c' = c then clearPoison (bbClass (writeBytes s (scratchAddr c (l * 64)) (List.replicate 64 0)) c 0x016
        0xFF (locator e.1 0)) e.1 else s
    | .vreg c' _ _ _ => if c' = c then clearPoison s e.1 else s
    | .acc c' _ _ _ => if c' = c then clearPoison s e.1 else s
    | .mask c' _ _ _ => if c' = c then clearPoison s e.1 else s
    | .queue c' _ _ => if c' = c then clearPoison s e.1 else s
    | .phys _ => s
    | .code _ _ => s
    | .counter _ => s) s

/-- A node can be killed: not retired, its anchor swap not begun, its partition running (R136); one that has not begun, by its
peer (R139). -/
def killable (s : State) (inst node : Nat) : Bool :=
  match instOf s inst with
  | none => false
  | some i =>
    i.state = .running && decide (node < i.nodes.length) && (getPart s i.part).state = 1 &&
    match (nodeOf s inst node).state with
    | .swapping => false
    | .retired => false
    | .waiting => true
    | .ready => true
    | .digest => true

/-- Re-queue a killed node whole, its wait edge treated as satisfied, or fail it at the fourth kill (R107, R135). DESIGN CHOICE (log
69): die 0 records 0x010. -/
def rollBack (s : State) (inst node cause : Nat) : State :=
  let n := nodeOf s inst node
  let r := (snapOf s inst node).record
  if n.rollbacks < 3 then
    let s := bbRecord s 0 (partOfInst s inst) 0x010 0xFF 0xFF (recTag r)
      (BitVec.ofNat 64 (cause * 256 + n.rollbacks + 1))
    let s := modNode s inst node fun n =>
      { n with state := .ready, next := 0, restarts := [], rollbacks := n.rollbacks + 1 }
    modInst s inst fun i => { i with nrb := min 255 (i.nrb + 1) }
  else failNode s inst node cause

/-- A kill notice (R139), with the rollback count of the run that was killed (log 49). -/
def sendKillNotice (s : State) (inst node : Nat) : State := sendPair s 0x139 [inst, node, (nodeOf s inst node).rollbacks]

/-- The kill (R134): teams stop, staged writes go, poisoned lines are zeroed, registers cleared; a paired
partition's peer gets a notice (R139) unless the kill came from it. -/
def killNode (s : State) (inst node cause : Nat) : State :=
  if killable s inst node then
    let cs := nodeClasses s inst node
    let s := cs.foldl (fun s c => zeroPoisoned c s) s
    let s := stopClasses clearClass cs s
    let s := discardStaged (dropTeams s inst node) inst node
    let s := if (getPart s (partOfInst s inst)).paired && cause ≠ 0xFF then sendKillNotice s inst node else s
    rollBack s inst node cause
  else s

/-- Ask for a kill; NODE_KILL carries it out as the next step (R134). -/
def requestKill (s : State) (inst node cause : Nat) : State :=
  due { s with kills := ⟨inst, node, BitVec.ofNat 8 cause⟩ :: s.kills }
    (.event (.nodeKill inst node (BitVec.ofNat 8 cause)))

/-- The node that a class runs is killed. -/
def killOn (s : State) (c cause : Nat) : State :=
  match teamOf s c with
  | some t => requestKill s t.inst t.node cause
  | none => s

/-- The node that a class runs fails without rollback, without a black-box entry (R270). -/
def failOn (s : State) (c : Nat) : State :=
  match teamOf s c with
  | some t => failInst s t.inst
  | none => s

/-- The node that a class runs fails without rollback, with the black-box entry of a cause outside R146's list. -/
def failOpen (s : State) (c : Nat) : State :=
  match teamOf s c with
  | some t => failNodeOpen s t.inst t.node
  | none => s

/-- Firmware fails the node of an event's class: for the codes of R270 no entry is written. -/
def failEvent (s : State) (c code : Nat) : State :=
  if [0x01, 0x02, 0x03, 0x06, 0x07].contains code then failOn s c else failOpen s c

def setCause (s : State) (c : Nat) (code : Nat) (e : BitVec 3) (ord : Nat) (tinfo : W64) : State :=
  modCls s c fun k => { k with tcode := BitVec.ofNat 8 code, teng := e, tord := BitVec.ofNat 48 ord, tinfo := tinfo }

/-- The event of the cause that a class has taken, for firmware (R263, R461). -/
def causeEvent (s : State) (c : Nat) : State :=
  let k := getCls s c
  let inst := match teamOf s c with | some t => t.inst | none => 0
  pushEvent s (dieOf c) k.tcode.toNat c (partOf s c) k.tinfo (tcauseOf k) (BitVec.ofNat 64 inst)

/-- A system cause: TCAUSE and TINFO, and its event (R263). -/
def systemCause (s : State) (c : Nat) (code : Nat) (e : BitVec 3) (ord : Nat) (tinfo : W64) : State :=
  causeEvent (setCause s c code e ord tinfo) c

/-- Poison consumed by class `c` at path position `ord` (R131): media kills the node, integrity fails it at once with a security
event. -/
def consumeAt (s : State) (c : Nat) (e : Eng) (ord : Nat) (kind : Bool) (u : PUnit) (va : Nat) : State :=
  let loc := locatorOn s u va
  let unit := BitVec.ofNat 8 (0x40 + (engCode e).toNat)
  if kind then
    let s := systemCause s c 0x21 (engCode e) ord loc
    let s := msix (bbClass s c 0x014 unit loc) .pf0 2
    failOpen s c
  else
    let s := systemCause s c 0x20 (engCode e) ord loc
    killOn (bbClass s c 0x013 unit loc) c 0x13

/-- Poison consumed by the word that a walker stands at. -/
def consumePoison (s : State) (c : Nat) (e : Eng) (kind : Bool) (u : PUnit) (va : Nat) : State :=
  consumeAt s c e (walkerOf (getCls s c) e).ord kind u va

end Sys2Proof.Machine
end

