-- ==== Sys2Proof/Machine/Admit.lean ====
section
/-!
DEFINITION. The values that the fields of a word admit (R331-R336, and the description of each word): what makes 80
bits an instruction beyond its opcode and its RZ bits. One arm a constructor.
-/

namespace Sys2Proof.Machine

/-- Bits of an element of a TYPE code (R332, R284, R289, R291); 0 for a code that is not an instruction. -/
def elemBits (t : BitVec 5) : Nat :=
  match t.toNat with
  | 0 | 4 | 13 | 16 => 4
  | 1 | 5 | 11 | 12 | 14 | 15 => 8
  | 2 | 6 | 9 | 10 => 16
  | 3 | 7 | 8 => 32
  | _ => 0

/-- Elements of a TYPE in one vector register (R284): 4,096 bits over the element size. -/
def elemCount (t : BitVec 5) : Nat := 4096 / elemBits t

/-- Group F of R399: .f32 .f16 .bf16. -/
def tyF (t : BitVec 5) : Bool := t == 8#5 || t == 9#5 || t == 10#5
/-- Group I of R399: the 8, 16 and 32-bit integers. -/
def tyI (t : BitVec 5) : Bool := t == 1#5 || t == 2#5 || t == 3#5 || t == 5#5 || t == 6#5 || t == 7#5
/-- Group Q of R399: .i4 .n4. -/
def tyQ (t : BitVec 5) : Bool := t == 0#5 || t == 4#5
/-- Group M of R399: every element type, codes 0-12. -/
def tyM (t : BitVec 5) : Bool := t.toNat ≤ 12
/-- FP8 element types. -/
def tyFp8 (t : BitVec 5) : Bool := t == 11#5 || t == 12#5
/-- Block-formatted types: K4 and the three MX formats (R287, R291). -/
def tyBlock (t : BitVec 5) : Bool := t == 13#5 || t == 14#5 || t == 15#5 || t == 16#5

/-- A word that rounds takes RM 0-4 on a floating type and RM 0 on an integer type (R294, R400). -/
def rmFor (t : BitVec 5) (rm : BitVec 3) : Bool := if tyF t then rm.toNat ≤ 4 else rm == 0

/-- A k-register named in a 6-bit field leaves [5:3] zero (R331, R403, R404). -/
def kReg (x : BitVec 6) : Bool := x.toNat < 8

/-- The destination registers of the SRREAD forms: s8, s16 or s24 (R318). -/
def srDest (d : BitVec 5) : Bool := d == 8#5 || d == 16#5 || d == 24#5

/-- MODE and IMM15 of COPY and COPY2D (R377, R379). -/
def copyMode (mode : BitVec 8) (imm : BitVec 15) : Bool :=
  let kind := mode.extractLsb' 6 2
  let one := mode.getLsbD 5
  let desk := imm.extractLsb' 10 5
  let dsh := (imm.extractLsb' 5 5).toNat
  kind != 3#2 && mode.extractLsb' 0 4 == 0 && imm.extractLsb' 0 5 == 0
    && (dsh == 0 || (6 ≤ dsh && dsh ≤ 30)) && (one || desk == 0) && (!one || dsh == 0)
    && (kind != 2#2 || (!one && desk == 0 && dsh == 0))

/-- The pairs, segments and registers VCVT admits (R407, R408, R302): TYPE is the destination, AUX[4:0] the source. -/
def cvtOk (f : FVR) : Bool :=
  let d := f.ty
  let s := f.aux.extractLsb' 0 5
  let seg := (f.aux.extractLsb' 5 3).toNat
  let bs := elemBits s
  let bd := elemBits d
  let fp := fun t => tyF t || tyFp8 t
  let int := fun t => tyI t || tyQ t
  let pair := (fp s && fp d) || (tyF s && int d) || (int s && tyF d) || (int s && int d)
    || (s == 8#5 && tyBlock d) || (tyBlock s && d == 8#5)
  let block := tyBlock s || tyBlock d
  pair && s != d && f.rm.toNat ≤ 4 && (!f.oc || tyFp8 d) && f.vc == 0
    && seg * min bs bd < max bs bd
    && (f.vb == 0 || s == 13#5 || d == 13#5)
    && (!block || (f.k == 0 && !f.kz))
    && (!tyBlock s || !f.va.getLsbD 0) && (!tyBlock d || !f.vd.getLsbD 0)

/-- 2 for a pair, 4 for a quad (.x4) of the widening and narrowing words (R409, R410). -/
def widenWays (aux : BitVec 8) : Nat := if aux.getLsbD 0 then 4 else 2

/-- Types, AUX and destination of the widening words (R409). -/
def widenOk (t : BitVec 5) (aux : BitVec 8) (vd : BitVec 6) : Bool :=
  aux.extractLsb' 1 7 == 0 && vd.toNat % widenWays aux == 0
    && (if aux.getLsbD 0 then t == 1#5 || t == 5#5
        else t == 1#5 || t == 2#5 || t == 5#5 || t == 6#5 || t == 9#5 || t == 10#5)

/-- Types, AUX and source of VNRW (R410). -/
def narrowOk (t : BitVec 5) (aux : BitVec 8) (va : BitVec 6) : Bool :=
  aux.extractLsb' 1 7 == 0 && va.toNat % widenWays aux == 0
    && (if aux.getLsbD 0 then t == 1#5 || t == 5#5
        else t == 0#5 || t == 4#5 || t == 1#5 || t == 5#5 || t == 2#5 || t == 6#5 || t == 9#5 || t == 10#5)

/-- ATAG is RZ when AV = 0 (R323, R336). -/
def hdrOk (h : Hdr) : Bool := h.av || h.atag == 0
/-- A common word has PD, AV, ATAG and CMASK zero (R324). -/
def hdrCommon (h : Hdr) : Bool := h.pd == 0 && !h.av && h.atag == 0 && h.cmask == 0

/-- Every field of the word holds a value that its description admits (R336 items 2 to 4; the RZ bits of a format
are no fields here: Decode refuses a word that sets one). Events are always admitted. -/
def admits : Instr → Bool
  | .coldStart _ => true
  | .warmReset => true
  | .registerWrite _ _ _ => true
  | .qwidxWrite _ _ _ => true
  | .queueEnable _ _ _ => true
  | .queueDisable _ _ _ => true
  | .entryNop _ _ => true
  | .entryLaunch _ _ => true
  | .launchAcceptance _ _ => true
  | .entryCadd _ _ => true
  | .entryCwait _ _ => true
  | .entryCwaitSatisfied _ _ => true
  | .entryReadError _ _ => true
  | .instanceStart _ => true
  | .instanceEnd _ => true
  | .hallMonitorExpiry _ _ => true
  | .partCreate => true
  | .partDestroy => true
  | .partReset => true
  | .partRearm => true
  | .fwLoad => true
  | .fwActivate => true
  | .fwReversion => true
  | .pairConfig => true
  | .pcapWrite _ => true
  | .bbctlWrite _ _ => true
  | .readbackRead _ => true
  | .readbackWrite _ _ => true
  | .hostBarRead _ _ _ _ => true
  | .hostBarWrite _ _ _ => true
  | .hostAtomicop _ _ _ _ _ _ => true
  | .getVersion => true
  | .getCapabilities => true
  | .negotiateAlgorithms _ _ _ _ => true
  | .getDigests => true
  | .getCertificate _ _ _ => true
  | .challenge _ _ => true
  | .getMeasurements _ _ _ => true
  | .keyExchange _ _ => true
  | .finish _ _ => true
  | .heartbeat _ => true
  | .endSession _ => true
  | .powerEvaluation _ => true
  | .frequencyTransition _ => true
  | .sensorSample _ _ _ _ _ => true
  | .rampPermitStep _ => true
  | .windowArbitration _ _ _ _ => true
  | .lncTick => true
  | .nanosecondWaitExpiry _ => true
  | .shadowLatchReplay _ => true
  | .replayHoldEnd _ => true
  | .replayGovernorWindow _ => true
  | .correctableError _ _ _ => true
  | .freezeEnd _ => true
  | .freezeGuardEnd _ => true
  | .uncorrectableError _ => true
  | .nodeKill _ _ _ => true
  | .refreshTick => true
  | .backgroundPassStart _ _ => true
  | .refreshPassComplete _ _ => true
  | .forcing _ => true
  | .refillReinject _ _ => true
  | .nodeReady _ _ => true
  | .dispenseScan => true
  | .victimDecision _ => true
  | .drainBoundExpiry _ => true
  | .saveComplete _ => true
  | .resumeComplete _ => true
  | .nodeRetirement _ _ => true
  | .anchorSwapComplete _ _ => true
  | .pairDigestReceived _ _ _ _ => true
  | .pairDigestTimeout _ _ => true
  | .pairDecisionReceived _ _ _ => true
  | .pairDecisionTimeout _ _ => true
  | .killNoticeReceived _ _ => true
  | .fenceNoticeReceived _ => true
  | .pairSelectionReceived _ _ _ => true
  | .pairSelectionTimeout _ => true
  | .pairSaveDecisionTimeout _ => true
  | .corridorRequestArrival _ _ => true
  | .corridorAckTimeout _ _ => true
  | .stairwellDrain _ _ => true
  | .stairwellRetire _ _ => true
  | .stairwellFailure _ _ => true
  | .kLinkFlitRetry _ => true
  | .linkTraining _ _ => true
  | .bridgeLaneFailure _ _ => true
  | .pageWalkComplete _ => true
  | .shootdownReceipt _ _ => true
  | .shootdownAck _ _ => true
  | .migration _ _ _ _ _ => true
  | .codePageScan _ _ => true
  | .fetchLineMiss _ _ => true
  | .counterRequestArrival _ _ => true
  | .waitCancelArrival _ _ => true
  | .epochRequest _ _ => true
  | .recordMerge _ _ _ => true
  | .trapMerge _ => true
  | .mapOpArrival _ _ => true
  | .wordCompletion _ _ => true
  | .remapTableWrite _ _ _ => true
  | .rtblWrite _ _ _ => true
  | .blk h f => hdrCommon h && (1 ≤ f.n.toNat) && (f.n.toNat ≤ 4096)
  | .loop h f => hdrCommon h && (1 ≤ f.len.toNat) && (f.len.toNat ≤ 256) && (!f.rs || f.count.extractLsb' 0 27 == 0)
  | .psw h _ => hdrCommon h
  | .nop h => hdrOk h
  | .add h f => hdrOk h && f.c == 0 && f.csr == 0
  | .sub h f => hdrOk h && f.c == 0 && f.csr == 0
  | .mul h f => hdrOk h && f.c == 0 && f.csr == 0
  | .mulh h f => hdrOk h && f.c == 0 && f.csr == 0
  | .mulhu h f => hdrOk h && f.c == 0 && f.csr == 0
  | .div h f => hdrOk h && f.c == 0 && f.csr == 0
  | .divu h f => hdrOk h && f.c == 0 && f.csr == 0
  | .rem h f => hdrOk h && f.c == 0 && f.csr == 0
  | .remu h f => hdrOk h && f.c == 0 && f.csr == 0
  | .and h f => hdrOk h && f.c == 0 && f.csr == 0
  | .or h f => hdrOk h && f.c == 0 && f.csr == 0
  | .xor h f => hdrOk h && f.c == 0 && f.csr == 0
  | .shl h f => hdrOk h && f.c == 0 && f.csr == 0
  | .shr h f => hdrOk h && f.c == 0 && f.csr == 0
  | .sra h f => hdrOk h && f.c == 0 && f.csr == 0
  | .min h f => hdrOk h && f.c == 0 && f.csr == 0
  | .max h f => hdrOk h && f.c == 0 && f.csr == 0
  | .minu h f => hdrOk h && f.c == 0 && f.csr == 0
  | .maxu h f => hdrOk h && f.c == 0 && f.csr == 0
  | .popc h f => hdrOk h && f.b == 0 && f.c == 0 && f.csr == 0
  | .clz h f => hdrOk h && f.b == 0 && f.c == 0 && f.csr == 0
  | .ctz h f => hdrOk h && f.b == 0 && f.c == 0 && f.csr == 0
  | .addi h _ => hdrOk h
  | .muli h _ => hdrOk h
  | .andi h _ => hdrOk h
  | .ori h _ => hdrOk h
  | .xori h _ => hdrOk h
  | .shli h f => hdrOk h && (f.imm.toNat ≤ 63)
  | .shri h f => hdrOk h && (f.imm.toNat ≤ 63)
  | .srai h f => hdrOk h && (f.imm.toNat ≤ 63)
  | .li h _ => hdrOk h
  | .lih h f => hdrOk h && f.imm.extractLsb' 24 16 == 0
  | .cmpeq h f => hdrOk h && f.c == 0 && f.csr == 0
  | .cmpne h f => hdrOk h && f.c == 0 && f.csr == 0
  | .cmplt h f => hdrOk h && f.c == 0 && f.csr == 0
  | .cmpltu h f => hdrOk h && f.c == 0 && f.csr == 0
  | .cmple h f => hdrOk h && f.c == 0 && f.csr == 0
  | .cmpleu h f => hdrOk h && f.c == 0 && f.csr == 0
  | .cmpeqi h _ => hdrOk h
  | .cmplti h _ => hdrOk h
  | .sel h f => hdrOk h && f.csr == 0
  | .br h f => hdrOk h && f.a == 0 && f.b == 0
  | .brr h f => hdrOk h && f.d == 0 && f.b == 0 && f.c == 0 && f.csr == 0
  | .bz h f => hdrOk h && f.b == 0
  | .bnz h f => hdrOk h && f.b == 0
  | .beq h _ => hdrOk h
  | .bne h _ => hdrOk h
  | .blt h _ => hdrOk h
  | .bge h _ => hdrOk h
  | .bltu h _ => hdrOk h
  | .bgeu h _ => hdrOk h
  | .bq h f => hdrOk h && f.a == 0 && f.b == 0
  | .bqn h f => hdrOk h && f.a == 0 && f.b == 0
  | .call h f => hdrOk h && f.a == 0 && f.b == 0
  | .callr h f => hdrOk h && f.d == 0 && f.b == 0 && f.c == 0 && f.csr == 0
  | .ret h => hdrOk h
  | .qpop h f => hdrOk h && f.a == 0 && f.b == 0 && f.c == 0 && f.csr == 0
  | .fqpush h f => hdrOk h && f.d == 0 && f.b == 0 && f.c == 0 && f.csr == 0
  | .prio h f => hdrOk h && f.d == 0 && f.a == 0 && (f.imm.toNat ≤ 3)
  | .sleepns h f => hdrOk h && f.d == 0 && f.b == 0 && f.c == 0 && f.csr == 0
  | .rdlnc h f => hdrOk h && f.a == 0 && f.b == 0 && f.c == 0 && f.csr == 0
  | .rdcsr h f => hdrOk h && f.a == 0 && f.b == 0 && f.c == 0 && (f.csr.toNat ≤ 0x0E)
  | .wrcsr h f => hdrOk h && f.d == 0 && f.b == 0 && f.c == 0 && (f.csr.toNat ≤ 0x0E)
  | .lds h _ => hdrOk h
  | .sts h f => hdrOk h && !f.sx
  | .exit h => hdrOk h
  | .aadd h _ => hdrOk h
  | .asub h _ => hdrOk h
  | .aaddi h _ => hdrOk h
  | .amuli h _ => hdrOk h
  | .ashli h f => hdrOk h && (f.imm.toNat ≤ 63)
  | .amov h f => hdrOk h && f.y == 0
  | .amovi h f => hdrOk h && f.s == 0
  | .copy h f => hdrOk h && copyMode f.mode f.imm && (f.mode.getLsbD 4 || f.sc == 0)
  | .copy2d h f => hdrOk h && copyMode f.mode f.imm && !f.mode.getLsbD 4
  | .gather h f => hdrOk h && (f.mode.extractLsb' 4 4 ≤ 10#4) && f.mode.extractLsb' 0 3 == 0 && f.imm != 0 && (f.mode.getLsbD 3 || f.sc == 0)
  | .scatter h f => hdrOk h && (f.mode.extractLsb' 4 4 ≤ 10#4) && f.mode.extractLsb' 0 3 == 0 && f.imm != 0 && (f.mode.getLsbD 3 || f.sc == 0)
  | .ldq h f => hdrOk h && f.ad == 0 && f.an == 0 && f.tok == 0 && f.sc == 0 && f.mode.extractLsb' 0 4 == 0
  | .aqeq h f => hdrOk h && f.z == 0
  | .aqne h f => hdrOk h && f.z == 0
  | .aqlt h f => hdrOk h && f.z == 0
  | .aqltu h f => hdrOk h && f.z == 0
  | .aqeqi h f => hdrOk h && f.y == 0
  | .aqlti h f => hdrOk h && f.y == 0
  | .kvmap h f => hdrOk h && f.an == 0 && f.sc == 0 && f.imm == 0 && f.mode.extractLsb' 4 4 == 0
  | .kvshare h f => hdrOk h && f.sc == 0 && f.imm == 0 && f.mode.extractLsb' 4 4 == 0
  | .kvfree h f => hdrOk h && f.ad == 0 && f.an == 0 && f.sc == 0 && f.imm == 0 && f.mode.extractLsb' 4 4 == 0
  | .viewDef h f => hdrOk h && f.tok == 0 && f.imm == 0 && f.mode.extractLsb' 6 2 == 0 && f.mode.extractLsb' 4 2 != 3#2 && !f.ad.getLsbD 0
  | .brefill h f => hdrOk h && f.imm == 0 && f.mode.extractLsb' 1 7 == 0
  | .rfdefer h f => hdrOk h && f.x == 0 && f.y == 0
  | .rfnow h => hdrOk h
  | .rdretb h => hdrOk h
  | .xsh h f => hdrOk h && f.edge != 3#2 && f.nl == 0
  | .xsht h f => hdrOk h && f.edge != 3#2 && !f.d.getLsbD 0 && !f.s.getLsbD 0
  | .xsend h f => hdrOk h && !f.mode.getLsbD 7 && (f.mode.getLsbD 0 || f.mode.extractLsb' 1 5 == 0) && (f.mode.getLsbD 6 || f.ctr == 0)
  | .xrecv h f => hdrOk h && !f.mode.getLsbD 7 && (f.mode.getLsbD 0 || f.mode.extractLsb' 1 5 == 0) && (f.mode.getLsbD 6 || f.ctr == 0)
  | .xbcast h f => hdrOk h && f.mode.extractLsb' 0 6 == 0 && !f.mode.getLsbD 7 && (f.mode.getLsbD 6 || f.ctr == 0)
  | .vadd h f => hdrOk h && (tyF f.ty || tyI f.ty) && f.vc == 0 && !f.oc && f.aux == 0 && rmFor f.ty f.rm
  | .vsub h f => hdrOk h && (tyF f.ty || tyI f.ty) && f.vc == 0 && !f.oc && f.aux == 0 && rmFor f.ty f.rm
  | .vmul h f => hdrOk h && (tyF f.ty || tyI f.ty) && f.vc == 0 && !f.oc && f.aux == 0 && rmFor f.ty f.rm
  | .vfma h f => hdrOk h && (tyF f.ty || tyI f.ty) && !f.oc && f.aux == 0 && rmFor f.ty f.rm
  | .vfnma h f => hdrOk h && (tyF f.ty || tyI f.ty) && !f.oc && f.aux == 0 && rmFor f.ty f.rm
  | .vmin h f => hdrOk h && (tyF f.ty || tyI f.ty) && f.vc == 0 && !f.oc && f.aux == 0 && f.rm == 0
  | .vmax h f => hdrOk h && (tyF f.ty || tyI f.ty) && f.vc == 0 && !f.oc && f.aux == 0 && f.rm == 0
  | .vabs h f => hdrOk h && (tyF f.ty || tyI f.ty) && f.vb == 0 && f.vc == 0 && !f.oc && f.aux == 0 && f.rm == 0
  | .vneg h f => hdrOk h && (tyF f.ty || tyI f.ty) && f.vb == 0 && f.vc == 0 && !f.oc && f.aux == 0 && f.rm == 0
  | .vaddsat h f => hdrOk h && tyI f.ty && f.vc == 0 && !f.oc && f.aux == 0 && f.rm == 0
  | .vsubsat h f => hdrOk h && tyI f.ty && f.vc == 0 && !f.oc && f.aux == 0 && f.rm == 0
  | .vmulh h f => hdrOk h && tyI f.ty && f.vc == 0 && !f.oc && f.aux == 0 && f.rm == 0
  | .vaddQ h f => hdrOk h && (tyF f.ty || tyI f.ty) && f.vb == 0 && f.vc == 0 && !f.oc && f.aux == 0 && rmFor f.ty f.rm
  | .vsubQ h f => hdrOk h && (tyF f.ty || tyI f.ty) && f.vb == 0 && f.vc == 0 && !f.oc && f.aux == 0 && rmFor f.ty f.rm
  | .vmulQ h f => hdrOk h && (tyF f.ty || tyI f.ty) && f.vb == 0 && f.vc == 0 && !f.oc && f.aux == 0 && rmFor f.ty f.rm
  | .vfmaQ h f => hdrOk h && (tyF f.ty || tyI f.ty) && f.vb == 0 && !f.oc && f.aux == 0 && rmFor f.ty f.rm
  | .vminQ h f => hdrOk h && (tyF f.ty || tyI f.ty) && f.vb == 0 && f.vc == 0 && !f.oc && f.aux == 0 && f.rm == 0
  | .vmaxQ h f => hdrOk h && (tyF f.ty || tyI f.ty) && f.vb == 0 && f.vc == 0 && !f.oc && f.aux == 0 && f.rm == 0
  | .vandQ h f => hdrOk h && (tyI f.ty || tyQ f.ty) && f.vb == 0 && f.vc == 0 && !f.oc && f.aux == 0 && f.rm == 0
  | .vorQ h f => hdrOk h && (tyI f.ty || tyQ f.ty) && f.vb == 0 && f.vc == 0 && !f.oc && f.aux == 0 && f.rm == 0
  | .vxorQ h f => hdrOk h && (tyI f.ty || tyQ f.ty) && f.vb == 0 && f.vc == 0 && !f.oc && f.aux == 0 && f.rm == 0
  | .vcmpeqQ h f => hdrOk h && (tyF f.ty || tyI f.ty || tyQ f.ty) && kReg f.vd && f.vb == 0 && f.vc == 0 && !f.oc && f.aux == 0 && f.rm == 0
  | .vcmpltQ h f => hdrOk h && (tyF f.ty || tyI f.ty || tyQ f.ty) && kReg f.vd && f.vb == 0 && f.vc == 0 && !f.oc && f.aux == 0 && f.rm == 0
  | .vcmpleQ h f => hdrOk h && (tyF f.ty || tyI f.ty || tyQ f.ty) && kReg f.vd && f.vb == 0 && f.vc == 0 && !f.oc && f.aux == 0 && f.rm == 0
  | .vand h f => hdrOk h && (tyI f.ty || tyQ f.ty) && f.vc == 0 && !f.oc && f.aux == 0 && f.rm == 0
  | .vor h f => hdrOk h && (tyI f.ty || tyQ f.ty) && f.vc == 0 && !f.oc && f.aux == 0 && f.rm == 0
  | .vxor h f => hdrOk h && (tyI f.ty || tyQ f.ty) && f.vc == 0 && !f.oc && f.aux == 0 && f.rm == 0
  | .vnot h f => hdrOk h && (tyI f.ty || tyQ f.ty) && f.vb == 0 && f.vc == 0 && !f.oc && f.aux == 0 && f.rm == 0
  | .vpopc h f => hdrOk h && tyI f.ty && f.vb == 0 && f.vc == 0 && !f.oc && f.aux == 0 && f.rm == 0
  | .vclz h f => hdrOk h && tyI f.ty && f.vb == 0 && f.vc == 0 && !f.oc && f.aux == 0 && f.rm == 0
  | .vshl h f => hdrOk h && (tyI f.ty || tyQ f.ty) && f.vc == 0 && !f.oc && f.aux == 0 && f.rm == 0
  | .vshr h f => hdrOk h && (tyI f.ty || tyQ f.ty) && f.vc == 0 && !f.oc && f.aux == 0 && f.rm == 0
  | .vsra h f => hdrOk h && (tyI f.ty || tyQ f.ty) && f.vc == 0 && !f.oc && f.aux == 0 && f.rm == 0
  | .vshli h f => hdrOk h && (tyI f.ty || tyQ f.ty) && f.vb == 0 && f.vc == 0 && !f.oc && (f.aux.toNat < elemBits f.ty) && f.rm == 0
  | .vshri h f => hdrOk h && (tyI f.ty || tyQ f.ty) && f.vb == 0 && f.vc == 0 && !f.oc && (f.aux.toNat < elemBits f.ty) && f.rm == 0
  | .vsrai h f => hdrOk h && (tyI f.ty || tyQ f.ty) && f.vb == 0 && f.vc == 0 && !f.oc && (f.aux.toNat < elemBits f.ty) && f.rm == 0
  | .vcmpeq h f => hdrOk h && (tyF f.ty || tyI f.ty || tyQ f.ty) && kReg f.vd && f.vc == 0 && !f.oc && f.aux == 0 && f.rm == 0
  | .vcmpne h f => hdrOk h && (tyF f.ty || tyI f.ty || tyQ f.ty) && kReg f.vd && f.vc == 0 && !f.oc && f.aux == 0 && f.rm == 0
  | .vcmplt h f => hdrOk h && (tyF f.ty || tyI f.ty || tyQ f.ty) && kReg f.vd && f.vc == 0 && !f.oc && f.aux == 0 && f.rm == 0
  | .vcmple h f => hdrOk h && (tyF f.ty || tyI f.ty || tyQ f.ty) && kReg f.vd && f.vc == 0 && !f.oc && f.aux == 0 && f.rm == 0
  | .vcmpun h f => hdrOk h && tyF f.ty && kReg f.vd && f.vc == 0 && !f.oc && f.aux == 0 && f.rm == 0
  | .kand h f => hdrOk h && kReg f.vd && kReg f.va && kReg f.vb && f.ty == 0 && f.k == 0 && !f.kz && f.vc == 0 && !f.oc && f.aux == 0 && f.rm == 0
  | .kor h f => hdrOk h && kReg f.vd && kReg f.va && kReg f.vb && f.ty == 0 && f.k == 0 && !f.kz && f.vc == 0 && !f.oc && f.aux == 0 && f.rm == 0
  | .kxor h f => hdrOk h && kReg f.vd && kReg f.va && kReg f.vb && f.ty == 0 && f.k == 0 && !f.kz && f.vc == 0 && !f.oc && f.aux == 0 && f.rm == 0
  | .kandn h f => hdrOk h && kReg f.vd && kReg f.va && kReg f.vb && f.ty == 0 && f.k == 0 && !f.kz && f.vc == 0 && !f.oc && f.aux == 0 && f.rm == 0
  | .knot h f => hdrOk h && kReg f.vd && kReg f.va && f.vb == 0 && f.ty == 0 && f.k == 0 && !f.kz && f.vc == 0 && !f.oc && f.aux == 0 && f.rm == 0
  | .kset h f => hdrOk h && tyM f.ty && kReg f.vd && f.va == 0 && f.vb == 0 && f.vc == 0 && f.k == 0 && !f.kz && !f.oc && f.aux == 0 && f.rm == 0
  | .vsel h f => hdrOk h && tyM f.ty && !f.kz && f.vc == 0 && !f.oc && f.aux == 0 && f.rm == 0
  | .vcvt h f => hdrOk h && cvtOk f
  | .vwadd h f => hdrOk h && widenOk f.ty f.aux f.vd && f.vc == 0 && !f.oc && rmFor f.ty f.rm
  | .vwmul h f => hdrOk h && widenOk f.ty f.aux f.vd && f.vc == 0 && !f.oc && rmFor f.ty f.rm
  | .vwfma h f => hdrOk h && widenOk f.ty f.aux f.vd && f.vc.toNat % widenWays f.aux == 0 && !f.oc && rmFor f.ty f.rm
  | .vdot4 h f => hdrOk h && (f.ty == 1#5 || f.ty == 5#5) && !f.oc && f.aux == 0 && f.rm == 0
  | .vnrw h f => hdrOk h && narrowOk f.ty f.aux f.va && f.vb == 0 && f.vc == 0 && !f.oc && rmFor f.ty f.rm
  | .vrcp h f => hdrOk h && f.ty == 8#5 && f.vb == 0 && f.vc == 0 && !f.oc && f.aux == 0 && f.rm == 0
  | .vrsq h f => hdrOk h && f.ty == 8#5 && f.vb == 0 && f.vc == 0 && !f.oc && f.aux == 0 && f.rm == 0
  | .vrcpf h f => hdrOk h && f.ty == 8#5 && f.vc == 0 && !f.oc && f.aux == 0 && f.rm == 0
  | .vrsqf h f => hdrOk h && f.ty == 8#5 && f.vc == 0 && !f.oc && f.aux == 0 && f.rm == 0
  | .vexp2 h f => hdrOk h && f.ty == 8#5 && f.vb == 0 && f.vc == 0 && !f.oc && f.aux == 0 && f.rm == 0
  | .vrsum h f => hdrOk h && (tyF f.ty || tyI f.ty) && !f.kz && f.vb == 0 && f.vc == 0 && !f.oc && f.aux == 0 && rmFor f.ty f.rm
  | .vrmax h f => hdrOk h && (tyF f.ty || tyI f.ty) && !f.kz && f.vb == 0 && f.vc == 0 && !f.oc && f.aux == 0 && f.rm == 0
  | .vrmin h f => hdrOk h && (tyF f.ty || tyI f.ty) && !f.kz && f.vb == 0 && f.vc == 0 && !f.oc && f.aux == 0 && f.rm == 0
  | .vramax h f => hdrOk h && tyF f.ty && !f.kz && f.vb == 0 && f.vc == 0 && !f.oc && f.aux == 0 && f.rm == 0
  | .vperm h f => hdrOk h && tyM f.ty && !tyQ f.ty && f.vc == 0 && !f.oc && f.aux == 0 && f.rm == 0
  | .vslideup h f => hdrOk h && tyM f.ty && !tyQ f.ty && f.vc == 0 && !f.oc && (f.aux.toNat < elemCount f.ty) && f.rm == 0
  | .vslidedn h f => hdrOk h && tyM f.ty && !tyQ f.ty && f.vc == 0 && !f.oc && (f.aux.toNat < elemCount f.ty) && f.rm == 0
  | .vsplat h f => hdrOk h && tyM f.ty && f.vb == 0 && f.vc == 0 && !f.oc && (f.aux.toNat < elemCount f.ty) && f.rm == 0
  | .vmov h f => hdrOk h && tyM f.ty && f.vb == 0 && f.vc == 0 && !f.oc && f.aux == 0 && f.rm == 0
  | .vmovi h f => hdrOk h && tyM f.ty && (f.imm.toNat < 2 ^ elemBits f.ty)
  | .vld h f => hdrOk h && f.sx == 0 && f.vx == 0 && f.srec == 0 && !f.rc
  | .vlds h f => hdrOk h && f.vx == 0 && f.srec == 0 && !f.rc
  | .vldx h f => hdrOk h && f.sx == 0 && f.srec == 0 && !f.rc
  | .vst h f => hdrOk h && f.sx == 0 && f.vx == 0 && (f.rc || f.srec == 0)
  | .vsts h f => hdrOk h && f.vx == 0 && (f.rc || f.srec == 0)
  | .vstx h f => hdrOk h && f.sx == 0 && (f.rc || f.srec == 0)
  | .vqbc h f => hdrOk h && tyM f.ty && f.va == 0 && f.vb == 0 && f.vc == 0 && !f.oc && f.aux == 0 && f.rm == 0
  | .mmaBf16 h f => hdrOk h && !f.rc && f.srec == 0
  | .mmaE4m3 h f => hdrOk h && !f.rc && f.srec == 0
  | .mmaE5m2 h f => hdrOk h && !f.rc && f.srec == 0
  | .mmaK4 h f => hdrOk h && !f.rc && f.srec == 0
  | .mmazBf16 h f => hdrOk h && !f.rc && f.srec == 0
  | .mmazE4m3 h f => hdrOk h && !f.rc && f.srec == 0
  | .mmazE5m2 h f => hdrOk h && !f.rc && f.srec == 0
  | .mmazK4 h f => hdrOk h && !f.rc && f.srec == 0
  | .mzero h f => hdrOk h && f.sa == 0 && f.sb == 0 && f.srec == 0 && !f.rc
  | .mldc h f => hdrOk h && f.sb == 0 && f.srec == 0 && !f.rc
  | .mstc h f => hdrOk h && f.sb == 0 && (f.rc || f.srec == 0)
  | .mstat h f => hdrOk h && f.c == 0 && f.sb == 0 && f.rc
  | .qcvtK4 h f => hdrOk h && (f.va.toNat < 4) && (f.rm.toNat ≤ 4) && (if f.dst then f.vd == 0 else f.vd.toNat % 4 == 0 && f.vd.toNat % 32 ≤ 24 && f.sd == 0)
  | .qcvtE4m3 h f => hdrOk h && (f.va.toNat < 4) && (f.rm.toNat ≤ 4) && (if f.dst then f.vd == 0 else f.vd.toNat % 4 == 0 && f.vd.toNat % 32 ≤ 24 && f.sd == 0)
  | .qcvtE5m2 h f => hdrOk h && (f.va.toNat < 4) && (f.rm.toNat ≤ 4) && (if f.dst then f.vd == 0 else f.vd.toNat % 4 == 0 && f.vd.toNat % 32 ≤ 24 && f.sd == 0)
  | .cadd h f => hdrOk h && f.t == 0 && f.d == 0 && f.imm.extractLsb' 0 21 == 0 && (f.scope.toNat ≤ 4)
  | .caddi h f => hdrOk h && f.v == 0 && f.t == 0 && f.d == 0 && (f.scope.toNat ≤ 4)
  | .cwait h f => hdrOk h && f.t == 0 && f.imm.extractLsb' 0 21 == 0 && (f.scope.toNat ≤ 4)
  | .cwaitT h f => hdrOk h && f.imm.extractLsb' 0 21 == 0 && (f.scope.toNat ≤ 4)
  | .cread h f => hdrOk h && f.v == 0 && f.t == 0 && f.scope == 0 && f.imm.extractLsb' 0 21 == 0
  | .barrive h f => hdrOk h && f.v == 0 && f.t == 0 && f.d == 0 && f.imm.extractLsb' 0 21 == 0 && (f.scope.toNat ≤ 4)
  | .bwait h f => hdrOk h && f.t == 0 && f.d == 0 && f.imm.extractLsb' 8 12 == 0 && (f.imm.getLsbD 20 || f.imm.extractLsb' 0 8 == 0) && (f.scope.toNat ≤ 4)
  | .bexp h f => hdrOk h && f.h == 0 && f.d == 0 && f.t == 0 && f.scope == 0
  | .fence h f => hdrOk h && f.h == 0 && f.v == 0 && f.t == 0 && f.d == 0 && f.scope == 0 && f.imm.extractLsb' 3 19 == 0 && f.imm != 0
  | .join h => hdrOk h
  | .phase h f => hdrOk h && f.h == 0 && f.v == 0 && f.t == 0 && f.d == 0 && f.imm == 0 && (f.scope.toNat ≤ 4)
  | .amoAdd h f => hdrOk h && f.sw == 0
  | .amoMax h f => hdrOk h && f.sw == 0
  | .amoMin h f => hdrOk h && f.sw == 0
  | .amoAnd h f => hdrOk h && f.sw == 0
  | .amoOr h f => hdrOk h && f.sw == 0
  | .amoXchg h f => hdrOk h && f.sw == 0
  | .amoCas h _ => hdrOk h
  | .srread h f => hdrOk h && f.b == 0 && f.c == 0 && f.csr == 0 && srDest f.d
  | .srreadPol h f => hdrOk h && f.c == 0 && f.csr == 0 && srDest f.d
  | .srreadClr h f => hdrOk h && f.c == 0 && f.csr == 0 && srDest f.d
  | .trap h f => hdrOk h && f.d == 0 && f.a == 0
  | .rett h f => hdrOk h && f.d == 0 && f.a == 0 && (f.imm.toNat ≤ 1)
  | .hbeat h => hdrOk h
  | .pld h _ => hdrOk h
  | .pst h f => hdrOk h && !f.sx
  | .evpop h f => hdrOk h && f.a == 0 && f.b == 0 && f.c == 0 && f.csr == 0 && f.d.extractLsb' 0 2 == 0
  | .evdone h f => hdrOk h && f.d == 0 && f.c == 0 && f.csr == 0
  | .mbxrd h f => hdrOk h && f.b == 0 && f.c == 0 && f.csr == 0
  | .mbxwr h f => hdrOk h && f.d == 0 && f.c == 0 && f.csr == 0
  | .fwcsr h f => hdrOk h && f.b == 0 && f.c == 0 && (f.csr.toNat ≤ 2)
  | .shoot h f => hdrOk h && f.c == 0 && f.csr == 0
  | .pairSaveDecisionReceived _ _ => true
  | .keyProvisioning _ _ _ _ => true

end Sys2Proof.Machine
end

