-- ==== Sys2Proof/WellFormed.lean ====
section
/-!
DEFINITION. What makes an instruction well formed: every field of a word holds a value that its description admits
(R336 items 2 to 4, `Machine.admits`). An event is no word and has no encoding; what the outside supplies with it may be
anything, so every event is well formed.
-/

namespace Sys2Proof

/-- Well-formedness of an instruction. -/
def wellFormed (i : Instr) : Bool := Machine.admits i

end Sys2Proof
end

