-- ==== Sys2Proof/Decode.lean ====
section
/-!
DEFINITION. Instruction words: the layouts of R323 and R331, the opcode map of R341, an encoder, a decoder total on
any 80 bits that refuses by name what R336 does not admit, and the code line with its trailer (R325-R328).
-/

namespace Sys2Proof

/-- Format BK of R331. -/
def FBK.pack (f : FBK) : BitVec 45 :=
  f.n ++ f.crc ++ 0#16

def FBK.unpack (o : BitVec 45) : FBK :=
  { n := o.extractLsb' 32 13, crc := o.extractLsb' 16 16 }

/-- Format LP of R331. -/
def FLP.pack (f : FLP) : BitVec 45 :=
  BitVec.ofBool f.rs ++ f.count ++ 0#3 ++ f.len

def FLP.unpack (o : BitVec 45) : FLP :=
  { rs := o.getLsbD 44, count := o.extractLsb' 12 32, len := o.extractLsb' 0 9 }

/-- Format PW of R331. -/
def FPW.pack (f : FPW) : BitVec 45 :=
  f.t0 ++ f.t1 ++ f.t2

def FPW.unpack (o : BitVec 45) : FPW :=
  { t0 := o.extractLsb' 30 15, t1 := o.extractLsb' 15 15, t2 := o.extractLsb' 0 15 }

/-- Format SR of R331. -/
def FSR.pack (f : FSR) : BitVec 45 :=
  f.d ++ f.a ++ f.b ++ f.c ++ 0#17 ++ f.csr

def FSR.unpack (o : BitVec 45) : FSR :=
  { d := o.extractLsb' 40 5, a := o.extractLsb' 35 5, b := o.extractLsb' 30 5, c := o.extractLsb' 25 5, csr := o.extractLsb' 0 8 }

/-- Format SI of R331. -/
def FSI.pack (f : FSI) : BitVec 45 :=
  f.d ++ f.a ++ 0#3 ++ f.imm

def FSI.unpack (o : BitVec 45) : FSI :=
  { d := o.extractLsb' 40 5, a := o.extractLsb' 35 5, imm := o.extractLsb' 0 32 }

/-- Format SL of R331. -/
def FSL.pack (f : FSL) : BitVec 45 :=
  f.d ++ f.imm

def FSL.unpack (o : BitVec 45) : FSL :=
  { d := o.extractLsb' 40 5, imm := o.extractLsb' 0 40 }

/-- Format SM of R331. -/
def FSM.pack (f : FSM) : BitVec 45 :=
  f.d ++ f.a ++ f.sz ++ BitVec.ofBool f.sx ++ 0#16 ++ f.off

def FSM.unpack (o : BitVec 45) : FSM :=
  { d := o.extractLsb' 40 5, a := o.extractLsb' 35 5, sz := o.extractLsb' 33 2, sx := o.getLsbD 32, off := o.extractLsb' 0 16 }

/-- Format B of R331. -/
def FB.pack (f : FB) : BitVec 45 :=
  f.a ++ f.b ++ 0#11 ++ f.off

def FB.unpack (o : BitVec 45) : FB :=
  { a := o.extractLsb' 40 5, b := o.extractLsb' 35 5, off := o.extractLsb' 0 24 }

/-- Format AR of R331. -/
def FAR.pack (f : FAR) : BitVec 45 :=
  f.x ++ f.y ++ f.z ++ 0#33

def FAR.unpack (o : BitVec 45) : FAR :=
  { x := o.extractLsb' 41 4, y := o.extractLsb' 37 4, z := o.extractLsb' 33 4 }

/-- Format AI of R331. -/
def FAI.pack (f : FAI) : BitVec 45 :=
  f.x ++ f.y ++ f.s ++ f.imm

def FAI.unpack (o : BitVec 45) : FAI :=
  { x := o.extractLsb' 41 4, y := o.extractLsb' 37 4, s := o.extractLsb' 32 5, imm := o.extractLsb' 0 32 }

/-- Format AM of R331. -/
def FAM.pack (f : FAM) : BitVec 45 :=
  f.ad ++ f.as ++ f.an ++ f.tok ++ f.mode ++ f.sc ++ f.imm

def FAM.unpack (o : BitVec 45) : FAM :=
  { ad := o.extractLsb' 41 4, as := o.extractLsb' 37 4, an := o.extractLsb' 33 4, tok := o.extractLsb' 28 5, mode := o.extractLsb' 20 8, sc := o.extractLsb' 15 5, imm := o.extractLsb' 0 15 }

/-- Format AO of R331. -/
def FAO.pack (f : FAO) : BitVec 45 :=
  f.ad ++ f.sv ++ f.sw ++ BitVec.ofBool f.sz ++ BitVec.ofBool f.ret ++ 0#29

def FAO.unpack (o : BitVec 45) : FAO :=
  { ad := o.extractLsb' 41 4, sv := o.extractLsb' 36 5, sw := o.extractLsb' 31 5, sz := o.getLsbD 30, ret := o.getLsbD 29 }

/-- Format XS of R331. -/
def FXS.pack (f : FXS) : BitVec 45 :=
  f.d ++ f.s ++ f.dir ++ f.edge ++ f.nl ++ 0#26

def FXS.unpack (o : BitVec 45) : FXS :=
  { d := o.extractLsb' 39 6, s := o.extractLsb' 33 6, dir := o.extractLsb' 31 2, edge := o.extractLsb' 29 2, nl := o.extractLsb' 26 3 }

/-- Format XC of R331. -/
def FXC.pack (f : FXC) : BitVec 45 :=
  f.dst ++ f.loc ++ f.len ++ f.ctr ++ f.tok ++ f.mode ++ 0#12

def FXC.unpack (o : BitVec 45) : FXC :=
  { dst := o.extractLsb' 40 5, loc := o.extractLsb' 35 5, len := o.extractLsb' 30 5, ctr := o.extractLsb' 25 5, tok := o.extractLsb' 20 5, mode := o.extractLsb' 12 8 }

/-- Format VR of R331. -/
def FVR.pack (f : FVR) : BitVec 45 :=
  f.vd ++ f.va ++ f.vb ++ f.vc ++ f.ty ++ f.k ++ BitVec.ofBool f.kz ++ f.rm ++ BitVec.ofBool f.oc ++ f.aux

def FVR.unpack (o : BitVec 45) : FVR :=
  { vd := o.extractLsb' 39 6, va := o.extractLsb' 33 6, vb := o.extractLsb' 27 6, vc := o.extractLsb' 21 6, ty := o.extractLsb' 16 5, k := o.extractLsb' 13 3, kz := o.getLsbD 12, rm := o.extractLsb' 9 3, oc := o.getLsbD 8, aux := o.extractLsb' 0 8 }

/-- Format VI of R331. -/
def FVI.pack (f : FVI) : BitVec 45 :=
  f.vd ++ 0#2 ++ f.ty ++ f.imm

def FVI.unpack (o : BitVec 45) : FVI :=
  { vd := o.extractLsb' 39 6, ty := o.extractLsb' 32 5, imm := o.extractLsb' 0 32 }

/-- Format VM of R331. -/
def FVM.pack (f : FVM) : BitVec 45 :=
  f.v ++ f.sb ++ f.sx ++ f.vx ++ f.k ++ BitVec.ofBool f.rc ++ f.srec ++ f.off

def FVM.unpack (o : BitVec 45) : FVM :=
  { v := o.extractLsb' 39 6, sb := o.extractLsb' 34 5, sx := o.extractLsb' 29 5, vx := o.extractLsb' 23 6, k := o.extractLsb' 20 3, rc := o.getLsbD 19, srec := o.extractLsb' 14 5, off := o.extractLsb' 0 14 }

/-- Format MA of R331. -/
def FMA.pack (f : FMA) : BitVec 45 :=
  f.c ++ f.sa ++ f.sb ++ BitVec.ofBool f.rc ++ f.srec ++ 0#27

def FMA.unpack (o : BitVec 45) : FMA :=
  { c := o.extractLsb' 43 2, sa := o.extractLsb' 38 5, sb := o.extractLsb' 33 5, rc := o.getLsbD 32, srec := o.extractLsb' 27 5 }

/-- Format MQ of R331. -/
def FMQ.pack (f : FMQ) : BitVec 45 :=
  f.vd ++ f.sd ++ f.va ++ BitVec.ofBool f.dst ++ f.rm ++ 0#24

def FMQ.unpack (o : BitVec 45) : FMQ :=
  { vd := o.extractLsb' 39 6, sd := o.extractLsb' 34 5, va := o.extractLsb' 28 6, dst := o.getLsbD 27, rm := o.extractLsb' 24 3 }

/-- Format CN of R331. -/
def FCN.pack (f : FCN) : BitVec 45 :=
  f.h ++ f.v ++ f.scope ++ f.t ++ f.d ++ f.imm

def FCN.unpack (o : BitVec 45) : FCN :=
  { h := o.extractLsb' 40 5, v := o.extractLsb' 35 5, scope := o.extractLsb' 32 3, t := o.extractLsb' 27 5, d := o.extractLsb' 22 5, imm := o.extractLsb' 0 22 }

/-- The operand fields of a word, by format. -/
inductive Body where
  | n
  | bk (f : FBK)
  | lp (f : FLP)
  | pw (f : FPW)
  | sr (f : FSR)
  | si (f : FSI)
  | sl (f : FSL)
  | sm (f : FSM)
  | b (f : FB)
  | ar (f : FAR)
  | ai (f : FAI)
  | am (f : FAM)
  | ao (f : FAO)
  | xs (f : FXS)
  | xc (f : FXC)
  | vr (f : FVR)
  | vi (f : FVI)
  | vm (f : FVM)
  | ma (f : FMA)
  | mq (f : FMQ)
  | cn (f : FCN)
  deriving DecidableEq, Repr, Inhabited

/-- Bits [44:0] of a word (R331); format N is all RZ. -/
def Body.pack : Body → BitVec 45
  | .n => 0#45
  | .bk f => f.pack
  | .lp f => f.pack
  | .pw f => f.pack
  | .sr f => f.pack
  | .si f => f.pack
  | .sl f => f.pack
  | .sm f => f.pack
  | .b f => f.pack
  | .ar f => f.pack
  | .ai f => f.pack
  | .am f => f.pack
  | .ao f => f.pack
  | .xs f => f.pack
  | .xc f => f.pack
  | .vr f => f.pack
  | .vi f => f.pack
  | .vm f => f.pack
  | .ma f => f.pack
  | .mq f => f.pack
  | .cn f => f.pack

/-- A word taken apart: opcode, tag fields, operand fields. -/
structure Parts where
  opc : BitVec 8
  hdr : Hdr
  body : Body
  deriving DecidableEq, Repr, Inhabited

/-- The opcode map (R341), read from an instruction; none for an event, which has no word. -/
def Instr.parts : Instr → Option Parts
  | .blk h f => some ⟨0x01#8, h, .bk f⟩
  | .loop h f => some ⟨0x02#8, h, .lp f⟩
  | .psw h f => some ⟨0x03#8, h, .pw f⟩
  | .nop h => some ⟨0x04#8, h, .n⟩
  | .add h f => some ⟨0x05#8, h, .sr f⟩
  | .sub h f => some ⟨0x06#8, h, .sr f⟩
  | .mul h f => some ⟨0x07#8, h, .sr f⟩
  | .mulh h f => some ⟨0x08#8, h, .sr f⟩
  | .mulhu h f => some ⟨0x09#8, h, .sr f⟩
  | .div h f => some ⟨0x0A#8, h, .sr f⟩
  | .divu h f => some ⟨0x0B#8, h, .sr f⟩
  | .rem h f => some ⟨0x0C#8, h, .sr f⟩
  | .remu h f => some ⟨0x0D#8, h, .sr f⟩
  | .and h f => some ⟨0x0E#8, h, .sr f⟩
  | .or h f => some ⟨0x0F#8, h, .sr f⟩
  | .xor h f => some ⟨0x10#8, h, .sr f⟩
  | .shl h f => some ⟨0x11#8, h, .sr f⟩
  | .shr h f => some ⟨0x12#8, h, .sr f⟩
  | .sra h f => some ⟨0x13#8, h, .sr f⟩
  | .min h f => some ⟨0x14#8, h, .sr f⟩
  | .max h f => some ⟨0x15#8, h, .sr f⟩
  | .minu h f => some ⟨0x16#8, h, .sr f⟩
  | .maxu h f => some ⟨0x17#8, h, .sr f⟩
  | .popc h f => some ⟨0x18#8, h, .sr f⟩
  | .clz h f => some ⟨0x19#8, h, .sr f⟩
  | .ctz h f => some ⟨0x1A#8, h, .sr f⟩
  | .addi h f => some ⟨0x1B#8, h, .si f⟩
  | .muli h f => some ⟨0x1C#8, h, .si f⟩
  | .andi h f => some ⟨0x1D#8, h, .si f⟩
  | .ori h f => some ⟨0x1E#8, h, .si f⟩
  | .xori h f => some ⟨0x1F#8, h, .si f⟩
  | .shli h f => some ⟨0x20#8, h, .si f⟩
  | .shri h f => some ⟨0x21#8, h, .si f⟩
  | .srai h f => some ⟨0x22#8, h, .si f⟩
  | .li h f => some ⟨0x23#8, h, .sl f⟩
  | .lih h f => some ⟨0x24#8, h, .sl f⟩
  | .cmpeq h f => some ⟨0x25#8, h, .sr f⟩
  | .cmpne h f => some ⟨0x26#8, h, .sr f⟩
  | .cmplt h f => some ⟨0x27#8, h, .sr f⟩
  | .cmpltu h f => some ⟨0x28#8, h, .sr f⟩
  | .cmple h f => some ⟨0x29#8, h, .sr f⟩
  | .cmpleu h f => some ⟨0x2A#8, h, .sr f⟩
  | .cmpeqi h f => some ⟨0x2B#8, h, .si f⟩
  | .cmplti h f => some ⟨0x2C#8, h, .si f⟩
  | .sel h f => some ⟨0x2D#8, h, .sr f⟩
  | .br h f => some ⟨0x2E#8, h, .b f⟩
  | .brr h f => some ⟨0x2F#8, h, .sr f⟩
  | .bz h f => some ⟨0x30#8, h, .b f⟩
  | .bnz h f => some ⟨0x31#8, h, .b f⟩
  | .beq h f => some ⟨0x32#8, h, .b f⟩
  | .bne h f => some ⟨0x33#8, h, .b f⟩
  | .blt h f => some ⟨0x34#8, h, .b f⟩
  | .bge h f => some ⟨0x35#8, h, .b f⟩
  | .bltu h f => some ⟨0x36#8, h, .b f⟩
  | .bgeu h f => some ⟨0x37#8, h, .b f⟩
  | .bq h f => some ⟨0x38#8, h, .b f⟩
  | .bqn h f => some ⟨0x39#8, h, .b f⟩
  | .call h f => some ⟨0x3A#8, h, .b f⟩
  | .callr h f => some ⟨0x3B#8, h, .sr f⟩
  | .ret h => some ⟨0x3C#8, h, .n⟩
  | .qpop h f => some ⟨0x3D#8, h, .sr f⟩
  | .fqpush h f => some ⟨0x3E#8, h, .sr f⟩
  | .prio h f => some ⟨0x3F#8, h, .si f⟩
  | .sleepns h f => some ⟨0x40#8, h, .sr f⟩
  | .rdlnc h f => some ⟨0x41#8, h, .sr f⟩
  | .rdcsr h f => some ⟨0x42#8, h, .sr f⟩
  | .wrcsr h f => some ⟨0x43#8, h, .sr f⟩
  | .lds h f => some ⟨0x44#8, h, .sm f⟩
  | .sts h f => some ⟨0x45#8, h, .sm f⟩
  | .exit h => some ⟨0x46#8, h, .n⟩
  | .aadd h f => some ⟨0x50#8, h, .ar f⟩
  | .asub h f => some ⟨0x51#8, h, .ar f⟩
  | .aaddi h f => some ⟨0x52#8, h, .ai f⟩
  | .amuli h f => some ⟨0x53#8, h, .ai f⟩
  | .ashli h f => some ⟨0x54#8, h, .ai f⟩
  | .amov h f => some ⟨0x55#8, h, .ai f⟩
  | .amovi h f => some ⟨0x56#8, h, .ai f⟩
  | .copy h f => some ⟨0x57#8, h, .am f⟩
  | .copy2d h f => some ⟨0x58#8, h, .am f⟩
  | .gather h f => some ⟨0x59#8, h, .am f⟩
  | .scatter h f => some ⟨0x5A#8, h, .am f⟩
  | .ldq h f => some ⟨0x5B#8, h, .am f⟩
  | .aqeq h f => some ⟨0x5C#8, h, .ar f⟩
  | .aqne h f => some ⟨0x5D#8, h, .ar f⟩
  | .aqlt h f => some ⟨0x5E#8, h, .ar f⟩
  | .aqltu h f => some ⟨0x5F#8, h, .ar f⟩
  | .aqeqi h f => some ⟨0x60#8, h, .ai f⟩
  | .aqlti h f => some ⟨0x61#8, h, .ai f⟩
  | .kvmap h f => some ⟨0x62#8, h, .am f⟩
  | .kvshare h f => some ⟨0x63#8, h, .am f⟩
  | .kvfree h f => some ⟨0x64#8, h, .am f⟩
  | .viewDef h f => some ⟨0x65#8, h, .am f⟩
  | .brefill h f => some ⟨0x66#8, h, .am f⟩
  | .rfdefer h f => some ⟨0x67#8, h, .ai f⟩
  | .rfnow h => some ⟨0x68#8, h, .n⟩
  | .rdretb h => some ⟨0x69#8, h, .n⟩
  | .xsh h f => some ⟨0x70#8, h, .xs f⟩
  | .xsht h f => some ⟨0x71#8, h, .xs f⟩
  | .xsend h f => some ⟨0x72#8, h, .xc f⟩
  | .xrecv h f => some ⟨0x73#8, h, .xc f⟩
  | .xbcast h f => some ⟨0x74#8, h, .xc f⟩
  | .vadd h f => some ⟨0x78#8, h, .vr f⟩
  | .vsub h f => some ⟨0x79#8, h, .vr f⟩
  | .vmul h f => some ⟨0x7A#8, h, .vr f⟩
  | .vfma h f => some ⟨0x7B#8, h, .vr f⟩
  | .vfnma h f => some ⟨0x7C#8, h, .vr f⟩
  | .vmin h f => some ⟨0x7D#8, h, .vr f⟩
  | .vmax h f => some ⟨0x7E#8, h, .vr f⟩
  | .vabs h f => some ⟨0x7F#8, h, .vr f⟩
  | .vneg h f => some ⟨0x80#8, h, .vr f⟩
  | .vaddsat h f => some ⟨0x81#8, h, .vr f⟩
  | .vsubsat h f => some ⟨0x82#8, h, .vr f⟩
  | .vmulh h f => some ⟨0x83#8, h, .vr f⟩
  | .vaddQ h f => some ⟨0x84#8, h, .vr f⟩
  | .vsubQ h f => some ⟨0x85#8, h, .vr f⟩
  | .vmulQ h f => some ⟨0x86#8, h, .vr f⟩
  | .vfmaQ h f => some ⟨0x87#8, h, .vr f⟩
  | .vminQ h f => some ⟨0x88#8, h, .vr f⟩
  | .vmaxQ h f => some ⟨0x89#8, h, .vr f⟩
  | .vandQ h f => some ⟨0x8A#8, h, .vr f⟩
  | .vorQ h f => some ⟨0x8B#8, h, .vr f⟩
  | .vxorQ h f => some ⟨0x8C#8, h, .vr f⟩
  | .vcmpeqQ h f => some ⟨0x8D#8, h, .vr f⟩
  | .vcmpltQ h f => some ⟨0x8E#8, h, .vr f⟩
  | .vcmpleQ h f => some ⟨0x8F#8, h, .vr f⟩
  | .vand h f => some ⟨0x90#8, h, .vr f⟩
  | .vor h f => some ⟨0x91#8, h, .vr f⟩
  | .vxor h f => some ⟨0x92#8, h, .vr f⟩
  | .vnot h f => some ⟨0x93#8, h, .vr f⟩
  | .vpopc h f => some ⟨0x94#8, h, .vr f⟩
  | .vclz h f => some ⟨0x95#8, h, .vr f⟩
  | .vshl h f => some ⟨0x96#8, h, .vr f⟩
  | .vshr h f => some ⟨0x97#8, h, .vr f⟩
  | .vsra h f => some ⟨0x98#8, h, .vr f⟩
  | .vshli h f => some ⟨0x99#8, h, .vr f⟩
  | .vshri h f => some ⟨0x9A#8, h, .vr f⟩
  | .vsrai h f => some ⟨0x9B#8, h, .vr f⟩
  | .vcmpeq h f => some ⟨0x9C#8, h, .vr f⟩
  | .vcmpne h f => some ⟨0x9D#8, h, .vr f⟩
  | .vcmplt h f => some ⟨0x9E#8, h, .vr f⟩
  | .vcmple h f => some ⟨0x9F#8, h, .vr f⟩
  | .vcmpun h f => some ⟨0xA0#8, h, .vr f⟩
  | .kand h f => some ⟨0xA1#8, h, .vr f⟩
  | .kor h f => some ⟨0xA2#8, h, .vr f⟩
  | .kxor h f => some ⟨0xA3#8, h, .vr f⟩
  | .kandn h f => some ⟨0xA4#8, h, .vr f⟩
  | .knot h f => some ⟨0xA5#8, h, .vr f⟩
  | .kset h f => some ⟨0xA6#8, h, .vr f⟩
  | .vsel h f => some ⟨0xA7#8, h, .vr f⟩
  | .vcvt h f => some ⟨0xA8#8, h, .vr f⟩
  | .vwadd h f => some ⟨0xA9#8, h, .vr f⟩
  | .vwmul h f => some ⟨0xAA#8, h, .vr f⟩
  | .vwfma h f => some ⟨0xAB#8, h, .vr f⟩
  | .vdot4 h f => some ⟨0xAC#8, h, .vr f⟩
  | .vnrw h f => some ⟨0xAD#8, h, .vr f⟩
  | .vrcp h f => some ⟨0xAE#8, h, .vr f⟩
  | .vrsq h f => some ⟨0xAF#8, h, .vr f⟩
  | .vrcpf h f => some ⟨0xB0#8, h, .vr f⟩
  | .vrsqf h f => some ⟨0xB1#8, h, .vr f⟩
  | .vexp2 h f => some ⟨0xB2#8, h, .vr f⟩
  | .vrsum h f => some ⟨0xB3#8, h, .vr f⟩
  | .vrmax h f => some ⟨0xB4#8, h, .vr f⟩
  | .vrmin h f => some ⟨0xB5#8, h, .vr f⟩
  | .vramax h f => some ⟨0xB6#8, h, .vr f⟩
  | .vperm h f => some ⟨0xB7#8, h, .vr f⟩
  | .vslideup h f => some ⟨0xB8#8, h, .vr f⟩
  | .vslidedn h f => some ⟨0xB9#8, h, .vr f⟩
  | .vsplat h f => some ⟨0xBA#8, h, .vr f⟩
  | .vmov h f => some ⟨0xBB#8, h, .vr f⟩
  | .vmovi h f => some ⟨0xBC#8, h, .vi f⟩
  | .vld h f => some ⟨0xBD#8, h, .vm f⟩
  | .vlds h f => some ⟨0xBE#8, h, .vm f⟩
  | .vldx h f => some ⟨0xBF#8, h, .vm f⟩
  | .vst h f => some ⟨0xC0#8, h, .vm f⟩
  | .vsts h f => some ⟨0xC1#8, h, .vm f⟩
  | .vstx h f => some ⟨0xC2#8, h, .vm f⟩
  | .vqbc h f => some ⟨0xC3#8, h, .vr f⟩
  | .mmaBf16 h f => some ⟨0xC8#8, h, .ma f⟩
  | .mmaE4m3 h f => some ⟨0xC9#8, h, .ma f⟩
  | .mmaE5m2 h f => some ⟨0xCA#8, h, .ma f⟩
  | .mmaK4 h f => some ⟨0xCB#8, h, .ma f⟩
  | .mmazBf16 h f => some ⟨0xCC#8, h, .ma f⟩
  | .mmazE4m3 h f => some ⟨0xCD#8, h, .ma f⟩
  | .mmazE5m2 h f => some ⟨0xCE#8, h, .ma f⟩
  | .mmazK4 h f => some ⟨0xCF#8, h, .ma f⟩
  | .mzero h f => some ⟨0xD0#8, h, .ma f⟩
  | .mldc h f => some ⟨0xD1#8, h, .ma f⟩
  | .mstc h f => some ⟨0xD2#8, h, .ma f⟩
  | .mstat h f => some ⟨0xD3#8, h, .ma f⟩
  | .qcvtK4 h f => some ⟨0xD4#8, h, .mq f⟩
  | .qcvtE4m3 h f => some ⟨0xD5#8, h, .mq f⟩
  | .qcvtE5m2 h f => some ⟨0xD6#8, h, .mq f⟩
  | .cadd h f => some ⟨0xD8#8, h, .cn f⟩
  | .caddi h f => some ⟨0xD9#8, h, .cn f⟩
  | .cwait h f => some ⟨0xDA#8, h, .cn f⟩
  | .cwaitT h f => some ⟨0xDB#8, h, .cn f⟩
  | .cread h f => some ⟨0xDC#8, h, .cn f⟩
  | .barrive h f => some ⟨0xDD#8, h, .cn f⟩
  | .bwait h f => some ⟨0xDE#8, h, .cn f⟩
  | .bexp h f => some ⟨0xDF#8, h, .cn f⟩
  | .fence h f => some ⟨0xE0#8, h, .cn f⟩
  | .join h => some ⟨0xE1#8, h, .n⟩
  | .phase h f => some ⟨0xE2#8, h, .cn f⟩
  | .amoAdd h f => some ⟨0xE3#8, h, .ao f⟩
  | .amoMax h f => some ⟨0xE4#8, h, .ao f⟩
  | .amoMin h f => some ⟨0xE5#8, h, .ao f⟩
  | .amoAnd h f => some ⟨0xE6#8, h, .ao f⟩
  | .amoOr h f => some ⟨0xE7#8, h, .ao f⟩
  | .amoXchg h f => some ⟨0xE8#8, h, .ao f⟩
  | .amoCas h f => some ⟨0xE9#8, h, .ao f⟩
  | .srread h f => some ⟨0xEA#8, h, .sr f⟩
  | .srreadPol h f => some ⟨0xEB#8, h, .sr f⟩
  | .srreadClr h f => some ⟨0xEC#8, h, .sr f⟩
  | .trap h f => some ⟨0xF0#8, h, .si f⟩
  | .rett h f => some ⟨0xF1#8, h, .si f⟩
  | .hbeat h => some ⟨0xF2#8, h, .n⟩
  | .pld h f => some ⟨0xF3#8, h, .sm f⟩
  | .pst h f => some ⟨0xF4#8, h, .sm f⟩
  | .evpop h f => some ⟨0xF5#8, h, .sr f⟩
  | .evdone h f => some ⟨0xF6#8, h, .sr f⟩
  | .mbxrd h f => some ⟨0xF7#8, h, .sr f⟩
  | .mbxwr h f => some ⟨0xF8#8, h, .sr f⟩
  | .fwcsr h f => some ⟨0xF9#8, h, .sr f⟩
  | .shoot h f => some ⟨0xFA#8, h, .sr f⟩
  | .coldStart _ => none
  | .warmReset => none
  | .registerWrite _ _ _ => none
  | .qwidxWrite _ _ _ => none
  | .queueEnable _ _ _ => none
  | .queueDisable _ _ _ => none
  | .entryNop _ _ => none
  | .entryLaunch _ _ => none
  | .launchAcceptance _ _ => none
  | .entryCadd _ _ => none
  | .entryCwait _ _ => none
  | .entryCwaitSatisfied _ _ => none
  | .entryReadError _ _ => none
  | .instanceStart _ => none
  | .instanceEnd _ => none
  | .hallMonitorExpiry _ _ => none
  | .partCreate => none
  | .partDestroy => none
  | .partReset => none
  | .partRearm => none
  | .fwLoad => none
  | .fwActivate => none
  | .fwReversion => none
  | .pairConfig => none
  | .pcapWrite _ => none
  | .bbctlWrite _ _ => none
  | .readbackRead _ => none
  | .readbackWrite _ _ => none
  | .hostBarRead _ _ _ _ => none
  | .hostBarWrite _ _ _ => none
  | .hostAtomicop _ _ _ _ _ _ => none
  | .getVersion => none
  | .getCapabilities => none
  | .negotiateAlgorithms _ _ _ _ => none
  | .getDigests => none
  | .getCertificate _ _ _ => none
  | .challenge _ _ => none
  | .getMeasurements _ _ _ => none
  | .keyExchange _ _ => none
  | .finish _ _ => none
  | .heartbeat _ => none
  | .endSession _ => none
  | .powerEvaluation _ => none
  | .frequencyTransition _ => none
  | .sensorSample _ _ _ _ _ => none
  | .rampPermitStep _ => none
  | .windowArbitration _ _ _ _ => none
  | .lncTick => none
  | .nanosecondWaitExpiry _ => none
  | .shadowLatchReplay _ => none
  | .replayHoldEnd _ => none
  | .replayGovernorWindow _ => none
  | .correctableError _ _ _ => none
  | .freezeEnd _ => none
  | .freezeGuardEnd _ => none
  | .uncorrectableError _ => none
  | .nodeKill _ _ _ => none
  | .refreshTick => none
  | .backgroundPassStart _ _ => none
  | .refreshPassComplete _ _ => none
  | .forcing _ => none
  | .refillReinject _ _ => none
  | .nodeReady _ _ => none
  | .dispenseScan => none
  | .victimDecision _ => none
  | .drainBoundExpiry _ => none
  | .saveComplete _ => none
  | .resumeComplete _ => none
  | .nodeRetirement _ _ => none
  | .anchorSwapComplete _ _ => none
  | .pairDigestReceived _ _ _ _ => none
  | .pairDigestTimeout _ _ => none
  | .pairDecisionReceived _ _ _ => none
  | .pairDecisionTimeout _ _ => none
  | .killNoticeReceived _ _ => none
  | .fenceNoticeReceived _ => none
  | .pairSelectionReceived _ _ _ => none
  | .pairSelectionTimeout _ => none
  | .pairSaveDecisionTimeout _ => none
  | .corridorRequestArrival _ _ => none
  | .corridorAckTimeout _ _ => none
  | .stairwellDrain _ _ => none
  | .stairwellRetire _ _ => none
  | .stairwellFailure _ _ => none
  | .kLinkFlitRetry _ => none
  | .linkTraining _ _ => none
  | .bridgeLaneFailure _ _ => none
  | .pageWalkComplete _ => none
  | .shootdownReceipt _ _ => none
  | .shootdownAck _ _ => none
  | .migration _ _ _ _ _ => none
  | .codePageScan _ _ => none
  | .fetchLineMiss _ _ => none
  | .counterRequestArrival _ _ => none
  | .waitCancelArrival _ _ => none
  | .epochRequest _ _ => none
  | .recordMerge _ _ _ => none
  | .trapMerge _ => none
  | .mapOpArrival _ _ => none
  | .wordCompletion _ _ => none
  | .remapTableWrite _ _ _ => none
  | .rtblWrite _ _ _ => none
  | .pairSaveDecisionReceived _ _ => none
  | .keyProvisioning _ _ _ _ => none

/-- The engine class of an opcode (R341): 0 S, 1 A, 2 V, 3 M, 4 X, 5 sync, 6 system, 7 common; none where the map
leaves the code unassigned (R342). -/
def engClass (opc : BitVec 8) : Option (BitVec 3) :=
  let n := opc.toNat
  if 0x01 ≤ n ∧ n ≤ 0x03 then some 7 else if 0x04 ≤ n ∧ n ≤ 0x46 then some 0
  else if 0x50 ≤ n ∧ n ≤ 0x69 then some 1 else if 0x70 ≤ n ∧ n ≤ 0x74 then some 4
  else if 0x78 ≤ n ∧ n ≤ 0xC3 then some 2 else if 0xC8 ≤ n ∧ n ≤ 0xD6 then some 3
  else if 0xD8 ≤ n ∧ n ≤ 0xEC then some 5 else if 0xF0 ≤ n ∧ n ≤ 0xFA then some 6
  else none

/-- The fields of R323 put together: ENG, OPC, PD, AV, ATAG, CMASK, operands. -/
def word (eng : BitVec 3) (opc : BitVec 8) (h : Hdr) (o : BitVec 45) : W80 :=
  eng ++ opc ++ h.pd ++ BitVec.ofBool h.av ++ h.atag ++ h.cmask ++ o

def hdrOf (w : W80) : Hdr :=
  { pd := w.extractLsb' 66 3, av := w.getLsbD 65, atag := w.extractLsb' 61 4, cmask := w.extractLsb' 45 16 }

/-- The word of an instruction; none for an event. -/
def encode (i : Instr) : Option W80 :=
  match i.parts with
  | some p => (engClass p.opc).map fun e => word e p.opc p.hdr p.body.pack
  | none => none

/-- Why 80 bits are not an instruction (R336). -/
inductive DecodeError where
  /-- item 1: OPC unassigned (R342) -/
  | unassignedOpcode
  /-- item 1: ENG is not the class of OPC -/
  | wrongEngine
  /-- item 2: an RZ bit of the format is set -/
  | reservedBits
  /-- items 2 to 4: a field holds a value the description does not admit -/
  | badField
  deriving DecidableEq, Repr

/-- Row 0x0_ of the opcode map (R341). -/
def row0 (lo : Nat) (h : Hdr) (o : BitVec 45) : Option Instr :=
  match lo with
  | 1 => some (.blk h (.unpack o))
  | 2 => some (.loop h (.unpack o))
  | 3 => some (.psw h (.unpack o))
  | 4 => some (.nop h)
  | 5 => some (.add h (.unpack o))
  | 6 => some (.sub h (.unpack o))
  | 7 => some (.mul h (.unpack o))
  | 8 => some (.mulh h (.unpack o))
  | 9 => some (.mulhu h (.unpack o))
  | 10 => some (.div h (.unpack o))
  | 11 => some (.divu h (.unpack o))
  | 12 => some (.rem h (.unpack o))
  | 13 => some (.remu h (.unpack o))
  | 14 => some (.and h (.unpack o))
  | 15 => some (.or h (.unpack o))
  | _ => none

/-- Row 0x1_ of the opcode map (R341). -/
def row1 (lo : Nat) (h : Hdr) (o : BitVec 45) : Option Instr :=
  match lo with
  | 0 => some (.xor h (.unpack o))
  | 1 => some (.shl h (.unpack o))
  | 2 => some (.shr h (.unpack o))
  | 3 => some (.sra h (.unpack o))
  | 4 => some (.min h (.unpack o))
  | 5 => some (.max h (.unpack o))
  | 6 => some (.minu h (.unpack o))
  | 7 => some (.maxu h (.unpack o))
  | 8 => some (.popc h (.unpack o))
  | 9 => some (.clz h (.unpack o))
  | 10 => some (.ctz h (.unpack o))
  | 11 => some (.addi h (.unpack o))
  | 12 => some (.muli h (.unpack o))
  | 13 => some (.andi h (.unpack o))
  | 14 => some (.ori h (.unpack o))
  | 15 => some (.xori h (.unpack o))
  | _ => none

/-- Row 0x2_ of the opcode map (R341). -/
def row2 (lo : Nat) (h : Hdr) (o : BitVec 45) : Option Instr :=
  match lo with
  | 0 => some (.shli h (.unpack o))
  | 1 => some (.shri h (.unpack o))
  | 2 => some (.srai h (.unpack o))
  | 3 => some (.li h (.unpack o))
  | 4 => some (.lih h (.unpack o))
  | 5 => some (.cmpeq h (.unpack o))
  | 6 => some (.cmpne h (.unpack o))
  | 7 => some (.cmplt h (.unpack o))
  | 8 => some (.cmpltu h (.unpack o))
  | 9 => some (.cmple h (.unpack o))
  | 10 => some (.cmpleu h (.unpack o))
  | 11 => some (.cmpeqi h (.unpack o))
  | 12 => some (.cmplti h (.unpack o))
  | 13 => some (.sel h (.unpack o))
  | 14 => some (.br h (.unpack o))
  | 15 => some (.brr h (.unpack o))
  | _ => none

/-- Row 0x3_ of the opcode map (R341). -/
def row3 (lo : Nat) (h : Hdr) (o : BitVec 45) : Option Instr :=
  match lo with
  | 0 => some (.bz h (.unpack o))
  | 1 => some (.bnz h (.unpack o))
  | 2 => some (.beq h (.unpack o))
  | 3 => some (.bne h (.unpack o))
  | 4 => some (.blt h (.unpack o))
  | 5 => some (.bge h (.unpack o))
  | 6 => some (.bltu h (.unpack o))
  | 7 => some (.bgeu h (.unpack o))
  | 8 => some (.bq h (.unpack o))
  | 9 => some (.bqn h (.unpack o))
  | 10 => some (.call h (.unpack o))
  | 11 => some (.callr h (.unpack o))
  | 12 => some (.ret h)
  | 13 => some (.qpop h (.unpack o))
  | 14 => some (.fqpush h (.unpack o))
  | 15 => some (.prio h (.unpack o))
  | _ => none

/-- Row 0x4_ of the opcode map (R341). -/
def row4 (lo : Nat) (h : Hdr) (o : BitVec 45) : Option Instr :=
  match lo with
  | 0 => some (.sleepns h (.unpack o))
  | 1 => some (.rdlnc h (.unpack o))
  | 2 => some (.rdcsr h (.unpack o))
  | 3 => some (.wrcsr h (.unpack o))
  | 4 => some (.lds h (.unpack o))
  | 5 => some (.sts h (.unpack o))
  | 6 => some (.exit h)
  | _ => none

/-- Row 0x5_ of the opcode map (R341). -/
def row5 (lo : Nat) (h : Hdr) (o : BitVec 45) : Option Instr :=
  match lo with
  | 0 => some (.aadd h (.unpack o))
  | 1 => some (.asub h (.unpack o))
  | 2 => some (.aaddi h (.unpack o))
  | 3 => some (.amuli h (.unpack o))
  | 4 => some (.ashli h (.unpack o))
  | 5 => some (.amov h (.unpack o))
  | 6 => some (.amovi h (.unpack o))
  | 7 => some (.copy h (.unpack o))
  | 8 => some (.copy2d h (.unpack o))
  | 9 => some (.gather h (.unpack o))
  | 10 => some (.scatter h (.unpack o))
  | 11 => some (.ldq h (.unpack o))
  | 12 => some (.aqeq h (.unpack o))
  | 13 => some (.aqne h (.unpack o))
  | 14 => some (.aqlt h (.unpack o))
  | 15 => some (.aqltu h (.unpack o))
  | _ => none

/-- Row 0x6_ of the opcode map (R341). -/
def row6 (lo : Nat) (h : Hdr) (o : BitVec 45) : Option Instr :=
  match lo with
  | 0 => some (.aqeqi h (.unpack o))
  | 1 => some (.aqlti h (.unpack o))
  | 2 => some (.kvmap h (.unpack o))
  | 3 => some (.kvshare h (.unpack o))
  | 4 => some (.kvfree h (.unpack o))
  | 5 => some (.viewDef h (.unpack o))
  | 6 => some (.brefill h (.unpack o))
  | 7 => some (.rfdefer h (.unpack o))
  | 8 => some (.rfnow h)
  | 9 => some (.rdretb h)
  | _ => none

/-- Row 0x7_ of the opcode map (R341). -/
def row7 (lo : Nat) (h : Hdr) (o : BitVec 45) : Option Instr :=
  match lo with
  | 0 => some (.xsh h (.unpack o))
  | 1 => some (.xsht h (.unpack o))
  | 2 => some (.xsend h (.unpack o))
  | 3 => some (.xrecv h (.unpack o))
  | 4 => some (.xbcast h (.unpack o))
  | 8 => some (.vadd h (.unpack o))
  | 9 => some (.vsub h (.unpack o))
  | 10 => some (.vmul h (.unpack o))
  | 11 => some (.vfma h (.unpack o))
  | 12 => some (.vfnma h (.unpack o))
  | 13 => some (.vmin h (.unpack o))
  | 14 => some (.vmax h (.unpack o))
  | 15 => some (.vabs h (.unpack o))
  | _ => none

/-- Row 0x8_ of the opcode map (R341). -/
def row8 (lo : Nat) (h : Hdr) (o : BitVec 45) : Option Instr :=
  match lo with
  | 0 => some (.vneg h (.unpack o))
  | 1 => some (.vaddsat h (.unpack o))
  | 2 => some (.vsubsat h (.unpack o))
  | 3 => some (.vmulh h (.unpack o))
  | 4 => some (.vaddQ h (.unpack o))
  | 5 => some (.vsubQ h (.unpack o))
  | 6 => some (.vmulQ h (.unpack o))
  | 7 => some (.vfmaQ h (.unpack o))
  | 8 => some (.vminQ h (.unpack o))
  | 9 => some (.vmaxQ h (.unpack o))
  | 10 => some (.vandQ h (.unpack o))
  | 11 => some (.vorQ h (.unpack o))
  | 12 => some (.vxorQ h (.unpack o))
  | 13 => some (.vcmpeqQ h (.unpack o))
  | 14 => some (.vcmpltQ h (.unpack o))
  | 15 => some (.vcmpleQ h (.unpack o))
  | _ => none

/-- Row 0x9_ of the opcode map (R341). -/
def row9 (lo : Nat) (h : Hdr) (o : BitVec 45) : Option Instr :=
  match lo with
  | 0 => some (.vand h (.unpack o))
  | 1 => some (.vor h (.unpack o))
  | 2 => some (.vxor h (.unpack o))
  | 3 => some (.vnot h (.unpack o))
  | 4 => some (.vpopc h (.unpack o))
  | 5 => some (.vclz h (.unpack o))
  | 6 => some (.vshl h (.unpack o))
  | 7 => some (.vshr h (.unpack o))
  | 8 => some (.vsra h (.unpack o))
  | 9 => some (.vshli h (.unpack o))
  | 10 => some (.vshri h (.unpack o))
  | 11 => some (.vsrai h (.unpack o))
  | 12 => some (.vcmpeq h (.unpack o))
  | 13 => some (.vcmpne h (.unpack o))
  | 14 => some (.vcmplt h (.unpack o))
  | 15 => some (.vcmple h (.unpack o))
  | _ => none

/-- Row 0xA_ of the opcode map (R341). -/
def rowA (lo : Nat) (h : Hdr) (o : BitVec 45) : Option Instr :=
  match lo with
  | 0 => some (.vcmpun h (.unpack o))
  | 1 => some (.kand h (.unpack o))
  | 2 => some (.kor h (.unpack o))
  | 3 => some (.kxor h (.unpack o))
  | 4 => some (.kandn h (.unpack o))
  | 5 => some (.knot h (.unpack o))
  | 6 => some (.kset h (.unpack o))
  | 7 => some (.vsel h (.unpack o))
  | 8 => some (.vcvt h (.unpack o))
  | 9 => some (.vwadd h (.unpack o))
  | 10 => some (.vwmul h (.unpack o))
  | 11 => some (.vwfma h (.unpack o))
  | 12 => some (.vdot4 h (.unpack o))
  | 13 => some (.vnrw h (.unpack o))
  | 14 => some (.vrcp h (.unpack o))
  | 15 => some (.vrsq h (.unpack o))
  | _ => none

/-- Row 0xB_ of the opcode map (R341). -/
def rowB (lo : Nat) (h : Hdr) (o : BitVec 45) : Option Instr :=
  match lo with
  | 0 => some (.vrcpf h (.unpack o))
  | 1 => some (.vrsqf h (.unpack o))
  | 2 => some (.vexp2 h (.unpack o))
  | 3 => some (.vrsum h (.unpack o))
  | 4 => some (.vrmax h (.unpack o))
  | 5 => some (.vrmin h (.unpack o))
  | 6 => some (.vramax h (.unpack o))
  | 7 => some (.vperm h (.unpack o))
  | 8 => some (.vslideup h (.unpack o))
  | 9 => some (.vslidedn h (.unpack o))
  | 10 => some (.vsplat h (.unpack o))
  | 11 => some (.vmov h (.unpack o))
  | 12 => some (.vmovi h (.unpack o))
  | 13 => some (.vld h (.unpack o))
  | 14 => some (.vlds h (.unpack o))
  | 15 => some (.vldx h (.unpack o))
  | _ => none

/-- Row 0xC_ of the opcode map (R341). -/
def rowC (lo : Nat) (h : Hdr) (o : BitVec 45) : Option Instr :=
  match lo with
  | 0 => some (.vst h (.unpack o))
  | 1 => some (.vsts h (.unpack o))
  | 2 => some (.vstx h (.unpack o))
  | 3 => some (.vqbc h (.unpack o))
  | 8 => some (.mmaBf16 h (.unpack o))
  | 9 => some (.mmaE4m3 h (.unpack o))
  | 10 => some (.mmaE5m2 h (.unpack o))
  | 11 => some (.mmaK4 h (.unpack o))
  | 12 => some (.mmazBf16 h (.unpack o))
  | 13 => some (.mmazE4m3 h (.unpack o))
  | 14 => some (.mmazE5m2 h (.unpack o))
  | 15 => some (.mmazK4 h (.unpack o))
  | _ => none

/-- Row 0xD_ of the opcode map (R341). -/
def rowD (lo : Nat) (h : Hdr) (o : BitVec 45) : Option Instr :=
  match lo with
  | 0 => some (.mzero h (.unpack o))
  | 1 => some (.mldc h (.unpack o))
  | 2 => some (.mstc h (.unpack o))
  | 3 => some (.mstat h (.unpack o))
  | 4 => some (.qcvtK4 h (.unpack o))
  | 5 => some (.qcvtE4m3 h (.unpack o))
  | 6 => some (.qcvtE5m2 h (.unpack o))
  | 8 => some (.cadd h (.unpack o))
  | 9 => some (.caddi h (.unpack o))
  | 10 => some (.cwait h (.unpack o))
  | 11 => some (.cwaitT h (.unpack o))
  | 12 => some (.cread h (.unpack o))
  | 13 => some (.barrive h (.unpack o))
  | 14 => some (.bwait h (.unpack o))
  | 15 => some (.bexp h (.unpack o))
  | _ => none

/-- Row 0xE_ of the opcode map (R341). -/
def rowE (lo : Nat) (h : Hdr) (o : BitVec 45) : Option Instr :=
  match lo with
  | 0 => some (.fence h (.unpack o))
  | 1 => some (.join h)
  | 2 => some (.phase h (.unpack o))
  | 3 => some (.amoAdd h (.unpack o))
  | 4 => some (.amoMax h (.unpack o))
  | 5 => some (.amoMin h (.unpack o))
  | 6 => some (.amoAnd h (.unpack o))
  | 7 => some (.amoOr h (.unpack o))
  | 8 => some (.amoXchg h (.unpack o))
  | 9 => some (.amoCas h (.unpack o))
  | 10 => some (.srread h (.unpack o))
  | 11 => some (.srreadPol h (.unpack o))
  | 12 => some (.srreadClr h (.unpack o))
  | _ => none

/-- Row 0xF_ of the opcode map (R341). -/
def rowF (lo : Nat) (h : Hdr) (o : BitVec 45) : Option Instr :=
  match lo with
  | 0 => some (.trap h (.unpack o))
  | 1 => some (.rett h (.unpack o))
  | 2 => some (.hbeat h)
  | 3 => some (.pld h (.unpack o))
  | 4 => some (.pst h (.unpack o))
  | 5 => some (.evpop h (.unpack o))
  | 6 => some (.evdone h (.unpack o))
  | 7 => some (.mbxrd h (.unpack o))
  | 8 => some (.mbxwr h (.unpack o))
  | 9 => some (.fwcsr h (.unpack o))
  | 10 => some (.shoot h (.unpack o))
  | _ => none

/-- The instruction an opcode names, its fields read from the word, before any check. -/
def ofOpcode (opc : BitVec 8) (h : Hdr) (o : BitVec 45) : Option Instr :=
  let lo := opc.toNat % 16
  match opc.toNat / 16 with
  | 0 => row0 lo h o
  | 1 => row1 lo h o
  | 2 => row2 lo h o
  | 3 => row3 lo h o
  | 4 => row4 lo h o
  | 5 => row5 lo h o
  | 6 => row6 lo h o
  | 7 => row7 lo h o
  | 8 => row8 lo h o
  | 9 => row9 lo h o
  | 10 => rowA lo h o
  | 11 => rowB lo h o
  | 12 => rowC lo h o
  | 13 => rowD lo h o
  | 14 => rowE lo h o
  | 15 => rowF lo h o
  | _ => none

/-- The decoder (R336): total on any 80 bits. -/
def decode (w : W80) : Except DecodeError Instr :=
  let opc := w.extractLsb' 69 8
  match ofOpcode opc (hdrOf w) (w.extractLsb' 0 45) with
  | none => .error .unassignedOpcode
  | some i =>
    if engClass opc ≠ some (w.extractLsb' 77 3) then .error .wrongEngine
    else if encode i ≠ some w then .error .reservedBits
    else if !wellFormed i then .error .badField
    else .ok i

/-- The instruction read from the low 80 bits of a table word. -/
def decodeTableWord (nbits w : Nat) : Option Instr :=
  (decode (BitVec.ofNat 80 (w % 2 ^ nbits))).toOption

/-- An instruction is the decoding of some word (an event never is). -/
def Instr.isWord (i : Instr) : Bool := i.parts.isSome

/-! Code lines (R325-R328). -/

/-- Word slot `k` of a line (R325). -/
def lineSlot (l : Line) (k : Nat) : W80 := l.extractLsb' (80 * k) 80

/-- The trailer: PMASK, ECC, RZ (R326). -/
def lineTrailer (l : Line) : BitVec 32 := l.extractLsb' 480 32
def linePmask (l : Line) : BitVec 8 := l.extractLsb' 504 8
def lineEcc (l : Line) : BitVec 10 := l.extractLsb' 494 10
def lineRz (l : Line) : BitVec 14 := l.extractLsb' 480 14

/-- PMASK: bit e is 1 exactly when some word has ENG = e (R326). -/
def pmaskOf (l : Line) : BitVec 8 :=
  (List.range 6).foldl (fun m k => m ||| (1#8 <<< ((lineSlot l k).extractLsb' 77 3).toNat)) 0

/-- Parity of a Nat's low `n` bits. -/
def parity : Nat → Nat → Bool
  | 0, _ => false
  | n + 1, v => xor (v % 2 == 1) (parity n (v / 2))

/-- Code positions q(i) of the data bits (R327): the positive integers that are no powers of two, in order, up to 497. -/
def eccPositions : List Nat :=
  (List.range 498).filter fun p => p != 0 && (p &&& (p - 1)) != 0

/-- The 488 data bits: the words, then PMASK (R327). -/
def eccData (l : Line) : BitVec 488 := linePmask l ++ l.extractLsb' 0 480

/-- The positions of the set data bits. -/
def eccSet : List Nat → Nat → List Nat
  | [], _ => []
  | p :: ps, v => if v % 2 == 1 then p :: eccSet ps (v / 2) else eccSet ps (v / 2)

/-- c8-c0: the exclusive OR of the positions of the set data bits (R327 item 2). -/
def eccLow (l : Line) : Nat :=
  (eccSet eccPositions (eccData l).toNat).foldl (fun a p => a ^^^ p) 0

/-- c9-c0 (R327). -/
def eccOf (l : Line) : BitVec 10 :=
  let lo := eccLow l
  BitVec.ofBool (xor (parity 488 (eccData l).toNat) (parity 9 lo)) ++ BitVec.ofNat 9 lo

/-- What the check of a delivered line reports (R328). -/
inductive LineCheck where
  | clean
  /-- one bit in error: the corrected line -/
  | corrected (l : Line)
  | poison
  deriving DecidableEq, Repr

def flip (l : Line) (b : Nat) : Line := l ^^^ (1#512 <<< b)

/-- The bit of the line at a code position: a check bit at a power of two, else a data bit. -/
def lineBitOf (pos : Nat) : Nat :=
  if pos &&& (pos - 1) == 0 then 494 + Nat.log2 pos
  else
    let i := (eccPositions.takeWhile (· < pos)).length
    if i < 480 then i else 504 + (i - 480)

/-- The check of R328: the code over 498 bits, and the trailer's RZ bits outside it. -/
def checkLine (l : Line) : LineCheck :=
  let syn := (eccLow l) ^^^ (lineEcc l).toNat % 512
  let odd := xor (parity 488 (eccData l).toNat) (parity 10 (lineEcc l).toNat)
  let rz := ((List.range 14).filter fun k => (lineRz l).getLsbD k).length
  if syn == 0 && !odd then
    if rz == 0 then .clean
    else if rz == 1 then .corrected (l &&& ~~~(0x3FFF#512 <<< 480)) else .poison
  else if odd && rz == 0 then
    if syn == 0 then .corrected (flip l 503)
    else if syn ≤ 497 then .corrected (flip l (lineBitOf syn)) else .poison
  else .poison

/-- A line that holds the six words, with its trailer (R325-R327). -/
def lineOf (ws : List W80) : Line :=
  let body : Nat := (List.range 6).foldl (fun a k => a + (ws.getD k 0).toNat * 2 ^ (80 * k)) 0
  let l1 : Line := BitVec.ofNat 512 body
  let l2 := l1 ||| ((pmaskOf l1).setWidth 512 <<< 504)
  l2 ||| ((eccOf l2).setWidth 512 <<< 494)

/-- The NOP word (R351) that fills the slots of a line a single word is placed into. -/
def nopWord : W80 := word 0 0x04 ⟨0, false, 0, 0⟩ 0

end Sys2Proof
end

