-- ==== Sys2Proof/Machine/Regs.lean ====
section
/-!
DEFINITION. What a word touches: its walker (R153), the registers it reads and writes (R334, R335), whether it reads
or writes tower lines (R167), its engine queue (R249).
-/

namespace Sys2Proof.Machine

/-- A register as the interlocks compare it. -/
inductive Reg where
  | s (n : Nat) | a (n : Nat) | v (n : Nat) | k (n : Nat) | c (n : Nat)
  deriving DecidableEq, Repr

def Instr.opcode (i : Instr) : Nat := match i.parts with | some p => p.opc.toNat | none => 0

/-- The walker that executes a word; none for the common words, which every walker acts on, and for events (R153). -/
def owner (i : Instr) : Option Eng :=
  let o := Instr.opcode i
  if o < 0x04 then none else if o ≤ 0x46 then some .s
  else if o ≤ 0x69 then some .a else if o ≤ 0x74 then some .x
  else if o ≤ 0xC3 then some .v else if o ≤ 0xD6 then some .m
  else if 0xE3 ≤ o && o ≤ 0xE9 then some .a else some .s

def srs (l : List (BitVec 5)) : List Reg := (l.filter (· ≠ 0)).map fun n => .s n.toNat
def ars (l : List (BitVec 4)) : List Reg := l.map fun n => .a n.toNat
def vrange (b : BitVec 6) (n : Nat) : List Reg := (List.range n).map fun j => .v (b.toNat + j)

def vrWrites (o : Nat) (f : FVR) : List Reg :=
  if (0xA1 ≤ o && o ≤ 0xA6) || (0x8D ≤ o && o ≤ 0x8F) || (0x9C ≤ o && o ≤ 0xA0) then [.k (f.vd.toNat % 8)]
  else if 0xA9 ≤ o && o ≤ 0xAB then vrange f.vd (Machine.widenWays f.aux)
  else if o == 0xA8 then vrange f.vd (if tyBlock f.ty then 2 else 1)
  else vrange f.vd 1

/-- The VR words that use VB as a source (R331): two-operand forms, VCVT with a K4 side, the tables of VPERM and the slides. -/
def usesVb (o : Nat) (f : FVR) : Bool :=
  (0x78 ≤ o && o ≤ 0x7E) || (0x81 ≤ o && o ≤ 0x83) || (0x90 ≤ o && o ≤ 0x92) || (0x96 ≤ o && o ≤ 0x98)
    || (0x9C ≤ o && o ≤ 0xA0) || o == 0xA7 || (o == 0xA8 && (f.ty == 13#5 || f.aux.extractLsb' 0 5 == 13#5))
    || (0xA9 ≤ o && o ≤ 0xAC) || o == 0xB0 || o == 0xB1 || (0xB7 ≤ o && o ≤ 0xB9)
/-- The VR words that use VC as a source (R331). -/
def usesVc (o : Nat) : Bool := o == 0x7B || o == 0x7C || o == 0x87 || o == 0xAB || o == 0xAC

def vrReads (o : Nat) (f : FVR) : List Reg :=
  if 0xA1 ≤ o && o ≤ 0xA4 then [.k (f.va.toNat % 8), .k (f.vb.toNat % 8)]
  else if o == 0xA5 then [.k (f.va.toNat % 8)]
  else if o == 0xA6 then []
  else
    [.k f.k.toNat]
      ++ (if o == 0xC3 then []
          else vrange f.va (if o == 0xA8 && tyBlock (f.aux.extractLsb' 0 5) then 2
                            else if o == 0xAD then widenWays f.aux else 1))
      ++ (if usesVb o f then vrange f.vb 1 else [])
      ++ (if usesVc o then vrange f.vc (if o == 0xAB then widenWays f.aux else 1) else [])

/-- Registers a word reads (R334). A destination that a mask leaves unchanged in part is not listed: the word waits for
its writers as a writer of it (R335). -/
def bodyReads (o : Nat) : Body → List Reg
  | .n => []
  | .bk _ => []
  | .lp f => if f.rs then srs [f.count.extractLsb' 27 5] else []
  | .pw _ => []
  | .sr f => srs [f.a, f.b, f.c]
  | .si f => srs [f.a]
  | .sl f => if o == 0x24 then srs [f.d] else []
  | .sm f => srs (if o == 0x45 || o == 0xF4 then [f.a, f.d] else [f.a])
  | .b f => srs [f.a, f.b]
  | .ar f => if o == 0x50 || o == 0x51 then ars [f.y, f.z] else ars [f.x, f.y]
  | .ai f =>
    (if o ≤ 0x54 || o == 0x56 then ars [f.y] else if o == 0x60 || o == 0x61 then ars [f.x] else []) ++ srs [f.s]
  | .am f =>
    if o ≤ 0x5A || o == 0x66 then ars [f.ad, f.as, f.an] ++ srs [f.sc]
    else ars (if o == 0x63 || o == 0x65 then [f.as, f.an] else [f.as]) ++ srs [f.sc]
  | .ao f => ars [f.ad] ++ srs [f.sv, f.sw]
  | .xs f => if o == 0x71 then srs [f.d.extractLsb' 1 5, f.s.extractLsb' 1 5] else vrange f.s 1
  | .xc f => srs [f.dst, f.loc, f.len, f.ctr]
  | .vr f => vrReads o f
  | .vi _ => []
  | .vm f =>
    (if 0xC0 ≤ o then vrange f.v 1 else []) ++ (if o == 0xBF || o == 0xC2 then vrange f.vx 1 else []) ++ srs [f.sb, f.sx, f.srec] ++ [.k f.k.toNat]
  | .ma f => (if o ≤ 0xCB || o == 0xD2 then [.c f.c.toNat] else []) ++ srs [f.sa, f.sb, f.srec]
  | .mq f => [.c (f.va.toNat % 4)] ++ srs [f.sd]
  | .cn f => srs [f.h, f.v, f.t]

/-- Registers a word writes, now or at its completion (R334). -/
def bodyWrites (o : Nat) : Body → List Reg
  | .n => []
  | .bk _ => []
  | .lp _ => []
  | .pw _ => []
  | .sr f =>
    if 0xEA ≤ o && o ≤ 0xEC then (List.range 8).map fun j => .s (f.d.toNat + j)
    else if o == 0xF5 then ((List.range 4).map fun j => Reg.s (f.d.toNat + j)).filter (· ≠ .s 0)
    else srs [f.d]
  | .si f => srs [f.d]
  | .sl f => srs [f.d]
  | .sm f => if o == 0x45 || o == 0xF4 then [] else srs [f.d]
  | .b _ => []
  | .ar f => if o == 0x50 || o == 0x51 then ars [f.x] else []
  | .ai f => if 0x52 ≤ o && o ≤ 0x56 then ars [f.x] else []
  | .am f =>
    if o == 0x65 then ars [f.ad, f.ad + 1]
    else if o == 0x62 || o == 0x63 then ars [f.ad] ++ srs [f.tok]
    else srs [f.tok]
  | .ao _ => []
  | .xs f => if o == 0x70 then vrange f.d 1 else []
  | .xc f => srs [f.tok]
  | .vr f => vrWrites o f
  | .vi f => vrange f.vd 1
  | .vm f => if 0xBD ≤ o && o ≤ 0xBF then vrange f.v 1 else []
  | .ma f => if o ≤ 0xD1 then [.c f.c.toNat] else []
  | .mq f => if f.dst then [] else vrange f.vd 5
  | .cn f => srs [f.d]

def reads (i : Instr) : List Reg := match i.parts with | some p => bodyReads p.opc.toNat p.body | none => []
def writes (i : Instr) : List Reg := match i.parts with | some p => bodyWrites p.opc.toNat p.body | none => []

/-- `a` and `b` share a register. -/
def meet (a b : List Reg) : Bool := a.any fun r => b.contains r

/-- A later word `j` must wait for an earlier word `i` that has not completed: `j` reads or writes what `i` writes. -/
def waitsResult (i j : Instr) : Bool := meet (writes i) (reads j ++ writes j)
/-- A later word `j` must wait for an earlier word `i` that has not issued: also when `j` writes what `i` reads. -/
def waitsIssue (i j : Instr) : Bool := waitsResult i j || meet (reads i) (writes j)

/-- KIND of a COPY or COPY2D (R377): 0 global to tower, 1 tower to global, 2 global to global; 3 for other words. -/
def copyKind (i : Instr) : Nat :=
  match i with
  | .copy _ f => (f.mode.extractLsb' 6 2).toNat
  | .copy2d _ f => (f.mode.extractLsb' 6 2).toNat
  | _ => 3

/-- The word writes tower lines (R162, R167). -/
def writesTower (i : Instr) : Bool :=
  let o := Instr.opcode i
  copyKind i == 0 || o == 0x59 || o == 0x66 || (0x71 ≤ o && o ≤ 0x74) || (0xC0 ≤ o && o ≤ 0xC2) || o == 0xD2 || o == 0xD3
    || (match i.parts with
        | some ⟨_, _, .mq f⟩ => f.dst
        | _ => false)

/-- The word reads or writes tower lines (R167). -/
def touchesTower (i : Instr) : Bool :=
  let o := Instr.opcode i
  writesTower i || copyKind i == 1 || o == 0x5A || (0xBD ≤ o && o ≤ 0xBF) || (0xC8 ≤ o && o ≤ 0xCF) || o == 0xD1

/-- The engine queue a word enters (R249): 0 QA, 1 QX, 2 QY. A PHASE of node scope or wider reaches the publication point in the
synchronisation engine of die 0 (R242, R440, R452). -/
def queueOf (i : Instr) : Option Nat :=
  let o := Instr.opcode i
  if (0x57 ≤ o && o ≤ 0x5B) || (0x62 ≤ o && o ≤ 0x66) || (0xE3 ≤ o && o ≤ 0xE9) then some 0
  else if 0x72 ≤ o && o ≤ 0x74 then some 1
  else if (0xD8 ≤ o && o ≤ 0xDE) || (0xEA ≤ o && o ≤ 0xEC) then some 2
  else match i with
    | .phase _ f => if 2 ≤ f.scope.toNat then some 2 else none
    | _ => none

/-- The operand fields of an atomic. -/
def amoFields (i : Instr) : Option FAO :=
  match i.parts with
  | some ⟨_, _, .ao f⟩ => some f
  | _ => none

/-- The word is an atomic. -/
def isAtomic (i : Instr) : Bool := (amoFields i).isSome

/-- Operand size of an atomic. -/
def amoBytes (f : FAO) : Nat := if f.sz then 8 else 4

/-- The words under way: issued ones, and those whose requests a router holds for a saved team (R280). -/
def underWay (k : ClassState) : List InFlight := k.inflight ++ k.router.map (·.op)

/-- An atomic has read a word of [a, a + n) and not written it yet (R233): its physical address is its fourth operand. -/
def amoOpen (s : State) (a n : Nat) : Bool :=
  s.cls.any fun k => (underWay k).any fun f => match amoFields f.instr with
    | some g => f.prog == 1 && decide ((f.ops.getD 3 0).toNat < a + n) && decide (a < (f.ops.getD 3 0).toNat + amoBytes g)
    | none => false

/-- The header of a word. -/
def hdr (i : Instr) : Hdr := match i.parts with | some p => p.hdr | none => default

/-- The acquire words, at which every walker stops until the acquire is performed (R239, R440), with JOIN (R251). -/
def isAcquire : Instr → Bool
  | .cwait _ _ => true
  | .cwaitT _ _ => true
  | .bwait _ _ => true
  | .phase _ _ => true
  | .join _ => true
  | _ => false

/-- The word stops walker `e` until the S walker has executed it (R157, R239, R295, R368). -/
def stopsUntilS (e : Eng) : Instr → Bool
  | .wrcsr _ f => f.csr == 0 || f.csr == 5 || f.csr == 6 || (f.csr == 1 && e == .v)
  | i => isAcquire i

/-- The words that raise a double trap in handler mode (R268). -/
def doubleTrapWord (i : Instr) : Bool :=
  match owner i with
  | some .v => true
  | some .m => true
  | _ =>
    match i with
    | .psw _ _ => true
    | .exit _ => true
    | .trap _ _ => true
    | .qpop _ _ => true
    | .bq _ _ => true
    | .bqn _ _ => true
    | .ldq _ _ => true
    | .aqeq _ _ => true
    | .aqne _ _ => true
    | .aqlt _ _ => true
    | .aqltu _ _ => true
    | .aqeqi _ _ => true
    | .aqlti _ _ => true
    | .rdretb _ => true
    | .amoAdd _ f => f.ret
    | .amoMax _ f => f.ret
    | .amoMin _ f => f.ret
    | .amoAnd _ f => f.ret
    | .amoOr _ f => f.ret
    | .amoXchg _ f => f.ret
    | .amoCas _ f => f.ret
    | _ => false

end Sys2Proof.Machine
end

