-- ==== Sys2Proof/Machine/Walk.lean ====
section
/-!
DEFINITION. Walkers and issue: how a walker passes words (R154-R157), what makes a word wait (R155, R161, R167, R251,
R335), block signatures (R132), hardware loops (R172), taking a trap (R265-R270) and returning from one (R269).
-/

namespace Sys2Proof.Machine

/-! ## Word addresses (R329) -/

/-- Word address of a word index: the line, then the slot. -/
def wordAddr (wi : Nat) : Nat := 64 * (wi / 6) + wi % 6
/-- Word index of a word address. -/
def wiOf (a : Nat) : Nat := 6 * (a / 64) + a % 64
/-- Bits [55:6] the line, [5:3] zero, [2:0] a slot 0-5. -/
def isWordAddr (a : Nat) : Bool := a < 2 ^ 56 && a % 64 < 6

/-- `wi` moved by a signed offset. -/
def offsetWi (wi : Nat) {n : Nat} (off : BitVec n) : Nat := ((wi : Int) + off.toInt).toNat

/-! ## Order of words on the path -/

/-- The word (run, ordinal, number) stands before the other: by ordinal within one run; across a trap handler's entry
or return, by issue (R267, R335). -/
def before (r1 o1 id1 r2 o2 id2 : Nat) : Bool := if r1 = r2 then decide (o1 < o2) else decide (id1 < id2)

/-- Issued words of the class that stand before ordinal `ord` of its present path and have not completed. -/
def olderOps (k : ClassState) (ord : Nat) : List InFlight :=
  k.inflight.filter fun f => before f.run f.ord f.id k.run ord k.nextId
/-- Words that stand before ordinal `ord` and have not issued. -/
def olderPend (k : ClassState) (ord : Nat) : List PathWord := k.pend.filter fun p => p.ord < ord

/-- The accumulators among registers: a QCVT reads its accumulator again when it issues again (R265). -/
def accOf (l : List Reg) : List Reg := l.filter fun r => match r with
  | .c _ => true
  | .s _ => false
  | .a _ => false
  | .v _ => false
  | .k _ => false

/-- The interlock of R335: nothing older leaves a result the word needs or overwrites, nothing older still has to
read what the word writes. -/
def regsFree (k : ClassState) (ord : Nat) (i : Instr) : Bool :=
  (olderOps k ord).all (fun f => !waitsResult f.instr i && (f.eng != .m || !meet (accOf (reads f.instr)) (writes i)))
    && (olderPend k ord).all fun p => !waitsIssue p.instr i

/-- STRICT at a text position (R157): a change by a WRCSR at a later ordinal is not in force yet. -/
def strictAt (k : ClassState) (ord : Nat) : BitVec 2 :=
  match (k.strictOld.filter fun x => x.1 == k.run && decide (ord < x.2.1)).getLast? with
  | some x => x.2.2
  | none => k.strict

/-- VL at a text position (R368, R394). -/
def vlAt (k : ClassState) (ord : Nat) : BitVec 10 :=
  match (k.vlOld.filter fun x => ord < x.1).getLast? with
  | some x => x.2
  | none => k.vl

/-- R167: with TWR = 1 a word that touches tower lines waits for older tower writes of other engines. -/
def twrOk (k : ClassState) (e : Eng) (ord : Nat) (i : Instr) : Bool :=
  !(strictAt k ord).getLsbD 0 || !touchesTower i
    || ((olderOps k ord).all (fun f => f.eng == e || !writesTower f.instr)
        && (olderPend k ord).all fun p => p.eng == e || !writesTower p.instr)

/-- The least position among the walkers that count: all five, or S, A and X in handler mode (R155, R267). -/
def slipEngines (k : ClassState) : List Eng := if k.hmode then [.s, .a, .x] else engines
def leastPos (k : ClassState) (es : List Eng) (d : Nat) : Nat := es.foldl (fun m e => min m (walkerOf k e).ord) d

/-- Passing one more word keeps the walker's lead within WORDS (R155). -/
def slipOk (k : ClassState) (e : Eng) : Bool :=
  let p := (walkerOf k e).ord + 1
  decide (p - leastPos k ((slipEngines k).filter (· ≠ e)) p ≤ k.slip.toNat)

/-- The class executes words: its team is dispatched and not held, not frozen, not arrived (R112, R126, R175, R270). -/
def runnable (s : State) (c : Nat) : Bool :=
  let k := getCls s c
  k.live && k.hold.isNone && !k.frozen

/-- The word at walker `e` has taken its tokens already (R381). -/
def takenHere (k : ClassState) (e : Eng) : Option Taken :=
  if e = .a then k.taken.find? fun t => t.run = k.run && t.ord = (walkerOf k e).ord else none

/-- The engine takes its next word: M once the waves of the one before have run (R429), V a tower word once the passes of the one
before are done (R416). -/
def engineFree (k : ClassState) (e : Eng) (i : Instr) : Bool :=
  match e with
  | .m => k.inflight.all fun f => f.eng != .m || f.status != .issued
  | .v => !touchesTower i || k.inflight.all fun f => f.eng != .v
  | .s => true
  | .a => true
  | .x => true

/-- A word of walker `e` may issue: nothing but its own operands can hold it now. -/
def canIssue (s : State) (c : Nat) (e : Eng) (i : Instr) : Bool :=
  let k := getCls s c
  let w := walkerOf k e
  engineFree k e i && slipOk k e && regsFree k w.ord i && twrOk k e w.ord i && (tokensReady k (hdr i).cmask || (takenHere k e).isSome) && allocReady k (hdr i)
    && (e != .s || k.inflight.all fun f => f.run != k.run || !(match f.instr with
          | .sleepns _ _ => true
          | _ => isAcquire f.instr && f.ord == w.ord))
    && (e != .a || !k.halt.valid)

/-! ## Passing words -/

/-- End of a pass (R172): at the end of the innermost body count down and go back, or free the counter and go on. -/
def loopEnd (run : Nat) : List LoopCtx → Nat → List LoopCtx × Nat
  | [], n => ([], n)
  | l :: ls, n =>
    if l.run = run ∧ n = l.stop then
      if 1 < l.cnt then ({ l with cnt := l.cnt - 1 } :: ls, l.start) else loopEnd run ls n
    else (l :: ls, n)

/-- The walker goes on at word `n`, which may be the end of a pass. -/
def walkOn (run : Nat) (w : Walker) (n : Nat) : Walker :=
  let r := loopEnd run w.loops n
  { w with wi := r.2, loops := r.1, ord := w.ord + 1 }

/-- What older path records nobody needs any more. -/
def prune (k : ClassState) : ClassState :=
  let m := leastPos k (slipEngines k) (walkerOf k .s).ord
  { k with resolved := k.resolved.filter fun r => m ≤ r.1
           strictOld := k.strictOld.filter fun r => r.1 != k.run || decide (m ≤ r.2.1)
           vlOld := if k.hmode then k.vlOld else k.vlOld.filter fun r => m ≤ r.1 }

/-- The loop buffer keeps the words of active loops (R172). -/
def keepLoop (k : ClassState) (e : Eng) (i : Instr) : ClassState :=
  let w := walkerOf k e
  match w.loops, encode i with
  | _ :: _, some b => { k with loopBuf := tput k.loopBuf w.wi b }
  | _, _ => if engines.all fun e => (walkerOf k e).loops.isEmpty then { k with loopBuf := [] } else k

/-- The walker passes the word and goes on at `n`. -/
def passTo (k : ClassState) (e : Eng) (i : Instr) (n : Nat) : ClassState :=
  let k := keepLoop k e i
  prune (setWalker k e (walkOn k.run (walkerOf k e) n))

/-- The word has issued: it is no longer waited for as unissued. -/
def unpend (k : ClassState) (e : Eng) : ClassState :=
  { k with pend := k.pend.filter fun p => !(p.ord == (walkerOf k e).ord && p.eng == e) }

/-- A walker of another class passes the word: its owner may still have to issue it. -/
def notePend (k : ClassState) (e : Eng) (i : Instr) : ClassState :=
  match owner i with
  | none => k
  | some o =>
    let n := (walkerOf k e).ord
    if (walkerOf k o).ord ≤ n && !(k.pend.any fun p => p.ord == n) then { k with pend := ⟨n, o, i⟩ :: k.pend } else k

/-- A FENCE passed by a walker (R251): its mark; an A-engine fence also ends the view-order window (R223, R224). -/
def noteFence (k : ClassState) (e : Eng) (i : Instr) : ClassState :=
  match i with
  | .fence _ f =>
    let n := (walkerOf k e).ord
    let q := f.imm.extractLsb' 0 3
    let k := if k.fences.any fun m => m.run == k.run && m.ord == n then k
      else { k with fences := ⟨k.nextId, n, k.run, q⟩ :: k.fences, nextId := k.nextId + 1 }
    if e == .a && q.getLsbD 0 then { k with sectors := [] } else k
  | _ => k

/-- Commands of engine queue `q` that stand before (run, ord, id) and have not completed, issued or not. -/
def queueBusy (k : ClassState) (q run ord id : Nat) : Bool :=
  (k.inflight.any fun f => queueOf f.instr == some q && before f.run f.ord f.id run ord id)
    || (k.run == run && k.pend.any fun p => queueOf p.instr == some q && p.ord < ord)

/-- No marker of a FENCE stands before the command with older commands of that queue outstanding (R251). -/
def fenceClear (k : ClassState) (f : InFlight) : Bool :=
  match queueOf f.instr with
  | none => true
  | some q => k.fences.all fun m =>
      !(m.qset.getLsbD q && before m.run m.ord m.id f.run f.ord f.id) || !queueBusy k q m.run m.ord m.id

/-! ## Control-flow fault and block signatures (R132, R133) -/

/-- The fault kills the node; the black box gets the block address and the computed CRC (0x012; log 70 where none was computed). -/
def controlFlowFault (s : State) (c addr : Nat) (crc : BitVec 16) : State :=
  let s := systemCause s c 0x22 0 (getCls s c).ws.ord (BitVec.ofNat 64 addr)
  killOn (bbClass s c 0x012 0x40 (BitVec.ofNat 64 (addr * 65536 + crc.toNat))) c 0x12

/-- The S walker's signature after the word at its position, or the address and CRC of a fault. DESIGN CHOICE (log 70): the CRC field
is 0 where the fault is no CRC mismatch. -/
def blockStep (k : ClassState) (i : Instr) : Except (Nat × BitVec 16) BlockSig :=
  let wi := k.ws.wi
  match i with
  | .blk _ f => .ok ⟨wi, f.n.toNat, 0xFFFF, f.crc⟩
  | _ =>
    match k.block with
    | none => .error (wordAddr wi, 0)
    | some b =>
      if b.left = 0 then .error (wordAddr wi, 0)
      else
        let crc := crc16Word b.crc ((encode i).getD 0)
        if b.left = 1 ∧ crc ≠ b.want then .error (wordAddr b.head, crc)
        else .ok { b with left := b.left - 1, crc := crc }

/-! ## Traps (R263-R270) -/

/-- TFMT at the taking of a cause: the format word that a QCVT with the rescale cause popped (R265, R268). -/
def tfmtTaken (k : ClassState) (x : Cause) : Option W64 :=
  if x.code = 4 then ((k.inflight.find? fun f => some f.id = x.op).bind (·.ops.head?)).or k.tfmt else k.tfmt

/-- A cause is taken: the class enters its handler (R267), or the event goes to firmware and the class is held (R270). The ordinal of
an asynchronous cause is the least walker position as it is taken (R266). -/
def takeCause (s : State) (c : Nat) (x : Cause) : State :=
  let k := getCls s c
  let ec := match x.eng with | some e => engCode e | none => 7#3
  let ord := if x.eng.isNone then leastPos k (slipEngines k) k.ws.ord else x.ord
  let s := modCls (setCause s c x.code.toNat ec ord x.tinfo) c fun k =>
    { k with walk := none, trap := some x, tfmt := tfmtTaken k x }
  let h := k.thnd.toNat
  if h = 0 then
    let id := (getDie s (dieOf c)).nextEv
    modCls (causeEvent s c) c fun k => { k with hold := some id }
  else if !isWordAddr h then controlFlowFault s c h 0
  else
    modCls s c fun k =>
      let fr : TrapFrame := ⟨k.run, k.block, k.ws, k.wa, k.wv, k.wm, k.wx, k.pend, k.resolved⟩
      let go := fun (w : Walker) => { w with wi := wiOf h, ord := 0, atExit := false }
      { k with
        hmode := true, frame := some fr, run := k.runs + 1, runs := k.runs + 1, block := none
        ws := go k.ws, wa := go k.wa, wx := go k.wx
        wv := { k.wv with parked := true }, wm := { k.wm with parked := true }
        pend := [], resolved := [] }

/-- A cause without an issued word is taken. -/
def enterTrap (s : State) (c code : Nat) (e : Option Eng) (ord : Nat) (tinfo : W64) : State :=
  takeCause s c ⟨BitVec.ofNat 8 code, e, ord, tinfo, none⟩

/-- Double trap (R268): firmware fails the node without rollback, status 0x04. -/
def doubleTrap (s : State) (c : Nat) (e : Eng) (second : W64) : State :=
  failOpen (systemCause s c 0x08 (engCode e) (walkerOf (getCls s c) e).ord second) c

/-- The word that the A walker stands at has not issued: what it read of its index lists is forgotten, since it reads its operands
again (R265, R381). -/
def forgetLists (k : ClassState) : ClassState :=
  if k.taken.isEmpty then k
  else { k with taken := k.taken.map fun t => if t.run = k.run ∧ t.ord = k.wa.ord then { t with index := none } else t }

/-- A synchronous cause before issue, at walker `e`'s word (R265, R268). -/
def trapAt (s : State) (c : Nat) (e : Eng) (code : Nat) (tinfo : W64) : State :=
  let k := getCls s c
  if k.hmode then doubleTrap s c e (BitVec.ofNat 64 code)
  else enterTrap (if e = .a then modCls s c forgetLists else s) c code (some e) (walkerOf k e).ord tinfo

/-- A cause of a word that had issued, or of the class: pending while a handler runs or the class is held (R188,
R268), else taken. -/
def raiseLater (s : State) (c : Nat) (x : Cause) : State :=
  let k := getCls s c
  if !k.live then s
  else if k.hmode || k.hold.isSome then
    if x.eng.isNone && k.causes.any (fun y => y.eng.isNone) then s
    else modCls s c fun k => { k with causes := k.causes ++ [x] }
  else takeCause s c x

/-- The pending cause taken first: refresh-forced, then the lowest ordinal (R264). -/
def firstCause (l : List Cause) : Option Cause :=
  match l.find? fun x => x.eng.isNone with
  | some x => some x
  | none => l.foldl (fun m x => match m with
      | none => some x
      | some y => if x.ord < y.ord then some x else some y) none

/-- Take the first pending cause, if there is one (R269). -/
def takePending (s : State) (c : Nat) : State :=
  let k := getCls s c
  match firstCause k.causes with
  | none => s
  | some x => takeCause (modCls s c fun k => { k with causes := k.causes.erase x }) c x

/-- The reservation of a word becomes a token (R161 push). -/
def pushToken (k : ClassState) (i : Instr) : ClassState :=
  if (hdr i).av then addToken (dropReserve k (hdr i).atag.toNat) (hdr i).atag.toNat else k

/-- The format word that TFMT holds once word `id` needs it no more: that of another QCVT whose cause has been taken (R265, R268). -/
def tfmtAfter (k : ClassState) (id : Nat) : Option W64 :=
  (k.inflight.find? fun g => decide (g.id ≠ id)
    && (g.status == .again || (g.status == .rescale && k.trap.any fun x => x.op == some g.id))).bind (·.ops.head?)

/-- A word that has issued is retired without effect: it leaves the replay queue, its token is pushed. -/
def retireOp (k : ClassState) (f : InFlight) : ClassState :=
  pushToken { k with inflight := k.inflight.filter fun g => g.id ≠ f.id, tfmt := tfmtAfter k f.id } f.instr

/-- What skip = 0 or 1 makes of the trapping word (R269): one that has issued issues again or is retired; one that has not is retired
when its walker reaches it; an asynchronous cause and TRAP leave nothing to settle. -/
def settle (k : ClassState) (skip : Bool) : ClassState :=
  match k.trap with
  | none => k
  | some x =>
    let k := { k with trap := none }
    match x.op with
    | some id =>
      match k.inflight.find? fun f => f.id = id with
      | none => k
      | some f =>
        if skip then retireOp k f
        else { k with inflight := k.inflight.map fun g => if g.id = id then { g with status := .again } else g }
    | none =>
      match x.eng with
      | none => k
      | some e => if skip && x.code != 7 then { k with retire := (e, k.run, x.ord) :: k.retire } else k

/-- Return from the handler, or release of a held class: walkers back at their recorded positions (R269). -/
def returnTrap (s : State) (c : Nat) (skip : Bool) : State :=
  let s := modCls s c fun k =>
    let k := match k.frame with
      | none => { k with hold := none }
      | some f =>
        let back := fun (w now : Walker) => { w with loops := now.loops, rstack := now.rstack }
        { k with
          hold := none, hmode := false, frame := none, run := f.run, block := f.block
          ws := back f.ws k.ws, wa := back f.wa k.wa, wx := back f.wx k.wx, wv := f.wv, wm := f.wm
          strictOld := k.strictOld.filter fun x => x.1 == f.run, pend := f.pend, resolved := f.resolved }
    settle k skip
  takePending s c

/-! ## Issue -/

/-- What the body of a word comes to. -/
inductive Res where
  /-- issued and completed; the path goes on at the next word -/
  | done (s : State)
  /-- issued and completed; the path goes on at word `n` -/
  | jump (s : State) (n : Nat)
  /-- issued; completes later, with the register values it read -/
  | async (s : State) (ops : List W64) (moves : List Move)
  /-- issued, its first pass done; the further passes follow (R416) -/
  | paced (s : State) (ops : List W64) (segs : List Strip)
  /-- waits -/
  | stall
  /-- a synchronous recoverable cause before issue (R265) -/
  | trap (code : Nat) (tinfo : W64)
  /-- the word neither issues nor waits: a kill, an arrival, a return from a handler -/
  | stop (s : State)

/-- Tokens taken at issue; a word that completes at once pushes its token. -/
def consume (k : ClassState) (e : Eng) (h : Hdr) : ClassState :=
  match takenHere k e with
  | some t => { k with taken := k.taken.erase t }
  | none => takeTokens k h.cmask
def tagsDone (k : ClassState) (e : Eng) (h : Hdr) : ClassState :=
  let k := consume k e h
  if h.av then addToken k h.atag.toNat else k
def tagsIssued (k : ClassState) (e : Eng) (h : Hdr) : ClassState :=
  let k := consume k e h
  if h.av then addReserve k h.atag.toNat else k

/-- The word has issued and completed: tags, then the walker goes on at `n`. -/
def finishDone (s : State) (c : Nat) (e : Eng) (i : Instr) (n : Nat) : State :=
  modCls s c fun k => passTo (tagsDone (unpend k e) e (hdr i)) e i n

/-- Corridor requests that an issued word sends (R141): corridor transfers, counter operations, atomics, accesses through the team
aperture (R174), which the eighth operand marks. XBCAST sends one to each class it names. -/
def requests (i : Instr) (ops : List W64) : Nat :=
  match i with
  | .xbcast _ _ => (ops.getD 4 0).toNat
  | _ =>
    let o := Instr.opcode i
    if o = 0x72 ∨ o = 0x73 ∨ queueOf i = some 2 ∨ (0xE3 ≤ o ∧ o ≤ 0xE9) ∨ ops.getD 7 0 = 1 then 1 else 0

/-- Cycles of a class clock in one reference tick of 8 ns, by clock code (R59). -/
def clockCk (code : BitVec 4) : Nat := 20 - 2 * code.toNat

/-- The count at the start of a nanosecond wait (R56): ceil(d · f). -/
def startCount (code : BitVec 4) (i : Instr) (ops : List W64) : Nat :=
  let go := fun (d : Nat) => (d * clockCk code + 7) / 8
  match i with
  | .sleepns _ _ => go (ops.getD 0 0).toNat
  | .cwaitT _ _ => go (ops.getD 2 0).toNat
  | _ => 0

/-- The count after a conversion (R56, R57): ceil(rem_ck / f_old · f_new). -/
def convertCount (old new : BitVec 4) (n : Nat) : Nat := (n * clockCk new + clockCk old - 1) / clockCk old

/-- The class clock takes a new value: countdowns under way are converted (R56). -/
def setClock (k : ClassState) (code : BitVec 4) : ClassState :=
  { k with clks := code, inflight := k.inflight.map fun f => { f with rem := convertCount k.clks code f.rem } }

/-- A SLEEPNS holds the S walker: it issues no further word of the path the SLEEPNS stands on (R366). -/
def asleep (k : ClassState) : Bool := k.inflight.any fun f => f.run == k.run && match f.instr with
  | .sleepns _ _ => true
  | _ => false

/-- The words that present their rows again after a halt, through the view slots as they issued with them (R212, R220). -/
def rereads : Instr → Bool
  | .gather _ _ => true
  | .scatter _ _ => true
  | _ => false

/-- The word has issued: an entry of the replay queue (R277), with the passes it has made over the towers and the lines it takes in
all; its walker passes it unless it is an acquire word. -/
def finishIssued (s : State) (c : Nat) (e : Eng) (i : Instr) (ops : List W64) (moves : List Move) (prog : Nat)
    (segs : List Strip) : State :=
  let now := s.ticks8
  modCls s c fun k =>
    let w := walkerOf k e
    let k := tagsIssued (unpend k e) e (hdr i)
    let n := requests i ops
    let f : InFlight := { id := k.nextId, ord := w.ord, run := k.run, eng := e, instr := i, ops := ops, start := now,
                          seq := if n = 0 then none else some k.seqNo.toNat, reqs := List.replicate n {}, moves := moves,
                          pages := k.batch, rem := startCount k.clks i ops, slots := if rereads i then k.views else []
                          prog := prog, segs := segs }
    let k := { k with inflight := k.inflight ++ [f], nextId := k.nextId + 1, seqNo := k.seqNo + BitVec.ofNat 16 n, batch := [] }
    if isAcquire i then k else passTo k e i (w.wi + 1)

/-- The word has issued and completes later. -/
def finishAsync (s : State) (c : Nat) (e : Eng) (i : Instr) (ops : List W64) (moves : List Move) : State :=
  finishIssued s c e i ops moves 0 []

/-- The word has issued and its first pass is done (R416). -/
def finishPaced (s : State) (c : Nat) (e : Eng) (i : Instr) (ops : List W64) (segs : List Strip) : State :=
  finishIssued s c e i ops [] 1 segs

/-- S records where a path point it resolves goes on (R156). -/
def noteResolved (k : ClassState) (byS : Bool) (n : Nat) : ClassState :=
  if byS then { k with resolved := (k.ws.ord, n) :: k.resolved } else k

/-- A path point the S walker resolves for the others (R156). -/
def resolvedByS : Instr → Bool
  | .brr _ _ => true | .bz _ _ => true | .bnz _ _ => true | .beq _ _ => true | .bne _ _ => true | .blt _ _ => true
  | .bge _ _ => true | .bltu _ _ => true | .bgeu _ _ => true | .callr _ _ => true | .psw _ _ => true
  | _ => false

/-- Carry out what a body came to, for walker `e` of class `c`. -/
def finish (s : State) (c : Nat) (e : Eng) (i : Instr) (r : Res) : State :=
  let nx := (walkerOf (getCls s c) e).wi + 1
  match r with
  | .done s' => finishDone (modCls s' c fun k => noteResolved k (resolvedByS i) nx) c e i nx
  | .jump s' n => finishDone (modCls s' c fun k => noteResolved k (resolvedByS i) n) c e i n
  | .async s' ops ms => finishAsync s' c e i ops ms
  | .paced s' ops gs => finishPaced s' c e i ops gs
  | .stall => s
  | .trap code tinfo => trapAt s c e code tinfo
  | .stop s' => s'

/-- The word completes (R162): its entry leaves the replay queue, its reservation becomes a token. -/
def completeOp (k : ClassState) (f : InFlight) : ClassState :=
  pushToken { k with inflight := k.inflight.filter fun g => g.id ≠ f.id } f.instr

/-- A QCVT that issues again after its rescale trap (R265): no tags, its reservation held, its walker unmoved. -/
def finishAgain (s : State) (c : Nat) (f : InFlight) (r : Res) : State :=
  match r with
  | .done s' => modCls s' c fun k => { completeOp k f with tfmt := tfmtAfter k f.id }
  | .jump s' _ => s'
  | .async s' ops _ => modCls s' c fun k => { k with
      inflight := k.inflight.map fun g => if g.id = f.id then { g with status := .issued, ops := ops, prog := 0 } else g }
  | .paced s' _ _ => s'
  | .stall => s
  | .trap code tinfo => takeCause s c ⟨BitVec.ofNat 8 code, some f.eng, f.ord, tinfo, some f.id⟩
  | .stop s' => s'

/-- A QCVT waits to issue again after its rescale trap (R265, R322): it does so wherever the M walker stands. -/
def reissues (k : ClassState) : Bool := k.inflight.any fun f => f.status == .again

/-- The word at the walker was retired without effect by RETT with skip = 1 (R269). -/
def isRetired (k : ClassState) (e : Eng) : Bool := k.retire.contains (e, k.run, (walkerOf k e).ord)

/-- The owner's walker at its word: double trap, interlocks, then the body. -/
def issue (i : Instr) (body : State → Res) (s : State) (c : Nat) (e : Eng) : State :=
  let k := getCls s c
  if isRetired k e then
    if (tokensReady k (hdr i).cmask || (takenHere k e).isSome) && slipOk k e then
      finishDone (modCls s c fun k => { k with retire := k.retire.erase (e, k.run, (walkerOf k e).ord) }) c e i
        ((walkerOf k e).wi + 1)
    else s
  else if k.hmode && doubleTrapWord i then doubleTrap s c e 0x08
  else
    match (if e = .m then k.inflight.find? fun f => f.status == .again else none) with
    | some f => if f.instr = i ∧ engineFree k .m i = true then finishAgain s c f (body s) else s
    | none => if !canIssue s c e i then s else finish s c e i (body s)

/-- The S walker checks the signature of the block at the word before it acts on it (R132, R133). -/
def checked (i : Instr) (s : State) (c : Nat) (e : Eng) (go : State → State) : State :=
  if e = .s then
    match blockStep (getCls s c) i with
    | .error x => if slipOk (getCls s c) .s then controlFlowFault s c x.1 x.2 else s
    | .ok b =>
      let s' := go s
      -- the signature moves on exactly when the S walker has passed the word on the same run
      if (getCls s' c).ws.ord = (getCls s c).ws.ord + 1 ∧ (getCls s' c).run = (getCls s c).run
      then modCls s' c fun k => { k with block := some b } else s'
  else go s

/-- Where a walker that is not the resolver goes at a path point; none while unresolved (R156). -/
def otherNext (k : ClassState) (e : Eng) (i : Instr) : Option (Walker × Nat) :=
  let w := walkerOf k e
  let look := (k.resolved.find? fun r => r.1 = w.ord).map (·.2)
  match i with
  | .br _ f => some (w, offsetWi w.wi f.off)
  | .call _ f => if w.rstack.length < 16 then some ({ w with rstack := (w.wi + 1) :: w.rstack }, offsetWi w.wi f.off) else none
  | .callr _ _ => if w.rstack.length < 16 then look.map fun n => ({ w with rstack := (w.wi + 1) :: w.rstack }, n) else none
  | .ret _ =>
    match w.rstack with
    | [] => none
    | n :: r => some ({ w with rstack := r }, n)
  | .bq _ f => (k.qbAll[w.qbSeen]?).map fun b =>
      ({ w with qbSeen := w.qbSeen + 1 }, if b then offsetWi w.wi f.off else w.wi + 1)
  | .bqn _ f => (k.qbAll[w.qbSeen]?).map fun b =>
      ({ w with qbSeen := w.qbSeen + 1 }, if b then w.wi + 1 else offsetWi w.wi f.off)
  | .exit _ => none
  | .rett _ _ => if k.hmode then none else some (w, w.wi + 1)
  | i => if resolvedByS i then look.map fun n => (w, n) else some (w, w.wi + 1)

/-- A walker passes over a word of another class (R153, R154). -/
def passOver (i : Instr) (s : State) (c : Nat) (e : Eng) : State :=
  let k := getCls s c
  let w := walkerOf k e
  match i with
  | .exit _ => modCls s c fun k => setWalker k e { w with atExit := true }
  | _ =>
    if !slipOk k e || (stopsUntilS e i && decide (k.ws.ord ≤ w.ord)) then s
    else
      match otherNext k e i with
      | none => s
      | some r => modCls s c fun k => passTo (setWalker (noteFence (notePend k e i) e i) e r.1) e i r.2

/-! ## Timetable processors (R458) -/

/-- The processor goes on at word `n`. -/
def fwGo (s : State) (d : Nat) (n : Nat) : State :=
  modFw s d fun f =>
    let r := loopEnd 0 f.loops n
    { f with wi := r.2, loops := r.1 }

/-- A word on a timetable processor: no walkers, no tags, no traps; a word that would trap is retired without effect. -/
def fwIssue (body : State → Res) (s : State) (d : Nat) : State :=
  let f := (getDie s d).fw
  if !f.running then s
  else
    match body s with
    | .done s' => fwGo s' d (f.wi + 1)
    | .jump s' n => fwGo s' d n
    | .async s' _ _ => fwGo s' d (f.wi + 1)
    | .paced s' _ _ => fwGo s' d (f.wi + 1)
    | .stall => s
    | .trap _ _ => fwGo s d (f.wi + 1)
    | .stop s' => s'

/-- Every word but the common ones: its owner's walker issues it, every other walker passes over it, a timetable
processor runs it. -/
def runWord (i : Instr) (body : State → Res) (s : State) : Out :=
  match s.focus with
  | .fw d => .next (fwIssue body s d)
  | .cls c e =>
    let k := getCls s c
    let w := walkerOf k e
    if !runnable s c || w.parked || (w.atExit && e != .s && !(e == .m && reissues k)) then .next s
    else if owner i = some e then .next (checked i s c e fun s => issue i body s c e)
    else if k.hmode && doubleTrapWord i then
      -- the V and M walkers are parked: the S walker meets their words (R268)
      if e = .s ∧ (owner i = some .v ∨ owner i = some .m) then .next (doubleTrap s c e 0x08) else .next s
    else .next (checked i s c e fun s => passOver i s c e)

/-! ## Completion of issued words -/

def findOp (s : State) (c id : Nat) : Option InFlight := (getCls s c).inflight.find? fun f => f.id = id
def modOp (s : State) (c id : Nat) (f : InFlight → InFlight) : State :=
  modCls s c fun k => { k with inflight := k.inflight.map fun g => if g.id = id then f g else g }

/-- The S walker passes its acquire word once the acquire is performed (R239), in the frame if a handler runs. -/
def passAcquire (k : ClassState) (f : InFlight) : ClassState :=
  if f.run = k.run then
    let b := blockStep k f.instr
    let k := passTo k .s f.instr (k.ws.wi + 1)
    match b with
    | .ok b => { k with block := some b }
    | .error _ => k
  else
    match k.frame with
    | none => k
    | some fr =>
      let b := blockStep { k with ws := fr.ws, block := fr.block } f.instr
      let fr := { fr with ws := walkOn fr.run fr.ws (fr.ws.wi + 1) }
      match b with
      | .ok b => { k with frame := some { fr with block := some b } }
      | .error _ => { k with frame := some fr }

/-- The word completes (R162): its entry leaves the replay queue, its reservation becomes a token, an acquire is
passed. -/
def complete (s : State) (c : Nat) (f : InFlight) : State :=
  modCls s c fun k =>
    let k := completeOp k f
    if isAcquire f.instr then passAcquire k f else k

end Sys2Proof.Machine
end

