-- ==== Sys2Proof/Machine/Net.lean ====
section
/-!
DEFINITION. Requests on the corridor network: when a word's requests leave, by which stairwells, whether they arrive (R141-R144,
R200, R201, R238, R258, R389); results that a freeze holds (R126).
-/

namespace Sys2Proof.Machine

/-! ## Counted transfers (R258) -/

/-- Corridor transfers and copies with .cnt. -/
def isCounted (i : Instr) : Bool :=
  match i with
  | .xsend _ g => g.mode.getLsbD 6
  | .xrecv _ g => g.mode.getLsbD 6
  | .xbcast _ g => g.mode.getLsbD 6
  | .copy _ g => g.mode.getLsbD 4
  | .gather _ g => g.mode.getLsbD 3
  | .scatter _ g => g.mode.getLsbD 3
  | _ => false

/-- Every word before an issued release has completed, but for counted transfers (R238, R258). -/
def olderDone (k : ClassState) (f : InFlight) : Bool :=
  let far := fun (l : List PathWord) => l.all fun p => isCounted p.instr || decide (f.ord ≤ p.ord)
  (k.inflight.all fun g => isCounted g.instr || !before g.run g.ord g.id f.run f.ord f.id)
    && (if f.run = k.run then far k.pend
        else match k.frame with
          | some fr => fr.run != f.run || far fr.pend
          | none => true)

/-! ## Corridor addresses (R389, R390) -/

/-- RMT, PKG, CLASS, DESK, OFFSET. -/
def corRmt (a : Nat) : Bool := a.testBit 63
def corPkg (a : Nat) : Nat := bitField a 62 55
def corCls (a : Nat) : Nat := bitField a 45 40
def corDesk (a : Nat) : Nat := bitField a 39 35
def corOff (a : Nat) : Nat := bitField a 25 0

/-- Classes that an XBCAST names. -/
def bcastClasses (a : Nat) : List Nat :=
  ((List.range 20).filter fun b => a.testBit b).map fun b => 20 * bitField a 20 20 + b

/-- The class that performs request `j` of a transfer. -/
def farClass (f : InFlight) (j : Nat) : Nat :=
  let a := (f.ops.getD 5 0).toNat
  match f.instr with
  | .xbcast _ _ => (bcastClasses a).getD j 0
  | _ => corCls a

/-- The transfer goes to or comes from another package. -/
def isFar (f : InFlight) : Bool :=
  match f.instr with
  | .xsend _ _ => corRmt (f.ops.getD 5 0).toNat
  | .xrecv _ _ => corRmt (f.ops.getD 5 0).toNat
  | _ => false

/-! ## Stairwells (R198-R201) -/

def wellOf (s : State) (die r : Nat) : Stairwell := (getDie s die).wells.getD r { state := 2 }
def setWell (s : State) (die r : Nat) (w : Stairwell) : State := modDie s die fun d => { d with wells := d.wells.set r w }

/-- The stairwells of a request's route, by die and number (R200): none within a die's mesh, the source's and the destination's to
a class of the other die, the source's to a base-die unit or another package. -/
def wellsFor (s : State) (c : Nat) (f : InFlight) (j : Nat) (alt : Bool) : List (Nat × Nat) :=
  let pick := fun (d : Nat) => (dieOf d, if alt then (getCls s d).ralt else (getCls s d).rpri)
  if queueOf f.instr = some 1 ∧ !isFar f then
    (if dieOf (farClass f j) = dieOf c then [] else [pick c, pick (farClass f j)])
  else if Instr.opcode f.instr ≤ 0x66 then []
  else [pick c]

/-- The routers of a route take new packets: only an active one does. -/
def routeOpen (s : State) (ws : List (Nat × Nat)) : Bool := ws.all fun w => (wellOf s w.1 w.2).state == 0

/-! ## Sending (R141, R142) -/

def reqOf (f : InFlight) (j : Nat) : Sending := f.reqs.getD j {}

/-- Nothing of the class holds the requests of an issued word back: no marker of a FENCE (R251), no older word before a release
(R238). -/
def mayLeave (k : ClassState) (f : InFlight) : Bool :=
  fenceClear k f && match f.instr with
    | .cadd _ _ => olderDone k f
    | .caddi _ _ => olderDone k f
    | .barrive _ _ => olderDone k f
    | .phase _ _ => olderDone k f
    | _ => true

/-- A sending of request `j` now; a router on its way that takes no packet loses it. -/
def sendOff (s : State) (c : Nat) (f : InFlight) (j : Nat) (alt : Bool) (n : Nat) : Sending :=
  let ws := wellsFor s c f j alt
  { sends := n, left := some s.ticks8, lost := !routeOpen s ws, wells := ws }

/-- The requests of a word that leave now. -/
def leaveOp (s : State) (c : Nat) (f : InFlight) : InFlight :=
  { f with reqs := (f.reqs.zipIdx).map fun e => if e.1.left.isNone && !e.1.done then sendOff s c f e.2 false 0 else e.1 }

/-- Some request of the word has not left. -/
def unsent (f : InFlight) : Bool := f.reqs.any fun r => r.left.isNone && !r.done

/-- The requests of a class that nothing holds back leave: they carry the present reading of LNC. -/
def leaveClass (s : State) (c : Nat) : State :=
  if (getCls s c).inflight.any fun f => unsent f && mayLeave (getCls s c) f then
    modCls s c fun k => { k with inflight := k.inflight.map fun f => if unsent f && mayLeave k f then leaveOp s c f else f }
  else s

def leaveAll (s : State) : State := (List.range 40).foldl leaveClass s

/-- Request `j` reaches its destination: it may leave, and no router on its way refuses or has lost it. -/
def arrives (s : State) (c : Nat) (f : InFlight) (j : Nat) : Bool :=
  mayLeave (getCls s c) f && !(reqOf f j).done
    && (if (reqOf f j).left.isSome then !(reqOf f j).lost else routeOpen s (wellsFor s c f j false))

/-- Request `j` has been performed and acknowledged. -/
def markDone (f : InFlight) (j : Nat) : InFlight := { f with reqs := f.reqs.modify j fun r => { r with done := true } }

/-- Request `j` has left and is not acknowledged. The request of a timed wait is acknowledged once it has reached its engine,
whether its countdown still runs or not (R254). -/
def unacked (f : InFlight) (j : Nat) : Bool :=
  (reqOf f j).left.isSome && !(reqOf f j).done
    && (queueOf f.instr == some 1 || f.status == .issued || (f.status == .cancelling && f.prog == 0))

/-! ## Words of the synchronisation engines -/

/-- Bit 21 of IMM22: BYT or TB. -/
def bit21 (f : FCN) : Bool := f.imm.getLsbD 21
def op0 (f : InFlight) (n : Nat) : Nat := (f.ops.getD n 0).toNat

/-- The size of the team on a class, a team barrier's N (R449). -/
def teamSize (s : State) (c : Nat) : Nat := match teamOf s c with | some t => t.classes.length | none => 1

def barrierOf (s : State) (h size : Nat) : Option Barrier := s.barriers.find? fun b => b.handle = h ∧ b.size = size

/-- Deliver a round's key to a member (R449). -/
def takeKey (s : State) (c h : Nat) (r : Nat) : State :=
  let key : Option (BitVec 3 × Nat) := match barrierOf s h (teamSize s c) with
    | some b => (b.keys.find? fun x => x.1 = r).map (·.2)
    | none => none
  modCls s c fun k => { k with
    klvl := match key with | some x => x.1 | none => BitVec.ofNat 3 s.grant
    kbkt := match key with | some x => x.2 | none => 0
    lncBar := some (lnc s c) }

/-! ## Results of base-die units and a freeze (R126) -/

/-- A satisfied BWAIT ends its barrier region; with TB it takes the key of the round that satisfied it, which `prog` names
(R256, R449). -/
def endRegion (s : State) (c : Nat) (f : InFlight) : State :=
  match f.instr with
  | .bwait _ g =>
    let s := if bit21 g && f.prog != 0 then takeKey s c (op0 f 0) f.prog else s
    modCls s c fun k => { k with region := none, regionCount := 0, regionOp := 0 }
  | _ => s

/-- The registers of a result, then the word completes. -/
def landNow (s : State) (c : Nat) (f : InFlight) (rs : List (Nat × W64)) : State :=
  complete (rs.foldl (fun s r => setS s c r.1 r.2) (endRegion s c f)) c f

/-- A result arrives for a class: it lands, or is held until the freeze ends. -/
def land (s : State) (c : Nat) (f : InFlight) (rs : List (Nat × W64)) : State :=
  if (getCls s c).frozen then modOp s c f.id fun g => { g with status := .answered, held := some rs, prog := f.prog }
  else landNow s c f rs

end Sys2Proof.Machine
end

