-- ==== Sys2Proof/Machine/Operands.lean ====
section
/-!
DEFINITION. The operand forms of the S and A words (R348, R354, R356, R358, R374): register and immediate operands,
results into s- and a-registers, and the 64-bit operations over them.
-/

namespace Sys2Proof.Machine

/-- m = sext(IMM32, 64) (R356). -/
def imms (m : W32) : W64 := m.signExtend 64
/-- m = zext(IMM32, 64) (R356). -/
def immz (m : W32) : W64 := m.setWidth 64

/-- s[D] ← g(s[A], s[B]) (R354). -/
def srWord (i : Instr) (f : FSR) (g : W64 → W64 → W64) (s : State) : Out :=
  runWord i (fun s => .done (sset s f.d (g (sget s f.a) (sget s f.b)))) s

/-- s[D] ← g(s[A], m) (R356, R358). -/
def siWord (i : Instr) (f : FSI) (g : W64 → W64) (s : State) : Out :=
  runWord i (fun s => .done (sset s f.d (g (sget s f.a)))) s

/-- 1 when the condition holds, 0 otherwise (R358). -/
def flag64 (b : Bool) : W64 := if b then 1 else 0

/-- a[X] ← v (R374). -/
def arWord (i : Instr) (x : BitVec 4) (g : State → W64) (s : State) : Out :=
  runWord i (fun s => .done (aset s x (g s))) s

/-! ## Integer operations (R354, R355) -/

def mulhS (a b : W64) : W64 := BitVec.ofInt 64 (a.toInt * b.toInt / 2 ^ 64)
def mulhU (a b : W64) : W64 := BitVec.ofNat 64 (a.toNat * b.toNat / 2 ^ 64)

/-- DIVU (R355). -/
def divU (a b : W64) : W64 := if b = 0 then BitVec.allOnes 64 else BitVec.ofNat 64 (a.toNat / b.toNat)
/-- REMU (R355). -/
def remU (a b : W64) : W64 := if b = 0 then a else BitVec.ofNat 64 (a.toNat % b.toNat)
/-- DIV: truncation toward zero; −1 for a zero divisor; −2^63 / −1 wraps to −2^63 (R355). -/
def divS (a b : W64) : W64 := if b = 0 then BitVec.allOnes 64 else BitVec.ofInt 64 (a.toInt.tdiv b.toInt)
/-- REM: r = a − q·b; a for a zero divisor (R355). -/
def remS (a b : W64) : W64 := if b = 0 then a else BitVec.ofInt 64 (a.toInt.tmod b.toInt)

def shl64 (a b : W64) : W64 := a <<< (b.toNat % 64)
def shr64 (a b : W64) : W64 := a >>> (b.toNat % 64)
def sra64 (a b : W64) : W64 := a.sshiftRight (b.toNat % 64)

def minS (a b : W64) : W64 := if a.toInt ≤ b.toInt then a else b
def maxS (a b : W64) : W64 := if a.toInt ≤ b.toInt then b else a
def minU (a b : W64) : W64 := if a.toNat ≤ b.toNat then a else b
def maxU (a b : W64) : W64 := if a.toNat ≤ b.toNat then b else a

/-- Set bits among the low `n` of a number. -/
def popNat : Nat → Nat → Nat
  | 0, _ => 0
  | n + 1, v => v % 2 + popNat n (v / 2)
/-- Zero bits above the highest set bit, of `n` bits. -/
def clzNat (n v : Nat) : Nat := if v = 0 then n else n - 1 - Nat.log2 v
/-- Zero bits below the lowest set bit, of `n` bits; `n` for 0. -/
def ctzNat : Nat → Nat → Nat
  | 0, _ => 0
  | n + 1, v => if v % 2 = 1 then 0 else 1 + ctzNat n (v / 2)

def popc64 (a : W64) : W64 := BitVec.ofNat 64 (popNat 64 a.toNat)
def clz64 (a : W64) : W64 := BitVec.ofNat 64 (clzNat 64 a.toNat)
def ctz64 (a : W64) : W64 := BitVec.ofNat 64 (ctzNat 64 a.toNat)

/-- LIH: bits [63:40] replaced (R357). -/
def lihVal (imm : BitVec 40) (a : W64) : W64 := (imm.extractLsb' 0 24 ++ a.extractLsb' 0 40 : BitVec 64)

end Sys2Proof.Machine
end

