-- ==== Sys2Proof/Machine/Control.lean ====
section
/-!
DEFINITION. The words that steer the path: BLK, LOOP, PSW (R351-R353), branches, calls and returns (R359-R361), the
queue words of S (R362, R363), PRIO (R364), SLEEPNS (R366), RDLNC (R367).
-/

namespace Sys2Proof.Machine

/-- Word index of the word that executes. -/
def curWi (s : State) : Nat :=
  match s.focus with
  | .cls c e => (walkerOf (getCls s c) e).wi
  | .fw d => (getDie s d).fw.wi

/-- On a timetable processor, which has no queues, tags or path of R154, the word is retired without effect. -/
def clsOnly (s : State) (r : Res) : Res :=
  match s.focus with
  | .cls _ _ => r
  | .fw _ => .trap 0 0

/-! ## Common words -/

/-- A common word: every walker acts on it, nothing but SLIP and its operands holds it. -/
def runCommon (i : Instr) (act : State → Nat → Eng → State) (fwAct : State → Nat → State) (s : State) : Out :=
  match s.focus with
  | .fw d => .next (if (getDie s d).fw.running then fwAct s d else s)
  | .cls c e =>
    let k := getCls s c
    let w := walkerOf k e
    if !runnable s c || w.parked || w.atExit || !slipOk k e || (e == .s && asleep k) then .next s
    else .next (checked i s c e fun s => act s c e)

/-- BLK heads a block; it has no effect beyond its checks (R351). -/
def execBlk (h : Hdr) (f : FBK) (s : State) : Out :=
  runCommon (.blk h f)
    (fun s c e => modCls s c fun k => passTo k e (.blk h f) ((walkerOf k e).wi + 1))
    (fun s d => fwGo s d ((getDie s d).fw.wi + 1)) s

/-- A resolved LOOP at walker `e` (R172, R352): no pass for a count of 0, else the next counter takes the count. -/
def openLoop (k : ClassState) (e : Eng) (i : Instr) (len n : Nat) : ClassState :=
  let w := walkerOf k e
  if n = 0 then passTo k e i (w.wi + 1 + len)
  else passTo (setWalker k e { w with loops := ⟨w.wi + 1, w.wi + 1 + len, n, k.run⟩ :: w.loops }) e i (w.wi + 1)

/-- Register that holds a LOOP's count (RS = 1). -/
def loopReg (f : FLP) : BitVec 5 := f.count.extractLsb' 27 5

/-- LOOP at a walker: an immediate count is resolved when fetched, a register count when S executes it (R156). -/
def loopAct (h : Hdr) (f : FLP) (s : State) (c : Nat) (e : Eng) : State :=
  let k := getCls s c
  let w := walkerOf k e
  let i := Instr.loop h f
  if !f.rs then modCls s c fun k => openLoop k e i f.len.toNat f.count.toNat
  else if e = .s then
    if regsFree k w.ord i then
      let n := (sget s (loopReg f)).toNat
      modCls s c fun k => openLoop { k with resolved := (w.ord, n) :: k.resolved } e i f.len.toNat n
    else s
  else
    match k.resolved.find? fun r => r.1 = w.ord with
    | some r => modCls s c fun k => openLoop k e i f.len.toNat r.2
    | none => s

/-- LOOP on a timetable processor. -/
def loopFw (f : FLP) (s : State) (d : Nat) : State :=
  let n := if f.rs then (sget s (loopReg f)).toNat else f.count.toNat
  let w := (getDie s d).fw.wi
  if n = 0 then fwGo s d (w + 1 + f.len.toNat)
  else fwGo (modFw s d fun x => { x with loops := ⟨w + 1, w + 1 + f.len.toNat, n, 0⟩ :: x.loops }) d (w + 1)

/-- LOOP opens a hardware loop (R352). -/
def execLoop (h : Hdr) (f : FLP) (s : State) : Out := runCommon (.loop h f) (loopAct h f) (loopFw f) s

/-! ## Schedule switch (R35-R43, R353) -/

/-- Heavy-unit allowance of a power level (R31). -/
def allowance (level : Nat) : Nat :=
  match level with
  | 7 => 32 | 6 => 24 | 5 => 24 | 4 => 16 | 3 => 16 | 2 => 8 | 1 => 8 | _ => 4

/-- The schedule table of the node a class runs; with none declared, one variant with BUDGET 32 (R35). -/
def schedOf (s : State) (c : Nat) : List Byte :=
  match teamOf s c with
  | some t => (snapOf s t.inst t.node).sched
  | none => []
def schedSel (t : List Byte) (i : Nat) : Nat := if t.isEmpty then 0 else byteField t 8 8 / 4 ^ i % 4
def schedLowp (t : List Byte) (e : Nat) : Bool := !t.isEmpty && byteField t (16 + 8 * e) 8 / 64 % 2 == 1
def schedBudget (t : List Byte) (e : Nat) : Nat := if t.isEmpty then 32 else byteField t (16 + 8 * e) 8 % 64

/-- LOWP of the launch entry permits low-precision variants (R39, R67). -/
def lowpPermitted (s : State) (c : Nat) : Bool :=
  match teamOf s c with
  | some t => match instOf s t.inst with
    | some i => byteField i.entry 0 8 / 2 ^ 47 % 2 == 1
    | none => false
  | none => false

/-- The largest variant below `e` that is not LOWP. -/
def lowerVariant (t : List Byte) : Nat → Nat
  | 0 => 0
  | e + 1 => if schedLowp t e then lowerVariant t e else e

/-- The table's choice for the team's key (R39). -/
def chosen (s : State) (c : Nat) : Nat :=
  let k := getCls s c
  let t := schedOf s c
  let e := schedSel t (k.klvl.toNat * 4 + k.kbkt)
  if schedLowp t e && !lowpPermitted s c then lowerVariant t e else e

/-- HUB of a variant (R39, R40). -/
def hubOf (s : State) (c e : Nat) : Nat :=
  min (schedBudget (schedOf s c) e)
    (min (allowance (getCls s c).klvl.toNat) (desksOf s c).length)

/-- The class runs a paired partition. -/
def pairedOn (s : State) (c : Nat) : Bool := (getPart s (partOf s c)).paired

/-- A LOWP selection is counted for the completion status (R39, R71). -/
def countLowp (s : State) (c e : Nat) : State :=
  match teamOf s c with
  | some t => if schedLowp (schedOf s c) e then modInst s t.inst fun i => { i with lowp := true } else s
  | none => s

/-- Go to variant `e`: VSEL and HUB set, the path goes on at its BLK. -/
def takeVariant (f : FPW) (s : State) (c e : Nat) : Res :=
  let off := if e = 0 then f.t0 else if e = 1 then f.t1 else f.t2
  let hub := hubOf s c e
  let n := offsetWi (curWi s) off
  .jump (modCls (countLowp s c e) c fun k => { k with vsel := BitVec.ofNat 2 e, hub := hub }) n

/-- The node iteration that a class runs and its rank in it, as a selection is tagged (R43). -/
def selectionTag (s : State) (c : Nat) : Option IterTag :=
  (teamOf s c).map fun t => ⟨t.inst, t.node, t.ord, t.classes.idxOf c⟩

/-- The oldest selection received for the node iteration that a class runs. -/
def selectionFor (s : State) (c : Nat) : Option PairSel :=
  (selectionTag s c).bind fun g => s.pairSel.find? fun x => x.tag = g

/-- PSW's evaluation by the S walker (R39, R43): the master sends its selection with the node iteration and the PSW's ordinal;
a partner waits for it, from when it reached the PSW; one for another ordinal is a mismatch, which PAIR_SELECTION_TIMEOUT treats. -/
def pswBody (f : FPW) (s : State) : Res :=
  let c := focusCls s
  if pairedOn s c && !s.pairMaster then
    match selectionFor s c with
    | some x =>
      if x.ord = (getCls s c).ws.ord then
        takeVariant f (modCls { s with pairSel := s.pairSel.erase x } c fun k => { k with pswAt := none }) c x.e.toNat
      else .stop (modCls s c fun k => { k with pswAt := some (k.pswAt.getD s.ticks8) })
    | none => .stop (modCls s c fun k => { k with pswAt := some (k.pswAt.getD s.ticks8) })
  else
    let e := chosen s c
    let s := match (if pairedOn s c then selectionTag s c else none) with
      | some g => sendPair s 0x43 [g.inst, g.node, g.it, g.rank, (getCls s c).ws.ord, e]
      | none => s
    takeVariant f s c e

/-- PSW: the S walker evaluates it, the others follow (R353). -/
def execPsw (h : Hdr) (f : FPW) (s : State) : Out :=
  let i := Instr.psw h f
  runCommon i
    (fun s c e =>
      let k := getCls s c
      if e = .s then if k.hmode then doubleTrap s c .s 0x08 else finish s c .s i (pswBody f s)
      else match otherNext k e i with
        | some r => modCls s c fun k => passTo k e i r.2
        | none => s)
    (fun s d => fwGo s d ((getDie s d).fw.wi + 1)) s

/-! ## Branches (R359, R360) -/

/-- Taken goes to word index x + sext(OFF), not taken to the next word. -/
def branchIf (i : Instr) (f : FB) (cond : W64 → W64 → Bool) (s : State) : Out :=
  runWord i (fun s => if cond (sget s f.a) (sget s f.b) then .jump s (offsetWi (curWi s) f.off) else .done s) s

def execBr (h : Hdr) (f : FB) (s : State) : Out := branchIf (.br h f) f (fun _ _ => true) s
def execBz (h : Hdr) (f : FB) (s : State) : Out := branchIf (.bz h f) f (fun a _ => a == 0) s
def execBnz (h : Hdr) (f : FB) (s : State) : Out := branchIf (.bnz h f) f (fun a _ => a != 0) s
def execBeq (h : Hdr) (f : FB) (s : State) : Out := branchIf (.beq h f) f (fun a b => a == b) s
def execBne (h : Hdr) (f : FB) (s : State) : Out := branchIf (.bne h f) f (fun a b => a != b) s
def execBlt (h : Hdr) (f : FB) (s : State) : Out := branchIf (.blt h f) f (fun a b => a.slt b) s
def execBge (h : Hdr) (f : FB) (s : State) : Out := branchIf (.bge h f) f (fun a b => !a.slt b) s
def execBltu (h : Hdr) (f : FB) (s : State) : Out := branchIf (.bltu h f) f (fun a b => a.ult b) s
def execBgeu (h : Hdr) (f : FB) (s : State) : Out := branchIf (.bgeu h f) f (fun a b => !a.ult b) s

/-- A register target must be a word address, else the control-flow fault (R133, R359). -/
def jumpTo (s : State) (a : Nat) (r : State → Nat → Res) : Res :=
  if isWordAddr a then r s (wiOf a)
  else match s.focus with
    | .cls c _ => .stop (controlFlowFault s c (wordAddr (curWi s)) 0)
    | .fw _ => .done s

/-- BRR: to s[A] (R360). -/
def execBrr (h : Hdr) (f : FSR) (s : State) : Out :=
  runWord (.brr h f) (fun s => jumpTo s (sget s f.a).toNat .jump) s

/-- Pop the matching outcome from QB (R360). -/
def popQb (f : FB) (want : Bool) (s : State) : Res :=
  clsOnly s <|
    match (me s).qb with
    | [] => .stall
    | b :: r =>
      let s' := modMe s fun k => { k with qb := r, ws := { k.ws with qbSeen := k.ws.qbSeen + 1 } }
      if b == want then .jump s' (offsetWi (curWi s) f.off) else .done s'

def execBq (h : Hdr) (f : FB) (s : State) : Out := runWord (.bq h f) (popQb f true) s
def execBqn (h : Hdr) (f : FB) (s : State) : Out := runWord (.bqn h f) (popQb f false) s

/-! ## Calls and returns (R361) -/

/-- Return stack of whoever executes. -/
def rstackOf (s : State) : List Nat :=
  match s.focus with
  | .cls c e => (walkerOf (getCls s c) e).rstack
  | .fw d => (getDie s d).fw.rstack
def setRstack (s : State) (l : List Nat) : State :=
  match s.focus with
  | .cls c e => modWalker s c e fun w => { w with rstack := l }
  | .fw d => modFw s d fun x => { x with rstack := l }

/-- The control-flow fault of the S walker at its word; on a timetable processor nothing. -/
def cfFault (s : State) : Res :=
  match s.focus with
  | .cls c _ => .stop (controlFlowFault s c (wordAddr (curWi s)) 0)
  | .fw _ => .done s

/-- Push the next word and go; the 17th address is a control-flow fault. -/
def callTo (s : State) (n : Nat) : Res :=
  if (rstackOf s).length < 16 then .jump (setRstack s ((curWi s + 1) :: rstackOf s)) n else cfFault s

def execCall (h : Hdr) (f : FB) (s : State) : Out :=
  runWord (.call h f) (fun s => callTo s (offsetWi (curWi s) f.off)) s
def execCallr (h : Hdr) (f : FSR) (s : State) : Out :=
  runWord (.callr h f) (fun s => jumpTo s (sget s f.a).toNat callTo) s
/-- RET pops an address; an empty stack is a control-flow fault. -/
def execRet (h : Hdr) (s : State) : Out :=
  runWord (.ret h) (fun s =>
    match rstackOf s with
    | [] => cfFault s
    | n :: r => .jump (setRstack s r) n) s

/-! ## Queue words (R362, R363) -/

/-- Poison of a queue's elements after its head has gone. -/
def shiftPoison (s : State) (c q : Nat) : State :=
  { s with poison := s.poison.filterMap fun e =>
      match e.1 with
      | .queue c' q' n => if c' = c ∧ q' = q then (if n = 0 then none else some (.queue c q (n - 1), e.2)) else some e
      | .phys _ => some e | .tower _ _ _ => some e | .vreg _ _ _ _ => some e | .acc _ _ _ _ => some e
      | .mask _ _ _ _ => some e | .scratch _ _ => some e | .code _ _ => some e | .counter _ => some e }

/-- The head index of queue `q` of `n` entries after a pop (R274). -/
def headOn (k : ClassState) (q n : Nat) : ClassState := { k with qhead := tset 0 k.qhead q ((tget 0 k.qhead q + 1) % n) }

/-- QPOP: the head of QS into s[D]; a poisoned element is consumed (R130, R362). -/
def execQpop (h : Hdr) (f : FSR) (s : State) : Out :=
  runWord (.qpop h f) (fun s => clsOnly s <|
    let c := focusCls s
    match (me s).qs with
    | [] => .stall
    | v :: r =>
      match poisonAt s (.queue c 0 0) with
      | some kind => .stop (consumePoison s c .s kind (.queue c 0 0) 0)
      | none => .done (sset (shiftPoison (modMe s fun k => headOn { k with qs := r } 0 64) c 0) f.d v)) s

/-- FQPUSH: s[A] into QF (R363). -/
def execFqpush (h : Hdr) (f : FSR) (s : State) : Out :=
  runWord (.fqpush h f) (fun s => clsOnly s <|
    if (me s).qf.length < 16 then .done (modMe s fun k => { k with qf := k.qf ++ [sget s f.a] }) else .stall) s

/-! ## PRIO (R364, R115) -/

/-- Set a team's own class to the greater of `p` and PCEIL; what it borrows and lends follows (R115). -/
def setPrio (s : State) (c : Nat) (p : Nat) : State :=
  match teamOf s c with
  | none => s
  | some t =>
    let own := BitVec.ofNat 2 (max p (getCls s c).ceil.toNat)
    relend (publishPrio (modTeam s t.id fun t => { t with own := own }) t.id)

def execPrio (h : Hdr) (f : FSI) (s : State) : Out :=
  runWord (.prio h f) (fun s =>
    match s.focus with
    | .cls c _ => .done (setPrio s c f.imm.toNat)
    | .fw _ => .done s) s

/-! ## Time -/

/-- SLEEPNS: S issues nothing more until d ns have passed (R56-R58, R366). -/
def execSleepns (h : Hdr) (f : FSR) (s : State) : Out :=
  runWord (.sleepns h f) (fun s =>
    let d := (sget s f.a).toNat
    match s.focus with
    | .cls _ _ => if d = 0 then .done s else .async s [BitVec.ofNat 64 d] []
    | .fw b =>
      match (getDie s b).fw.sleepUntil with
      | none => .stop (modFw s b fun x => { x with sleepUntil := some (nowNs s + d) })
      | some t => if t ≤ nowNs s then .done (modFw s b fun x => { x with sleepUntil := none }) else .stall) s

/-- LNC of whoever executes: a timetable processor reads that of its die's local class 0 (log 12). -/
def myLnc (s : State) : W64 :=
  match s.focus with
  | .cls c _ => lnc s c
  | .fw d => lnc s (20 * d)

/-- RDLNC: in pair mode the LNC-read trap (R367). -/
def execRdlnc (h : Hdr) (f : FSR) (s : State) : Out :=
  runWord (.rdlnc h f) (fun s =>
    if pairedOn s (focusCls s) then .trap 0x06 0 else .done (sset s f.d (myLnc s))) s

end Sys2Proof.Machine
end

