-- ==== Sys2Proof/Machine/Flags.lean ====
section
/-!
DEFINITION. The sticky arithmetic flags (R300): SAT, IV, DZ, OF, UF, NX of each desk, and the control register AFLG.
-/

namespace Sys2Proof.Machine

/-- Flags of R300 in their bit order: [5] SAT, [4] IV, [3] DZ, [2] OF, [1] UF, [0] NX. -/
abbrev Fl := BitVec 6

def flNone : Fl := 0
def flSat : Fl := 0x20
def flIv : Fl := 0x10
def flDz : Fl := 0x08
def flOf : Fl := 0x04
def flUf : Fl := 0x02
def flNx : Fl := 0x01

/-- A flag when its condition holds. -/
def flIf (b : Bool) (f : Fl) : Fl := if b then f else 0

/-- A word on desk `d` sets flags; a flag stays set until it is cleared. -/
def orFlags (k : ClassState) (d : Nat) (f : Fl) : ClassState :=
  { k with aflg := tset 0 k.aflg d (tget 0 k.aflg d ||| f) }

/-- RDCSR of AFLG: the OR over the active desks. -/
def aflgRead (k : ClassState) (desks : List Nat) : W64 :=
  (desks.foldl (fun a d => a ||| tget 0 k.aflg d) (0 : Fl)).setWidth 64

/-- WRCSR of AFLG: each flag written as 1 is cleared on every desk. -/
def aflgWrite (k : ClassState) (v : W64) : ClassState :=
  let m : Fl := ~~~(v.setWidth 6)
  let t := (List.range 32).foldl (fun t d => tset 0 t d (tget 0 t d &&& m)) k.aflg
  { k with aflg := t }

/-- Every V and M word of lower text ordinal has completed (R295, R300). -/
def vmDone (k : ClassState) (ord : Nat) : Bool :=
  (olderOps k ord).all (fun f => f.eng != .v && f.eng != .m)
    && (olderPend k ord).all fun p => p.eng != .v && p.eng != .m

end Sys2Proof.Machine
end

