-- ==== Sys2Proof/Machine/Csr.lean ====
section
/-!
DEFINITION. Control registers (R151, R333, R368), sequencer scratch (R369).
-/

namespace Sys2Proof.Machine

/-! ## Refresh state a kernel reads (R181-R185) -/

/-- Greatest consumption of the towers in use, and the lowest-numbered tower that has it (R185). -/
def greatest (k : ClassState) : Nat × Nat :=
  (List.range 34).foldl (fun m t =>
    if (towersInUse k).contains t && (decide (m.1 < consOf k t)) then (consOf k t, t) else m)
    (consOf k ((towersInUse k).foldl min 33), (towersInUse k).foldl min 33)
/-- A forced pass is running on a tower in use (R185). -/
def frcOf (k : ClassState) : Bool := k.passes.any fun p => p.forced && (towersInUse k).contains p.tower

/-- RETB (R185). -/
def retb (k : ClassState) : W64 :=
  let g := greatest k
  let lim := if k.defer then k.lim.toNat else 1950000
  let rem := (lim * 256 - g.1) / 256
  (BitVec.ofBool k.defer ++ BitVec.ofBool (frcOf k) ++ 0#8 ++ BitVec.ofNat 6 g.2
    ++ (if k.defer then k.lim else 0#24) ++ BitVec.ofNat 24 rem : BitVec 64)

/-- PRIOC (R365). -/
def prioc (k : ClassState) : W64 := (k.ceil ++ k.own ++ k.eff : BitVec 6).setWidth 64

/-- PSTAT (R59): in pair mode every field but VSEL reads as zero. -/
def pstat (s : State) (c : Nat) : W64 :=
  let k := getCls s c
  if pairedOn s c then (k.vsel ++ 0#9 : BitVec 11).setWidth 64
  else (k.clks ++ BitVec.ofNat 6 k.hub ++ k.vsel ++ BitVec.ofNat 2 k.kbkt ++ k.klvl ++ BitVec.ofBool k.bal
    ++ BitVec.ofNat 3 s.grant : BitVec 21).setWidth 64

/-- lcj of the S walker: lc0 belongs to the outermost active loop; 0 with no active loop (R172). -/
def loopCounter (w : Walker) (j : Nat) : W64 :=
  match w.loops.reverse[j]? with
  | some l => BitVec.ofNat 64 l.cnt
  | none => 0

/-- What RDCSR returns (R368). -/
def csrRead (s : State) (c : Nat) (n : Nat) : W64 :=
  let k := getCls s c
  match n with
  | 0x00 => k.slip.setWidth 64
  | 0x01 => k.vl.setWidth 64
  | 0x02 => k.thnd
  | 0x03 => lnc s c
  | 0x04 => retb k
  | 0x05 => k.srseed
  | 0x06 => k.strict.setWidth 64
  | 0x07 => prioc k
  | 0x08 => pstat s c
  | 0x09 => aflgRead k (desksOf s c)
  | 0x0A => tcauseOf k
  | 0x0B => k.tinfo
  | 0x0C => loopCounter k.ws 0
  | 0x0D => loopCounter k.ws 1
  | _ => loopCounter k.ws 2

/-- SLIP.WORDS from a written value (R155). -/
def slipStore (v : W64) : BitVec 13 :=
  let w := v.extractLsb' 0 13
  if w = 0 then 1 else if 4096 < w.toNat then 4096 else w

/-- VL from a written value: rounded up to 64 bytes, 64 to 512 (R394). -/
def vlStore (v : W64) : BitVec 10 :=
  let w := (v.extractLsb' 0 10).toNat
  if w = 0 then 64 else if 512 < w then 512 else BitVec.ofNat 10 ((w + 63) / 64 * 64)

/-- Seed of desk `d` from SRSEED (R295). -/
def deskSeed (v : W64) (d : Nat) : W32 :=
  let st := v.extractLsb' 0 32 ^^^ (if v.getLsbD 32 then BitVec.ofNat 32 (d * 0x9E3779B9) else 0)
  if st = 0 then 1 else st

/-- Generators are listed where they differ from what SRSEED = 1 loads. -/
def genOf (k : ClassState) (d : Nat) : W32 := tget 1 k.srgen d
def loadSeeds (k : ClassState) (v : W64) : ClassState :=
  { k with srgen := (List.range 32).foldl (fun t d => tset 1 t d (deskSeed v d)) k.srgen }

/-- What WRCSR does; a register that is RO is left unchanged (R151, R368). A handler's write stands before every word of the
interrupted path that has not issued (R267, R335): what VL and STRICT held for such words ends with it. -/
def csrWrite (k : ClassState) (n : Nat) (v : W64) : ClassState :=
  match n with
  | 0x00 => { k with slip := slipStore v }
  | 0x01 => { k with vl := vlStore v, vlOld := if k.hmode then [] else (k.ws.ord, k.vl) :: k.vlOld }
  | 0x02 => { k with thnd := v }
  | 0x05 => loadSeeds { k with srseed := v &&& 0x1FFFFFFFF#64 } v
  | 0x06 => { k with strict := v.extractLsb' 0 2
                     strictOld := (k.run, k.ws.ord, k.strict)
                       :: if k.hmode then k.strictOld.filter fun x => x.1 == k.run else k.strictOld }
  | 0x09 => aflgWrite k v
  | _ => k

/-- RDCSR: LNC traps in pair mode; AFLG waits for older V and M words (R367, R368). A timetable processor has no
control registers: the value is free (log 12). -/
def execRdcsr (h : Hdr) (f : FSR) (s : State) : Out :=
  runWord (.rdcsr h f) (fun s =>
    match s.focus with
    | .fw _ => .done (bump (sset s f.d (freeVal s)))
    | .cls c _ =>
      if f.csr = 0x03 ∧ pairedOn s c then .trap 0x06 0
      else if f.csr = 0x09 ∧ !vmDone (getCls s c) (getCls s c).ws.ord then .stall
      else .done (sset s f.d (csrRead s c f.csr.toNat))) s

/-- WRCSR: SRSEED and AFLG wait for older V and M words (R295, R300, R368). -/
def execWrcsr (h : Hdr) (f : FSR) (s : State) : Out :=
  runWord (.wrcsr h f) (fun s =>
    match s.focus with
    | .fw _ => .done s
    | .cls c _ =>
      if (f.csr = 0x05 ∨ f.csr = 0x09) ∧ !vmDone (getCls s c) (getCls s c).ws.ord then .stall
      else .done (modCls s c fun k => csrWrite k f.csr.toNat (sget s f.a))) s

/-! ## Sequencer scratch (R369) -/

/-- Bytes of an SZ code. -/
def szBytes (sz : BitVec 2) : Nat := 2 ^ sz.toNat

/-- x = u(s[A]) + OFF, unbounded. -/
def scratchOff (s : State) (f : FSM) : Nat := (sget s f.a).toNat + f.off.toNat
def scratchOk (s : State) (f : FSM) : Bool :=
  decide (scratchOff s f + szBytes f.sz ≤ 65536) && scratchOff s f % szBytes f.sz == 0

/-- LDS: an aligned access below 64 KiB, else the segment fault before issue; a poisoned line is consumed. -/
def execLds (h : Hdr) (f : FSM) (s : State) : Out :=
  runWord (.lds h f) (fun s =>
    let x := scratchOff s f
    let n := szBytes f.sz
    if !scratchOk s f then .trap 0x02 (BitVec.ofNat 64 x)
    else
      let c := focusCls s
      match poisonAt s (.scratch c (x / 64)) with
      | some kind => .stop (consumePoison s c .s kind (.scratch c (x / 64)) 0)
      | none =>
        let v := readNat s (myScratch s + x) n
        .done (sset s f.d (if f.sx then sext64 (8 * n) v else BitVec.ofNat 64 v))) s

/-- STS: the low bytes of s[D]; never clears poison. -/
def execSts (h : Hdr) (f : FSM) (s : State) : Out :=
  runWord (.sts h f) (fun s =>
    let x := scratchOff s f
    let n := szBytes f.sz
    if !scratchOk s f then .trap 0x02 (BitVec.ofNat 64 x)
    else .done (writeNat s (myScratch s + x) n (sget s f.d).toNat)) s

end Sys2Proof.Machine
end

