-- ==== Sys2Proof/Machine/Records.lean ====
section
/-!
DEFINITION. Statistics records: contributions (R311, R314, R315), merges (R316), reads and changes (R318), scale (R319).
-/

namespace Sys2Proof.Machine

def getRec (s : State) (h : Nat) : Record := tget {} s.recs h
def setRec (s : State) (h : Nat) (r : Record) : State := { s with recs := tset {} s.recs h r }

/-- GEN + 1, wrapping from 2^32 − 1 to 1 (R309). -/
def nextGen (g : Nat) : Nat := if g = 2 ^ 32 - 1 then 1 else g + 1

/-- FP32 code without its sign; magnitudes of numbers compare as these codes. -/
def absBits (v : W32) : W32 := v &&& 0x7FFFFFFF
def isNan32 (v : W32) : Bool := decide (0x7F800000 < (absBits v).toNat)
def isInf32 (v : W32) : Bool := absBits v == 0x7F800000

/-- floor(log2 |v|) of a finite non-zero FP32 code, subnormals at their true exponent (R311). -/
def exp32 (v : W32) : Int :=
  let a := (absBits v).toNat
  if a < 2 ^ 23 then (Nat.log2 a : Int) - 149 else (a / 2 ^ 23 : Nat) - 127

/-- Bin of a contributed value (R311). -/
def binOf (v : W32) : Nat :=
  let a := (absBits v).toNat
  if a = 0 then 0
  else if 0x7F800000 ≤ a then 15
  else (max 1 (min 14 (8 + exp32 v / 4))).toNat

/-- One value into a partial. -/
def contribOne (p : Partial) (v : W32) : Partial :=
  { p with
    amax := if isNan32 v then p.amax else if (absBits v).toNat ≤ p.amax.toNat then p.amax else absBits v
    bins := p.bins.modify (binOf v) fun n => min (n + 1) (2 ^ 24 - 1)
    count := min (p.count + 1) (2 ^ 32 - 1) }

/-- A merge (R316). -/
def mergeRec (r : Record) (p : Partial) : Record :=
  { r with
    amax := if p.amax.toNat ≤ r.amax.toNat then r.amax else p.amax
    bins := (r.bins.zip p.bins).map fun e => min (e.1 + e.2) (2 ^ 24 - 1)
    count := min (r.count + p.count) (2 ^ 32 - 1)
    policy := if p.ovf then r.policy ||| 0x80000000 else r.policy
    gen := nextGen r.gen }

/-- A partial that holds no contribution is not merged (R315). -/
def mergePartial (s : State) (p : Partial) : State :=
  if p.count = 0 && !p.ovf then s else setRec s p.hdl (mergeRec (getRec s p.hdl) p)

/-- A class's partial of a record comes to the front; a ninth first merges the least recently used (R315). -/
def openPartial (s : State) (c h : Nat) : State :=
  let k := getCls s c
  match k.partials.find? fun p => p.hdl = h with
  | some p => modCls s c fun k => { k with partials := p :: k.partials.filter fun q => q.hdl ≠ h }
  | none =>
    let s := match k.partials.drop 7 with
      | [] => s
      | l => l.foldl mergePartial s
    modCls s c fun k => { k with partials := { hdl := h } :: k.partials.take 7 }

/-- Contribute values, as FP32 codes, and an OVF bit (R314, R320); with neither there is no contribution. -/
def contribute (s : State) (c h : Nat) (vs : List W32) (ovf : Bool) : State :=
  if vs.isEmpty && !ovf then s
  else
    modCls (openPartial s c h) c fun k =>
      { k with partials := k.partials.map fun p =>
          if p.hdl = h then { vs.foldl contribOne p with ovf := p.ovf || ovf } else p }

/-- Two partials of one record as one. -/
def joinPartial (a b : Partial) : Partial :=
  { hdl := a.hdl
    amax := if b.amax.toNat ≤ a.amax.toNat then a.amax else b.amax
    bins := (a.bins.zip b.bins).map fun e => min (e.1 + e.2) (2 ^ 24 - 1)
    count := min (a.count + b.count) (2 ^ 32 - 1)
    ovf := a.ovf || b.ovf }

/-- What a word has measured enters the class's partials, at its completion (R314). -/
def contributePartial (s : State) (c : Nat) (p : Partial) : State :=
  if p.count = 0 && !p.ovf then s
  else
    modCls (openPartial s c p.hdl) c fun k =>
      { k with partials := k.partials.map fun q => if q.hdl = p.hdl then joinPartial q p else q }

/-- A later release of the class finds what it sent before at its home (R317). -/
def landTransit (s : State) (c : Nat) : State :=
  ((s.transit.filter fun t => t.cls = c).map (·.part)).foldl mergePartial
    { s with transit := s.transit.filter fun t => t.cls ≠ c }

/-- The partials of a node that are on their way reach their homes (R237, R317). -/
def landNode (s : State) (inst node : Nat) : State :=
  let mine := fun (t : Transit) => t.inst == inst && t.node == node
  ((s.transit.filter mine).map (·.part)).foldl mergePartial { s with transit := s.transit.filter fun t => !mine t }

/-- Partials merge at a boundary (R260): those homed on the class's die or on the die of the release's counter before
the release is performed, the others on the way to their home. -/
def mergePartials (s : State) (c : Nat) (ctrDie : Option Nat) : State :=
  let ps := (getCls s c).partials.filter fun p => p.count ≠ 0 || p.ovf
  let now := fun (p : Partial) => decide (p.hdl / 4096 = dieOf c) || ctrDie == some (p.hdl / 4096)
  let s := (ps.filter now).foldl mergePartial s
  let at' := match teamOf s c with | some t => (t.inst, t.node) | none => (0, 0)
  let s := { s with transit := s.transit ++ (ps.filter fun p => !now p).map fun p => ⟨c, at'.1, at'.2, p⟩ }
  modCls s c fun k => { k with partials := [] }

/-- A merge on its way reaches its home (R260, R317). -/
def execRecordMerge (die idx c : Nat) (s : State) : Out :=
  match s.transit.find? fun t => t.cls = c && t.part.hdl = die * 4096 + idx with
  | none => .next s
  | some t => .next (mergePartial { s with transit := s.transit.erase t } t.part)

/-- The 64 bytes of a record as a number (R309). -/
def recNat (r : Record) : Nat :=
  r.amax.toNat + (r.bins.zipIdx).foldl (fun a e => a + e.1 * 2 ^ (32 + 24 * e.2)) 0
    + r.count * 2 ^ 416 + r.gen * 2 ^ 448 + r.policy.toNat * 2 ^ 480

/-- RZ bits of POLICY (R310) are discarded. -/
def policyMask (v : W64) : W32 := v.setWidth 32 &&& 0xFCFFF000

/-- A record handle is in the partition's range on its die (R312, R486): 13 bits, first index and count. -/
def recInRange (s : State) (part h : Nat) : Bool :=
  let a := partArg s part (4 + h / 4096)
  decide (h < 8192) && decide (a / 2 ^ 32 ≤ h % 4096) && decide (h % 4096 < a / 2 ^ 32 + a % 2 ^ 32)

/-- Handle check of a word of a class; a timetable processor reads any record (R458). -/
def recOk (s : State) (h : Nat) : Bool :=
  match s.focus with
  | .cls c _ => recInRange s (partOf s c) h
  | .fw _ => decide (h < 8192)

/-- Eight registers receive the record's bytes. -/
def recToRegs (s : State) (d : BitVec 5) (r : Record) : State :=
  (List.range 8).foldl (fun s j => sset s (d + BitVec.ofNat 5 j) (BitVec.ofNat 64 (recNat r / 2 ^ (64 * j)))) s

/-- The changes of the SRREAD forms (R318). -/
def srKeep (r : Record) (_ : W64) : Record := r
def srPol (r : Record) (v : W64) : Record := { r with policy := policyMask v, gen := nextGen r.gen }
def srClr (r : Record) (v : W64) : Record := { policy := policyMask v, gen := nextGen r.gen }

/-- An SRREAD form (R318, R455): its request goes to the record's home; a timetable processor has it performed as it executes the
word. -/
def srRead (i : Instr) (f : FSR) (change : Record → W64 → Record) (s : State) : Out :=
  runWord i (fun s =>
    let h := (sget s f.a).toNat
    if !recOk s h then .trap 0x02 (sget s f.a)
    else match s.focus with
      | .cls _ _ => .async s [sget s f.a, sget s f.b] []
      | .fw _ =>
        let r := getRec s h
        .done (recToRegs (setRec s h (change r (sget s f.b))) f.d r)) s

def execSrread (h : Hdr) (f : FSR) (s : State) : Out := srRead (.srread h f) f srKeep s
def execSrreadPol (h : Hdr) (f : FSR) (s : State) : Out := srRead (.srreadPol h f) f srPol s
def execSrreadClr (h : Hdr) (f : FSR) (s : State) : Out := srRead (.srreadClr h f) f srClr s

/-! ## Scale (R319) -/

/-- Exponent of the least power of two that is at least `amax / mt`, for a finite non-zero FP32 `amax`: exact. -/
def ceilLog2Ratio (amax : W32) (mt : Nat) : Int :=
  -- |amax| = m · 2^p
  let a := (absBits amax).toNat
  let m := if a < 2 ^ 23 then a else a % 2 ^ 23 + 2 ^ 23
  let p : Int := if a < 2 ^ 23 then -149 else (a / 2 ^ 23 : Nat) - 150
  -- least e with m · 2^p ≤ mt · 2^e
  let guess : Int := (Nat.log2 m : Int) + p - (Nat.log2 mt : Int)
  let le := fun (e : Int) => if 0 ≤ p - e then decide (m * 2 ^ (p - e).toNat ≤ mt) else decide (m ≤ mt * 2 ^ (e - p).toNat)
  if le (guess - 1) then guess - 1 else if le guess then guess else guess + 1

/-- Scale exponent E of a record for a target with largest element `mt` (R319). -/
def scaleExp (r : Record) (mt : Nat) : Int :=
  let margin : Nat := (r.policy.extractLsb' 12 4).toNat
  let e : Int :=
    if r.policy.getLsbD 29 then (r.policy.extractLsb' 16 8).toInt
    else if r.amax = 0 then 0
    else if isInf32 r.amax then 127
    else ceilLog2Ratio r.amax mt + margin
  max (-126) (min 127 e)

end Sys2Proof.Machine
end

