-- ==== Sys2Proof/Machine/Sync.lean ====
section
/-!
DEFINITION. Counters, barriers, fences and phases (R237-R258, R440-R452), the software trap and the return from a
handler (R456, R457), and the events that carry their requests.
-/

namespace Sys2Proof.Machine

/-! ## Releases and acquires (R237-R242) -/

/-- The word stands before the release at `upto`; a word of another team does (R238). -/
def wordBefore (x upto : WordId) : Bool := x.team != upto.team || before x.run x.ord x.id upto.run upto.ord upto.id

/-- A pending staged write of class `c` that a release publishes: of the words before it, all of them where `upto` is none. What a
counted transfer wrote waits for the transfer's own add (R242, R258). -/
def published (c : Nat) (upto : Option WordId) (w : Staged) : Bool :=
  w.cls == c && w.epoch.isNone && !w.counted && match upto, w.word with
    | some u, some x => wordBefore x u
    | _, _ => true

/-- The staged writes that `pick` chooses become versions of the next epoch; of two of one byte the newer, which stands first
(R242, R244). -/
def publishNode (n : Node) (pick : Staged → Bool) : Node :=
  let e := n.epoch + 1
  { n with epoch := e
           staged := n.staged.foldr (fun w l =>
             if pick w then { w with epoch := some e } :: l.filter fun x => !(x.pa == w.pa && x.epoch == some e) else w :: l) [] }

/-- The identity of an issued word of class `c`. -/
def wordId (s : State) (c : Nat) (f : InFlight) : WordId :=
  ⟨match teamOf s c with | some t => t.id | none => 0, f.run, f.ord, f.id⟩

/-- What a release of a scope does when it is performed (R240, R242, R260, R317): partials merge at team scope or wider, at
node scope or wider the publication point gives the next epoch. -/
def doRelease (s : State) (c scope : Nat) (upto : Option WordId) (ctrDie : Option Nat) : State :=
  let s := landTransit s c
  let s := if 1 ≤ scope then mergePartials s c ctrDie else s
  if 2 ≤ scope then
    match teamOf s c with
    | some t => modNode s t.inst t.node fun n => publishNode n (published c upto)
    | none => s
  else s

/-- An acquire of node scope or wider takes the node epoch as the class's recorded epoch (R242). -/
def doAcquire (s : State) (c scope : Nat) : State :=
  if 2 ≤ scope then
    match teamOf s c with
    | some t => modNode s t.inst t.node fun n => { n with recorded := tset 0 n.recorded c n.epoch }
    | none => s
  else s

/-! ## Handles (R252, R440) -/

/-- The handle lies in the partition's range on its die (R60, R486). -/
def ctrInRange (s : State) (part h : Nat) : Bool :=
  let a := partArg s part (2 + h / 2 ^ 24)
  decide (h < 2 ^ 25) && decide (a / 2 ^ 32 ≤ h) && decide (h < a / 2 ^ 32 + a % 2 ^ 32)

/-- Check of a word: a class needs its partition's range; a timetable processor any counter (R458). -/
def handleOk (s : State) (h : Nat) : Bool :=
  match s.focus with
  | .cls c _ => ctrInRange s (partOf s c) h
  | .fw _ => decide (h < 2 ^ 25)

/-- Home die of a counter. -/
def ctrDie (h : Nat) : Nat := h / 2 ^ 24 % 2

/-! ## Waiting words -/

/-- The barrier's round of an arrival count (R449). -/
def roundOf (size n : Nat) : Nat := (n + size - 1) / size

/-- The rounds of a barrier for a team size are followed from now on. -/
def followBarrier (s : State) (h size : Nat) : State :=
  match barrierOf s h size with
  | some _ => s
  | none => { s with barriers := { handle := h, size := size } :: s.barriers }

/-- TB's extra condition of a BWAIT (R449), and the round whose key it takes: the round of the class's latest arrival,
or without one the first round completed after the test reached the engine (rounds then done in `prog` − 1). -/
def tbRound (s : State) (c : Nat) (f : InFlight) : Option Nat :=
  let k := getCls s c
  let n := teamSize s c
  let want := if k.region == some (BitVec.ofNat 64 (op0 f 0)) then
      (if k.regionCount = 0 then none else some (roundOf n k.regionCount))
    else some f.prog
  match want with
  | some r => if r ≤ ctrGet s (op0 f 0) / n then some r else none
  | none => none

/-- The condition of a word that waits (R257, R442, R443, R449). -/
def waitCond (s : State) (c : Nat) (f : InFlight) : Bool :=
  match f.instr with
  | .cwait _ g => waitMet s (op0 f 0) (op0 f 1) (bit21 g)
  | .cwaitT _ g => waitMet s (op0 f 0) (op0 f 1) (bit21 g)
  | .bwait _ g =>
    decide (op0 f 1 ≤ ctrGet s (op0 f 0))
      && decide ((ctrGet s (op0 f 0 + 1) % 2 ^ 40 + 2 ^ 40 - op0 f 2) % 2 ^ 40 < 2 ^ 39)
      && (!bit21 g || (tbRound s c f).isSome)
  | _ => false

/-! ## Satisfying waits (R253) -/

/-- The wait is satisfied: an acquire of its scope, its result written, the word complete. -/
def satisfy (s : State) (c : Nat) (f : InFlight) : State :=
  match f.instr with
  | .cwait _ g =>
    let v := if bit21 g then ctrGet s (op0 f 0) % 2 ^ 40 else ctrGet s (op0 f 0)
    land (doAcquire s c g.scope.toNat) c f [(g.d.toNat, BitVec.ofNat 64 v)]
  | .cwaitT _ g => land (doAcquire s c g.scope.toNat) c f [(g.d.toNat, 0)]
  | .bwait _ g =>
    let f := { f with prog := if bit21 g then (tbRound s c f).getD 0 else 0 }
    relendIf (g.imm.getLsbD 20) (land (doAcquire s c g.scope.toNat) c f [])
  | _ => s

/-- The word waits on counter `h`. -/
def waitsOn (f : InFlight) (h : Nat) : Bool :=
  isWaiting f && (op0 f 0 == h || match f.instr with
    | .bwait _ _ => op0 f 0 + 1 == h
    | _ => false)

/-- The waiting records of the launch queues on counter `h` (R68). -/
def reevalQueues (s : State) (h : Nat) : State :=
  if s.parts.any fun p => p.queues.any fun x => x.waits.any fun w => w.1 == h then
    { s with parts := s.parts.map fun p => { p with queues := p.queues.map fun x => match x.waits with
        | some (a, v, m) => if a = h then { x with waits := some (a, v, m || decide (v ≤ ctrGet s h)) } else x
        | none => x } }
  else s

/-- The waiting records of the timetable processors on counter `h`, one that a live update has stopped among them (R458). -/
def reevalFw (s : State) (h : Nat) : State :=
  let go := fun (w : FwWait) => if w.hdl = h ∧ w.met = none ∧ waitMet s h w.val w.byt then { w with met := some (ctrGet s h) } else w
  { s with dies := s.dies.map fun d => { d with fw := { d.fw with
      wait := d.fw.wait.map go, previous := d.fw.previous.map fun p => { p with wait := p.wait.map go } } } }

/-- A node's wait edge is satisfied by the counter as it stands (R105). -/
def edgeMet (s : State) (h0 : Nat) (w : Nat × Nat) : Bool := !edgeOn w.1 || decide (w.2 ≤ ctrGet s (edgeHandle h0 w.1))

/-- The waiting records of launches and wait edges on counter `h`: a satisfied wait stays satisfied (R68, R105). -/
def reevalEdges (s : State) (h : Nat) : State :=
  if s.insts.isEmpty then s
  else
    { s with insts := s.insts.map fun i =>
        { i with
          sctrMet := i.sctrMet || (decide (entSctr i.entry = h) && decide (entSval i.entry ≤ ctrGet s h))
          nodes := (i.nodes.zipIdx).map fun e =>
            let w := recWait (i.snaps.getD e.2 default).record
            { e.1 with met := e.1.met || (decide (edgeHandle i.h0 w.1 = h) && edgeMet s i.h0 w) } } }

/-- Every add re-evaluates every waiting record of the counter in the same step (R253). -/
def reeval (s : State) (h : Nat) : State :=
  (List.range 40).foldl (fun s c =>
    ((getCls s c).inflight.filter fun f => waitsOn f h).foldl (fun s f =>
      if waitCond s c f then satisfy s c f else s) s) (reevalEdges (reevalFw (reevalQueues s h) h) h)

/-- Bucket of an imbalance (R38): I = (max − min) / max against 1/16, 1/8, 1/4. -/
def bucketOf (ds : List Nat) : Nat :=
  if ds.length < 2 then 0
  else
    let mx := ds.foldl max 0
    let mn := ds.foldl min mx
    let d := mx - mn
    if d * 16 < mx ∨ mx = 0 then 0 else if d * 8 < mx then 1 else if d * 4 < mx then 2 else 3

/-- The rounds that an add from `o` to `n` completes get their keys (R449). -/
def closeRounds (s : State) (h o n : Nat) : State :=
  { s with barriers := s.barriers.map fun b =>
      if b.handle = h then
        { b with keys := ((List.range' (o / b.size + 1) (n / b.size - o / b.size)).map fun r =>
            (r, BitVec.ofNat 3 s.grant, bucketOf ((b.durs.filter fun d => d.1 = r).map (·.2)))) ++ b.keys }
      else b }

/-- Raise a counter, re-evaluating its waits; none when the ordinary form would overflow (R253, R255, R441, R442). -/
def ctrAdd (s : State) (h v : Nat) (byt : Bool) : Option State :=
  let o := ctrGet s h
  if byt then
    let n := (o + v) % 2 ^ 40
    some (reeval (closeRounds (ctrSet s h n) h o n) h)
  else if 2 ^ 64 ≤ o + v then none
  else some (reeval (closeRounds (ctrSet s h (o + v)) h o (o + v)) h)

/-! ## Words -/

/-- CADD, CADDI on a timetable processor: an add of device scope, any counter (R458). -/
def fwAdd (s : State) (h v : Nat) (byt : Bool) : Res := .done ((ctrAdd s h v byt).getD s)

/-- A word that sends a request to a synchronisation engine: the handle is checked before issue (R440). -/
def sendCtr (s : State) (h : W64) (even : Bool) (ops : List W64) (fw : Res) : Res :=
  if !handleOk s h.toNat || (even && h.getLsbD 0) then .trap 0x02 h
  else match s.focus with
    | .cls _ _ => .async s ops []
    | .fw _ => fw

def execCadd (h : Hdr) (f : FCN) (s : State) : Out :=
  runWord (.cadd h f) (fun s =>
    sendCtr s (sget s f.h) false [sget s f.h, sget s f.v]
      (fwAdd s (sget s f.h).toNat (sget s f.v).toNat (bit21 f))) s

def execCaddi (h : Hdr) (f : FCN) (s : State) : Out :=
  runWord (.caddi h f) (fun s =>
    sendCtr s (sget s f.h) false [sget s f.h, f.imm.setWidth 64]
      (fwAdd s (sget s f.h).toNat f.imm.toNat false)) s

/-- The value a read or a satisfied wait returns. -/
def ctrValue (s : State) (h : Nat) (byt : Bool) : W64 :=
  BitVec.ofNat 64 (if byt then ctrGet s h % 2 ^ 40 else ctrGet s h)

/-- A wait of a timetable processor (R253, R458): tested as it arrives, else a waiting record that every add re-evaluates; a wait
of 0 ns is that one test (R444). `hit` is what a satisfied wait writes, from the counter's value at that step. -/
def fwWait (s : State) (f : FCN) (until_ : Option Nat) (hit : Nat → W64) : Res :=
  match s.focus with
  | .cls _ _ => .stall
  | .fw b =>
    let n := (sget s f.h).toNat
    let clear := modFw s b fun x => { x with wait := none, sleepUntil := none }
    match (getDie s b).fw.wait with
    | none =>
      if waitMet s n (sget s f.v).toNat (bit21 f) then .done (sset s f.d (hit (ctrGet s n)))
      else if until_ = some (nowNs s) then .done (sset s f.d 1)
      else .stop (modFw s b fun x => { x with wait := some ⟨n, (sget s f.v).toNat, bit21 f, none⟩, sleepUntil := until_ })
    | some w =>
      match w.met with
      | some x => .done (sset clear f.d (hit x))
      | none =>
        match (getDie s b).fw.sleepUntil with
        | some t => if t ≤ nowNs s then .done (sset clear f.d 1) else .stall
        | none => .stall

def execCwait (h : Hdr) (f : FCN) (s : State) : Out :=
  runWord (.cwait h f) (fun s =>
    sendCtr s (sget s f.h) false [sget s f.h, sget s f.v]
      (fwWait s f none fun x => BitVec.ofNat 64 (if bit21 f then x % 2 ^ 40 else x))) s

def execCwaitT (h : Hdr) (f : FCN) (s : State) : Out :=
  runWord (.cwaitT h f) (fun s =>
    sendCtr s (sget s f.h) false [sget s f.h, sget s f.v, sget s f.t]
      (fwWait s f (some (nowNs s + (sget s f.t).toNat)) fun _ => 0)) s

def execCread (h : Hdr) (f : FCN) (s : State) : Out :=
  runWord (.cread h f) (fun s =>
    sendCtr s (sget s f.h) false [sget s f.h] (.done (sset s f.d (ctrValue s (sget s f.h).toNat (bit21 f))))) s

/-- The member's duration D at a BARRIVE.tb (R38, R449): from the latest of the three points. -/
def duration (s : State) (c : Nat) : W64 :=
  let k := getCls s c
  let base := max k.lncStart.toNat (max k.lncResume.toNat (match k.lncBar with | some x => x.toNat | none => 0))
  BitVec.ofNat 64 ((lnc s c).toNat - base)

/-- BARRIVE opens the class's barrier region on its handle (R446); a region already open closes without an acquire. -/
def execBarrive (h : Hdr) (f : FCN) (s : State) : Out :=
  runWord (.barrive h f) (fun s => clsOnly s <|
    let b := sget s f.h
    let ops := if bit21 f then [b, duration s (focusCls s)] else [b]
    sendCtr (modMe s fun k => if handleOk s b.toNat && !b.getLsbD 0 then { k with region := some b, regionCount := 0, regionOp := k.nextId } else k)
      b true ops .stall) s

/-- BEXP sets the byte expectation E (R447). -/
def execBexp (h : Hdr) (f : FCN) (s : State) : Out :=
  runWord (.bexp h f) (fun s => clsOnly s <|
    .done (modMe s fun k => { k with bexp := BitVec.ofNat 40 ((sget s f.v).toNat + f.imm.toNat) })) s

def execBwait (h : Hdr) (f : FCN) (s : State) : Out :=
  runWord (.bwait h f) (fun s => clsOnly s <|
    sendCtr s (sget s f.h) true [sget s f.h, sget s f.v, (me s).bexp.setWidth 64] .stall) s

/-- FENCE places its markers (R251, R451). -/
def execFence (h : Hdr) (f : FCN) (s : State) : Out :=
  runWord (.fence h f) (fun s => clsOnly s <| .done (modMe s fun k => noteFence k .s (.fence h f))) s

/-- Every marker of lower ordinal has reached the head of its queue (R451). -/
def joinReady (k : ClassState) : Bool :=
  k.fences.all fun m => !before m.run m.ord m.id k.run k.ws.ord k.nextId
    || (List.range 3).all fun q => !m.qset.getLsbD q || !queueBusy k q m.run m.ord m.id

/-- JOIN stops every walker until the markers have reached their heads. -/
def execJoin (h : Hdr) (s : State) : Out :=
  runWord (.join h) (fun s => clsOnly s <|
    let k := me s
    if joinReady k then
      .done (modMe s fun k => { k with fences := k.fences.filter fun m => !before m.run m.ord m.id k.run k.ws.ord k.nextId })
    else .stall) s

/-- Every word of lower ordinal than the S walker's position has completed, but for counted transfers (R238, R258). -/
def allOlderDone (k : ClassState) : Bool :=
  (olderOps k k.ws.ord).all (fun f => isCounted f.instr) && (olderPend k k.ws.ord).all fun p => isCounted p.instr

/-- PHASE: at node scope or wider an epoch request goes to the publication point; at class or team scope it is
performed once every older word has completed (R452). -/
def execPhase (h : Hdr) (f : FCN) (s : State) : Out :=
  runWord (.phase h f) (fun s => clsOnly s <|
    let c := focusCls s
    if 2 ≤ f.scope.toNat then .async s [] []
    else if allOlderDone (me s) then .done (doRelease s c f.scope.toNat none none) else .stall) s

/-! ## Traps and returns -/

/-- TRAP raises the software trap at its completion: the walkers go on past it (R269, R456). -/
def execTrap (h : Hdr) (f : FSI) (s : State) : Out :=
  runWord (.trap h f) (fun s =>
    match s.focus with
    | .fw _ => .done s
    | .cls c e =>
      let k := getCls s c
      let b := blockStep k (.trap h f)
      let ord := k.ws.ord
      let s := finishDone s c e (.trap h f) (k.ws.wi + 1)
      let s := match b with
        | .ok b => modCls s c fun k => { k with block := some b }
        | .error _ => s
      .stop (enterTrap s c 0x07 (some .s) ord (f.imm.setWidth 64))) s

/-- RETT ends handler mode once A and X have reached it (R269, R335); elsewhere a no-operation (R457). -/
def execRett (h : Hdr) (f : FSI) (s : State) : Out :=
  runWord (.rett h f) (fun s =>
    match s.focus with
    | .fw _ => .done s
    | .cls c _ =>
      let k := getCls s c
      if !k.hmode then .done s
      else if k.wa.ord = k.ws.ord ∧ k.wx.ord = k.ws.ord then
        .stop (returnTrap (modCls s c fun k => tagsDone (unpend k .s) .s h) c (f.imm = 1))
      else .stall) s

/-! ## Requests at their home engine -/

/-- A release's add: the release, then the add as one step, then the word's answer; an overflow fails the node, code 0x27
(R255, R441). -/
def releaseAdd (s : State) (c : Nat) (f : InFlight) (scope h v : Nat) (byt : Bool) : State :=
  let s := doRelease s c scope (some (wordId s c f)) (some (ctrDie h))
  match ctrAdd s h v byt with
  | some s' => land s' c f []
  | none => failOpen (systemCause s c 0x27 0 f.ord (BitVec.ofNat 64 h)) c

/-- BARRIVE's count and, with TB, its duration enter the barrier before the add closes rounds (R449). -/
def noteArrival (s : State) (c h : Nat) (dur : Option Nat) : State :=
  let n := ctrGet s h + 1
  let s := followBarrier s h (teamSize s c)
  { s with barriers := s.barriers.map fun b =>
      if b.handle = h then
        match dur with
        | some d => { b with durs := (roundOf b.size n, d) :: b.durs }
        | none => b
      else b }

/-- A wait's request reaches the engine and is acknowledged: satisfied at once, or a waiting record is kept (R141, R253). -/
def arriveWait (s : State) (c : Nat) (f : InFlight) (lend : Bool) : State :=
  let r := ctrGet s (op0 f 0) / teamSize s c + 1
  let f' := match f.instr with
    | .bwait _ _ => { f with prog := r }
    | _ => { f with prog := 1 }
  let f' := markDone { f' with status := if f.status == .cancelling then .cancelling else .waiting } 0
  let s := modOp s c f.id fun _ => f'
  if waitCond s c f' then satisfy s c f' else relendIf lend s

/-- A timed wait of 0 ns is a single test as its request arrives (R444). -/
def testOnce (s : State) (c : Nat) (f : InFlight) (g : FCN) : State :=
  if waitCond s c f then satisfy s c f else land s c f [(g.d.toNat, 1)]

/-- The counters that a request reads or adds to; a poisoned one is consumed (R130). -/
def ctrPoison (s : State) (f : InFlight) : Option (PUnit × Bool) :=
  if s.poison.isEmpty then none
  else
    let one := fun (h : Nat) => (poisonAt s (.counter h)).map fun k => (PUnit.counter h, k)
    match f.instr with
    | .bwait _ _ => (one (op0 f 0)).or (one (op0 f 0 + 1))
    | .srread _ _ => none
    | .srreadPol _ _ => none
    | .srreadClr _ _ => none
    | .phase _ _ => none
    | _ => one (op0 f 0)

/-- What an SRREAD form does at its record's home (R316, R318, R455): the change, and the registers that take the bytes as they
stood. -/
def srAnswer (s : State) (f : InFlight) (g : FSR) (change : Record → W64 → Record) : State × List (Nat × W64) :=
  let h := op0 f 0
  let r := getRec s h
  (setRec s h (change r (f.ops.getD 1 0)),
   (List.range 8).map fun j => ((g.d + BitVec.ofNat 5 j).toNat, BitVec.ofNat 64 (recNat r / 2 ^ (64 * j))))

/-- An SRREAD form is performed and its bytes land. -/
def srPerform (s : State) (c : Nat) (f : InFlight) (g : FSR) (change : Record → W64 → Record) : State :=
  let r := srAnswer s f g change
  land r.1 c f r.2

/-- What a request of an issued word does at its home engine (R253, R440, R455). -/
def counterRequest (s : State) (c : Nat) (f : InFlight) : State :=
  match f.instr with
  | .cadd _ g => releaseAdd s c f g.scope.toNat (op0 f 0) (op0 f 1) (bit21 g)
  | .caddi _ g => releaseAdd s c f g.scope.toNat (op0 f 0) (op0 f 1) false
  | .barrive _ g =>
    let s := noteArrival s c (op0 f 0) (if bit21 g then some (op0 f 1) else none)
    let n := ctrGet s (op0 f 0) + 1
    -- the class's latest arrival is this one while its open region is the one that this BARRIVE opened
    let s := modCls s c fun k => if k.region == f.ops[0]? && k.regionOp == f.id then { k with regionCount := n } else k
    releaseAdd s c f g.scope.toNat (op0 f 0) 1 false
  | .cread _ g => land s c f [(g.d.toNat, ctrValue s (op0 f 0) (bit21 g))]
  | .cwait _ _ => arriveWait s c f false
  | .cwaitT _ g => if f.ops.getD 2 0 = 0 then testOnce s c f g else arriveWait s c f false
  | .bwait _ g =>
    arriveWait (if bit21 g then followBarrier s (op0 f 0) (teamSize s c) else s) c f (g.imm.getLsbD 20)
  | .srread _ g => srPerform s c f g srKeep
  | .srreadPol _ g => srPerform s c f g srPol
  | .srreadClr _ g => srPerform s c f g srClr
  | _ => s

/-- The word's request has not been performed yet. -/
def requestOpen (f : InFlight) : Bool := f.status == .issued || (f.status == .cancelling && f.prog == 0)

/-- COUNTER_REQUEST_ARRIVAL: a request of QY is performed at its home engine; one that the class's router performed while its team
was saved is acknowledged to the word that has come back (R280). -/
def execCounterRequestArrival (c id : Nat) (s : State) : Out :=
  match findOp s c id with
  | none => .next s
  | some f =>
    if queueOf f.instr != some 2 then .next s
    else if (reqOf f 0).done && f.status == .answered && f.held.isNone then .next (complete s c f)
    else if !arrives s c f 0 || !requestOpen f then .next s
    else
      match ctrPoison s f with
      | some x => .next (consumePoison s c .s x.2 x.1 0)
      | none => .next (counterRequest s c f)

/-- WAIT_CANCEL_ARRIVAL: the cancel of a timed wait reaches the engine before an add satisfied it (R254): timeout
status, no acquire. -/
def execWaitCancelArrival (c id : Nat) (s : State) : Out :=
  match findOp s c id with
  | none => .next s
  | some f =>
    match f.instr with
    | .cwaitT _ g =>
      if f.status == .cancelling ∧ f.prog = 1 then .next (land s c f [(g.d.toNat, 1)]) else .next s
    | _ => .next s

/-- A reference tick takes 8 ns of class clock from every countdown (R56, R57); a stopped clock's island takes the same. -/
def countDown (k : ClassState) : ClassState :=
  if k.inflight.any fun f => f.rem != 0 then
    { k with inflight := k.inflight.map fun f => { f with rem := f.rem - clockCk k.clks } }
  else k

/-- The countdown reaches zero before the next reference tick (R56; log 7). -/
def countEnds (k : ClassState) (f : InFlight) : Bool := decide (f.rem < clockCk k.clks)

/-- The wait's countdown still decides: a satisfied wait or one that has expired has no further use of it (R254). -/
def timing (f : InFlight) : Bool :=
  match f.instr with
  | .sleepns _ _ => true
  | .cwaitT _ _ => f.status == .issued || f.status == .waiting
  | _ => false

/-- NANOSECOND_WAIT_EXPIRY: a SLEEPNS ends, a CWAIT.T sends its cancel, when its countdown reaches zero (R56, R254). -/
def execNanosecondWaitExpiry (c : Nat) (s : State) : Out :=
  match (getCls s c).inflight.find? fun f => timing f && countEnds (getCls s c) f with
  | none => .next s
  | some f =>
    match f.instr with
    | .sleepns _ _ => .next (complete s c f)
    | _ => .next (modOp s c f.id fun f => { f with status := .cancelling })

/-- EPOCH_REQUEST: a PHASE's epoch at the publication point, release and acquire as one event (R242, R452). -/
def execEpochRequest (c id : Nat) (s : State) : Out :=
  match findOp s c id with
  | none => .next s
  | some f =>
    match f.instr with
    | .phase _ g =>
      if f.status == .issued && (queueOf f.instr).isSome && arrives s c f 0 then
        .next (land (doAcquire (doRelease s c g.scope.toNat (some (wordId s c f)) none) c g.scope.toNat) c f [])
      else .next s
    | _ => .next s

end Sys2Proof.Machine
end

