-- ==== Sys2Proof/Machine/Num.lean ====
section
/-!
DEFINITION. Numbers (R284-R308): the value of a code, exact sums and products, one rounding into a format, conversions
to and from integers, reciprocals and powers of two at 16 significant bits. All of it is over natural numbers and
integers; nothing is approximated but where a result is irrational.
-/

namespace Sys2Proof.Machine

/-! ## Formats (R285, R287, R288) -/

/-- What the codes of the largest exponent mean: infinity and NaNs, one NaN only, or plain numbers. -/
inductive FmtKind where
  | ieee | nanOnly | plain
  deriving DecidableEq, Repr

/-- A floating-point format: exponent bits, mantissa bits, bias. -/
structure Fmt where
  ebits : Nat
  mbits : Nat
  bias : Nat
  kind : FmtKind
  deriving DecidableEq, Repr

def fF32 : Fmt := ⟨8, 23, 127, .ieee⟩
def fF16 : Fmt := ⟨5, 10, 15, .ieee⟩
def fBf16 : Fmt := ⟨8, 7, 127, .ieee⟩
def fE4m3 : Fmt := ⟨4, 3, 7, .nanOnly⟩
def fE5m2 : Fmt := ⟨5, 2, 15, .ieee⟩
def fE2m1 : Fmt := ⟨2, 1, 1, .plain⟩
/-- A block scale, as a magnitude (R288). -/
def fE3m5 : Fmt := ⟨3, 5, 4, .plain⟩

/-- The format of a floating TYPE code (R332). -/
def fmtOf (t : BitVec 5) : Fmt :=
  match t.toNat with
  | 9 => fF16
  | 10 => fBf16
  | 11 => fE4m3
  | 12 => fE5m2
  | 14 => fE4m3
  | 15 => fE5m2
  | 13 => fE2m1
  | 16 => fE2m1
  | _ => fF32

/-- Bits without the sign. -/
def Fmt.mag (f : Fmt) : Nat := f.ebits + f.mbits
/-- Code of the largest finite magnitude. -/
def Fmt.maxCode (f : Fmt) : Nat :=
  match f.kind with
  | .ieee => (2 ^ f.ebits - 1) * 2 ^ f.mbits - 1
  | .nanOnly => 2 ^ f.mag - 2
  | .plain => 2 ^ f.mag - 1
/-- Code of +∞, of the formats that have it. -/
def Fmt.infCode (f : Fmt) : Nat := (2 ^ f.ebits - 1) * 2 ^ f.mbits
/-- The canonical NaN (R285). -/
def Fmt.nanCode (f : Fmt) : Nat :=
  match f.kind with
  | .ieee => f.infCode + 2 ^ (f.mbits - 1)
  | .nanOnly => 2 ^ f.mag - 1
  | .plain => 0
/-- Exponent of the smallest normal number. -/
def Fmt.emin (f : Fmt) : Int := 1 - (f.bias : Int)
/-- Exponent of the subnormal grid. -/
def Fmt.qmin (f : Fmt) : Int := f.emin - f.mbits
def Fmt.signed (f : Fmt) (neg : Bool) (code : Nat) : Nat := if neg then code + 2 ^ f.mag else code

/-! ## Values -/

/-- The value of a code: a NaN (signalling or quiet), an infinity, or ± m · 2^e; m = 0 is a signed zero. -/
inductive Val where
  | nan (sig : Bool)
  | inf (neg : Bool)
  | fin (neg : Bool) (m : Nat) (e : Int)
  deriving DecidableEq, Repr, Inhabited

/-- The value of the low bits of a code (R285). -/
def valOf (f : Fmt) (w : Nat) : Val :=
  let neg := w / 2 ^ f.mag % 2 == 1
  let a := w % 2 ^ f.mag
  let x := a / 2 ^ f.mbits
  let m := a % 2 ^ f.mbits
  let num := if x = 0 then Val.fin neg m f.qmin else .fin neg (m + 2 ^ f.mbits) (f.qmin + (x - 1 : Nat))
  match f.kind with
  | .plain => num
  | .nanOnly => if a = 2 ^ f.mag - 1 then .nan false else num
  | .ieee =>
    if x = 2 ^ f.ebits - 1 then (if m = 0 then .inf neg else .nan (m < 2 ^ (f.mbits - 1))) else num

def Val.isNan : Val → Bool
  | .nan _ => true
  | .inf _ => false
  | .fin _ _ _ => false
def Val.isSig : Val → Bool
  | .nan s => s
  | .inf _ => false
  | .fin _ _ _ => false
def Val.isInf : Val → Bool
  | .nan _ => false
  | .inf _ => true
  | .fin _ _ _ => false
def Val.isZero : Val → Bool
  | .nan _ => false
  | .inf _ => false
  | .fin _ m _ => m == 0
def Val.sign : Val → Bool
  | .nan _ => false
  | .inf n => n
  | .fin n _ _ => n
def Val.negate : Val → Val
  | .nan s => .nan s
  | .inf n => .inf !n
  | .fin n m e => .fin (!n) m e
def Val.abs : Val → Val
  | .nan s => .nan s
  | .inf _ => .inf false
  | .fin _ m e => .fin false m e

/-- IV for a signalling NaN operand (R299). -/
def sigFl (vs : List Val) : Fl := flIf (vs.any Val.isSig) flIv

/-- Compare the magnitudes m1·2^e1 and m2·2^e2. -/
def magLe (m1 : Nat) (e1 : Int) (m2 : Nat) (e2 : Int) : Bool :=
  if e1 ≤ e2 then decide (m1 ≤ m2 * 2 ^ (e2 - e1).toNat) else decide (m1 * 2 ^ (e1 - e2).toNat ≤ m2)

/-- a ≤ b for values that are no NaN, with −0 = +0 (R403). -/
def valLe : Val → Val → Bool
  | .inf true, _ => true
  | _, .inf false => true
  | .inf false, _ => false
  | _, .inf true => false
  | .fin n1 m1 e1, .fin n2 m2 e2 =>
    if m1 = 0 then (m2 == 0 || !n2)
    else if m2 = 0 then n1
    else match n1, n2 with
      | true, false => true
      | false, true => false
      | false, false => magLe m1 e1 m2 e2
      | true, true => magLe m2 e2 m1 e1
  | _, _ => false

/-! ## Exact sums and products (R298, R305) -/

/-- A product with its special cases, and whether it is an invalid 0·∞. -/
def mulVal (a b : Val) : Val × Fl :=
  match a, b with
  | .nan s, b => (.nan false, flIf (s || b.isSig) flIv)
  | a, .nan s => (.nan false, flIf (s || a.isSig) flIv)
  | .inf n, b => if b.isZero then (.nan false, flIv) else (.inf (n != b.sign), 0)
  | a, .inf n => if a.isZero then (.nan false, flIv) else (.inf (a.sign != n), 0)
  | .fin n1 m1 e1, .fin n2 m2 e2 => (.fin (n1 != n2) (m1 * m2) (e1 + e2), 0)

/-- The least exponent of the terms that are not zero. -/
def minExp (vs : List Val) : Option Int :=
  vs.foldl (fun m v => match v with
    | .fin _ k e => if k = 0 then m else match m with
        | none => some e
        | some x => some (min x e)
    | _ => m) none

/-- The exact sum of terms, with the special cases of R305 and the sign of zero of R298. -/
def sumVal (vs : List Val) (rdn : Bool) : Val × Fl :=
  if vs.any Val.isNan then (.nan false, sigFl vs)
  else
    let pos := vs.any fun v => v.isInf && !v.sign
    let neg := vs.any fun v => v.isInf && v.sign
    if pos && neg then (.nan false, flIv)
    else if pos then (.inf false, 0)
    else if neg then (.inf true, 0)
    else
      match minExp vs with
      | none =>
        let allNeg := !vs.isEmpty && vs.all Val.sign
        (.fin (allNeg || (rdn && vs.any Val.sign)) 0 0, 0)
      | some e0 =>
        let t : Int := vs.foldl (fun a v => match v with
          | .fin n m e => if m = 0 then a else if n then a - (m * 2 ^ (e - e0).toNat : Nat) else a + (m * 2 ^ (e - e0).toNat : Nat)
          | _ => a) 0
        if t = 0 then (.fin rdn 0 0, 0) else (.fin (decide (t < 0)) t.natAbs e0, 0)

/-! ## Rounding (R294, R297) -/

/-- A rounding mode of R294 with the random bits of the lane. -/
structure Rnd where
  mode : Nat
  bits : Nat := 0
  deriving DecidableEq, Repr

def rne : Rnd := ⟨0, 0⟩

/-- n + r/d with 0 ≤ r < d, rounded to an integer: the sign matters for RDN and RUP. -/
def roundUp (md : Rnd) (neg : Bool) (n r d : Nat) : Bool :=
  if r = 0 then false
  else match md.mode with
    | 0 => decide (d < 2 * r) || (2 * r == d && n % 2 == 1)
    | 1 => false
    | 2 => neg
    | 3 => !neg
    | _ => decide (md.bits < r * 65536 / d)

/-- num/den · 2^e as a multiple of 2^q: the multiple, and whether it is inexact. -/
def roundAt (md : Rnd) (neg : Bool) (num den : Nat) (e q : Int) : Nat × Bool :=
  let a := if q ≤ e then num * 2 ^ (e - q).toNat else num
  let d := if q ≤ e then den else den * 2 ^ (q - e).toNat
  (a / d + (if roundUp md neg (a / d) (a % d) d then 1 else 0), a % d != 0)

/-- floor(log2(num/den)) for positive num and den. -/
def log2Ratio (num den : Nat) : Int :=
  let g : Int := (Nat.log2 num : Int) - Nat.log2 den
  if 0 ≤ g then (if den * 2 ^ g.toNat ≤ num then g else g - 1)
  else (if den ≤ num * 2 ^ (-g).toNat then g else g - 1)

/-- Code of n · 2^q, exact in the format; past the largest finite magnitude it is a larger number. -/
def exactCode (f : Fmt) (n : Nat) (q : Int) : Nat :=
  if n = 0 then 0
  else
    let k := (Nat.log2 n : Int) + q
    let q' := max (k - f.mbits) f.qmin
    let m := if q' ≤ q then n * 2 ^ (q - q').toNat else n / 2 ^ (q' - q).toNat
    m + (q' - f.qmin).toNat * 2 ^ f.mbits

/-- What becomes of a rounded result beyond the largest finite magnitude (R302, R293, R304). -/
inductive Ovf where
  /-- OC = 1, and the formats without OC -/
  | ieee
  /-- ± the largest finite magnitude, SAT set -/
  | sat
  deriving DecidableEq, Repr

def overflow (f : Fmt) (o : Ovf) (md : Rnd) (neg : Bool) : Nat × Fl :=
  match o with
  | .sat => (f.signed neg f.maxCode, flSat)
  | .ieee =>
    match f.kind with
    | .nanOnly => (f.nanCode, flOf ||| flIv)
    | .plain => (f.signed neg f.maxCode, flSat)
    | .ieee =>
      let toInf := match md.mode with | 1 => false | 2 => neg | 3 => !neg | _ => true
      (f.signed neg (if toInf then f.infCode else f.maxCode), flOf ||| flNx)

/-- A magnitude, truncated to a multiple of 2^q, lies beyond the largest finite one. -/
def beyondMax (f : Fmt) (r : Nat × Bool) (q : Int) : Bool :=
  decide (f.maxCode < exactCode f r.1 q) || (exactCode f r.1 q == f.maxCode && r.2)

/-- One rounding of ± num/den · 2^e (num > 0) to `p` significant bits in the format (p = mbits + 1, or fewer). -/
def roundMag (f : Fmt) (p : Nat) (o : Ovf) (md : Rnd) (neg : Bool) (num den : Nat) (e : Int) : Nat × Fl :=
  let k := log2Ratio num den + e
  let q := max (k - (p - 1 : Nat)) f.qmin
  -- SR beyond the largest finite value rounds as RNE (R297)
  let md := if md.mode == 4 && beyondMax f (roundAt ⟨1, 0⟩ neg num den e q) q then rne else md
  let r := roundAt md neg num den e q
  let code := exactCode f r.1 q
  if f.maxCode < code then overflow f o md neg
  else
    let q' := k - (p - 1 : Nat)
    let tiny := decide (k < f.emin) &&
      !(decide (2 ^ p ≤ (roundAt md neg num den e q').1) && decide (f.emin ≤ k + 1))
    (f.signed neg code, flIf r.2 flNx ||| flIf (r.2 && tiny) flUf)

/-- One rounding of a value to the format (R298, R301, R302). -/
def roundVal (f : Fmt) (o : Ovf) (md : Rnd) : Val → Nat × Fl
  | .nan s => (f.nanCode, flIf s flIv)
  | .inf neg =>
    match o, f.kind with
    | .sat, _ => (f.signed neg f.maxCode, flSat)
    | .ieee, .nanOnly => (f.nanCode, flIv)
    | .ieee, .plain => (f.signed neg f.maxCode, flSat)
    | .ieee, .ieee => (f.signed neg f.infCode, 0)
  | .fin neg m e => if m = 0 then (f.signed neg 0, 0) else roundMag f (f.mbits + 1) o md neg m 1 e

/-- Round an exact result that comes with flags of its own. -/
def roundRes (f : Fmt) (md : Rnd) (r : Val × Fl) : Nat × Fl :=
  let x := roundVal f .ieee md r.1
  (x.1, x.2 ||| r.2)

/-! ## Floating operations (R298, R299, R400) -/

def isRdn (md : Rnd) : Bool := md.mode == 2

def fAdd (f : Fmt) (md : Rnd) (a b : Val) : Nat × Fl := roundRes f md (sumVal [a, b] (isRdn md))

def fMul (f : Fmt) (md : Rnd) (a b : Val) : Nat × Fl := roundRes f md (mulVal a b)

/-- a · b + c, or −(a · b) + c. With c a quiet NaN, whether 0·∞ also sets IV is the implementation's (log 20). -/
def fMulAdd (f : Fmt) (md : Rnd) (minus : Bool) (a b c : Val) : Nat × Fl :=
  let p := mulVal a b
  if a.isNan || b.isNan || c.isNan then
    let zeroInf := (a.isInf && b.isZero) || (a.isZero && b.isInf)
    (f.nanCode, sigFl [a, b, c] ||| flIf (zeroInf && Config.fmaInvalid) flIv)
  else
    let s := sumVal [if minus then p.1.negate else p.1, c] (isRdn md)
    roundRes f md (s.1, s.2 ||| p.2)

/-- IEEE minimum and maximum: a NaN wins, −0 below +0; `va` and `vb` are the codes. -/
def fMinMax (f : Fmt) (wantMax : Bool) (va vb : Nat) : Nat × Fl :=
  let a := valOf f va
  let b := valOf f vb
  if a.isNan || b.isNan then (f.nanCode, sigFl [a, b])
  else
    -- a stands below b, with −0 below +0
    let aLow := if a.isZero && b.isZero then a.sign || !b.sign else valLe a b
    (if aLow != wantMax then va else vb, 0)

def fAbs (f : Fmt) (va : Nat) : Nat × Fl :=
  let a := valOf f va
  if a.isNan then (f.nanCode, sigFl [a]) else (va % 2 ^ f.mag, 0)
def fNeg (f : Fmt) (va : Nat) : Nat × Fl :=
  let a := valOf f va
  if a.isNan then (f.nanCode, sigFl [a]) else ((va + 2 ^ f.mag) % 2 ^ (f.mag + 1), 0)

/-! ## Integers (R286, R303) -/

/-- Least and greatest value of an integer TYPE code. -/
def intRange (t : BitVec 5) : Int × Int :=
  let b := elemBits t
  if t.toNat < 4 then (-(2 ^ (b - 1) : Nat), (2 ^ (b - 1) : Nat) - 1) else (0, (2 ^ b : Nat) - 1)
/-- Value of an integer code. -/
def intOf (t : BitVec 5) (w : Nat) : Int :=
  let b := elemBits t
  if t.toNat < 4 && decide (2 ^ (b - 1) ≤ w) then (w : Int) - (2 ^ b : Nat) else w
/-- Code of an integer, mod 2^b. -/
def intCode (b : Nat) (v : Int) : Nat := (v % (2 ^ b : Nat)).toNat
/-- An integer clamped to a TYPE's range. -/
def clampInt (t : BitVec 5) (v : Int) : Int := max (intRange t).1 (min (intRange t).2 v)
/-- Clamped, with SAT when it was out of range. -/
def satInt (t : BitVec 5) (v : Int) : Nat × Fl :=
  let c := clampInt t v
  (intCode (elemBits t) c, flIf (c != v) flSat)

/-- An integer as a value. -/
def intVal (v : Int) : Val := .fin (decide (v < 0)) v.natAbs 0

/-- Floating point to integer (R303). -/
def toInt (t : BitVec 5) (md : Rnd) : Val → Nat × Fl
  | .nan _ => (0, flIv)
  | .inf neg => (intCode (elemBits t) (if neg then (intRange t).1 else (intRange t).2), flSat)
  | .fin neg m e =>
    let r := roundAt md neg m 1 e 0
    let v : Int := if neg then -(r.1 : Int) else r.1
    let c := clampInt t v
    (intCode (elemBits t) c, if c != v then flSat else flIf r.2 flNx)

/-! ## Reciprocals, square roots, powers of two (R307, R308, R412) -/

/-- Integer square root, one bit a round from bit `k` down. -/
def isqrtFrom : Nat → Nat → Nat → Nat
  | 0, r, n => if (r + 1) * (r + 1) ≤ n then r + 1 else r
  | k + 1, r, n =>
    let r' := r + 2 ^ (k + 1)
    isqrtFrom k (if r' * r' ≤ n then r' else r) n
def isqrt (n : Nat) : Nat := isqrtFrom (Nat.log2 n / 2 + 1) 0 n

/-- 16 significant bits of FP32 under RNE. -/
def round16 (neg : Bool) (num den : Nat) (e : Int) : Nat × Fl := roundMag fF32 16 .ieee rne neg num den e

/-- VRCP (R307). -/
def vrcp (w : Nat) : Nat × Fl :=
  match valOf fF32 w with
  | .nan s => (fF32.nanCode, flIf s flIv)
  | .inf n => (fF32.signed n 0, 0)
  | .fin n m e => if m = 0 then (fF32.signed n fF32.infCode, flDz) else round16 n 1 m (-e)

/-- VRSQ (R307): the square root to 40 bits and a sticky bit. -/
def vrsq (w : Nat) : Nat × Fl :=
  match valOf fF32 w with
  | .nan s => (fF32.nanCode, flIf s flIv)
  | .inf n => if n then (fF32.nanCode, flIv) else (0, 0)
  | .fin n m e =>
    if m = 0 then (fF32.signed n fF32.infCode, flDz)
    else if n then (fF32.nanCode, flIv)
    else
      let m' := if e % 2 = 0 then m else 2 * m
      let e' := if e % 2 = 0 then e else e - 1
      let r := isqrt (2 ^ 160 / m')
      let sticky := if r * r * m' = 2 ^ 160 then 0 else 1
      round16 false (2 * r + sticky) 1 (-81 - e' / 2)

/-- One Newton step (R308). -/
def refine (sqrt : Bool) (x a : Nat) : Nat × Fl :=
  let vx := valOf fF32 x
  let va := valOf fF32 a
  if vx.isNan then (fF32.nanCode, 0)
  else if vx.isInf || vx.isZero then (x, 0)
  else if va.isNan then (fF32.nanCode, sigFl [va])
  else
    let ax := mulVal va vx
    let t := if sqrt then mulVal ax.1 vx else ax
    let d := sumVal [.fin false (if sqrt then 3 else 2) 0, t.1.negate] false
    let r := mulVal vx d.1
    let v := match r.1 with
      | .fin n m e => Val.fin n m (if sqrt then e - 1 else e)
      | .inf n => .inf n
      | .nan s => .nan s
    roundRes fF32 rne (v, ax.2 ||| t.2 ||| d.2 ||| r.2)

/-- 2^(fr/2^k) · 2^128 for 0 ≤ fr < 2^k, from below to a few units: the product of the square roots of 2 that the bits
of fr name. `root` is 2^(1/2^j) · 2^128. -/
def pow2Frac : Nat → Nat → Nat → Nat → Nat
  | 0, _, _, acc => acc
  | k + 1, fr, root, acc =>
    let root' := isqrt (root * 2 ^ 128)
    pow2Frac k fr root' (if fr / 2 ^ k % 2 = 1 then acc * root' / 2 ^ 128 else acc)

/-- VEXP2 (R412). A magnitude below 2^-18 gives 1; past 128 and −151 the result overflows or is below every grid
point; a non-integer has an irrational result, which the 128-bit lower bound and a sticky bit round (log 21). -/
def vexp2 (w : Nat) : Nat × Fl :=
  match valOf fF32 w with
  | .nan s => (fF32.nanCode, flIf s flIv)
  | .inf n => (if n then 0 else fF32.infCode, 0)
  | .fin n m e =>
    if m = 0 then (0x3F800000, 0)
    else if (Nat.log2 m : Int) + e < -18 then (0x3F800000, flNx)
    else if 8 ≤ (Nat.log2 m : Int) + e then
      if n then round16 false 1 1 (-300) else round16 false 1 1 300
    else if 0 ≤ e then
      let v := m * 2 ^ e.toNat
      round16 false 1 1 (if n then -(v : Int) else v)
    else
      let k := (-e).toNat
      let v : Int := if n then -(m : Int) else m
      let fr := (v % (2 ^ k : Nat)).toNat
      let ip := v / (2 ^ k : Nat)
      if fr = 0 then round16 false 1 1 ip
      else round16 false (2 * pow2Frac k fr (2 ^ 129) (2 ^ 128) + 1) 1 (ip - 129)

/-! ## Stochastic rounding (R296) -/

/-- The bits of lane `i`. -/
def laneBits (gen : W32) (i : Nat) : Nat := ((gen.rotateLeft (5 * i % 32)).extractLsb' 0 16).toNat
/-- The generator after a word. -/
def stepGen (g : W32) : W32 :=
  let fb := g.getLsbD 31 ^^ g.getLsbD 21 ^^ g.getLsbD 1 ^^ g.getLsbD 0
  (g.extractLsb' 0 31 ++ BitVec.ofBool fb : BitVec 32)

end Sys2Proof.Machine
end

