-- ==== Sys2Proof/Machine/Block.lean ====
section
/-!
DEFINITION. Block formats: K4 (R287-R290, R304) and OCP MX (R291-R293).
-/

namespace Sys2Proof.Machine

/-- Value of a block scale code; 0xFF is a NaN block (R288). -/
def scaleVal (c : Nat) : Val := if c = 0xFF then .nan false else valOf fE3m5 c

/-- Exact value of a K4 element (R289). -/
def k4Val (code scale : Nat) (g : Val) : Val × Fl :=
  let a := mulVal (valOf fE2m1 code) (scaleVal scale)
  let b := mulVal a.1 g
  (b.1, a.2 ||| b.2)

/-- Exact value of an MX element (R292): x is the E8M0 scale code. -/
def mxVal (f : Fmt) (code x : Nat) : Val × Fl :=
  let v := valOf f code
  if x = 0xFF then (.nan false, sigFl [v])
  else mulVal v (.fin false 1 ((x : Int) - 127))

/-- The largest magnitude of finite values, as m · 2^e. -/
def maxMag (vs : List Val) : Nat × Int :=
  vs.foldl (fun a v => match v with
    | .fin _ m e => if magLe m e a.1 a.2 then a else (m, e)
    | _ => a) (0, 0)

def allFinite (vs : List Val) : Bool := vs.all fun v => !v.isNan && !v.isInf

/-- A code for each value, with the flags of all. -/
def codeAll (f : Val → Rnd → Nat × Fl) (vs : List (Val × Rnd)) : List Nat × Fl :=
  vs.foldr (fun v r => let x := f v.1 v.2; (x.1 :: r.1, x.2 ||| r.2)) ([], 0)

/-- An element that saturates in a block is inexact too: NX (R293, R304). -/
def satNx (r : Nat × Fl) : Nat × Fl := (r.1, if r.2 &&& flSat = 0 then r.2 else r.2 ||| flNx)

/-- An E2M1 code of v / (scale · g), beyond ± 6 to ± 6 (R304). -/
def k4Code (sm : Nat) (se : Int) (gneg : Bool) (v : Val) (md : Rnd) : Nat × Fl :=
  match v with
  | .fin n m e =>
    if m = 0 then (fE2m1.signed (n != gneg) 0, 0) else satNx (roundMag fE2m1 2 .sat md (n != gneg) m sm (e - se))
  | _ => (0, 0)

/-- A block of 8 values with band scale `g` (R304): codes, scale, flags. -/
def k4Block (g : Val) (vs : List (Val × Rnd)) : List Nat × Nat × Fl :=
  let xs := vs.map (·.1)
  match g with
  | .fin gn gm ge =>
    if gm = 0 ∨ !allFinite xs then (vs.map fun _ => 0, 0xFF, flIv)
    else
      let a := maxMag xs
      if a.1 = 0 then (xs.map fun v => fE2m1.signed v.sign 0, 0, 0)
      else
        let clamp := !magLe a.1 a.2 (93 * gm) ge
        let scale := if clamp then 0xFE else (roundMag fE3m5 6 .sat ⟨3, 0⟩ false a.1 (6 * gm) (a.2 - ge)).1
        match scaleVal scale with
        | .fin _ sm se =>
          let r := codeAll (k4Code (sm * gm) (se + ge) gn) vs
          (r.1, scale, r.2 ||| flIf clamp flSat)
        | _ => (vs.map fun _ => 0, 0xFF, flIv)
  | _ => (vs.map fun _ => 0, 0xFF, flIv)

/-- Exponent of the largest magnitude of an element format (R293). -/
def mxEmax (f : Fmt) : Int := if f = fE4m3 then 8 else if f = fE5m2 then 15 else 2

/-- A block of 32 values in an MX format (R293). -/
def mxBlock (f : Fmt) (vs : List (Val × Rnd)) : List Nat × Nat × Fl :=
  let xs := vs.map (·.1)
  if !allFinite xs then (vs.map fun _ => 0, 0xFF, flIv)
  else
    let a := maxMag xs
    let x0 : Int := if a.1 = 0 then -127 else (Nat.log2 a.1 : Int) + a.2 - mxEmax f
    let x := max (-127) (min 127 x0)
    let r := codeAll (fun v md => match v with
      | .fin n m e => satNx (roundVal f .sat md (.fin n m (e - x)))
      | v => roundVal f .sat md v) vs
    (r.1, (x + 127).toNat, r.2)

end Sys2Proof.Machine
end

