-- ==== Sys2Proof/Machine/Vec.lean ====
section
/-!
DEFINITION. What every V word shares (R394-R397, R436): registers of a desk, active elements, poison, flags, generators.
-/

namespace Sys2Proof.Machine

/-! ## Registers of a desk (R149, R176, R177) -/

/-- Element `i` of `b` bits (R284). -/
def elem (b : Nat) (v i : Nat) : Nat := v / 2 ^ (b * i) % 2 ^ b
/-- The first `n` elements. -/
def elems (b : Nat) : Nat → Nat → List Nat
  | 0, _ => []
  | n + 1, v => v % 2 ^ b :: elems b n (v / 2 ^ b)
/-- Elements put side by side, the first lowest. -/
def packElems (b : Nat) : List Nat → Nat
  | [] => 0
  | x :: xs => x % 2 ^ b + 2 ^ b * packElems b xs

/-- Desk and register that v`r` of a desk names: v32-v63 the borrowed neighbour's, none outside the seating plan. -/
def vKey (hot : Bool) (d r : Nat) : Option (Nat × Nat) :=
  if r < 32 then some (d, r) else if hot then some (borrowed d, r - 32) else none

def vGet (k : ClassState) (hot : Bool) (d r : Nat) : Nat :=
  match vKey hot d r with
  | some x => (tget 0 k.v (x.1 * 32 + x.2)).toNat
  | none => 0
def vSet (k : ClassState) (hot : Bool) (d r v : Nat) : ClassState :=
  match vKey hot d r with
  | some x => { k with v := tset 0 k.v (x.1 * 32 + x.2) (BitVec.ofNat 4096 v) }
  | none => k
/-- A mask register of a desk. -/
def kGet (k : ClassState) (d j : Nat) : Nat := (tget 0 k.k (d * 8 + j)).toNat
def kSet (k : ClassState) (d j v : Nat) : ClassState := { k with k := tset 0 k.k (d * 8 + j) (BitVec.ofNat 1024 v) }

/-! ## A V word on one desk -/

/-- A register that a word writes, with the 64-byte units it writes whole. -/
structure VWrite where
  reg : Nat
  val : Nat
  whole : List Nat
  deriving DecidableEq, Repr

/-- What a word does on one desk. -/
structure DeskOut where
  v : List VWrite := []
  k : List VWrite := []
  fl : Fl := 0
  deriving DecidableEq, Repr

/-- What a V word sees on one desk: register reads, its LEN, its mask, KZ, rounding mode with the desk's generator. -/
structure Desk where
  c : Nat
  d : Nat
  hot : Bool
  k : ClassState
  len : Nat
  gen : W32

def Desk.v (x : Desk) (r : BitVec 6) : Nat := vGet x.k x.hot x.d r.toNat
def Desk.vn (x : Desk) (r : Nat) : Nat := vGet x.k x.hot x.d r
def Desk.mask (x : Desk) (r : BitVec 3) : Nat := kGet x.k x.d r.toNat
/-- Element `i` of `b` bits is within VL (R395). -/
def Desk.within (x : Desk) (b i : Nat) : Bool := i * b / 8 < x.len
/-- Active elements of `n` of `b` bits. -/
def Desk.actives (x : Desk) (b n : Nat) (kr : BitVec 3) : List Nat :=
  let m := x.mask kr
  (List.range n).filter fun i => x.within b i && m.testBit i
/-- The rounding of lane `i` under RM. -/
def Desk.rnd (x : Desk) (rm : BitVec 3) (i : Nat) : Rnd := ⟨rm.toNat, if rm = 4 then laneBits x.gen i else 0⟩

/-- The units of `n` elements of `b` bits whose elements all satisfy `p`. -/
def wholeUnits (b n : Nat) (p : Nat → Bool) : List Nat :=
  (List.range 8).filter fun u =>
    let per := 512 / b
    decide (u * per < n) && (List.range per).all fun j => decide (u * per + j < n) && p (u * per + j)

/-- Merge results into a register: an active element takes its result, an inactive one within VL is kept or zeroed, one
beyond VL kept (R395). `f` is applied to active elements only. -/
def laneMerge (x : Desk) (b n : Nat) (kr : BitVec 3) (kz : Bool) (old : Nat) (f : Nat → Nat × Fl) : Nat × Fl :=
  let m := x.mask kr
  let r := ((elems b n old).zipIdx).foldr (fun e r =>
    if !x.within b e.2 then (e.1 :: r.1, r.2)
    else if m.testBit e.2 then let y := f e.2; (y.1 :: r.1, y.2 ||| r.2)
    else ((if kz then 0 else e.1) :: r.1, r.2)) (([] : List Nat), (0 : Fl))
  (packElems b r.1, r.2)

/-- An element-wise word on one desk. -/
def laneOut (x : Desk) (b : Nat) (f : FVR) (g : Nat → Nat × Fl) : DeskOut :=
  let n := 4096 / b
  let m := x.mask f.k
  let r := laneMerge x b n f.k f.kz (x.v f.vd) g
  { v := [⟨f.vd.toNat, r.1, wholeUnits b n fun i => x.within b i && m.testBit i⟩], fl := r.2 }

/-! ## Poison units -/

/-- Poison unit `u` of v`r`. -/
def Desk.vUnit (x : Desk) (r u : Nat) : List PUnit :=
  match vKey x.hot x.d r with
  | some y => [.vreg x.c y.1 y.2 u]
  | none => []
/-- Units of v`r` that hold the elements listed. -/
def Desk.vUses (x : Desk) (b r : Nat) (is : List Nat) : List PUnit :=
  ((is.map fun i => i * b / 512).dedup).flatMap (x.vUnit r)
/-- Units of the mask that hold the bits of the elements listed. -/
def Desk.kUses (x : Desk) (kr : BitVec 3) (is : List Nat) : List PUnit :=
  ((is.map fun i => i / 512).dedup).map fun u => .mask x.c x.d kr.toNat u

/-! ## Execution -/

/-- The desk as a word at the V walker's position sees it. -/
def deskView (s : State) (c d : Nat) : Desk :=
  let k := getCls s c
  ⟨c, d, hotOn s c, k, (vlAt k k.wv.ord).toNat, genOf k d⟩

/-- A word that rounds under SR waits for every older such word of the class (R436). -/
def roundsSr (i : Instr) : Bool :=
  match i.parts with
  | some ⟨_, _, .vr f⟩ => f.rm == 4
  | some ⟨_, _, .mq f⟩ => f.rm == 4
  | _ => false
def srClear (k : ClassState) (ord : Nat) : Bool :=
  (olderOps k ord).all (fun f => !roundsSr f.instr) && (olderPend k ord).all fun p => !roundsSr p.instr

/-- Write a register and clear the poison of the units written whole (R129). -/
def putV (s : State) (c : Nat) (hot : Bool) (d : Nat) (w : VWrite) : State :=
  let s := modCls s c fun k => vSet k hot d w.reg w.val
  match s.poison, vKey hot d w.reg with
  | _ :: _, some y => w.whole.foldl (fun s u => clearPoison s (.vreg c y.1 y.2 u)) s
  | _, _ => s
def putK (s : State) (c d : Nat) (w : VWrite) : State :=
  let s := modCls s c fun k => kSet k d w.reg w.val
  if s.poison.isEmpty then s else w.whole.foldl (fun s u => clearPoison s (.mask c d w.reg u)) s

/-- Results of one desk into the state. -/
def putDesk (s : State) (c : Nat) (hot : Bool) (d : Nat) (o : DeskOut) : State :=
  let s := o.v.foldl (fun s w => putV s c hot d w) s
  let s := o.k.foldl (fun s w => putK s c d w) s
  modCls s c fun k => orFlags k d o.fl

/-- The first poisoned unit of those a word uses. -/
def firstPoison (s : State) (us : List PUnit) : Option (PUnit × Bool) :=
  us.findSome? fun u => (poisonAt s u).map fun k => (u, k)

/-- Generators of the participating desks advance once after a word that rounds under SR (R296). -/
def advanceGens (s : State) (c : Nat) (ds : List Nat) : State :=
  modCls s c fun k => { k with srgen := ds.foldl (fun t d => tset 1 t d (stepGen (tget 1 t d))) k.srgen }

/-- A V word: its work on each participating desk, and the poison units it uses there (R397). -/
def vecBody (i : Instr) (work : Desk → DeskOut) (uses : Desk → List PUnit) (s : State) : Res :=
  clsOnly s <|
    let c := focusCls s
    let ds := desksOf s c
    if roundsSr i && !srClear (me s) (me s).wv.ord then .stall
    else
      match (if s.poison.isEmpty then none else firstPoison s (ds.flatMap fun d => uses (deskView s c d))) with
      | some x => .stop (consumePoison s c .v x.2 x.1 0)
      | none =>
        let hot := hotOn s c
        let s' := ds.foldl (fun t d => putDesk t c hot d (work (deskView s c d))) s
        .done (if roundsSr i then advanceGens s' c ds else s')

/-- An element-wise word: element bits `b`, registers read at the element's position, result of an active lane. -/
def laneWord (i : Instr) (f : FVR) (b : Nat) (srcs : List (BitVec 6)) (g : Desk → Nat → Nat × Fl) (s : State) : Out :=
  runWord i (vecBody i (fun x => laneOut x b f (g x)) fun x =>
    let a := x.actives b (4096 / b) f.k
    srcs.flatMap (fun r => x.vUses b r.toNat a) ++ x.kUses f.k a) s

/-- A word that takes its operand from the head of QV (R401): it waits for one, its poison is consumed. -/
def queueBody (i : Instr) (work : Nat → Desk → DeskOut) (uses : Desk → List PUnit) (s : State) : Res :=
  clsOnly s <|
    let c := focusCls s
    match (me s).qv with
    | [] => .stall
    | q :: r =>
      match poisonAt s (.queue c 1 0) with
      | some kind => .stop (consumePoison s c .v kind (.queue c 1 0) 0)
      | none =>
        match vecBody i (work q.toNat) uses s with
        | .done s' => .done (shiftPoison (modCls s' c fun k => headOn { k with qv := r } 1 64) c 1)
        | x => x

def laneWordQ (i : Instr) (f : FVR) (b : Nat) (srcs : List (BitVec 6)) (g : Nat → Desk → Nat → Nat × Fl) (s : State) : Out :=
  runWord i (queueBody i (fun q x => laneOut x b f (g q x)) fun x =>
    let a := x.actives b (4096 / b) f.k
    srcs.flatMap (fun r => x.vUses b r.toNat a) ++ x.kUses f.k a) s

end Sys2Proof.Machine
end

