-- ==== Sys2Proof/Machine/Tower.lean ====
section
/-!
DEFINITION. Tower lines (R163, R176, R177, R373) with the poison they carry (R129, R130), and what writing words
contribute to statistics records (R314).
-/

namespace Sys2Proof.Machine

/-- [t, t + n) is a tower range (R373). -/
def towerRange (hot : Bool) (t n : Nat) : Bool :=
  t % 64 == 0 && n % 64 == 0 && decide (64 ≤ n) && decide (t + n ≤ towerLimit hot)

/-- The unit of a tower line. -/
def lineUnit (s : State) (c d off : Nat) : PUnit :=
  let t := towerOf (getCls s c) d off
  .tower c t.1 (t.2 / 64)
def lineAddr (s : State) (c d off : Nat) : Nat := towerByte (getCls s c) c d (off / 64 * 64)

def readLine (s : State) (c d off : Nat) : List Byte := readBytes s (lineAddr s c d off) 64

/-- Write bytes inside one tower line; its granule becomes dirty (R119). -/
def writeTower (s : State) (c d off : Nat) (bs : List Byte) : State :=
  let t := towerOf (getCls s c) d off
  markDirty (writeBytes s (towerAddr c t.1 t.2) bs) c t.1 t.2

/-- Write a whole line, with the poison that comes with the data. -/
def writeLine (s : State) (c d off : Nat) (bs : List Byte) (p : Option Bool) : State :=
  let u := lineUnit s c d off
  let s := writeTower s c d (off / 64 * 64) bs
  if s.poison.isEmpty && p.isNone then s else movePoison s p u

/-- Write bytes inside one line with the poison of their source: a whole line takes it, part of a line adds it (R130). -/
def writePart (s : State) (c d off : Nat) (bs : List Byte) (p : Option Bool) : State :=
  if off % 64 = 0 ∧ bs.length = 64 then writeLine s c d off bs p
  else
    let s' := writeTower s c d off bs
    match p with
    | some k => setPoison s' (lineUnit s c d off) k
    | none => s'

/-- Poison of a tower line. -/
def linePoison (s : State) (c d off : Nat) : Option Bool :=
  if s.poison.isEmpty then none else poisonAt s (lineUnit s c d off)

/-- Consecutive bytes of a desk's tower, line by line. -/
def readTower (s : State) (c d off n : Nat) : List Byte :=
  (List.range ((n + 63) / 64)).flatMap fun j => readBytes s (towerByte (getCls s c) c d (off + 64 * j)) (min 64 (n - 64 * j))

/-! ## Contributions (R310, R314) -/

/-- The format of EFMT; none for the codes that are not measured. -/
def efmt (n : Nat) : Option (Fmt × Nat) :=
  match n with
  | 0 => some (fF32, 32)
  | 1 => some (fF16, 16)
  | 2 => some (fBf16, 16)
  | 3 => some (fE4m3, 8)
  | 4 => some (fE5m2, 8)
  | _ => none

/-- A code as the FP32 code of its value. -/
def toF32 (f : Fmt) (w : Nat) : W32 := BitVec.ofNat 32 (roundVal fF32 .ieee rne (valOf f w)).1

/-- The values that 4 bytes hold in a record's EFMT. -/
def laneValues (r : Record) (w : Nat) : List W32 :=
  match efmt (r.policy.extractLsb' 26 3).toNat with
  | none => []
  | some (f, b) => (elems b (32 / b) w).map (toF32 f)

end Sys2Proof.Machine
end

