-- ==== Sys2Proof/Machine/Space.lean ====
section
/-!
DEFINITION. Global memory as the A engine sees it (R203-R213, R220, R221, R226): window table, views, handles, page walks,
and which addresses raise the segment fault.
-/

namespace Sys2Proof.Machine

/-! ## Window table (R204, R206) -/

/-- A present segment. -/
structure Seg where
  vbase : Nat
  len : Nat
  pbase : Nat
  r : Bool
  w : Bool
  x : Bool
  paged : Bool
  pool : Bool
  table : Nat
  pnum : Nat
  rcv : Bool
  hdl : Nat
  deriving DecidableEq, Repr, Inhabited

/-- Descriptor `k` of a window table; absent with V = 0. -/
def segAt (t : List Byte) (k : Nat) : Option Seg :=
  let f := byteField t (32 * k + 24) 8
  if f.testBit 63 then
    some { vbase := bitField (byteField t (32 * k) 8) 55 0, len := 65536 * bitField (byteField t (32 * k + 8) 8) 39 0,
           pbase := bitField (byteField t (32 * k + 16) 8) 51 0, r := f.testBit 62, w := f.testBit 61, x := f.testBit 60,
           paged := f.testBit 59, pool := f.testBit 58, table := bitField f 57 54, pnum := bitField f 53 50,
           rcv := f.testBit 49, hdl := bitField f 48 36 }
  else none

/-- The present segments. -/
def segsOf (t : List Byte) : List Seg := (List.range 64).filterMap (segAt t)

/-- The window table of the kernel on class `c`. -/
def winOf (s : State) (c : Nat) : List Byte :=
  match teamOf s c with
  | some t => (snapOf s t.inst t.node).win
  | none => []

def findSeg (segs : List Seg) (va : Nat) : Option Seg :=
  segs.find? fun g => decide (g.vbase ≤ va) && decide (va < g.vbase + g.len)

/-! ## Walks (R208, R209) -/

def hashOf (part vpn : Nat) : Nat := (vpn % 2 ^ 20) ^^^ (vpn / 2 ^ 20 % 2 ^ 20) ^^^ (part * 0x9E3B % 2 ^ 20)

inductive WalkRes where
  | frame (f : Nat)
  | halt (cause : Nat)
  | wait (f : Nat)
  deriving DecidableEq, Repr

def walkFrom (s : State) (t part vpn : Nat) : Nat → Nat → WalkRes
  | 0, _ => .halt 2
  | n + 1, f =>
    if f = 0xFFFFFFFF then .halt 1
    else
      let e := iptEntry s t f
      if e.v && e.part == part && e.vpn == vpn then (if e.mig then .wait f else .frame f)
      else walkFrom s t part vpn n e.next

/-- A walk of at most 16 entries. -/
def walk (s : State) (t part vpn : Nat) : WalkRes := walkFrom s t part vpn 16 (anchorOf s t (hashOf part vpn))

/-- Key of a page in a translation port. -/
def pageKey (t vpn : Nat) : Nat := t * 2 ^ 40 + vpn

/-- Where an address lies: at a physical address, or the walk that finds it stops or waits for a migration. -/
inductive Place where
  | pa (a : Nat)
  | halt (cause table : Nat)
  | wait
  | none
  deriving DecidableEq, Repr

/-- Translate an address of the class's window table by one of the translations that a word holds, by page and frame, or by a walk
(R209, R211). -/
def placeOf (s : State) (c : Nat) (held : List (Nat × Nat)) (va : Nat) : Place :=
  match findSeg (segsOf (winOf s c)) va with
  | .none => .none
  | some g =>
    if g.paged then
      match held.find? fun t => t.1 = pageKey g.table (va / 65536) with
      | some t => .pa (framePa g.table t.2 + va % 65536)
      | .none =>
        match walk s g.table (partOf s c) (va / 65536) with
        | .frame f => .pa (framePa g.table f + va % 65536)
        | .halt x => .halt x g.table
        | .wait _ => .wait
    else .pa (g.pbase + (va - g.vbase))

/-! ## Permissions (R206) -/

/-- The live instances' executable segments of a partition. -/
def execSegs (s : State) (part : Nat) : List Seg :=
  (s.insts.filter fun i => i.part = part && i.state != .ended).flatMap fun i => i.snaps.flatMap fun y =>
    (segsOf y.win).filter fun h => h.x

/-- An executable segment of the partition maps the frame at a physical address, by itself or through the page it holds. -/
def frameExec (s : State) (part pa : Nat) : Bool :=
  let a := pa / 65536 * 65536
  (execSegs s part).any fun h =>
    if h.paged then
      match frameIdx a with
      | some (t, f) =>
        let e := iptEntry s t f
        h.table == t && e.v && e.part == part && decide (h.vbase ≤ e.vpn * 65536) && decide (e.vpn * 65536 < h.vbase + h.len)
      | none => false
    else decide (h.pbase ≤ a) && decide (a < h.pbase + h.len)

/-- The frame that an address of a segment falls into is mapped executable by a live instance of the partition: a page by its own
number too, whether present or not. -/
def mappedExec (s : State) (part : Nat) (g : Seg) (va : Nat) : Bool :=
  if g.paged then
    (execSegs s part).any (fun h => h.paged && h.table == g.table && decide (h.vbase ≤ va) && decide (va < h.vbase + h.len))
      || (match walk s g.table part (va / 65536) with
        | .frame f => frameExec s part (framePa g.table f)
        | .wait f => frameExec s part (framePa g.table f)
        | .halt _ => false)
  else frameExec s part (g.pbase + (va - g.vbase))

/-- Bytes [va, va + n) may be accessed: one segment, its permission, no executable frame for a write (R206). -/
def windowOk (s : State) (c va n : Nat) (write : Bool) : Bool :=
  match findSeg (segsOf (winOf s c)) va with
  | none => false
  | some g => decide (va + n ≤ g.vbase + g.len)
      && (if write then
            g.w && (List.range ((va + n - 1) / 65536 + 1 - va / 65536)).all fun j =>
              !mappedExec s (partOf s c) g (if j = 0 then va else (va / 65536 + j) * 65536)
          else g.r)

/-! ## Views (R220, R221) -/

/-- Row-major address of offset `o` of a view. -/
def viewAddr (v : ViewSlot) (tiled : Bool) (o : Nat) : Nat :=
  if tiled then
    let nt := v.nc * v.e / 64
    let t := o / 4096
    let w := o % 4096
    v.base + (t / nt * 64 + w / 64) * v.pitch + t % nt * 64 + w % 64
  else
    let n := o / v.e
    v.base + n % v.nr * v.pitch + n / v.nr * v.e + o % v.e

def hasTiled (v : ViewSlot) : Bool := v.nc * v.e % 64 == 0 && v.nr % 64 == 0

/-! ## Pools (R225, R226) -/

/-- A pool's segment and the geometry of the instance: LOG2BSZ, NENT, NBLK, BLKOFF. -/
structure Pool where
  seg : Seg
  log2 : Nat
  nent : Nat
  nblk : Nat
  blkoff : Nat
  deriving DecidableEq, Repr, Inhabited

def poolOf (s : State) (c pnum : Nat) : Option Pool :=
  match (segsOf (winOf s c)).find? fun g => g.pool && g.pnum == pnum with
  | none => none
  | some g =>
    match teamOf s c with
    | none => none
    | some t => ((snapOf s t.inst t.node).pools.find? fun p => p.1 = pnum).map fun p =>
        ⟨g, p.2.getD 0 0, p.2.getD 1 0, p.2.getD 2 0, p.2.getD 3 0⟩

/-- Offsets and physical addresses of the parts of a pool (R225). -/
def poolAt (p : Pool) (off : Nat) : Nat := p.seg.pbase + off
def mapOff (k : Nat) : Nat := 64 + 16 * k
def countOff (p : Pool) (b : Nat) : Nat := 64 + 16 * p.nent + 2 * b
def freeOff (p : Pool) (k : Nat) : Nat := 64 + 16 * p.nent + 2 * p.nblk + 4 * k
def blockOff (p : Pool) (b : Nat) : Nat := p.blkoff + b * 2 ^ p.log2
def mapAt (p : Pool) (k : Nat) : Nat := poolAt p (mapOff k)
def countAt (p : Pool) (b : Nat) : Nat := poolAt p (countOff p b)
def freeAt (p : Pool) (k : Nat) : Nat := poolAt p (freeOff p k)
def blockAt (p : Pool) (b : Nat) : Nat := poolAt p (blockOff p b)

structure MapEntry where
  key : Nat
  block : Nat
  v : Bool
  t : Bool
  gen : Nat
  deriving DecidableEq, Repr

/-- Write bytes of a pool at an offset, under the addresses of its segment (R225, R230). -/
def poolWrite (s : State) (p : Pool) (off : Nat) (bs : List Byte) : State :=
  writePhys (noteSpan s (poolAt p off) (p.seg.vbase + off) bs.length) (poolAt p off) bs
def poolWriteNat (s : State) (p : Pool) (off n v : Nat) : State := poolWrite s p off (leBytes n v)

def getEntry (s : State) (p : Pool) (k : Nat) : MapEntry :=
  let x := readNat s (mapAt p k) 16
  ⟨x % 2 ^ 64, x / 2 ^ 64 % 2 ^ 32, x.testBit 127, x.testBit 126, x / 2 ^ 96 % 16⟩
def setEntry (s : State) (p : Pool) (k : Nat) (e : MapEntry) : State :=
  poolWriteNat s p (mapOff k) 16 (e.key + e.block * 2 ^ 64 + e.gen * 2 ^ 96 + (if e.t then 2 ^ 126 else 0) + (if e.v then 2 ^ 127 else 0))

def ftop (s : State) (p : Pool) : Nat := readNat s (poolAt p 16) 4
def setFtop (s : State) (p : Pool) (v : Nat) : State := poolWriteNat s p 16 4 v
def nlive (s : State) (p : Pool) : Nat := readNat s (poolAt p 20) 4
def setNlive (s : State) (p : Pool) (v : Nat) : State := poolWriteNat s p 20 4 v
def refCount (s : State) (p : Pool) (b : Nat) : Nat := readNat s (countAt p b) 2
def setRefCount (s : State) (p : Pool) (b v : Nat) : State := poolWriteNat s p (countOff p b) 2 v

/-- Pop a block from the free stack. -/
def popBlock (s : State) (p : Pool) : Option (Nat × State) :=
  let n := ftop s p
  if n = 0 then none else some (readNat s (freeAt p (n - 1)) 4, setFtop s p (n - 1))
def pushBlock (s : State) (p : Pool) (b : Nat) : State :=
  let n := ftop s p
  setFtop (poolWriteNat s p (freeOff p n) 4 b) p (n + 1)

/-- A handle's fields (R226). -/
def handlePnum (va : Nat) : Nat := bitField va 47 44
def handleGen (va : Nat) : Nat := bitField va 43 40
def handleEntry (va : Nat) : Nat := bitField va 39 16
def handleOff (va : Nat) : Nat := va % 65536
def mkHandle (p : Pool) (k gen : Nat) : Nat := 0xFC * 2 ^ 48 + p.seg.pnum * 2 ^ 44 + gen * 2 ^ 40 + k * 65536

/-- Copy a block's device-visible bytes with their poison: each sector is decrypted and its tag checked under its old address, and
it is encrypted under its new one, a sector whose tag failed with a tag that fails again (R228, R231). -/
def copyBlock (s : State) (p : Pool) (a b : Nat) : State :=
  let n := 2 ^ p.log2
  let s' := poolWrite s p (blockOff p b) (readBytes s (blockAt p a) n)
  if allClean s then s'
  else (List.range (n / 64)).foldl (fun t j =>
    movePoison t (poisonUnder s (blockAt p a / 64 + j) (p.seg.vbase + blockOff p a + 64 * j)) (.phys (blockAt p b / 64 + j))) s'

/-- The pool and the live entry that a handle names for an access of `n` bytes (R226). -/
def handleEnt (s : State) (c va n : Nat) : Option (Pool × MapEntry) :=
  match poolOf s c (handlePnum va) with
  | none => none
  | some p =>
    let k := handleEntry va
    let e := getEntry s p k
    if p.nent ≤ k ∨ !e.v ∨ e.gen ≠ handleGen va ∨ 2 ^ p.log2 < handleOff va + n then none else some (p, e)

/-- The address of a handle in a block. -/
def handleIn (p : Pool) (va b : Nat) : Nat := p.seg.vbase + blockOff p b + handleOff va

/-- What a handle resolves to at its home for an access of `n` bytes. -/
def handleVa (s : State) (c va n : Nat) : Option Nat := (handleEnt s c va n).map fun x => handleIn x.1 va x.2.block

/-- The poison of map entries that are read: their unit, its address and its kind (R130, R484). -/
def entryPoison (s : State) (p : Pool) (ks : List Nat) : Option (PUnit × Nat × Bool) :=
  if allClean s then none
  else ks.findSome? fun k => (poisonUnder s (mapAt p k / 64) (p.seg.vbase + mapOff k)).map fun x =>
    (PUnit.phys (mapAt p k / 64), p.seg.vbase + mapOff k, x)

/-- The poison of the map entry that a handle names. -/
def handlePoison (s : State) (c va : Nat) : Option (PUnit × Nat × Bool) :=
  match poolOf s c (handlePnum va) with
  | some p => if handleEntry va < p.nent then entryPoison s p [handleEntry va] else none
  | none => none

/-- The block of a handle is shared: a write takes a copy-on-write. -/
def handleShared (s : State) (c va : Nat) : Bool :=
  match handleEnt s c va 1 with
  | some (p, e) => decide (1 < refCount s p e.block)
  | none => false

/-- The copy-on-write of the block that a handle names; none where the free stack is empty (R228). -/
def copyOnWrite (s : State) (c va : Nat) : Option State :=
  match handleEnt s c va 1 with
  | none => some s
  | some (p, e) =>
    match popBlock s p with
    | none => none
    | some (b, s1) =>
      let s2 := setRefCount (setRefCount (copyBlock s1 p e.block b) p e.block (refCount s p e.block - 1)) p b 1
      some (setEntry s2 p (handleEntry va) { e with block := b })

/-- The table of the stack that holds the pool of a handle. -/
def handleTable (s : State) (c va : Nat) : Nat :=
  match poolOf s c (handlePnum va) with
  | some p => ((frameIdx p.seg.pbase).map (·.1)).getD 0
  | none => 0

/-! ## Presenting an address (R203) -/

/-- What kinds of address a word may present. -/
structure Allow where
  aperture : Bool
  alias_ : Bool
  deriving DecidableEq, Repr

/-- The rank-th member's class. -/
def member (s : State) (c rank : Nat) : Option Nat :=
  match teamOf s c with
  | some t => t.classes[rank]?
  | none => none

/-- Check an access of `n` bytes at a presented address, with the views in force for the word: where it lies; none for a segment fault
(R203, R173, R221, R226, R206). -/
def presentIn (s : State) (views : List ViewSlot) (c va n : Nat) (write : Bool) (al : Allow) : Option End :=
  let top := va / 2 ^ 48
  if 256 ≤ top then none
  else if top = 0xFE then
    match member s c (bitField va 47 45) with
    | none => none
    | some m =>
      if al.aperture && bitField va 39 25 == 0 && decide (va % 2 ^ 25 + n ≤ 2 ^ 25)
      then some (.tower m (bitField va 44 40) (va % 2 ^ 25)) else none
  else if top = 0xFD then
    let v := views.getD (bitField va 45 42) {}
    let kind := bitField va 47 46
    let o := va % 2 ^ 42
    if al.alias_ && v.defined && (kind == 1 || (kind == 2 && hasTiled v)) && decide (o + n ≤ v.nr * v.nc * v.e)
      && (List.range n).all fun j => windowOk s c (viewAddr v (kind == 2) (o + j)) 1 write
    then some (.view (bitField va 45 42) v (kind == 2) o) else none
  else if top = 0xFC then
    match handleVa s c va n with
    | none => none
    | some a => if windowOk s c a n write then some (.handle va) else none
  else if windowOk s c va n write then some (.mem va) else none

/-- With the views of the class as they stand. -/
def present (s : State) (c va n : Nat) (write : Bool) (al : Allow) : Option End :=
  presentIn s (getCls s c).views c va n write al

end Sys2Proof.Machine
end

