-- ==== Sys2Proof/Machine/Stage.lean ====
section
/-!
DEFINITION. Staged writes, shadows and snapshot reads (R218, R236, R242-R248), reads and writes at a placed address,
contributions of global writes (R314).
-/

namespace Sys2Proof.Machine

/-! ## Storage of the shadow reserve (R218, R244; log 10) -/

/-- A version of a sector is kept while a class of the node has recorded an epoch below that of the sector's next
version. -/
def keptVersions (n : Node) (cls : List Nat) : Nat :=
  let vs := (n.staged.filterMap fun w => w.epoch.map fun e => (w.pa / 64, e)).dedup
  (vs.filter fun v =>
    match (vs.filter fun u => u.1 = v.1 && decide (v.2 < u.2)).map (·.2) with
    | [] => true
    | e :: es => cls.any fun c => decide (tget 0 n.recorded c < es.foldl min e)).length

/-- Pending copies: one for each class and sector. -/
def pendingCopies (n : Node) : Nat :=
  (n.staged.filterMap fun w => if w.epoch.isNone then some (w.cls, w.pa / 64) else none).dedup.length

/-- The node with what lies in one table only. -/
def onTable (n : Node) (t : Nat) : Node :=
  { n with staged := n.staged.filter fun w => (frameIdx w.pa).any fun x => x.1 == t
           shadows := n.shadows.filter fun h => h.table == t }

/-- 64-byte units of a table's reserve in use. -/
def reserveUsed (s : State) (t : Nat) : Nat :=
  (s.insts.map fun i => ((i.nodes.zipIdx).map fun e =>
    let n := onTable e.1 t
    1024 * n.shadows.length + pendingCopies n + keptVersions n (nodeClasses s i.num e.2)).sum).sum

/-- The reserve of a table has `n` units left: a frame holds 1,024 sectors. -/
def reserveHas (s : State) (t n : Nat) : Bool := decide (reserveUsed s t + n ≤ 1024 * (iptOf s t).reserve.length)

/-- A frame of the reserve that is no shadow now. -/
def reserveFrame (s : State) (t : Nat) : Nat :=
  ((iptOf s t).reserve.find? fun f => !(iptEntry s t f).shd).getD 0

/-! ## Reads (R243) -/

def shadowOf (n : Node) (pa : Nat) : Option Shadow := n.shadows.find? fun h => h.frame = pa / 65536 * 65536

/-- Where a shadow holds the byte at a physical address of its source (R218). -/
def shadowPa (h : Shadow) (pa : Nat) : Nat := framePa h.table h.idx + pa % 65536

/-- The byte of a shadow as it stood at the allocation, read under an address, with the poison that the copy carried or that its tag
shows (R129, R231). -/
def shadowByte (s : State) (h : Shadow) (pa va : Nat) : Byte × Option Bool :=
  (readByte s (shadowPa h pa), if allClean s then none else poisonUnder s (shadowPa h pa / 64) va)

/-- A staged byte read under an address: of an encrypted frame it is under the tag of the address that it was written at (R230). -/
def writtenByte (s : State) (w : Staged) (va : Nat) : Byte × Option Bool :=
  (w.byte, w.pz <|> if w.va / 64 ≠ va / 64 ∧ (keyOf s w.pa).isSome then some true else none)

/-- What class `c` of a node reads at a physical address of a frame that has a shadow `h`: its own latest write, else the newest
version that it may see, else the shadow's contents at allocation (R243). -/
def stagedByte (s : State) (n : Node) (h : Shadow) (c pa va : Nat) : Byte × Option Bool :=
  match n.staged.find? fun w => w.cls = c && w.pa = pa with
  | some w => writtenByte s w va
  | none =>
    let r := tget 0 n.recorded c
    let vs := n.staged.filter fun w => w.pa = pa && (match w.epoch with | some e => decide (e ≤ r) | none => false)
    let best := vs.foldl (fun (m : Option Staged) w => match m with
      | none => some w
      | some x => if x.epoch.getD 0 < w.epoch.getD 0 then some w else some x) none
    match best with
    | some w => writtenByte s w va
    | none => shadowByte s h pa va

/-- The poison of a 64-byte unit as a class of the node sees it: that of any of its bytes (R129). -/
def stagedPoison (s : State) (n : Node) (h : Shadow) (c u va : Nat) : Option Bool :=
  if allClean s && n.staged.all fun w => w.pz.isNone then none
  else (List.range 64).findSome? fun j => (stagedByte s n h c (64 * u + j) (va / 64 * 64 + j)).2

/-- The node that a class runs. -/
def nodeOn (s : State) (c : Nat) : Option Node := (teamOf s c).map fun t => nodeOf s t.inst t.node

/-- `n` bytes of a sector at a physical address as class `c` reads them under a virtual one, with the sector's poison. Host memory is
read device-visible (R248). -/
def readPa (s : State) (c pa va n : Nat) : List Byte × Option Bool :=
  let plain := fun (_ : Unit) =>
    (readBytes s pa n, if allClean s then none else poisonUnder s (pa / 64) va)
  match nodeOn s c with
  | none => plain ()
  | some nd =>
    if (frameIdx pa).isNone then plain ()
    else
      match shadowOf nd pa with
      | none => plain ()
      | some h => ((List.range n).map fun j => (stagedByte s nd h c (pa + j) (va + j)).1, stagedPoison s nd h c (pa / 64) va)

/-! ## Writes (R236, R218, R244) -/

/-- Poison of a sector, and a tag of its own that fails, move with it (R217, R231). -/
def moveTag (s t : State) (a b : Nat) : State :=
  let t := movePoison t (poisonAt s (.phys a)) (.phys b)
  match s.tags.find? fun e => e.1 = a with
  | some x => { t with tags := tput t.tags b x.2 }
  | none => t

/-- 64 KiB with their poison and tags (R216, R218, R231). -/
def copyFrame (s : State) (a b : Nat) : State :=
  let hits := fun (fr : Nat) => fr == b
  let s' := { s with
    mem := copyCells s.mem a b 65536
    dies := s.dies.map fun d => { d with scan := d.scan.filter fun e => !hits e.1 }
    cls := s.cls.map fun k => if k.fetchBuf.any fun l => hits (l.2.1 / 65536 * 65536) then { k with fetchBuf := [] } else k }
  if s.poison.isEmpty then s'
  else (List.range 1024).foldl (fun t j => moveTag s t (a / 64 + j) (b / 64 + j)) s'

/-- A shadow for a frame of a node: it takes a copy of the frame's device-visible contents (R218). -/
def newShadow (s : State) (t : Team) (x : Nat × Nat) (pa : Nat) : State :=
  let f := reserveFrame s x.1
  let base := pa / 65536 * 65536
  let s := modNode (copyFrame s base (framePa x.1 f)) t.inst t.node fun n => { n with shadows := ⟨base, x.1, f⟩ :: n.shadows }
  let s := setIptEntry s x.1 f { part := partOfInst s t.inst, shd := true }
  setIptEntry s x.1 x.2 { iptEntry s x.1 x.2 with shadow := f }

/-- The poison of bytes as they are staged: a write of part of a poisoned unit leaves the unit poisoned (R130). -/
def stagePoison (s : State) (n : Node) (c pa va len : Nat) (p : Option Bool) : Option Bool :=
  if pa % 64 = 0 ∧ len = 64 then p
  else match shadowOf n pa with
    | some h => p <|> stagedPoison s n h c (pa / 64) va
    | none => p

/-- Write `bs` at a physical address of a covered frame, staged for the class's node; none when the reserve is empty. -/
def stageWrite (s : State) (t : Team) (c pa va : Nat) (bs : List Byte) (p : Option Bool) : Option State :=
  match frameIdx pa with
  | none => none
  | some x =>
    let nd := nodeOf s t.inst t.node
    let first := (shadowOf nd pa).isNone
    let newCopy := !(nd.staged.any fun w => w.cls = c && w.pa / 64 = pa / 64 && w.epoch.isNone)
    let need := (if first then 1024 else 0) + (if newCopy then 1 else 0)
    if need ≠ 0 && !reserveHas s x.1 need then none
    else
      let s := if first then newShadow s t x pa else s
      let q := stagePoison s (nodeOf s t.inst t.node) c pa va bs.length p
      let new := (bs.zipIdx).map fun e => (⟨c, pa + e.2, va + e.2, e.1, none, q, none, false⟩ : Staged)
      some (modNode s t.inst t.node fun n =>
        { n with staged := new ++ n.staged.filter fun w =>
            !(w.cls == c && w.epoch.isNone && w.word.isNone && decide (pa ≤ w.pa) && decide (w.pa < pa + bs.length)) })

/-- What class `c` has staged since is the work of a word (R242, R258). -/
def stampWrites (s : State) (c : Nat) (f : InFlight) (counted : Bool) : State :=
  match teamOf s c with
  | none => s
  | some t =>
    if (nodeOf s t.inst t.node).staged.any fun w => w.cls == c && w.epoch.isNone && w.word.isNone then
      modNode s t.inst t.node fun n => { n with staged := n.staged.map fun w =>
        if w.cls == c && w.epoch.isNone && w.word.isNone then { w with word := some (wordId s c f), counted := counted } else w }
    else s

/-- An unstaged write; a whole unit takes the poison that comes with the data (R129, R130). -/
def writePa (s : State) (pa : Nat) (bs : List Byte) (p : Option Bool) : State :=
  let s' := writePhys s pa bs
  if s.poison.isEmpty && p.isNone then s'
  else if pa % 64 = 0 ∧ bs.length = 64 then movePoison s' p (.phys (pa / 64))
  else match p with
    | some k => setPoison s' (.phys (pa / 64)) k
    | none => s'

/-- A kernel write: staged on a covered frame, else unstaged (R236). -/
def kernelWrite (s : State) (c pa va : Nat) (bs : List Byte) (p : Option Bool) : Option State :=
  match frameIdx pa, teamOf s c with
  | some _, some t => stageWrite s t c pa va bs p
  | _, _ => some (writePa s pa bs p)

/-! ## Contributions (R313, R314) -/

/-- The record bound to an address. -/
def boundRec (s : State) (c va : Nat) : Option Nat :=
  match findSeg (segsOf (winOf s c)) va with
  | some g => if g.rcv then some g.hdl else none
  | none => none

/-- The element of `n` bytes at `a`, whole among written bytes by address. -/
def wholeElt (bs : List (Nat × Byte)) (n a : Nat) : Option Nat :=
  let ys := (List.range n).filterMap fun j => (bs.find? fun y => y.1 = a + j).map (·.2)
  if ys.length = n then some (leNat ys) else none

/-- Whole, naturally aligned elements among written bytes, as FP32 codes, and the bytes that belong to none. -/
def elementsOf (r : Record) (bs : List (Nat × Byte)) : List W32 × List (Nat × Byte) :=
  match efmt (r.policy.extractLsb' 26 3).toNat with
  | none => ([], [])
  | some (f, b) =>
    let n := b / 8
    (bs.filterMap fun x => if x.1 % n = 0 then (wholeElt bs n x.1).map (toF32 f) else none,
     bs.filter fun x => (wholeElt bs n (x.1 / n * n)).isNone)

/-- What a word has measured of each record, and the bytes of elements not yet whole, by record and address. -/
structure Measure where
  parts : List Partial := []
  odd : List (Nat × Nat × Byte) := []

/-- Values of a record join what a word has measured. -/
def addValues (ps : List Partial) (h : Nat) (vs : List W32) : List Partial :=
  if vs.isEmpty then ps
  else
    let p := vs.foldl contribOne { hdl := h }
    if ps.any fun q => q.hdl = h then ps.map fun q => if q.hdl = h then joinPartial q p else q else ps ++ [p]

/-- Bytes written by address: those in bound segments are measured. -/
def measure (s : State) (c : Nat) (m : Measure) (bs : List (Nat × Byte)) : Measure :=
  match bs with
  | [] => m
  | x :: _ =>
    match boundRec s c x.1 with
    | none => m
    | some h =>
      let e := elementsOf (getRec s h) bs
      ⟨addValues m.parts h e.1, m.odd ++ e.2.map fun y => (h, y.1, y.2)⟩

/-- A word completes: what its movements have written in parts makes whole elements too, and all of it is contributed (R314). -/
def contributeAll (s : State) (c : Nat) (m : Measure) : State :=
  let ps := (m.odd.map (·.1)).dedup.foldl (fun ps h =>
    addValues ps h (elementsOf (getRec s h) (m.odd.filterMap fun x => if x.1 = h then some x.2 else none)).1) m.parts
  ps.foldl (fun s p => contributePartial s c p) s

/-! ## Both ends of a movement -/

/-- What an access comes to: done, a halt, a wait for a migration, or nothing because a handle names no live entry any more
(log 22). -/
inductive Acc where
  | ok (s : State) (bs : List Byte) (p : Option Bool)
  | halt (va cause table : Nat)
  | wait
  | gone

/-- Read consecutive bytes at a window-table address. -/
def readVa (s : State) (c : Nat) (held : List (Nat × Nat)) (va n : Nat) : Acc :=
  match placeOf s c held va with
  | .pa a =>
    let r := readPa s c a va n
    .ok s r.1 r.2
  | .halt x t => .halt va x t
  | .wait => .wait
  | .none => .gone

/-- Write consecutive bytes at a window-table address. -/
def writeVa (s : State) (c : Nat) (held : List (Nat × Nat)) (va : Nat) (bs : List Byte) (p : Option Bool) : Acc :=
  match placeOf s c held va with
  | .pa a =>
    match kernelWrite s c a va bs p with
    | some s' => .ok s' [] none
    | none => .halt va 3 ((frameIdx a).map (·.1) |>.getD 0)
  | .halt x t => .halt va x t
  | .wait => .wait
  | .none => .gone

/-- Read bytes of a view one by one. -/
def readView (s : State) (c : Nat) (held : List (Nat × Nat)) (v : ViewSlot) (tiled : Bool) :
    Nat → Nat → List Byte → Option Bool → Acc
  | 0, _, acc, p => .ok s acc.reverse p
  | n + 1, o, acc, p =>
    match readVa s c held (viewAddr v tiled o) 1 with
    | .ok _ bs q => readView s c held v tiled n (o + 1) (bs.headD 0 :: acc) (p <|> q)
    | x => x

/-- Write bytes of a view one by one. -/
def writeView (s : State) (c : Nat) (held : List (Nat × Nat)) (v : ViewSlot) (tiled : Bool) (p : Option Bool) :
    List Byte → Nat → Acc
  | [], _ => .ok s [] none
  | b :: bs, o =>
    match writeVa s c held (viewAddr v tiled o) [b] p with
    | .ok s' _ _ => writeView s' c held v tiled p bs (o + 1)
    | x => x

/-- Read `n` bytes at offset `o` of an end. -/
def readEnd (s : State) (c : Nat) (held : List (Nat × Nat)) (e : End) (o n : Nat) : Acc :=
  match e with
  | .tower d k x =>
    .ok s (readBytes s (towerByte (getCls s d) d k (x + o)) n) (linePoison s d k (x + o))
  | .mem va => readVa s c held (va + o) n
  | .view _ v t x => readView s c held v t n (x + o) [] none
  | .handle va =>
    match handleVa s c (va + o) n with
    | some a => readVa s c held a n
    | none => .gone
  | .line bs p => .ok s ((bs.drop o).take n) p
  | .none => .ok s [] none

/-- Write through a handle: a shared block is copied first, which halts the word where no block is free (R211, R228). -/
def writeHandle (s : State) (c : Nat) (held : List (Nat × Nat)) (va : Nat) (bs : List Byte) (p : Option Bool) : Acc :=
  match (if handleShared s c va then copyOnWrite s c va else some s) with
  | none => .halt va 4 (handleTable s c va)
  | some t =>
    match handleVa t c va bs.length with
    | some a => writeVa t c held a bs p
    | none => .gone

/-- Write bytes at offset `o` of an end. -/
def writeEnd (s : State) (c : Nat) (held : List (Nat × Nat)) (e : End) (o : Nat) (bs : List Byte) (p : Option Bool) : Acc :=
  match e with
  | .tower d k x => .ok (writePart s d k (x + o) bs p) [] none
  | .mem va => writeVa s c held (va + o) bs p
  | .view _ v t x => writeView s c held v t p bs (x + o)
  | .handle va => writeHandle s c held (va + o) bs p
  | .line _ _ => .ok s bs p
  | .none => .ok s bs p

/-- The addresses of `n` bytes at offset `o` of a global end; none elsewhere. -/
def endBytes (s : State) (c : Nat) (e : End) (o n : Nat) : List Nat :=
  match e with
  | .mem va => (List.range n).map fun j => va + o + j
  | .view _ v t x => (List.range n).map fun j => viewAddr v t (x + o + j)
  | .handle va =>
    match handleVa s c (va + o) n with
    | some a => (List.range n).map fun j => a + j
    | none => []
  | .tower _ _ _ => []
  | .line _ _ => []
  | .none => []

/-! ## Movements -/

/-- What a movement of bytes comes to. -/
inductive Moved where
  | ok (s : State) (m : Measure)
  | halt (va cause table kind : Nat)
  | wait

/-- What moves a word's data: the class, the translations it holds, whether what it writes is measured (R314). -/
structure Port where
  cls : Nat
  held : List (Nat × Nat) := []
  meas : Bool := false

/-- Move bytes [o, o + n) of a move. -/
def moveBytes (p : Port) (m : Move) (s : State) (x : Measure) (o n : Nat) : Moved :=
  match readEnd s p.cls p.held m.src o n with
  | .halt va y t => .halt va y t 0
  | .wait => .wait
  | .gone => .ok s x
  | .ok _ bs q =>
    match writeEnd s p.cls p.held m.dst o bs q with
    | .halt va y t => .halt va y t 1
    | .wait => .wait
    | .gone => .ok s x
    | .ok s' _ _ => .ok s' (if p.meas then measure s' p.cls x ((endBytes s' p.cls m.dst o n).zip bs) else x)

/-- How far a movement came, and why it stopped. -/
inductive Stop where
  | finished
  | halted (va cause table kind : Nat)
  | waiting
  deriving DecidableEq, Repr

/-- Bytes moved, the state, what was measured. -/
structure Flow where
  s : State
  k : Nat
  m : Measure := {}

/-- The accesses of a line that precede the one that stops it, one byte after the other, at most `n`. -/
def moveUpTo (p : Port) (m : Move) : Nat → Nat → Flow → Flow × Stop
  | 0, _, f => (f, .finished)
  | n + 1, o, f =>
    match moveBytes p m f.s f.m o 1 with
    | .ok s x => moveUpTo p m n (o + 1) ⟨s, f.k + 1, x⟩
    | .halt va x t k => (f, .halted va x t k)
    | .wait => (f, .waiting)

/-- Move the lines of a move from offset `o` on, `n` lines at most. -/
def moveLines (p : Port) (m : Move) : Nat → Nat → Flow → Flow × Stop
  | 0, _, f => (f, .finished)
  | n + 1, o, f =>
    let len := min (64 - o % 64) (m.len - o)
    match moveBytes p m f.s f.m o len with
    | .ok s x => moveLines p m n (o + len) ⟨s, f.k + len, x⟩
    | _ =>
      let r := moveUpTo p m len o f
      match r.2 with
      | .finished => moveLines p m n (o + len) r.1
      | _ => r

/-- Lines of a move. -/
def lineCount (m : Move) : Nat := (m.len + 63) / 64

/-- Perform moves in order, skipping the first `skip` bytes. -/
def moveAll (p : Port) : List Move → Nat → Flow → Flow × Stop
  | [], _, f => (f, .finished)
  | m :: ms, skip, f =>
    if m.len ≤ skip then moveAll p ms (skip - m.len) { f with k := f.k + m.len }
    else
      let r := moveLines p m (lineCount m - skip / 64) skip { f with k := f.k + skip }
      match r.2 with
      | .finished => moveAll p ms 0 r.1
      | _ => r

end Sys2Proof.Machine
end

