-- ==== Sys2Proof/Machine/Access.lean ====
section
/-!
DEFINITION. How an A word presents its addresses: resolution of both sides of its movements (R203, R206, R228), the
view-order check (R224), the first translation batch (R211), what holds a command of queue QA (R249, R251).
-/

namespace Sys2Proof.Machine

/-! ## Movements before and after resolution -/

/-- One side of a movement as a word presents it. -/
inductive Side where
  | tower (c desk off : Nat)
  | glob (va : Nat)
  | none
  deriving DecidableEq, Repr

/-- A movement as a word presents it. -/
structure Leg where
  src : Side
  dst : Side
  len : Nat
  deriving DecidableEq, Repr

/-- Lines of a move, as byte offsets. -/
def lineOffs (m : Move) : List Nat := (List.range (lineCount m)).map (64 * ·)
def lineLen (m : Move) (o : Nat) : Nat := min 64 (m.len - o)

/-- Window-table addresses that `n` bytes at offset `o` of an end touch now, one for each frame change at most. -/
def endVas (s : State) (c : Nat) (e : End) (o n : Nat) : List Nat :=
  match e with
  | .mem va => [va + o]
  | .view _ v t x => (List.range n).map fun j => viewAddr v t (x + o + j)
  | .handle va => (handleVa s c (va + o) n).toList
  | .tower _ _ _ => []
  | .line _ _ => []
  | .none => []

/-! ## Frames of a batch (R211) -/

/-- A frame that a word touches: its key, the address and kind of the first access, whether a walk finds it. -/
structure Page where
  key : Nat
  va : Nat
  kind : Nat
  paged : Bool
  deriving DecidableEq, Repr

def pageOf (segs : List Seg) (kind va : Nat) : Option Page :=
  (findSeg segs va).map fun g =>
    if g.paged then ⟨pageKey g.table (va / 65536), va, kind, true⟩
    else ⟨2 ^ 60 + (g.pbase + (va - g.vbase)) / 65536, va, kind, false⟩

/-- A batch as it is gathered: its frames in access order, whether it is full, the state that its copy-on-writes leave, the address
of one that found no free block. -/
structure Batch where
  s : State
  pages : List Page := []
  full : Bool := false
  bad : Option Nat := none

/-- Add a page to a batch of at most 256 distinct frames. -/
def addPage (b : Batch) (p : Option Page) : Batch :=
  match p with
  | none => b
  | some p =>
    if b.full || b.pages.any (fun q => q.key = p.key) then b
    else if b.pages.length = 256 then { b with full := true }
    else { b with pages := b.pages ++ [p] }

/-- A batch holds a page, or has room for it. -/
def fitsBatch (b : Batch) (p : Option Page) : Bool :=
  decide (b.pages.length < 256) || p.any fun p => b.pages.any fun q => q.key = p.key

/-- The copy-on-write of a handle written in the batch, where the frame that it writes belongs to the batch (R211, R228). -/
def batchCow (c : Nat) (segs : List Seg) (kdst : Nat) (b : Batch) (e : End) : Batch :=
  match e with
  | .handle va =>
    if b.full || b.bad.isSome || !handleShared b.s c va then b
    else
      match copyOnWrite b.s c va with
      | some s => if fitsBatch b ((handleVa s c va 1).bind (pageOf segs kdst)) then { b with s := s } else { b with full := true }
      | none => if fitsBatch b none then { b with bad := some va } else { b with full := true }
  | _ => b

/-- The frames of a move join a batch, line by line. -/
def addMove (c : Nat) (segs : List Seg) (kdst : Nat) (b : Batch) (m : Move) : Batch :=
  if b.full then b
  else
    (lineOffs m).foldl (fun b o =>
      let b := (endVas b.s c m.src o (lineLen m o)).foldl (fun b a => addPage b (pageOf segs 0 a)) b
      let b := if o = 0 then batchCow c segs kdst b m.dst else b
      (endVas b.s c m.dst o (lineLen m o)).foldl (fun b a => addPage b (pageOf segs kdst a)) b) b

/-- The first batch: its frames and its copy-on-writes, in access order. -/
def firstBatch (s : State) (c : Nat) (segs : List Seg) (kdst : Nat) (ms : List Move) : Batch :=
  ms.foldl (addMove c segs kdst) { s := s }

/-! ## Resolution (R203, R206) -/

/-- A side as it resolves, or the faulting address. -/
def resolveSide (s : State) (vs : List ViewSlot) (c : Nat) (al : Allow) (x : Side) (n : Nat) (w : Bool) : Except Nat End :=
  match x with
  | .tower d k o => .ok (.tower d k o)
  | .none => .ok .none
  | .glob va =>
    match presentIn s vs c va n w al with
    | some e => .ok e
    | none => .error va

/-- Resolve movements in access order, with the views in force for the word. -/
def resolveLegs (s : State) (vs : List ViewSlot) (c : Nat) (al : Allow) : List Leg → List Move → Except Nat (List Move)
  | [], acc => .ok acc.reverse
  | l :: ls, acc =>
    match resolveSide s vs c al l.src l.len false with
    | .error a => .error a
    | .ok a =>
      match resolveSide s vs c al l.dst l.len true with
      | .error a => .error a
      | .ok b => resolveLegs s vs c al ls (⟨a, b, l.len⟩ :: acc)

/-! ## View order (R223, R224) -/

/-- The view an end belongs to: 0 row-major, else the slot plus 1; none for what is no global access. -/
def viewId (e : End) : Option Nat :=
  match e with
  | .mem _ => some 0
  | .view k _ _ _ => some (k + 1)
  | .handle _ => some 0
  | .tower _ _ _ => none
  | .line _ _ => none
  | .none => none

/-- The first row-major address of a side that reads a sector written through another view since the last FENCE. -/
def crossView (s : State) (c : Nat) (e : End) (m : Move) : Option Nat :=
  let k := getCls s c
  match viewId e with
  | none => none
  | some v => (lineOffs m).findSome? fun o => (endVas s c e o (lineLen m o)).find? fun a =>
      k.sectors.any fun x => x.1 != v && (decide (256 < k.sectors.length) || x.2 == a / 64)

/-- The address of a view-order violation; `rw` for words that also read what they write. -/
def vchkBad (s : State) (c ord : Nat) (rw : Bool) (ms : List Move) : Option Nat :=
  if (strictAt (getCls s c) ord).getLsbD 1 && !(getCls s c).sectors.isEmpty then
    ms.findSome? fun m => match crossView s c m.src m with
      | some a => some a
      | none => if rw then crossView s c m.dst m else none
  else none

/-- Sectors written through each view are tracked while VCHK = 1. -/
def noteWrites (s : State) (c : Nat) (k : ClassState) (ord : Nat) (ms : List Move) : ClassState :=
  if (strictAt k ord).getLsbD 1 then
    { k with sectors := ms.foldl (fun l m =>
        match viewId m.dst with
        | none => l
        | some v => (lineOffs m).foldl (fun l o => (endVas s c m.dst o (lineLen m o)).foldl (fun l a =>
            if l.contains (v, a / 64) then l else (v, a / 64) :: l) l) l) k.sectors }
  else k

/-! ## Order among the commands of QA (R249) -/

/-- A run of locations: a class's physical tower line by line is named by its desk offset; global memory by virtual
address on paged segments and by physical address elsewhere. -/
structure Span where
  space : Nat
  lo : Nat
  hi : Nat
  deriving DecidableEq, Repr

def memSpan (segs : List Seg) (va n : Nat) : List Span :=
  match findSeg segs va with
  | none => []
  | some g => if g.paged then [⟨0, va, va + n⟩] else [⟨1, g.pbase + (va - g.vbase), g.pbase + (va - g.vbase) + n⟩]

def endSpan (s : State) (c : Nat) (segs : List Seg) (e : End) (n : Nat) : List Span :=
  match e with
  | .tower c d o =>
    let at0 := fun (x m : Nat) => (⟨2, towerByte (getCls s c) c d x, towerByte (getCls s c) c d x + m⟩ : Span)
    if o < 2 ^ 25 ∧ 2 ^ 25 < o + n then [at0 o (2 ^ 25 - o), at0 (2 ^ 25) (o + n - 2 ^ 25)] else [at0 o n]
  | .mem va => memSpan segs va n
  | .view _ v _ _ => memSpan segs v.base (v.nr * v.pitch)
  | .handle va =>
    match handleVa s c va n with
    | some a => memSpan segs a n
    | none => []
  | .line _ _ => []
  | .none => []

/-- Everything the movements of a word touch. -/
def movesSpans (s : State) (c : Nat) (ms : List Move) : List Span :=
  let segs := segsOf (winOf s c)
  ms.flatMap fun m => endSpan s c segs m.src m.len ++ endSpan s c segs m.dst m.len

def overlap (a b : List Span) : Bool :=
  a.any fun x => b.any fun y => x.space == y.space && decide (x.lo < y.hi) && decide (y.lo < x.hi)

/-- No earlier command of QA touches the same locations. -/
def qaFirst (s : State) (c : Nat) (older : List InFlight) (ms : List Move) : Bool :=
  let mine := movesSpans s c ms
  older.all fun g => queueOf g.instr != some 0 || !overlap mine (movesSpans s c g.moves)

/-! ## Lines read in the issue cycle (R163, R391) -/

/-- An end `x` bytes further on. -/
def advanceEnd (e : End) (x : Nat) : End :=
  match e with
  | .tower c d o => .tower c d (o + x)
  | .mem va => .mem (va + x)
  | .view k v t o => .view k v t (o + x)
  | .handle va => .handle (va + x)
  | .line bs p => .line bs p
  | .none => .none

/-- Tower lines of every desk of a class. -/
def deskSpans (s : State) (c off n : Nat) : List Span := (desksOf s c).flatMap fun d => endSpan s c [] (.tower c d off) n

/-- What movements still have to read, and to write. -/
def moveReads (s : State) (c : Nat) (ms : List Move) : List Span :=
  let segs := segsOf (winOf s c)
  ms.flatMap fun m => endSpan s c segs m.src m.len
def moveWrites (s : State) (c : Nat) (ms : List Move) : List Span :=
  let segs := segsOf (winOf s c)
  ms.flatMap fun m => endSpan s c segs m.dst m.len

/-- A tower source of at most 512 bytes per desk is read when the word issues. -/
def captureMove (s : State) (m : Move) : List Move :=
  match m.src with
  | .tower c d o => (lineOffs m).map fun x =>
      ⟨.line (readBytes s (towerByte (getCls s c) c d (o + x)) 64) (linePoison s c d (o + x)), advanceEnd m.dst x, 64⟩
  | _ => [m]

/-- Sources read at issue, for a word that moves at most 512 bytes of them per desk and that nothing older holds. -/
def capture (s : State) (perDesk : Nat) (free : Bool) (ms : List Move) : List Move :=
  if perDesk ≤ 512 && free then ms.flatMap (captureMove s) else ms

/-! ## Issue of a word that accesses global memory -/

/-- The first page of the batch that the translation port does not hold. -/
def missing (k : ClassState) (ps : List Page) : Option Page :=
  ps.find? fun p => p.paged && !(k.tcache.any fun t => t.1 = p.key)

/-- Pages just used go to the front of the translation port (R210). -/
def touch (k : ClassState) (ps : List Page) : ClassState :=
  { k with tcache := ps.foldl (fun l p =>
      match l.find? fun t => t.1 = p.key with
      | some t => t :: l.erase t
      | none => l) k.tcache }

/-- The first poisoned map entry that a word reads for the handles it presents (R130). -/
def legsPoison (s : State) (c : Nat) (ls : List Leg) : Option (PUnit × Nat × Bool) :=
  if allClean s then none
  else
    let one := fun (x : Side) => match x with
      | .glob va => if va / 2 ^ 48 = 0xFC then handlePoison s c va else none
      | .tower _ _ _ => none
      | .none => none
    ls.findSome? fun l => (one l.src).or (one l.dst)

/-- What an A word presents. -/
structure Req where
  legs : List Leg
  al : Allow := ⟨true, true⟩
  /-- access kind of the destination: 1 write, 2 atomic -/
  kdst : Nat := 1
  /-- bytes that each desk's tower source moves, 0 for no such source -/
  perDesk : Nat := 0

/-- A leg goes to or comes from the team aperture (R173): it is a corridor request (R174). -/
def viaAperture (l : Leg) : Bool :=
  let far := fun (x : Side) => match x with
    | .glob va => va / 2 ^ 48 == 0xFE
    | .tower _ _ _ => false
    | .none => false
  far l.src || far l.dst

/-- The operands of a word that goes through the aperture, which the eighth marks. -/
def markFar (ops : List W64) (far : Bool) : List W64 :=
  if far then (List.range 7).map (fun j => ops.getD j 0) ++ [1] else ops

/-- The translations of a batch that the port holds. -/
def heldOf (k : ClassState) (ps : List Page) : List (Nat × Nat) := k.tcache.filter fun t => ps.any fun p => p.paged && p.key == t.1

/-- Presenting the addresses: resolution, the word's own check of the ends, view order, the first batch with its translations and
copy-on-writes, issue. -/
def accessBody (i : Instr) (s : State) (c : Nat) (r : Req) (check : List Move → Option Nat) (ops : List W64) : Res :=
  let k := getCls s c
  let ord := k.wa.ord
  let segs := segsOf (winOf s c)
  match legsPoison s c r.legs with
  | some x => .stop (consumePoison s c .a x.2.2 x.1 x.2.1)
  | none =>
  match resolveLegs s k.views c r.al r.legs [] with
  | .error a => .trap 0x02 (BitVec.ofNat 64 a)
  | .ok ms =>
    match check ms with
    | some a => .trap 0x02 (BitVec.ofNat 64 a)
    | none =>
      match vchkBad s c ord (r.kdst == 2) ms with
      | some a => .trap 0x03 (BitVec.ofNat 64 a)
      | none =>
        let b := firstBatch s c segs r.kdst ms
        match b.bad with
        | some a => .trap 0x02 (BitVec.ofNat 64 a)
        | none =>
          match missing k b.pages with
          | some p => if k.walk.isSome then .stall else .stop (modCls s c fun k => { k with walk := some (4 * p.va + p.kind) })
          | none =>
            let free := qaFirst b.s c (olderOps k ord) ms
              && fenceClear k { id := k.nextId, ord := ord, run := k.run, eng := .a, instr := i }
            let ms' := if 0 < r.perDesk then capture b.s r.perDesk free ms else ms
            .async (modCls b.s c fun k => { noteWrites b.s c (touch k b.pages) ord ms with batch := heldOf k b.pages })
              (markFar ops (r.legs.any viaAperture)) ms'

/-! ## Halts (R211, R213) -/

/-- The A walker halts: halt record, TCAUSE and TINFO, the event for firmware. -/
def haltA (s : State) (c va cause kind table ord prog : Nat) : State :=
  let s := setCause s c 0x10 1 ord (BitVec.ofNat 64 va)
  let s := modCls s c fun k => { k with
    walk := none
    halt := ⟨BitVec.ofNat 64 va, ord, BitVec.ofNat 8 cause, BitVec.ofNat 8 kind, true, table, prog, (getDie s (dieOf c)).nextEv⟩
    taken := k.taken.map fun t => { t with index := none } }
  causeEvent s c

/-- PAGE_WALK_COMPLETE: the walk under way returns a frame, halts A, or goes on waiting (R209, R216). -/
def execPageWalkComplete (c : Nat) (s : State) : Out :=
  let k := getCls s c
  match k.walk with
  | none => .next s
  | some w =>
    let va := w / 4
    match findSeg (segsOf (winOf s c)) va with
    | none => .next (modCls s c fun k => { k with walk := none })
    | some g =>
      match walk s g.table (partOf s c) (va / 65536) with
      | .wait _ => .next s
      | .frame f => .next (modCls s c fun k => { k with
          walk := none, tcache := ((pageKey g.table (va / 65536), f) :: k.tcache).take 256 })
      | .halt x => .next (haltA s c va x (w % 4) g.table k.wa.ord 0)

/-! ## Queue entries (R215) -/

/-- The word pushes into QS, or into QV, when it completes. -/
def pushesQ (i : Instr) (qv : Bool) : Bool :=
  match i with
  | .ldq _ f => f.mode.getLsbD 7 == qv
  | .amoAdd _ f => f.ret && !qv
  | .amoMax _ f => f.ret && !qv
  | .amoMin _ f => f.ret && !qv
  | .amoAnd _ f => f.ret && !qv
  | .amoOr _ f => f.ret && !qv
  | .amoXchg _ f => f.ret && !qv
  | .amoCas _ f => f.ret && !qv
  | _ => false

/-- Entries that issued words have reserved. -/
def reservedQ (k : ClassState) (qv : Bool) : Nat := (k.inflight.filter fun f => pushesQ f.instr qv).length

/-- An entry of QS or QV can be reserved. -/
def roomQ (k : ClassState) (qv : Bool) : Bool :=
  decide ((if qv then k.qv else k.qs).length + reservedQ k qv < 64)

end Sys2Proof.Machine
end

