-- ==== Sys2Proof/Machine/AArith.lean ====
section
/-!
DEFINITION. The address arithmetic and the outcome compares of the A engine (R374, R375).
-/

namespace Sys2Proof.Machine

/-- AADD: a[X] ← a[Y] + a[Z]. -/
def execAadd (h : Hdr) (f : FAR) (s : State) : Out :=
  arWord (.aadd h f) f.x (fun s => aget s f.y + aget s f.z) s
/-- ASUB: a[X] ← a[Y] − a[Z]. -/
def execAsub (h : Hdr) (f : FAR) (s : State) : Out :=
  arWord (.asub h f) f.x (fun s => aget s f.y - aget s f.z) s
/-- AADDI: a[X] ← a[Y] + s[S] + m. -/
def execAaddi (h : Hdr) (f : FAI) (s : State) : Out :=
  arWord (.aaddi h f) f.x (fun s => aget s f.y + sget s f.s + imms f.imm) s
/-- AMULI: a[X] ← a[Y] + u(s[S]) · m. -/
def execAmuli (h : Hdr) (f : FAI) (s : State) : Out :=
  arWord (.amuli h f) f.x (fun s => aget s f.y + sget s f.s * imms f.imm) s
/-- ASHLI: a[X] ← a[Y] · 2^IMM32 + s[S]. -/
def execAshli (h : Hdr) (f : FAI) (s : State) : Out :=
  arWord (.ashli h f) f.x (fun s => aget s f.y <<< f.imm.toNat + sget s f.s) s
/-- AMOV: a[X] ← s[S] + m. -/
def execAmov (h : Hdr) (f : FAI) (s : State) : Out :=
  arWord (.amov h f) f.x (fun s => sget s f.s + imms f.imm) s
/-- AMOVI: a[X] ← zext(IMM32) · 2^32 + a[Y][31:0]. -/
def execAmovi (h : Hdr) (f : FAI) (s : State) : Out :=
  arWord (.amovi h f) f.x (fun s => (f.imm ++ (aget s f.y).extractLsb' 0 32 : BitVec 64)) s

/-- An outcome compare pushes one bit into QB (R375); with QB full it waits (R158, R215). -/
def aqWord (i : Instr) (cond : State → Bool) (s : State) : Out :=
  runWord i (fun s => clsOnly s <|
    if (me s).qb.length < 64 then .done (pushQb s (focusCls s) (cond s)) else .stall) s

def execAqeq (h : Hdr) (f : FAR) (s : State) : Out :=
  aqWord (.aqeq h f) (fun s => aget s f.x == aget s f.y) s
def execAqne (h : Hdr) (f : FAR) (s : State) : Out :=
  aqWord (.aqne h f) (fun s => aget s f.x != aget s f.y) s
def execAqlt (h : Hdr) (f : FAR) (s : State) : Out :=
  aqWord (.aqlt h f) (fun s => (aget s f.x).slt (aget s f.y)) s
def execAqltu (h : Hdr) (f : FAR) (s : State) : Out :=
  aqWord (.aqltu h f) (fun s => (aget s f.x).ult (aget s f.y)) s
def execAqeqi (h : Hdr) (f : FAI) (s : State) : Out :=
  aqWord (.aqeqi h f) (fun s => aget s f.x == sget s f.s + imms f.imm) s
def execAqlti (h : Hdr) (f : FAI) (s : State) : Out :=
  aqWord (.aqlti h f) (fun s => (aget s f.x).slt (sget s f.s + imms f.imm)) s

end Sys2Proof.Machine
end

