-- ==== Sys2Proof/Machine/Copy.lean ====
section
/-!
DEFINITION. The words that move data to and from global memory: COPY, COPY2D (R377-R379), GATHER, SCATTER (R380, R381),
LDQ (R382), BREFILL (R385). Each checks its registers, presents its addresses and issues; WORD_COMPLETION moves the data.
The first operand an issued word keeps is the value of its token, then come the bytes of its counted add, the counter of that
add, and 1 if there is one.
-/

namespace Sys2Proof.Machine

/-- The first failing check's offending value. -/
def firstBad (l : List (Bool × Nat)) : Option Nat := (l.find? fun x => !x.1).map (·.2)

/-- Fields of MODE and IMM15 of COPY and COPY2D (R377). -/
def copyOne (f : FAM) : Bool := f.mode.getLsbD 5
def copyCnt (f : FAM) : Bool := f.mode.getLsbD 4
def copyDesk (f : FAM) : Nat := (f.imm.extractLsb' 10 5).toNat
def copyStride (f : FAM) : Nat :=
  let d := (f.imm.extractLsb' 5 5).toNat
  if d = 0 then 0 else 2 ^ d

/-- Desks that take part. -/
def copyDesks (s : State) (c : Nat) (f : FAM) : List Nat := if copyOne f then [copyDesk f] else desksOf s c

/-- s[SC] as a barrier handle (R256, R377): in range, INDEX even. -/
def cntBad (s : State) (cnt : Bool) (h : W64) : Bool × Nat := (!cnt || (handleOk s h.toNat && !h.getLsbD 0), h.toNat)

/-- T begins a tower range of n bytes; the offending value is T. -/
def rangeBad (s : State) (c t n : Nat) : Bool × Nat := (towerRange (hotOn s c) t n, t)

def cntOps (tok bytes : Nat) (cnt : Bool) (h : W64) : List W64 :=
  [BitVec.ofNat 64 tok, BitVec.ofNat 64 bytes, h + 1, if cnt then 1 else 0]

/-- The movements of a COPY: by ascending desk, or one global movement. -/
def copyLegs (s : State) (c : Nat) (f : FAM) (kind d a n : Nat) : List Leg :=
  match kind with
  | 0 => (copyDesks s c f).map fun k => ⟨.glob (a + k * copyStride f), .tower c k d, n⟩
  | 1 => (copyDesks s c f).map fun k => ⟨.tower c k a, .glob (d + k * copyStride f), n⟩
  | _ => [⟨.glob a, .glob d, n⟩]

/-- COPY (R377). -/
def execCopy (h : Hdr) (f : FAM) (s : State) : Out :=
  runWord (.copy h f) (fun s => clsOnly s <|
    let c := focusCls s
    let kind := copyKind (.copy h f)
    let n := (aget s f.an).toNat
    let d := (aget s f.ad).toNat
    let a := (aget s f.as).toNat
    match firstBad
      [(n % 64 == 0 && decide (64 ≤ n) && decide (n ≤ if kind = 2 then 2 ^ 32 else 2 ^ 25), n),
       if kind = 0 then rangeBad s c d n else if kind = 1 then rangeBad s c a n else (true, 0),
       (kind == 0 || d % 64 == 0, d), (kind == 1 || a % 64 == 0, a),
       (!copyOne f || deskActive (hotOn s c) (copyDesk f), copyDesk f),
       cntBad s (copyCnt f) (sget s f.sc)] with
    | some v => .trap 0x02 (BitVec.ofNat 64 v)
    | none =>
      accessBody (.copy h f) s c { legs := copyLegs s c f kind d a n, perDesk := if kind = 1 then n else 0 } (fun _ => none)
        (cntOps n n (copyCnt f) (sget s f.sc))) s

/-- The movements of a COPY2D: rows ascending, within a row desks ascending (R379). -/
def copy2dLegs (s : State) (c : Nat) (f : FAM) (kind d a w r pd ps : Nat) : List Leg :=
  (List.range r).flatMap fun j => copyLegs s c f kind (d + j * pd) (a + j * ps) w

/-- COPY2D (R379). R173 lists the words that take an aperture address and R221 those that take an alias; COPY2D is none of either. -/
def execCopy2d (h : Hdr) (f : FAM) (s : State) : Out :=
  runWord (.copy2d h f) (fun s => clsOnly s <|
    let c := focusCls s
    let kind := copyKind (.copy2d h f)
    let an := (aget s f.an).toNat
    let r := an / 2 ^ 32
    let w := an % 2 ^ 32
    let sc := (sget s f.sc).toNat
    let pd := sc / 2 ^ 32
    let ps := sc % 2 ^ 32
    let d := (aget s f.ad).toNat
    let a := (aget s f.as).toNat
    let rows := fun (t p : Nat) => ((List.range r).find? fun j => !towerRange (hotOn s c) (t + j * p) w).map fun j => t + j * p
    match firstBad
      [(decide (1 ≤ r) && decide (r ≤ 2 ^ 20) && w % 64 == 0 && decide (64 ≤ w) && decide (w ≤ 2 ^ 25), an),
       (pd % 64 == 0 && ps % 64 == 0 && decide (w ≤ pd) && decide (w ≤ ps), sc),
       (kind == 0 || d % 64 == 0, d), (kind == 1 || a % 64 == 0, a),
       (!copyOne f || deskActive (hotOn s c) (copyDesk f), copyDesk f)] with
    | some v => .trap 0x02 (BitVec.ofNat 64 v)
    | none =>
      match (if kind = 0 then rows d pd else if kind = 1 then rows a ps else none) with
      | some v => .trap 0x02 (BitVec.ofNat 64 v)
      | none =>
        accessBody (.copy2d h f) s c
          { legs := copy2dLegs s c f kind d a w r pd ps, al := ⟨false, false⟩, perDesk := if kind = 1 then r * w else 0 }
          (fun _ => none) (cntOps (r * w) 0 false 0)) s

/-! ## GATHER and SCATTER -/

/-- Row size. -/
def rowSize (f : FAM) : Nat := 64 * 2 ^ (f.mode.extractLsb' 4 4).toNat
def rowCnt (f : FAM) : Bool := f.mode.getLsbD 3

/-- Bytes of an index list, whole lines. -/
def listBytes (n : Nat) : Nat := (4 * n + 63) / 64 * 64

/-- The lists with the next eight lines of each desk, as they stand (R381). -/
def readMore (s : State) (c off n : Nat) (ds : List Nat) (ls : List (List Nat)) : List (List Nat) :=
  (ds.zipIdx).map fun d =>
    let old := ls.getD d.2 []
    let m := min 128 (n - old.length)
    old ++ elems 32 m (leNat (readTower s c d.1 (off + 4 * old.length) (4 * m)))

/-- Every list has been read. -/
def listsRead (n : Nat) (ls : List (List Nat)) : Bool := (ls.headD []).length == n

/-- Poison among the next eight index lines of each desk: consumed as an address (R380). -/
def listPoison (s : State) (c off n : Nat) (ds : List Nat) (ls : List (List Nat)) : Option (PUnit × Bool) :=
  if s.poison.isEmpty then none
  else
    let j0 := (ls.headD []).length / 16
    firstPoison s (ds.flatMap fun d => (List.range (min 8 (listBytes n / 64 - j0))).map fun j =>
      lineUnit s c d (off + 64 * (j0 + j)))

/-- Rows in order: by desk, then by index. -/
def rowLegs (gather : Bool) (c base tow rs : Nat) (ds : List Nat) (ls : List (List Nat)) : List Leg :=
  (ds.zip ls).flatMap fun x => (x.2.zipIdx).map fun y =>
    let g := base + y.1 * rs
    let t := tow + y.2 * rs
    if gather then ⟨.glob g, .tower c x.1 t, rs⟩ else ⟨.tower c x.1 t, .glob g, rs⟩

/-- GATHER and SCATTER (R380, R381): the registers are checked, the tokens are taken and the lists read, eight lines of each desk at
a time, then the rows are presented. -/
def rowBody (i : Instr) (f : FAM) (gather : Bool) (s : State) : Res := clsOnly s <|
  let c := focusCls s
  let k := getCls s c
  let n := f.imm.toNat
  let rs := rowSize f
  let base := (aget s (if gather then f.as else f.ad)).toNat
  let tow := (aget s (if gather then f.ad else f.as)).toNat
  let off := (aget s f.an).toNat
  let ds := desksOf s c
  match firstBad
    [rangeBad s c tow (n * rs), (base % 64 == 0, base), rangeBad s c off (listBytes n),
     cntBad s (rowCnt f) (sget s f.sc)] with
  | some v => .trap 0x02 (BitVec.ofNat 64 v)
  | none =>
    let ls := ((takenHere k .a).bind (·.index)).getD []
    if !listsRead n ls then
      -- the lists are read in the A engine's order (R154), eight lines of each desk in a cycle
      if overlap (deskSpans s c off (listBytes n))
          ((olderOps k k.wa.ord).flatMap fun g => if g.eng == .a then moveWrites s c g.moves else []) then .stall else
      let t : Taken := ⟨k.run, k.wa.ord, some (readMore s c off n ds ls)⟩
      let s' := modCls s c fun k =>
        let k := match takenHere k .a with
          | some o => { k with taken := k.taken.erase o }
          | none => takeTokens k (hdr i).cmask
        { k with taken := t :: k.taken }
      match listPoison s c off n ds ls with
      | some x => .stop (consumePoison s' c .a x.2 x.1 0)
      | none => .stop s'
    else
      accessBody i s c { legs := rowLegs gather c base tow rs ds ls, perDesk := if gather then 0 else n * rs } (fun _ => none)
        (cntOps n (n * rs) (rowCnt f) (sget s f.sc)
          ++ [BitVec.ofNat 64 base, BitVec.ofNat 64 tow, BitVec.ofNat 64 off])

def execGather (h : Hdr) (f : FAM) (s : State) : Out := runWord (.gather h f) (rowBody (.gather h f) f true) s
def execScatter (h : Hdr) (f : FAM) (s : State) : Out := runWord (.scatter h f) (rowBody (.scatter h f) f false) s

/-- One row resolved anew, with the views as the word issued with them (R220); a row whose address can no longer be presented moves
nothing (log 22). -/
def rerow (s : State) (vs : List ViewSlot) (c rs : Nat) (l : Leg) : Move :=
  match resolveLegs s vs c ⟨true, true⟩ [l] [] with
  | .ok (m :: _) => m
  | _ => ⟨.none, .none, rs⟩

/-- The lines of a row that were read at issue, on their way to where the row goes now. -/
def relined (old : List Move) (m : Move) : List Move :=
  (old.zipIdx).map fun e => ⟨e.1.src, advanceEnd m.dst (64 * e.2), 64⟩

/-- A word halted in a later batch takes the lists that it has read again for the rows not yet moved (R381); lines read at issue stay
as read. -/
def reread (s : State) (c : Nat) (f : InFlight) (g : FAM) (gather : Bool) : List Move :=
  let o := fun n => (f.ops.getD n 0).toNat
  let rs := rowSize g
  let ds := desksOf s c
  let rows := rowLegs gather c (o 4) (o 5) rs ds f.index
  let done := (f.prog + rs - 1) / rs
  let captured := f.moves.any fun m => match m.src with
    | .line _ _ => true
    | _ => false
  if captured then
    f.moves.take (done * rs / 64) ++ ((rows.drop done).zipIdx).flatMap fun e =>
      relined ((f.moves.drop ((done + e.2) * rs / 64)).take (rs / 64)) (rerow s f.slots c rs e.1)
  else f.moves.take done ++ (rows.drop done).map (rerow s f.slots c rs)

/-! ## LDQ -/

def ldqQv (f : FAM) : Bool := f.mode.getLsbD 7
def ldqBytes (f : FAM) : Nat := 2 ^ (f.mode.extractLsb' 5 2).toNat
def ldqSx (f : FAM) : Bool := f.mode.getLsbD 4

/-- LDQ (R382): with no free entry in its queue it does not issue (R215). -/
def execLdq (h : Hdr) (f : FAM) (s : State) : Out :=
  runWord (.ldq h f) (fun s => clsOnly s <|
    let c := focusCls s
    let n := ldqBytes f
    let x := (aget s f.as).toNat + f.imm.toNat
    if x % n ≠ 0 then .trap 0x02 (BitVec.ofNat 64 x)
    else if !roomQ (getCls s c) (ldqQv f) then .stall
    else accessBody (.ldq h f) s c { legs := [⟨.glob x, .none, n⟩] } (fun _ => none) []) s

/-! ## BREFILL -/

/-- The column bits of s[SC] and a[AN] (R385). -/
def refillColumns (an sc : Nat) : List Nat :=
  (List.range 80).filter fun b => (sc + an % 2 ^ 16 * 2 ^ 64).testBit b
/-- Class and desk column of a column bit on a die. -/
def columnOf (die b : Nat) : Nat × Nat := (20 * die + b / 4, b % 4)
def refillTargets (an sc : Nat) : List (Nat × Nat) := (refillColumns an sc).map (columnOf (an / 2 ^ 16 % 2))

/-- Bytes a beat writes on one desk. -/
def beatBytes (slice : Bool) : Nat := if slice then 64 else 512

/-- The movements of beats 0 to N − 1, each to every desk of the column set (R194). -/
def refillLegs (slice : Bool) (t src n : Nat) (cols : List (Nat × Nat)) : List Leg :=
  (List.range n).flatMap fun b => cols.flatMap fun x => (List.range 8).map fun r =>
    ⟨.glob (src + 512 * b + if slice then 64 * r else 0), .tower x.1 (4 * r + x.2) (t + beatBytes slice * b), beatBytes slice⟩

/-- The class is one of the partition's (R60). -/
def classIn (s : State) (part c : Nat) : Bool := (partArg s part 1).testBit c && decide (c < 40)

/-- Every column named is of the partition's classes; else the register that names the first one that is not: bits 0-63 stand in
s[SC], bits 64-79 in a[AN] (R372, R385). -/
def foreignColumn (s : State) (part an sc : Nat) : Bool × Nat :=
  match (refillColumns an sc).find? fun b => !classIn s part (columnOf (an / 2 ^ 16 % 2) b).1 with
  | none => (true, 0)
  | some b => (false, if b < 64 then sc else an)

/-- BREFILL (R385): with FRC = 1 on a target class it is held before issue (R196). -/
def execBrefill (h : Hdr) (f : FAM) (s : State) : Out :=
  runWord (.brefill h f) (fun s => clsOnly s <|
    let c := focusCls s
    let slice := f.mode.getLsbD 0
    let an := (aget s f.an).toNat
    let sc := (sget s f.sc).toNat
    let n := an / 2 ^ 32
    let t := (aget s f.ad).toNat
    let src := (aget s f.as).toNat
    let cols := refillTargets an sc
    match firstBad
      [(!cols.isEmpty && an / 2 ^ 17 % 2 ^ 15 == 0 && decide (1 ≤ n), an),
       foreignColumn s (partOf s c) an sc,
       (t % 64 == 0 && decide (t + beatBytes slice * n ≤ 2 ^ 25), t), (src % 64 == 0, src)] with
    | some v => .trap 0x02 (BitVec.ofNat 64 v)
    | none =>
      if cols.any fun x => frcOf (getCls s x.1) then .stall
      else accessBody (.brefill h f) s c { legs := refillLegs slice t src n cols, al := ⟨false, true⟩ } (fun _ => none)
        (cntOps n 0 false 0 ++ [BitVec.ofNat 64 (cols.length * 8 * beatBytes slice)])) s

/-- NEXT of a refill: beats wholly written (R196). -/
def refillNext (f : InFlight) : Nat := f.prog / max 1 (f.ops.getD 4 0).toNat

/-- Classes that a refill writes. -/
def refillClasses (f : InFlight) : List Nat :=
  (f.moves.filterMap fun m => match m.dst with
    | .tower c _ _ => some c
    | .mem _ => none
    | .view _ _ _ _ => none
    | .handle _ => none
    | .line _ _ => none
    | .none => none).dedup

/-! ## VIEW.DEF -/

/-- VIEW.DEF (R220, R384): the slot is defined for later A words when it issues; the aliases are written at completion. -/
def execViewDef (h : Hdr) (f : FAM) (s : State) : Out :=
  runWord (.viewDef h f) (fun s => clsOnly s <|
    let c := focusCls s
    let b := (aget s f.as).toNat
    let an := (aget s f.an).toNat
    let nr := an % 2 ^ 25
    let nc := an / 2 ^ 25
    let e := 2 ^ (f.mode.extractLsb' 4 2).toNat
    let p := (sget s f.sc).toNat
    let inSeg := match findSeg (segsOf (winOf s c)) b with
      | some g => decide (b + nr * p ≤ g.vbase + g.len)
      | none => false
    if 1 ≤ nr ∧ nr ≤ 2 ^ 24 ∧ 1 ≤ nc ∧ p % 64 = 0 ∧ nc * e ≤ p ∧ nr * nc * e ≤ 2 ^ 42 ∧ inSeg = true then
      let slot := (f.mode.extractLsb' 0 4).toNat
      let v : ViewSlot := ⟨true, b, p, nc, nr, e⟩
      let s' := modCls s c fun k => { k with
        views := (List.range 16).map fun j => if j = slot then v else k.views.getD j {} }
      let alias0 := 0xFD * 2 ^ 48 + slot * 2 ^ 42
      .async s' [BitVec.ofNat 64 (alias0 + 2 ^ 46), if hasTiled v then BitVec.ofNat 64 (alias0 + 2 ^ 47) else 0] []
    else .trap 0x02 (BitVec.ofNat 64 b)) s

end Sys2Proof.Machine
end

