-- ==== Sys2Proof/Machine/Pool.lean ====
section
/-!
DEFINITION. The block-store words and their map operations at the pool's home (R225-R228, R383).
-/

namespace Sys2Proof.Machine

/-- PNUM of a block-store word. -/
def kvPnum (f : FAM) : Nat := (f.mode.extractLsb' 0 4).toNat

/-- The word reads its keys and goes to QA; with no such pool the segment fault names PNUM. It touches the whole pool
(R249). -/
def kvWord (i : Instr) (f : FAM) (s : State) : Out :=
  runWord i (fun s => clsOnly s <|
    match poolOf s (focusCls s) (kvPnum f) with
    | none => .trap 0x02 (BitVec.ofNat 64 (kvPnum f))
    | some p => .async s [aget s f.as, aget s f.an] [⟨.mem p.seg.vbase, .none, p.seg.len⟩]) s

def execKvmap (h : Hdr) (f : FAM) (s : State) : Out := kvWord (.kvmap h f) f s
def execKvshare (h : Hdr) (f : FAM) (s : State) : Out := kvWord (.kvshare h f) f s
def execKvfree (h : Hdr) (f : FAM) (s : State) : Out := kvWord (.kvfree h f) f s

/-! ## Probing (R227) -/

/-- First slot of a key's probe. -/
def probeAt (key : Nat) : Nat := (key / 2 ^ 32 % 2 ^ 32) ^^^ (key % 2 ^ 32 * 0x9E3779B9 % 2 ^ 32)

/-- Slots visited, in order: eight at most, the first that is empty and no tombstone the last. -/
def visitFrom (s : State) (p : Pool) (x : Nat) : Nat → Nat → List Nat
  | 0, _ => []
  | n + 1, j =>
    let k := (x + j) % p.nent
    let e := getEntry s p k
    k :: if !e.v && !e.t then [] else visitFrom s p x n (j + 1)

def visit (s : State) (p : Pool) (key : Nat) : List Nat := visitFrom s p (probeAt key) 8 0

/-- The live entry of a key. -/
def liveAt (s : State) (p : Pool) (key : Nat) : Option Nat :=
  (visit s p key).find? fun k => let e := getEntry s p k; e.v && e.key == key

/-- The first visited slot that an entry can take. -/
def openAt (s : State) (p : Pool) (key : Nat) : Option Nat := (visit s p key).find? fun k => !(getEntry s p k).v

/-- A new live entry for a block in a slot: its handle and the state. -/
def addEntry (s : State) (p : Pool) (k key b : Nat) : Nat × State :=
  let g := ((getEntry s p k).gen + 1) % 16
  (mkHandle p k g, setNlive (setEntry s p k ⟨key, b, true, false, g⟩) p (nlive s p + 1))

/-- A block written with zeros. -/
def zeroBlock (s : State) (p : Pool) (b : Nat) : State :=
  let n := 2 ^ p.log2
  let s := poolWrite s p (blockOff p b) (List.replicate n 0)
  if s.poison.isEmpty then s
  else (List.range (n / 64)).foldl (fun s j => clearPoison s (.phys (blockAt p b / 64 + j))) s

/-- KVMAP: handle, status, state. -/
def kvMap (s : State) (p : Pool) (key : Nat) : Nat × Nat × State :=
  match liveAt s p key with
  | some k => (mkHandle p k (getEntry s p k).gen, 0, s)
  | none =>
    match openAt s p key, popBlock s p with
    | some k, some (b, s1) =>
      let r := addEntry (setRefCount (zeroBlock s1 p b) p b 1) p k key b
      (r.1, 1, r.2)
    | _, _ => (0, 2, s)

/-- KVSHARE: handle, status, state. -/
def kvShare (s : State) (p : Pool) (new old : Nat) : Nat × Nat × State :=
  match liveAt s p old with
  | none => (0, 3, s)
  | some o =>
    if (liveAt s p new).isSome then (0, 4, s)
    else
      let b := (getEntry s p o).block
      match openAt s p new with
      | none => (0, 2, s)
      | some k =>
        if 65535 ≤ refCount s p b then (0, 2, s)
        else
          let r := addEntry (setRefCount s p b (refCount s p b + 1)) p k new b
          (r.1, 0, r.2)

/-- Release one entry of a sequence. -/
def freeEntry (p : Pool) (seq : Nat) (x : Nat × State) (k : Nat) : Nat × State :=
  let s := x.2
  let e := getEntry s p k
  if e.v && e.key / 2 ^ 32 == seq then
    let c := refCount s p e.block - 1
    let s := setRefCount (setNlive (setEntry s p k { e with v := false, t := true }) p (nlive s p - 1)) p e.block c
    (x.1 + 1, if c = 0 then pushBlock s p e.block else s)
  else x

/-- KVFREE: entries released, state. -/
def kvFree (s : State) (p : Pool) (seq : Nat) : Nat × State := (List.range p.nent).foldl (freeEntry p seq) (0, s)

/-! ## MAP_OP_ARRIVAL -/

/-- Write a[n] of class `c` at the completion of a word. -/
def setA (s : State) (c n : Nat) (v : W64) : State := modCls s c fun k => { k with areg := tset 0 k.areg n v }

/-- Nothing holds a command of QA: its markers, its earlier commands on the same locations, a freeze (R126, R249, R251). -/
def qaReady (s : State) (c : Nat) (f : InFlight) : Bool :=
  let k := getCls s c
  k.live && !k.frozen && fenceClear k f
    && qaFirst s c (k.inflight.filter fun g => before g.run g.ord g.id f.run f.ord f.id) f.moves

/-- MAP_OP_ARRIVAL: the pool's home performs a block-store word and the reply completes it (R227, R383). Poison of the entries that it
reads is consumed (R130); it waits for an atomic that has read a word of the pool and not written it (R233). -/
def execMapOpArrival (c id : Nat) (s : State) : Out :=
  match findOp s c id with
  | none => .next s
  | some f =>
    if !qaReady s c f then .next s
    else
      let key := (f.ops.getD 0 0).toNat
      let old := (f.ops.getD 1 0).toNat
      let go := fun (g : FAM) (slots : Pool → List Nat) (act : Pool → State) =>
        match poolOf s c (kvPnum g) with
        | none => s
        | some p =>
          if amoOpen s p.seg.pbase p.seg.len then s
          else match entryPoison s p (slots p) with
            | some x => consumeAt s c .a f.ord x.2.2 x.1 x.2.1
            | none => act p
      let two := fun (g : FAM) (r : Nat × Nat × State) =>
        complete (setS (setA r.2.2 c g.ad.toNat (BitVec.ofNat 64 r.1)) c g.tok.toNat (BitVec.ofNat 64 r.2.1)) c f
      match f.instr with
      | .kvmap _ g => .next (go g (fun p => visit s p key) fun p => two g (kvMap s p key))
      | .kvshare _ g => .next (go g (fun p => visit s p old ++ visit s p key) fun p => two g (kvShare s p key old))
      | .kvfree _ g => .next (go g (fun p => List.range p.nent) fun p =>
          let r := kvFree s p (key / 2 ^ 32)
          complete (setS r.2 c g.tok.toNat (BitVec.ofNat 64 r.1)) c f)
      | _ => .next s

end Sys2Proof.Machine
end

