-- ==== Sys2Proof/Machine/Atomic.lean ====
section
/-!
DEFINITION. The atomics (R232, R453, R454).
-/

namespace Sys2Proof.Machine

/-- The physical address of a place in host memory. -/
def inHost (s : State) (c va : Nat) : Bool :=
  match placeOf s c [] va with
  | .pa a => decide (hostBase ≤ a)
  | .halt _ _ => false
  | .wait => false
  | .none => false

/-- A target in host memory raises the segment fault at its address. -/
def amoCheck (s : State) (c va : Nat) (ms : List Move) : Option Nat :=
  if ms.any fun m => match m.dst with
    | .mem a => inHost s c a
    | .tower _ _ _ => false
    | .view _ _ _ _ => false
    | .handle _ => false
    | .line _ _ => false
    | .none => false
  then some va else none

/-- An atomic: alignment, an entry of QS with RET = 1, translation and W permission before issue (R453). -/
def amoWord (i : Instr) (f : FAO) (s : State) : Out :=
  runWord i (fun s => clsOnly s <|
    let c := focusCls s
    let x := (aget s f.ad).toNat
    let n := amoBytes f
    if x % n ≠ 0 then .trap 0x02 (BitVec.ofNat 64 x)
    else if f.ret && !roomQ (getCls s c) false then .stall
    else accessBody i s c { legs := [⟨.none, .glob x, n⟩], al := ⟨false, false⟩, kdst := 2 } (amoCheck s c x)
      [sget s f.sv, sget s f.sw]) s

def execAmoAdd (h : Hdr) (f : FAO) (s : State) : Out := amoWord (.amoAdd h f) f s
def execAmoMax (h : Hdr) (f : FAO) (s : State) : Out := amoWord (.amoMax h f) f s
def execAmoMin (h : Hdr) (f : FAO) (s : State) : Out := amoWord (.amoMin h f) f s
def execAmoAnd (h : Hdr) (f : FAO) (s : State) : Out := amoWord (.amoAnd h f) f s
def execAmoOr (h : Hdr) (f : FAO) (s : State) : Out := amoWord (.amoOr h f) f s
def execAmoXchg (h : Hdr) (f : FAO) (s : State) : Out := amoWord (.amoXchg h f) f s
def execAmoCas (h : Hdr) (f : FAO) (s : State) : Out := amoWord (.amoCas h f) f s

/-- The new value of an `b`-byte word (R453): `o` old, `v` and `c` at the size; none for other words. -/
def amoNew (i : Instr) (b o v c : Nat) : Option Nat :=
  match i with
  | .amoAdd _ _ => some ((o + v) % 2 ^ (8 * b))
  | .amoMax _ _ => some (max o v)
  | .amoMin _ _ => some (min o v)
  | .amoAnd _ _ => some (o &&& v)
  | .amoOr _ _ => some (o ||| v)
  | .amoXchg _ _ => some v
  | .amoCas _ _ => some (if o = c then v else o)
  | _ => none

/-- The address that an issued atomic presented. -/
def amoVa (f : InFlight) : Nat :=
  match f.moves with
  | ⟨_, .mem va, _⟩ :: _ => va
  | ⟨_, .handle va, _⟩ :: _ => va
  | _ => 0

/-- Where an issued atomic acts, with its window-table address, or the halt of its walk; a handle resolves as it is used, after a
copy-on-write where its block is shared (R226, R228). -/
def amoTarget (s : State) (c : Nat) (f : InFlight) : State × Nat × Place :=
  match f.moves with
  | ⟨_, .mem va, _⟩ :: _ => (s, va, placeOf s c f.pages va)
  | ⟨_, .handle va, n⟩ :: _ =>
    match (if handleShared s c va then copyOnWrite s c va else some s) with
    | none => (s, va, .halt 4 (handleTable s c va))
    | some t =>
      match handleVa t c va n with
      | some a => (t, a, placeOf t c f.pages a)
      | none => (s, va, .none)
  | _ => (s, 0, .none)

/-- What an atomic stores, of the value it has read. -/
def amoStore (f : InFlight) (g : FAO) (o : Nat) : Nat :=
  let b := amoBytes g
  (amoNew f.instr b o ((f.ops.getD 0 0).toNat % 2 ^ (8 * b)) ((f.ops.getD 1 0).toNat % 2 ^ (8 * b))).getD o

/-- The value goes to memory under its address. -/
def amoCommit (s : State) (f : InFlight) (g : FAO) (pa va o : Nat) : State :=
  writePhysNat (noteSpan s pa va (amoBytes g)) pa (amoBytes g) (amoStore f g o)

/-- The old value returns where the word asks for it, and the word completes. -/
def amoAnswer (s : State) (c : Nat) (f : InFlight) (g : FAO) (o : Nat) : State :=
  complete (if g.ret then pushQs s c (BitVec.ofNat 64 o) else s) c f

/-- The value goes to memory and the old one returns. -/
def amoFinish (s : State) (c : Nat) (f : InFlight) (g : FAO) (pa va o : Nat) : State :=
  amoAnswer (amoCommit s f g pa va o) c f g o

/-- The atomic is performed as one step on device-visible contents: over CXL.cache on a system-atomic page (R234). -/
def amoPerform (s : State) (c : Nat) (f : InFlight) (g : FAO) (pa va : Nat) : State :=
  amoFinish s c f g pa va (readNat s pa (amoBytes g))

/-- SA of the page at a physical address (R233, R234). -/
def saPage (s : State) (pa : Nat) : Bool :=
  match frameIdx pa with
  | some x => (iptEntry s x.1 x.2).sa && saAllowed s x.2
  | none => false

/-- The engine of an address has read for an atomic that it has not written yet: it serialises them (R232). -/
def engineBusy (s : State) (pa : Nat) : Bool :=
  s.cls.any fun k => (underWay k).any fun f =>
    (amoFields f.instr).isSome && f.prog == 1 && dieOfPa (f.ops.getD 3 0).toNat == dieOfPa pa

/-- The operands of an atomic with the value it has read, its physical address and its window-table address. -/
def amoOps (f : InFlight) (o pa va : Nat) : List W64 :=
  [f.ops.getD 0 0, f.ops.getD 1 0, BitVec.ofNat 64 o, BitVec.ofNat 64 pa, BitVec.ofNat 64 va]

/-- The engine reads the word at the memory controller (R233). -/
def amoRead (s : State) (c : Nat) (f : InFlight) (g : FAO) (pa va : Nat) : State :=
  modOp s c f.id fun f => { f with prog := 1, ops := amoOps f (readNat s pa (amoBytes g)) pa va }

/-- The engine writes what it made of the value it has read: a host write between is overwritten (R233). -/
def amoWrite (s : State) (c : Nat) (f : InFlight) (g : FAO) : State :=
  amoFinish s c f g (f.ops.getD 3 0).toNat (f.ops.getD 4 0).toNat (f.ops.getD 2 0).toNat

end Sys2Proof.Machine
end

