-- ==== Sys2Proof/Machine/VMem.lean ====
section
/-!
DEFINITION. The tower loads and stores of the V engine (R414-R417).
-/

namespace Sys2Proof.Machine

/-- How segment j is placed (R414). -/
inductive SegKind where
  | unit | stride | index
  deriving DecidableEq, Repr

/-- B = u(s[SB]) + 64·OFF. -/
def vmBase (s : State) (f : FVM) : Nat := (sget s f.sb).toNat + 64 * f.off.toNat

/-- Tower offset of segment `j` on a desk. -/
def segOff (s : State) (f : FVM) (p : SegKind) (x : Desk) (j : Nat) : Nat :=
  match p with
  | .unit => vmBase s f + 64 * j
  | .stride => vmBase s f + j * (sget s f.sx).toNat
  | .index => vmBase s f + 64 * elem 32 (x.v f.vx) j

/-- Segments that take part: 64·j < LEN. -/
def segs (x : Desk) : List Nat := (List.range 8).filter fun j => 64 * j < x.len
/-- The 16 lane bits of segment `j`. -/
def segMask (x : Desk) (f : FVM) (j : Nat) : Nat := x.mask f.k / 2 ^ (16 * j) % 2 ^ 16
/-- Segments of which some lane is enabled. -/
def liveSegs (x : Desk) (f : FVM) : List Nat := (segs x).filter fun j => segMask x f j != 0

/-- The first offending offset: lowest desk, then lowest j. -/
def vmBad (s : State) (f : FVM) (p : SegKind) (c : Nat) : Option Nat :=
  (desksOf s c).findSome? fun d =>
    let x := deskView s c d
    (segs x).findSome? fun j =>
      let o := segOff s f p x j
      if towerRange x.hot o 64 then none else some o

/-- Byte-wise merge of two lines by the 4-byte lane bits of `m`: enabled bytes from `new`. -/
def laneMix (m : Nat) (new old : List Byte) : List Byte :=
  ((new.zip old).zipIdx).map fun e => if m.testBit (e.2 / 4) then e.1.1 else e.1.2

/-- The 64 bytes of unit `u` of a register. -/
def unitBytes (v u : Nat) : List Byte := leBytes 64 (v / 2 ^ (512 * u) % 2 ^ 512)
/-- A register with unit `u` replaced. -/
def setUnit (v u : Nat) (bs : List Byte) : Nat :=
  v % 2 ^ (512 * u) + 2 ^ (512 * u) * leNat bs + v / 2 ^ (512 * (u + 1)) * 2 ^ (512 * (u + 1))

/-! ## Passes (R416) -/

/-- The bank of a line: its tower and offset[9:6] (R179). -/
def bankOf (s : State) (c d off : Nat) : Nat × Nat :=
  let t := towerOf (getCls s c) d off
  (t.1, t.2 / 64 % 16)

/-- The passes of a load's segments, given their banks in ascending j: in pass p the p-th segment of each bank. -/
def loadPasses (bs : List (Nat × Nat)) : List Nat := (bs.zipIdx).map fun e => ((bs.take e.2).filter (· == e.1)).length

/-- The segments of a store's next pass: of up to four banks, those with the most unwritten segments first, among those the one whose
next segment has the lowest j. -/
def storePick (xs : List (Nat × Nat × Nat)) : List Nat :=
  let left := fun (x : Nat × Nat × Nat) => (xs.filter fun y => y.2 == x.2).length
  let heads := xs.filter fun x => (xs.find? fun y => y.2 == x.2) == some x
  (((List.range 8).flatMap fun n => heads.filter fun x => left x == 8 - n).take 4).map (·.1)

/-- The passes of a store's segments, by j. -/
def storePasses : Nat → Nat → List (Nat × Nat × Nat) → List (Nat × Nat)
  | 0, _, _ => []
  | n + 1, p, xs =>
    if xs.isEmpty then []
    else
      let js := storePick xs
      js.map (fun j => (j, p)) ++ storePasses n (p + 1) (xs.filter fun x => !js.contains x.1)

/-- The segments of a word on one desk, with their passes; a store's with the bytes of its register and their poison. -/
def deskSegs (s : State) (f : FVM) (p : SegKind) (load : Bool) (x : Desk) : List Strip :=
  let js := segs x
  let bank := fun (j : Nat) => bankOf s x.c x.d (segOff s f p x j)
  let lp := loadPasses (js.map bank)
  let sp := storePasses 8 0 (js.map fun j => (j, bank j))
  (js.zipIdx).map fun e =>
    let g : Strip := { pass := lp.getD e.2 0, desk := x.d, unit := e.1, off := segOff s f p x e.1, mask := segMask x f e.1 }
    if load then g
    else { g with pass := ((sp.find? fun y => y.1 = e.1).map (·.2)).getD 0, line := unitBytes (x.v f.v) e.1
                  p := match x.vUnit f.v.toNat e.1 with
                    | [u] => poisonAt s u
                    | _ => none }

/-- The segments of a word on every desk. -/
def vmSegs (s : State) (f : FVM) (p : SegKind) (load : Bool) (c : Nat) : List Strip :=
  (desksOf s c).flatMap fun d => deskSegs s f p load (deskView s c d)

/-- The last pass of a word. -/
def lastPass (gs : List Strip) : Nat := (gs.map (·.pass)).foldl max 0

/-- Poison that the issue of a load or store consumes: of a register unit stored in part, of the mask, of the indices. -/
def vmPoison (s : State) (f : FVM) (p : SegKind) (load : Bool) (c : Nat) : Option (PUnit × Bool) :=
  if s.poison.isEmpty then none
  else firstPoison s <| (desksOf s c).flatMap fun d =>
    let x := deskView s c d
    let live := liveSegs x f
    (live.flatMap fun j => if segMask x f j = 0xFFFF || load then [] else x.vUnit f.v.toNat j)
      ++ (if live.isEmpty then [] else [.mask c d f.k.toNat 0])
      ++ (match p with
          | .index => x.vUnit f.vx.toNat 0
          | .unit => []
          | .stride => [])

/-- Poison that a pass of a load consumes: of lines moved in part. -/
def passPoison (s : State) (c n : Nat) (gs : List Strip) : Option (PUnit × Bool) :=
  if s.poison.isEmpty then none
  else firstPoison s <| gs.flatMap fun g =>
    if g.pass = n ∧ g.mask ≠ 0 ∧ g.mask ≠ 0xFFFF then [lineUnit s c g.desk g.off] else []

/-- A pass of a load: its lines as they stand now. -/
def loadPass (s : State) (c n : Nat) (gs : List Strip) : List Strip :=
  gs.map fun g => if g.pass = n then { g with line := readLine s c g.desk g.off, p := linePoison s c g.desk g.off } else g

/-- One segment stored: its line is written whole, bytes that are not enabled as they stand. -/
def storeSeg (c : Nat) (s : State) (g : Strip) : State :=
  if g.mask = 0xFFFF then writeLine s c g.desk g.off g.line g.p
  else writeTower s c g.desk g.off (laneMix g.mask g.line (readLine s c g.desk g.off))

/-- A pass of a store. -/
def storePass (s : State) (c n : Nat) (gs : List Strip) : State := (gs.filter fun g => g.pass = n).foldl (storeSeg c) s

/-- One segment loaded into its register. -/
def loadSeg (c r : Nat) (s : State) (g : Strip) : State :=
  let hot := hotOn s c
  let old := vGet (getCls s c) hot g.desk r
  let s := modCls s c fun k => vSet k hot g.desk r (setUnit old g.unit (laneMix g.mask g.line (unitBytes old g.unit)))
  if g.mask = 0xFFFF && !(s.poison.isEmpty && g.p.isNone) then
    match vKey hot g.desk r with
    | some y => movePoison s g.p (.vreg c y.1 y.2 g.unit)
    | none => s
  else s

/-- The values that a store contributes. -/
def vstValues (r : Record) (gs : List Strip) : List W32 :=
  gs.flatMap fun g =>
    ((List.range 16).filter fun l => g.mask.testBit l).flatMap fun l => laneValues r (elem 32 (leNat g.line) l)

/-- Every pass is done: a load writes its register, a store contributes what it has stored (R417). -/
def vmEnd (s : State) (c : Nat) (f : FVM) (load : Bool) (h : Nat) (gs : List Strip) : State :=
  if load then (gs.filter fun g => g.mask ≠ 0).foldl (loadSeg c f.v.toNat) s
  else if f.rc then contribute s c h (vstValues (getRec s h) gs) false
  else s

/-- Pass `n`: the state and the segments after it. -/
def vmPass (s : State) (c n : Nat) (load : Bool) (gs : List Strip) : State × List Strip :=
  if load then (s, loadPass s c n gs) else (storePass s c n gs, gs)

/-- The checks of a V tower word (R414, R417): the trap's TINFO. -/
def vmTrap (s : State) (f : FVM) (p : SegKind) : Option W64 :=
  match vmBad s f p (focusCls s) with
  | some o => some (BitVec.ofNat 64 o)
  | none => if f.rc && !recOk s (sget s f.srec).toNat then some (sget s f.srec) else none

/-- A load or store: its first pass as it issues, the others after that. -/
def vmWord (i : Instr) (f : FVM) (p : SegKind) (load : Bool) (s : State) : Out :=
  runWord i (fun s => clsOnly s <|
    let c := focusCls s
    match vmTrap s f p with
    | some t => .trap 0x02 t
    | none =>
      let gs := vmSegs s f p load c
      match (vmPoison s f p load c).or (if load then passPoison s c 0 gs else none) with
      | some x => .stop (consumePoison s c .v x.2 x.1 0)
      | none =>
        let h := sget s f.srec
        let r := vmPass s c 0 load gs
        if lastPass gs = 0 then .done (vmEnd r.1 c f load h.toNat r.2) else .paced r.1 [h] r.2) s

/-- The next pass of an issued load or store; with the last one it completes. -/
def vmAdvance (s : State) (c : Nat) (o : InFlight) (f : FVM) (load : Bool) : State :=
  match (if load then passPoison s c o.prog o.segs else none) with
  | some x => consumeAt s c .v o.ord x.2 x.1 0
  | none =>
    let r := vmPass s c o.prog load o.segs
    if lastPass o.segs ≤ o.prog then complete (vmEnd r.1 c f load (o.ops.getD 0 0).toNat r.2) c o
    else modOp r.1 c o.id fun g => { g with prog := o.prog + 1, segs := r.2 }

/-- The next pass of an issued V word. -/
def advanceV (s : State) (c : Nat) (o : InFlight) : State :=
  match o.instr.parts with
  | some ⟨_, _, .vm f⟩ => vmAdvance s c o f (decide (Instr.opcode o.instr < 0xC0))
  | _ => s

def execVld (h : Hdr) (f : FVM) (s : State) : Out := vmWord (.vld h f) f .unit true s
def execVlds (h : Hdr) (f : FVM) (s : State) : Out := vmWord (.vlds h f) f .stride true s
def execVldx (h : Hdr) (f : FVM) (s : State) : Out := vmWord (.vldx h f) f .index true s
def execVst (h : Hdr) (f : FVM) (s : State) : Out := vmWord (.vst h f) f .unit false s
def execVsts (h : Hdr) (f : FVM) (s : State) : Out := vmWord (.vsts h f) f .stride false s
def execVstx (h : Hdr) (f : FVM) (s : State) : Out := vmWord (.vstx h f) f .index false s

end Sys2Proof.Machine
end

