-- ==== Sys2Proof/Machine/Matrix.lean ====
section
/-!
DEFINITION. The M words (R420-R438): matrix steps, accumulator words, QCVT, MSTAT, and the trap merge (R321).
-/

namespace Sys2Proof.Machine

/-! ## Operands in the tower (R420-R422) -/

/-- An operand of `n` chunks at `base` passes R422: inside one tower's half. -/
def operandOk (hot : Bool) (base n : Nat) : Bool :=
  let last := base + 1024 * (n - 1) + 256
  base % 256 == 0 && (decide (last ≤ 2 ^ 25) || (hot && decide (2 ^ 25 ≤ base) && decide (last ≤ 2 ^ 26)))

/-- The operand's bytes, chunk by chunk, as a number. -/
def operandNat (s : State) (c d base n : Nat) : Nat :=
  leNat ((List.range n).flatMap fun q => readTower s c d (base + 1024 * q) 256)

/-- Tower units of an operand. -/
def operandUnits (s : State) (c d base n : Nat) : List PUnit :=
  (List.range n).flatMap fun q => (List.range 4).map fun l => lineUnit s c d (base + 1024 * q + 64 * l)

/-! ## Accumulators -/

def tileGet (k : ClassState) (d t : Nat) : Nat := (tget 0 k.tile (d * 4 + t)).toNat
def tileSet (k : ClassState) (d t v : Nat) : ClassState :=
  { k with tile := tset 0 k.tile (d * 4 + t) (BitVec.ofNat 65536 v) }
def accUnits (c d t : Nat) : List PUnit := (List.range 128).map fun g => .acc c d t g

/-- Write a tile whole: its poison is cleared. -/
def putTile (s : State) (c d t v : Nat) : State :=
  let s := modCls s c fun k => tileSet k d t v
  if s.poison.isEmpty then s else (accUnits c d t).foldl clearPoison s

/-! ## Steps (R423, R426, R427, R305) -/

/-- A step's form: element format of A, its bits, K, chunks of A and B. -/
structure StepForm where
  fmt : Fmt
  other : Fmt
  bits : Nat
  depth : Nat
  na : Nat
  nb : Nat

def stepBf16 : StepForm := ⟨fBf16, fBf16, 16, 16, 4, 8⟩
def stepE4m3 : StepForm := ⟨fE4m3, fE5m2, 8, 32, 4, 8⟩
def stepE5m2 : StepForm := ⟨fE5m2, fE4m3, 8, 32, 4, 8⟩
def stepK4 : StepForm := ⟨fE2m1, fE2m1, 4, 64, 5, 10⟩

/-- One operand value: element times band scale times block scale; a NaN keeps whether one of them is signalling. -/
def operandVal (e g sc : Val) : Val :=
  if e.isNan || g.isNan || sc.isNan then .nan (e.isSig || g.isSig || sc.isSig)
  else (mulVal (mulVal e sc).1 g).1

/-- `n` values of an operand from element number `first`; `scaleAt` is the first block-scale byte of K4. -/
def operandVals (p : StepForm) (f : Fmt) (v : Nat) (g : Val) (scaleAt first n : Nat) : List Val :=
  (List.range n).map fun j =>
    let e := first + j
    let sc := if p.bits = 4 then scaleVal (elem 8 v (scaleAt + e / 8)) else .fin false 1 0
    operandVal (valOf f (elem p.bits v e)) g sc

/-- acc + Σ a·b with R305's special cases; `acc` is empty for MMAZ. -/
def dotVal (acc : List Val) (as bs : List Val) : Val × Fl :=
  if (acc ++ as ++ bs).any Val.isNan then (.nan false, sigFl (acc ++ as ++ bs))
  else
    let ps := (as.zip bs).map fun e => mulVal e.1 e.2
    if ps.any fun e => e.1.isNan then (.nan false, flIv) else sumVal (acc ++ ps.map (·.1)) false

/-- A step's tile and flags on one desk. -/
def stepTile (p : StepForm) (zero : Bool) (fw : Nat) (a b c : Nat) : Nat × Fl :=
  let scl := fw.testBit 34
  let one : Val := .fin false 1 0
  let ga := if scl then valOf fBf16 (fw % 65536) else one
  let gb := if scl then valOf fBf16 (fw / 65536 % 65536) else one
  let fb := if fw.testBit 33 then p.other else p.fmt
  let rows := (List.range 32).map fun i => operandVals p p.fmt a ga 1024 (p.depth * i) p.depth
  let cols := (List.range 64).map fun j => operandVals p fb b gb 2048 (p.depth * j) p.depth
  let r := ((rows.flatMap fun x => cols.map fun y => (x, y)).zip (elems 32 2048 c)).foldr (fun e r =>
    let y := roundRes fF32 rne (dotVal (if zero then [] else [valOf fF32 e.2]) e.1.1 e.1.2)
    (y.1 :: r.1, y.2 ||| r.2)) (([] : List Nat), (0 : Fl))
  (packElems 32 r.1, r.2)

/-- QF is empty: M waits while S has not passed the word, else the format underflow (R160). -/
def noFormat (k : ClassState) : Res := if k.ws.ord ≤ k.wm.ord then .stall else .trap 0x01 0

/-- The head of QF goes, with the poison of its place. -/
def popQf (s : State) (c : Nat) : State := shiftPoison (modCls s c fun k => headOn { k with qf := k.qf.drop 1 } 3 16) c 3

/-! ## Waves (R40, R44, R428) -/

/-- A word of M that has issued runs waves of this many desks: a step, and a QCVT until its tile is converted. -/
def waveHeight (f : InFlight) : Option Nat :=
  let o := Instr.opcode f.instr
  if f.status == .issued && ((0xC8 ≤ o && o ≤ 0xCF) || (0xD4 ≤ o && o ≤ 0xD6 && f.segs.isEmpty)) then
    some (max 1 (f.ops.getD 3 0).toNat)
  else none

/-- The issued word of a class that runs waves. -/
def waving (k : ClassState) : Option InFlight := k.inflight.find? fun f => (waveHeight f).isSome

/-- Matrix units of a class with `active` desks that run a wave. -/
def unitsNow (k : ClassState) (active : Nat) : Nat :=
  match waving k with
  | some f => let h := (waveHeight f).getD 1; min h (active - f.prog * h)
  | none => 0

/-- The desks of wave `n`. -/
def waveDesks (s : State) (c h n : Nat) : List Nat := ((desksOf s c).drop (n * h)).take h

/-- Desks of a wave of the class: min(HUB, permit). Where matrix work begins, the permit starts at the present load, ballast included,
rounded up to a multiple of 8, at least 8. -/
def beginWaves (k : ClassState) : ClassState × Nat :=
  let permit := if k.busy then k.permit else min 32 (max 8 ((k.load + 4999) / 5000 * 8))
  ({ k with permit := permit }, max 1 (min k.hub permit))

/-- A word issues whose waves are to run: the height of its waves, and the class with its load risen to that of the first. -/
def runWaves (s : State) (c : Nat) : State × Nat :=
  let x := beginWaves (getCls s c)
  let u := min (desksOf s c).length x.2
  (modCls s c fun k => { (beginWaves k).1 with
    busy := true, load := max k.load (625 * u), bal := decide (625 * u < k.load) }, x.2)

/-- The body of a step word: QF and the bases are checked and the format word popped; the operands are read by the waves. -/
def stepBody (p : StepForm) (f : FMA) (s : State) : Res :=
  clsOnly s <|
    let c := focusCls s
    let hot := hotOn s c
    match (me s).qf with
    | [] => noFormat (me s)
    | fw :: _ =>
      if !operandOk hot (sget s f.sa).toNat p.na then .trap 0x02 (sget s f.sa)
      else if !operandOk hot (sget s f.sb).toNat p.nb then .trap 0x02 (sget s f.sb)
      else match poisonAt s (.queue c 3 0) with
        | some kind => .stop (consumePoison s c .m kind (.queue c 3 0) 0)
        | none =>
          let r := runWaves (popQf s c) c
          .async r.1 [fw, sget s f.sa, sget s f.sb, BitVec.ofNat 64 r.2] []

/-- Units that a wave reads. -/
def waveUnits (p : StepForm) (zero : Bool) (s : State) (c : Nat) (o : InFlight) (f : FMA) (ds : List Nat) : List PUnit :=
  ds.flatMap fun d => operandUnits s c d (o.ops.getD 1 0).toNat p.na ++ operandUnits s c d (o.ops.getD 2 0).toNat p.nb
    ++ (if zero then [] else accUnits c d f.c.toNat)

/-- The wave's desks, each with its operands as they stand now: accumulators and flags. -/
def waveTiles (p : StepForm) (zero : Bool) (s : State) (c : Nat) (o : InFlight) (f : FMA) (ds : List Nat) : State :=
  ds.foldl (fun t d =>
    let r := stepTile p zero (o.ops.getD 0 0).toNat (operandNat s c d (o.ops.getD 1 0).toNat p.na)
      (operandNat s c d (o.ops.getD 2 0).toNat p.nb) (tileGet (getCls s c) d f.c.toNat)
    modCls (putTile t c d f.c.toNat r.1) c fun k => orFlags k d r.2) s

/-- The next stage of an issued word, of `n` in all; with the last one it completes. -/
def nextStage (s : State) (c : Nat) (o : InFlight) (n : Nat) : State :=
  if n ≤ o.prog + 1 then complete s c o else modOp s c o.id fun g => { g with prog := o.prog + 1 }

/-- Waves of `h` desks. -/
def waveCount (s : State) (c h : Nat) : Nat := ((desksOf s c).length + h - 1) / h

/-- A wave of an issued step (R428). -/
def stepWave (p : StepForm) (zero : Bool) (s : State) (c : Nat) (o : InFlight) (f : FMA) : State :=
  let h := (waveHeight o).getD 1
  let ds := waveDesks s c h o.prog
  match (if s.poison.isEmpty then none else firstPoison s (waveUnits p zero s c o f ds)) with
  | some x => consumeAt s c .m o.ord x.2 x.1 0
  | none => nextStage (waveTiles p zero s c o f ds) c o (waveCount s c h)

def execMmaBf16 (h : Hdr) (f : FMA) (s : State) : Out := runWord (.mmaBf16 h f) (stepBody stepBf16 f) s
def execMmaE4m3 (h : Hdr) (f : FMA) (s : State) : Out := runWord (.mmaE4m3 h f) (stepBody stepE4m3 f) s
def execMmaE5m2 (h : Hdr) (f : FMA) (s : State) : Out := runWord (.mmaE5m2 h f) (stepBody stepE5m2 f) s
def execMmaK4 (h : Hdr) (f : FMA) (s : State) : Out := runWord (.mmaK4 h f) (stepBody stepK4 f) s
def execMmazBf16 (h : Hdr) (f : FMA) (s : State) : Out := runWord (.mmazBf16 h f) (stepBody stepBf16 f) s
def execMmazE4m3 (h : Hdr) (f : FMA) (s : State) : Out := runWord (.mmazE4m3 h f) (stepBody stepE4m3 f) s
def execMmazE5m2 (h : Hdr) (f : FMA) (s : State) : Out := runWord (.mmazE5m2 h f) (stepBody stepE5m2 f) s
def execMmazK4 (h : Hdr) (f : FMA) (s : State) : Out := runWord (.mmazK4 h f) (stepBody stepK4 f) s

/-! ## Accumulator words (R431) -/

/-- MZERO: +0 in every element of every participating desk. -/
def execMzero (h : Hdr) (f : FMA) (s : State) : Out :=
  runWord (.mzero h f) (fun s => clsOnly s <|
    .done ((desksOf s (focusCls s)).foldl (fun s d => putTile s (focusCls s) d f.c.toNat 0) s)) s

/-- MLDC: 8 KiB of the tower into the tile, each line with its poison; eight lines at a time. -/
def execMldc (h : Hdr) (f : FMA) (s : State) : Out :=
  runWord (.mldc h f) (fun s => clsOnly s <|
    if !towerRange (hotOn s (focusCls s)) (sget s f.sa).toNat 8192 then .trap 0x02 (sget s f.sa)
    else .async s [sget s f.sa] []) s

/-- Line `g` of the tile of a desk, read from the tower at `a`. -/
def loadRow (c t a d : Nat) (s : State) (g : Nat) : State :=
  let p := linePoison s c d (a + 64 * g)
  let s := modCls s c fun k => tileSet k d t (setUnit (tileGet k d t) g (readLine s c d (a + 64 * g)))
  if s.poison.isEmpty then s else movePoison s p (.acc c d t g)

/-- The next eight lines of an issued MLDC (R431). -/
def mldcStage (s : State) (c : Nat) (o : InFlight) (f : FMA) : State :=
  let a := (o.ops.getD 0 0).toNat
  nextStage ((desksOf s c).foldl (fun t d => ((List.range 8).map (8 * o.prog + ·)).foldl (loadRow c f.c.toNat a d) t) s) c o 16

/-- MSTC: the tile into 8 KiB of the tower, four lines at a time; `.rec` contributes every element as FP32. -/
def execMstc (h : Hdr) (f : FMA) (s : State) : Out :=
  runWord (.mstc h f) (fun s => clsOnly s <|
    if !towerRange (hotOn s (focusCls s)) (sget s f.sa).toNat 8192 then .trap 0x02 (sget s f.sa)
    else if f.rc && !recOk s (sget s f.srec).toNat then .trap 0x02 (sget s f.srec)
    else .async s [sget s f.sa, sget s f.srec] []) s

/-- Line `g` of the tile of a desk, written to the tower at `a` with its poison. -/
def storeRow (c t a d : Nat) (s : State) (g : Nat) : State :=
  writeLine s c d (a + 64 * g) (unitBytes (tileGet (getCls s c) d t) g)
    (if s.poison.isEmpty then none else poisonAt s (.acc c d t g))

/-- The elements of a tile on every participating desk, as FP32. -/
def tileValues (s : State) (c t : Nat) : List W32 :=
  (desksOf s c).flatMap fun d => (elems 32 2048 (tileGet (getCls s c) d t)).map (BitVec.ofNat 32)

/-- The next four lines of an issued MSTC (R431). -/
def mstcStage (s : State) (c : Nat) (o : InFlight) (f : FMA) : State :=
  let a := (o.ops.getD 0 0).toNat
  let t := (desksOf s c).foldl (fun t d => ((List.range 4).map (4 * o.prog + ·)).foldl (storeRow c f.c.toNat a d) t) s
  nextStage (if f.rc && o.prog == 31 then contribute t c (o.ops.getD 1 0).toNat (tileValues t c f.c.toNat) false else t) c o 32

/-- MSTAT: the published record into the line at s[SA] of every participating desk (R437). -/
def execMstat (h : Hdr) (f : FMA) (s : State) : Out :=
  runWord (.mstat h f) (fun s => clsOnly s <|
    let c := focusCls s
    let a := (sget s f.sa).toNat
    let r := (sget s f.srec).toNat
    if !towerRange (hotOn s c) a 64 then .trap 0x02 (sget s f.sa)
    else if !recOk s r then .trap 0x02 (sget s f.srec)
    else .done <| (desksOf s c).foldl (fun t d => writeLine t c d a (leBytes 64 (recNat (getRec s r))) none) s) s

/-! ## QCVT (R432-R435, R320) -/

/-- Target of a QCVT: element format, Mt and Rt of R319, chunks of its tower output, offset of its scale line. -/
structure QForm where
  fmt : Fmt
  mt : Nat
  rt : Nat
  chunks : Nat
  scaleOff : Nat

def qK4 : QForm := ⟨fE2m1, 48, 93, 5, 0x1400⟩
def qE4m3 : QForm := ⟨fE4m3, 448, 448, 8, 0x2000⟩
def qE5m2 : QForm := ⟨fE5m2, 57344, 57344, 8, 0x2000⟩

/-- |v| / 2^e is above the scaled range. -/
def beyond (p : QForm) (e : Int) : Val → Bool
  | .fin _ m x => !magLe m x p.rt e
  | .inf _ => false
  | .nan _ => false

/-- A desk's output: element codes, block scales, flags, overflow, XMAX as FP32. -/
structure QOut where
  codes : List Nat
  scales : List Nat
  fl : Fl
  ovf : Bool
  xmax : W32

/-- Codes and scales of consecutive blocks of 8. -/
def k4Blocks (g : Val) : Nat → List (Val × Rnd) → List Nat × List Nat × Fl
  | 0, _ => ([], [], 0)
  | n + 1, vs =>
    let b := k4Block g (vs.take 8)
    let r := k4Blocks g n (vs.drop 8)
    (b.1 ++ r.1, b.2.1 :: r.2.1, b.2.2 ||| r.2.2)

/-- One desk's tile under scale 2^e, rounding mode and OC (R433 step 3). -/
def qConvert (p : QForm) (e : Int) (rm : BitVec 3) (oc : Bool) (gen : W32) (tile : Nat) : QOut :=
  let ws := elems 32 2048 tile
  let vs := ws.map (valOf fF32)
  let ovf := vs.any (beyond p e)
  let xmax := ws.foldl (fun a w =>
    let v := BitVec.ofNat 32 w
    if isNan32 v || isInf32 v || decide ((absBits v).toNat ≤ a.toNat) then a else absBits v) (0 : W32)
  let rs := (vs.zipIdx).map fun x => (x.1, (⟨rm.toNat, if rm = 4 then laneBits gen x.2 else 0⟩ : Rnd))
  if p.rt = 93 then
    let r := k4Blocks (.fin false 1 e) 256 rs
    ⟨r.1, r.2.1, r.2.2 ||| flIf ovf flSat, ovf, xmax⟩
  else
    let r := codeAll (fun v md =>
      if beyond p e v then (p.fmt.signed v.sign p.fmt.maxCode, flSat)
      else match v with
        | .fin n m x => roundVal p.fmt .sat md (.fin n m (x - e))
        | v => roundVal p.fmt (if oc then .ieee else .sat) md v) rs
    ⟨r.1, [], r.2, ovf, xmax⟩

/-- The scale line (R435). -/
def scaleLine (e : Int) (gen h : Nat) (ovf : Bool) (xmax : W32) : List Byte :=
  leBytes 4 ((e + 127).toNat * 128) ++ leBytes 4 (intCode 32 e) ++ leBytes 4 gen ++ leBytes 2 h
    ++ leBytes 2 (if ovf then 1 else 0) ++ leBytes 4 xmax.toNat ++ List.replicate 44 0

/-- Register outputs (R434, DST = 0). -/
def qRegs (p : QForm) (vd : Nat) (o : QOut) (line : List Byte) : List VWrite :=
  let all := List.range 8
  let sl : VWrite := ⟨vd + 4, leNat line, all⟩
  if p.rt = 93 then
    (List.range 2).flatMap (fun j =>
      [⟨vd + 2 * j, packElems 4 ((o.codes.drop (1024 * j)).take 1024), all⟩,
       ⟨vd + 2 * j + 1, packElems 8 ((o.scales.drop (128 * j)).take 128), all⟩]) ++ [sl]
  else (List.range 4).map (fun j => ⟨vd + j, packElems 8 ((o.codes.drop (512 * j)).take 512), all⟩) ++ [sl]

/-- Bytes of the tower output in operand order (R434, DST = 1). -/
def qBytes (p : QForm) (o : QOut) : List Byte :=
  if p.rt = 93 then leBytes 1024 (packElems 4 o.codes) ++ o.scales.map (BitVec.ofNat 8)
  else o.codes.map (BitVec.ofNat 8)

/-- Tower output of one desk: lines in operand order, the scale line last, four to a pass. -/
def qSegs (p : QForm) (d base : Nat) (o : QOut) (line : List Byte) : List Strip :=
  let bs := qBytes p o
  let go := fun (j off : Nat) (l : List Byte) => ({ pass := j / 4, desk := d, unit := j, off := off, mask := 0xFFFF, line := l } : Strip)
  (List.range (4 * p.chunks)).map (fun j => go j (base + 1024 * (j / 4) + 64 * (j % 4)) ((bs.drop (64 * j)).take 64))
    ++ [go (4 * p.chunks) (base + p.scaleOff) line]

/-- The tower base of a QCVT passes R422 with its scale line. -/
def qBaseOk (p : QForm) (hot : Bool) (base : Nat) : Bool :=
  operandOk hot base p.chunks
    && (decide (base + p.scaleOff + 64 ≤ 2 ^ 25) || (hot && decide (2 ^ 25 ≤ base) && decide (base + p.scaleOff + 64 ≤ 2 ^ 26)))

/-- A QCVT issues: its record is read once (R433 step 2). Its operands: format word, s[SD], E, wave height, GEN, TRP. -/
def qIssue (p : QForm) (fw sd : W64) (s : State) (c : Nat) : Res :=
  let r := getRec s (fw.extractLsb' 0 13).toNat
  let x := runWaves s c
  .async x.1 [fw, sd, BitVec.ofInt 64 (scaleExp r p.mt), BitVec.ofNat 64 x.2, BitVec.ofNat 64 r.gen,
    if r.policy.getLsbD 30 then 1 else 0] []

/-- The body of a QCVT: a word that issues again takes TFMT and pops nothing (R265, R425). -/
def qBody (p : QForm) (f : FMQ) (s : State) : Res :=
  clsOnly s <|
    let c := focusCls s
    let k := me s
    match k.inflight.find? fun g => g.status == .again with
    | some g =>
      let fw := g.ops.getD 0 0
      if !recOk s (fw.extractLsb' 0 13).toNat then .trap 0x02 (fw &&& 0x1FFF#64)
      else qIssue p fw (g.ops.getD 1 0) s c
    | none =>
      match k.qf with
      | [] => noFormat k
      | fw :: _ =>
        match poisonAt s (.queue c 3 0) with
        | some kind => .stop (consumePoison s c .m kind (.queue c 3 0) 0)
        | none =>
          if !recOk s (fw.extractLsb' 0 13).toNat then .trap 0x02 (fw &&& 0x1FFF#64)
          else if f.dst && !qBaseOk p (hotOn s c) (sget s f.sd).toNat then .trap 0x02 (sget s f.sd)
          else if f.rm = 4 ∧ !srClear k k.wm.ord then .stall
          else qIssue p fw (sget s f.sd) (popQf s c) c

/-- Every destination is written: inputs are contributed, the word completes (R433 step 4). -/
def qEnd (f : FMQ) (s : State) (c : Nat) (o : InFlight) (ovf : Bool) : State :=
  complete (contribute s c ((o.ops.getD 0 0).extractLsb' 0 13).toNat (tileValues s c (f.va.toNat % 4)) ovf) c o

/-- What each desk's tile converts to. -/
def qOuts (p : QForm) (f : FMQ) (s : State) (c : Nat) (o : InFlight) : List (Nat × QOut) :=
  let k := getCls s c
  (desksOf s c).map fun d => (d, qConvert p (o.ops.getD 2 0).toInt f.rm ((o.ops.getD 0 0).getLsbD 16) (genOf k d)
    (tileGet k d (f.va.toNat % 4)))

/-- The results: flags and generators, then the registers, or the lines on their way to the tower (R434). -/
def qWrite (p : QForm) (f : FMQ) (os : List (Nat × QOut)) (s : State) (c : Nat) (o : InFlight) : State :=
  let hot := hotOn s c
  let ovf := os.any fun x => x.2.ovf
  let line := fun (x : QOut) => scaleLine (o.ops.getD 2 0).toInt (o.ops.getD 4 0).toNat
    ((o.ops.getD 0 0).extractLsb' 0 13).toNat x.ovf x.xmax
  let s := os.foldl (fun s x => modCls s c fun k => orFlags k x.1 x.2.fl) s
  let s := if f.rm = 4 then advanceGens s c (os.map (·.1)) else s
  if f.dst then
    modOp s c o.id fun g => { g with
      prog := 0, ops := o.ops.take 6 ++ [if ovf then 1 else 0]
      segs := os.flatMap fun x => qSegs p x.1 (o.ops.getD 1 0).toNat x.2 (line x.2) }
  else
    qEnd f (os.foldl (fun s x => (qRegs p f.vd.toNat x.2 (line x.2)).foldl (fun s w => putV s c hot x.1 w) s) s) c o ovf

/-- The last wave is done: the tile is converted, and written, or the trap merge is under way (R320, R433 step 4). -/
def qDone (p : QForm) (f : FMQ) (s : State) (c : Nat) (o : InFlight) : State :=
  let os := qOuts p f s c o
  match os.filter fun x => x.2.ovf with
  | x :: _ =>
    if o.ops.getD 5 0 = 1 then
      let m := os.foldl (fun a x => if x.2.xmax.toNat ≤ a.toNat then a else x.2.xmax) (0 : W32)
      modOp s c o.id fun g => { g with status := .waiting, ops := o.ops.take 6 ++ [m.setWidth 64, BitVec.ofNat 64 x.1] }
    else qWrite p f os s c o
  | [] => qWrite p f os s c o

/-- The next stage of an issued QCVT: a wave of its conversion, or four lines to the tower. -/
def qStage (p : QForm) (f : FMQ) (s : State) (c : Nat) (o : InFlight) : State :=
  if !o.segs.isEmpty then
    let t := storePass s c o.prog o.segs
    if lastPass o.segs ≤ o.prog then qEnd f t c o (o.ops.getD 6 0 == 1)
    else modOp t c o.id fun g => { g with prog := o.prog + 1 }
  else
    let h := (waveHeight o).getD 1
    match (if s.poison.isEmpty then none
        else firstPoison s ((waveDesks s c h o.prog).flatMap fun d => accUnits c d (f.va.toNat % 4))) with
    | some x => consumeAt s c .m o.ord x.2 x.1 0
    | none => if waveCount s c h ≤ o.prog + 1 then qDone p f s c o else modOp s c o.id fun g => { g with prog := o.prog + 1 }

def execQcvtK4 (h : Hdr) (f : FMQ) (s : State) : Out := runWord (.qcvtK4 h f) (qBody qK4 f) s
def execQcvtE4m3 (h : Hdr) (f : FMQ) (s : State) : Out := runWord (.qcvtE4m3 h f) (qBody qE4m3 f) s
def execQcvtE5m2 (h : Hdr) (f : FMQ) (s : State) : Out := runWord (.qcvtE5m2 h f) (qBody qE5m2 f) s

/-- The next stage of an issued M word: a wave of a step, lines of a tile, a QCVT's. -/
def advanceM (s : State) (c : Nat) (o : InFlight) : State :=
  match o.instr with
  | .mmaBf16 _ f => stepWave stepBf16 false s c o f
  | .mmaE4m3 _ f => stepWave stepE4m3 false s c o f
  | .mmaE5m2 _ f => stepWave stepE5m2 false s c o f
  | .mmaK4 _ f => stepWave stepK4 false s c o f
  | .mmazBf16 _ f => stepWave stepBf16 true s c o f
  | .mmazE4m3 _ f => stepWave stepE4m3 true s c o f
  | .mmazE5m2 _ f => stepWave stepE5m2 true s c o f
  | .mmazK4 _ f => stepWave stepK4 true s c o f
  | .mldc _ f => mldcStage s c o f
  | .mstc _ f => mstcStage s c o f
  | .qcvtK4 _ f => qStage qK4 f s c o
  | .qcvtE4m3 _ f => qStage qE4m3 f s c o
  | .qcvtE5m2 _ f => qStage qE5m2 f s c o
  | _ => s

/-! ## Trap merge (R321, R263 code 0x04) -/

/-- TRAP_MERGE: the record's AMAX takes the largest finite input and GEN rises; then the rescale trap. -/
def execTrapMerge (c : Nat) (s : State) : Out :=
  match (getCls s c).inflight.find? fun f => f.eng == .m && f.status == .waiting with
  | none => .next s
  | some f =>
    let fw := f.ops.getD 0 0
    let h := fw.extractLsb' 0 13
    let m : W32 := (f.ops.getD 6 0).setWidth 32
    let r := getRec s h.toNat
    let s := setRec s h.toNat { r with amax := if m.toNat ≤ r.amax.toNat then r.amax else m, gen := nextGen r.gen }
    let s := modOp s c f.id fun f => { f with status := .rescale }
    let tinfo := BitVec.ofNat 64 (h.toNat * 2 ^ 35 + op0 f 7 * 2 ^ 30)
    .next (raiseLater s c ⟨0x04, some .m, f.ord, tinfo, some f.id⟩)
where op0 (f : InFlight) (n : Nat) : Nat := (f.ops.getD n 0).toNat

end Sys2Proof.Machine
end

