-- ==== Sys2Proof/Machine/Refresh.lean ====
section
/-!
DEFINITION. Retention and refresh (R181-R188): consumption, background and forced passes, deferral, forcing, what it does to
refills; the refresh words (R387).
-/

namespace Sys2Proof.Machine

/-! ## Consumption (R181) -/

/-- w(T) in 1/256: 2^((T − 85)/10) rounded up above 85 °C. -/
def leakWeight (t : Nat) : Nat :=
  if t ≤ 85 then 256
  else
    let n := 2 ^ (80 + (t - 85))
    let r := rootBits 10 n 64 0
    if r ^ 10 = n then r else r + 1

/-- The hottest of a class's sensors. -/
def hottest (k : ClassState) : Nat := k.temps.foldl max 0

/-- One tick adds w(T) to every tower in use. -/
def tickClass (k : ClassState) : ClassState :=
  { k with cons := (towersInUse k).dedup.foldl (fun t p => tset 0 t p (tget 0 t p + leakWeight (hottest k))) k.cons }

/-- REFRESH_TICK. -/
def execRefreshTick (s : State) : Out := .next { s with cls := s.cls.map tickClass }

/-! ## Passes (R183, R184) -/

/-- 1,950,000 µs-equivalents. -/
def forceAt : Nat := 1950000 * 256

/-- BACKGROUND_PASS_START. -/
def execBackgroundPassStart (c t : Nat) (s : State) : Out :=
  let k := getCls s c
  .next (if !k.defer && (idleAt k passAt).contains t then modCls s c fun k => startPass false k t else s)

/-- REFRESH_PASS_COMPLETE: C is what accumulated since the pass began. -/
def execRefreshPassComplete (c t : Nat) (s : State) : Out :=
  .next (modCls s c fun k =>
    match k.passes.find? fun p => p.tower = t with
    | none => k
    | some p => { k with passes := k.passes.filter fun q => q.tower != t
                         cons := tset 0 k.cons t (consOf k t - p.at0) })

/-! ## Forcing (R187, R188, R196) -/

/-- Towers that have reached the forcing condition (R187): 1,950,000 without a forced pass yet, or the limit of a deferral. -/
def forcedTowers (k : ClassState) : List Nat :=
  (towersInUse k).dedup.filter fun t =>
    (decide (forceAt ≤ consOf k t) && !(k.passes.any fun p => p.tower == t && p.forced))
      || (k.defer && decide (k.lim.toNat * 256 ≤ consOf k t))

/-- A stopped refill (R196): some of the beats not yet written were under way and are finished; how many is free (log 8).
With THND set it completes with STOP = 1 and pushes nothing; else it stays in the replay queue. -/
def stopRefill (s : State) (d : Nat) (f : InFlight) : State :=
  let total := (f.ops.getD 0 0).toNat
  let per := f.moves.length / max 1 total
  let at0 := refillNext f
  let j := if qaReady s d f then (freeVal s).toNat % (total - at0 + 1) else 0
  let r := (moveAll { cls := d, held := f.pages } (f.moves.take ((at0 + j) * per)) f.prog { s := bump s, k := 0 }).1
  let f' := { f with prog := r.k }
  let s := modOp r.s d f.id fun _ => f'
  let next := refillNext f'
  if next = total then s
  else if (getCls s d).thnd = 0 then modOp s d f.id fun f => { f with status := .stopped }
  else
    let tok := match f.instr with
      | .brefill _ g => g.tok.toNat
      | _ => 0
    let s := setS s d tok (BitVec.ofNat 64 (2 ^ 63 + next))
    modCls s d fun k =>
      let k := { k with inflight := k.inflight.filter fun g => g.id ≠ f.id }
      if (hdr f.instr).av then dropReserve k (hdr f.instr).atag.toNat else k

/-- Refills in flight of class `d` that write towers of class `c` and have not stopped. -/
def refillsInto (s : State) (c d : Nat) : List InFlight :=
  (getCls s d).inflight.filter fun f => match f.instr with
    | .brefill _ _ => f.status != .stopped && (refillClasses f).contains c
    | _ => false

/-- Forcing on a class: deferral ends, forced passes start, refills stop, the refresh-forced trap is raised. -/
def force (s : State) (c : Nat) : State :=
  let ts := forcedTowers (getCls s c)
  match ts.foldl (fun (m : Option Nat) t => some (match m with | some x => min x t | none => t)) none with
  | none => s
  | some low =>
    let s := modCls s c fun k => endDefer (ts.foldl (startPass true) k)
    let s := (List.range 40).foldl (fun s d => (refillsInto s c d).foldl (fun s f => stopRefill s d f) s) s
    let k := getCls s c
    raiseLater s c { code := 5, eng := none, ord := leastPos k (slipEngines k) k.ws.ord, tinfo := BitVec.ofNat 64 low }

/-- FORCING. -/
def execForcing (c : Nat) (s : State) : Out := .next (force s c)

/-- REFILL_REINJECT: a stopped refill goes on from NEXT once FRC = 0 on every class of its column set (R188). -/
def execRefillReinject (c id : Nat) (s : State) : Out :=
  match findOp s c id with
  | none => .next s
  | some f =>
    .next (if f.status == .stopped && (refillClasses f).all fun d => !frcOf (getCls s d)
      then modOp s c id fun f => { f with status := .issued } else s)

/-! ## Words (R186, R387) -/

/-- RFDEFER's limit. -/
def deferLimit (s : State) (f : FAI) : Nat := min ((sget s f.s).toNat + f.imm.toNat) (2 ^ 64 - 1)

/-- Put deferral in force, or end it with a limit of 0. -/
def setDefer (k : ClassState) (n : Nat) : ClassState :=
  if n = 0 then endDefer k else { k with defer := true, lim := BitVec.ofNat 24 (min n 1950000) }

/-- RFDEFER acts when it issues; a limit already reached forces at once, after the word (R186, R387). -/
def execRfdefer (h : Hdr) (f : FAI) (s : State) : Out :=
  let i := Instr.rfdefer h f
  runWord i (fun s => clsOnly s <|
    let c := focusCls s
    let s := modCls s c fun k => setDefer k (deferLimit s f)
    .stop (force (finishDone s c .a i ((getCls s c).wa.wi + 1)) c)) s

/-- RFNOW ends deferral and starts a pass on every tower in use that has none. -/
def execRfnow (h : Hdr) (s : State) : Out :=
  runWord (.rfnow h) (fun s => clsOnly s <|
    .done (modMe s fun k => let k := endDefer k; (idleAt k 0).foldl (startPass false) k)) s

/-- RDRETB pushes RETB into QS, after the entries that older words have reserved. -/
def execRdretb (h : Hdr) (s : State) : Out :=
  runWord (.rdretb h) (fun s => clsOnly s <|
    let k := me s
    if roomQ k false && reservedQ k false == 0 then .done (pushQs s (focusCls s) (retb k)) else .stall) s

end Sys2Proof.Machine
end

