-- ==== Sys2Proof/Machine/Exchange.lean ====
section
/-!
DEFINITION. The X engine: systolic shifts over a span (R191-R193, R388), corridor transfers and their delivery
(R141, R142, R389, R390).
-/

namespace Sys2Proof.Machine

/-! ## Shifts -/

/-- A source unit: its lines with their poison. -/
abbrev XUnit := List (List Byte × Option Bool)

/-- TSHAPE of the node on a class: 0 any, 1 east-west line, 2 north-south line (R108). -/
def shapeOf (s : State) (c : Nat) : Nat :=
  match teamOf s c with
  | some t => if t.classes.length < 2 || hotOn s c then 0 else bitField (recWord (snapOf s t.inst t.node).record) 54 53
  | none => 0

/-- The shift runs along the line of the class's team and needs its partners (R193): directions 0 N, 1 S, 2 E, 3 W. -/
def alongLine (s : State) (c : Nat) (dir : BitVec 2) : Bool :=
  (shapeOf s c == 1 && dir.getLsbD 1) || (shapeOf s c == 2 && !dir.getLsbD 1)

/-- Steps of a direction in x and y. -/
def dirStep (dir : BitVec 2) : Int × Int :=
  if dir = 0 then (0, -1) else if dir = 1 then (0, 1) else if dir = 2 then (1, 0) else (-1, 0)

/-- What one class brings to a shift. -/
structure Part where
  c : Nat
  rank : Nat
  dir : BitVec 2
  edge : BitVec 2
  lines : Nat
  units : List (Nat × XUnit)

/-- Coordinates of a desk in the span (R191). -/
def coord (hot : Bool) (shape rank d : Nat) : Nat × Nat :=
  if hot then (d % 4 / 2, d / 4)
  else if shape = 1 then (rank * 4 + d % 4, d / 4)
  else if shape = 2 then (d % 4, rank * 8 + d / 4)
  else (d % 4, d / 4)

/-- Width and height of the span. -/
def spanSize (hot : Bool) (shape members : Nat) : Nat × Nat :=
  if hot then (2, 8) else if shape = 1 then (4 * members, 8) else if shape = 2 then (4, 8 * members) else (4, 8)

/-- A neighbour's coordinates in a span: inside, or off the edge and round to its far end. -/
def stepFrom (size : Nat × Nat) (p : Nat × Nat) (d : Int × Int) : Bool × (Nat × Nat) :=
  let x := (p.1 : Int) + d.1
  let y := (p.2 : Int) + d.2
  (decide (0 ≤ x) && decide (x < size.1) && decide (0 ≤ y) && decide (y < size.2),
   ((x % (size.1 : Int)).toNat, (y % (size.2 : Int)).toNat))

/-- Where a unit stands in a span. -/
structure XCell where
  at0 : Nat × Nat
  part : Nat
  unit : XUnit

def cellsOf (hot : Bool) (shape : Nat) (ps : List Part) : List XCell :=
  (ps.zipIdx).flatMap fun p => p.1.units.map fun u => ⟨coord hot shape p.1.rank u.1, p.2, u.2⟩

/-- A unit at the receiver's size: missing lines zero, further lines dropped (R193). -/
def fitUnit (n : Nat) (u : XUnit) : XUnit := (List.range n).map fun j => u.getD j (List.replicate 64 0, none)

/-- The unit crosses: its sender's own direction and edge mode send it to `p`. -/
def sendsTo (size : Nat × Nat) (q : Part) (at0 p : Nat × Nat) : Bool :=
  let t := stepFrom size at0 (dirStep q.dir)
  (t.1 || q.edge == 0) && t.2 == p

/-- What a desk receives (R192, R193): edge modes 0 wrap, 1 zero, 2 hold. -/
def received (size : Nat × Nat) (hot : Bool) (shape : Nat) (ps : List Part) (cells : List XCell) (pi : Nat) (p : Part)
    (u : Nat × XUnit) : XUnit :=
  let at0 := coord hot shape p.rank u.1
  let d := dirStep p.dir
  let r := stepFrom size at0 (-d.1, -d.2)
  fitUnit p.lines <|
    if r.1 || p.edge == 0 then
      match cells.find? fun x => x.at0 = r.2 with
      | none => []
      | some x =>
        if x.part = pi then x.unit
        else if sendsTo size (ps.getD x.part ⟨0, 0, 0, 0, 0, []⟩) x.at0 at0 then x.unit else []
    else if p.edge == 2 then u.2 else []

/-- What each class writes: its own desks' destinations. -/
def shiftOut (hot : Bool) (shape : Nat) (ps : List Part) : List (Nat × Nat × XUnit) :=
  let size := spanSize hot shape ps.length
  let cells := cellsOf hot shape ps
  (ps.zipIdx).flatMap fun p => p.1.units.map fun u => (p.1.c, u.1, received size hot shape ps cells p.2 p.1 u)

/-- Lines of a vector register of a desk, with their poison. -/
def regUnit (s : State) (c d r : Nat) : XUnit :=
  let x := deskView s c d
  let v := x.vn r
  (List.range 8).map fun u => (unitBytes v u, (x.vUnit r u).head?.bind fun p => poisonAt s p)

/-- Lines of a desk's tower. -/
def towerUnit (s : State) (c d off n : Nat) : XUnit :=
  (List.range n).map fun j => (readLine s c d (off + 64 * j), linePoison s c d (off + 64 * j))

/-- Write a register of a desk with the poison that comes. -/
def putRegUnit (s : State) (c d r : Nat) (u : XUnit) : State :=
  let x := deskView s c d
  let v := (u.zipIdx).foldl (fun v e => setUnit v e.2 e.1.1) (0 : Nat)
  let s' := modCls s c fun k => vSet k x.hot d r v
  if s.poison.isEmpty && u.all (fun e => e.2.isNone) then s'
  else (u.zipIdx).foldl (fun s e => match x.vUnit r e.2 with
    | [p] => movePoison s e.1.2 p
    | _ => s) s'

def putTowerUnit (s : State) (c d off : Nat) (u : XUnit) : State :=
  (u.zipIdx).foldl (fun s e => writeLine s c d (off + 64 * e.2) e.1.1 e.1.2) s

/-- Destination of a shift: a register, or a tower offset. -/
inductive XDest where
  | reg (r : Nat)
  | tower (off : Nat)
  deriving DecidableEq, Repr

def putUnit (s : State) (c d : Nat) (t : XDest) (u : XUnit) : State :=
  match t with
  | .reg r => putRegUnit s c d r u
  | .tower off => putTowerUnit s c d off u

/-- Source units kept by an issued shift. -/
def unitMoves (us : List (Nat × XUnit)) : List Move := us.flatMap fun u => u.2.map fun l => ⟨.line l.1 l.2, .none, 64⟩

/-! ## The X engine's own order (R154) -/

/-- A shift in flight: its fields. -/
def shiftFields (i : Instr) : Option FXS :=
  match i.parts with
  | some ⟨_, _, .xs f⟩ => some f
  | _ => none

/-- Lines of a shift's unit. -/
def shiftLines (i : Instr) (f : FXS) : Nat :=
  match i with
  | .xsh _ _ => 8
  | _ => f.nl.toNat + 1

/-- Tower lines that an issued X word writes: a shift at the offset it keeps, a transfer where its movements go. -/
def xWrites (s : State) (c : Nat) (g : InFlight) : List Span :=
  match g.instr with
  | .xsht _ h => deskSpans s c (g.ops.getD 0 0).toNat (64 * shiftLines g.instr h)
  | _ => moveWrites s c g.moves

/-- No older X word of the class still has to write what a word reads or writes, or to read what it writes (R154). -/
def xTurn (s : State) (c : Nat) (older : List InFlight) (rs ws : List Span) : Bool :=
  older.all fun g => g.eng != .x
    || !(overlap (xWrites s c g) (rs ++ ws) || overlap (moveReads s c g.moves) ws)

/-- An issued transfer's turn among the X words of its class. -/
def xferTurn (s : State) (c : Nat) (f : InFlight) : Bool :=
  xTurn s c ((getCls s c).inflight.filter fun g => before g.run g.ord g.id f.run f.ord f.id)
    (moveReads s c f.moves) (moveWrites s c f.moves)

/-- Issue of a shift whose sources are `us`: within one class it is done at once, along a line it waits for its
partners (R193). -/
def shiftBody (s : State) (f : FXS) (t : XDest) (us : List (Nat × XUnit)) : Res :=
  let c := focusCls s
  if alongLine s c f.dir then
    .async s [match t with | .reg r => BitVec.ofNat 64 r | .tower o => BitVec.ofNat 64 o] (unitMoves us)
  else
    let n := (us.head?.map fun u => u.2.length).getD 0
    .done ((shiftOut (hotOn s c) 0 [⟨c, 0, f.dir, f.edge, n, us⟩]).foldl (fun s x => putUnit s c x.2.1 t x.2.2) s)

/-- XSH: vector registers. -/
def execXsh (h : Hdr) (f : FXS) (s : State) : Out :=
  runWord (.xsh h f) (fun s => clsOnly s <|
    let c := focusCls s
    shiftBody s f (.reg f.d.toNat) ((desksOf s c).map fun d => (d, regUnit s c d f.s.toNat))) s

/-- XSHT: tower lines. -/
def execXsht (h : Hdr) (f : FXS) (s : State) : Out :=
  runWord (.xsht h f) (fun s => clsOnly s <|
    let c := focusCls s
    let n := f.nl.toNat + 1
    let src := (sget s (f.s.extractLsb' 1 5)).toNat
    let dst := (sget s (f.d.extractLsb' 1 5)).toNat
    match firstBad [rangeBad s c src (64 * n), rangeBad s c dst (64 * n)] with
    | some v => .trap 0x02 (BitVec.ofNat 64 v)
    | none =>
      if xTurn s c (olderOps (getCls s c) (getCls s c).wx.ord) (deskSpans s c src (64 * n)) (deskSpans s c dst (64 * n)) then
        shiftBody s f (.tower dst) ((desksOf s c).map fun d => (d, towerUnit s c d src n))
      else .stall) s

/-- The oldest shift along the line that a class has in flight. -/
def oldestShift (s : State) (c : Nat) : Option (InFlight × FXS) :=
  (getCls s c).inflight.findSome? fun f => (shiftFields f.instr).map fun g => (f, g)

/-- Source units of an issued shift. -/
def opUnits (ds : List Nat) (n : Nat) (ms : List Move) : List (Nat × XUnit) :=
  (ds.zipIdx).map fun d => (d.1, ((ms.drop (n * d.2)).take n).map fun m =>
    match m.src with
    | .line bs p => (bs, p)
    | .tower _ _ _ => ([], none)
    | .mem _ => ([], none)
    | .view _ _ _ _ => ([], none)
    | .handle _ => ([], none)
    | .none => ([], none))

/-- Every member of the team has issued its matching shift: all of them are performed and complete. -/
def shiftAll (s : State) (t : Team) (shape : Nat) : State :=
  let os := t.classes.map fun c => (c, oldestShift s c)
  if os.any fun o => o.2.isNone then s
  else
    let ps := (os.zipIdx).filterMap fun o => o.1.2.map fun x =>
      (⟨o.1.1, o.2, x.2.dir, x.2.edge, shiftLines x.1.instr x.2,
        opUnits (List.range 32) (shiftLines x.1.instr x.2) x.1.moves⟩ : Part)
    let s' := (shiftOut false shape ps).foldl (fun t x =>
      match oldestShift s x.1 with
      | none => t
      | some y =>
        let v := (y.1.ops.getD 0 0).toNat
        putUnit t x.1 x.2.1 (match y.1.instr with
          | .xsh _ _ => .reg v
          | _ => .tower v) x.2.2) s
    os.foldl (fun t o => match o.2 with
      | some y => complete t o.1 y.1
      | none => t) s'

/-! ## Corridor addresses (R389) -/

def xcOne (f : FXC) : Bool := f.mode.getLsbD 0
def xcDesk (f : FXC) : Nat := (f.mode.extractLsb' 1 5).toNat
def xcCnt (f : FXC) : Bool := f.mode.getLsbD 6

/-- A good corridor address for a transfer of `n` bytes. -/
def corOk (s : State) (c a n : Nat) (one : Bool) : Bool :=
  bitField a 54 46 == 0 && bitField a 34 26 == 0 && decide (corCls a < 40) && (one || corDesk a == 0)
    && towerRange false (corOff a) n
    && (if corRmt a then
          let p := getPart s (partOf s c)
          !p.paired && p.peer == some (corPkg a)
        else corPkg a == 0 && classIn s (partOf s c) (corCls a))

/-- Pairs of desks that exchange: the issuing class's, the far class's. -/
def xcPairs (s : State) (c : Nat) (f : FXC) (a : Nat) : List (Nat × Nat) :=
  if xcOne f then [(xcDesk f, corDesk a)] else (desksOf s c).map fun d => (d, d)

/-- Operands of a corridor transfer: token, bytes of the add, its counter, whether there is one, classes named, the
corridor address. -/
def xcOps (tok n : Nat) (ctr : W64) (cnt : Bool) (classes : Nat) (a : W64) : List W64 :=
  [BitVec.ofNat 64 tok, BitVec.ofNat 64 n, ctr, if cnt then 1 else 0, BitVec.ofNat 64 classes, a]

def lenBad (n : Nat) : Bool × Nat := (n % 64 == 0 && decide (64 ≤ n) && decide (n ≤ 2 ^ 25), n)

/-- A counter that the add names (R390): of the partition; on another package its RZ bits alone are checked. -/
def ctrBad (s : State) (cnt far : Bool) (h : W64) : Bool × Nat :=
  (!cnt || (if far then decide (h.toNat < 2 ^ 25) else handleOk s h.toNat), h.toNat)

/-- XSEND and XRECV: `a` the corridor address, `l` the local offset. -/
def xferBody (i : Instr) (f : FXC) (send : Bool) (s : State) : Res := clsOnly s <|
  let c := focusCls s
  let k := getCls s c
  let aw := sget s (if send then f.dst else f.loc)
  let a := aw.toNat
  let l := (sget s (if send then f.loc else f.dst)).toNat
  let n := (sget s f.len).toNat
  let h := sget s f.ctr
  match firstBad [lenBad n, (corOk s c a n (xcOne f), a), (!xcOne f || deskActive (hotOn s c) (xcDesk f), xcDesk f),
      rangeBad s c l n, ctrBad s (xcCnt f) (send && corRmt a) h] with
  | some v => .trap 0x02 (BitVec.ofNat 64 v)
  | none =>
    let ms := (xcPairs s c f a).map fun d =>
      let near := End.tower c d.1 l
      let far := if corRmt a then End.none else .tower (corCls a) d.2 (corOff a)
      (if send then ⟨near, far, n⟩ else ⟨far, near, n⟩ : Move)
    let free := fenceClear k { id := k.nextId, ord := k.wx.ord, run := k.run, eng := .x, instr := i }
      && xTurn s c (olderOps k k.wx.ord) (moveReads s c ms) []
    .async s (xcOps n n h (xcCnt f) 1 aw) (if send then capture s n free ms else ms)

def execXsend (h : Hdr) (f : FXC) (s : State) : Out := runWord (.xsend h f) (xferBody (.xsend h f) f true) s
def execXrecv (h : Hdr) (f : FXC) (s : State) : Out := runWord (.xrecv h f) (xferBody (.xrecv h f) f false) s

/-- XBCAST (R390). -/
def execXbcast (h : Hdr) (f : FXC) (s : State) : Out :=
  runWord (.xbcast h f) (fun s => clsOnly s <|
    let c := focusCls s
    let k := getCls s c
    let aw := sget s f.dst
    let a := aw.toNat
    let off := bitField a 45 21
    let l := (sget s f.loc).toNat
    let n := (sget s f.len).toNat
    let cs := bcastClasses a
    match firstBad [lenBad n, (a / 2 ^ 46 == 0 && !cs.isEmpty && (cs.all fun x => classIn s (partOf s c) x)
        && towerRange false off n, a), rangeBad s c l n, ctrBad s (xcCnt f) false (sget s f.ctr)] with
    | some v => .trap 0x02 (BitVec.ofNat 64 v)
    | none =>
      let ms := cs.flatMap fun x => (desksOf s c).map fun d => (⟨.tower c d l, .tower x d off, n⟩ : Move)
      let free := fenceClear k { id := k.nextId, ord := k.wx.ord, run := k.run, eng := .x, instr := .xbcast h f }
        && xTurn s c (olderOps k k.wx.ord) (moveReads s c ms) []
      .async s (xcOps (n * cs.length) n (sget s f.ctr) (xcCnt f) cs.length aw) (capture s n free ms)) s

/-! ## Delivery (R141, R142) -/

/-- The word that sent a request, which of its requests it is, and the team for which a router holds it, if it does (R280). -/
def findSeq (s : State) (c : Nat) (seq : BitVec 16) : Option (InFlight × Nat × Option Nat) :=
  let at' := fun (f : InFlight) => match f.seq with
    | none => none
    | some q =>
      let j := (seq.toNat + 65536 - q) % 65536
      if j < requests f.instr f.ops then some j else none
  match (getCls s c).inflight.findSome? fun f => (at' f).map fun j => (f, j, none) with
  | some x => some x
  | none => (getCls s c).router.findSome? fun r => (at' r.op).map fun j => (r.op, j, some r.team)

/-- Change the word that sent a request, where it is held. -/
def modSender (s : State) (c : Nat) (team : Option Nat) (id : Nat) (g : InFlight → InFlight) : State :=
  match team with
  | none => modOp s c id g
  | some t => modCls s c fun k =>
      { k with router := k.router.map fun r => if r.team = t ∧ r.op.id = id then { r with op := g r.op } else r }

/-- The saved team for which a router holds a request. -/
def heldTeam (s : State) (team : Option Nat) : Option Team := team.bind fun id => s.teams.find? fun t => t.id = id

/-- A black-box event of a request's sender: of the class, or of the saved team whose request its router holds (R145). -/
def senderRecord (s : State) (c : Nat) (team : Option Nat) (code : Nat) (unit : Byte) (detail : W64) : State :=
  match heldTeam s team with
  | none => bbClass s c code unit detail
  | some t =>
    bbRecord s (dieOf c) (partOfInst s t.inst) code (BitVec.ofNat 8 c) unit (recTag (snapOf s t.inst t.node).record) detail

/-- A system cause of a request whose team is saved: no class takes it, and its event names none (R263, R280; log 61). -/
def heldCause (s : State) (c code : Nat) (t : Team) (f : InFlight) (tinfo : W64) : State :=
  let k : ClassState := { tcode := BitVec.ofNat 8 code, teng := engCode f.eng, tord := BitVec.ofNat 48 f.ord }
  pushEvent s (dieOf c) code 0xFF (partOfInst s t.inst) tinfo (tcauseOf k) (BitVec.ofNat 64 t.inst)

/-- Poison that a saved team's request consumes at its destination (R131). -/
def heldPoison (s : State) (c : Nat) (t : Team) (f : InFlight) (kind : Bool) (u : PUnit) (va : Nat) : State :=
  let loc := locatorOn s u va
  let unit := BitVec.ofNat 8 (0x40 + (engCode f.eng).toNat)
  if kind then
    failNodeOpen (msix (senderRecord (heldCause s c 0x21 t f loc) c (some t.id) 0x014 unit loc) .pf0 2) t.inst t.node
  else requestKill (senderRecord (heldCause s c 0x20 t f loc) c (some t.id) 0x013 unit loc) t.inst t.node 0x13

/-- The counted add of a transfer, at its destination (R258, R390); a poisoned counter is consumed (R130). -/
def countedAdd (s : State) (c : Nat) (team : Option Nat) (f : InFlight) : State :=
  if f.ops.getD 3 0 = 1 then
    let h := (f.ops.getD 2 0).toNat
    match poisonAt s (.counter h), heldTeam s team with
    | some kind, none => consumeAt s c f.eng f.ord kind (.counter h) 0
    | some kind, some t => heldPoison s c t f kind (.counter h) 0
    | none, _ => (ctrAdd s h (f.ops.getD 1 0).toNat true).getD s
  else s

/-- The destination has performed a request of a source: of the last 1,024 a duplicate is known (R141). -/
def noteSeen (s : State) (c src seq : Nat) : State :=
  modCls s c fun k =>
    let mine := (src, seq) :: k.seen.filter fun x => x.1 == src && x.2 != seq
    { k with seen := mine.take 1024 ++ k.seen.filter fun x => x.1 != src }

/-- The movements of request `j`: those into the class it goes to. -/
def requestMoves (f : InFlight) (j : Nat) : List Move :=
  match f.instr with
  | .xbcast _ _ => f.moves.filter fun m => match m.dst with
      | .tower x _ _ => x == farClass f j
      | .mem _ => false
      | .view _ _ _ _ => false
      | .handle _ => false
      | .line _ _ => false
      | .none => false
  | _ => f.moves

/-- A K-link that is up and whose port table names the package, the lowest-numbered of several (log 29); in pair mode KL5 and
KL11 carry none of it (R25, R26). -/
def linkTo (s : State) (pkg : Nat) : Option Nat :=
  (List.range 12).find? fun l =>
    (s.klink.getD l (false, 0)).1 && tget 0 s.farPort l == pkg && !(s.pairPeer.isSome && (l == 5 || l == 11))

/-- A flit got through: the link's retries in a row end (R24). -/
def linkDelivers (s : State) (pkg : Nat) : State :=
  match linkTo s pkg with
  | some l => { s with klink := s.klink.set l (true, 0) }
  | none => s

/-- A message to another package leaves on the link that names it; with none up it is lost (R25). -/
def sendFar (s : State) (pkg : Nat) (m : OutMsg) : State :=
  if (linkTo s pkg).isSome then send (linkDelivers s pkg) m else s

/-- Lines of a source as they stand, with their poison (R130). -/
def sourceLines (s : State) (c : Nat) (m : Move) : List FarLine :=
  (lineOffs m).map fun o => match readEnd s c [] m.src o (lineLen m o) with
    | .ok _ bs p => (bs, p)
    | _ => ([], none)

/-- Lines written at offset 0 and on of an end, with the poison that comes (R130). -/
def putLines (s : State) (c : Nat) (e : End) (ls : List FarLine) : State :=
  (ls.zipIdx).foldl (fun s x => match writeEnd s c [] e (64 * x.2) x.1.1 x.1.2 with
    | .ok s' _ _ => s'
    | _ => s) s

/-- The desks of the far class that take part, for the team on the class or one that is saved (R390). -/
def farDesks (s : State) (c : Nat) (team : Option Nat) (f : InFlight) : List Nat :=
  let hot := match team with
    | none => hotOn s c
    | some t => s.teams.any fun u => u.id == t && recHeat (snapOf s u.inst u.node).record == 2
  let go := fun (g : FXC) =>
    if xcOne g then [corDesk (f.ops.getD 5 0).toNat] else (List.range 32).filter (deskActive hot)
  match f.instr with
  | .xsend _ g => go g
  | .xrecv _ g => go g
  | _ => []

/-- The request of a transfer to or from another package, with the data of an XSEND (R25, R389, R390). -/
def farReq (s : State) (c part : Nat) (ds : List Nat) (f : InFlight) : FarReq :=
  let a := (f.ops.getD 5 0).toNat
  { part := part, src := c, cls := corCls a, desks := ds, off := corOff a, len := (f.ops.getD 1 0).toNat
    data := match f.instr with
      | .xsend _ _ => some (f.moves.flatMap (sourceLines s c))
      | _ => none
    add := match f.instr with
      | .xsend _ _ => if f.ops.getD 3 0 = 1 then f.ops[2]? else none
      | _ => none }

/-- The data of a transfer's request go where they go, then its add is made. -/
def landXfer (s : State) (c : Nat) (team : Option Nat) (f : InFlight) (j : Nat) : State :=
  countedAdd (moveAll { cls := c } (requestMoves f j) 0 { s := s, k := 0 }).1.s c team f

/-- The word takes data into its class's own towers. -/
def isRecv : Instr → Bool
  | .xrecv _ _ => true
  | _ => false

/-- The word with its data as they stand, which land later (R126, R280). -/
def holdLines (s : State) (f : InFlight) : InFlight := { f with moves := f.moves.flatMap (captureMove s), held := some [] }

/-- The results that a freeze or a router has held land. -/
def landHeld (s : State) (c : Nat) : State :=
  (getCls s c).inflight.foldl (fun s f => match f.held with
    | some rs =>
      if isRecv f.instr then modOp (landXfer s c none f 0) c f.id fun f => { f with held := none } else landNow s c f rs
    | none => s) s

/-- Request `j` is acknowledged; with all of them the word's answer is there. -/
def noteDone (f : InFlight) (j : Nat) : InFlight :=
  let g := markDone f j
  { g with status := if g.reqs.all (·.done) then .answered else g.status }

/-- The packets of the present sending have left the package. -/
def leftPackage (f : InFlight) (j : Nat) : InFlight :=
  { f with reqs := f.reqs.modify j fun r => { r with lost := true, wells := [] } }

/-- A corridor delivery fault kills the node (R142); of a team that is saved no class takes the cause. -/
def deliveryFault (s : State) (c : Nat) (f : InFlight) (seq : BitVec 16) (team : Option Nat) : State :=
  let d : W64 := seq.setWidth 64
  match heldTeam s team with
  | none => killOn (bbClass (systemCause s c 0x24 4 f.ord d) c 0x034 0xFF d) c 0x34
  | some t => requestKill (senderRecord (heldCause s c 0x24 t { f with eng := .x } d) c team 0x034 0xFF d) t.inst t.node 0x34

/-! ## Requests that routers hold for saved teams (R280) -/

/-- An arrival of a saved team's member: its round counts the team's size, and the member in the image knows it (R449). -/
def heldArrival (s : State) (t : Team) (c : Nat) (f : InFlight) (tb : Bool) : State :=
  let h := op0 f 0
  let n := ctrGet s h + 1
  let s := followBarrier s h t.classes.length
  let s := { s with barriers := s.barriers.map fun b =>
    if b.handle = h ∧ tb = true then { b with durs := (roundOf b.size n, op0 f 1) :: b.durs } else b }
  modTeam s t.id fun u => { u with image := u.image.map fun i =>
    { i with members := (t.classes.zip i.members).map fun x =>
        if x.1 = c ∧ x.2.region = f.ops[0]? ∧ x.2.regionOp = f.id then { x.2 with regionCount := n } else x.2 } }

/-- A held add is made, after the partials that the class has sent have merged (R260); one that would overflow fails the node
(R255). -/
def heldAdd (s : State) (t : Team) (c : Nat) (f : InFlight) (v : Nat) (byt : Bool) : State × Option InFlight :=
  match ctrAdd (landTransit s c) (op0 f 0) v byt with
  | some s' => (s', some f)
  | none => (failNodeOpen (heldCause s c 0x27 t f (BitVec.ofNat 64 (op0 f 0))) t.inst t.node, none)

/-- A held PHASE takes its epoch: what its class had staged became device-visible to the node at the save (R242, R280). -/
def heldPhase (s : State) (t : Team) (c : Nat) : State :=
  modNode s t.inst t.node fun n => { n with epoch := n.epoch + 1, recorded := tset 0 n.recorded c (n.epoch + 1) }

/-- A held atomic acts at the physical address that it presented: as one step on a system-atomic page, elsewhere it reads, and
later writes (R233, R234). -/
def heldAtomic (s : State) (t : Team) (c : Nat) (f : InFlight) (g : FAO) : State × Option InFlight :=
  let pa := op0 f 3
  let va := op0 f 4
  if f.prog = 1 then (amoCommit s f g pa va (op0 f 2), some { f with prog := 2 })
  else
    match poisonUnder s (pa / 64) va with
    | some kind => (heldPoison s c t f kind (.phys (pa / 64)) va, none)
    | none =>
      let o := readNat s pa (amoBytes g)
      if saPage s pa then (amoCommit s f g pa va o, some { f with prog := 2, ops := amoOps f o pa va })
      else if engineBusy s pa then (s, none)
      else (s, some { f with prog := 1, ops := amoOps f o pa va })

/-- A request that a router holds for a saved team reaches its destination: the machine, and the word as the router holds it then;
none where the request waits, or its node is killed or fails. -/
def performHeld (s : State) (t : Team) (c : Nat) (f : InFlight) (j : Nat) : State × Option InFlight :=
  match (if queueOf f.instr == some 2 then ctrPoison s f else none) with
  | some x => (heldPoison s c t f x.2 x.1 0, none)
  | none =>
    let answer := fun (r : State × List (Nat × W64)) => (r.1, some { f with held := some r.2 })
    match f.instr with
    | .cadd _ g => heldAdd s t c f (op0 f 1) (bit21 g)
    | .caddi _ _ => heldAdd s t c f (op0 f 1) false
    | .barrive _ g => heldAdd (heldArrival s t c f (bit21 g)) t c f 1 false
    | .cread _ g => answer (s, [(g.d.toNat, ctrValue s (op0 f 0) (bit21 g))])
    | .srread _ g => answer (srAnswer s f g srKeep)
    | .srreadPol _ g => answer (srAnswer s f g srPol)
    | .srreadClr _ g => answer (srAnswer s f g srClr)
    | .phase _ _ => answer (heldPhase s t c, [])
    | .xrecv _ _ => (s, some (holdLines s f))
    | i =>
      match amoFields i with
      | some g => heldAtomic s t c f g
      | none => (landXfer s c (some t.id) f j, some f)

/-- The partition of the request's sender, whose router may hold it. -/
def senderPart (s : State) (c : Nat) (team : Option Nat) : Nat :=
  match heldTeam s team with
  | none => partOf s c
  | some t => partOfInst s t.inst

/-- A request of this package reaches its destination, or the K-link to another package. -/
def ownArrival (s : State) (c : Nat) (seq : BitVec 16) : State :=
  match findSeq s c seq with
  | none => s
  | some (f, j, team) =>
    let here := match team with
      | none => (getCls s c).live && queueOf f.instr == some 1 && arrives s c f j && xferTurn s c f
      | some _ => (reqOf f j).left.isSome && !(reqOf f j).lost && !(reqOf f j).done
    if !here then s
    else if isFar f then
      let pkg := corPkg (f.ops.getD 5 0).toNat
      if (linkTo s pkg).isNone then s
      else
        let f' := if (reqOf f j).left.isSome then f else leaveOp s c f
        modSender (sendFar s pkg (.corridor pkg seq (farReq s c (senderPart s c team) (farDesks s c team f) f))) c team f.id
          fun _ => leftPackage f' j
    else
      match heldTeam s team with
      | none =>
        -- what arrives for a frozen class is held until the freeze ends (R126)
        let hold := isRecv f.instr && (getCls s c).frozen
        let g := noteDone (if hold then holdLines s f else f) j
        noteSeen (modOp (if hold then s else landXfer s c none f j) c f.id fun _ => g) (farClass f j) c seq.toNat
      | some u =>
        match performHeld s u c f j with
        | (t, none) => t
        | (t, some g) =>
          let t := modSender t c team f.id fun _ => if isAtomic g.instr && g.prog == 1 then g else noteDone g j
          if queueOf f.instr == some 1 then noteSeen t (farClass f j) c seq.toNat else t

/-- The word with the lines that another package has answered with, which land later. -/
def answerLines (f : InFlight) (ls : List FarLine) : InFlight :=
  let n := op0 f 1 / 64
  { f with
    held := some []
    moves := (f.moves.zipIdx).flatMap fun m => (((ls.drop (n * m.2)).take n).zipIdx).map fun l =>
      ⟨.line l.1.1 l.1.2, advanceEnd m.1.dst (64 * l.2), 64⟩ }

/-- Another package has performed a request of class `c`: the lines of a read land, now or when nothing holds them, and the word's
answer is there. -/
def farAnswer (s : State) (c : Nat) (seq : BitVec 16) (ls : List FarLine) : State :=
  match findSeq s c seq with
  | none => s
  | some (f, j, team) =>
    if !isFar f || (reqOf f j).left.isNone || (reqOf f j).done then s
    else
      let g := noteDone (if isRecv f.instr then answerLines f ls else f) j
      let t := modSender s c team f.id fun _ => g
      if isRecv f.instr && team.isNone && !(getCls s c).frozen then landHeld t c else t

/-- Sources of other packages by number, apart from this package's classes. -/
def farSource (pkg src : Nat) : Nat := 40 * (pkg + 1) + src

/-- The destination remembers the lines with which it answered, while it knows the request (R141). -/
def noteAnswer (s : State) (c src seq : Nat) (ls : List FarLine) : State :=
  modCls (noteSeen s c src seq) c fun k =>
    { k with answers := ((src, seq, ls) :: k.answers.filter fun x => !(x.1 == src && x.2.1 == seq)).filter fun x =>
        k.seen.contains (x.1, x.2.1) }

/-- The add of a request of another package; none where its counter is poisoned, which is recorded here (R130; log 51). -/
def farAdd (s : State) (r : FarReq) : Option State :=
  match r.add with
  | none => some s
  | some h =>
    if (poisonAt s (.counter h.toNat)).isSome then none
    else some (if ctrInRange s r.part h.toNat then (ctrAdd s h.toNat r.len true).getD s else s)

/-- A request of another package's class arrives: a class that is not granted to the partition of that number is refused; else the
request is performed once, and acknowledged, a duplicate with the same lines (R141, R389, R390; log 51). -/
def farArrival (s : State) (pkg : Nat) (seq : BitVec 16) (r : FarReq) : State :=
  let src := farSource pkg r.src
  let ack := fun (s : State) (ls : List FarLine) => sendFar s pkg (.corridorAck pkg r.src seq ls)
  let refuse := fun (s : State) => sendFar s pkg (.corridorRefusal pkg r.src seq)
  if !classIn s r.part r.cls || (getPart s r.part).state == 0 then refuse s
  else if (getCls s r.cls).seen.contains (src, seq.toNat) then
    ack s (((getCls s r.cls).answers.find? fun x => x.1 == src && x.2.1 == seq.toNat).elim [] (·.2.2))
  else
    let ends := r.desks.map fun d => (⟨.tower r.cls d r.off, .none, r.len⟩ : Move)
    match r.data with
    | none =>
      let ls := ends.flatMap (sourceLines s r.cls)
      ack (noteAnswer s r.cls src seq.toNat ls) ls
    | some ls =>
      let n := r.len / 64
      let t := (ends.zipIdx).foldl (fun s m => putLines s r.cls m.1.src ((ls.drop (n * m.2)).take n)) s
      match farAdd t r with
      | some t => ack (noteSeen t r.cls src seq.toNat) []
      | none =>
        let h := (r.add.getD 0).toNat
        refuse (bbRecord t (ctrDie h) r.part 0x013 0xFF 0xFF 0 (locator (.counter h) 0))

/-- CORRIDOR_REQUEST_ARRIVAL: a request is performed at its destination once; a duplicate is acknowledged again and nothing more
(R141). Between packages the requests, answers and refusals arrive on the K-links. -/
def execCorridorRequestArrival (src : CorSource) (seq : BitVec 16) (s : State) : Out :=
  .next (match src with
    | .cls c => ownArrival s c seq
    | .ask pkg r => farArrival s pkg seq r
    | .answer c ls => farAnswer s c seq ls
    | .refused c =>
      match findSeq s c seq with
      | none => s
      | some (f, j, team) => if isFar f && (reqOf f j).left.isSome && !(reqOf f j).done then deliveryFault s c f seq team else s)

/-- CORRIDOR_ACK_TIMEOUT: 4 µs after its last sending an unacknowledged request is sent again by the alternate route, at
most three times; then the delivery fault kills the node (R142). -/
def execCorridorAckTimeout (c : Nat) (seq : BitVec 16) (s : State) : Out :=
  match findSeq s c seq with
  | none => .next s
  | some (f, j, team) =>
    let r := reqOf f j
    if !(unacked f j || (team.isSome && r.left.isSome && !r.done)) || decide (8 * (s.ticks8 - r.left.getD 0) < 4000) then .next s
    else if r.sends < 3 then
      let s := modSender s c team f.id fun f => { f with reqs := f.reqs.set j (sendOff s c f j true (r.sends + 1)) }
      .next (senderRecord s c team 0x033 0xFF (BitVec.ofNat 64 ((r.sends + 1) * 65536 + seq.toNat)))
    else .next (deliveryFault s c f seq team)

end Sys2Proof.Machine
end

