-- ==== Sys2Proof/Machine/Graph.lean ====
section
/-!
DEFINITION. Sealed graphs (R98-R104, R485): reading a graph in the partition's address space, the checks of a launch, the
loop-nest record, enumeration, and which sets of classes a node can be placed on (R108-R110, R51).
-/

namespace Sys2Proof.Machine

/-! ## The partition's address space (R485) -/

/-- The first of H0 to H7 whose table maps the page for the partition; a page under migration is found after it. -/
def partPage (s : State) (part vpn : Nat) : Option Nat :=
  (List.range 8).findSome? fun t =>
    match walk s t part vpn with
    | .frame f => some (framePa t f)
    | .wait f => some (framePa t f)
    | .halt _ => none

/-- The 64-byte line `u` of the partition's address space, with its poison. -/
def partLine (s : State) (part u : Nat) : Option (List Byte × Bool) :=
  (partPage s part (u / 1024)).map fun a =>
    let x := a + u % 1024 * 64
    (readBytes s x 64, (poisonAt s (.phys (x / 64))).isSome)

/-- `n` bytes at `va`, and whether one of them is poisoned; none where one does not translate. -/
def readPart (s : State) (part va n : Nat) : Option (List Byte × Bool) :=
  let us := (List.range ((va + n + 63) / 64 - va / 64)).map fun j => partLine s part (va / 64 + j)
  if us.all Option.isSome then
    let xs := us.filterMap fun x => x
    some (((xs.flatMap (·.1)).drop (va % 64)).take n, xs.any (·.2))
  else none

/-! ## The loop-nest record (R103) -/

def recOrder (r : List Byte) : Nat := bitField (recWord r) 63 62
def recTeam (r : List Byte) : Nat := bitField (recWord r) 57 55 + 1
def recShape (r : List Byte) : Nat := bitField (recWord r) 54 53
def recDie (r : List Byte) : Nat := bitField (recWord r) 52 51
def recIdemp (r : List Byte) : Bool := (recWord r).testBit 50
def recResid (r : List Byte) : Bool := (recWord r).testBit 49
def recMaxTeams (r : List Byte) : Nat := bitField (recWord r) 48 43
def recDims (r : List Byte) : Nat := bitField (recWord r) 42 40
def recEst (r : List Byte) : Nat := recWord r % 2 ^ 40
def recEntry (r : List Byte) : Nat := byteField r 8 8
def recThnd (r : List Byte) : Nat := byteField r 16 8
def recWintab (r : List Byte) : Nat := byteField r 24 8
def recSched (r : List Byte) : Nat := byteField r 32 8
def recExt (r : List Byte) (k : Nat) : Nat := byteField r (40 + 4 * k) 4
def recPin (r : List Byte) : Nat := byteField r 96 8

/-- Signal edges: their fields and values. -/
def recSignals (r : List Byte) : List (Nat × Nat) :=
  [(byteField r 72 4, byteField r 80 8), (byteField r 76 4, byteField r 88 8)]
def edgeBad (e : Nat) : Bool :=
  if edgeOn e then bitField e 29 25 != 0 || (!edgeAbs e && bitField e 24 8 != 0) else e != 0

/-- The record is malformed (status 0x43). -/
def recBad (r : List Byte) : Bool :=
  recHeat r == 3 || recShape r == 3 || recDie r == 3 || recMaxTeams r == 0 || decide (40 < recMaxTeams r)
    || recDims r == 0 || decide (4 < recDims r)
    || (List.range 4).any (fun k => decide (k < recDims r) == (recExt r k == 0))
    || edgeBad (recWait r).1 || (recSignals r).any (fun e => edgeBad e.1)
    || [recEntry r, recThnd r, recWintab r, recSched r].any (fun a => decide (2 ^ 56 ≤ a))
    || byteField r 60 4 != 0 || decide (2 ^ 40 ≤ recPin r) || byteField r 112 16 != 0

/-! ## Enumeration (R104) -/

/-- Iterations of a node. -/
def recCount (r : List Byte) : Nat := ((List.range (recDims r)).map (recExt r)).foldl (· * ·) 1

/-- Digits of a number, the last extent fastest. -/
def rowDigits : List Nat → Nat → List Nat
  | [], _ => []
  | e :: es, o =>
    let rest := es.foldl (· * ·) 1
    (o / rest % e) :: rowDigits es (o % rest)

/-- Serpentine: a dimension runs backwards where the indices before it add up to an odd number. -/
def serpentine : List Nat → List Nat → Nat → List Nat
  | e :: es, d :: ds, sum =>
    let i := if sum % 2 = 1 then e - 1 - d else d
    i :: serpentine es ds (sum + i)
  | _, _, _ => []

/-- Points of the box below the extents whose Morton codes begin with the bits chosen so far: `t` code bits are open. -/
def mortonCount (n t : Nat) (es is : List Nat) : Nat :=
  ((es.zip is).zipIdx).foldl (fun a x =>
    let low := n - 1 - x.2
    let b := if low < t then (t - low + n - 1) / n else 0
    a * (min x.1.1 (x.1.2 + 2 ^ b) - min x.1.1 x.1.2)) 1

/-- The indices of the `o`-th emitted code, bit by bit from the highest. -/
def mortonAt (n : Nat) (es : List Nat) : Nat → Nat → List Nat → List Nat
  | 0, _, is => is
  | t + 1, o, is =>
    let below := mortonCount n t es is
    if o < below then mortonAt n es t o is
    else mortonAt n es t (o - below) (is.modify (n - 1 - t % n) fun i => i + 2 ^ (t / n))

/-- Least m with 2^m ≥ every extent. -/
def mortonBits (es : List Nat) : Nat :=
  let mx := es.foldl max 1
  if 2 ^ Nat.log2 mx = mx then Nat.log2 mx else Nat.log2 mx + 1

/-- Indices i0 to i3 of the iteration with ordinal `o`. -/
def indicesOf (r : List Byte) (o : Nat) : List Nat :=
  let n := recDims r
  let es := (List.range n).map (recExt r)
  let is := match recOrder r with
    | 0 => rowDigits es o
    | 1 => (rowDigits es.reverse o).reverse
    | 2 => mortonAt n es (mortonBits es * n) o (List.replicate n 0)
    | _ => serpentine es (rowDigits es o) 0
  (List.range 4).map fun k => is.getD k 0

/-! ## Placement (R16, R51, R108-R110) -/

/-- Two classes share an edge. -/
def shareEdge (a b : Nat) : Bool :=
  let dist := fun (x y : Nat) => (x - y) + (y - x)
  dieOf a == dieOf b && dist (localOf a % 5) (localOf b % 5) + dist (localOf a / 5) (localOf b / 5) == 1

/-- The least set of `n` classes from ascending candidates, no two of which `clash`. -/
def pickSet (clash : Nat → Nat → Bool) (taken : List Nat) : List Nat → Nat → Option (List Nat)
  | _, 0 => some []
  | [], _ + 1 => none
  | c :: cs, n + 1 =>
    if taken.any fun t => clash t c then pickSet clash taken cs (n + 1)
    else
      match pickSet clash (c :: taken) cs n with
      | some l => some (c :: l)
      | none => pickSet clash taken cs (n + 1)

/-- The members of a line of `n` classes that begins at `c`, if it stays in its row or column. -/
def lineFrom (shape n c : Nat) : Option (List Nat) :=
  let l := localOf c
  if shape = 1 then (if l % 5 + n ≤ 5 then some ((List.range n).map fun j => c + j) else none)
  else if l / 5 + n ≤ 4 then some ((List.range n).map fun j => c + 5 * j)
  else none

/-- Where a node of this record goes among the candidates: the least qualifying list of classes. `near heat c`: class `c`
shares an edge with a running class of that heat. -/
def placeOn (r : List Byte) (cands : List Nat) (near : Nat → Nat → Bool) : Option (List Nat) :=
  let n := recTeam r
  let heat := recHeat r
  let shape := recShape r
  let ok := fun (c : Nat) =>
    (recPin r == 0 || (recPin r).testBit c) && (recDie r == 2 || dieOf c == recDie r)
      && !(heat == 1 && near 2 c) && !(heat == 2 && (near 1 c || near 2 c))
  let cs := cands.filter ok
  if shape = 0 then
    let clash := fun (a b : Nat) => heat == 2 && shareEdge a b
    match pickSet clash [] (cs.filter fun c => dieOf c = 0) n with
    | some l => some l
    | none => pickSet clash [] (cs.filter fun c => dieOf c = 1) n
  else if heat = 2 ∧ 1 < n then none
  else cs.findSome? fun c => (lineFrom shape n c).filter fun l => l.all cs.contains

/-- Classes of a partition. -/
def classesOf (s : State) (part : Nat) : List Nat := (List.range 40).filter fun c => (partArg s part 1).testBit c

/-! ## Schedule and window tables (R36, R205, R225) -/

/-- A defect of R36. -/
def schedBad (t : List Byte) : Bool :=
  let nvar := byteField t 0 8
  let desc := fun (v : Nat) => byteField t (16 + 8 * v) 8
  nvar == 0 || decide (3 < nvar)
    || (List.range 32).any (fun i => decide (nvar ≤ byteField t 8 8 / 4 ^ i % 4))
    || (List.range nvar).any (fun v => desc v % 64 == 0 || decide (32 < desc v % 64) || decide (128 ≤ desc v))
    || (desc 0).testBit 6 || byteField t 40 24 != 0

/-- The parts of [a, a + n) that lie in a table's frames: table, first frame, bytes. -/
def tableParts (a n : Nat) : List (Nat × Nat × Nat) :=
  let cut := fun (lo hi : Nat) => (max a lo, min (a + n) hi)
  let hbm := (List.range 8).map fun t => (t, t * 2 ^ 36, cut (t * 2 ^ 36) (t * 2 ^ 36 + hbmFrames * 65536), 0)
  let cxl := (List.range 6).map fun p =>
    (portTable p, 2 ^ 44 + p * 2 ^ 42, cut (2 ^ 44 + p * 2 ^ 42) (2 ^ 44 + (p + 1) * 2 ^ 42), hbmFrames)
  ((hbm ++ cxl).filter fun x => decide (x.2.2.1.1 < x.2.2.1.2)).map fun x =>
    (x.1, x.2.2.2 + (x.2.2.1.1 - x.2.1) / 65536, x.2.2.1.2 - x.2.2.1.1)

/-- Every byte of an unpaged segment is backed, and every covered frame names the partition as owner. -/
def unpagedOk (s : State) (part a n : Nat) : Bool :=
  let ps := tableParts a n
  let host := min (a + n) (2 ^ 52) - max a hostBase
  let cxlOk := (List.range 6).all fun p =>
    decide (a + n ≤ 2 ^ 44 + p * 2 ^ 42 + cxlCap s.boot p) || decide (2 ^ 44 + (p + 1) * 2 ^ 42 ≤ a)
      || decide (a + n ≤ 2 ^ 44 + p * 2 ^ 42)
  decide ((ps.map (·.2.2)).sum + host = n) && cxlOk
    && ps.all fun x =>
      ((iptOf s x.1).entry.filter fun e =>
        e.2.part == part && decide (x.2.1 ≤ e.1) && decide (e.1 < x.2.1 + x.2.2 / 65536)).length == x.2.2 / 65536

/-- The geometry in a pool's header: LOG2BSZ, NENT, NBLK, BLKOFF; none where R225 refuses it. -/
def poolGeometry (s : State) (g : Seg) : Option (List Nat) :=
  let h := readBytes s g.pbase 64
  let log2 := byteField h 4 1
  let nent := byteField h 8 4
  let nblk := byteField h 12 4
  let off := byteField h 24 8
  if byteField h 0 4 = 0x4A594B56 && decide (12 ≤ log2) && decide (log2 ≤ 16) && decide (16 ≤ nent) && decide (nent ≤ 2 ^ 24)
      && 2 ^ Nat.log2 nent == nent && decide (1 ≤ nblk) && decide (nblk ≤ 2 ^ 24) && off % 2 ^ log2 == 0
      && decide (off + nblk * 2 ^ log2 ≤ g.len)
  then some [log2, nent, nblk, off] else none

/-- The pool's segment lies wholly in one stack and not at 0. -/
def poolPlaceOk (g : Seg) : Bool :=
  g.pbase != 0 && decide (g.pbase < 2 ^ 39) && decide (g.pbase % 2 ^ 36 + g.len ≤ hbmFrames * 65536)

/-- A defect of one descriptor. -/
def descBad (s : State) (part : Nat) (t : List Byte) (k : Nat) : Bool :=
  let w := fun (j : Nat) => byteField t (32 * k + 8 * j) 8
  let f := w 3
  match segAt t k with
  | none => [w 0, w 1, w 2, f].any (· != 0)
  | some g =>
    decide (2 ^ 56 ≤ w 0) || w 0 % 65536 != 0 || decide (2 ^ 40 ≤ w 1) || g.len == 0
      || (if g.paged then w 2 != 0 || g.pool || decide (8 ≤ g.table)
          else decide (2 ^ 52 ≤ w 2) || w 2 % 65536 != 0 || g.table != 0 || !unpagedOk s part g.pbase g.len)
      || !(g.r || g.w || g.x) || decide (2 ^ 56 < g.vbase + g.len)
      || [0xFC, 0xFD, 0xFE].any (fun x => decide (g.vbase < (x + 1) * 2 ^ 48) && decide (x * 2 ^ 48 < g.vbase + g.len))
      || (!g.pool && g.pnum != 0) || (!g.rcv && g.hdl != 0) || f % 2 ^ 36 != 0
      || (g.pool && (!poolPlaceOk g || (poolGeometry s g).isNone)) || (g.rcv && !recInRange s part g.hdl)

/-- Two segments of a list overlap, or are pools of one number. -/
def segsClash : List Seg → Bool
  | [] => false
  | g :: gs => gs.any (fun h => (decide (g.vbase < h.vbase + h.len) && decide (h.vbase < g.vbase + g.len))
      || (g.pool && h.pool && g.pnum == h.pnum)) || segsClash gs

/-- A window table is refused (status 0x45). -/
def winBad (s : State) (part : Nat) (t : List Byte) : Bool :=
  (List.range 64).any (descBad s part t) || segsClash (segsOf t)

/-- A word address (R329) that translates to an executable page through a window table (status 0x48). -/
def execPage (s : State) (part : Nat) (t : List Byte) (va : Nat) : Bool :=
  isWordAddr va &&
    match findSeg (segsOf t) va with
    | none => false
    | some g => g.x && (!g.paged || match walk s g.table part (va / 65536) with
        | .frame _ => true
        | .wait _ => true
        | .halt _ => false)

/-! ## The snapshot and its checks (R99, R100) -/

/-- A table a node names, with its poison. -/
def nodeTable (s : State) (part a n : Nat) : Option (List Byte × Bool) := readPart s part a n

/-- The schedule table a node names, with its poison; a record that names none declares none (R35). -/
def nodeSched (s : State) (part : Nat) (r : List Byte) : Option (List Byte × Bool) :=
  if recSched r = 0 then some ([], false) else nodeTable s part (recSched r) 64

/-- The window table a node names, with its poison. -/
def nodeWin (s : State) (part : Nat) (r : List Byte) : Option (List Byte × Bool) := nodeTable s part (recWintab r) 2048

/-- The snapshot of a node whose tables translate. -/
def snapNode (s : State) (part : Nat) (r : List Byte) : Option NodeSnap :=
  match nodeSched s part r, nodeWin s part r with
  | some c, some w =>
    some ⟨r, c.1, w.1, (segsOf w.1).filterMap fun g => if g.pool then (poolGeometry s g).map fun x => (g.pnum, x) else none⟩
  | _, _ => none

/-- An edge that R100 refuses. -/
def edgeOut (s : State) (part nctr e : Nat) : Bool :=
  edgeOn e && (if edgeAbs e then !ctrInRange s part (e % 2 ^ 25) else decide (nctr ≤ e % 256))

/-- Statuses of one node's failed checks. -/
def nodeFails (s : State) (part nctr : Nat) (r : List Byte) : List Nat :=
  (if recBad r then [0x43] else [])
    ++ (if (placeOn r (classesOf s part) fun _ _ => false).isNone then [0x46] else [])
    ++ (if ((recWait r).1 :: (recSignals r).map (·.1)).any (edgeOut s part nctr) then [0x47] else [])
    ++ (match nodeSched s part r with
      | none => [0x49]
      | some c => (if recSched r != 0 && schedBad c.1 then [0x44] else []) ++ (if c.2 then [0x49] else []))
    ++ (match nodeWin s part r with
      | none => [0x49]
      | some w =>
        (if winBad s part w.1 then [0x45] else [])
          ++ (if !execPage s part w.1 (recEntry r) || (recThnd r != 0 && !execPage s part w.1 (recThnd r))
              then [0x48] else [])
          ++ (if w.2 then [0x49] else []))

/-- Header fields (R98). -/
def hdrNodes (h : List Byte) : Nat := byteField h 12 2
def hdrCtrs (h : List Byte) : Nat := byteField h 14 2
def hdrOff (h : List Byte) : Nat := byteField h 24 8

/-- The node table can be located. -/
def hdrShape (h : List Byte) : Bool :=
  hdrNodes h != 0 && decide (hdrNodes h ≤ 256) && decide (hdrCtrs h ≤ 256) && hdrOff h % 64 == 0 && decide (64 ≤ hdrOff h)

/-- The records of a node table. -/
def recordsOf (h tbl : List Byte) : List (List Byte) := (List.range (hdrNodes h)).map fun j => (tbl.drop (128 * j)).take 128

/-- A graph as read: its failed checks, header and node table. Every check is made, so that the lowest code can be told (R69,
R100); with a header that fails 0x42 the node records are not examined, as their codes are higher. -/
def readGraph (s : State) (part graph gver : Nat) : List Nat × List Byte × List Byte :=
  match readPart s part graph 64 with
  | none => ([0x02], [], [])
  | some (h, p0) =>
    let fails :=
      (if byteField h 4 4 ≠ gver then [0x03] else []) ++ (if p0 then [0x49] else [])
      ++ (if byteField h 0 4 ≠ 0x4A594752 || 2 ≤ byteField h 16 4 || byteField h 20 4 ≠ 0 || byteField h 32 28 ≠ 0
          then [0x40] else [])
      ++ (if hdrShape h then [] else [0x42])
    match (if hdrNodes h = 0 then some ([], false) else readPart s part (graph + hdrOff h) (128 * hdrNodes h)) with
    | none => (0x02 :: fails, h, [])
    | some (tbl, p1) =>
      let crc := crc32 (h.take 60 ++ [0, 0, 0, 0] ++ tbl)
      (fails ++ (if p1 then [0x49] else []) ++ (if crc.toNat ≠ byteField h 60 4 then [0x41] else [])
        ++ (if hdrShape h then (recordsOf h tbl).flatMap (nodeFails s part (hdrCtrs h)) else []), h, tbl)

/-- The lowest of some statuses. -/
def lowest (l : List Nat) : Option Nat := l.foldl (fun m x => match m with
  | none => some x
  | some y => some (min x y)) none

end Sys2Proof.Machine
end

