-- ==== Sys2Proof/Machine/Host.lean ====
section
/-!
DEFINITION. Launch queues (R62-R73): registers of a virtual function, launch entries and their checks, completion records, the
entries that are no launch (R68), the end of an instance (R70, R71).
-/

namespace Sys2Proof.Machine

/-! ## Host memory -/

/-- A host bus address: host memory of the physical map (R18), or beyond it. -/
def hostAddr (a : Nat) : Nat := if a < 2 ^ 51 then hostBase + a else 2 ^ 56 + a

/-- The partition's virtual function answers (R23). -/
def vfOn (s : State) (k : Nat) : Bool := decide (1 ≤ k) && decide (k ≤ 16) && (getPart s k).state != 0

/-! ## Queue registers (R62-R65, R73) -/

/-- Instances of a queue that live. -/
def queueInsts (s : State) (k q : Nat) : List Instance := s.insts.filter fun i => i.part = k && i.queue = q

def pending (x : Queue) : Bool := x.qridx != x.qwidx

/-- QCTL (R63). -/
def qctl (x : Queue) : W64 := (BitVec.ofBool x.en ++ x.pceil ++ BitVec.ofNat 5 x.log2n : BitVec 8).setWidth 64

/-- Live instances of the package, held ones included (R68, R101). -/
def liveCount (s : State) : Nat := s.insts.length

/-- WAIT of QSTAT (R73): the queue is blocked at a CWAIT entry, or by the instance limit for as long as that is reached. -/
def queueWaits (s : State) (x : Queue) : Bool :=
  x.armed.isSome || (x.wait && x.en && !x.halt && decide (512 ≤ liveCount s))

/-- QSTAT (R73). HALT reads its reset value 0 until EN has been set once, 1 after EN has been cleared (R65, R73; log 33). -/
def qstat (s : State) (k q : Nat) : W64 :=
  let x := getQueue s k q
  let idle := !pending x && (queueInsts s k q).isEmpty
  (x.err ++ 0#5 ++ BitVec.ofBool (queueWaits s x) ++ BitVec.ofBool x.halt ++ BitVec.ofBool idle : BitVec 16).setWidth 64

/-- PARTST (R78). -/
def partst (s : State) (k : Nat) : W64 :=
  (BitVec.ofNat 8 (getPart s k).wdcnt ++ 0#5 ++ BitVec.ofNat 3 (getPart s k).state : BitVec 16).setWidth 64

/-- A register of VF `k` (R62); offsets that are not listed read zero. -/
def vfReg (s : State) (k off : Nat) : W64 :=
  let q := off / 256
  let x := getQueue s k q
  if off = 0x800 then partst s k
  else if 8 ≤ q then 0
  else match off % 256 with
    | 0x00 => x.qbase
    | 0x08 => qctl x
    | 0x10 => x.qwidx.setWidth 64
    | 0x18 => x.qridx.setWidth 64
    | 0x20 => x.hmto.setWidth 64
    | 0x28 => qstat s k q
    | _ => 0

/-- QUEUE_ENABLE: a QCTL write with EN = 1. On a queue whose EN is set it is discarded, and a clearing of EN that still waits
for its entry boundary is taken back (log 34). A write whose EN is refused stores its LOG2N and PCEIL (log 35). -/
def execQueueEnable (k q : Nat) (v : W64) (s : State) : Out :=
  if !v.getLsbD 7 then .next s
  else if !vfOn s k then .next (send s .unsupported)
  else if (getQueue s k q).en then .next (modQueue s k q fun x => { x with stopping := false })
  else
    let n := (v.extractLsb' 0 5).toNat
    .next (modQueue s k q fun x =>
      let x := { x with log2n := n, pceil := v.extractLsb' 5 2 }
      if n < 4 ∨ 16 < n then { x with err := 1 }
      else if (getPart s k).state = 1 then { x with en := true, err := 0, halt := false }
      else { x with en := true })

/-- QUEUE_DISABLE: a QCTL write with EN = 0 takes effect at an entry boundary, so after the checks of a launch under way (R65).
LOG2N and PCEIL of the write that clears EN are discarded. -/
def execQueueDisable (k q : Nat) (v : W64) (s : State) : Out :=
  if v.getLsbD 7 then .next s
  else if !vfOn s k then .next (send s .unsupported)
  else .next (modQueue s k q fun x =>
    if x.en then (if x.checking.isSome then { x with stopping := true } else { x with en := false, halt := true })
    else { x with log2n := (v.extractLsb' 0 5).toNat, pceil := v.extractLsb' 5 2 })

/-- The queue at an entry boundary: a clearing of EN that waited for it takes effect (R65). -/
def atBoundary (x : Queue) : Queue :=
  if x.stopping then { x with checking := none, stopping := false, en := false, halt := true } else { x with checking := none }

/-- QWIDX_WRITE: more than 2^LOG2N pending entries is an overrun (R64). -/
def execQwidxWrite (k q : Nat) (v : W32) (s : State) : Out :=
  if !vfOn s k then .next (send s .unsupported)
  else .next (modQueue s k q fun x =>
    if 2 ^ x.log2n < (v - x.qridx).toNat then { x with halt := true, err := 2 } else { x with qwidx := v })

/-! ## Entries (R66, R67) -/

/-- The queue may consume an entry. -/
def canConsume (s : State) (k q : Nat) : Bool :=
  let x := getQueue s k q
  vfOn s k && (getPart s k).state == 1 && decide (q < 8) && x.en && !x.halt && x.armed.isNone && x.checking.isNone && pending x
    && !s.update.started

/-- The entry at QRIDX. -/
def headEntry (s : State) (k q : Nat) : List Byte :=
  let x := getQueue s k q
  let a := x.qbase.toNat + 128 * (x.qridx.toNat % 2 ^ x.log2n)
  readBytes s (hostAddr (a % 2 ^ 64)) 128

def entKind (e : List Byte) : Nat := bitField (entWord e 0) 63 56
def entIrq (e : List Byte) : Bool := (entWord e 0).testBit 46
def entSeq (e : List Byte) : Nat := entWord e 0 % 2 ^ 32
def entGraph (e : List Byte) : Nat := entWord e 1
def entGver (e : List Byte) : Nat := entWord e 2
def entDeadline (e : List Byte) : Nat := entWord e 3
def entCctr (e : List Byte) : Nat := entWord e 4 / 2 ^ 32
def entCval (e : List Byte) : Nat := entWord e 5
def entArgs (e : List Byte) : List Byte := (e.drop 64).take 32
def entCpl (e : List Byte) : Nat := entWord e 12

/-- A handle field and its value field are well formed, or zero where the KIND does not use them. -/
def ctrFieldBad (used : Bool) (h v : Nat) : Bool :=
  if used && v != 0 then h % 2 ^ 32 != 0 || decide (2 ^ 57 ≤ h) else h != 0 || (!used && v != 0)

/-- Malformed (status 0x01). -/
def entryBad (e : List Byte) : Bool :=
  let k := entKind e
  let launch := k == 1
  decide (3 < k) || bitField (entWord e 0) 55 48 != 1 || ((entWord e 0).testBit 47 && !launch)
    || bitField (entWord e 0) 45 32 != 0
    || (if launch then decide (2 ^ 56 ≤ entGraph e) || entGraph e % 64 != 0 || decide (2 ^ 32 ≤ entGver e)
          || decide (2 ^ 48 ≤ entDeadline e)
        else entGraph e != 0 || entGver e != 0 || entDeadline e != 0 || (entArgs e).any (· != 0))
    || ctrFieldBad (launch || k == 2) (entWord e 4) (entCval e) || ctrFieldBad (launch || k == 3) (entWord e 6) (entSval e)
    || entCpl e % 16 != 0 || byteField e 104 24 != 0

/-- Statuses of the checks of the entry and its counters (R69). -/
def entryFails (s : State) (k : Nat) (e : List Byte) : List Nat :=
  (if entryBad e then [0x01] else [])
    ++ (if (entCval e != 0 && !ctrInRange s k (entCctr e)) || (entSval e != 0 && !ctrInRange s k (entSctr e)) then [0x08] else [])
    ++ (if entKind e = 2 && decide (2 ^ 64 ≤ ctrGet s (entCctr e) + entCval e) then [0x09] else [])

/-! ## Completion (R70, R71) -/

/-- The completion record. -/
def writeRecord (s : State) (e : List Byte) (status nrb flags inst : Nat) : State :=
  if entCpl e = 0 then s
  else writePhys s (hostAddr (entCpl e))
    (leBytes 4 (entSeq e) ++ leBytes 2 status ++ leBytes 1 nrb ++ leBytes 1 flags ++ leBytes 8 inst)

/-- MSI-X vector `q`, if the entry asks for it (R70). DESIGN CHOICE (log 64): also where CPLADDR = 0 and no record is written. -/
def entryIrq (s : State) (k q : Nat) (e : List Byte) : State := if entIrq e then msix s (.vf k) q else s

/-- FLAGS[1], pair mode (R71). -/
def pairFlag (s : State) (k : Nat) : Nat := if (getPart s k).paired then 2 else 0

/-- The record and message of an entry that is no accepted instance. -/
def finishEntry (s : State) (k q : Nat) (e : List Byte) (status : Nat) : State :=
  entryIrq (writeRecord s e status 0 (pairFlag s k) 0) k q e

/-- The hall monitor of a queue restarts (R74): between two 1 µs ticks the first tick only ends a part of a µs (log 36). -/
def restartHm (s : State) (k q : Nat) : State :=
  modQueue s k q fun x => { x with hm := 0, hmPart := decide (s.ticks8 % 125 ≠ 0) }

/-- An entry is consumed: QRIDX advances, the hall monitor restarts. -/
def consumed (s : State) (k q : Nat) : State :=
  restartHm (modQueue s k q fun x => { x with qridx := x.qridx + 1, wait := false }) k q

/-- A release's add to a counter by the host interface; one that would overflow is not performed. -/
def hostAdd (s : State) (h v : Nat) : State := (ctrAdd s h v false).getD s

/-- ENTRY_NOP: also consumes an entry of unknown KIND, which is refused. -/
def execEntryNop (k q : Nat) (s : State) : Out :=
  let e := headEntry s k q
  if canConsume s k q && (entKind e == 0 || decide (3 < entKind e)) then
    .next (finishEntry (consumed s k q) k q e ((lowest (entryFails s k e)).getD 0))
  else .next s

/-- ENTRY_CADD: a release of device scope, then the record. -/
def execEntryCadd (k q : Nat) (s : State) : Out :=
  let e := headEntry s k q
  if canConsume s k q && entKind e == 2 then
    let t := consumed s k q
    .next (match lowest (entryFails s k e) with
      | some x => finishEntry t k q e x
      | none => finishEntry (if entCval e = 0 then t else hostAdd t (entCctr e) (entCval e)) k q e 0)
  else .next s

/-- ENTRY_CWAIT: the queue consumes nothing further until the condition is met, as the wait arrives or by an add (R253). -/
def execEntryCwait (k q : Nat) (s : State) : Out :=
  let e := headEntry s k q
  if canConsume s k q && entKind e == 3 then
    let t := consumed s k q
    .next (match lowest (entryFails s k e) with
      | some x => finishEntry t k q e x
      | none => modQueue t k q fun x =>
          { x with armed := some e, wait := true
                   waits := some (entSctr e, entSval e, decide (entSval e ≤ ctrGet s (entSctr e))) })
  else .next s

/-- ENTRY_CWAIT_SATISFIED. -/
def execEntryCwaitSatisfied (k q : Nat) (s : State) : Out :=
  match (getQueue s k q).armed with
  | none => .next s
  | some e =>
    if (getQueue s k q).waits.any (·.2.2) then
      .next (finishEntry (modQueue s k q fun x => { x with armed := none, waits := none, wait := false }) k q e 0)
    else .next s

/-- ENTRY_READ_ERROR (R64). -/
def execEntryReadError (k q : Nat) (s : State) : Out :=
  .next (if canConsume s k q then modQueue s k q fun x => { x with halt := true, err := 3 } else s)

/-! ## The end of an instance (R70) -/

/-- Record, completion add and message, in this order; the instance is gone. DESIGN CHOICE (log 69): die 0 records 0x063. -/
def finishInstance (s : State) (i : Instance) : State :=
  let flags := (if i.lowp then 1 else 0) + pairFlag s i.part
  let s := writeRecord s i.entry i.status.toNat i.nrb flags i.num
  let s := if i.status = 0 ∧ entCval i.entry ≠ 0 then
      match ctrAdd s (entCctr i.entry) (entCval i.entry) false with
      | some s' => s'
      | none => bbRecord s 0 i.part 0x063 0xFF 0xFF 0 (BitVec.ofNat 64 (entCctr i.entry))
    else s
  let s := entryIrq s i.part i.queue i.entry
  { s with insts := s.insts.filter fun j => j.num ≠ i.num }

/-- INSTANCE_END. -/
def execInstanceEnd (inst : Nat) (s : State) : Out :=
  match instOf s inst with
  | none => .next s
  | some i => .next (if i.state = .ended then finishInstance s i else s)

end Sys2Proof.Machine
end

