-- ==== Sys2Proof/Machine/Launch.lean ====
section
/-!
DEFINITION. Launches (R68, R69, R99-R102, R105): the one-time read and check, acceptance or refusal, the start of an instance,
readiness of its nodes.
-/

namespace Sys2Proof.Machine

/-- ENTRY_LAUNCH: the read of the graph begins; at 512 live instances the entry stays unconsumed and the queue blocks. -/
def execEntryLaunch (k q : Nat) (s : State) : Out :=
  let e := headEntry s k q
  if canConsume s k q && entKind e == 1 then
    .next (modQueue s k q fun x => if 512 ≤ liveCount s then { x with wait := true } else { x with checking := some e, wait := false })
  else .next s

/-- A new instance (R71, R99): its number, its snapshot, held. -/
def newInstance (s : State) (k q : Nat) (e h tbl : List Byte) : Instance :=
  { num := s.nextInst, part := k, queue := q, entry := e, gid := BitVec.ofNat 32 (byteField h 8 4)
    excl := (byteField h 16 4).testBit 0, snaps := (recordsOf h tbl).filterMap (snapNode s k), nctr := hdrCtrs h
    pceil := (getQueue s k q).pceil, accepted := s.ticks8
    sctrMet := decide (entSval e ≤ ctrGet s (entSctr e)) }

/-- A confidential partition's unpaged segments give the addresses that its frames are encrypted under (R230). -/
def keepSegs (s : State) (i : Instance) : State :=
  if partArg s i.part 7 % 2 = 1 then
    modPart s i.part fun p => { p with segs := (i.snaps.flatMap fun y => ((segsOf y.win).filter fun g => !g.paged).map fun g =>
      (g.vbase, g.pbase, g.len)) ++ p.segs }
  else s

/-- A refused launch goes to firmware as well (R461); what the event carries beside its code, partition and number is free. -/
def refuseLaunch (s : State) (k q : Nat) (e : List Byte) (status : Nat) : State :=
  finishEntry (pushEvent (bumpBy s 2) 0 0x80 0xFF k (freeNth s 0) (freeNth s 1) 0) k q e status

/-- LAUNCH_ACCEPTANCE: accepted, or refused with the lowest status; at 512 live instances neither, the entry stays unconsumed
(R68). DESIGN CHOICE (log 66): every line of the snapshot is read at the one moment of this event. -/
def execLaunchAcceptance (k q : Nat) (s : State) : Out :=
  match (getQueue s k q).checking with
  | none => .next s
  | some e =>
    if 512 ≤ liveCount s then .next (modQueue s k q fun x => { atBoundary x with wait := true })
    else
    let t := consumed (modQueue s k q atBoundary) k q
    let bad := entryFails s k e
    let g := if entryBad e then ([], [], []) else readGraph s k (entGraph e) (entGver e)
    match lowest (bad ++ g.1) with
    | some x => .next (refuseLaunch t k q e x)
    | none =>
      let i := newInstance t k q e g.2.1 g.2.2
      .next (keepSegs { t with insts := t.insts ++ [i], nextInst := t.nextInst + 1 } i)

/-! ## Start (R101, R102) -/

/-- Counters that running instances of a partition hold: first handle and count. -/
def heldRuns (s : State) (k : Nat) : List (Nat × Nat) :=
  (s.insts.filter fun i => i.part = k && i.state = .running && i.nctr != 0).map fun i => (i.h0, i.nctr)

/-- The least run of `n` free handles in [lo, hi): it begins at `lo` or after a run that is held. DESIGN CHOICE (log 67): of several
free runs the lowest is taken, which may begin in SRAM and end in the overflow area. -/
def freeRun (held : List (Nat × Nat)) (lo hi n : Nat) : Option Nat :=
  let ok := fun (a : Nat) => decide (lo ≤ a) && decide (a + n ≤ hi) && held.all fun r => decide (a + n ≤ r.1) || decide (r.1 + r.2 ≤ a)
  lowest ((lo :: held.map fun r => r.1 + r.2).filter ok)

/-- Handles for an instance: on die 0 if a run is free there, else on die 1; SRAM before overflow (R102, R252). -/
def takeRun (s : State) (k n : Nat) : Option Nat :=
  let held := heldRuns s k
  (List.range 2).findSome? fun d =>
    let a := partArg s k (2 + d)
    let lo := a / 2 ^ 32
    let hi := lo + a % 2 ^ 32
    let mid := d * 2 ^ 24 + 65536
    match freeRun held lo (min hi mid) n with
    | some h => some h
    | none => (freeRun held lo hi n)

/-- Set a run of counters to 0; barrier rounds that ran on them are forgotten. -/
def zeroCounters (s : State) (lo n : Nat) : State :=
  let within := fun (h : Nat) => decide (lo ≤ h) && decide (h < lo + n)
  { s with ctr := tdrop within s.ctr
           barriers := s.barriers.filter fun b => !within b.handle
           poison := s.poison.filter fun e => match e.1 with
             | .counter h => !within h
             | _ => true }

/-- An earlier-accepted instance of the same GID in the partition has not ended (R101 EXCL). -/
def exclBlocked (s : State) (i : Instance) : Bool :=
  i.excl && s.insts.any fun j => j.part = i.part && j.gid = i.gid && decide (j.num < i.num) && j.state != .ended

/-- INSTANCE_START: the counters are taken and set to 0, the nodes wait or are ready. -/
def execInstanceStart (inst : Nat) (s : State) : Out :=
  match instOf s inst with
  | none => .next s
  | some i =>
    if i.state != .held || (getPart s i.part).state != 1 || exclBlocked s i || !i.sctrMet then .next s
    else
      match (if i.nctr = 0 then some 0 else takeRun s i.part i.nctr) with
      | none => .next s
      | some h0 =>
        let s := zeroCounters s h0 i.nctr
        let nodes := i.snaps.map fun y =>
          let w := recWait y.record
          ({ state := if edgeOn w.1 then .waiting else .ready, met := edgeMet s h0 w } : Node)
        .next (modInst s inst fun i => { i with state := .running, h0 := h0, nodes := nodes })

/-- NODE_READY: the wait edge is satisfied, once (R105). -/
def execNodeReady (inst node : Nat) (s : State) : Out :=
  match instOf s inst with
  | none => .next s
  | some i =>
    if i.state = .running ∧ node < i.nodes.length ∧ (nodeOf s inst node).state = .waiting ∧ (nodeOf s inst node).met = true then
      .next (modNode s inst node fun n => { n with state := .ready })
    else .next s

end Sys2Proof.Machine
end

