-- ==== Sys2Proof/Machine/Image.lean ====
section
/-!
DEFINITION. What of a class goes into a save image and comes back (R119, R271, R275-R282): the members' states, the granules
and their coding.
-/

namespace Sys2Proof.Machine

/-! ## What belongs to the class's place, not to its team -/

/-- `base` with what stays with the class through dispatch, save and resume: clocks, error hardware, sensors, router, refresh,
remap. A countdown that was saved goes on in the present clock (R58). -/
def onPlace (place base : ClassState) : ClassState :=
  { setClock base place.clks with
    bal := place.bal, busy := place.busy, load := place.load, remap := place.remap, patch := place.patch, frozen := place.frozen
    guard := place.guard, replayHold := place.replayHold, govCap := place.govCap, replays := place.replays
    quiet := place.quiet, permit := place.permit, refusals := place.refusals, temps := place.temps
    thermRow := place.thermRow, thermBelow := place.thermBelow, thermPeak := place.thermPeak, rpri := place.rpri
    ralt := place.ralt, seqNo := place.seqNo, seen := place.seen, answers := place.answers, cons := place.cons, passes := place.passes
    shootAcks := place.shootAcks, router := place.router, defer := false, lim := 0 }

/-! ## Granules (R119, R278, R279) -/

/-- Key of a granule in a class's dirty table. -/
def granKey (p g : Nat) : Nat := p * 512 + g

/-- Granules to save on a member: dirty ones, or with RESID every granule of its 32 towers. -/
def gransOf (k : ClassState) (resid : Bool) : List (Nat × Nat) :=
  if resid then ((List.range 34).filter (towersInUse k).contains).flatMap fun p => (List.range 512).map fun g => (p, g)
  else k.dirty.map fun e => (e.1 / 512, e.1 % 512)

/-- A tower byte's class, physical tower and granule. -/
def granAt (a : Nat) : Option (Nat × Nat × Nat) :=
  if 2 ^ 52 ≤ a ∧ a < 2 ^ 53 then
    let x := a - 2 ^ 52
    some (x / 2 ^ 25 / 34, x / 2 ^ 25 % 34, x % 2 ^ 25 / 65536)
  else none

/-- The class whose sequencer scratch holds an address. -/
def scratchOf (a : Nat) : Option Nat := if 2 ^ 53 ≤ a ∧ a < scratchAddr 40 0 then some ((a - 2 ^ 53) / 2 ^ 16) else none

/-- A unit that the image of class `c` with these granules carries: registers, queues, scratch (the text under R369: scratch is
reached by save and restore), tower lines of the granules. -/
def unitSaved (c : Nat) (gs : List (Nat × Nat)) : PUnit → Bool
  | .vreg c' _ _ _ => c' == c
  | .acc c' _ _ _ => c' == c
  | .mask c' _ _ _ => c' == c
  | .queue c' _ _ => c' == c
  | .tower c' p l => c' == c && gs.contains (p, l / 1024)
  | .phys _ => false
  | .scratch c' _ => c' == c
  | .code _ _ => false
  | .counter _ => false

/-- A unit of a class's registers and queues. -/
def unitRegister (c : Nat) : PUnit → Bool
  | .scratch _ _ => false
  | u => unitSaved c [] u

/-- The cell lies in one of the granules of class `c`, or in its scratch. -/
def cellSaved (c : Nat) (gs : List (Nat × Nat)) (a : Nat) : Bool :=
  match granAt a with
  | some x => x.1 == c && gs.contains x.2
  | none => scratchOf a == some c

/-- Line `j` of a granule, from the cells of an image. -/
def granLine (cells : List Host.Cell) (c p g j : Nat) : List Byte := tgetN 0 cells (towerAddr c p (g * 65536 + 64 * j)) 64

/-- Kind of a line (R279). -/
def lineKind (i : Image) (c p g j : Nat) : Nat :=
  let bs := granLine i.cells c p g j
  if i.poison.any fun e => e.1 == .tower c p (g * 1024 + j) then 3
  else if bs.all (· == 0) then 0
  else if (List.range 8).all fun n => (bs.drop (8 * n)).take 8 == bs.take 8 then 1 else 2

/-- Payload bytes of a kind. -/
def kindLen (k : Nat) : Nat := if k = 1 then 8 else if k = 2 then 64 else 0

def granKinds (i : Image) (c p g : Nat) : List Nat := (List.range 1024).map (lineKind i c p g)

/-- Length of a granule's coded stream. -/
def codedLen (i : Image) (c p g : Nat) : Nat := 256 + ((granKinds i c p g).map kindLen).sum

/-- Raw mode: the coded stream would be longer than 65,536 bytes. -/
def isRaw (i : Image) (c p g : Nat) : Bool := decide (65536 < codedLen i c p g)

/-- Where the opaque block of rank `r` begins in an image (R272). -/
def opqStart (members r : Nat) : Nat := 0x100 + members * 0x20C000 + r * 0x10000

/-- Bytes of an image at uncoded size (R118, R271, R272). -/
def uncodedLen (members grans : Nat) : Nat := 0x100 + members * (0x20C000 + 0x10000) + grans * (16 + 65536)

/-- The bytes of a die's save area that images take: offset and length. -/
def areaRuns (s : State) (die : Nat) : List (Nat × Nat) :=
  s.teams.filterMap fun t =>
    if dieOf (t.classes.headD 0) = die then t.image.map fun i => (i.off, uncodedLen i.members.length i.grans.length) else none

/-- Where an image of this size goes in the die's save area (R271); the first place that holds it (log 25). -/
def areaPlace (s : State) (die n : Nat) : Option Nat := freeRun (areaRuns s die) 0 s.boot.saveBytes n

/-- The header's CRC fails, or the check of an opaque block: one of their sectors in the save area has been found bad (R276, R282). -/
def imageBad (s : State) (t : Team) (i : Image) : Bool :=
  let at0 := Config.saveArea (dieOf (t.classes.headD 0)) + i.off
  let runs := (at0, 256) :: (i.opq.zipIdx).map fun e => (at0 + opqStart i.members.length e.2, e.1)
  s.poison.any fun e => match e.1 with
    | .phys n => runs.any fun r => decide (r.1 < 64 * n + 64) && decide (64 * n < r.1 + r.2)
    | _ => false

/-! ## Capture (R280) -/

/-- An issued word as the image holds it: waits are sent again, an atomic that has not written reads again, countdowns keep what has
run, requests that are not acknowledged leave anew, translations are not held (R212, R280). -/
def savedOp (now : Nat) (f : InFlight) : InFlight :=
  let f := { f with start := now - f.start, reqs := f.reqs.map (fun (q : Sending) => if q.done then q else {}), pages := [] }
  let again := { f with status := .issued, prog := 0, reqs := f.reqs.map fun _ => {} }
  match f.instr with
  | .cwait _ _ => again
  | .cwaitT _ _ => again
  | .bwait _ _ => again
  | i => if isAtomic i then { f with prog := 0 } else f

/-- A member's state in the image: walks cancelled, deferral ended, the class no longer held; a QCVT that firmware was to let
issue again does so after resume (R265, R461). -/
def savedClass (s : State) (c : Nat) : ClassState :=
  let k := getCls s c
  let k := { k with
    walk := none, defer := false, lim := 0, tcache := [], fetchBuf := [], loopBuf := [], partials := []
    causes := k.causes.filter fun x => x.eng.isSome
    lncResume := lnc s c
    inflight := k.inflight.map (savedOp s.ticks8) }
  if k.hold.isSome then settle { k with hold := none } false else k

/-- The granules and scratches of a team's classes as they stand, in an image: their cells and poison, which granules. -/
def captureCells (s : State) (t : Team) (resid : Bool) (i : Image) : Image :=
  let gs := t.classes.map fun c => gransOf (getCls s c) resid
  let per := t.classes.zip gs
  { i with
    cells := s.mem.filter fun e => per.any fun x => cellSaved x.1 x.2 e.1
    poison := s.poison.filter fun e => per.any fun x => unitSaved x.1 x.2 e.1
    grans := (gs.zipIdx).flatMap fun x => x.1.map fun g => (x.2, g) }

/-- A word whose sent requests the class's router keeps while its team is saved (R280): every one with corridor requests but the
waits, whose records are cancelled, and the data movements of the A engine, which go on from their first unwritten line. -/
def routable (i : Instr) : Bool :=
  match i with
  | .cwait _ _ => false
  | .cwaitT _ _ => false
  | .bwait _ _ => false
  | i => queueOf i == some 1 || queueOf i == some 2 || isAtomic i

/-- A word as the router holds it: a transfer with its sources as they stand, an atomic with the address that it presented; none for
one whose address stands for no unshared place now. -/
def routedOp (s : State) (c : Nat) (f : InFlight) : Option InFlight :=
  if isAtomic f.instr then
    if f.prog = 1 then some f
    else if handleShared s c (amoVa f) then none
    else match (amoTarget s c f).2 with
      | (va, .pa a) => some { f with ops := amoOps f 0 a va }
      | _ => none
  else match f.instr with
    | .xrecv _ _ => some f
    | _ => some { f with moves := f.moves.flatMap (captureMove s) }

/-- The words of a class whose requests are sent and not acknowledged. -/
def routedOps (s : State) (t : Team) (c : Nat) : List Routed :=
  ((getCls s c).inflight.filter fun f => routable f.instr && f.reqs.any fun q => q.left.isSome && !q.done).filterMap fun f =>
    (routedOp s c f).map fun g => ⟨t.id, t.inst, t.node, g⟩

/-- What a save makes of a team's members: the image. -/
def captureTeam (s : State) (t : Team) (resid : Bool) (off : Nat) : Image :=
  captureCells s t resid
    { members := t.classes.map (savedClass s), cells := [], poison := [], grans := [], off := off
      opq := (List.range t.classes.length).map fun j => (freeNth s j).toNat % 65537
      level := s.grant }

/-! ## Restore (R282) -/

/-- An issued word goes on: its countdown has run as long as before the save; requests that the class's router has kept come back to it
as they stand (R280). -/
def resumedOp (now : Nat) (held : List Routed) (f : InFlight) : InFlight :=
  let f := { f with start := now - f.start }
  match held.find? fun r => r.op.id = f.id with
  | some r => { f with reqs := r.op.reqs, status := r.op.status, moves := r.op.moves, ops := r.op.ops, prog := r.op.prog
                       held := r.op.held }
  | none => f

/-- A member's state back on its class. The key and HUB are formed anew by the caller (R42). -/
def resumedClass (s : State) (c team : Nat) (m : ClassState) : ClassState :=
  let kept := (getCls s c).router.filter fun r => r.team = team
  let k := onPlace (getCls s c) m
  { k with
    inflight := k.inflight.map (resumedOp s.ticks8 kept), lncResume := lnc s c, lncStart := 0, lncBar := none, live := true
    router := (getCls s c).router.filter fun r => r.team ≠ team
    hold := none, halt := { m.halt with valid := false } }

/-- The saved granules and scratches come back; poisoned lines as zeros, or in raw mode as stored, with media poison (R279, R282). -/
def restoreCells (s : State) (t : Team) (i : Image) : State :=
  let gone := fun (e : Host.Cell) => match granAt e.1 with
    | some x => (t.classes.zipIdx).any fun y => y.1 == x.1 && i.grans.contains (y.2, x.2)
    | none => (scratchOf e.1).any t.classes.contains
  let zero := fun (e : Host.Cell) => match granAt e.1 with
    | some x => i.poison.any (fun p => p.1 == .tower x.1 x.2.1 (e.1 % 2 ^ 25 / 64)) && !isRaw i x.1 x.2.1 x.2.2
    | none => false
  let media := fun (e : PUnit × Bool) => match e.1 with
    | .tower _ _ _ => (e.1, false)
    | _ => e
  let freshUnit := fun (u : PUnit) => (t.classes.zipIdx).any fun y =>
    unitSaved y.1 (i.grans.filterMap fun g => if g.1 = y.2 then some g.2 else none) u
  { s with
    mem := (i.cells.filter fun e => !zero e).foldl (fun m e => tset 0 m e.1 e.2) (s.mem.filter fun e => !gone e)
    poison := i.poison.map media ++ s.poison.filter fun e => !freshUnit e.1 }

end Sys2Proof.Machine
end

