-- ==== Sys2Proof/Machine/Team.lean ====
section
/-!
DEFINITION. The timetable unit's dispensing (R108, R112-R120), the exit barrier (R175), pre-emption and its decisions, save
and resume of a team (R280-R283).
-/

namespace Sys2Proof.Machine

/-! ## Dispatch (R72, R112, R152) -/

/-- Every bit of k0-k7 of every desk is 1. -/
def masksOn : Tbl KReg := (List.range 256).map fun j => (j, BitVec.allOnes 1024)

/-- s1-s7 at dispatch. -/
def dispatchRegs (idx : List Nat) (size rank ord h0 : Nat) : Tbl W64 :=
  ([idx.getD 0 0, idx.getD 1 0, idx.getD 2 0, idx.getD 3 0, size * 256 + rank, ord, h0].zipIdx).foldl
    (fun t e => tset 0 t (e.2 + 1) (BitVec.ofNat 64 e.1)) []

/-- A class as dispatch leaves it; the towers and the rest of scratch keep their contents. -/
def dispatchedClass (s : State) (c : Nat) (r : List Byte) (regs : Tbl W64) (pceil own : BitVec 2) : ClassState :=
  let w : Walker := { wi := wiOf (recEntry r) }
  { onPlace (getCls s c) {} with
    sreg := regs, k := masksOn, ws := w, wa := w, wv := w, wm := w, wx := w, thnd := BitVec.ofNat 64 (recThnd r)
    ceil := pceil, own := own, eff := own, klvl := BitVec.ofNat 3 s.grant, kbkt := 0, live := true, lncStart := lnc s c }

/-- Put one member on its class: registers, arguments, key, HUB, and the acquire of node scope (R237). -/
def dispatchMember (s : State) (t : Team) (r : List Byte) (idx : List Nat) (args : List Byte) (h0 : Nat) (pceil : BitVec 2)
    (c rank : Nat) : State :=
  let k := dispatchedClass s c r (dispatchRegs idx t.classes.length rank t.ord h0) pceil t.own
  let s := modCls s c fun _ => k
  let s := { writeBytes s (scratchAddr c 0xFFE0) args with poison := s.poison.filter fun e => !unitRegister c e.1 }
  let s := modCls s c fun k => { k with hub := hubOf s c 0 }
  doAcquire s c 2

/-- A node's priority class raised to PCEIL (R63, R112). -/
def ownClass (i : Instance) (r : List Byte) : BitVec 2 := BitVec.ofNat 2 (max (recPrio r) i.pceil.toNat)

/-- Dispatch one iteration on a set of classes. -/
def dispatch (s : State) (i : Instance) (node ord : Nat) (cs : List Nat) : State :=
  let r := (i.snaps.getD node default).record
  let t : Team := { id := s.nextTeam, inst := i.num, node := node, ord := ord, classes := cs, own := ownClass i r
                    placed := s.placeCount, since := s.ticks8 }
  let s := { s with teams := s.teams ++ [t], nextTeam := s.nextTeam + 1, placeCount := s.placeCount + 1 }
  (cs.zipIdx).foldl (fun s x => dispatchMember s t r (indicesOf r ord) (entArgs i.entry) i.h0 i.pceil x.1 x.2) s

/-! ## The end of a team (R175) -/

/-- A class whose team leaves it: tokens and queue elements left are discarded (R159, R165). -/
def leftClass (k : ClassState) : ClassState :=
  { stopClass k with tok := [], rsv := [], qs := [], qv := [], qb := [], qf := [], qbAll := [], qhead := [] }

/-- A place in a queue of one of the classes. -/
def queueUnit (cs : List Nat) : PUnit → Bool
  | .queue c _ _ => cs.contains c
  | _ => false

/-- A team leaves its classes: they issue nothing; merges on their way go on. -/
def leaveClasses (s : State) (cs : List Nat) : State :=
  let s := cs.foldl (fun s c => modCls s c leftClass) s
  if s.poison.isEmpty then s else { s with poison := s.poison.filter fun e => !queueUnit cs e.1 }

/-- Every member has arrived: the team ends and its classes become free. -/
def endTeam (s : State) (t : Team) : State :=
  let s := leaveClasses s t.classes
  relend { s with teams := s.teams.filter fun u => u.id ≠ t.id }

/-- EXIT: every walker is there and every word has completed; the member arrives at the exit barrier, a release of node scope
(R175, R237, R370). -/
def execExit (h : Hdr) (s : State) : Out :=
  runWord (.exit h) (fun s =>
    match s.focus with
    | .fw _ => .done s
    | .cls c _ =>
      let k := getCls s c
      if k.ws.atExit || !([Eng.a, .v, .m, .x].all fun e => (walkerOf k e).atExit) || !k.inflight.isEmpty || !k.pend.isEmpty
      then .stall
      else
        let s := modCls (doRelease s c 2 none none) c fun k => { tagsDone k .s h with ws := { k.ws with atExit := true } }
        match teamOf s c with
        | none => .stop s
        | some t =>
          let t := { t with arrived := c :: t.arrived }
          let s := modTeam s t.id fun _ => t
          .stop (if t.classes.all t.arrived.contains then endTeam s t else s)) s

/-! ## Items (R113) -/

/-- Key of the scan; of a node's items those to resume stand first (R113, R114). -/
def Item.key (x : Item) : List Nat := [x.eff, x.fresh, x.inst, x.node, if x.team.isSome then 0 else 1, x.ord]

/-- Lexicographic order of keys of one length. -/
def keyLe : List Nat → List Nat → Bool
  | a :: as, b :: bs => if a = b then keyLe as bs else decide (a < b)
  | _, _ => true

/-- Insert an item in the order of the scan. -/
def insertItem (x : Item) : List Item → List Item
  | [] => [x]
  | y :: ys => if keyLe x.key y.key then x :: y :: ys else y :: insertItem x ys

/-- Teams of a node. -/
def nodeTeams (s : State) (inst node : Nat) : List Team := s.teams.filter fun t => t.inst = inst && t.node = node

/-- Items of one node. -/
def nodeItems (s : State) (i : Instance) (node : Nat) : List Item :=
  let n := i.nodes.getD node default
  let r := (i.snaps.getD node default).record
  let own := (ownClass i r).toNat
  let ts := nodeTeams s i.num node
  if n.state ≠ .ready then []
  else
    let back := ts.filter fun t => t.state = .saved
    (back.map fun t => ⟨(effOf t).toNat, 0, i.num, node, t.ord, some t.id⟩)
      ++ (n.restarts.map fun o => ⟨own, 0, i.num, node, o, none⟩)
      ++ (if n.next < recCount r && back.isEmpty && n.restarts.isEmpty && (ts.all fun t => t.state != .saving)
            && decide (ts.length < recMaxTeams r)
          then [⟨own, 1, i.num, node, n.next, none⟩] else [])

/-- Items in the order of the scan. -/
def items (s : State) : List Item :=
  ((s.insts.filter fun i => i.state = .running && (getPart s i.part).state = 1).flatMap fun i =>
    (List.range i.nodes.length).flatMap (nodeItems s i)).foldl (fun l x => insertItem x l) []

/-! ## Placing (R108, R113) -/

/-- A class runs no team, but for those given up. -/
def classFree (s : State) (gone : List Nat) (c : Nat) : Bool :=
  match teamOf s c with
  | none => true
  | some t => gone.contains t.id

/-- A class that shares an edge with `c` runs a node of this heat. -/
def nearHeat (s : State) (gone : List Nat) (heat c : Nat) : Bool :=
  (List.range 40).any fun d => shareEdge c d && !classFree s gone d && (match teamOf s d with
    | some t => recHeat (snapOf s t.inst t.node).record == heat
    | none => false)

/-- A saved team's former classes pass to it ahead of an item of its own or a lower effective class (R114); of two saved teams the
first in the scan takes a class that both held. -/
def waitsAhead (y x : Item) : Bool :=
  if x.team.isSome then keyLe y.key x.key && y.team != x.team else decide (y.eff ≤ x.eff)

/-- Former classes of saved teams that an item may not take. -/
def keptFor (s : State) (x : Item) : List Nat :=
  ((items s).filter fun y => y.team.isSome && waitsAhead y x).flatMap fun y =>
    match s.teams.find? fun t => some t.id = y.team with
    | some t => t.classes
    | none => []

/-- Where an item goes when the teams of `gone` have left their classes; a saved team only on its own classes. -/
def placeItem (s : State) (x : Item) (gone : List Nat) : Option (List Nat) :=
  match instOf s x.inst with
  | none => none
  | some i =>
    let r := (i.snaps.getD x.node default).record
    let kept := keptFor s x
    let cs := (classesOf s i.part).filter fun c => classFree s gone c && !kept.contains c
    match x.team with
    | none => placeOn r cs (nearHeat s gone)
    | some id =>
      match s.teams.find? fun t => t.id = id with
      | none => none
      | some t =>
        let near := fun (h : Nat) => t.classes.any (nearHeat s gone h)
        if t.classes.all cs.contains && !(recHeat r == 1 && near 2) && !(recHeat r == 2 && (near 1 || near 2))
        then some t.classes else none

/-- Dispatch an item on classes, to which classes may be lent (R115); a resume begins. -/
def placeAt (s : State) (x : Item) (cs : List Nat) : State :=
  match x.team with
  | some id =>
    let n := s.placeCount
    modTeam { s with placeCount := n + 1 } id fun t => { t with state := .resuming, placed := n }
  | none =>
    match instOf s x.inst with
    | none => s
    | some i =>
      let s := relend (dispatch s i x.node x.ord cs)
      modNode s x.inst x.node fun n =>
        if x.fresh = 1 then { n with next := n.next + 1 } else { n with restarts := n.restarts.erase x.ord }

/-- The first item of a list that can be placed. -/
def firstPlace (s : State) : List Item → Option (Item × List Nat)
  | [] => none
  | x :: xs =>
    match placeItem s x [] with
    | some cs => some (x, cs)
    | none => firstPlace s xs

/-- Scan and place, from the top again after each placement (DESIGN CHOICE, log 60), until nothing can be placed; every placement
takes a class. -/
def scan : Nat → State → State
  | 0, s => s
  | n + 1, s =>
    match firstPlace s (items s) with
    | none => s
    | some (x, cs) => scan n (placeAt s x cs)

/-! ## Pre-emption (R117, R118) -/

/-- Reference time since a tick, in ns. -/
def sinceNs (s : State) (t : Nat) : Nat := 8 * (s.ticks8 - t)

/-- A team on its classes that a request of effective class `p` may take, or has taken already. -/
def eligible (s : State) (part p : Nat) (t : Team) : Bool :=
  partOfInst s t.inst == part && (onClasses t || t.state == .saving)
    && decide (p < (effOf t).toNat) && !(t.resumed && decide (sinceNs s t.since < max 10000 t.lastSave))

/-- Victims are taken from P3 down, within a class the latest placement first. -/
def insertVictim (t : Team) : List Team → List Team
  | [] => [t]
  | u :: us =>
    let a := (effOf t).toNat
    let b := (effOf u).toNat
    if b < a ∨ (a = b ∧ u.placed < t.placed) then t :: u :: us else u :: insertVictim t us

/-- The shortest prefix whose classes let the item be placed. -/
def prefixFor (s : State) (x : Item) : List Nat → List Team → Option (List Nat)
  | _, [] => none
  | gone, t :: ts =>
    let gone := t.id :: gone
    if (placeItem s x gone).isSome then some gone else prefixFor s x gone ts

/-- Victims of the request for an item that was passed over. -/
def victims (s : State) (x : Item) : List Nat :=
  if (placeItem s x []).isSome then []
  else (prefixFor s x [] ((s.teams.filter (eligible s (partOfInst s x.inst) x.eff)).foldl (fun l t => insertVictim t l) [])).getD []

/-- The requests of the items that a scan has passed over. -/
def passedOver (s : State) : List Request :=
  ((items s).map fun x => ⟨x, victims s x⟩).filter fun r => !r.victims.isEmpty

/-- DISPENSE_SCAN: items are placed; those passed over raise their requests (R113, R117). -/
def execDispenseScan (s : State) : Out :=
  let t := scan 40 s
  .next { t with requests := passedOver t }

/-- The first request that names a team as its victim, while its item still waits as it did. -/
def requesterOf (s : State) (t : Team) : Option Item :=
  (s.requests.find? fun r => r.victims.contains t.id && (items s).contains r.item
    && eligible s (partOfInst s r.item.inst) r.item.eff t).map (·.item)

/-- ns since the team's first dispatch, time spent saved left out. -/
def elapsedOf (s : State) (t : Team) : Nat := sinceNs s t.since + t.elapsed

/-- Tdrain in 0.01 ns; none while unknown. -/
def tdrain (s : State) (t : Team) : Option Nat :=
  let est := recEst (snapOf s t.inst t.node).record
  if elapsedOf s t < est then some (100 * (est - elapsedOf s t)) else none

/-- The greatest number of granules to save on a member. -/
def maxGrans (s : State) (t : Team) : Nat :=
  let resid := recResid (snapOf s t.inst t.node).record
  (t.classes.map fun c => (gransOf (getCls s c) resid).length).foldl max 0

/-- Tsave in 0.01 ns: 65,536 bytes at 200 GB/s take 327.68 ns. -/
def tsave (s : State) (t : Team) : Nat := 600000 + 32768 * maxGrans s t

/-- The requester's slack in 0.01 ns: none for no deadline, `some none` while unknown. -/
def slackOf (s : State) (x : Item) : Option (Option Int) :=
  match instOf s x.inst with
  | none => none
  | some i =>
    let est := recEst (i.snaps.getD x.node default).record
    if entDeadline i.entry = 0 then none
    else if est = 0 then some none
    else some (some (100 * ((entDeadline i.entry : Int) - sinceNs s i.accepted - est)))

/-- Rows 1 and 2: drain. -/
def drains (s : State) (t : Team) (slack : Option (Option Int)) : Bool :=
  (match tdrain s t with | some d => decide (d ≤ tsave s t) | none => false)
    || (match slack with
      | none => true
      | some none => false
      | some (some x) => match tdrain s t with | some d => decide (2 * (d : Int) ≤ x) | none => false)

/-- Granules of the whole team, for the size of its image. -/
def teamGrans (s : State) (t : Team) : Nat :=
  (t.classes.map fun c => (gransOf (getCls s c) (recResid (snapOf s t.inst t.node).record)).length).sum

/-- Where the team's image would go. -/
def imagePlace (s : State) (t : Team) : Option Nat :=
  areaPlace s (dieOf (t.classes.headD 0)) (uncodedLen t.classes.length (teamGrans s t))

/-- Rows 3 and 4: discard or save. -/
def rows34 (s : State) (t : Team) : TeamAct :=
  if recIdemp (snapOf s t.inst t.node).record && decide (100 * elapsedOf s t ≤ tsave s t) then .discard else .save

/-- An image that does not fit is drained, whatever row holds (R271). -/
def fits (s : State) (t : Team) (a : TeamAct) : TeamAct := if (imagePlace s t).isNone then .drain else a

/-! ## Acting on a decision (R118, R120, R280) -/

/-- A drain, bounded by Tdrain + Tsave. -/
def drainTeam (s : State) (t : Team) : State :=
  modTeam s t.id fun u => { u with state := .draining, decidedAt := s.ticks8, bound := (tdrain s t).getD 0 + tsave s t }

/-- The members' release of node scope at a save or discard; their partials merge (R237, R260). -/
def releaseTeam (s : State) (t : Team) : State := t.classes.foldl (fun s c => doRelease s c 2 none none) s

/-- A discard: the iteration becomes a restart item. -/
def discardTeam (s : State) (t : Team) : State :=
  let s := leaveClasses (releaseTeam s t) t.classes
  let s := modNode s t.inst t.node fun n => { n with restarts := t.ord :: n.restarts }
  relend { s with teams := s.teams.filter fun u => u.id ≠ t.id }

/-- A save begins: the image takes the members as they stand, their classes stop; a freeze has ended by then (R128), and requests
sent stay with the routers. -/
def saveTeam (s : State) (t : Team) : State :=
  match imagePlace s t with
  | none => drainTeam s t
  | some off =>
    let s := t.classes.foldl (fun s c => landHeld (leaveClass s c) c) (releaseTeam s t)
    let img := captureTeam s t (recResid (snapOf s t.inst t.node).record) off
    let el := elapsedOf s t
    let kept := t.classes.map fun c => (c, routedOps s t c)
    let s := leaveClasses (bumpBy s t.classes.length) t.classes
    let s := kept.foldl (fun s x => modCls s x.1 fun k => { k with router := k.router ++ x.2 }) s
    relend (modTeam s t.id fun u => { u with state := .saving, image := some img, elapsed := el, decidedAt := s.ticks8 })

def actOn (s : State) (t : Team) (a : TeamAct) : State :=
  match a with
  | .drain => drainTeam s t
  | .discard => discardTeam s t
  | .save => saveTeam s t

/-- In pair mode the decision travels on the pair links (R283). -/
def sendDecision (s : State) (t : Team) (a : TeamAct) : State :=
  if (getPart s (partOfInst s t.inst)).paired then
    sendPair s 0x283 [t.id, match a with | .drain => 0 | .discard => 1 | .save => 2]
  else s

/-- This package decides for its partition: it is not paired, or it is the master. -/
def decidesFor (s : State) (t : Team) : Bool := !(getPart s (partOfInst s t.inst)).paired || s.pairMaster

/-- VICTIM_DECISION: a running victim of a request is decided; a partner waits for the master's decision. -/
def execVictimDecision (team : Nat) (s : State) : Out :=
  match s.teams.find? fun t => t.id = team with
  | none => .next s
  | some t =>
    match (if t.state = .running then requesterOf s t else none) with
    | none => .next s
    | some x =>
      if decidesFor s t then
        let a := fits s t (if drains s t (slackOf s x) then .drain else rows34 s t)
        .next (actOn (sendDecision s t a) t a)
      else .next (modTeam s team fun u => { u with state := .decided, decidedAt := s.ticks8 })

/-- DRAIN_BOUND_EXPIRY: decided again without rows 1 and 2. -/
def execDrainBoundExpiry (team : Nat) (s : State) : Out :=
  match s.teams.find? fun t => t.id = team with
  | none => .next s
  | some t =>
    if t.state ≠ .draining ∨ 100 * sinceNs s t.decidedAt < t.bound then .next s
    else if decidesFor s t then
      let a := fits s t (rows34 s t)
      .next (actOn (sendDecision s t a) t a)
    else .next (modTeam s team fun u => { u with state := .decided, decidedAt := s.ticks8 })

/-- The image of a team whose save ends: what came into its towers since the decision is in it (R280); an image that has grown
takes a new place where there is one. -/
def finalImage (s : State) (t : Team) (i : Image) : Image :=
  let i := { i with members := (t.classes.zip i.members).map fun x => { x.2 with dirty := (getCls s x.1).dirty } }
  let j := captureCells s t (recResid (snapOf s t.inst t.node).record) i
  if j.grans.length ≤ i.grans.length then j
  else
    let others := { s with teams := s.teams.filter fun u => u.id ≠ t.id }
    { j with off := (areaPlace others (dieOf (t.classes.headD 0)) (uncodedLen t.classes.length j.grans.length)).getD i.off }

/-- The sectors that an image writes whole, of its header, its members' blocks and its opaque blocks, hold no older poison (R129). -/
def cleanImage (s : State) (t : Team) (i : Image) : State :=
  if s.poison.isEmpty then s
  else
    let at0 := Config.saveArea (dieOf (t.classes.headD 0)) + i.off
    let n := i.members.length
    let runs := (at0, opqStart n 0) :: (i.opq.zipIdx).map fun e => (at0 + opqStart n e.2, e.1)
    { s with poison := s.poison.filter fun e => match e.1 with
        | .phys u => !runs.any fun r => decide (r.1 ≤ 64 * u) && decide (64 * u + 64 ≤ r.1 + r.2)
        | _ => true }

/-- SAVE_COMPLETE: the image is whole, the classes become free, the team is a resume item. -/
def execSaveComplete (team : Nat) (s : State) : Out :=
  match s.teams.find? fun t => t.id = team with
  | none => .next s
  | some t =>
    if t.state = .saving then
      let i := t.image.map (finalImage s t)
      let s := match i with
        | some i => cleanImage s t i
        | none => s
      .next (modTeam s team fun u => { u with state := .saved, lastSave := sinceNs s t.decidedAt, image := i })
    else .next s

/-- One member goes on: state, key and HUB of R42, the acquire of node scope. -/
def resumeMember (s : State) (team c : Nat) (m : ClassState) : State :=
  let s := modCls s c fun _ => { resumedClass s c team m with klvl := BitVec.ofNat 3 s.grant, kbkt := 0 }
  let s := doAcquire (modCls s c fun k => { k with hub := hubOf s c k.vsel.toNat }) c 2
  -- what its requests brought while it was saved (R280)
  if (getCls s c).frozen then s else landHeld s c

/-- RESUME_COMPLETE: granules and states are back on the former classes, the walkers go on from their positions; an image whose
checks fail fails the node (R282). -/
def execResumeComplete (team : Nat) (s : State) : Out :=
  match s.teams.find? fun t => t.id = team with
  | none => .next s
  | some t =>
    match (if t.state = .resuming then t.image else none) with
    | none => .next s
    | some i =>
      if imageBad s t i then .next (failNodeOpen s t.inst t.node)
      else
      let s := restoreCells s t i
      let s := (t.classes.zip i.members).foldl (fun s x => resumeMember s team x.1 x.2) s
      let s := modTeam s team fun u => { u with state := .running, image := none, since := s.ticks8, resumed := true }
      .next (relend s)

end Sys2Proof.Machine
end

