-- ==== Sys2Proof/Machine/Firmware.lean ====
section
/-!
DEFINITION. The words of the timetable processors (R458-R464), physical memory as they see it (R207-R209, R230), closing an event,
the end of a live update (R92).
-/

namespace Sys2Proof.Machine

/-- A word that only firmware frames hold: the scanner refuses it in a kernel frame (R337), so no class executes it. -/
def fwOnly (i : Instr) (body : Nat → State → Res) (s : State) : Out :=
  match s.focus with
  | .fw d => runWord i (body d) s
  | .cls _ _ => .next s

/-- An operand of R460 to R462 was refused. -/
def fwErr (s : State) (d : Nat) : State := modFw s d fun f => { f with err := true }

/-! ## Physical memory as stored (R207-R209, R230) -/

/-- Where a stack holds its table and its anchor array (log 6). -/
def tableBase (t : Nat) : Nat := t * 2 ^ 36 + (1 + Config.tableFrame t % (hbmFrames - 16641)) * 65536
def anchorBase (t : Nat) : Nat := t * 2 ^ 36 + (1 + Config.anchorFrame t % (hbmFrames - 65)) * 65536

/-- Entries of a stack's table: one for each frame of its HBM and for each frame that its paired port backs (R19, R207). -/
def tableLen (s : State) (t : Nat) : Nat :=
  hbmFrames + match tablePort t with
    | some p => min (2 ^ 26) (cxlCap s.boot p / 65536)
    | none => 0

/-- A byte of physical memory that belongs to a table: the table, whether to its entries, the entry's or anchor's number, the byte
within it. -/
def tablePlace (s : State) (x : Nat) : Option (Nat × Bool × Nat × Nat) :=
  let t := x / 2 ^ 36
  if 8 ≤ t then none
  else if tableBase t ≤ x ∧ x < tableBase t + 16 * tableLen s t then
    some (t, true, (x - tableBase t) / 16, (x - tableBase t) % 16)
  else if anchorBase t ≤ x ∧ x < anchorBase t + 4 * 2 ^ 20 then some (t, false, (x - anchorBase t) / 4, (x - anchorBase t) % 4)
  else none

/-- The 16 bytes of an entry as a number, and back (R208). -/
def entryNat (e : IptEntry) : Nat :=
  let b := fun (p : Bool) (n : Nat) => if p then 2 ^ n else 0
  e.vpn % 2 ^ 40 * 2 ^ 24 + e.part % 32 * 2 ^ 19 + b e.v 18 + b e.sa 17 + b e.mig 16 + b e.shd 15 + e.next % 2 ^ 32 * 2 ^ 64
    + e.shadow % 2 ^ 32 * 2 ^ 96
def entryOf (v : Nat) : IptEntry :=
  { vpn := v / 2 ^ 24 % 2 ^ 40, part := v / 2 ^ 19 % 32, v := v.testBit 18, sa := v.testBit 17, mig := v.testBit 16
    shd := v.testBit 15, next := v / 2 ^ 64 % 2 ^ 32, shadow := v / 2 ^ 96 % 2 ^ 32 }

/-- Byte `j` of a number replaced. -/
def putByte (v j : Nat) (b : Byte) : Nat := v - v / 256 ^ j % 256 * 256 ^ j + b.toNat * 256 ^ j

/-- Where the handover memory begins (R92, R463). -/
def handoverBase : Nat := Config.handoverFrame % hbmFrames * 65536

/-- Firmware's own frames: those that hold a table, the handover memory or a part of a save area (R92, R207, R271). -/
def firmwareFrame (s : State) (t f : Nat) : Bool :=
  let a := framePa t f
  let meets := fun (b n : Nat) => decide (b < a + 65536) && decide (a < b + n)
  (tablePlace s a).isSome || meets handoverBase 65536 || (List.range 2).any fun d => meets (Config.saveArea d) s.boot.saveBytes

/-- The entry that firmware reads: a frame of its own carries PART 31 (R207, R208). -/
def shownEntry (s : State) (t f : Nat) : IptEntry :=
  let e := iptEntry s t f
  if firmwareFrame s t f then { e with part := 31 } else e

/-- A byte of a table. -/
def tableByte (s : State) (p : Nat × Bool × Nat × Nat) : Byte :=
  BitVec.ofNat 8 ((if p.2.1 then entryNat (shownEntry s p.1 p.2.2.1) else anchorOf s p.1 p.2.2.1) / 256 ^ p.2.2.2)

/-- A byte of a table written: a frame that leaves its owner leaves its key; SA stays 0 where no page can be system-atomic (R21). -/
def setTableByte (s : State) (p : Nat × Bool × Nat × Nat) (b : Byte) : State :=
  let (t, isEntry, n, j) := p
  if isEntry then
    let w := entryOf (putByte (entryNat (iptEntry s t n)) j b)
    let e := { w with sa := w.sa && saAllowed s n }
    setIptEntry (if e.part = (iptEntry s t n).part then s else unsealFrame s t n) t n e
  else setAnchor s t n (putByte (anchorOf s t n) j b)

/-- `n` bytes of physical memory as stored, within one sector. -/
def storedNat (s : State) (x n : Nat) : Nat :=
  match tablePlace s x with
  | some _ => leNat ((List.range n).map fun j => ((tablePlace s (x + j)).map (tableByte s)).getD 0)
  | none => (storedSector s (x / 64)).toNat / 2 ^ (8 * (x % 64)) % 2 ^ (8 * n)

/-- Write `n` bytes of physical memory as stored, within one sector. -/
def storeNat (s : State) (x n v : Nat) : State :=
  match tablePlace s x with
  | some _ => ((leBytes n v).zipIdx).foldl (fun s e => match tablePlace s (x + e.2) with
      | some p => setTableByte s p e.1
      | none => s) s
  | none =>
    if (keyOf s x).isNone then writePhysNat s x n v
    else
      let c := storedSector s (x / 64)
      let sh := 8 * (x % 64)
      let m := BitVec.ofNat 512 ((2 ^ (8 * n) - 1) * 2 ^ sh)
      storeSector s (x / 64) ((c &&& ~~~m) ||| BitVec.ofNat 512 (v % 2 ^ (8 * n) * 2 ^ sh))

/-! ## Physical memory (R460) -/

/-- x is naturally aligned and every byte of it backed. -/
def physOk (s : State) (x n : Nat) : Bool :=
  x % n == 0 && decide (x + n ≤ 2 ^ 52) && (List.range n).all fun j => backed s (x + j)

/-- An address of PLD and PST. -/
def physAddr (s : State) (f : FSM) : Nat := (sget s f.a).toNat + f.off.toNat

/-- Bytes of an SZ code of PLD and PST. -/
def physBytes (f : FSM) : Nat := 2 ^ f.sz.toNat

def execPld (h : Hdr) (f : FSM) (s : State) : Out :=
  fwOnly (.pld h f) (fun d s =>
    let x := physAddr s f
    let n := physBytes f
    if !physOk s x n then .done (sset (fwErr s d) f.d (BitVec.allOnes 64))
    else
      let v := storedNat s x n
      .done (sset s f.d (if f.sx then sext64 (8 * n) v else BitVec.ofNat 64 v))) s

/-- The handover memory is read-only to the standby processors, which run the new image until its first HBEAT (R92). -/
def execPst (h : Hdr) (f : FSM) (s : State) : Out :=
  fwOnly (.pst h f) (fun d s =>
    let x := physAddr s f
    let n := physBytes f
    if !physOk s x n then .done (fwErr s d)
    else if s.update.started && decide (handoverBase ≤ x) && decide (x < handoverBase + 65536) then .done s
    -- an atomic that has read the word and not written it is atomic among the device's agents (R233)
    else if amoOpen s x n then .stall
    else .done (storeNat s x n (sget s f.d).toNat)) s

/-! ## Heartbeat and live update (R92, R459) -/

/-- A mailbox command has finished: BUSY clears, the status is set, MSI-X vector 0 of PF0 is sent (R79). -/
def mailboxDone (s : State) (status : Nat) : State :=
  msix { s with mbstat := BitVec.ofNat 16 (status * 256) } .pf0 0

/-- The first HBEAT of a new image completes the update: the slots have swapped, the
old image stands by, measurements 2 and 3 take the new image. -/
def updateDone (s : State) : State :=
  let img := (getDie s 0).fw.image
  let s := { s with
    dies := s.dies.map fun d => { d with fw := { d.fw with previous := none, standby := d.fw.previous.map (·.image) } }
    update := {}
    meas := (s.meas.set 1 img.digest).set 2 (img.svn.setWidth 256) }
  mailboxDone s 0

/-- 10 ms have passed since the transfer point of a live update (R93). -/
def overdue (s : State) : Bool := s.update.started && decide (s.update.transferAt + 1250000 ≤ s.ticks8)

/-- HBEAT (R459); after 10 ms the update it would complete is reverted instead (R93). -/
def execHbeat (h : Hdr) (s : State) : Out :=
  fwOnly (.hbeat h) (fun d s =>
    let s := modFw s d fun f => { f with beat := lnc s (20 * d) }
    .done (if s.update.started && !overdue s then updateDone s else s)) s

/-! ## Events (R461) -/

/-- The identifying word of an event. -/
def eventWord (e : FwEvent) : W64 := e.code ++ e.cls ++ e.part ++ BitVec.ofNat 40 e.id

/-- EVPOP: the oldest event; while a live update is under way events wait in the queue (R92). -/
def execEvpop (h : Hdr) (f : FSR) (s : State) : Out :=
  fwOnly (.evpop h f) (fun d s =>
    match (getDie s d).evq with
    | [] => .stall
    | e :: es =>
      if s.update.started then .stall
      else
        let s := modDie s d fun x => { x with evq := es, openEv := e :: x.openEv }
        .done (sset (sset (sset (sset s f.d (eventWord e)) (f.d + 1) e.tinfo) (f.d + 2) e.tcause) (f.d + 3) e.inst)) s

/-- The class still waits for the event: it is held by it, or its halt record came with it. -/
def waitsEvent (s : State) (d : Nat) (e : FwEvent) : Bool :=
  let c := e.cls.toNat
  let k := getCls s c
  decide (c < 40) && k.live && dieOf c == d && (k.hold == some e.id || (k.halt.valid && k.halt.ev == e.id))

/-- What an action does to the class of an event that still waits for it. The cause that a kill by firmware writes in the
black box is that of no event that R146 lists (log 48). -/
def eventAction (s : State) (e : FwEvent) (act : Nat) : State :=
  let c := e.cls.toNat
  let held := (getCls s c).hold == some e.id
  match act with
  | 0 => if held then returnTrap s c false else s
  | 1 => if held then returnTrap s c true else s
  | 2 => failEvent s c e.code.toNat
  | 3 =>
    let x := openCause s
    match teamOf s c with
    | none => bump s
    | some t =>
      -- the code that stands for the peer's kill would keep NODE_KILL from sending its notice
      let tell := x == 0xFF && killable s t.inst t.node && (getPart s (partOfInst s t.inst)).paired
      requestKill (if tell then sendKillNotice (bump s) t.inst t.node else bump s) t.inst t.node x
  | 4 => modCls s c fun k => if k.halt.ev = e.id then { k with halt := { k.halt with valid := false } } else k
  | _ => s

/-- EVDONE closes an open event. -/
def execEvdone (h : Hdr) (f : FSR) (s : State) : Out :=
  fwOnly (.evdone h f) (fun d s =>
    let id := (sget s f.a).toNat
    let act := (sget s f.b).toNat
    match (getDie s d).openEv.find? fun e => e.id = id with
    | none => .done (fwErr s d)
    | some e =>
      if 5 < act then .done (fwErr s d)
      else
        let s := modDie s d fun x => { x with openEv := x.openEv.erase e }
        .done (if waitsEvent s d e then eventAction s e act else s)) s

/-! ## Mailbox and firmware registers (R462, R463) -/

/-- Mailbox register `n`. -/
def mailboxReg (s : State) (n : Nat) : W64 :=
  if n = 0 then s.mbcmd else if n ≤ 8 then s.mbarg.getD (n - 1) 0 else if n = 9 then s.mbstat.setWidth 64 else 0

def execMbxrd (h : Hdr) (f : FSR) (s : State) : Out :=
  fwOnly (.mbxrd h f) (fun d s =>
    let n := (sget s f.a).toNat
    .done (sset (if 9 < n then fwErr s d else s) f.d (mailboxReg s n))) s

/-- A write to MBSTAT sets the status, clears BUSY and sends MSI-X vector 0 of PF0; any other register is refused (R463). -/
def execMbxwr (h : Hdr) (f : FSR) (s : State) : Out :=
  fwOnly (.mbxwr h f) (fun d s =>
    let n := (sget s f.a).toNat
    let v := sget s f.b
    if n = 9 then .done (mailboxDone s (v.extractLsb' 8 8).toNat)
    else if 1 ≤ n ∧ n ≤ 8 then .done { s with mbarg := s.mbarg.set (n - 1) v }
    else .done (fwErr s d)) s

/-- FWID; ACT: the processor of the active slot, which the new image's is from its first HBEAT on. -/
def fwid (s : State) (d : Nat) : W64 :=
  (BitVec.ofBool (getDie s d).fw.err ++ BitVec.ofBool s.pairPeer.isSome ++ BitVec.ofBool (!s.update.started)
    ++ BitVec.ofNat 1 d : BitVec 4).setWidth 64

def execFwcsr (h : Hdr) (f : FSR) (s : State) : Out :=
  fwOnly (.fwcsr h f) (fun d s =>
    let v := sget s f.a
    let r := match f.csr.toNat with
      | 0 => fwid s d
      | 1 => BitVec.ofNat 64 (getDie s d).evq.length
      | _ => BitVec.ofNat 64 handoverBase
    let s := sset s f.d r
    .done (if f.a ≠ 0 ∧ f.csr = 0 ∧ v.getLsbD 3 then modFw s d fun x => { x with err := false } else s)) s

/-! ## Shoot-down (R464) -/

/-- Classes of a partition. -/
def partClasses (s : State) (p : Nat) : List Nat :=
  if p = 0 ∨ (getPart s p).state = 0 then [] else (List.range 40).filter fun c => (partArg s p 1).testBit c

/-- SHOOT sends the shoot-down and waits until every class has acknowledged. -/
def execShoot (h : Hdr) (f : FSR) (s : State) : Out :=
  fwOnly (.shoot h f) (fun d s =>
    match (getDie s d).fw.shoot with
    | none =>
      let cs := partClasses s ((sget s f.b).toNat % 32)
      if cs.isEmpty then .done (sset s f.d 0)
      else .stop (modFw s d fun x => { x with shoot := some ((sget s f.a).toNat / 65536 % 2 ^ 40, cs, cs.length) })
    | some (_, [], n) => .done (sset (modFw s d fun x => { x with shoot := none }) f.d (BitVec.ofNat 64 n))
    | some (_, _ :: _, _) => .stall) s

end Sys2Proof.Machine
end

