-- ==== Sys2Proof/Machine/Partition.lean ====
section
/-!
DEFINITION. Partitions: the reset sequence (R75, R76), the hall monitor (R74), the mailbox and its partition commands (R61,
R78-R80, R486), key provisioning (R229), black-box control and the level cap (R81, R85).
-/

namespace Sys2Proof.Machine

/-! ## The reset of a partition (R75) -/

/-- A class scrubbed: registers, masks, accumulators, tags, queues cleared; control registers keep their values. -/
def scrubbedClass (k : ClassState) : ClassState := { clearClass k with dirty := [] }

/-- A cell of the towers or scratch of one of the classes. -/
def classCell (cs : List Nat) (a : Nat) : Bool :=
  match granAt a with
  | some x => cs.contains x.1
  | none => decide (2 ^ 53 ≤ a) && decide (a < 2 ^ 53 + 40 * 2 ^ 16) && cs.contains ((a - 2 ^ 53) / 2 ^ 16)

/-- A poison unit of one of the classes. -/
def classUnit (cs : List Nat) (u : PUnit) : Bool :=
  match u with
  | .tower c _ _ => cs.contains c
  | .scratch c _ => cs.contains c
  | u => cs.any fun c => unitRegister c u

/-- Step 4: towers and scratch scrubbed, registers cleared, counters set to 0. -/
def scrubPartition (s : State) (k : Nat) : State :=
  let cs := classesOf s k
  let s := stopClasses scrubbedClass cs s
  let s := { s with transit := s.transit.filter fun t => !cs.contains t.cls }
  let s := { s with mem := s.mem.filter fun e => !classCell cs e.1, poison := s.poison.filter fun e => !classUnit cs e.1 }
  let zero := fun (s : State) (j : Nat) => zeroCounters s (partArg s k j / 2 ^ 32) (partArg s k j % 2 ^ 32)
  zero (zero s 2) 3

/-- Steps 2 to 4 for one instance: its nodes' staged writes and shadows go, its teams with their images. -/
def discardInstance (s : State) (i : Instance) : State :=
  let s := (unretired i).foldl (fun s n => discardStaged s i.num n) s
  cleanRouters
    { s with teams := s.teams.filter fun t => t.inst ≠ i.num, pairSel := s.pairSel.filter fun x => x.tag.inst ≠ i.num }

/-- The partition's statistics records are all zero (R312). -/
def zeroRecords (s : State) (k : Nat) : State := { s with recs := s.recs.filter fun e => !recInRange s k e.1 }

/-- Step 5 for one queue: records of its live instances in the order of consumption, then of a launch under check, which is
consumed and not read again (R75, R78). -/
def resetQueue (s : State) (k status : Nat) (q : Nat) : State :=
  let s := (queueInsts s k q).foldl (fun s i => finishInstance s { i with status := BitVec.ofNat 8 status }) s
  match (getQueue s k q).checking with
  | some e => finishEntry (consumed (modQueue s k q atBoundary) k q) k q e status
  | none => s

/-- An asynchronous system cause on a class that runs (R263). -/
def liveCause (s : State) (c code info : Nat) : State :=
  if (getCls s c).live then
    systemCause s c code 7 (leastPos (getCls s c) (slipEngines (getCls s c)) (getCls s c).ws.ord) (BitVec.ofNat 64 info)
  else s

/-- The cause that every class of the partition takes (R263): 0x26, or 0x25 for a fence. -/
def resetCause (s : State) (k code info : Nat) : State :=
  (classesOf s k).foldl (fun s c => liveCause s c code info) s

/-- The sequence of R75 with a completion status and a final STATE. `info` is what TINFO names: the queue, or the node of a fence;
`q` is the queue that the black box names; for a reset that none causes each is free. An instance that has ended keeps its own
status. DESIGN CHOICE (log 69): die 0 records 0x060. -/
def partitionReset (s : State) (k status st code : Nat) (info q : Option Nat) : State :=
  let x := (freeVal s).toNat
  let s := bump s
  let done := s.insts.filter fun i => i.part = k && i.state = .ended
  let s := done.foldl finishInstance s
  let s := modPart s k fun p => { p with state := 2 }
  let s := resetCause s k code (info.getD x)
  let s := (s.insts.filter fun i => i.part = k).foldl discardInstance s
  let s := scrubPartition s k
  let s := (List.range 8).foldl (fun s j => resetQueue s k status j) s
  let s := modPart s k fun p =>
    { p with state := st
             queues := (p.queues.zipIdx).map fun e =>
               { e.1 with halt := true, armed := none, waits := none, checking := none, wait := false, hm := 0, hmPart := false
                          hmDue := false
                          err := if (q = some e.2 ∨ e.1.hmDue = true) ∧ e.1.err = 0 then 4 else e.1.err } }
  relend (bbRecord (msix s (.vf k) 8) 0 k 0x060 0xFF 0xFF 0 (BitVec.ofNat 64 (q.getD x % 256)))

/-- HALL_MONITOR_EXPIRY: a 1 µs tick has found that the count has reached HMTO, in a running partition. -/
def execHallMonitorExpiry (k q : Nat) (s : State) : Out :=
  if (getPart s k).state = 1 ∧ q < 8 ∧ (getQueue s k q).hmDue = true then
    let s := modPart s k fun p => { p with wdcnt := min 255 (p.wdcnt + 1) }
    .next (partitionReset s k 0x05 3 0x26 (some q) (some q))
  else .next s

/-- The hall monitor of a queue runs (R74). -/
def hmRuns (s : State) (k q : Nat) : Bool := !(queueInsts s k q).isEmpty || (getQueue s k q).armed.isSome

/-- The count of a queue after a 1 µs tick: the tick that ends the part of a µs in which it restarted is not counted. -/
def hmCount (s : State) (k q : Nat) (x : Queue) : Nat :=
  if !hmRuns s k q then 0 else if x.hmPart then x.hm else x.hm + 1

/-- A 1 µs tick of one queue's hall monitor; a live update freezes the counts. Expiry is decided here (R74), and is the next
thing that happens. -/
def hmTick (s : State) (k q : Nat) : State :=
  if s.update.started || (getPart s k).state != 1 then s
  else
    let n := hmCount s k q (getQueue s k q)
    let expired := (getQueue s k q).hmto != 0 && decide ((getQueue s k q).hmto.toNat ≤ n) && hmRuns s k q
    let s := modQueue s k q fun x => { x with hm := n, hmPart := false, hmDue := expired }
    if expired then due s (.event (.hallMonitorExpiry k q)) else s

/-! ## The mailbox (R79, R80, R486) -/

/-- The command under way. -/
def mailboxBusy (s : State) (code : Nat) : Bool := s.mbstat.getLsbD 0 && s.mbcmd.toNat / 2 ^ 56 == code

/-- A nonzero status that the spec does not fix (log 26). -/
def freeStatus (s : State) : Nat := 1 + (freeVal s).toNat % 5

/-- A write to MBCMD: its RZ bits [55:0] are discarded (R6, R79). In recovery mode only FW_LOAD is accepted (R88). -/
def mailboxWrite (s : State) (v : W64) : State :=
  if s.mbstat.getLsbD 0 then { s with mbstat := 0x0401 }
  else
    let code := v.toNat / 2 ^ 56
    let s := { s with mbcmd := BitVec.ofNat 64 (code * 2 ^ 56), mbstat := 1 }
    if !([0x01, 0x02, 0x03, 0x04, 0x10, 0x11, 0x20].contains code) then mailboxDone s 0x01
    else if s.bootstat.getLsbD 16 && code != 0x10 then mailboxDone (bump s) (freeStatus s)
    else
      pushEvent (bumpBy s 3) 0 0x81 0xFF ((freeNth s 0).toNat % 256) (freeNth s 1) (freeNth s 2) 0

def mbarg (s : State) (j : Nat) : Nat := (s.mbarg.getD j 0).toNat
/-- Arguments from `j` on are zero. -/
def argsEnd (s : State) (j : Nat) : Bool := (s.mbarg.drop j).all (· == 0)

/-- A counter range of whole blocks on its die (R60, R97, R252). -/
def ctrRangeOk (d a : Nat) : Bool :=
  let lo := a / 2 ^ 32
  let n := a % 2 ^ 32
  let i := lo - d * 2 ^ 24
  let edge := fun (x : Nat) => if x ≤ 65536 then x % 256 == 0 else x % 65536 == 0
  if n = 0 then lo == 0
  else decide (d * 2 ^ 24 ≤ lo) && decide (i + n ≤ 2 ^ 24) && edge i && edge (i + n) && decide (i < 2 ^ 24)

/-- Two ranges of one die overlap. -/
def rangesMeet (a b : Nat) : Bool :=
  let e := fun (x : Nat) => (x / 2 ^ 32, x / 2 ^ 32 + x % 2 ^ 32)
  decide ((e a).1 < (e b).2) && decide ((e b).1 < (e a).2) && decide (0 < a % 2 ^ 32) && decide (0 < b % 2 ^ 32)

/-- PART_CREATE has a bad argument (0x02). -/
def createBad (s : State) : Bool :=
  let k := mbarg s 0
  k == 0 || decide (16 < k) || mbarg s 1 == 0 || decide (2 ^ 40 ≤ mbarg s 1)
    || s.disabled.any (fun c => (mbarg s 1).testBit c)
    || !ctrRangeOk 0 (mbarg s 2) || !ctrRangeOk 1 (mbarg s 3)
    || [4, 5].any (fun j => decide (4096 < mbarg s j / 2 ^ 32 + mbarg s j % 2 ^ 32))
    || decide (1 < mbarg s 7) || (mbarg s 7 == 1 && (getPart s k).keys.isNone)

/-- PART_CREATE conflicts with what others own (0x03, R61). -/
def createConflict (s : State) : Bool :=
  let others := (List.range 17).filter fun j => (getPart s j).state != 0
  (getPart s (mbarg s 0)).state != 0
    || others.any (fun j => mbarg s 1 &&& partArg s j 1 != 0
        || [2, 3, 4, 5].any fun a => rangesMeet (mbarg s a) (partArg s j a))
    || (List.range 8).any fun st =>
        decide (224 < (others.map fun j => partArg s j 6 / 256 ^ st % 256).sum + mbarg s 6 / 256 ^ st % 256)

/-- The partition table's digest is measurement 6 (R90). -/
def measureTable (s : State) : State :=
  let parts := ((s.parts.zipIdx).filter fun e => e.1.state != 0).map fun e => (e.2, e.1.args)
  { s with meas := s.meas.set 5 (Config.partitionDigest parts) }

/-- PART_CREATE. A bad argument is reported ahead of a conflict (log 38); a partition of the pair configuration's set is paired
from its creation (log 39). -/
def execPartCreate (s : State) : Out :=
  if !mailboxBusy s 0x01 then .next s
  else if createBad s then .next (mailboxDone s 0x02)
  else if createConflict s then .next (mailboxDone s 0x03)
  else
    let k := mbarg s 0
    let pair := s.pairPeer.isSome && s.pairSet.testBit k
    let s := modPart s k fun (p : Partition) =>
      { state := 1, args := s.mbarg, keys := p.keys, paired := pair, peer := if pair then s.pairPeer else none }
    let s := zeroCounters s (partArg s k 2 / 2 ^ 32) (partArg s k 2 % 2 ^ 32)
    let s := zeroCounters s (partArg s k 3 / 2 ^ 32) (partArg s k 3 % 2 ^ 32)
    .next (mailboxDone (measureTable (zeroRecords s k)) 0)

/-- MBARG0 names a partition, and nothing else is set. -/
def namesPart (s : State) : Bool := decide (1 ≤ mbarg s 0) && decide (mbarg s 0 ≤ 16) && argsEnd s 1

/-- An entry whose frame the partition gives up: its place in the hash chain stays. -/
def freedEntry (k : Nat) (e : IptEntry) : IptEntry := if e.part = k then { e with part := 0, v := false, sa := false } else e

/-- Frames of a destroyed partition are free. -/
def freeFrames (s : State) (k : Nat) : State :=
  let go := fun (t : Tbl IptEntry) => (t.map fun e => (e.1, freedEntry k e.2)).filter fun e => decide (e.2 ≠ default)
  { s with ipts := s.ipts.map fun t => { t with entry := go t.entry } }

/-- A partition that has stopped: STATE 3, 4 or 5. -/
def halted (s : State) (k : Nat) : Bool := decide (3 ≤ (getPart s k).state)

/-- PART_DESTROY: the scrub of step 4, the resources and keys go. A STATE outside 3 to 5 is a bad argument, as it is for
PART_REARM, and as STATE 0 is for PART_RESET (log 37). -/
def execPartDestroy (s : State) : Out :=
  if !mailboxBusy s 0x02 then .next s
  else if !namesPart s || !halted s (mbarg s 0) then .next (mailboxDone s 0x02)
  else
    let k := mbarg s 0
    let s := freeFrames (unsealPart (zeroRecords (scrubPartition s k) k) k) k
    .next (mailboxDone (measureTable (modPart s k fun _ => {})) 0)

/-- PART_RESET: the sequence of R75 with status 0x07 and STATE 5. -/
def execPartReset (s : State) : Out :=
  if !mailboxBusy s 0x03 then .next s
  else if !namesPart s || (getPart s (mbarg s 0)).state == 0 then .next (mailboxDone s 0x02)
  else .next (mailboxDone (partitionReset s (mbarg s 0) 0x07 5 0x26 none none) 0)

/-- The pair configuration's digest is measurement 8 (R90). -/
def measurePair (s : State) : State :=
  { s with meas := s.meas.set 7 (match s.pairPeer with | some p => Config.pairDigest p s.pairMaster s.pairSet | none => 0) }

/-- PART_REARM: a halted partition runs again; after a fence unpaired (R78, R140). DESIGN CHOICE (log 33): HALT of a queue with
EN = 0 reads 1 afterwards, also of one that was never enabled. -/
def execPartRearm (s : State) : Out :=
  if !mailboxBusy s 0x04 then .next s
  else if !namesPart s || !halted s (mbarg s 0) then .next (mailboxDone s 0x02)
  else
    let k := mbarg s 0
    let fenced := (getPart s k).state == 4
    let s := modPart s k fun p =>
      { p with state := 1, paired := p.paired && !fenced
               queues := p.queues.map fun x => if x.err = 0 ∨ x.err = 4 then { x with err := 0, halt := !x.en } else x }
    .next (mailboxDone (if fenced then measurePair { s with pairSet := s.pairSet &&& (2 ^ 17 - 1 - 2 ^ k) } else s) 0)

/-- PAIR_CONFIG: the pair links must be cabled straight, else no pair is formed and the status is free (R26; log 26). -/
def execPairConfig (s : State) : Out :=
  if !mailboxBusy s 0x20 then .next s
  else if 256 ≤ mbarg s 0 || 2 ≤ mbarg s 1 || 2 ^ 17 ≤ mbarg s 2 || mbarg s 2 % 2 ≠ 0 || !argsEnd s 3 then .next (mailboxDone s 0x02)
  else if !s.cabling then .next (mailboxDone (bump s) (freeStatus s))
  else
    let set := mbarg s 2
    let peer := mbarg s 0
    let parts := (s.parts.zipIdx).map fun e =>
      if set.testBit e.2 then { e.1 with paired := true, peer := some peer, mismatches := 0 } else { e.1 with paired := false }
    .next (mailboxDone (measurePair { s with
      parts := parts, pairPeer := some peer, pairMaster := mbarg s 1 == 1, pairSet := set }) 0)

/-- KEY_PROVISIONING: in an established SPDM session, before PART_CREATE (R229). -/
def execKeyProvisioning (k : Nat) (key1 key2 ikey : BitVec 256) (s : State) : Out :=
  if s.spdm.established && decide (1 ≤ k) && decide (k ≤ 16) && (getPart s k).state == 0 then
    .next (modPart s k fun p => { p with keys := some (key1, key2, ikey) })
  else .next s

/-! ## Other registers of PF0 (R81, R85) -/

/-- PCAP_WRITE: CAP is the highest level the power controller may grant. -/
def execPcapWrite (v : W64) (s : State) : Out := .next { s with pcap := v.toNat % 8, capped := true }

/-- BBCTL_WRITE: setting FRZ clears LOST. -/
def execBbctlWrite (die : Nat) (v : W64) (s : State) : Out :=
  .next (modDie s die fun d =>
    let stop := v.getLsbD 0
    { d with frz := stop, lost := if stop && !d.frz then 0 else d.lost })

end Sys2Proof.Machine
end

