-- ==== Sys2Proof/Machine/Finish.lean ====
section
/-!
DEFINITION. WORD_COMPLETION: an issued A or X word moves its data and completes (R162, R211, R212, R250, R258); an issued M or V word
makes its next wave or pass (R416, R428).
-/

namespace Sys2Proof.Machine

/-- The register a word's token goes to. -/
def tokenReg (i : Instr) : Nat :=
  match i.parts with
  | some ⟨_, _, .am f⟩ => f.tok.toNat
  | some ⟨_, _, .xc f⟩ => f.tok.toNat
  | _ => 0

/-- The counted add of a copy into global memory is a release of exactly the transfer's data, at device scope: the bytes that the
word has staged become versions of the next epoch (R242, R258). -/
def releaseMoves (s : State) (c : Nat) (f : InFlight) : State :=
  match teamOf s c with
  | none => s
  | some t => modNode s t.inst t.node fun n =>
      let mine := fun (w : Staged) => w.cls == c && w.epoch.isNone && w.word == some (wordId s c f)
      if n.staged.any mine then publishNode n mine else n

/-- All data have been moved: what was measured is contributed (R314), the counted add, the token register, the completion. -/
def dataDone (s : State) (c : Nat) (f : InFlight) (m : Measure) : State :=
  let s := contributeAll s c m
  let s := if f.ops.getD 3 0 = 1 then countedAdd (releaseMoves s c f) c none f else s
  complete (setS s c (tokenReg f.instr) (f.ops.getD 0 0)) c f

/-- A later batch halts the word with its progress, and it releases its translations (R211); with a record valid already it waits. -/
def haltLater (s t : State) (c : Nat) (f : InFlight) (ms : List Move) (k va cause table kind : Nat) : State :=
  if (getCls s c).halt.valid then s
  else haltA (modOp t c f.id fun f => { f with prog := k, status := .halted, moves := ms, pages := [], index := [] }) c va cause kind table f.ord k

/-- The words whose writes are measured (R314; log 50). -/
def measured (i : Instr) : Bool :=
  match i with
  | .copy _ _ => true
  | .gather _ _ => true
  | .scatter _ _ => true
  | _ => false

/-- Move a word's data from where it stands: to the end, to a halt, or to a page under migration, for which it waits (R209). -/
def moveData (s : State) (c : Nat) (f : InFlight) (ms : List Move) : State :=
  let r := moveAll { cls := c, held := f.pages, meas := measured f.instr } ms f.prog
    { s := s, k := 0, m := ⟨f.meas, f.odd⟩ }
  let t := stampWrites r.1.s c f (isCounted f.instr)
  let keep := fun (t : State) => modOp t c f.id fun g => { g with prog := r.1.k, moves := ms, meas := r.1.m.parts, odd := r.1.m.odd }
  match r.2 with
  | .finished => dataDone t c f r.1.m
  | .waiting => keep t
  | .halted va cause table kind => haltLater s (keep t) c f ms r.1.k va cause table kind

/-- No older word still has to push into the queue (R159). -/
def pushTurn (k : ClassState) (f : InFlight) (qv : Bool) : Bool :=
  k.inflight.all fun g => !pushesQ g.instr qv || !before g.run g.ord g.id f.run f.ord f.id

/-- LDQ is performed: the element with the poison of its source (R130, R382). -/
def ldqPerform (s : State) (c : Nat) (f : InFlight) (g : FAM) : State :=
  let n := ldqBytes g
  match f.moves with
  | [] => s
  | m :: _ =>
    match readEnd s c f.pages m.src 0 n with
    | .halt va cause table => haltLater s s c f f.moves 0 va cause table 0
    | .wait => s
    | .gone =>
      -- the handle names no live entry any more: the element is open (log 22)
      let v := freeVal s
      let s := bump s
      complete (if ldqQv g then pushQv s c v else pushQs s c v) c f
    | .ok _ bs p =>
      let x := leNat bs
      let v := if ldqSx g then sext64 (8 * n) x else BitVec.ofNat 64 x
      let k := getCls s c
      let u := PUnit.queue c (if ldqQv g then 1 else 0) (if ldqQv g then k.qv else k.qs).length
      let s := if s.poison.isEmpty && p.isNone then s else movePoison s p u
      complete (if ldqQv g then pushQv s c v else pushQs s c v) c f

/-- An atomic is performed at its engine, or its target's poison consumed (R454): on a system-atomic page as one step, elsewhere it
reads, and later writes (R233, R234). -/
def amoComplete (s : State) (c : Nat) (f : InFlight) (g : FAO) : State :=
  if f.prog = 1 then amoWrite s c f g
  else
    let x := amoTarget s c f
    match x.2.2 with
    | .pa a =>
      match poisonUnder x.1 (a / 64) x.2.1 with
      | some kind => consumeAt s c .a f.ord kind (.phys (a / 64)) (amoVa f)
      | none =>
        if saPage x.1 a then amoPerform x.1 c f g a x.2.1
        else if engineBusy s a then s else amoRead x.1 c f g a x.2.1
    | .halt cause table => haltLater s s c f f.moves 0 (amoVa f) cause table 2
    | .wait => s
    | .none =>
      -- the handle names no live entry any more: the old value is open (log 22)
      complete (if g.ret then pushQs (bump s) c (freeVal s) else s) c f

/-- The word may be performed now: issued, or halted in a later batch and walked again (R212, R213); a request of its has come
through (R141, R144). -/
def ready (s : State) (c : Nat) (f : InFlight) : Bool :=
  qaReady s c f && (f.reqs.isEmpty || arrives s c f 0)
    && (f.status == .issued || (f.status == .halted && !(getCls s c).halt.valid))

/-- The first poisoned map entry that a word still reads for its handles, which resolve on every use (R130, R226). -/
def movesPoison (s : State) (c : Nat) (ms : List Move) : Option (PUnit × Nat × Bool) :=
  if allClean s then none
  else
    let one := fun (e : End) => match e with
      | .handle va => handlePoison s c va
      | .tower _ _ _ => none
      | .mem _ => none
      | .view _ _ _ _ => none
      | .line _ _ => none
      | .none => none
    ms.findSome? fun m => (one m.src).or (one m.dst)

/-- An atomic that was performed while its team was saved takes its answer (R280). -/
def amoAnswered (s : State) (c : Nat) (f : InFlight) : State :=
  let k := getCls s c
  match amoFields f.instr with
  | some g => if k.live && !k.frozen && (!g.ret || pushTurn k f false) then amoAnswer s c f g (op0 f 2) else s
  | none => s

/-- The A words' completion. -/
def completeA (s : State) (c : Nat) (f : InFlight) : State :=
  if f.status == .answered then amoAnswered s c f
  else if !ready s c f then s
  else match movesPoison s c f.moves with
  | some x => consumeAt s c .a f.ord x.2.2 x.1 x.2.1
  | none =>
    let rows := fun (g : FAM) (gather : Bool) =>
      if f.status != .halted then moveData s c f f.moves
      else
        let n := g.imm.toNat
        let ds := desksOf s c
        if listsRead n f.index then moveData s c f (reread s c f g gather)
        else match listPoison s c (op0 f 6) n ds f.index with
          | some x => consumeAt s c .a f.ord x.2 x.1 0
          | none => modOp s c f.id fun f => { f with index := readMore s c (op0 f 6) n ds f.index }
    match f.instr with
    | .copy _ _ => moveData s c f f.moves
    | .copy2d _ _ => moveData s c f f.moves
    | .brefill _ _ => moveData s c f f.moves
    | .gather _ g => rows g true
    | .scatter _ g => rows g false
    | .ldq _ g => if pushTurn (getCls s c) f (ldqQv g) then ldqPerform s c f g else s
    | .viewDef _ g => complete (setA (setA s c g.ad.toNat (f.ops.getD 0 0)) c (g.ad.toNat + 1) (f.ops.getD 1 0)) c f
    | i =>
      match amoFields i with
      | some g => if !g.ret || pushTurn (getCls s c) f false then amoComplete s c f g else s
      | none => s

/-- WORD_COMPLETION: an issued word of class `c` completes. -/
def execWordCompletion (c id : Nat) (s : State) : Out :=
  match findOp s c id with
  | none => .next s
  | some f =>
    match f.instr with
    | .kvmap _ _ => .next s
    | .kvshare _ _ => .next s
    | .kvfree _ _ => .next s
    | i =>
      if queueOf i = some 0 then .next (completeA s c f)
      else if queueOf i = some 1 then
        .next (if f.status == .answered && (getCls s c).live && !(getCls s c).frozen
          && f.held.isNone then complete (setS s c (tokenReg i) (f.ops.getD 0 0)) c f else s)
      else if (shiftFields i).isSome then
        match teamOf s c with
        | some t => .next (if t.classes.all fun m => (getCls s m).live && !(getCls s m).frozen
            then shiftAll s t (shapeOf s c) else s)
        | none => .next s
      else if f.status == .issued && (getCls s c).live && !(getCls s c).frozen then
        .next (if f.eng == .m then advanceM s c f else if f.eng == .v then advanceV s c f else s)
      else .next s

end Sys2Proof.Machine
end

