-- ==== Sys2Proof/Machine/Scan.lean ====
section
/-!
DEFINITION. The code-page scanner (R330, R337-R340) and the fetch of a line (R206, R328, R338, R339).
-/

namespace Sys2Proof.Machine

/-! ## A frame as the scanner reads it -/

/-- The lines of a frame. -/
def frameLines (s : State) (pa : Nat) : List Line := (List.range 1024).map fun k => BitVec.ofNat 512 (readNat s (pa + 64 * k) 64)

/-- The words of lines, decoded. -/
def lineInstrs (l : Line) : List (Option Instr) := (List.range 6).map fun k => (decode (lineSlot l k)).toOption

/-- The words that end their block (R330). -/
def endsBlock : Instr → Bool
  | .loop _ _ => true | .psw _ _ => true | .exit _ => true | .ret _ => true
  | .brr _ _ => true | .callr _ _ => true
  | i => match i.parts with
    | some ⟨_, _, .b _⟩ => true
    | _ => false

def isBlk : Option Instr → Bool
  | some (.blk _ _) => true
  | _ => false

/-- Layout (R330): walk the words with `left` words of the block still to come; the first offending word. -/
def layoutBad : List (Option Instr) → Nat → Nat → Option Nat
  | [], _, _ => none
  | i :: is, w, left =>
    if left = 0 then
      match i with
      | some (.blk _ f) => if is.length < f.n.toNat then some w else layoutBad is (w + 1) f.n.toNat
      | _ => some w
    else if isBlk i then some w
    else if 1 < left && (i.any endsBlock) then some w
    else layoutBad is (w + 1) (left - 1)

/-- Offsets of a word that a target check applies to. -/
def targetsOf (i : Instr) : List Int :=
  match i.parts with
  | some ⟨_, _, .b f⟩ => [f.off.toInt]
  | some ⟨_, _, .pw f⟩ => [f.t0.toInt, f.t1.toInt, f.t2.toInt]
  | _ => []

/-- A target inside the frame that is no BLK. -/
def targetBad (ws : Array (Option Instr)) (w : Nat) (i : Instr) : Bool :=
  (targetsOf i).any fun o =>
    let t := (w : Int) + o
    decide (0 ≤ t) && decide (t < ws.size) && !isBlk ((ws[t.toNat]?).join)

/-- What the body of a LOOP may not hold (R171, R337): CALL, CALLR, RET, BRR, PSW, a branch out of the body. -/
def bodyBad (lo hi w : Nat) (i : Instr) : Bool :=
  match i with
  | .call _ _ => true
  | .callr _ _ => true
  | .ret _ => true
  | .brr _ _ => true
  | .psw _ _ => true
  | i => (targetsOf i).any fun o => decide ((w : Int) + o < lo) || decide ((hi : Int) ≤ (w : Int) + o)

/-- Bodies of the LOOPs, each with its LOOP's place. -/
def loopsOf (ws : List (Option Instr)) : List (Nat × Nat) :=
  (ws.zipIdx).filterMap fun e => match e.1 with
    | some (.loop _ f) => some (e.2, f.len.toNat)
    | _ => none

/-- The last words of the blocks from word `h` on, each beginning directly after the one before (R330); the chain ends where no BLK
stands. -/
def blockEnds (ws : Array (Option Instr)) : Nat → Nat → List Nat
  | 0, _ => []
  | n + 1, h => match ((ws[h]?).join : Option Instr) with
    | some (.blk _ f) => (h + f.n.toNat) :: blockEnds ws n (h + f.n.toNat + 1)
    | _ => []

/-- A LOOP breaks R171, or its body leaves the frame (R337); `ends`: where the frame's blocks end. -/
def loopBad (ws : Array (Option Instr)) (ends : List Nat) (loops : List (Nat × Nat)) (l : Nat × Nat) : Bool :=
  let lo := l.1 + 1
  let hi := lo + l.2
  decide (ws.size < hi) || decide (256 < l.2) || !isBlk ((ws[lo]?).join) || !ends.contains (hi - 1)
    || (List.range l.2).any (fun j => (((ws[lo + j]?).join).any fun i => bodyBad lo hi (lo + j) i))
    || loops.any (fun m => decide (m.1 < l.1) && decide (l.1 < m.1 + 1 + m.2) && decide (m.1 + 1 + m.2 < hi))
    || decide (3 ≤ (loops.filter fun m => decide (m.1 < l.1) && decide (l.1 < m.1 + 1 + m.2)).length)

/-- The words that only firmware frames hold (R337). -/
def privileged (i : Instr) : Bool := decide (0xF2 ≤ Instr.opcode i) && decide (Instr.opcode i ≤ 0xFA)

/-- A line's trailer is not as computed (R327, R337). -/
def trailerBad (l : Line) : Bool := linePmask l != pmaskOf l || lineRz l != 0 || lineEcc l != eccOf l

/-- The least of some word indices. -/
def leastOf (l : List Nat) : Option Nat := l.foldl (fun m x => match m with
  | none => some x
  | some y => some (min x y)) none

/-- Scan the lines of a frame: the first offending word; `bad` the words refused for their kind. -/
def scanLines (ls : List Line) (bad : Instr → Bool) : Option Nat :=
  let is := ls.flatMap lineInstrs
  let ws := is.toArray
  let loops := loopsOf is
  leastOf <|
    ((is.zipIdx).filterMap fun e => match e.1 with
      | none => some e.2
      | some i => if bad i || targetBad ws e.2 i then some e.2 else none)
    ++ ((ls.zipIdx).filterMap fun e => if trailerBad e.1 then some (6 * e.2) else none)
    ++ (layoutBad is 0 0).toList
    ++ ((loops.filter fun l => loopBad ws (blockEnds ws ws.size 0) loops l).map (·.1))

/-- Scan a kernel frame. -/
def scanFrame (s : State) (pa : Nat) : Option Nat :=
  if 2 ^ 39 ≤ pa then some 0 else scanLines (frameLines s pa) privileged

/-- Words of a firmware image (R340). -/
def fwWord (i : Instr) : Bool :=
  let o := Instr.opcode i
  o == 0x01 || o == 0x02 || (decide (0x04 ≤ o) && decide (o ≤ 0x46))
    || (decide (0xD8 ≤ o) && decide (o ≤ 0xEC) && !(decide (0xE3 ≤ o) && decide (o ≤ 0xE9))) || decide (0xF0 ≤ o)

/-! ## Fetch -/

/-- The frame that a class fetches `va` from: its physical address, in an executable segment (R206). -/
def codeFrame (s : State) (c va : Nat) : Option Nat :=
  match findSeg (segsOf (winOf s c)) va with
  | none => none
  | some g =>
    if !g.x then none
    else match placeOf s c [] (va / 65536 * 65536) with
      | .pa a => some a
      | .halt _ _ => none
      | .wait => none
      | .none => none

/-- Drop to 4,096 entries, least recently used last (R338). -/
def noteScan (s : State) (die pa : Nat) (r : Option Nat) : State :=
  modDie s die fun d => { d with scan := ((pa, r) :: d.scan.filter fun e => e.1 != pa).take 4096 }

/-- CODE_PAGE_SCAN: the frame of `va` is scanned and the result cached. -/
def execCodePageScan (c va : Nat) (s : State) : Out :=
  match codeFrame s c va with
  | none => .next s
  | some pa => .next (noteScan s (dieOf c) pa (scanFrame s pa))

/-- The S walker stands in the line. -/
def sInLine (k : ClassState) (va : Nat) : Bool := 64 * (k.ws.wi / 6) == va

/-- The path position of the first word of a line that the path takes: the least of the walkers that stand in it; none while none
does (R328). -/
def firstInLine (k : ClassState) (va : Nat) : Option Nat :=
  leastOf (((slipEngines k).filter fun e => 64 * ((walkerOf k e).wi / 6) == va).map fun e => (walkerOf k e).ord)

/-- An uncorrectable code line is poison consumed at its first word on the path (R131, R328); integrity poison keeps the unit of
global memory as its locator (R484). -/
def poisonLine (s : State) (c va pa : Nat) (kind : Bool) : State :=
  let k := getCls s c
  match firstInLine k va with
  | some o => if k.live && k.hold.isNone then
      consumeAt s c .s o kind (if kind then .phys (pa / 64) else .code c va) va else s
  | none => s

/-- Put a line into the fetch line buffers. -/
def fillLine (s : State) (c va pa : Nat) (l : Line) : State :=
  modCls s c fun k => { k with fetchBuf := ((va, pa, l) :: k.fetchBuf.filter fun x => x.1 ≠ va).take 64 }

/-- A correctable error in a class memory (R126, R128): the class freezes; within the guard it is a freeze storm. Kept here
for the fetch unit's own corrections. DESIGN CHOICE (log 68): the memory field of 0x001 and 0x002 numbers the memories 0 to 8 in
the order of R126. -/
def classError (s : State) (c : Nat) (m : ClassMem) (loc : Nat) : State :=
  let k := getCls s c
  if k.patch.contains (m, loc) then
    modCls s c fun k => { k with patch := (m, loc) :: k.patch.erase (m, loc) }
  else
    let det := BitVec.ofNat 64 (memCode m * 2 ^ 56 + loc % 2 ^ 56)
    if k.frozen then s
    else if k.guard then
      let s := systemCause s c 0x23 7 (leastPos k (slipEngines k) k.ws.ord) (BitVec.ofNat 64 loc)
      killOn (bbClass s c 0x002 0xFF det) c 0x02
    else
      bbClass (modCls s c fun k => { k with frozen := true, patch := ((m, loc) :: k.patch).take 32 }) c 0x001 0xFF det
where
  memCode : ClassMem → Nat
    | .vreg => 0 | .mask => 1 | .acc => 2 | .tower => 3 | .scratch => 4 | .loopBuf => 5 | .fetchBuf => 6 | .queue => 7
    | .remap => 8

/-- FETCH_LINE_MISS: a line comes from its scanned frame and is checked; a refused frame, or an address that is not
executable, is the segment fault of the S walker there; an uncorrectable line is poison consumed (R206, R328, R339). -/
def execFetchLineMiss (c va : Nat) (s : State) : Out :=
  let k := getCls s c
  let fault := fun (s : State) (a : Nat) =>
    if sInLine k va && k.live && k.hold.isNone then trapAt s c .s 0x02 (BitVec.ofNat 64 a) else s
  match codeFrame s c va with
  | none => .next (fault s (wordAddr k.ws.wi))
  | some pa =>
    match (getDie s (dieOf c)).scan.find? fun e => e.1 = pa with
    | none => .next (due s (.event (.codePageScan c va)))
    | some (_, some w) => .next (fault (noteScan s (dieOf c) pa (some w)) (va / 65536 * 65536 + wordAddr w))
    | some (_, none) =>
      let a := pa + va % 65536
      let s := noteScan s (dieOf c) pa none
      match poisonUnder s (a / 64) va with
      | some kind => .next (poisonLine s c va a kind)
      | none =>
        match checkLine (BitVec.ofNat 512 (readNat s a 64)) with
        | .clean => .next (fillLine s c va a (BitVec.ofNat 512 (readNat s a 64)))
        | .corrected l => .next (classError (fillLine s c va a l) c .fetchBuf (va % 2 ^ 56))
        | .poison => .next (poisonLine s c va a false)

end Sys2Proof.Machine
end

