-- ==== Sys2Proof/Machine/Update.lean ====
section
/-!
DEFINITION. Firmware images (R88, R91, R340), the live update and its handover structure (R92-R97), reversion (R93).
-/

namespace Sys2Proof.Machine

/-! ## FW_LOAD -/

/-- The words of an image by word index, six to a line (R325). -/
def imageWords (ls : List Line) : Tbl W80 :=
  ((ls.zipIdx).flatMap fun e => (List.range 6).map fun j => (6 * e.2 + j, lineSlot e.1 j)).filter fun e => decide (e.2 ≠ 0)

/-- The frames of an image: 1,024 lines each (R330). -/
def imageFrames (ls : List Line) : List (List Line) :=
  (List.range ((ls.length + 1023) / 1024)).map fun j => (ls.drop (1024 * j)).take 1024

/-- The image is whole frames, of which every one passes the scan for firmware (R330, R340), its signature verifies (R86), and it takes
handover version 1. -/
def imageOk (b : List Byte) : Bool :=
  !(Config.imageLines b).isEmpty && (Config.imageLines b).length % 1024 == 0
    && ((imageFrames (Config.imageLines b)).all fun f => (scanLines f fun i => !fwWord i).isNone)
    && Config.imageSigned b && Config.imageTakesHandover1 b

/-- The verified image of a byte string. -/
def imageOf (b : List Byte) : FwImage := ⟨imageWords (Config.imageLines b), Config.imageSvn b, Config.imageDigest b⟩

/-- A digest as 32 bytes, most significant first. -/
def digestBytes (d : BitVec 256) : List Byte := (leBytes 32 d.toNat).reverse

def setStandby (s : State) (x : Option FwImage) : State :=
  { s with dies := s.dies.map fun d => { d with fw := { d.fw with standby := x } } }

/-- FW_LOAD: the image goes to the standby slots of both dies and measurement 7 is extended, or they are cleared (R91). DESIGN
CHOICE (log 65): an image that verifies and is refused for its handover versions or by the scan does not extend measurement 7. -/
def execFwLoad (s : State) : Out :=
  if !mailboxBusy s 0x10 then .next s
  else if !argsEnd s 2 then .next (mailboxDone s 0x02)
  else
    let b := readBytes s (hostAddr (mbarg s 0)) (mbarg s 1)
    if !imageOk b then .next (mailboxDone (setStandby s none) 0x05)
    else
      let log := sha256 (digestBytes (s.meas.getD 6 0) ++ digestBytes (Config.imageDigest b))
      .next (mailboxDone { setStandby s (some (imageOf b)) with meas := s.meas.set 6 log } 0)

/-! ## The handover structure (R94-R97) -/

/-- Configured partitions, ascending. -/
def liveParts (s : State) : List Nat := (List.range 17).filter fun k => decide (1 ≤ k) && (getPart s k).state != 0

/-- A queue record. -/
def queueRecord (s : State) (k q : Nat) : List Byte :=
  let x := getQueue s k q
  leBytes 1 k ++ leBytes 1 q ++ leBytes 1 ((qstat s k q).toNat % 256) ++ leBytes 1 x.err.toNat ++ leBytes 4 x.qridx.toNat
    ++ leBytes 4 x.hm ++ leBytes 4 x.hmto.toNat ++ leBytes 8 x.qbase.toNat ++ leBytes 1 x.log2n ++ leBytes 1 x.pceil.toNat
    ++ leBytes 6 0

/-- A partition record. -/
def partRecord (s : State) (k : Nat) : List Byte :=
  let p := getPart s k
  let a := partArg s k
  let range := fun (j n : Nat) => leBytes n (a j / 2 ^ 32) ++ leBytes n (a j % 2 ^ 32)
  leBytes 1 k ++ leBytes 1 p.state
    ++ leBytes 2 (a 7 % 2 + (if p.paired then 2 else 0) + (if p.paired && s.pairMaster then 4 else 0))
    ++ leBytes 8 (a 1) ++ leBytes 8 (a 6) ++ range 2 4 ++ range 3 4 ++ range 4 2 ++ range 5 2
    ++ leBytes 1 (p.peer.getD 0) ++ leBytes 1 p.wdcnt ++ leBytes 18 0

/-- Some partition's counter range on die `d` covers index `i`. -/
def ctrAllocated (s : State) (d i : Nat) : Bool :=
  (liveParts s).any fun k =>
    let a := partArg s k (2 + d)
    decide (a / 2 ^ 32 ≤ d * 2 ^ 24 + i) && decide (d * 2 ^ 24 + i < a / 2 ^ 32 + a % 2 ^ 32)

/-- A 32-byte bitmap. -/
def bitmap (f : Nat → Bool) : List Byte := leBytes 32 ((List.range 256).foldl (fun v j => if f j then v + 2 ^ j else v) 0)

/-- The counter allocation map: SRAM blocks and overflow blocks of each die. -/
def allocMap (s : State) : List Byte :=
  [0, 1].flatMap fun d => bitmap (fun j => ctrAllocated s d (256 * j))
    ++ bitmap fun j => decide (j < 255) && ctrAllocated s d (65536 * (j + 1))

/-- An instance record. -/
def instRecord (s : State) (i : Instance) : List Byte :=
  let e := i.entry
  let left := entDeadline e - 8 * (s.ticks8 - i.accepted)
  leBytes 8 i.num ++ leBytes 8 (entGraph e) ++ leBytes 4 (entGver e) ++ leBytes 1 i.part ++ leBytes 1 i.queue
    ++ leBytes 2 ((if (entWord e 0).testBit 47 then 1 else 0) + (if entIrq e then 2 else 0) + (if i.state = .held then 0 else 4))
    ++ leBytes 4 (entCctr e) ++ leBytes 8 (entCval e) ++ leBytes 8 (entCpl e) ++ leBytes 4 (entSeq e) ++ leBytes 8 left
    ++ leBytes 1 i.nrb ++ leBytes 7 0

/-- The handover structure; its sections stand in the order of their offsets' fields. -/
def handover (s : State) : List Byte :=
  let ps := liveParts s
  let qs := ps.flatMap fun k => (List.range 8).flatMap fun q => queueRecord s k q
  let rs := ps.flatMap (partRecord s)
  let is := s.insts.flatMap (instRecord s)
  let qoff := 64
  let poff := qoff + qs.length
  let coff := poff + rs.length
  let soff := coff + 128
  let head := leBytes 2 1 ++ leBytes 2 64 ++ leBytes 4 (soff + is.length) ++ leBytes 4 (getDie s 0).fw.image.svn.toNat
    ++ leBytes 4 (s.handovers + 1) ++ leBytes 2 (8 * ps.length) ++ leBytes 2 ps.length ++ leBytes 2 s.insts.length ++ leBytes 2 0
    ++ leBytes 4 qoff ++ leBytes 4 poff ++ leBytes 4 coff ++ leBytes 4 soff ++ leBytes 20 0
  let body := qs ++ rs ++ allocMap s ++ is
  head ++ leBytes 4 (crc32 (head ++ leBytes 4 0 ++ body)).toNat ++ body

/-! ## FW_ACTIVATE and FW_REVERSION -/

/-- The standby processor starts the new image; the old one is stopped where it stands. -/
def transfer (f : FwState) : FwState :=
  match f.standby with
  | none => f
  | some x =>
    { f with previous := some ⟨f.sreg, f.wi, f.rstack, f.loops, f.image, f.sleepUntil, f.wait⟩, image := x, sreg := [], wi := 0
             rstack := [], loops := [], slot := 1 - f.slot, shoot := none, sleepUntil := none, wait := none }

/-- Every queue stands at an entry boundary, and no expiry that a tick has decided waits to be run (R92 steps 1 and 2). -/
def atRest (s : State) : Bool := s.parts.all fun p => p.queues.all fun x => x.checking.isNone && !x.hmDue

/-- FW_ACTIVATE up to the transfer point (R92), once every queue stands at an entry boundary: queues and hall monitors stand
still, the structure is written; GEN counts the handover under way (log 43). -/
def execFwActivate (s : State) : Out :=
  if !mailboxBusy s 0x11 || s.update.started then .next s
  else if !argsEnd s 0 || s.dies.any fun d => d.fw.standby.isNone then .next (mailboxDone s 0x02)
  else if !atRest s then .next s
  else
    let s := { writePhys s handoverBase (handover s) with handovers := s.handovers + 1, update := ⟨true, s.ticks8⟩ }
    .next { s with dies := s.dies.map fun d => { d with fw := transfer d.fw } }

/-- The old image goes on where it stood; the new one is the standby image again. -/
def revert (f : FwState) : FwState :=
  match f.previous with
  | none => f
  | some p =>
    { f with image := p.image, sreg := p.sreg, wi := p.wi, rstack := p.rstack, loops := p.loops, previous := none,
             slot := 1 - f.slot, shoot := none, sleepUntil := p.sleepUntil, wait := p.wait }

/-- FW_REVERSION: no HBEAT within 10 ms of the transfer point (R93). DESIGN CHOICE (log 69): die 0 records 0x061. -/
def execFwReversion (s : State) : Out :=
  if overdue s then
    let svn := (getDie s 0).fw.image.svn
    let s := bbRecord s 0 0 0x061 0xFF 0xFF 0 (svn.setWidth 64)
    .next (mailboxDone { s with dies := s.dies.map fun d => { d with fw := revert d.fw }, update := {} } 0x05)
  else .next s

end Sys2Proof.Machine
end

