-- ==== Sys2Proof/Machine/Readback.lean ====
section
/-!
DEFINITION. The read-back window (R82, R83): towers, architected state (R273-R275), counters, records (R309), black box (R85,
R145), image directory and save area (R271, R272, R276, R278, R279).
-/

namespace Sys2Proof.Machine

/-! ## Layouts -/

/-- A field of a layout: offset, bytes, value; a field whose contents the spec does not lay out has none. -/
abbrev Field := Nat × Nat × Option Nat

/-- Byte `o` of a layout; what no field names is zero. -/
def fieldByte (free : Nat → Byte) (fs : List Field) (o : Nat) : Byte :=
  match fs.find? fun f => decide (f.1 ≤ o) && decide (o < f.1 + f.2.1) with
  | some (a, _, some v) => BitVec.ofNat 8 (v / 256 ^ (o - a))
  | some (_, _, none) => free o
  | none => 0

/-- Consecutive fields of `n` bytes from offset `a`. -/
def run (a n : Nat) (vs : List Nat) : List Field := (vs.zipIdx).map fun v => (a + n * v.2, n, some v.1)

/-- Bits as a number. -/
def bitsNat (n : Nat) (p : Nat → Bool) : Nat := (List.range n).foldl (fun v j => if p j then v + 2 ^ j else v) 0
def flag (b : Bool) : Nat := if b then 1 else 0

/-! ## The architected block -/

/-- A desk section (R273). -/
def deskFields (s : State) (c d : Nat) : List Field :=
  let x := deskView s c d
  let k := getCls s c
  let bad := fun (us : List PUnit) => us.any fun u => (poisonAt s u).isSome
  if !deskActive x.hot d then []
  else
    run 0 512 ((List.range 64).map x.vn) ++ run 0x8000 128 ((List.range 8).map fun j => kGet k d j)
      ++ run 0x8400 8192 ((List.range 4).map fun t => tileGet k d t)
      ++ [(0x10400, 4, some (genOf k d).toNat), (0x10404, 4, some (tget 0 k.aflg d).toNat),
          (0x10410, 64, some (bitsNat 512 fun j => bad (x.vUnit (j / 8) (j % 8)))),
          (0x10450, 64, some (bitsNat 512 fun j => bad [.acc c d (j / 128) (j % 128)])),
          (0x10490, 2, some (bitsNat 16 fun j => bad [.mask c d (j / 2) (j % 2)]))]

/-- Position of a walker: ordinal, program counter. -/
def walkerPos (w : Walker) : List Nat := [w.ord, wordAddr w.wi]

/-- rem_ns of a countdown (R56), in whole ns. -/
def remNs (k : ClassState) (f : InFlight) : Nat := (8 * f.rem + clockCk k.clks - 1) / clockCk k.clks

/-- The pending wait of the S walker: handle, value, timed, remaining ns. -/
def waitOf (k : ClassState) : Option (Nat × Nat × Bool × Nat) :=
  k.inflight.findSome? fun f => match f.instr with
    | .cwait _ _ => some (op0 f 0, op0 f 1, false, 0)
    | .cwaitT _ _ => some (op0 f 0, op0 f 1, true, remNs k f)
    | _ => none

/-- What is left of a SLEEPNS (R58, R366). -/
def sleepLeft (k : ClassState) : Option Nat :=
  k.inflight.findSome? fun f => match f.instr with
    | .sleepns _ _ => some (remNs k f)
    | _ => none

/-- The halt record (R211). -/
def haltFields (h : HaltRec) : List Field :=
  run 0 8 [h.fva.toNat, h.ord] ++ run 16 1 [h.cause.toNat, h.kind.toNat, flag h.valid * 128 + h.table] ++ run 24 8 [h.prog]

/-- A view slot (R274). -/
def viewFields (v : ViewSlot) : List Field :=
  run 0 8 [v.base, v.pitch, v.nc] ++ [(24, 4, some v.nr), (28, 1, some v.e), (29, 1, some (flag v.defined))]

/-- Fields moved by an offset. -/
def shifted (a : Nat) (fs : List Field) : List Field := fs.map fun f => (a + f.1, f.2)

/-- The trap frame; which bits its valid flags are is open. -/
def frameFields (k : ClassState) : List Field :=
  [(0, 8, k.tfmt.map (·.toNat)), (8, 8, none)] ++ match k.frame with
  | none => [(16, 80, none)]
  | some t => run 16 8 ([t.ws, t.wa, t.wv, t.wm, t.wx].flatMap walkerPos)

/-- The class section (R274). -/
def classFields (s : State) (c : Nat) : List Field :=
  let k := getCls s c
  let ws := engines.map (walkerOf k)
  let w := waitOf k
  let wait : List Field := match w with
    | some x => run 0x560 8 [x.1, x.2.1, flag x.2.2.1 + 2, x.2.2.2]
    | none => [(0x560, 16, none), (0x570, 8, some 0), (0x578, 8, sleepLeft k)]
  let region : List Field := match k.region with
    | some h => run 0x580 8 [h.toNat, 1]
    | none => [(0x580, 8, none), (0x588, 8, some 0)]
  let heads := [tget 0 k.qhead 0, tget 0 k.qhead 1, k.ws.qbSeen % 64, tget 0 k.qhead 3]
  let queues : List Field := ([(k.qs.length, reservedQ k false), (k.qv.length, reservedQ k true), (k.qb.length, 0),
    (k.qf.length, 0)].zipIdx).flatMap fun q => run (0x440 + 6 * q.2) 2 [heads.getD q.2 0, q.1.1, q.1.2]
  run 0 8 ((List.range 32).map fun n => if n = 0 then 0 else (tget 0 k.sreg n).toNat)
    ++ run 0x100 8 ((List.range 16).map fun n => (tget 0 k.areg n).toNat)
    ++ run 0x180 8 (ws.flatMap fun w => (List.range 3).map fun j => (loopCounter w j).toNat)
    ++ run 0x200 8 (ws.flatMap fun w => walkerPos w ++ [flag w.atExit + 2 * flag w.parked, 0])
    ++ run 0x300 8 (k.ws.rstack.length :: (k.ws.rstack.reverse.map wordAddr))
    ++ run 0x400 1 ((List.range 16).map fun j => reserved k j * 16 + tokens k j)
    ++ queues ++ [(0x480, 8, some (bitsNat 64 fun j => k.qb.getD j false))] ++ shifted 0x4C0 (haltFields k.halt)
    ++ shifted 0x4E0 (frameFields k) ++ wait ++ region ++ [(0x590, 8, some k.bexp.toNat)]
    ++ run 0x600 8 (k.qs.map (·.toNat)) ++ run 0x800 8 (k.qv.map (·.toNat)) ++ run 0xA00 8 (k.qf.map (·.toNat))
    ++ (List.range 16).flatMap fun j => shifted (0xA80 + 32 * j) (viewFields (k.views.getD j {}))

/-- The control block (R275), with the LNC it shows. -/
def controlFields (s : State) (c : Nat) (time : W64) : List Field :=
  run 0 8 (([0, 1, 2, 5, 6, 7, 8, 4].map fun n => (csrRead s c n).toNat)
    ++ [time.toNat, (csrRead s c 0x0A).toNat, (csrRead s c 0x0B).toNat])

/-- The architected block and the control block of a class. -/
def archByte (free : Nat → Byte) (s : State) (c : Nat) (time : W64) (o : Nat) : Byte :=
  if o < 0x20A000 then fieldByte free (deskFields s c (o / 0x10500)) (o % 0x10500)
  else if o < 0x20B000 then fieldByte free (classFields s c) (o - 0x20A000)
  else fieldByte free (controlFields s c time) (o - 0x20B000)

/-! ## Save images -/

/-- The state in which a member of an image is read as a class of a running team; its countdowns have run as long as at the
save. -/
def imageState (s : State) (t : Team) (i : Image) : State :=
  { s with
    cls := (t.classes.zip i.members).foldl
      (fun l x => l.set x.1 { x.2 with inflight := x.2.inflight.map (resumedOp s.ticks8 []) }) s.cls
    poison := i.poison, grant := i.level, teams := [{ t with state := .running }] }

/-- Lines of a granule that hold poison. -/
def poisonLines (i : Image) (c p g : Nat) : List Nat :=
  (List.range 1024).filter fun j => i.poison.any fun e => e.1 == .tower c p (g * 1024 + j)

/-- Bytes of a granule's stream. -/
def streamLen (i : Image) (c p g : Nat) : Nat := if isRaw i c p g then 65536 else codedLen i c p g

/-- A granule's stream (R279). -/
def granStream (i : Image) (c p g : Nat) : List Byte :=
  if isRaw i c p g then (List.range 1024).flatMap (granLine i.cells c p g)
  else
    let ks := granKinds i c p g
    leBytes 256 ((ks.zipIdx).foldl (fun v e => v + e.1 * 4 ^ e.2) 0)
      ++ (ks.zipIdx).flatMap fun e => (granLine i.cells c p g e.2).take (kindLen e.1)

/-- Class, tower, granule of a directory entry. -/
def granPlace (t : Team) (x : Nat × Nat × Nat) : Nat × Nat × Nat := (t.classes.getD x.1 0, x.2)

/-- A directory entry (R278). -/
def dirEntry (t : Team) (i : Image) (x : Nat × Nat × Nat) : List Byte :=
  let y := granPlace t x
  let raw := isRaw i y.1 y.2.1 y.2.2
  let pl := if raw then poisonLines i y.1 y.2.1 y.2.2 else []
  leBytes 8 (x.1 * 2 ^ 61 + x.2.1 * 2 ^ 55 + x.2.2 * 2 ^ 46 + flag raw * 2 ^ 45 + streamLen i y.1 y.2.1 y.2.2 * 2 ^ 28)
    ++ leBytes 8 (pl.length * 2 ^ 60 + (pl.zipIdx).foldl (fun v e => v + e.1 * 1024 ^ e.2) 0)

/-- Where the opaque blocks, the directory and the streams begin. -/
def opqOff (i : Image) : Nat := 0x100 + i.members.length * 0x20C000
def dirOff (i : Image) : Nat := opqOff i + i.members.length * 0x10000
def strOff (i : Image) : Nat := dirOff i + 16 * i.grans.length

/-- Offsets of the streams, with their granules. -/
def streams (t : Team) (i : Image) : List (Nat × (Nat × Nat × Nat)) :=
  (i.grans.foldl (fun (a : Nat × List (Nat × (Nat × Nat × Nat))) x =>
    let y := granPlace t x
    (a.1 + streamLen i y.1 y.2.1 y.2.2, (a.1, y) :: a.2)) (strOff i, [])).2.reverse

/-- Bytes of an image. -/
def imageLen (t : Team) (i : Image) : Nat :=
  strOff i + ((i.grans.map (granPlace t)).map fun y => streamLen i y.1 y.2.1 y.2.2).sum

/-- The header (R272). -/
def imageHeader (s : State) (t : Team) (i : Image) : List Byte :=
  let n := i.members.length
  let r := (snapOf s t.inst t.node).record
  let flags := flag (recHeat r == 2) + 2 * flag (recResid r) + 4 * flag (i.members.any fun m => m.hmode)
  let b := leBytes 4 0x4A594358 ++ leBytes 2 1 ++ leBytes 1 n ++ leBytes 1 flags ++ leBytes 8 t.inst ++ leBytes 2 t.node
    ++ leBytes 6 0 ++ leBytes 8 t.ord ++ ((List.range 8).flatMap fun j => leBytes 1 (t.classes.getD j 255))
    ++ leBytes 1 (bitsNat 8 fun j => t.arrived.contains (t.classes.getD j 255)) ++ leBytes 7 0
    ++ leBytes 8 (dirOff i) ++ leBytes 8 i.grans.length ++ leBytes 8 (strOff i) ++ leBytes 8 (imageLen t i)
    ++ ((List.range 8).flatMap fun j => leBytes 4 (i.opq.getD j 0)) ++ leBytes 140 0
  b ++ leBytes 4 (crc32 b).toNat

/-- Byte `o` of an image. -/
def imageByte (free : Nat → Byte) (s : State) (t : Team) (i : Image) (o : Nat) : Byte :=
  if o < 0x100 then (imageHeader s t i).getD o 0
  else if o < opqOff i then
    let x := o - 0x100
    let k := x / 0x20C000
    archByte free (imageState s t i) (t.classes.getD k 40) (i.members.getD k default).lncResume (x % 0x20C000)
  else if o < dirOff i then free o
  else if o < strOff i then
    ((i.grans[(o - dirOff i) / 16]?).map fun x => (dirEntry t i x).getD ((o - dirOff i) % 16) 0).getD 0
  else match (streams t i).find? fun x => decide (x.1 ≤ o) && decide (o < x.1 + streamLen i x.2.1 x.2.2.1 x.2.2.2) with
    | some x => (granStream i x.2.1 x.2.2.1 x.2.2.2).getD (o - x.1) 0
    | none => 0

/-- Images in a die's save area. -/
def imagesOn (s : State) (die : Nat) : List (Team × Image) :=
  s.teams.filterMap fun t => if dieOf (t.classes.headD 0) = die then t.image.map fun i => (t, i) else none

/-- Byte `o` of a die's save area: of an image, else open; beyond the configured size zero. -/
def areaByte (free : Nat → Byte) (s : State) (die o : Nat) : Byte :=
  if s.boot.saveBytes ≤ o then 0
  else match (imagesOn s die).find? fun x => decide (x.2.off ≤ o) && decide (o < x.2.off + imageLen x.1 x.2) with
    | some x => imageByte free s x.1 x.2 (o - x.2.off)
    | none => free o

/-! ## The window (R82) -/

/-- A black-box entry (R145). -/
def bbBytes (e : BbEntry) : List Byte :=
  leBytes 4 e.seq.toNat ++ leBytes 2 (e.part * 2048 + e.code) ++ [e.cls, e.unit] ++ leBytes 8 e.time.toNat
    ++ leBytes 8 e.tag.toNat ++ leBytes 8 e.detail.toNat

/-- Entry `n` of the ring; the newest stands before HEAD. -/
def bbEntry (d : Die) (n : Nat) : List Byte :=
  match d.bb[(d.head + 4095 - n) % 4096]? with
  | some e => bbBytes e
  | none => []

/-- A statistics record (R309). -/
def recordBytes (r : Record) : List Byte :=
  leBytes 4 r.amax.toNat ++ (r.bins.flatMap fun b => leBytes 3 b) ++ leBytes 4 r.count ++ leBytes 4 r.gen ++ leBytes 4 r.policy.toNat

/-- Where the timetable state of a die shows its heartbeat word (R459; log 41). -/
def beatShown : Nat := 0x300000 + 8 * (Config.beatShown % 0x20000)

/-- The block of die `b`. Timetable state but for the heartbeat word, partition table, telemetry and queue states have no published
layout (log 41). -/
def dieByte (free : Nat → Byte) (s : State) (b o : Nat) : Byte :=
  let ctr := fun (i x : Nat) => BitVec.ofNat 8 (ctrGet s (b * 2 ^ 24 + i) / 256 ^ x)
  if o < 0x80000 then ctr (o / 8) (o % 8)
  else if o < 0x100000 then 0
  else if o < 0x100000 + 4096 * 64 then (recordBytes (getRec s (b * 4096 + (o - 0x100000) / 64))).getD (o % 64) 0
  else if o < 0x200000 then 0
  else if o < 0x200000 + 4096 * 32 then (bbEntry (getDie s b) ((o - 0x200000) / 32)).getD (o % 32) 0
  else if o < 0x300000 then 0
  else if beatShown ≤ o ∧ o < beatShown + 8 then BitVec.ofNat 8 ((getDie s b).fw.beat.toNat / 256 ^ (o - beatShown))
  else if 0x500000 ≤ o ∧ o < 0x600000 then Config.telemetry (getDie s b).balNs (getDie s b).balEnergy (o - 0x500000)
  else if o < 0x700000 then free o
  else if o < 0x1000000 then 0
  else if o < 0x1000000 + 8 * (2 ^ 24 - 65536) then
    let i := 65536 + (o - 0x1000000) / 8
    if ctrAllocated s b i then ctr i (o % 8) else 0
  else 0

/-- Where a class's window shows its sequencer scratch (R150, R369): behind the remap table, at an offset that the spec does not give
(log 53). -/
def scratchShown : Nat := 0x20B120 + Config.scratchShown % 0x1E4EE0

/-- Byte at an offset of BAR2 of PF0. -/
def rbByte (s : State) (a : Nat) : Byte :=
  let free := fun (o : Nat) => Config.freeByte s.tick o
  let tower := fun (n p o : Nat) => readByte s (towerAddr n p o)
  if a < 0x0A00000000 then
    let j := a / 2 ^ 25
    tower (j / 32) (physTower (getCls s (j / 32)) (j % 32)) (a % 2 ^ 25)
  else if a < 0x0A00000000 + 80 * 2 ^ 25 then
    let j := (a - 0x0A00000000) / 2 ^ 25
    tower (j / 2) (32 + j % 2) (a % 2 ^ 25)
  else if a < 0x0B00000000 then 0
  else if a < 0x0B00000000 + 40 * 2 ^ 22 then
    let x := a - 0x0B00000000
    let c := x / 2 ^ 22
    let o := x % 2 ^ 22
    if o < 0x20B100 then archByte free s c (lnc s c) o
    else if o < 0x20B120 then BitVec.ofNat 8 (physTower (getCls s c) (o - 0x20B100))
    else if scratchShown ≤ o ∧ o < scratchShown + 65536 then readByte s (scratchAddr c (o - scratchShown))
    else 0
  else if a < 0x0C00000000 then 0
  else if a < 0x0C20000000 then dieByte free s ((a - 0x0C00000000) / 2 ^ 28) (a % 2 ^ 28)
  else if a < 0x0D00000000 then 0
  else if a < 0x0D20000000 then
    match (imagesOn s ((a - 0x0D00000000) / 2 ^ 28))[a % 2 ^ 28 / 64]? with
    | some x => Config.directoryByte x.1.inst x.1.node x.1.ord x.2.off (imageLen x.1 x.2) (a % 64)
    | none => 0
  else if a < 0x1000000000 then 0
  else if a < 0x2000000000 then areaByte free s ((a - 0x1000000000) / 2 ^ 35) (a % 2 ^ 35)
  else 0

/-- READBACK_READ: the aligned line that holds the offset, as it stands. -/
def execReadbackRead (off : Nat) (s : State) : Out :=
  .next (send (bump s) (.completion ((List.range 64).map fun j => rbByte s (off / 64 * 64 + j))))

/-- READBACK_WRITE: Unsupported Request. -/
def execReadbackWrite (_off : Nat) (_v : W64) (s : State) : Out := .next (send s .unsupported)

end Sys2Proof.Machine
end

