-- ==== Sys2Proof/Machine/Power.lean ====
section
/-!
DEFINITION. Power levels and class clocks (R31-R34), the hotspot guard (R52), ramp permit and ballast (R44, R46), vertical
exclusion (R49), the reference tick (R54, R74).
-/

namespace Sys2Proof.Machine

/-! ## The grant (R32) -/

/-- Some sensor of the package stands at 125 °C or above. -/
def overheated (s : State) : Bool := s.cls.any fun k => k.temps.any fun t => decide (125 ≤ t)

/-- The level an evaluation comes to, when the telemetry asks for `target`. -/
def nextGrant (s : State) (target : Nat) : Nat :=
  let rests := match s.raisedAt with
    | some t => decide (s.ticks8 < t + 12500)
    | none => false
  let up := if !s.capped || rests then s.grant else s.grant + 1
  if overheated s then 0 else min s.pcap (if target ≤ s.grant then target else up)

/-- POWER_EVALUATION: every 10 µs; the telemetry, which the spec does not give, names the target. -/
def execPowerEvaluation (target : BitVec 3) (s : State) : Out :=
  let early := match s.evalAt with
    | some t => decide (s.ticks8 < t + 1250)
    | none => false
  if early then .next s
  else
    let g := nextGrant s (if s.capped then target.toNat else s.grant)
    .next { s with grant := g, evalAt := some s.ticks8, raisedAt := if s.grant < g then some s.ticks8 else s.raisedAt }

/-! ## Class clocks (R31, R33, R34) -/

/-- Clock code of a level (R31, R59). -/
def levelClock (level : Nat) : Nat :=
  match level with
  | 7 => 0 | 6 => 0 | 5 => 1 | 4 => 2 | 3 => 3 | 2 => 4 | 1 => 6 | _ => 8

/-- Clock code of the thermal cap in force. -/
def thermalClock (level row : Nat) : Nat :=
  match row with
  | 0 => 0
  | 1 => min 8 (levelClock level + 1)
  | 2 => 5
  | _ => 8

/-- The class clock: the lowest of the three, so the highest code. -/
def classClock (s : State) (k : ClassState) : Nat :=
  max (levelClock s.grant) (max (thermalClock s.grant k.thermRow) (k.govCap.getD 0))

/-- FREQUENCY_TRANSITION: the clock reaches its value; nanosecond waits under way are converted (R56). -/
def execFrequencyTransition (c : Nat) (s : State) : Out :=
  .next (modCls s c fun k => setClock k (BitVec.ofNat 4 (classClock s k)))

/-! ## The hotspot guard (R52) -/

/-- Row of the cap table for a temperature; its threshold. -/
def thermRowOf (t : Nat) : Nat := if t < 100 then 0 else if t < 110 then 1 else if t < 120 then 2 else 3
def thermLimit (row : Nat) : Nat := 90 + 10 * row

/-- The first sensor that shows the hottest reading. -/
def hotSensor (k : ClassState) : Nat := k.temps.findIdx fun t => t == hottest k

/-- One sample: a lower row at once; a release after 100 samples that lie below the threshold less 5. -/
def guardSample (k : ClassState) : ClassState :=
  let h := hottest k
  if k.thermRow < thermRowOf h then { k with thermRow := thermRowOf h, thermBelow := 0, thermPeak := 0 }
  else if k.thermRow = 0 ∨ thermLimit k.thermRow - 5 ≤ h then { k with thermBelow := 0, thermPeak := 0 }
  else
    let peak := max k.thermPeak h
    if k.thermBelow + 1 < 100 then { k with thermBelow := k.thermBelow + 1, thermPeak := peak }
    else { k with thermRow := thermRowOf (peak + 5), thermBelow := 0, thermPeak := 0 }

/-- SENSOR_SAMPLE: readings in whole °C. DESIGN CHOICE (log 63): the alarm is raised when the hottest reading comes to 125 °C, not
at each sample while it stays there. -/
def execSensorSample (c t0 t1 t2 t3 : Nat) (s : State) : Out :=
  if 40 ≤ c then .next s
  else
    let old := getCls s c
    let s := modCls s c fun k => guardSample { k with temps := [t0, t1, t2, t3] }
    let k := getCls s c
    let sensor := BitVec.ofNat 64 (hotSensor k)
    let s := if old.thermRow < 3 ∧ k.thermRow = 3 then bbClass s c 0x050 0xFF sensor else s
    if 125 ≤ hottest k then
      let s := { s with grant := 0 }
      .next (if hottest old < 125 then msix (bbClass s c 0x051 0xFF sensor) .pf0 1 else s)
    else .next s

/-! ## Ramp and ballast (R44-R47) -/

/-- RAMP_PERMIT_STEP: every 250 ns the permit rises by 8 units until it is 32 (R44). -/
def execRampPermitStep (c : Nat) (s : State) : Out :=
  .next (modCls s c fun k => { k with permit := min 32 (k.permit + 8) })

/-- A reference tick on the matrix rail of a class with `active` desks: the load is that of the units that run a wave, or falls by at
most 32 units per 40 µs, so by 4/625 of a unit in 8 ns; what the waves do not take of it is ballast, on units of active desks
that run no wave (R44, R45). -/
def rampTick (active : Nat) (k : ClassState) : ClassState :=
  let u := unitsNow k active
  let l := max (625 * u) (min (k.load - 4) (625 * max u active))
  { k with busy := (waving k).isSome, load := l, bal := decide (625 * u < l) }

/-- The die's telemetry counters after a tick on a class (R46). -/
def ballastTick (active : Nat) (k : ClassState) (d : Die) : Die :=
  if k.bal then { d with balNs := d.balNs + 8, balEnergy := d.balEnergy + 8 * (k.load / 625 - unitsNow k active) } else d

/-- A reference tick of a class: its countdowns and its matrix rail. -/
def classTick (s : State) (c : Nat) : State :=
  let n := (desksOf s c).length
  let s := modCls s c fun k => rampTick n (countDown k)
  modDie s (dieOf c) (ballastTick n (getCls s c))

/-! ## Vertical exclusion (R48, R49) -/

/-- What a window refuses to a pair: the refused units of the window before are listed, compute unit 2·pair, base unit
2·pair + 1. -/
def windowRefuses (l : List Nat) (pair : Nat) (computeAsks baseAsks : Bool) : List Nat :=
  if computeAsks && baseAsks then
    if l.contains (2 * pair) then [2 * pair + 1]
    else if l.contains (2 * pair + 1) then [2 * pair]
    else [2 * pair + 1]
  else []

/-- A stairwell router lies beneath the class (R198): grid columns 1 and 3. -/
def overStairwell (c : Nat) : Bool := localOf c % 5 == 1 || localOf c % 5 == 3

/-- WINDOW_ARBITRATION: pairs 0-3 the desk columns, 4 the router, where a stairwell router lies beneath it. -/
def execWindowArbitration (c pair : Nat) (computeAsks baseAsks : Bool) (s : State) : Out :=
  if 4 < pair || (pair == 4 && !overStairwell c) then .next s
  else .next (modCls s c fun k => { k with
    refusals := windowRefuses k.refusals pair computeAsks baseAsks ++ k.refusals.filter fun r => r / 2 != pair })

/-! ## The reference tick (R54, R74) -/

/-- All queues of all partitions. -/
def allQueues : List (Nat × Nat) := (List.range 16).flatMap fun k => (List.range 8).map fun q => (k + 1, q)

/-- Countdowns that a tick has run out expire next (R56, R57). -/
def expiries (s : State) : State :=
  (List.range 40).foldl (fun s c => ((getCls s c).inflight.filter fun f => timing f && f.rem == 0).foldl (fun s _ =>
    due s (.event (.nanosecondWaitExpiry c))) s) s

/-- LNC_TICK: 8 ns pass; countdowns that it runs out expire next; every 125th tick is a 1 µs tick of the hall monitors; 10 ms
after its transfer point a live update that no HBEAT has completed is reverted next (R93). -/
def execLncTick (s : State) : Out :=
  -- requests that nothing has held back have left by now, with the reading of the LNC before this tick (R142)
  let s := leaveAll s
  let s := (List.range 40).foldl classTick { s with ticks8 := s.ticks8 + 1 }
  let s := expiries s
  let s := if overdue s then due s (.event .fwReversion) else s
  .next (if s.ticks8 % 125 = 0 then allQueues.foldr (fun x s => hmTick s x.1 x.2) s else s)

end Sys2Proof.Machine
end

