-- ==== Sys2Proof/Machine/Reliability.lean ====
section
/-!
DEFINITION. Shadow-latch replay and its governor (R123, R125), freezes (R126, R128), poison that is only marked (R129).
-/

namespace Sys2Proof.Machine

/-! ## Replay -/

/-- SHADOW_LATCH_REPLAY: the detectors are disarmed while a hold lasts. -/
def execShadowLatchReplay (c : Nat) (s : State) : Out :=
  .next (modCls s c fun k => if k.replayHold then k else { k with replayHold := true, replays := k.replays + 1 })

/-- REPLAY_HOLD_END. -/
def execReplayHoldEnd (c : Nat) (s : State) : Out := .next (modCls s c fun k => { k with replayHold := false })

/-- The governor's cap after a window; none where no cap is in force. -/
def governorNext (level : Nat) (k : ClassState) : Option Nat × Nat :=
  let old := k.govCap.getD level
  if 64 < k.replays then (some (min 8 (old + 1)), 0)
  else if 16 < k.replays ∨ k.govCap.isNone then (k.govCap, 0)
  else if k.quiet + 1 < 1000 then (k.govCap, k.quiet + 1)
  else (if old - 1 ≤ level then none else some (old - 1), 0)

/-- REPLAY_GOVERNOR_WINDOW: a change of the cap is recorded; so is a window above 64 replays at 0.50 GHz. -/
def execReplayGovernorWindow (c : Nat) (s : State) : Out :=
  if 40 ≤ c then .next s
  else
    let k := getCls s c
    let level := levelClock s.grant
    let n := governorNext level k
    let s := modCls s c fun k => { k with govCap := n.1, quiet := n.2, replays := 0 }
    .next (if n.1 ≠ k.govCap ∨ 64 < k.replays then
      bbClass s c 0x003 0xFF (BitVec.ofNat 64 (k.govCap.getD level * 16 + n.1.getD level)) else s)

/-! ## Freezes -/

/-- CORRECTABLE_ERROR: an access detects a correctable error in a class memory. -/
def execCorrectableError (c : Nat) (m : ClassMem) (loc : BitVec 56) (s : State) : Out :=
  .next (if c < 40 then classError s c m loc.toNat else s)

/-- FREEZE_END: results that were held land from now on; the freeze guard begins. -/
def execFreezeEnd (c : Nat) (s : State) : Out :=
  .next (if (getCls s c).frozen then
      let s := landHeld s c
      modCls s c fun k => { k with frozen := false, guard := true }
    else s)

/-- FREEZE_GUARD_END. -/
def execFreezeGuardEnd (c : Nat) (s : State) : Out := .next (modCls s c fun k => { k with guard := false })

/-! ## Poison that nothing consumes -/

/-- The black-box entry of a unit: by its class and desk or tower, or by its die. -/
def recordUnit (s : State) (code : Nat) (u : PUnit) : State :=
  match u with
  | .phys n => bbRecord s (dieOfPa (64 * n)) 0 code 0xFF 0xFF 0 (locator u (64 * n))
  | .tower c p _ => bbClass s c code (BitVec.ofNat 8 p) (locator u 0)
  | .vreg c d _ _ =>
    bbClass s c code (BitVec.ofNat 8 (if deskActive (hotOn s c) d then d else borrower d)) (locatorOn s u 0)
  | .acc c d _ _ => bbClass s c code (BitVec.ofNat 8 d) (locator u 0)
  | .mask c d _ _ => bbClass s c code (BitVec.ofNat 8 d) (locator u 0)
  | .queue c _ _ => bbClass s c code 0xFF (locator u 0)
  | .scratch c _ => bbClass s c code 0xFF (locator u 0)
  | .code c _ => bbClass s c code 0xFF (locator u 0)
  | .counter h => bbRecord s (ctrDie h) 0 code 0xFF 0xFF 0 (locator u 0)

/-- UNCORRECTABLE_ERROR: found without consumption, the unit is marked media poison. -/
def execUncorrectableError (u : PUnit) (s : State) : Out := .next (recordUnit (setPoison s u false) 0x015 u)

end Sys2Proof.Machine
end

