-- ==== Sys2Proof/Machine/Bar.lean ====
section
/-!
DEFINITION. Host accesses to the BARs: register writes (R62, R63, R79), reads (R23, R130, R262), writes (R236), AtomicOps (R23,
R233).
-/

namespace Sys2Proof.Machine

/-! ## Registers -/

/-- MBARG number `j` behind an offset of PF0 BAR0. R79 gives the seven offsets 0x0008 to 0x0038 for eight registers; where MBARG7
lies is free (log 40). -/
def mbargAt (off : Nat) : Option Nat :=
  if off % 8 = 0 ∧ 0x008 ≤ off ∧ off < 0x040 then some (off / 8 - 1) else if off = Config.mbarg7At then some 7 else none

/-- A register of PF0 (R79, R81, R85); offsets that are not listed read zero. -/
def pfReg (s : State) (off : Nat) : W64 :=
  let bbctl := fun (b : Nat) =>
    let d := getDie s b
    BitVec.ofNat 64 (d.lost * 2 ^ 32 + d.head * 2 ^ 16 + flag d.frz)
  match off with
  | 0x000 => s.mbcmd
  | 0x040 => s.mbstat.setWidth 64
  | 0x100 => BitVec.ofNat 64 s.pcap
  | 0x108 => bbctl 0
  | 0x110 => bbctl 1
  | 0x118 => s.bootstat.setWidth 64
  | _ => match mbargAt off with
    | some j => s.mbarg.getD j 0
    | none => 0

/-- A write to a register of VF `k` that only stores a value. -/
def vfWrite (s : State) (k off : Nat) (v : W64) : State :=
  if 0x800 ≤ off then s
  else modQueue s k (off / 256) fun x =>
    match off % 256 with
    | 0x00 => if x.en then x else { x with qbase := v &&& ~~~0x7F#64 }
    | 0x20 => { x with hmto := v.setWidth 32 }
    | _ => x

/-- A write to a register of PF0: the mailbox. -/
def pfWrite (s : State) (off : Nat) (v : W64) : State :=
  if off = 0 then mailboxWrite s v
  else if [0x040, 0x100, 0x108, 0x110, 0x118].contains off then s
  else match mbargAt off with
    | some j => { s with mbarg := s.mbarg.set j v }
    | none => s

/-- REGISTER_WRITE. -/
def execRegisterWrite (fn : HostFn) (off : Nat) (v : W64) (s : State) : Out :=
  .next (match fn with
    | .pf0 => pfWrite s off v
    | .vf k => if vfOn s k then vfWrite s k off v else send s .unsupported)

/-- Bytes of a register file from an offset. -/
def regBytes (r : Nat → W64) (off n : Nat) : List Byte :=
  (List.range n).map fun j => BitVec.ofNat 8 ((r ((off + j) / 8 * 8)).toNat / 256 ^ ((off + j) % 8))

/-! ## The partition memory window (R22; log 24) -/

/-- Physical address of the `n`-th frame: those of H0 to H7, then those of the expanders. -/
def frameAt (n : Nat) : Nat :=
  let g := n % (8 * hbmFrames + 6 * 2 ^ 26)
  if g < 8 * hbmFrames then g / hbmFrames * 2 ^ 36 + g % hbmFrames * 65536 else 2 ^ 44 + (g - 8 * hbmFrames) * 65536

/-- Physical address behind an offset of VF `k`'s BAR2: a backed frame that the partition owns. -/
def barAddr (s : State) (k off : Nat) : Option Nat :=
  let pa := frameAt (Config.barFrame k (off / 65536)) + off % 65536
  match frameIdx pa with
  | some x => if decide (off < 2 ^ 36) && backed s pa && (iptEntry s x.1 x.2).part == k then some pa else none
  | none => none

/-- Addresses of `n` bytes, if all of them have one. -/
def barAddrs (s : State) (k off : Nat) : Nat → Option (List Nat)
  | 0 => some []
  | n + 1 =>
    match barAddr s k off, barAddrs s k (off + 1) n with
    | some a, some as => some (a :: as)
    | _, _ => none

/-- The first poisoned unit among addresses. -/
def poisonIn (s : State) (as : List Nat) : Option (PUnit × Bool) :=
  as.findSome? fun a => (poisonAt s (.phys (a / 64))).map fun p => (.phys (a / 64), p)

/-- Poison that a host access consumes (R130, R131): no node is there to be killed. -/
def hostConsumes (s : State) (k : Nat) (u : PUnit) (kind : Bool) : State :=
  let a := match u with | .phys n => 64 * n | _ => 0
  let s := bbRecord s (dieOfPa a) k (if kind then 0x014 else 0x013) 0xFF 0xFF 0 (locator u a)
  send (if kind then msix s .pf0 2 else s) .completerAbort

/-- A read of device-visible contents. -/
def barRead (s : State) (k off n : Nat) : State :=
  match barAddrs s k off n with
  | none => send s .unsupported
  | some as =>
    match poisonIn s as with
    | some x => hostConsumes s k x.1 x.2
    | none => send s (.completion (as.map (readByte s)))

/-- HOST_BAR_READ. -/
def execHostBarRead (fn : HostFn) (bar off n : Nat) (s : State) : Out :=
  .next (match fn with
    | .pf0 =>
      if bar = 0 then send s (.completion (regBytes (pfReg s) off n))
      else if bar = 2 then send (bump s) (.completion ((List.range n).map fun j => rbByte s (off + j)))
      else send s .unsupported
    | .vf k =>
      if !vfOn s k then send s .unsupported
      else if bar = 0 then send s (.completion (regBytes (vfReg s k) off n))
      else if bar = 2 then barRead s k off n
      else send s .unsupported)

/-- Units that a list of addresses covers whole. -/
def wholeSectors (as : List Nat) : List Nat :=
  ((as.map (· / 64)).dedup).filter fun u => (List.range 64).all fun j => as.contains (64 * u + j)

/-- HOST_BAR_WRITE: an unstaged write; a write of a whole unit clears its poison. -/
def execHostBarWrite (k off : Nat) (data : List (BitVec 8)) (s : State) : Out :=
  if !vfOn s k then .next (send s .unsupported)
  else
    match barAddrs s k off data.length with
    | none => .next (send s .unsupported)
    | some as =>
      let s := (as.zip data).foldl (fun s x => writePhys s x.1 [x.2]) s
      .next ((wholeSectors as).foldl (fun s u => clearPoison s (.phys u)) s)

/-- What an AtomicOp stores. -/
def atomicResult (op : HostAtomic) (w : Nat) (old x y : Nat) : Nat :=
  match op with
  | .fetchAdd => (old + x) % 2 ^ w
  | .swap => x % 2 ^ w
  | .cas => if old = x % 2 ^ w then y % 2 ^ w else old

/-- HOST_ATOMICOP: the old value returns; CAS has 64 bits (R23). A misaligned one is answered Unsupported Request (log 32). -/
def execHostAtomicop (k off : Nat) (op : HostAtomic) (wide : Bool) (x y : BitVec 64) (s : State) : Out :=
  let n := if wide then 8 else 4
  if !vfOn s k || off % n ≠ 0 || (op == .cas && !wide) then .next (send s .unsupported)
  else
    match barAddr s k off with
    | none => .next (send s .unsupported)
    | some a =>
      match poisonAt s (.phys (a / 64)) with
      | some kind => .next (hostConsumes s k (.phys (a / 64)) kind)
      | none =>
        let old := readNat s a n
        .next (send (writePhysNat s a n (atomicResult op (8 * n) old x.toNat y.toNat)) (.completion (leBytes n old)))

end Sys2Proof.Machine
end

