-- ==== Sys2Proof/Machine/Boot.lean ====
section
/-!
DEFINITION. Cold start (R86-R88), the repair record (R147, R148), warm reset (R32, R145).
-/

namespace Sys2Proof.Machine

/-! ## The repair record -/

/-- An entry of the repair record. -/
inductive RepairEntry where
  | tower (c d spare : Nat)
  | classOff (c d : Nat)
  | lane (dir lane spare : Nat)
  | stairwell (die r : Nat)
  | bad
  deriving DecidableEq, Repr

/-- Parse 16 bytes; an unknown type, a field out of its range or a nonzero RZ byte is bad. -/
def repairEntry (b : List Byte) : RepairEntry :=
  let v := fun (n : Nat) => (b.getD n 0).toNat
  let rz := fun (n : Nat) => (b.drop n).all (· == 0)
  match v 0 with
  | 1 => if v 1 < 40 ∧ v 2 < 32 ∧ (v 3 = 32 ∨ v 3 = 33) ∧ rz 4 then .tower (v 1) (v 2) (v 3) else .bad
  | 2 => if v 1 < 40 ∧ (v 2 < 32 ∨ v 2 = 255) ∧ rz 3 then .classOff (v 1) (v 2) else .bad
  | 3 => if v 1 < 2 ∧ v 3 < 4 ∧ rz 4 then .lane (v 1) (v 2) (v 3) else .bad
  | 4 => if v 1 < 2 ∧ v 2 < 8 ∧ rz 3 then .stairwell (v 1) (v 2) else .bad
  | _ => .bad

/-- The entries of a record. -/
def repairEntries (r : List Byte) : List RepairEntry :=
  (List.range (byteField r 6 2)).map fun n => repairEntry ((r.drop (64 + 16 * n)).take 16)

/-- Remaps of the record: class, desk, spare. -/
def remapsOf (es : List RepairEntry) : List (Nat × Nat × Nat) :=
  es.filterMap fun e => match e with
    | .tower c d p => some (c, d, p)
    | .classOff _ _ => none
    | .lane _ _ _ => none
    | .stairwell _ _ => none
    | .bad => none

/-- Spare lanes of the record: direction, spare lane. -/
def lanesOf (es : List RepairEntry) : List (Nat × Nat) :=
  es.filterMap fun e => match e with
    | .lane dir _ p => some (dir, p)
    | .tower _ _ _ => none
    | .classOff _ _ => none
    | .stairwell _ _ => none
    | .bad => none

/-- The boot ROM takes the record (R148): no spare tower and no spare lane is named twice. -/
def repairOk (b : BootInput) : Bool :=
  let r := b.repair
  let n := byteField r 6 2
  let es := repairEntries r
  let ms := remapsOf es
  b.repairSigOk && byteField r 0 4 == 0x4A595250 && byteField r 4 2 == 1 && decide (n ≤ 512)
    && r.length == 64 + 16 * n + 384 && byteField r 8 16 == b.serial.toNat && byteField r 24 40 == 0
    && !es.contains .bad
    && (List.range 40).all (fun c => decide ((ms.filter fun m => m.1 = c).length ≤ 2))
    && ((ms.map fun m => (m.1, m.2.2)).dedup.length == ms.length) && decide (lanesOf es).Nodup

/-- Classes that the record disables. -/
def recordOff (es : List RepairEntry) : List Nat :=
  es.filterMap fun e => match e with
    | .classOff c _ => some c
    | .tower _ _ _ => none
    | .lane _ _ _ => none
    | .stairwell _ _ => none
    | .bad => none

/-- A defect of a desk that the record names: a remap of its tower, or its class disabled. -/
def namesDefect (es : List RepairEntry) (x : Nat × Nat) : Bool :=
  (remapsOf es).any (fun m => m.1 == x.1 && m.2.1 == x.2) || (recordOff es).contains x.1

/-- Apply one entry. -/
def applyRepair (s : State) (e : RepairEntry) : State :=
  match e with
  | .tower c d p => modCls s c fun k => { k with remap := tput k.remap d p }
  | .classOff c _ => { s with disabled := c :: s.disabled }
  | .lane dir _ _ => { s with spare := s.spare.modify dir (· - 1) }
  | .stairwell die r => modDie s die fun d => { d with wells := d.wells.modify r fun w => { w with state := 2 } }
  | .bad => s

/-- Step 4: a defect that the record omits disables its class, a boot warning. -/
def applyDefect (es : List RepairEntry) (s : State) (x : Nat × Nat) : State :=
  if namesDefect es x || s.disabled.contains x.1 then s
  else bbRecord { s with disabled := x.1 :: s.disabled } (dieOf x.1) 0 0x062 0xFF 0xFF 0 (BitVec.ofNat 64 x.1)

/-! ## Cold start -/

/-- Recovery mode (R88): the step that failed, an error code that the spec leaves open (log 26). -/
def recovery (s : State) (stepNo : Nat) : State :=
  { bump s with bootstat := BitVec.ofNat 17 (2 ^ 16 + (freeVal s).toNat % 256 * 256 + stepNo) }

/-- Size of a die's save area (R271): the configured one, at least 2 GiB and at most 32 GiB (log 45). -/
def saveAreaSize (n : Nat) : Nat := max (2 * 2 ^ 30) (min (32 * 2 ^ 30) n)

/-- What a power-up leaves: everything at its reset value, but for host memory, which is no part of the device, and what
has left the package. -/
def powerUp (s : State) (b : BootInput) : State :=
  { State.reset with
    boot := { b with saveBytes := saveAreaSize b.saveBytes }, tick := s.tick + 1, born := s.born + 1, out := s.out
    mem := s.mem.filter fun e => (decide (hostBase ≤ e.1) && decide (e.1 < 2 ^ 52)) || decide (2 ^ 56 ≤ e.1)
    dies := State.reset.dies.map fun d => { d with fw := { d.fw with running := false } } }

/-- Step 6: the image starts on the active processors of both dies, measurements 1 to 8 are set (R90). -/
def startFirmware (s : State) (b : BootInput) (ok : Bool) : State :=
  let img : FwImage := ⟨imageWords b.image, b.imageSvn, b.imageDigest⟩
  { s with
    dies := s.dies.map fun d => { d with fw := { d.fw with image := img, running := true } }
    bootstat := if ok then 6 else 0x3006
    meas := [b.romDigest, b.imageDigest, b.imageSvn.setWidth 256, if ok then sha256 b.repair else 0,
      Config.bootDigest b.e0Host b.saveBytes, Config.partitionDigest [], 0, 0] }

/-- COLD_START. -/
def execColdStart (b : BootInput) (s : State) : Out :=
  let s := powerUp s b
  if !b.rootKeyOk then .next (recovery s 1)
  else if !(b.primaryOk || b.fallbackOk) then .next (recovery s 2)
  else
    let ok := repairOk b
    let es := if ok then repairEntries b.repair else []
    let s := b.defects.foldl (applyDefect es) (es.foldl applyRepair s)
    if !b.certMatches then .next (recovery s 5) else .next (startFirmware s b ok)

/-! ## Warm reset -/

/-- What warm reset leaves of a class: its remap table, its sensors, its towers' consumption. -/
def warmClass (c : Nat) (k : ClassState) : ClassState :=
  { ClassState.reset c with remap := k.remap, temps := k.temps, cons := k.cons }

/-- What it leaves of a die: the black box with SEQ and HEAD, retired and failed stairwells, the active image from its
first word. -/
def warmDie (d : Die) : Die :=
  { bb := d.bb, seq := d.seq, head := d.head
    wells := d.wells.map fun w => if 2 ≤ w.state then { state := w.state } else {}
    fw := { image := d.fw.image, running := d.fw.running, slot := d.fw.slot } }

/-- Units whose poison outlives the reset: memory, towers, scratch. -/
def warmUnit (u : PUnit) : Bool :=
  match u with
  | .phys _ => true
  | .tower _ _ _ => true
  | .scratch _ _ => true
  | .code _ _ => true
  | .vreg _ _ _ _ => false
  | .acc _ _ _ _ => false
  | .mask _ _ _ _ => false
  | .queue _ _ _ => false
  | .counter _ => false

/-- WARM_RESET: grant 2 until a cap is written; the black boxes and the LNCs are kept (log 27 names the rest). The keys go with the
partitions. -/
def execWarmReset (s : State) : Out :=
  let s := (List.range 17).foldl unsealPart s
  .next { State.reset with
    tick := s.tick + 1, ticks8 := s.ticks8, born := s.born, boot := s.boot, bootstat := s.bootstat, disabled := s.disabled
    cls := (s.cls.zipIdx).map fun e => warmClass e.2 e.1
    dies := s.dies.map warmDie
    mem := s.mem, poison := s.poison.filter fun e => warmUnit e.1
    nextInst := s.nextInst, handovers := s.handovers, cabling := s.cabling, farPort := s.farPort, klink := s.klink
    spare := s.spare, degraded := s.degraded, out := s.out
    meas := (s.meas.set 5 (Config.partitionDigest [])).set 7 0 }

end Sys2Proof.Machine
end

