-- ==== Sys2Proof/Machine/Retire.lean ====
section
/-!
DEFINITION. Retirement of a node (R106, R245-R247), the kill event (R134), pair mode (R27, R43, R137-R140, R283).
-/

namespace Sys2Proof.Machine

/-! ## Kill -/

/-- NODE_KILL: a kill that is due is carried out. -/
def execNodeKill (inst node : Nat) (cause : BitVec 8) (s : State) : Out :=
  let x : Kill := ⟨inst, node, cause⟩
  .next (if s.kills.contains x then killNode { s with kills := s.kills.erase x } inst node cause.toNat else s)

/-! ## Anchor swap (R106, R245-R247) -/

/-- A staged byte before another: the later epoch wins, a pending one is latest. -/
def newer (a b : Staged) : Staged :=
  match a.epoch, b.epoch with
  | some x, some y => if y < x then a else b
  | none, _ => a
  | _, none => b

/-- The newest staged byte at an address. -/
def newestAt (ws : List Staged) (pa : Nat) : Option Staged :=
  (ws.filter fun w => w.pa = pa).foldl (fun m w => match m with
    | none => some w
    | some x => some (newer x w)) none

/-- Sectors that a node staged. -/
def stagedSectors (ws : List Staged) : List Nat := (ws.map fun w => w.pa / 64).dedup

/-- The newest staged bytes of a sector, by offset. -/
def sectorBytes (ws : List Staged) (u : Nat) : List (Nat × Staged) :=
  let mine := ws.filter fun w => w.pa / 64 = u
  (List.range 64).filterMap fun j => (newestAt mine (64 * u + j)).map fun w => (j, w)

/-- Write one sector's masked bytes into its frame, with the poison that came with them, under the address of the write (R230). -/
def swapSector (ws : List Staged) (s : State) (u : Nat) : State :=
  let bs := sectorBytes ws u
  let s := match bs with
    | x :: _ => noteVa s u x.2.va
    | [] => s
  if bs.length = 64 then writePa s (64 * u) (bs.map fun x => x.2.byte) (bs.findSome? fun x => x.2.pz)
  else bs.foldl (fun s x => writePa s (64 * u + x.1) [x.2.byte] x.2.pz) s

/-- The signal adds, in order, each performed for good; whether none would overflow (R106). -/
def signal (s : State) (h0 : Nat) : List (Nat × Nat) → State × Bool
  | [] => (s, true)
  | e :: es =>
    if edgeOn e.1 then
      match ctrAdd s (edgeHandle h0 e.1) e.2 false with
      | some s => signal s h0 es
      | none => (s, false)
    else signal s h0 es

/-- The node has retired: staged writes are device-visible, signals follow, the hall monitor restarts; with its last node the
instance ends with success. -/
def retire (s : State) (i : Instance) (node : Nat) : State :=
  let ws := (nodeOf s i.num node).staged
  let s := (stagedSectors ws).foldl (swapSector ws) s
  let s := modNode (discardStaged s i.num node) i.num node fun n => { n with state := .retired }
  let r := signal (landNode s i.num node) i.h0 (recSignals (i.snaps.getD node default).record)
  if r.2 then
    let s := restartHm r.1 i.part i.queue
    match instOf s i.num with
    | some j => if (unretired j).isEmpty then endInst s i.num 0 else s
    | none => s
  else failNodeOpen r.1 i.num node

/-- No atomic has read a word of a sector that the node has staged and not written it yet (R233). -/
def swapFree (s : State) (inst node : Nat) : Bool :=
  (stagedSectors (nodeOf s inst node).staged).all fun u => !amoOpen s (64 * u) 64

/-- ANCHOR_SWAP_COMPLETE. -/
def execAnchorSwapComplete (inst node : Nat) (s : State) : Out :=
  match instOf s inst with
  | none => .next s
  | some i =>
    .next (if i.state = .running ∧ node < i.nodes.length ∧ (nodeOf s inst node).state = .swapping ∧ swapFree s inst node then retire s i node
      else s)

/-! ## Fencing (R140) -/

/-- The sequence of R75 with status 0x06 and STATE 4, and a notice to the peer. TINFO names the node, where a node's exchange is
the cause (R263). DESIGN CHOICE (log 69): die 0 records 0x021. -/
def fence (s : State) (k : Nat) (node : Option Nat) : State :=
  if (getPart s k).state = 0 ∨ (getPart s k).state = 4 then s
  else
    let s := bbRecord s 0 k 0x021 0xFF 0xFF 0 (BitVec.ofNat 64 ((getPart s k).peer.getD 0))
    sendPair (partitionReset s k 0x06 4 0x25 node none) 0x140 [k]

/-- A pair abort kills the node; the classes that run it take the cause 0x25 (R263). -/
def pairAbort (s : State) (inst node cause : Nat) : State :=
  requestKill ((nodeClasses s inst node).foldl (fun s c => liveCause s c 0x25 node) s) inst node cause

/-- A mismatch on a node is counted (R138, R140, R43), the latest run that was judged noted; `kill`: what follows where it is not the
third in a row, which fences the partition instead. DESIGN CHOICE (log 69): die 0 records 0x020. -/
def countMismatch (s : State) (inst node rollbacks : Nat) (kill : State → State) : State :=
  let k := partOfInst s inst
  let n := (getPart s k).mismatches + 1
  let s := modNode (modPart s k fun p => { p with mismatches := n }) inst node fun x => { x with judged := rollbacks + 1 }
  let s := bbRecord s 0 k 0x020 0xFF 0xFF (recTag (snapOf s inst node).record) (BitVec.ofNat 64 (n * 256 + node))
  if 3 ≤ n then fence s k (some node) else kill s

/-- A mismatch on a node's present run, ahead of its kill. -/
def mismatch (s : State) (inst node : Nat) : State :=
  countMismatch s inst node (nodeOf s inst node).rollbacks fun s => pairAbort s inst node 0x20

/-! ## The digest exchange (R137, R138) -/

/-- SHA-256 over VA, MASK and DATA of one staged sector: DATA is the sector of the shadow, where bytes that the node did not write
are as at the shadow's allocation (R137, R218). -/
def sectorDigest (s : State) (n : Node) (u : Nat) : BitVec 256 :=
  let bs := sectorBytes n.staged u
  let va := match bs with | x :: _ => x.2.va / 64 * 64 | [] => 0
  let mask := bs.foldl (fun m x => m + 2 ^ x.1) 0
  let old := fun (a : Nat) => match shadowOf n a with
    | some h => (shadowByte s h a va).1
    | none => 0
  sha256 (leBytes 8 va ++ leBytes 8 mask ++ (List.range 64).map fun j => match bs.find? fun x => x.1 = j with
    | some x => x.2.byte
    | none => old (64 * u + j))

/-- The node's digest. -/
def nodeDigest (s : State) (n : Node) : BitVec 256 := (stagedSectors n.staged).foldl (fun d u => d + sectorDigest s n u) 0

/-- The package is the master of a paired partition's instance. -/
def isPaired (s : State) (inst : Nat) : Bool := (getPart s (partOfInst s inst)).paired

/-- COMMIT: mismatches are 0 again and the swap begins. -/
def commitNode (s : State) (inst node : Nat) : State :=
  modNode (modPart s (partOfInst s inst) fun p => { p with mismatches := 0 }) inst node fun n => { n with state := .swapping }

/-- The master's decision, sent on both links with its copy of the rollback count (R139; log 49). -/
def sendVerdict (s : State) (inst node : Nat) (commit counted : Bool) : State :=
  sendPair s 0x138 [inst, node, if commit then 1 else 0, if counted then 1 else 0, (nodeOf s inst node).rollbacks]

/-- The master decides on the digests. -/
def decidePair (s : State) (inst node : Nat) (commit : Bool) : State :=
  let s := sendVerdict s inst node commit (!commit)
  if commit then commitNode s inst node else mismatch s inst node

/-- The master compares once it has both digests. -/
def comparePair (s : State) (inst node : Nat) : State :=
  let n := nodeOf s inst node
  match n.digest, n.partner with
  | some d, some p => if n.state = .digest && s.pairMaster then decidePair s inst node (p == (n.rollbacks, d)) else s
  | _, _ => s

/-- Every iteration has been dispatched and every team has ended (R106). -/
def nodeDone (s : State) (i : Instance) (node : Nat) : Bool :=
  let n := i.nodes.getD node default
  i.state == .running && decide (node < i.nodes.length) && n.state == .ready && (getPart s i.part).state == 1
    && n.next == recCount (i.snaps.getD node default).record && n.restarts.isEmpty && (nodeTeams s i.num node).isEmpty

/-- NODE_RETIREMENT: the digest exchange in pair mode, else the anchor swap begins. With both pair links down the exchange
counts as a mismatch (R27). -/
def execNodeRetirement (inst node : Nat) (s : State) : Out :=
  match instOf s inst with
  | none => .next s
  | some i =>
    if !nodeDone s i node then .next s
    else if !isPaired s inst then .next (modNode s inst node fun n => { n with state := .swapping })
    else if pairLinksDown s then .next (mismatch (modNode s inst node fun n => { n with state := .digest }) inst node)
    else
      let d := nodeDigest s (nodeOf s inst node)
      let rb := (nodeOf s inst node).rollbacks
      let s := modNode s inst node fun n => { n with state := .digest, digest := some d, digestAt := s.ticks8 }
      .next (comparePair (sendPair s 0x137 [i.gid.toNat, node, rb, d.toNat]) inst node)

/-- PAIR_DIGEST_RECEIVED; the digest of a run that has been killed since is not kept. -/
def execPairDigestReceived (inst node rollbacks : Nat) (digest : BitVec 256) (s : State) : Out :=
  if isPaired s inst && s.pairMaster && decide ((nodeOf s inst node).rollbacks ≤ rollbacks) then
    .next (comparePair (modNode s inst node fun n => { n with partner := some (rollbacks, digest) }) inst node)
  else .next s

/-- ns since a node's own digest, while it waits for the exchange. -/
def digestAge (s : State) (inst node : Nat) : Option Nat :=
  let n := nodeOf s inst node
  if (instOf s inst).isSome ∧ n.state = .digest ∧ n.digest.isSome then some (sinceNs s n.digestAt) else none

/-- PAIR_DIGEST_TIMEOUT: 50 µs without the partner's digest. -/
def execPairDigestTimeout (inst node : Nat) (s : State) : Out :=
  match digestAge s inst node with
  | some a => .next (if s.pairMaster && isPaired s inst && decide (50000 ≤ a) then decidePair s inst node false else s)
  | none => .next s

/-- A kill that the peer has made of the run with this rollback count is still to be made here (log 49). -/
def killDue (s : State) (inst node rollbacks : Nat) : Bool :=
  killable s inst node && decide ((nodeOf s inst node).rollbacks ≤ rollbacks)

/-- The master's copy of the rollback count decides failure (R139): a partner takes it over. -/
def takeCount (s : State) (inst node rollbacks : Nat) : State :=
  if s.pairMaster then s else modNode s inst node fun n => { n with rollbacks := rollbacks }

/-- A counted ABORT of a run that has been killed here already, and whose mismatch has not been counted: it still raises the count
(R140). -/
def lateMismatch (s : State) (inst node : Nat) (v : PairVerdict) : State :=
  if v.counted && (instOf s inst).isSome && decide ((nodeOf s inst node).judged ≤ v.rollbacks)
      && (getPart s (partOfInst s inst)).state == 1 then
    countMismatch s inst node v.rollbacks id
  else s

/-- PAIR_DECISION_RECEIVED: both packages swap, or both kill, a partner that has no digest of its own yet as well. -/
def execPairDecisionReceived (inst node : Nat) (v : PairVerdict) (s : State) : Out :=
  .next (if s.pairMaster || !isPaired s inst then s
    else if v.commit then (if (digestAge s inst node).isSome then commitNode s inst node else s)
    else if killDue s inst node v.rollbacks then
      let s := takeCount s inst node v.rollbacks
      if v.counted then mismatch s inst node else pairAbort s inst node 0xFF
    else lateMismatch s inst node v)

/-- PAIR_DECISION_TIMEOUT: 100 µs without a decision. -/
def execPairDecisionTimeout (inst node : Nat) (s : State) : Out :=
  match digestAge s inst node with
  | some a =>
    .next (if !s.pairMaster && isPaired s inst && decide (100000 ≤ a) then fence s (partOfInst s inst) (some node) else s)
  | none => .next s

/-- KILL_NOTICE_RECEIVED: the same node is killed; the master sends ABORT for a node that waits for the exchange. -/
def execKillNoticeReceived (inst : Nat) (x : KilledNode) (s : State) : Out :=
  if isPaired s inst && killDue s inst x.node x.rollbacks then
    let s := if s.pairMaster && (digestAge s inst x.node).isSome then sendVerdict s inst x.node false false else s
    .next (pairAbort (takeCount s inst x.node x.rollbacks) inst x.node 0xFF)
  else .next s

/-- FENCE_NOTICE_RECEIVED; the notice names no node. -/
def execFenceNoticeReceived (k : Nat) (s : State) : Out := .next (if (getPart s k).paired then fence s k none else s)

/-! ## Selections and pre-emption decisions (R43, R283) -/

/-- PAIR_SELECTION_RECEIVED: kept, with the node iteration and the ordinal it is tagged with, until the partner's PSW takes it. -/
def execPairSelectionReceived (c : IterTag) (ord : Nat) (e : BitVec 2) (s : State) : Out :=
  .next (if isPaired s c.inst && !s.pairMaster then { s with pairSel := s.pairSel ++ [⟨c, ord, e⟩] } else s)

/-- PAIR_SELECTION_TIMEOUT: 50 µs at a PSW without a selection, or a selection for another ordinal, is a mismatch; the master
learns of the kill by its notice. -/
def execPairSelectionTimeout (c : Nat) (s : State) : Out :=
  let k := getCls s c
  match k.pswAt, teamOf s c with
  | some t, some tm =>
    let other := match selectionFor s c with
      | some x => x.ord != k.ws.ord
      | none => false
    if k.live && (other || decide (50000 ≤ sinceNs s t)) then
      .next (mismatch (modCls s c fun k => { k with pswAt := none }) tm.inst tm.node)
    else .next s
  | _, _ => .next s

/-- PAIR_SAVE_DECISION_RECEIVED: the partner applies the master's decision to its copy of the team. -/
def execPairSaveDecisionReceived (team : Nat) (act : TeamAct) (s : State) : Out :=
  match s.teams.find? fun t => t.id = team with
  | none => .next s
  | some t =>
    .next (if isPaired s t.inst && !s.pairMaster && (t.state == .running || t.state == .decided || t.state == .draining)
      then actOn s t act else s)

/-- PAIR_SAVE_DECISION_TIMEOUT: 50 µs without the master's decision. -/
def execPairSaveDecisionTimeout (team : Nat) (s : State) : Out :=
  match s.teams.find? fun t => t.id = team with
  | none => .next s
  | some t =>
    .next (if t.state = .decided ∧ 50000 ≤ sinceNs s t.decidedAt then fence s (partOfInst s t.inst) (some t.node) else s)

end Sys2Proof.Machine
end

