-- ==== Sys2Proof/Machine/Fabric.lean ====
section
/-!
DEFINITION. Links and routers: K-links (R24-R26), bridge lanes (R29), stairwell routers and routing registers (R143, R144,
R199-R201), remap entries (R189).
-/

namespace Sys2Proof.Machine

/-! ## Links -/

/-- An event for firmware whose code and words the spec does not give (log 42). -/
def reportFw (s : State) (die : Nat) : State :=
  pushEvent (bumpBy s 4) die ((freeNth s 0).toNat % 256) 0xFF ((freeNth s 1).toNat % 256) (freeNth s 2) (freeNth s 3) 0

/-- K_LINK_FLIT_RETRY: the eighth retry in a row takes the link down, which is recorded and reported to firmware. -/
def execKLinkFlitRetry (link : Nat) (s : State) : Out :=
  let x := s.klink.getD link (false, 0)
  if !x.1 || decide (12 ≤ link) then .next s
  else if x.2 + 1 < 8 then .next { s with klink := s.klink.set link (true, x.2 + 1) }
  else
    let s := { s with klink := s.klink.set link (false, 0) }
    let d := BitVec.ofNat 64 link
    let s := reportFw (bbRecord s (link / 6) 0 0x040 0xFF 0xFF 0 d) (link / 6)
    .next (if s.pairPeer.isSome && (link == 5 || link == 11) then bbRecord s (link / 6) 0 0x022 0xFF 0xFF 0 d else s)

/-- LINK_TRAINING: the links come up, their port tables name the far packages; whether the pair links are cabled
straight, which is reported to firmware if not (R26). DESIGN CHOICE (log 62): all twelve links come up whatever the pair cables are,
and a pair that is configured by then stands. -/
def execLinkTraining (straight : Bool) (far : List (BitVec 8)) (s : State) : Out :=
  let t := { s with
    cabling := straight, klink := List.replicate 12 (true, 0)
    farPort := (List.range 12).foldl (fun t l => tset 0 t l (far.getD l 0).toNat) s.farPort }
  .next (if straight then t else reportFw t 0)

/-- BRIDGE_LANE_FAILURE: a spare takes the lane's place, or the direction is degraded. The direction's number is that of the die
whose black box records it (log 31). -/
def execBridgeLaneFailure (dir lane : Nat) (s : State) : Out :=
  if 2 ≤ dir then .next s
  else
    let none_ := s.spare.getD dir 0 == 0
    let s := { s with spare := s.spare.modify dir (· - 1), degraded := if none_ then s.degraded.set dir true else s.degraded }
    .next (bbRecord s dir 0 0x041 0xFF 0xFF 0 (BitVec.ofNat 64 (lane % 256 * 256 + if none_ then 1 else 0)))

/-! ## Stairwell routers -/

/-- A sending is inside the router. -/
def inWell (die r : Nat) (q : Sending) : Bool := q.left.isSome && !q.done && !q.lost && q.wells.contains (die, r)

/-- INFL: packets in flight through a router (R201), of words under way and of those that routers hold. -/
def wellCount (s : State) (die r : Nat) : Nat :=
  (s.cls.map fun k => ((underWay k).map fun f => (f.reqs.filter (inWell die r)).length).sum).sum

/-- SWST of a stairwell (R201). -/
def swst (s : State) (die r : Nat) : W64 := BitVec.ofNat 64 (wellCount s die r % 65536 * 256 + (wellOf s die r).state)

/-- Routing registers that name a router name the other one instead. -/
def routeAround (die r : Nat) (s : State) : State :=
  { s with cls := (s.cls.zipIdx).map fun e =>
      let k := e.1
      if dieOf e.2 ≠ die then k
      else { k with rpri := if k.rpri = r then k.ralt else k.rpri, ralt := if k.ralt = r then k.rpri else k.ralt } }

/-- STAIRWELL_DRAIN: phase 1 of a retirement (R143). What has been sent by now is in flight; later packets take the alternate. -/
def execStairwellDrain (die r : Nat) (s : State) : Out :=
  if (wellOf s die r).state = 0 then
    let s := leaveAll s
    .next (bbRecord (setWell (routeAround die r s) die r ⟨1⟩) die 0 0x030 0xFF 0xFF 0 (BitVec.ofNat 64 r))
  else .next s

/-- STAIRWELL_RETIRE: phase 2, once no packet is in flight through the router. -/
def execStairwellRetire (die r : Nat) (s : State) : Out :=
  if (wellOf s die r).state = 1 ∧ wellCount s die r = 0 then
    .next (bbRecord (setWell s die r ⟨2⟩) die 0 0x031 0xFF 0xFF 0 (BitVec.ofNat 64 r))
  else .next s

/-- Of the requests on a route through the router some are inside it now, and lost; which is free (log 8). -/
def loseIn (die r : Nat) (b : Bool) (f : InFlight) : InFlight :=
  if b then { f with reqs := f.reqs.map fun q => if inWell die r q then { q with lost := true } else q } else f

/-- Every word of a class with a request on its way through the router: its packets are inside it or not. -/
def losePackets (s : State) (die r : Nat) : State :=
  { bumpBy s 64 with cls := (s.cls.zipIdx).map fun e =>
      let b := fun (f : InFlight) => (freeNth s e.2).getLsbD (f.id % 64)
      { e.1 with
        inflight := e.1.inflight.map fun f => loseIn die r (b f) f
        router := e.1.router.map fun x => { x with op := loseIn die r (b x.op) x.op } } }

/-- STAIRWELL_FAILURE: the packets inside are lost, firmware installs the alternate tables (R144). -/
def execStairwellFailure (die r : Nat) (s : State) : Out :=
  if 2 ≤ (wellOf s die r).state then .next s
  else
    let s := routeAround die r (losePackets (leaveAll s) die r)
    .next (bbRecord (setWell s die r ⟨3⟩) die 0 0x032 0xFF 0xFF 0 (BitVec.ofNat 64 r))

/-! ## Writes by firmware -/

/-- RTBL_WRITE: refused where it names a retired or failed stairwell, or none. -/
def execRtblWrite (c pri alt : Nat) (s : State) : Out :=
  let ok := fun (r : Nat) => decide (r < 8) && decide ((wellOf s (dieOf c) r).state < 2)
  .next (if ok pri && ok alt then modCls s c fun k => { k with rpri := pri, ralt := alt } else s)

/-- The class belongs to a partition. -/
def owned (s : State) (c : Nat) : Bool := (List.range 17).any fun k => (partClasses s k).contains c

/-- A tower that comes into use holds no defined data (R182; log 8). -/
def freshTower (s : State) (c phys : Nat) : State :=
  bump (writeBytes s (towerAddr c phys 0) ((List.range (2 ^ 25)).map (Config.freeByte s.tick)))

/-- REMAP_TABLE_WRITE (R182, R189). -/
def execRemapTableWrite (c d phys : Nat) (s : State) : Out :=
  let k := getCls s c
  let spare := phys == 32 || phys == 33
  let taken := spare && (List.range 32).any fun e => e != d && physTower k e == phys
  .next (if 32 ≤ d || !(spare || phys == d) || taken || owned s c then s
    else
      let s := if 40 ≤ c || (towersInUse k).contains phys then s else freshTower s c phys
      modCls s c fun k => { k with remap := if phys = d then tdel k.remap d else tput k.remap d phys })

end Sys2Proof.Machine
end

