-- ==== Sys2Proof/Machine/Fetch.lean ====
section
/-!
DEFINITION. Fetching a word (R172, R325, R350): from the loop buffer, from the fetch line buffers, or a miss; and
placing a word where the next step fetches it.
-/

namespace Sys2Proof.Machine

/-- What the fetch unit delivers to a walker. -/
inductive Fetched where
  | idle
  | miss (va : Nat)
  | word (w : W80)
  deriving DecidableEq, Repr

/-- The entry of a table, if listed. -/
def tfind {α : Type} (t : Tbl α) (k : Nat) : Option α := (t.find? fun e => e.1 = k).map (·.2)

/-- The walker may look at a word now. -/
def walkerMoves (s : State) (c : Nat) (e : Eng) : Bool :=
  let w := walkerOf (getCls s c) e
  decide (c < 40) && runnable s c && !w.parked && (!w.atExit || e == .s || (e == .m && reissues (getCls s c)))

/-- The word at a walker's position. -/
def fetchWord (s : State) (c : Nat) (e : Eng) : Fetched :=
  if !walkerMoves s c e then .idle
  else
    let k := getCls s c
    let w := walkerOf k e
    match (if e = .m then (k.inflight.find? fun f => f.status == .again).bind fun f => encode f.instr else none) with
    | some b => .word b
    | none =>
    match (if w.loops.isEmpty then none else tfind k.loopBuf w.wi) with
    | some b => .word b
    | none =>
      let va := 64 * (w.wi / 6)
      match k.fetchBuf.find? fun l => l.1 = va with
      | some l => .word (lineSlot l.2.2 (w.wi % 6))
      | none => .miss va

/-- The word at a timetable processor's position. -/
def fetchFw (s : State) (d : Nat) : Fetched :=
  let f := (getDie s d).fw
  if !f.running then .idle
  else
    match tfind f.image.words f.wi with
    | some w => .word w
    | none => .idle

/-- The walker a placed word belongs to. -/
def placeEng (w : W80) : Eng :=
  match decode w with
  | .ok i => (owner i).getD .s
  | .error _ => .s

/-- A placed word stands inside a block, unless it is a BLK, which opens one. -/
def placeBlock (w : W80) : Option BlockSig :=
  match decode w with
  | .ok (.blk _ _) => none
  | _ => some ⟨0, 2, 0xFFFF, 0⟩

/-- The words that only firmware frames hold (R337, R458). -/
def firmwareOnly (w : W80) : Bool :=
  match decode w with
  | .ok i => decide (0xF2 ≤ Instr.opcode i) && decide (Instr.opcode i ≤ 0xFA)
  | .error _ => false

/-- Put a word in slot 1 of the line at VA 0 of class 0's fetch line buffers, its walkers before it, the class running, its
owner's walker next to move; a word of firmware at word 1 of the image that die 0's processor runs (log 11). -/
def placeWord (s : State) (w : W80) : State :=
  if firmwareOnly w then
    { modFw s 0 fun f => { f with
        image := { f.image with words := tput f.image.words 1 w }, wi := 1, loops := [], running := true }
      with agenda := [.fw 0] }
  else
    let at1 := fun (x : Walker) => { x with wi := 1, loops := [], parked := false, atExit := false }
    { modCls s 0 fun k =>
        { k with
          fetchBuf := (0, 2 ^ 43, lineOf [nopWord, w, nopWord, nopWord, nopWord, nopWord]) :: (k.fetchBuf.filter fun l => l.1 ≠ 0)
          live := true, hold := none, frozen := false, retire := []
          ws := at1 k.ws, wa := at1 k.wa, wv := at1 k.wv, wm := at1 k.wm, wx := at1 k.wx
          block := placeBlock w }
      with agenda := [.walker 0 (placeEng w)] }

/-- Whose turn it is: the head of the agenda, or the arbiter's choice (log 1). -/
def nextMover (s : State) : Mover × State :=
  match s.agenda with
  | m :: r => (m, { s with agenda := r, tick := s.tick + 1 })
  | [] => (Config.arbiter s.tick, { s with tick := s.tick + 1 })

end Sys2Proof.Machine
end

