-- ==== Sys2Proof/Machine/Service.lean ====
section
/-!
DEFINITION. What firmware is stated to do with the oldest event of its die (R188, R213, R270, R322; log 9).
-/

namespace Sys2Proof.Machine

/-! ## Page faults (R213) -/

/-- A frame of a table that firmware may give to a page: unowned, holding no page, awaited by no
migration, none of firmware's own; frame 0 of H0 never (R207, R208). -/
def frameFree (s : State) (t f : Nat) : Bool :=
  decide (iptEntry s t f = {}) && !(t == 0 && f == 0) && !firmwareFrame s t f && backed s (framePa t f)
    && !s.migs.any fun m => m.table == t && m.dst == f

/-- Map page `vpn` of a partition to a frame: the entry, at the head of its hash chain. Firmware may make it system-atomic where that
is allowed: an HBM frame, E0 the host-coherent upstream port (R21, R234). -/
def mapPage (s : State) (t f part vpn : Nat) (sa : Bool) : State :=
  let h := hashOf part vpn
  let s := setIptEntry s t f { vpn := vpn, part := part, v := true, next := anchorOf s t h
                               sa := sa && saAllowed s f }
  setAnchor s t h f

/-- A frame joins the shadow reserve of a table: it is firmware's (R208, R218). -/
def reserveFrameAdd (s : State) (t f : Nat) : State :=
  let s := setIptEntry s t f { part := 31 }
  { s with ipts := s.ipts.modify t fun p => { p with reserve := p.reserve ++ [f] } }

def clearHalt (s : State) (c : Nat) : State :=
  modCls s c fun k => { k with halt := { k.halt with valid := false } }

/-- The service of a halt. Which frame firmware takes, whether it can back the page or refill the shadow reserve, whether it makes the
page system-atomic, is free (log 8, log 9). -/
def serviceHalt (s : State) (c : Nat) : State :=
  let k := getCls s c
  let x := (freeVal s).toNat
  let s := bump s
  let t := k.halt.table
  let part := partOf s c
  let vpn := k.halt.fva.toNat / 65536
  let f := x / 2 % (hbmFrames + 2 ^ 26)
  let can := x % 2 == 1 && frameFree s t f
  if k.halt.cause = 4 then failOpen s c
  else if k.halt.cause = 3 then if can then clearHalt (reserveFrameAdd s t f) c else failOpen s c
  else
    match walk s t part vpn with
    | .frame _ => clearHalt s c
    | .wait _ => clearHalt s c
    | .halt _ => if can then clearHalt (mapPage s t f part vpn (x.testBit 60)) c else failOpen s c

/-! ## Default rescale (R322) -/

/-- Largest element of the target of a QCVT. -/
def qMt : Instr → Option Nat
  | .qcvtK4 _ _ => some qK4.mt
  | .qcvtE4m3 _ _ => some qE4m3.mt
  | .qcvtE5m2 _ _ => some qE5m2.mt
  | _ => none

/-- With FIX = 1, SEXP ← ceil(log2(m / Mt)) + MARGIN, clamped, by a step equivalent to SRREAD.POL. -/
def rescaleRec (r : Record) (m : W32) (mt : Nat) : Record :=
  if r.policy.getLsbD 29 then
    let e := scaleExp { r with policy := r.policy &&& 0xDFFFFFFF, amax := m } mt
    { r with policy := (r.policy &&& 0xFF00FFFF) ||| (((BitVec.ofInt 8 e).setWidth 32) <<< 16), gen := nextGen r.gen }
  else r

def rescaleDefault (s : State) (c : Nat) : State :=
  match (getCls s c).inflight.find? fun f => f.status == .rescale with
  | none => s
  | some f =>
    let h := ((f.ops.getD 0 0).extractLsb' 0 13).toNat
    match qMt f.instr with
    | some mt => setRec s h (rescaleRec (getRec s h) ((f.ops.getD 1 0).setWidth 32) mt)
    | none => s

/-! ## Refresh-forced (R188) -/

/-- Every refill that forcing on class `c` stopped, on any class, has been re-injected. -/
def refillsGo (s : State) (c : Nat) : Bool :=
  (List.range 40).all fun d => (getCls s d).inflight.all fun f => f.status != .stopped || !(refillClasses f).contains c

/-- What firmware does for a class that waits for the event; none while it must wait itself. -/
def prescribed (s : State) (c : Nat) (e : FwEvent) : Option State :=
  match e.code.toNat with
  | 0x04 => some (returnTrap (rescaleDefault s c) c false)
  | 0x05 => if refillsGo s c then some (returnTrap s c false) else none
  | 0x10 => some (serviceHalt s c)
  | _ => some (failEvent s c e.code.toNat)

/-- The firmware's prescribed service of the oldest event of a die; while a live update is under way events wait (R92). An
event that no class waits for is closed with no effect. -/
def service (s : State) (d : Nat) : State :=
  match (getDie s d).evq with
  | [] => s
  | e :: es =>
    if s.update.started then s
    else
      let t := modDie s d fun x => { x with evq := es }
      if waitsEvent s d e then (prescribed t e.cls.toNat e).getD s else t

end Sys2Proof.Machine
end

