-- ==== Sys2Proof/Machine/Paging.lean ====
section
/-!
DEFINITION. Shoot-downs as a translation port answers them (R214, R215), migration (R216, R217).
-/

namespace Sys2Proof.Machine

/-! ## Shoot-down -/

/-- A shoot-down of a VPN that class `c` has not acknowledged is under way. -/
def shootPending (s : State) (c vpn : Nat) : Bool :=
  (s.dies.any fun d => match d.fw.shoot with
    | some (v, cs, _) => v == vpn && cs.contains c
    | none => false)
  || s.migs.any fun m => m.vpn == vpn && m.pending.contains c

/-- SHOOTDOWN_RECEIPT: the port drops its translations of the page. -/
def execShootdownReceipt (c : Nat) (vpn : BitVec 40) (s : State) : Out :=
  let n := vpn.toNat
  .next (if shootPending s c n then modCls s c fun k =>
      { k with tcache := k.tcache.filter fun e => e.1 % 2 ^ 40 != n
               shootAcks := n :: k.shootAcks.filter (· != n) }
    else s)

/-- A word that was issued with a translation of the page, or took one in a later batch, and has neither completed nor halted. -/
def usesPage (k : ClassState) (vpn : Nat) : Bool :=
  k.inflight.any fun f => f.status != .halted && f.pages.any fun p => p.1 % 2 ^ 40 == vpn

/-- The port holds a translation of the page. -/
def holdsPage (k : ClassState) (vpn : Nat) : Bool := k.tcache.any fun e => e.1 % 2 ^ 40 == vpn

/-- The class has acknowledged a shoot-down. -/
def acknowledge (c vpn : Nat) (s : State) : State :=
  let s := modCls s c fun k => { k with shootAcks := k.shootAcks.filter (· != vpn) }
  { s with
    dies := s.dies.map fun d => match d.fw.shoot with
      | some (v, cs, n) => if v = vpn then { d with fw := { d.fw with shoot := some (v, cs.filter (· != c), n) } } else d
      | none => d
    migs := s.migs.map fun m => if m.vpn = vpn then { m with pending := m.pending.filter (· != c) } else m }

/-- SHOOTDOWN_ACK, whatever the state of the walkers (R214, R215). -/
def execShootdownAck (c : Nat) (vpn : BitVec 40) (s : State) : Out :=
  let n := vpn.toNat
  let k := getCls s c
  .next (if k.shootAcks.contains n && shootPending s c n && !usesPage k n then
      acknowledge c n (if holdsPage k n then modCls s c fun k => { k with tcache := k.tcache.filter fun e => e.1 % 2 ^ 40 != n }
        else s)
    else s)

/-! ## Migration -/

/-- Step 1: MIG is set, the shoot-down goes to every class of the owner; an executable frame is pinned (R206), a system-atomic page
stays in HBM (R234). -/
def migrationStart (s : State) (t src dst : Nat) : State :=
  let e := iptEntry s t src
  if e.v && !e.shd && e.shadow == 0xFFFFFFFF && !e.mig && frameFree s t dst && src != dst
      && !frameExec s e.part (framePa t src) && (!e.sa || decide (dst < hbmFrames)) then
    { setIptEntry s t src { e with mig := true } with migs := s.migs ++ [⟨t, src, dst, e.vpn, partClasses s e.part⟩] }
  else s

/-- Step 3: the destination takes the source's place in its chain by one write of the link that leads to it; the source
is free. -/
def relink (s : State) (t src dst : Nat) : State :=
  let e := iptEntry s t src
  let s := unsealFrame s t src
  let to_ := fun (f : Nat) => if f = src then dst else f
  let s := { s with ipts := s.ipts.modify t fun x =>
    { anchor := x.anchor.map fun a => (a.1, to_ a.2)
      entry := x.entry.map fun a => (a.1, { a.2 with next := to_ a.2.next })
      reserve := x.reserve } }
  let s := setIptEntry s t dst { vpn := e.vpn, part := e.part, v := true, sa := e.sa, next := e.next }
  setIptEntry s t src {}

/-- The end of a migration: an error aborts it, and the sectors newly found bad are poisoned at the source (R217). A page to which a
word that was in flight has given a shadow since is not migrated (R216). -/
def migrationEnd (s : State) (m : Mig) (err : Bool) (bad : List Nat) : State :=
  let s := { s with migs := s.migs.erase m }
  let e := iptEntry s m.table m.src
  let a := framePa m.table m.src
  if !e.v || !e.mig then s
  else if e.shd || e.shadow ≠ 0xFFFFFFFF then setIptEntry s m.table m.src { e with mig := false }
  else if err then
    bad.foldl (fun s j => if (poisonAt s (.phys (a / 64 + j % 1024))).isSome then s
      else recordUnit (setPoison s (.phys (a / 64 + j % 1024)) false) 0x015 (.phys (a / 64 + j % 1024))) (setIptEntry s m.table m.src { e with mig := false })
  else relink (copyFrame s a (framePa m.table m.dst)) m.table m.src m.dst

/-- MIGRATION: it begins, or, once every class has acknowledged, it ends. -/
def execMigration (table src dst : Nat) (err : Bool) (bad : List Nat) (s : State) : Out :=
  .next (match s.migs.find? fun m => m.table = table ∧ m.src = src with
    | none => migrationStart s table src dst
    | some m => if m.dst = dst ∧ m.pending.isEmpty then migrationEnd s m err bad else s)

end Sys2Proof.Machine
end

