-- ==== Sys2Proof/Machine/Scalar.lean ====
section
/-!
DEFINITION. The integer words of the S engine (R351, R354-R358): register operations, immediate operations, constants,
compares, SEL, NOP.
-/

namespace Sys2Proof.Machine

/-- NOP has no effect (R351). -/
def execNop (h : Hdr) (s : State) : Out := runWord (.nop h) (fun s => .done s) s

/-- ADD: s[D] ← a + b (R354). -/
def execAdd (h : Hdr) (f : FSR) (s : State) : Out := srWord (.add h f) f (fun a b => a + b) s

/-- SUB: s[D] ← a - b (R354). -/
def execSub (h : Hdr) (f : FSR) (s : State) : Out := srWord (.sub h f) f (fun a b => a - b) s

/-- MUL: s[D] ← a * b (R354). -/
def execMul (h : Hdr) (f : FSR) (s : State) : Out := srWord (.mul h f) f (fun a b => a * b) s

/-- MULH: s[D] ← mulhS a b (R354). -/
def execMulh (h : Hdr) (f : FSR) (s : State) : Out := srWord (.mulh h f) f (fun a b => mulhS a b) s

/-- MULHU: s[D] ← mulhU a b (R354). -/
def execMulhu (h : Hdr) (f : FSR) (s : State) : Out := srWord (.mulhu h f) f (fun a b => mulhU a b) s

/-- DIV: s[D] ← divS a b (R355). -/
def execDiv (h : Hdr) (f : FSR) (s : State) : Out := srWord (.div h f) f (fun a b => divS a b) s

/-- DIVU: s[D] ← divU a b (R355). -/
def execDivu (h : Hdr) (f : FSR) (s : State) : Out := srWord (.divu h f) f (fun a b => divU a b) s

/-- REM: s[D] ← remS a b (R355). -/
def execRem (h : Hdr) (f : FSR) (s : State) : Out := srWord (.rem h f) f (fun a b => remS a b) s

/-- REMU: s[D] ← remU a b (R355). -/
def execRemu (h : Hdr) (f : FSR) (s : State) : Out := srWord (.remu h f) f (fun a b => remU a b) s

/-- AND: s[D] ← a &&& b (R354). -/
def execAnd (h : Hdr) (f : FSR) (s : State) : Out := srWord (.and h f) f (fun a b => a &&& b) s

/-- OR: s[D] ← a ||| b (R354). -/
def execOr (h : Hdr) (f : FSR) (s : State) : Out := srWord (.or h f) f (fun a b => a ||| b) s

/-- XOR: s[D] ← a ^^^ b (R354). -/
def execXor (h : Hdr) (f : FSR) (s : State) : Out := srWord (.xor h f) f (fun a b => a ^^^ b) s

/-- SHL: s[D] ← shl64 a b (R354). -/
def execShl (h : Hdr) (f : FSR) (s : State) : Out := srWord (.shl h f) f (fun a b => shl64 a b) s

/-- SHR: s[D] ← shr64 a b (R354). -/
def execShr (h : Hdr) (f : FSR) (s : State) : Out := srWord (.shr h f) f (fun a b => shr64 a b) s

/-- SRA: s[D] ← sra64 a b (R354). -/
def execSra (h : Hdr) (f : FSR) (s : State) : Out := srWord (.sra h f) f (fun a b => sra64 a b) s

/-- MIN: s[D] ← minS a b (R354). -/
def execMin (h : Hdr) (f : FSR) (s : State) : Out := srWord (.min h f) f (fun a b => minS a b) s

/-- MAX: s[D] ← maxS a b (R354). -/
def execMax (h : Hdr) (f : FSR) (s : State) : Out := srWord (.max h f) f (fun a b => maxS a b) s

/-- MINU: s[D] ← minU a b (R354). -/
def execMinu (h : Hdr) (f : FSR) (s : State) : Out := srWord (.minu h f) f (fun a b => minU a b) s

/-- MAXU: s[D] ← maxU a b (R354). -/
def execMaxu (h : Hdr) (f : FSR) (s : State) : Out := srWord (.maxu h f) f (fun a b => maxU a b) s

/-- POPC (R354). -/
def execPopc (h : Hdr) (f : FSR) (s : State) : Out := srWord (.popc h f) f (fun a _ => popc64 a) s

/-- CLZ (R354). -/
def execClz (h : Hdr) (f : FSR) (s : State) : Out := srWord (.clz h f) f (fun a _ => clz64 a) s

/-- CTZ (R354). -/
def execCtz (h : Hdr) (f : FSR) (s : State) : Out := srWord (.ctz h f) f (fun a _ => ctz64 a) s

/-- ADDI (R356). -/
def execAddi (h : Hdr) (f : FSI) (s : State) : Out := siWord (.addi h f) f (fun a => a + imms f.imm) s

/-- MULI (R356). -/
def execMuli (h : Hdr) (f : FSI) (s : State) : Out := siWord (.muli h f) f (fun a => a * imms f.imm) s

/-- ANDI (R356). -/
def execAndi (h : Hdr) (f : FSI) (s : State) : Out := siWord (.andi h f) f (fun a => a &&& immz f.imm) s

/-- ORI (R356). -/
def execOri (h : Hdr) (f : FSI) (s : State) : Out := siWord (.ori h f) f (fun a => a ||| immz f.imm) s

/-- XORI (R356). -/
def execXori (h : Hdr) (f : FSI) (s : State) : Out := siWord (.xori h f) f (fun a => a ^^^ immz f.imm) s

/-- SHLI (R356). -/
def execShli (h : Hdr) (f : FSI) (s : State) : Out := siWord (.shli h f) f (fun a => a <<< f.imm.toNat) s

/-- SHRI (R356). -/
def execShri (h : Hdr) (f : FSI) (s : State) : Out := siWord (.shri h f) f (fun a => a >>> f.imm.toNat) s

/-- SRAI (R356). -/
def execSrai (h : Hdr) (f : FSI) (s : State) : Out := siWord (.srai h f) f (fun a => a.sshiftRight f.imm.toNat) s

/-- LI: s[D] ← sext(IMM40) (R357). -/
def execLi (h : Hdr) (f : FSL) (s : State) : Out :=
  runWord (.li h f) (fun s => .done (sset s f.d (f.imm.signExtend 64))) s

/-- LIH: bits [63:40] of s[D] replaced (R357). -/
def execLih (h : Hdr) (f : FSL) (s : State) : Out :=
  runWord (.lih h f) (fun s => .done (sset s f.d (lihVal f.imm (sget s f.d)))) s

/-- CMPEQ (R358). -/
def execCmpeq (h : Hdr) (f : FSR) (s : State) : Out := srWord (.cmpeq h f) f (fun a b => flag64 (a == b)) s

/-- CMPNE (R358). -/
def execCmpne (h : Hdr) (f : FSR) (s : State) : Out := srWord (.cmpne h f) f (fun a b => flag64 (a != b)) s

/-- CMPLT (R358). -/
def execCmplt (h : Hdr) (f : FSR) (s : State) : Out := srWord (.cmplt h f) f (fun a b => flag64 (a.slt b)) s

/-- CMPLTU (R358). -/
def execCmpltu (h : Hdr) (f : FSR) (s : State) : Out := srWord (.cmpltu h f) f (fun a b => flag64 (a.ult b)) s

/-- CMPLE (R358). -/
def execCmple (h : Hdr) (f : FSR) (s : State) : Out := srWord (.cmple h f) f (fun a b => flag64 (a.sle b)) s

/-- CMPLEU (R358). -/
def execCmpleu (h : Hdr) (f : FSR) (s : State) : Out := srWord (.cmpleu h f) f (fun a b => flag64 (a.ule b)) s

/-- CMPEQI (R358). -/
def execCmpeqi (h : Hdr) (f : FSI) (s : State) : Out := siWord (.cmpeqi h f) f (fun a => flag64 (a == imms f.imm)) s

/-- CMPLTI (R358). -/
def execCmplti (h : Hdr) (f : FSI) (s : State) : Out := siWord (.cmplti h f) f (fun a => flag64 (a.slt (imms f.imm))) s

/-- SEL: s[D] ← s[A] if s[C] ≠ 0, else s[B] (R358). -/
def execSel (h : Hdr) (f : FSR) (s : State) : Out :=
  runWord (.sel h f) (fun s => .done (sset s f.d (if sget s f.c ≠ 0 then sget s f.a else sget s f.b))) s

end Sys2Proof.Machine
end

