-- ==== Sys2Proof/Machine/Spdm.lean ====
section
/-!
DEFINITION. The SPDM 1.3 responder over DOE (R89, R90): the order of its messages, digests, certificates, challenge,
measurements, secure sessions. Response codes are SPDM's (log 28).
-/

namespace Sys2Proof.Machine

/-- A response. -/
def respond (s : State) (code : Nat) (data : List Byte) : State := send s (.doe code data)
/-- ERROR: a message out of order, or one that names what is not supported. -/
def spdmError (s : State) : State := respond s 0x7F []

/-- Answer if `ok`. -/
def answer (ok : Bool) (s : State) (code : Nat) (data : List Byte) : Out := .next (if ok then respond s code data else spdmError s)

/-- Version, capabilities and algorithms are agreed. -/
def agreed (s : State) : Bool := decide (3 ≤ s.spdm.stage)

/-- GET_VERSION begins a connection anew. -/
def execGetVersion (s : State) : Out :=
  .next (respond { s with spdm := { stage := 1, nextSession := s.spdm.nextSession } } 0x04 [0x13])

def execGetCapabilities (s : State) : Out :=
  if s.spdm.stage = 1 then .next (respond { s with spdm := { s.spdm with stage := 2 } } 0x61 [])
  else .next (spdmError s)

/-- NEGOTIATE_ALGORITHMS: the requester offers the four that the device has. -/
def execNegotiateAlgorithms (rsassa3072 sha256 ffdhe3072 aes256gcm : Bool) (s : State) : Out :=
  if s.spdm.stage = 2 && rsassa3072 && sha256 && ffdhe3072 && aes256gcm
  then .next (respond { s with spdm := { s.spdm with stage := 3 } } 0x63 [])
  else .next (spdmError s)

def execGetDigests (s : State) : Out := answer (agreed s) s 0x01 (digestBytes (sha256 Config.certChain))

/-- GET_CERTIFICATE: slot 0 only. -/
def execGetCertificate (slot off len : Nat) (s : State) : Out :=
  answer (agreed s && slot == 0) s 0x02 ((Config.certChain.drop off).take len)

/-- CHALLENGE: signed with the identity key. -/
def execChallenge (slot : Nat) (nonce : BitVec 256) (s : State) : Out :=
  let d := digestBytes (sha256 Config.certChain)
  answer (agreed s && slot == 0) s 0x03 (d ++ Config.signature (digestBytes nonce ++ d))

/-- The measurements that an index names: 0xFF all, 0 their number. -/
def measuredValues (s : State) (index : Nat) : List Byte :=
  if index = 0 then [8]
  else if index = 0xFF then s.meas.flatMap digestBytes
  else digestBytes (s.meas.getD (index - 1) 0)

def execGetMeasurements (index : Nat) (signed : Bool) (nonce : BitVec 256) (s : State) : Out :=
  let d := measuredValues s index
  answer (agreed s && (decide (index ≤ 8) || index == 0xFF)) s 0x60
    (if signed then d ++ Config.signature (digestBytes nonce ++ d) else d)

/-- KEY_EXCHANGE opens a session; one at a time (log 28). -/
def execKeyExchange (slot : Nat) (pub : Nat) (s : State) : Out :=
  if agreed s && slot == 0 && s.spdm.session.isNone then
    let id := s.spdm.nextSession
    let d := Config.exchangeKey id pub
    .next (respond { s with spdm := { s.spdm with session := some id, established := false, nextSession := id + 1 } } 0x64
      (d ++ Config.signature d))
  else .next (spdmError s)

/-- FINISH: the requester's verification data complete the handshake. -/
def execFinish (session : Nat) (mac : BitVec 256) (s : State) : Out :=
  if s.spdm.session = some session ∧ !s.spdm.established ∧ mac = Config.sessionMac session then
    .next (respond { s with spdm := { s.spdm with established := true } } 0x65 [])
  else .next (spdmError s)

def execHeartbeat (session : Nat) (s : State) : Out :=
  answer (s.spdm.session == some session && s.spdm.established) s 0x68 []

def execEndSession (session : Nat) (s : State) : Out :=
  if s.spdm.session = some session ∧ s.spdm.established then
    .next (respond { s with spdm := { s.spdm with session := none, established := false } } 0x6C [])
  else .next (spdmError s)

end Sys2Proof.Machine
end

