-- ==== Sys2Proof/Machine/Vector.lean ====
section
/-!
DEFINITION. The V words that compute (R399-R413). Operations of one lane come first: on codes of the type, giving the
result's code and flags.
-/

namespace Sys2Proof.Machine

/-! ## Lane operations -/

/-- An arithmetic word's lane (R400): the floating operation under RM, or the integer operation mod 2^s. -/
def arith (f : FVR) (x : Desk) (i : Nat) (fF : Fmt → Rnd → Nat × Fl) (iI : Int) : Nat × Fl :=
  if tyF f.ty then fF (fmtOf f.ty) (x.rnd f.rm i) else (intCode (elemBits f.ty) iI, 0)

/-- Operands of lane `i`. -/
def opA (f : FVR) (x : Desk) (i : Nat) : Nat := elem (elemBits f.ty) (x.v f.va) i
def opB (f : FVR) (x : Desk) (i : Nat) : Nat := elem (elemBits f.ty) (x.v f.vb) i
def opC (f : FVR) (x : Desk) (i : Nat) : Nat := elem (elemBits f.ty) (x.v f.vc) i
/-- The queue element as operand of every lane (R401). -/
def opQ (f : FVR) (q : Nat) : Nat := q % 2 ^ elemBits f.ty

def laneAdd (f : FVR) (x : Desk) (i a b : Nat) : Nat × Fl :=
  arith f x i (fun t md => fAdd t md (valOf t a) (valOf t b)) (intOf f.ty a + intOf f.ty b)
def laneSub (f : FVR) (x : Desk) (i a b : Nat) : Nat × Fl :=
  arith f x i (fun t md => fAdd t md (valOf t a) (valOf t b).negate) (intOf f.ty a - intOf f.ty b)
def laneMul (f : FVR) (x : Desk) (i a b : Nat) : Nat × Fl :=
  arith f x i (fun t md => fMul t md (valOf t a) (valOf t b)) (intOf f.ty a * intOf f.ty b)
def laneFma (f : FVR) (x : Desk) (i a b c : Nat) : Nat × Fl :=
  arith f x i (fun t md => fMulAdd t md false (valOf t a) (valOf t b) (valOf t c))
    (intOf f.ty a * intOf f.ty b + intOf f.ty c)
def laneFnma (f : FVR) (x : Desk) (i a b c : Nat) : Nat × Fl :=
  arith f x i (fun t md => fMulAdd t md true (valOf t a) (valOf t b) (valOf t c))
    (intOf f.ty c - intOf f.ty a * intOf f.ty b)
def laneMin (f : FVR) (x : Desk) (i a b : Nat) : Nat × Fl :=
  arith f x i (fun t _ => fMinMax t false a b) (min (intOf f.ty a) (intOf f.ty b))
def laneMax (f : FVR) (x : Desk) (i a b : Nat) : Nat × Fl :=
  arith f x i (fun t _ => fMinMax t true a b) (max (intOf f.ty a) (intOf f.ty b))
def laneAbs (f : FVR) (x : Desk) (i a : Nat) : Nat × Fl :=
  arith f x i (fun t _ => fAbs t a) (intOf f.ty a).natAbs
def laneNeg (f : FVR) (x : Desk) (i a : Nat) : Nat × Fl :=
  arith f x i (fun t _ => fNeg t a) (-(intOf f.ty a))
/-- Clamped to the type's range; SAT is not set (R400). -/
def laneSat (f : FVR) (v : Int) : Nat × Fl := (intCode (elemBits f.ty) (clampInt f.ty v), 0)
/-- Bits [2s − 1 : s] of the exact product. -/
def laneMulh (f : FVR) (a b : Nat) : Nat × Fl :=
  (intCode (elemBits f.ty) (intOf f.ty a * intOf f.ty b / (2 ^ elemBits f.ty : Nat)), 0)

/-- Shift amounts (R402): u(b) mod s. -/
def laneShl (f : FVR) (a n : Nat) : Nat × Fl := (a * 2 ^ n % 2 ^ elemBits f.ty, 0)
def laneShr (a n : Nat) : Nat × Fl := (a / 2 ^ n, 0)
/-- Toward −∞; an unsigned type shifts in zeros. -/
def laneSra (f : FVR) (a n : Nat) : Nat × Fl := (intCode (elemBits f.ty) (intOf f.ty a / (2 ^ n : Nat)), 0)

/-! ## Element-wise arithmetic (R400), with its queue forms (R401) -/

/-- VADD: a + b. -/
def execVadd (h : Hdr) (f : FVR) (s : State) : Out :=
  laneWord (.vadd h f) f (elemBits f.ty) [f.va, f.vb] (fun x i => laneAdd f x i (opA f x i) (opB f x i)) s

/-- VSUB: a − b. -/
def execVsub (h : Hdr) (f : FVR) (s : State) : Out :=
  laneWord (.vsub h f) f (elemBits f.ty) [f.va, f.vb] (fun x i => laneSub f x i (opA f x i) (opB f x i)) s

/-- VMUL: a · b. -/
def execVmul (h : Hdr) (f : FVR) (s : State) : Out :=
  laneWord (.vmul h f) f (elemBits f.ty) [f.va, f.vb] (fun x i => laneMul f x i (opA f x i) (opB f x i)) s

/-- VFMA: a · b + c, rounded once. -/
def execVfma (h : Hdr) (f : FVR) (s : State) : Out :=
  laneWord (.vfma h f) f (elemBits f.ty) [f.va, f.vb, f.vc] (fun x i => laneFma f x i (opA f x i) (opB f x i) (opC f x i)) s

/-- VFNMA: −(a · b) + c, rounded once. -/
def execVfnma (h : Hdr) (f : FVR) (s : State) : Out :=
  laneWord (.vfnma h f) f (elemBits f.ty) [f.va, f.vb, f.vc] (fun x i => laneFnma f x i (opA f x i) (opB f x i) (opC f x i)) s

/-- VMIN. -/
def execVmin (h : Hdr) (f : FVR) (s : State) : Out :=
  laneWord (.vmin h f) f (elemBits f.ty) [f.va, f.vb] (fun x i => laneMin f x i (opA f x i) (opB f x i)) s

/-- VMAX. -/
def execVmax (h : Hdr) (f : FVR) (s : State) : Out :=
  laneWord (.vmax h f) f (elemBits f.ty) [f.va, f.vb] (fun x i => laneMax f x i (opA f x i) (opB f x i)) s

/-- VABS. -/
def execVabs (h : Hdr) (f : FVR) (s : State) : Out :=
  laneWord (.vabs h f) f (elemBits f.ty) [f.va] (fun x i => laneAbs f x i (opA f x i)) s

/-- VNEG. -/
def execVneg (h : Hdr) (f : FVR) (s : State) : Out :=
  laneWord (.vneg h f) f (elemBits f.ty) [f.va] (fun x i => laneNeg f x i (opA f x i)) s

/-- VADDSAT. -/
def execVaddsat (h : Hdr) (f : FVR) (s : State) : Out :=
  laneWord (.vaddsat h f) f (elemBits f.ty) [f.va, f.vb] (fun x i => laneSat f (intOf f.ty (opA f x i) + intOf f.ty (opB f x i))) s

/-- VSUBSAT. -/
def execVsubsat (h : Hdr) (f : FVR) (s : State) : Out :=
  laneWord (.vsubsat h f) f (elemBits f.ty) [f.va, f.vb] (fun x i => laneSat f (intOf f.ty (opA f x i) - intOf f.ty (opB f x i))) s

/-- VMULH. -/
def execVmulh (h : Hdr) (f : FVR) (s : State) : Out :=
  laneWord (.vmulh h f) f (elemBits f.ty) [f.va, f.vb] (fun x i => laneMulh f (opA f x i) (opB f x i)) s

/-- VADD.Q. -/
def execVaddQ (h : Hdr) (f : FVR) (s : State) : Out :=
  laneWordQ (.vaddQ h f) f (elemBits f.ty) [f.va] (fun q x i => laneAdd f x i (opA f x i) (opQ f q)) s

/-- VSUB.Q. -/
def execVsubQ (h : Hdr) (f : FVR) (s : State) : Out :=
  laneWordQ (.vsubQ h f) f (elemBits f.ty) [f.va] (fun q x i => laneSub f x i (opA f x i) (opQ f q)) s

/-- VMUL.Q. -/
def execVmulQ (h : Hdr) (f : FVR) (s : State) : Out :=
  laneWordQ (.vmulQ h f) f (elemBits f.ty) [f.va] (fun q x i => laneMul f x i (opA f x i) (opQ f q)) s

/-- VFMA.Q: a · q + c. -/
def execVfmaQ (h : Hdr) (f : FVR) (s : State) : Out :=
  laneWordQ (.vfmaQ h f) f (elemBits f.ty) [f.va, f.vc] (fun q x i => laneFma f x i (opA f x i) (opQ f q) (opC f x i)) s

/-- VMIN.Q. -/
def execVminQ (h : Hdr) (f : FVR) (s : State) : Out :=
  laneWordQ (.vminQ h f) f (elemBits f.ty) [f.va] (fun q x i => laneMin f x i (opA f x i) (opQ f q)) s

/-- VMAX.Q. -/
def execVmaxQ (h : Hdr) (f : FVR) (s : State) : Out :=
  laneWordQ (.vmaxQ h f) f (elemBits f.ty) [f.va] (fun q x i => laneMax f x i (opA f x i) (opQ f q)) s

/-! ## Logic, shifts, bit counts (R402) -/

/-- VAND. -/
def execVand (h : Hdr) (f : FVR) (s : State) : Out :=
  laneWord (.vand h f) f (elemBits f.ty) [f.va, f.vb] (fun x i => ((opA f x i) &&& (opB f x i), 0)) s

/-- VOR. -/
def execVor (h : Hdr) (f : FVR) (s : State) : Out :=
  laneWord (.vor h f) f (elemBits f.ty) [f.va, f.vb] (fun x i => ((opA f x i) ||| (opB f x i), 0)) s

/-- VXOR. -/
def execVxor (h : Hdr) (f : FVR) (s : State) : Out :=
  laneWord (.vxor h f) f (elemBits f.ty) [f.va, f.vb] (fun x i => ((opA f x i) ^^^ (opB f x i), 0)) s

/-- VAND.Q. -/
def execVandQ (h : Hdr) (f : FVR) (s : State) : Out :=
  laneWordQ (.vandQ h f) f (elemBits f.ty) [f.va] (fun q x i => ((opA f x i) &&& (opQ f q), 0)) s

/-- VOR.Q. -/
def execVorQ (h : Hdr) (f : FVR) (s : State) : Out :=
  laneWordQ (.vorQ h f) f (elemBits f.ty) [f.va] (fun q x i => ((opA f x i) ||| (opQ f q), 0)) s

/-- VXOR.Q. -/
def execVxorQ (h : Hdr) (f : FVR) (s : State) : Out :=
  laneWordQ (.vxorQ h f) f (elemBits f.ty) [f.va] (fun q x i => ((opA f x i) ^^^ (opQ f q), 0)) s

/-- VNOT. -/
def execVnot (h : Hdr) (f : FVR) (s : State) : Out :=
  laneWord (.vnot h f) f (elemBits f.ty) [f.va] (fun x i => (2 ^ elemBits f.ty - 1 - (opA f x i), 0)) s

/-- VPOPC. -/
def execVpopc (h : Hdr) (f : FVR) (s : State) : Out :=
  laneWord (.vpopc h f) f (elemBits f.ty) [f.va] (fun x i => (popNat (elemBits f.ty) (opA f x i), 0)) s

/-- VCLZ. -/
def execVclz (h : Hdr) (f : FVR) (s : State) : Out :=
  laneWord (.vclz h f) f (elemBits f.ty) [f.va] (fun x i => (clzNat (elemBits f.ty) (opA f x i), 0)) s

/-- VSHL. -/
def execVshl (h : Hdr) (f : FVR) (s : State) : Out :=
  laneWord (.vshl h f) f (elemBits f.ty) [f.va, f.vb] (fun x i => laneShl f (opA f x i) ((opB f x i) % elemBits f.ty)) s

/-- VSHR. -/
def execVshr (h : Hdr) (f : FVR) (s : State) : Out :=
  laneWord (.vshr h f) f (elemBits f.ty) [f.va, f.vb] (fun x i => laneShr (opA f x i) ((opB f x i) % elemBits f.ty)) s

/-- VSRA. -/
def execVsra (h : Hdr) (f : FVR) (s : State) : Out :=
  laneWord (.vsra h f) f (elemBits f.ty) [f.va, f.vb] (fun x i => laneSra f (opA f x i) ((opB f x i) % elemBits f.ty)) s

/-- VSHLI: the amount is AUX. -/
def execVshli (h : Hdr) (f : FVR) (s : State) : Out :=
  laneWord (.vshli h f) f (elemBits f.ty) [f.va] (fun x i => laneShl f (opA f x i) f.aux.toNat) s

/-- VSHRI. -/
def execVshri (h : Hdr) (f : FVR) (s : State) : Out :=
  laneWord (.vshri h f) f (elemBits f.ty) [f.va] (fun x i => laneShr (opA f x i) f.aux.toNat) s

/-- VSRAI. -/
def execVsrai (h : Hdr) (f : FVR) (s : State) : Out :=
  laneWord (.vsrai h f) f (elemBits f.ty) [f.va] (fun x i => laneSra f (opA f x i) f.aux.toNat) s

/-! ## Compares and mask logic (R403, R404) -/

inductive Cmp where
  | eq | ne | lt | le | un
  deriving DecidableEq, Repr

/-- a < b or a = b of values that are no NaN. -/
def valEq (a b : Val) : Bool := valLe a b && valLe b a

/-- One lane's compare and its flags. -/
def cmpLane (t : BitVec 5) (p : Cmp) (a b : Nat) : Bool × Fl :=
  if tyF t then
    let x := valOf (fmtOf t) a
    let y := valOf (fmtOf t) b
    let nan := x.isNan || y.isNan
    match p with
    | .eq => (!nan && valEq x y, sigFl [x, y])
    | .ne => (nan || !valEq x y, sigFl [x, y])
    | .lt => (!nan && !valLe y x, flIf nan flIv)
    | .le => (!nan && valLe x y, flIf nan flIv)
    | .un => (nan, sigFl [x, y])
  else
    let x := intOf t a
    let y := intOf t b
    (match p with
      | .eq => x == y
      | .ne => x != y
      | .lt => decide (x < y)
      | .le => decide (x ≤ y)
      | .un => false, 0)

/-- Bits of a compare's mask: active bits from the compare, inactive ones within VL kept or zeroed, bits beyond VL kept,
bits past the last element zero. -/
def cmpOut (f : FVR) (p : Cmp) (b : Nat → Nat) (x : Desk) : DeskOut :=
  let w := elemBits f.ty
  let n := 4096 / w
  let m := x.mask f.k
  let old := kGet x.k x.d (f.vd.toNat % 8)
  let r := (List.range n).foldr (fun i r =>
    if !x.within w i then (old.testBit i :: r.1, r.2)
    else if m.testBit i then
      let y := cmpLane f.ty p (opA f x i) (b i)
      (y.1 :: r.1, y.2 ||| r.2)
    else ((!f.kz && old.testBit i) :: r.1, r.2)) (([] : List Bool), (0 : Fl))
  let v := packElems 1 (r.1.map Bool.toNat)
  let whole := (List.range 2).filter fun u => (List.range 512).all fun j =>
    decide (n ≤ u * 512 + j) || (x.within w (u * 512 + j) && m.testBit (u * 512 + j))
  { k := [⟨f.vd.toNat % 8, v, whole⟩], fl := r.2 }

def cmpUses (f : FVR) (srcs : List (BitVec 6)) (x : Desk) : List PUnit :=
  let w := elemBits f.ty
  let a := x.actives w (4096 / w) f.k
  srcs.flatMap (fun r => x.vUses w r.toNat a) ++ x.kUses f.k a

def cmpWord (i : Instr) (f : FVR) (p : Cmp) (s : State) : Out :=
  runWord i (vecBody i (fun x => cmpOut f p (fun j => opB f x j) x) (cmpUses f [f.va, f.vb])) s
def cmpWordQ (i : Instr) (f : FVR) (p : Cmp) (s : State) : Out :=
  runWord i (queueBody i (fun q x => cmpOut f p (fun _ => opQ f q) x) (cmpUses f [f.va])) s

def execVcmpeq (h : Hdr) (f : FVR) (s : State) : Out := cmpWord (.vcmpeq h f) f .eq s
def execVcmpne (h : Hdr) (f : FVR) (s : State) : Out := cmpWord (.vcmpne h f) f .ne s
def execVcmplt (h : Hdr) (f : FVR) (s : State) : Out := cmpWord (.vcmplt h f) f .lt s
def execVcmple (h : Hdr) (f : FVR) (s : State) : Out := cmpWord (.vcmple h f) f .le s
def execVcmpun (h : Hdr) (f : FVR) (s : State) : Out := cmpWord (.vcmpun h f) f .un s
def execVcmpeqQ (h : Hdr) (f : FVR) (s : State) : Out := cmpWordQ (.vcmpeqQ h f) f .eq s
def execVcmpltQ (h : Hdr) (f : FVR) (s : State) : Out := cmpWordQ (.vcmpltQ h f) f .lt s
def execVcmpleQ (h : Hdr) (f : FVR) (s : State) : Out := cmpWordQ (.vcmpleQ h f) f .le s

/-- A mask-logic word acts on all 1,024 bits (R404). -/
def maskWord (i : Instr) (f : FVR) (srcs : List (BitVec 6)) (g : Nat → Nat → Nat) (s : State) : Out :=
  let r := fun (x : Desk) (v : BitVec 6) => kGet x.k x.d (v.toNat % 8)
  runWord i (vecBody i
    (fun x => { k := [⟨f.vd.toNat % 8, g (r x f.va) (r x f.vb) % 2 ^ 1024, [0, 1]⟩] })
    fun x => srcs.flatMap fun v => (List.range 2).map fun u => .mask x.c x.d (v.toNat % 8) u) s

/-- NOT of 1,024 bits. -/
def knot (v : Nat) : Nat := 2 ^ 1024 - 1 - v

def execKand (h : Hdr) (f : FVR) (s : State) : Out := maskWord (.kand h f) f [f.va, f.vb] (fun a b => a &&& b) s
def execKor (h : Hdr) (f : FVR) (s : State) : Out := maskWord (.kor h f) f [f.va, f.vb] (fun a b => a ||| b) s
def execKxor (h : Hdr) (f : FVR) (s : State) : Out := maskWord (.kxor h f) f [f.va, f.vb] (fun a b => a ^^^ b) s
def execKandn (h : Hdr) (f : FVR) (s : State) : Out := maskWord (.kandn h f) f [f.va, f.vb] (fun a b => a &&& knot b) s
def execKnot (h : Hdr) (f : FVR) (s : State) : Out := maskWord (.knot h f) f [f.va] (fun a _ => knot a) s

/-- KSET: ones for the elements of TYPE within VL. -/
def execKset (h : Hdr) (f : FVR) (s : State) : Out :=
  let i := Instr.kset h f
  runWord i (vecBody i
    (fun x =>
      let b := elemBits f.ty
      let n := ((List.range (4096 / b)).filter (x.within b)).length
      { k := [⟨f.vd.toNat % 8, 2 ^ n - 1, [0, 1]⟩] })
    fun _ => []) s

/-! ## Select, move, permute (R405, R406) -/

/-- VSEL: every element within VL is written, from a or b by the mask bit. -/
def execVsel (h : Hdr) (f : FVR) (s : State) : Out :=
  let i := Instr.vsel h f
  let b := elemBits f.ty
  let n := 4096 / b
  runWord i (vecBody i
    (fun x =>
      let m := x.mask f.k
      let r := ((elems b n (x.v f.vd)).zipIdx).map fun e =>
        if !x.within b e.2 then e.1 else if m.testBit e.2 then opA f x e.2 else opB f x e.2
      { v := [⟨f.vd.toNat, packElems b r, wholeUnits b n fun j => x.within b j⟩] })
    fun x =>
      let a := (List.range n).filter fun j => x.within b j
      let m := x.mask f.k
      x.vUses b f.va.toNat (a.filter fun j => m.testBit j) ++ x.vUses b f.vb.toNat (a.filter fun j => !m.testBit j)
        ++ x.kUses f.k a) s

/-- VMOV. -/
def execVmov (h : Hdr) (f : FVR) (s : State) : Out :=
  laneWord (.vmov h f) f (elemBits f.ty) [f.va] (fun x i => ((opA f x i), 0)) s

/-- A word whose active elements come from elements of va and vb that `pick` names: register and element. -/
def permWord (i : Instr) (f : FVR) (pick : Desk → Nat → BitVec 6 × Nat) (more : List (BitVec 6)) (s : State) : Out :=
  let b := elemBits f.ty
  runWord i (vecBody i
    (fun x => laneOut x b f fun j => let p := pick x j; (elem b (x.v p.1) p.2, 0))
    fun x =>
      let a := x.actives b (4096 / b) f.k
      (a.flatMap fun j => let p := pick x j; x.vUses b p.1.toNat [p.2]).dedup
        ++ more.flatMap (fun r => x.vUses b r.toNat a) ++ x.kUses f.k a) s

/-- VSPLAT: element AUX of a. -/
def execVsplat (h : Hdr) (f : FVR) (s : State) : Out := permWord (.vsplat h f) f (fun _ _ => (f.va, f.aux.toNat)) [] s

/-- VPERM: an element of a that b names. -/
def execVperm (h : Hdr) (f : FVR) (s : State) : Out :=
  let n := elemCount f.ty
  permWord (.vperm h f) f (fun x j =>
    (f.va, if elemBits f.ty = 8 then 256 * (j / 256) + opB f x j else opB f x j % n)) [f.vb] s

def execVslideup (h : Hdr) (f : FVR) (s : State) : Out :=
  let n := elemCount f.ty
  let m := f.aux.toNat
  permWord (.vslideup h f) f (fun _ j => if m ≤ j then (f.va, j - m) else (f.vb, n - m + j)) [] s

def execVslidedn (h : Hdr) (f : FVR) (s : State) : Out :=
  let n := elemCount f.ty
  let m := f.aux.toNat
  permWord (.vslidedn h f) f (fun _ j => if j + m < n then (f.va, j + m) else (f.vb, j + m - n)) [] s

/-- VMOVI: the immediate in every element within VL. -/
def execVmovi (h : Hdr) (f : FVI) (s : State) : Out :=
  let i := Instr.vmovi h f
  let b := elemBits f.ty
  let n := 4096 / b
  runWord i (vecBody i
    (fun x =>
      let r := ((elems b n (x.v f.vd)).zipIdx).map fun e => if x.within b e.2 then f.imm.toNat else e.1
      { v := [⟨f.vd.toNat, packElems b r, wholeUnits b n fun j => x.within b j⟩] })
    fun _ => []) s

/-- VQBC: the queue element in every active element. -/
def execVqbc (h : Hdr) (f : FVR) (s : State) : Out :=
  laneWordQ (.vqbc h f) f (elemBits f.ty) [] (fun q _ _ => (opQ f q, 0)) s

/-! ## Conversions (R407, R408) -/

/-- One element converted (R301-R303). -/
def convert (f : FVR) (md : Rnd) (w : Nat) : Nat × Fl :=
  let d := f.ty
  let t := f.aux.extractLsb' 0 5
  let fp := fun (t : BitVec 5) => tyF t || tyFp8 t
  if fp t then
    if fp d then roundVal (fmtOf d) (if tyFp8 d && !f.oc then .sat else .ieee) md (valOf (fmtOf t) w)
    else toInt d md (valOf (fmtOf t) w)
  else if fp d then roundVal (fmtOf d) .ieee md (intVal (intOf t w))
  else satInt d (intOf t w)

/-- A VCVT between element types. -/
def cvtOut (f : FVR) (x : Desk) : DeskOut :=
  let t := f.aux.extractLsb' 0 5
  let seg := (f.aux.extractLsb' 5 3).toNat
  let bs := elemBits t
  let bd := elemBits f.ty
  let n := 4096 / max bs bd
  let m := x.mask f.k
  let src := fun (i : Nat) => if bs < bd then seg * n + i else i
  let first := if bd < bs then seg * n else 0
  -- what becomes of destination element j
  let dst := fun (j : Nat) => first ≤ j && decide (j < first + n)
  let r := ((elems bd (4096 / bd) (x.v f.vd)).zipIdx).foldr (fun e r =>
    if !dst e.2 then (e.1 :: r.1, r.2)
    else
      let q := src (e.2 - first)
      if !x.within bs q then (e.1 :: r.1, r.2)
      else if m.testBit q then
        let y := convert f (x.rnd f.rm e.2) (elem bs (x.v f.va) q)
        (y.1 :: r.1, y.2 ||| r.2)
      else ((if f.kz then 0 else e.1) :: r.1, r.2)) (([] : List Nat), (0 : Fl))
  { v := [⟨f.vd.toNat, packElems bd r.1, wholeUnits bd (4096 / bd) fun j =>
      dst j && x.within bs (src (j - first)) && m.testBit (src (j - first))⟩], fl := r.2 }

/-- Source elements that a VCVT between element types converts. -/
def cvtSrc (f : FVR) (x : Desk) : List Nat :=
  let bs := elemBits (f.aux.extractLsb' 0 5)
  let bd := elemBits f.ty
  let n := 4096 / max bs bd
  let seg := (f.aux.extractLsb' 5 3).toNat
  let m := x.mask f.k
  ((List.range n).map fun i => if bs < bd then seg * n + i else i).filter fun q => x.within bs q && m.testBit q

/-- Elements in a block (R287, R291). -/
def blockSize (t : BitVec 5) : Nat := if t = 13 then 8 else 32
/-- Scale bytes of a whole register pair (R290, R291). -/
def scaleArea (t : BitVec 5) : Nat := if t = 13 then 128 else if t = 16 then 32 else 16

/-- A VCVT to K4 or MX: the blocks of its segment whose first source element is within VL. -/
def toBlockOut (f : FVR) (x : Desk) : DeskOut :=
  let seg := (f.aux.extractLsb' 5 3).toNat
  let bd := elemBits f.ty
  let n := 128
  let z := blockSize f.ty
  let g := valOf fBf16 (x.v f.vb % 65536)
  let old := elems bd (4096 / bd) (x.v f.vd)
  let oldS := elems 8 512 (x.vn (f.vd.toNat + 1))
  let area := scaleArea f.ty
  let r := (List.range (n / z)).foldl (fun (r : List Nat × List Nat × Fl) b =>
    if !x.within 32 (b * z) then r
    else
      let vs := (List.range z).map fun j =>
        (valOf fF32 (elem 32 (x.v f.va) (b * z + j)), x.rnd f.rm (seg * n + b * z + j))
      let y := if f.ty = 13 then k4Block g vs else mxBlock (fmtOf f.ty) vs
      let at0 := seg * n + b * z
      ((r.1.take at0) ++ y.1 ++ r.1.drop (at0 + z), r.2.1.set (seg * (n / z) + b) y.2.1, y.2.2 ||| r.2.2))
    (old, oldS.take area ++ List.replicate (512 - area) 0, (0 : Fl))
  let mine := fun (j : Nat) => decide (seg * n ≤ j) && decide (j < seg * n + n) && x.within 32 ((j - seg * n) / z * z)
  { v := [⟨f.vd.toNat, packElems bd r.1, wholeUnits bd (4096 / bd) mine⟩,
          ⟨f.vd.toNat + 1, packElems 8 r.2.1, (List.range 8).filter fun u => decide (area ≤ u * 64)⟩], fl := r.2.2 }

/-- A VCVT from K4 or MX. -/
def fromBlockOut (f : FVR) (x : Desk) : DeskOut :=
  let t := f.aux.extractLsb' 0 5
  let seg := (f.aux.extractLsb' 5 3).toNat
  let bs := elemBits t
  let n := 128
  let z := blockSize t
  let g := valOf fBf16 (x.v f.vb % 65536)
  let r := ((elems 32 n (x.v f.vd)).zipIdx).foldr (fun e r =>
    let q := seg * n + e.2
    if !x.within bs q then (e.1 :: r.1, r.2)
    else
      let code := elem bs (x.v f.va) q
      let sc := elem 8 (x.vn (f.va.toNat + 1)) (q / z)
      let v := if t = 13 then k4Val code sc g else mxVal (fmtOf t) code sc
      let y := roundRes fF32 (x.rnd f.rm e.2) v
      (y.1 :: r.1, y.2 ||| r.2)) (([] : List Nat), (0 : Fl))
  { v := [⟨f.vd.toNat, packElems 32 r.1, wholeUnits 32 n fun j => x.within bs (seg * n + j)⟩], fl := r.2 }

/-- Units that a VCVT with a block operand reads. -/
def blockUses (f : FVR) (x : Desk) : List PUnit :=
  let t := f.aux.extractLsb' 0 5
  let seg := (f.aux.extractLsb' 5 3).toNat
  let band := if f.ty = 13 ∨ t = 13 then x.vUses 16 f.vb.toNat [0] else []
  if tyBlock f.ty then
    x.vUses 32 f.va.toNat ((List.range 128).filter fun i => x.within 32 (i / blockSize f.ty * blockSize f.ty)) ++ band
  else
    let q := ((List.range 128).map fun i => seg * 128 + i).filter (x.within (elemBits t))
    x.vUses (elemBits t) f.va.toNat q ++ x.vUses 8 (f.va.toNat + 1) (q.map (· / blockSize t)) ++ band

/-- VCVT. -/
def execVcvt (h : Hdr) (f : FVR) (s : State) : Out :=
  let i := Instr.vcvt h f
  let t := f.aux.extractLsb' 0 5
  runWord i (vecBody i
    (fun x => if tyBlock f.ty then toBlockOut f x else if tyBlock t then fromBlockOut f x else cvtOut f x)
    fun x =>
      if tyBlock f.ty || tyBlock t then blockUses f x
      else x.vUses (elemBits t) f.va.toNat (cvtSrc f x) ++ x.kUses f.k (cvtSrc f x)) s

/-! ## Widening, narrowing, dot products (R409-R411) -/

/-- A widening word's lane: from a, b and the interleaved addend. -/
def wideLane (f : FVR) (x : Desk) (fF : Rnd → Val → Val → Val → Nat × Fl) (iI : Int → Int → Int → Int) (i : Nat) : Nat × Fl :=
  let w := widenWays f.aux
  let b := elemBits f.ty
  let c := elem (b * w) (x.vn (f.vc.toNat + i % w)) (i / w)
  if tyF f.ty then
    fF (x.rnd f.rm i) (valOf (fmtOf f.ty) (opA f x i)) (valOf (fmtOf f.ty) (opB f x i)) (valOf fF32 c)
  else (intCode (b * w) (iI (intOf f.ty (opA f x i)) (intOf f.ty (opB f x i)) c), 0)

/-- Result element i goes to register vD + (i mod w), slot i div w; VL and the mask are over source elements. -/
def wideOut (f : FVR) (g : Desk → Nat → Nat × Fl) (x : Desk) : DeskOut :=
  let w := widenWays f.aux
  let b := elemBits f.ty
  let m := x.mask f.k
  let n := 4096 / (b * w)
  let rs := (List.range w).map fun r =>
    ((elems (b * w) n (x.vn (f.vd.toNat + r))).zipIdx).foldr (fun e a =>
      let i := e.2 * w + r
      if !x.within b i then (e.1 :: a.1, a.2)
      else if m.testBit i then let y := g x i; (y.1 :: a.1, y.2 ||| a.2)
      else ((if f.kz then 0 else e.1) :: a.1, a.2)) (([] : List Nat), (0 : Fl))
  { v := (rs.zipIdx).map fun e => ⟨f.vd.toNat + e.2, packElems (b * w) e.1.1, wholeUnits (b * w) n fun j =>
      x.within b (j * w + e.2) && m.testBit (j * w + e.2)⟩
    fl := rs.foldl (fun a e => a ||| e.2) 0 }

def wideWord (i : Instr) (f : FVR) (acc : Bool) (fF : Rnd → Val → Val → Val → Nat × Fl) (iI : Int → Int → Int → Int)
    (s : State) : Out :=
  let b := elemBits f.ty
  let w := widenWays f.aux
  runWord i (vecBody i (wideOut f fun x => wideLane f x fF iI) fun x =>
    let a := x.actives b (4096 / b) f.k
    x.vUses b f.va.toNat a ++ x.vUses b f.vb.toNat a ++ x.kUses f.k a
      ++ (if acc then (a.flatMap fun j => x.vUses (b * w) (f.vc.toNat + j % w) [j / w]).dedup else [])) s

def execVwadd (h : Hdr) (f : FVR) (s : State) : Out :=
  wideWord (.vwadd h f) f false (fun md a b _ => fAdd fF32 md a b) (fun a b _ => a + b) s
def execVwmul (h : Hdr) (f : FVR) (s : State) : Out :=
  wideWord (.vwmul h f) f false (fun md a b _ => fMul fF32 md a b) (fun a b _ => a * b) s
def execVwfma (h : Hdr) (f : FVR) (s : State) : Out :=
  wideWord (.vwfma h f) f true (fun md a b c => fMulAdd fF32 md false a b c) (fun a b c => a * b + c) s

/-- The source type of VNRW: the same kind, w times the width. -/
def wideType (t : BitVec 5) (w : Nat) : BitVec 5 :=
  if tyF t then 8 else if w = 4 then t + 2 else t + 1

/-- One lane of VNRW. -/
def narrowLane (f : FVR) (x : Desk) (i : Nat) : Nat × Fl :=
  let w := widenWays f.aux
  let c := elem (elemBits f.ty * w) (x.vn (f.va.toNat + i % w)) (i / w)
  if tyF f.ty then roundVal (fmtOf f.ty) .ieee (x.rnd f.rm i) (valOf fF32 c)
  else satInt f.ty (intOf (wideType f.ty w) c)

/-- VNRW: VL and the mask are over destination elements. -/
def execVnrw (h : Hdr) (f : FVR) (s : State) : Out :=
  let i := Instr.vnrw h f
  let b := elemBits f.ty
  let w := widenWays f.aux
  runWord i (vecBody i (fun x => laneOut x b f (narrowLane f x)) fun x =>
    let a := x.actives b (4096 / b) f.k
    (a.flatMap fun j => x.vUses (b * w) (f.va.toNat + j % w) [j / w]).dedup ++ x.kUses f.k a) s

/-- VDOT4: over the 32-bit result elements. -/
def execVdot4 (h : Hdr) (f : FVR) (s : State) : Out :=
  laneWord (.vdot4 h f) f 32 [f.va, f.vb, f.vc] (fun x i =>
    let t := (List.range 4).foldl (fun (a : Int) j =>
      a + intOf f.ty (elem 8 (x.v f.va) (4 * i + j)) * intOf f.ty (elem 8 (x.v f.vb) (4 * i + j))) 0
    (intCode 32 ((elem 32 (x.v f.vc) i : Int) + t), 0)) s

/-! ## Reciprocal, square root, exponent (R412) -/

/-- VRCP. -/
def execVrcp (h : Hdr) (f : FVR) (s : State) : Out :=
  laneWord (.vrcp h f) f 32 [f.va] (fun x i => vrcp (opA f x i)) s

/-- VRSQ. -/
def execVrsq (h : Hdr) (f : FVR) (s : State) : Out :=
  laneWord (.vrsq h f) f 32 [f.va] (fun x i => vrsq (opA f x i)) s

/-- VEXP2. -/
def execVexp2 (h : Hdr) (f : FVR) (s : State) : Out :=
  laneWord (.vexp2 h f) f 32 [f.va] (fun x i => vexp2 (opA f x i)) s

/-- VRCPF: x from VA, a from VB. -/
def execVrcpf (h : Hdr) (f : FVR) (s : State) : Out :=
  laneWord (.vrcpf h f) f 32 [f.va, f.vb] (fun x i => refine false (opA f x i) (opB f x i)) s

/-- VRSQF. -/
def execVrsqf (h : Hdr) (f : FVR) (s : State) : Out :=
  laneWord (.vrsqf h f) f 32 [f.va, f.vb] (fun x i => refine true (opA f x i) (opB f x i)) s

/-! ## Reductions (R413) -/

/-- A reduction: its result in element 0 of vD, every other element of vD zero. -/
def reduceWord (i : Instr) (f : FVR) (g : Desk → List Nat → Nat × Fl) (s : State) : Out :=
  let b := elemBits f.ty
  runWord i (vecBody i
    (fun x =>
      let r := g x ((x.actives b (4096 / b) f.k).map (opA f x))
      { v := [⟨f.vd.toNat, r.1 % 2 ^ b, List.range 8⟩], fl := r.2 })
    fun x =>
      let a := x.actives b (4096 / b) f.k
      x.vUses b f.va.toNat a ++ x.kUses f.k a) s

/-- VRSUM: the exact sum, rounded once; independent of order. -/
def execVrsum (h : Hdr) (f : FVR) (s : State) : Out :=
  reduceWord (.vrsum h f) f (fun x vs =>
    if tyF f.ty then roundRes (fmtOf f.ty) (x.rnd f.rm 0) (sumVal (vs.map (valOf (fmtOf f.ty))) (f.rm == 2))
    else (intCode (elemBits f.ty) (vs.foldl (fun a v => a + intOf f.ty v) 0), 0)) s

/-- Fold of the IEEE or integer minimum or maximum. -/
def reduceMinMax (f : FVR) (wantMax : Bool) (vs : List Nat) : Nat × Fl :=
  let t := fmtOf f.ty
  if tyF f.ty then
    vs.foldl (fun a v => let y := fMinMax t wantMax a.1 v; (y.1, y.2 ||| a.2)) (t.signed wantMax t.infCode, 0)
  else
    let r := intRange f.ty
    (intCode (elemBits f.ty) (vs.foldl (fun (a : Int) v => if wantMax then max a (intOf f.ty v) else min a (intOf f.ty v))
      (if wantMax then r.1 else r.2)), 0)

def execVrmax (h : Hdr) (f : FVR) (s : State) : Out := reduceWord (.vrmax h f) f (fun _ vs => reduceMinMax f true vs) s
def execVrmin (h : Hdr) (f : FVR) (s : State) : Out := reduceWord (.vrmin h f) f (fun _ vs => reduceMinMax f false vs) s

/-- VRAMAX: the largest magnitude; +0 with no active element. -/
def execVramax (h : Hdr) (f : FVR) (s : State) : Out :=
  reduceWord (.vramax h f) f (fun _ vs =>
    let t := fmtOf f.ty
    vs.foldl (fun a v =>
      let m := fAbs t v
      let y := fMinMax t true a.1 m.1
      (y.1, m.2 ||| y.2 ||| a.2)) (0, 0)) s

end Sys2Proof.Machine
end

