-- ==== Sys2Proof/Machine/Dispatch.lean ====
section
/-!
DEFINITION. One arm for each constructor of Instr: its meaning.
-/

namespace Sys2Proof.Machine

def exec (i : Instr) (s : State) : Host.Outcome State Fault Refusal :=
  match i with
  | .coldStart b => Sys2Proof.Machine.execColdStart b s
  | .warmReset => Sys2Proof.Machine.execWarmReset s
  | .registerWrite fn off v => Sys2Proof.Machine.execRegisterWrite fn off v s
  | .qwidxWrite k q v => Sys2Proof.Machine.execQwidxWrite k q v s
  | .queueEnable k q v => Sys2Proof.Machine.execQueueEnable k q v s
  | .queueDisable k q v => Sys2Proof.Machine.execQueueDisable k q v s
  | .entryNop k q => Sys2Proof.Machine.execEntryNop k q s
  | .entryLaunch k q => Sys2Proof.Machine.execEntryLaunch k q s
  | .launchAcceptance k q => Sys2Proof.Machine.execLaunchAcceptance k q s
  | .entryCadd k q => Sys2Proof.Machine.execEntryCadd k q s
  | .entryCwait k q => Sys2Proof.Machine.execEntryCwait k q s
  | .entryCwaitSatisfied k q => Sys2Proof.Machine.execEntryCwaitSatisfied k q s
  | .entryReadError k q => Sys2Proof.Machine.execEntryReadError k q s
  | .instanceStart inst => Sys2Proof.Machine.execInstanceStart inst s
  | .instanceEnd inst => Sys2Proof.Machine.execInstanceEnd inst s
  | .hallMonitorExpiry k q => Sys2Proof.Machine.execHallMonitorExpiry k q s
  | .partCreate => Sys2Proof.Machine.execPartCreate s
  | .partDestroy => Sys2Proof.Machine.execPartDestroy s
  | .partReset => Sys2Proof.Machine.execPartReset s
  | .partRearm => Sys2Proof.Machine.execPartRearm s
  | .fwLoad => Sys2Proof.Machine.execFwLoad s
  | .fwActivate => Sys2Proof.Machine.execFwActivate s
  | .fwReversion => Sys2Proof.Machine.execFwReversion s
  | .pairConfig => Sys2Proof.Machine.execPairConfig s
  | .pcapWrite v => Sys2Proof.Machine.execPcapWrite v s
  | .bbctlWrite die v => Sys2Proof.Machine.execBbctlWrite die v s
  | .readbackRead off => Sys2Proof.Machine.execReadbackRead off s
  | .readbackWrite off v => Sys2Proof.Machine.execReadbackWrite off v s
  | .hostBarRead fn bar off n => Sys2Proof.Machine.execHostBarRead fn bar off n s
  | .hostBarWrite k off data => Sys2Proof.Machine.execHostBarWrite k off data s
  | .hostAtomicop k off op wide x y => Sys2Proof.Machine.execHostAtomicop k off op wide x y s
  | .getVersion => Sys2Proof.Machine.execGetVersion s
  | .getCapabilities => Sys2Proof.Machine.execGetCapabilities s
  | .negotiateAlgorithms rsassa3072 sha256 ffdhe3072 aes256gcm => Sys2Proof.Machine.execNegotiateAlgorithms rsassa3072 sha256 ffdhe3072 aes256gcm s
  | .getDigests => Sys2Proof.Machine.execGetDigests s
  | .getCertificate slot off len => Sys2Proof.Machine.execGetCertificate slot off len s
  | .challenge slot nonce => Sys2Proof.Machine.execChallenge slot nonce s
  | .getMeasurements index signed nonce => Sys2Proof.Machine.execGetMeasurements index signed nonce s
  | .keyExchange slot pub => Sys2Proof.Machine.execKeyExchange slot pub s
  | .finish session mac => Sys2Proof.Machine.execFinish session mac s
  | .heartbeat session => Sys2Proof.Machine.execHeartbeat session s
  | .endSession session => Sys2Proof.Machine.execEndSession session s
  | .powerEvaluation target => Sys2Proof.Machine.execPowerEvaluation target s
  | .frequencyTransition c => Sys2Proof.Machine.execFrequencyTransition c s
  | .sensorSample c t0 t1 t2 t3 => Sys2Proof.Machine.execSensorSample c t0 t1 t2 t3 s
  | .rampPermitStep c => Sys2Proof.Machine.execRampPermitStep c s
  | .windowArbitration c pair computeAsks baseAsks => Sys2Proof.Machine.execWindowArbitration c pair computeAsks baseAsks s
  | .lncTick => Sys2Proof.Machine.execLncTick s
  | .nanosecondWaitExpiry c => Sys2Proof.Machine.execNanosecondWaitExpiry c s
  | .shadowLatchReplay c => Sys2Proof.Machine.execShadowLatchReplay c s
  | .replayHoldEnd c => Sys2Proof.Machine.execReplayHoldEnd c s
  | .replayGovernorWindow c => Sys2Proof.Machine.execReplayGovernorWindow c s
  | .correctableError c m loc => Sys2Proof.Machine.execCorrectableError c m loc s
  | .freezeEnd c => Sys2Proof.Machine.execFreezeEnd c s
  | .freezeGuardEnd c => Sys2Proof.Machine.execFreezeGuardEnd c s
  | .uncorrectableError u => Sys2Proof.Machine.execUncorrectableError u s
  | .nodeKill inst node cause => Sys2Proof.Machine.execNodeKill inst node cause s
  | .refreshTick => Sys2Proof.Machine.execRefreshTick s
  | .backgroundPassStart c t => Sys2Proof.Machine.execBackgroundPassStart c t s
  | .refreshPassComplete c t => Sys2Proof.Machine.execRefreshPassComplete c t s
  | .forcing c => Sys2Proof.Machine.execForcing c s
  | .refillReinject c id => Sys2Proof.Machine.execRefillReinject c id s
  | .nodeReady inst node => Sys2Proof.Machine.execNodeReady inst node s
  | .dispenseScan => Sys2Proof.Machine.execDispenseScan s
  | .victimDecision team => Sys2Proof.Machine.execVictimDecision team s
  | .drainBoundExpiry team => Sys2Proof.Machine.execDrainBoundExpiry team s
  | .saveComplete team => Sys2Proof.Machine.execSaveComplete team s
  | .resumeComplete team => Sys2Proof.Machine.execResumeComplete team s
  | .nodeRetirement inst node => Sys2Proof.Machine.execNodeRetirement inst node s
  | .anchorSwapComplete inst node => Sys2Proof.Machine.execAnchorSwapComplete inst node s
  | .pairDigestReceived inst node rollbacks digest => Sys2Proof.Machine.execPairDigestReceived inst node rollbacks digest s
  | .pairDigestTimeout inst node => Sys2Proof.Machine.execPairDigestTimeout inst node s
  | .pairDecisionReceived inst node v => Sys2Proof.Machine.execPairDecisionReceived inst node v s
  | .pairDecisionTimeout inst node => Sys2Proof.Machine.execPairDecisionTimeout inst node s
  | .killNoticeReceived inst node => Sys2Proof.Machine.execKillNoticeReceived inst node s
  | .fenceNoticeReceived k => Sys2Proof.Machine.execFenceNoticeReceived k s
  | .pairSelectionReceived c ord e => Sys2Proof.Machine.execPairSelectionReceived c ord e s
  | .pairSelectionTimeout c => Sys2Proof.Machine.execPairSelectionTimeout c s
  | .pairSaveDecisionTimeout team => Sys2Proof.Machine.execPairSaveDecisionTimeout team s
  | .corridorRequestArrival src seq => Sys2Proof.Machine.execCorridorRequestArrival src seq s
  | .corridorAckTimeout c seq => Sys2Proof.Machine.execCorridorAckTimeout c seq s
  | .stairwellDrain die r => Sys2Proof.Machine.execStairwellDrain die r s
  | .stairwellRetire die r => Sys2Proof.Machine.execStairwellRetire die r s
  | .stairwellFailure die r => Sys2Proof.Machine.execStairwellFailure die r s
  | .kLinkFlitRetry link => Sys2Proof.Machine.execKLinkFlitRetry link s
  | .linkTraining straight far => Sys2Proof.Machine.execLinkTraining straight far s
  | .bridgeLaneFailure dir lane => Sys2Proof.Machine.execBridgeLaneFailure dir lane s
  | .pageWalkComplete c => Sys2Proof.Machine.execPageWalkComplete c s
  | .shootdownReceipt c vpn => Sys2Proof.Machine.execShootdownReceipt c vpn s
  | .shootdownAck c vpn => Sys2Proof.Machine.execShootdownAck c vpn s
  | .migration table src dst err bad => Sys2Proof.Machine.execMigration table src dst err bad s
  | .codePageScan c va => Sys2Proof.Machine.execCodePageScan c va s
  | .fetchLineMiss c va => Sys2Proof.Machine.execFetchLineMiss c va s
  | .counterRequestArrival c id => Sys2Proof.Machine.execCounterRequestArrival c id s
  | .waitCancelArrival c id => Sys2Proof.Machine.execWaitCancelArrival c id s
  | .epochRequest c id => Sys2Proof.Machine.execEpochRequest c id s
  | .recordMerge die idx c => Sys2Proof.Machine.execRecordMerge die idx c s
  | .trapMerge c => Sys2Proof.Machine.execTrapMerge c s
  | .mapOpArrival c id => Sys2Proof.Machine.execMapOpArrival c id s
  | .wordCompletion c id => Sys2Proof.Machine.execWordCompletion c id s
  | .remapTableWrite c d phys => Sys2Proof.Machine.execRemapTableWrite c d phys s
  | .rtblWrite c pri alt => Sys2Proof.Machine.execRtblWrite c pri alt s
  | .blk h f => Sys2Proof.Machine.execBlk h f s
  | .loop h f => Sys2Proof.Machine.execLoop h f s
  | .psw h f => Sys2Proof.Machine.execPsw h f s
  | .nop h => Sys2Proof.Machine.execNop h s
  | .add h f => Sys2Proof.Machine.execAdd h f s
  | .sub h f => Sys2Proof.Machine.execSub h f s
  | .mul h f => Sys2Proof.Machine.execMul h f s
  | .mulh h f => Sys2Proof.Machine.execMulh h f s
  | .mulhu h f => Sys2Proof.Machine.execMulhu h f s
  | .div h f => Sys2Proof.Machine.execDiv h f s
  | .divu h f => Sys2Proof.Machine.execDivu h f s
  | .rem h f => Sys2Proof.Machine.execRem h f s
  | .remu h f => Sys2Proof.Machine.execRemu h f s
  | .and h f => Sys2Proof.Machine.execAnd h f s
  | .or h f => Sys2Proof.Machine.execOr h f s
  | .xor h f => Sys2Proof.Machine.execXor h f s
  | .shl h f => Sys2Proof.Machine.execShl h f s
  | .shr h f => Sys2Proof.Machine.execShr h f s
  | .sra h f => Sys2Proof.Machine.execSra h f s
  | .min h f => Sys2Proof.Machine.execMin h f s
  | .max h f => Sys2Proof.Machine.execMax h f s
  | .minu h f => Sys2Proof.Machine.execMinu h f s
  | .maxu h f => Sys2Proof.Machine.execMaxu h f s
  | .popc h f => Sys2Proof.Machine.execPopc h f s
  | .clz h f => Sys2Proof.Machine.execClz h f s
  | .ctz h f => Sys2Proof.Machine.execCtz h f s
  | .addi h f => Sys2Proof.Machine.execAddi h f s
  | .muli h f => Sys2Proof.Machine.execMuli h f s
  | .andi h f => Sys2Proof.Machine.execAndi h f s
  | .ori h f => Sys2Proof.Machine.execOri h f s
  | .xori h f => Sys2Proof.Machine.execXori h f s
  | .shli h f => Sys2Proof.Machine.execShli h f s
  | .shri h f => Sys2Proof.Machine.execShri h f s
  | .srai h f => Sys2Proof.Machine.execSrai h f s
  | .li h f => Sys2Proof.Machine.execLi h f s
  | .lih h f => Sys2Proof.Machine.execLih h f s
  | .cmpeq h f => Sys2Proof.Machine.execCmpeq h f s
  | .cmpne h f => Sys2Proof.Machine.execCmpne h f s
  | .cmplt h f => Sys2Proof.Machine.execCmplt h f s
  | .cmpltu h f => Sys2Proof.Machine.execCmpltu h f s
  | .cmple h f => Sys2Proof.Machine.execCmple h f s
  | .cmpleu h f => Sys2Proof.Machine.execCmpleu h f s
  | .cmpeqi h f => Sys2Proof.Machine.execCmpeqi h f s
  | .cmplti h f => Sys2Proof.Machine.execCmplti h f s
  | .sel h f => Sys2Proof.Machine.execSel h f s
  | .br h f => Sys2Proof.Machine.execBr h f s
  | .brr h f => Sys2Proof.Machine.execBrr h f s
  | .bz h f => Sys2Proof.Machine.execBz h f s
  | .bnz h f => Sys2Proof.Machine.execBnz h f s
  | .beq h f => Sys2Proof.Machine.execBeq h f s
  | .bne h f => Sys2Proof.Machine.execBne h f s
  | .blt h f => Sys2Proof.Machine.execBlt h f s
  | .bge h f => Sys2Proof.Machine.execBge h f s
  | .bltu h f => Sys2Proof.Machine.execBltu h f s
  | .bgeu h f => Sys2Proof.Machine.execBgeu h f s
  | .bq h f => Sys2Proof.Machine.execBq h f s
  | .bqn h f => Sys2Proof.Machine.execBqn h f s
  | .call h f => Sys2Proof.Machine.execCall h f s
  | .callr h f => Sys2Proof.Machine.execCallr h f s
  | .ret h => Sys2Proof.Machine.execRet h s
  | .qpop h f => Sys2Proof.Machine.execQpop h f s
  | .fqpush h f => Sys2Proof.Machine.execFqpush h f s
  | .prio h f => Sys2Proof.Machine.execPrio h f s
  | .sleepns h f => Sys2Proof.Machine.execSleepns h f s
  | .rdlnc h f => Sys2Proof.Machine.execRdlnc h f s
  | .rdcsr h f => Sys2Proof.Machine.execRdcsr h f s
  | .wrcsr h f => Sys2Proof.Machine.execWrcsr h f s
  | .lds h f => Sys2Proof.Machine.execLds h f s
  | .sts h f => Sys2Proof.Machine.execSts h f s
  | .exit h => Sys2Proof.Machine.execExit h s
  | .aadd h f => Sys2Proof.Machine.execAadd h f s
  | .asub h f => Sys2Proof.Machine.execAsub h f s
  | .aaddi h f => Sys2Proof.Machine.execAaddi h f s
  | .amuli h f => Sys2Proof.Machine.execAmuli h f s
  | .ashli h f => Sys2Proof.Machine.execAshli h f s
  | .amov h f => Sys2Proof.Machine.execAmov h f s
  | .amovi h f => Sys2Proof.Machine.execAmovi h f s
  | .copy h f => Sys2Proof.Machine.execCopy h f s
  | .copy2d h f => Sys2Proof.Machine.execCopy2d h f s
  | .gather h f => Sys2Proof.Machine.execGather h f s
  | .scatter h f => Sys2Proof.Machine.execScatter h f s
  | .ldq h f => Sys2Proof.Machine.execLdq h f s
  | .aqeq h f => Sys2Proof.Machine.execAqeq h f s
  | .aqne h f => Sys2Proof.Machine.execAqne h f s
  | .aqlt h f => Sys2Proof.Machine.execAqlt h f s
  | .aqltu h f => Sys2Proof.Machine.execAqltu h f s
  | .aqeqi h f => Sys2Proof.Machine.execAqeqi h f s
  | .aqlti h f => Sys2Proof.Machine.execAqlti h f s
  | .kvmap h f => Sys2Proof.Machine.execKvmap h f s
  | .kvshare h f => Sys2Proof.Machine.execKvshare h f s
  | .kvfree h f => Sys2Proof.Machine.execKvfree h f s
  | .viewDef h f => Sys2Proof.Machine.execViewDef h f s
  | .brefill h f => Sys2Proof.Machine.execBrefill h f s
  | .rfdefer h f => Sys2Proof.Machine.execRfdefer h f s
  | .rfnow h => Sys2Proof.Machine.execRfnow h s
  | .rdretb h => Sys2Proof.Machine.execRdretb h s
  | .xsh h f => Sys2Proof.Machine.execXsh h f s
  | .xsht h f => Sys2Proof.Machine.execXsht h f s
  | .xsend h f => Sys2Proof.Machine.execXsend h f s
  | .xrecv h f => Sys2Proof.Machine.execXrecv h f s
  | .xbcast h f => Sys2Proof.Machine.execXbcast h f s
  | .vadd h f => Sys2Proof.Machine.execVadd h f s
  | .vsub h f => Sys2Proof.Machine.execVsub h f s
  | .vmul h f => Sys2Proof.Machine.execVmul h f s
  | .vfma h f => Sys2Proof.Machine.execVfma h f s
  | .vfnma h f => Sys2Proof.Machine.execVfnma h f s
  | .vmin h f => Sys2Proof.Machine.execVmin h f s
  | .vmax h f => Sys2Proof.Machine.execVmax h f s
  | .vabs h f => Sys2Proof.Machine.execVabs h f s
  | .vneg h f => Sys2Proof.Machine.execVneg h f s
  | .vaddsat h f => Sys2Proof.Machine.execVaddsat h f s
  | .vsubsat h f => Sys2Proof.Machine.execVsubsat h f s
  | .vmulh h f => Sys2Proof.Machine.execVmulh h f s
  | .vaddQ h f => Sys2Proof.Machine.execVaddQ h f s
  | .vsubQ h f => Sys2Proof.Machine.execVsubQ h f s
  | .vmulQ h f => Sys2Proof.Machine.execVmulQ h f s
  | .vfmaQ h f => Sys2Proof.Machine.execVfmaQ h f s
  | .vminQ h f => Sys2Proof.Machine.execVminQ h f s
  | .vmaxQ h f => Sys2Proof.Machine.execVmaxQ h f s
  | .vandQ h f => Sys2Proof.Machine.execVandQ h f s
  | .vorQ h f => Sys2Proof.Machine.execVorQ h f s
  | .vxorQ h f => Sys2Proof.Machine.execVxorQ h f s
  | .vcmpeqQ h f => Sys2Proof.Machine.execVcmpeqQ h f s
  | .vcmpltQ h f => Sys2Proof.Machine.execVcmpltQ h f s
  | .vcmpleQ h f => Sys2Proof.Machine.execVcmpleQ h f s
  | .vand h f => Sys2Proof.Machine.execVand h f s
  | .vor h f => Sys2Proof.Machine.execVor h f s
  | .vxor h f => Sys2Proof.Machine.execVxor h f s
  | .vnot h f => Sys2Proof.Machine.execVnot h f s
  | .vpopc h f => Sys2Proof.Machine.execVpopc h f s
  | .vclz h f => Sys2Proof.Machine.execVclz h f s
  | .vshl h f => Sys2Proof.Machine.execVshl h f s
  | .vshr h f => Sys2Proof.Machine.execVshr h f s
  | .vsra h f => Sys2Proof.Machine.execVsra h f s
  | .vshli h f => Sys2Proof.Machine.execVshli h f s
  | .vshri h f => Sys2Proof.Machine.execVshri h f s
  | .vsrai h f => Sys2Proof.Machine.execVsrai h f s
  | .vcmpeq h f => Sys2Proof.Machine.execVcmpeq h f s
  | .vcmpne h f => Sys2Proof.Machine.execVcmpne h f s
  | .vcmplt h f => Sys2Proof.Machine.execVcmplt h f s
  | .vcmple h f => Sys2Proof.Machine.execVcmple h f s
  | .vcmpun h f => Sys2Proof.Machine.execVcmpun h f s
  | .kand h f => Sys2Proof.Machine.execKand h f s
  | .kor h f => Sys2Proof.Machine.execKor h f s
  | .kxor h f => Sys2Proof.Machine.execKxor h f s
  | .kandn h f => Sys2Proof.Machine.execKandn h f s
  | .knot h f => Sys2Proof.Machine.execKnot h f s
  | .kset h f => Sys2Proof.Machine.execKset h f s
  | .vsel h f => Sys2Proof.Machine.execVsel h f s
  | .vcvt h f => Sys2Proof.Machine.execVcvt h f s
  | .vwadd h f => Sys2Proof.Machine.execVwadd h f s
  | .vwmul h f => Sys2Proof.Machine.execVwmul h f s
  | .vwfma h f => Sys2Proof.Machine.execVwfma h f s
  | .vdot4 h f => Sys2Proof.Machine.execVdot4 h f s
  | .vnrw h f => Sys2Proof.Machine.execVnrw h f s
  | .vrcp h f => Sys2Proof.Machine.execVrcp h f s
  | .vrsq h f => Sys2Proof.Machine.execVrsq h f s
  | .vrcpf h f => Sys2Proof.Machine.execVrcpf h f s
  | .vrsqf h f => Sys2Proof.Machine.execVrsqf h f s
  | .vexp2 h f => Sys2Proof.Machine.execVexp2 h f s
  | .vrsum h f => Sys2Proof.Machine.execVrsum h f s
  | .vrmax h f => Sys2Proof.Machine.execVrmax h f s
  | .vrmin h f => Sys2Proof.Machine.execVrmin h f s
  | .vramax h f => Sys2Proof.Machine.execVramax h f s
  | .vperm h f => Sys2Proof.Machine.execVperm h f s
  | .vslideup h f => Sys2Proof.Machine.execVslideup h f s
  | .vslidedn h f => Sys2Proof.Machine.execVslidedn h f s
  | .vsplat h f => Sys2Proof.Machine.execVsplat h f s
  | .vmov h f => Sys2Proof.Machine.execVmov h f s
  | .vmovi h f => Sys2Proof.Machine.execVmovi h f s
  | .vld h f => Sys2Proof.Machine.execVld h f s
  | .vlds h f => Sys2Proof.Machine.execVlds h f s
  | .vldx h f => Sys2Proof.Machine.execVldx h f s
  | .vst h f => Sys2Proof.Machine.execVst h f s
  | .vsts h f => Sys2Proof.Machine.execVsts h f s
  | .vstx h f => Sys2Proof.Machine.execVstx h f s
  | .vqbc h f => Sys2Proof.Machine.execVqbc h f s
  | .mmaBf16 h f => Sys2Proof.Machine.execMmaBf16 h f s
  | .mmaE4m3 h f => Sys2Proof.Machine.execMmaE4m3 h f s
  | .mmaE5m2 h f => Sys2Proof.Machine.execMmaE5m2 h f s
  | .mmaK4 h f => Sys2Proof.Machine.execMmaK4 h f s
  | .mmazBf16 h f => Sys2Proof.Machine.execMmazBf16 h f s
  | .mmazE4m3 h f => Sys2Proof.Machine.execMmazE4m3 h f s
  | .mmazE5m2 h f => Sys2Proof.Machine.execMmazE5m2 h f s
  | .mmazK4 h f => Sys2Proof.Machine.execMmazK4 h f s
  | .mzero h f => Sys2Proof.Machine.execMzero h f s
  | .mldc h f => Sys2Proof.Machine.execMldc h f s
  | .mstc h f => Sys2Proof.Machine.execMstc h f s
  | .mstat h f => Sys2Proof.Machine.execMstat h f s
  | .qcvtK4 h f => Sys2Proof.Machine.execQcvtK4 h f s
  | .qcvtE4m3 h f => Sys2Proof.Machine.execQcvtE4m3 h f s
  | .qcvtE5m2 h f => Sys2Proof.Machine.execQcvtE5m2 h f s
  | .cadd h f => Sys2Proof.Machine.execCadd h f s
  | .caddi h f => Sys2Proof.Machine.execCaddi h f s
  | .cwait h f => Sys2Proof.Machine.execCwait h f s
  | .cwaitT h f => Sys2Proof.Machine.execCwaitT h f s
  | .cread h f => Sys2Proof.Machine.execCread h f s
  | .barrive h f => Sys2Proof.Machine.execBarrive h f s
  | .bwait h f => Sys2Proof.Machine.execBwait h f s
  | .bexp h f => Sys2Proof.Machine.execBexp h f s
  | .fence h f => Sys2Proof.Machine.execFence h f s
  | .join h => Sys2Proof.Machine.execJoin h s
  | .phase h f => Sys2Proof.Machine.execPhase h f s
  | .amoAdd h f => Sys2Proof.Machine.execAmoAdd h f s
  | .amoMax h f => Sys2Proof.Machine.execAmoMax h f s
  | .amoMin h f => Sys2Proof.Machine.execAmoMin h f s
  | .amoAnd h f => Sys2Proof.Machine.execAmoAnd h f s
  | .amoOr h f => Sys2Proof.Machine.execAmoOr h f s
  | .amoXchg h f => Sys2Proof.Machine.execAmoXchg h f s
  | .amoCas h f => Sys2Proof.Machine.execAmoCas h f s
  | .srread h f => Sys2Proof.Machine.execSrread h f s
  | .srreadPol h f => Sys2Proof.Machine.execSrreadPol h f s
  | .srreadClr h f => Sys2Proof.Machine.execSrreadClr h f s
  | .trap h f => Sys2Proof.Machine.execTrap h f s
  | .rett h f => Sys2Proof.Machine.execRett h f s
  | .hbeat h => Sys2Proof.Machine.execHbeat h s
  | .pld h f => Sys2Proof.Machine.execPld h f s
  | .pst h f => Sys2Proof.Machine.execPst h f s
  | .evpop h f => Sys2Proof.Machine.execEvpop h f s
  | .evdone h f => Sys2Proof.Machine.execEvdone h f s
  | .mbxrd h f => Sys2Proof.Machine.execMbxrd h f s
  | .mbxwr h f => Sys2Proof.Machine.execMbxwr h f s
  | .fwcsr h f => Sys2Proof.Machine.execFwcsr h f s
  | .shoot h f => Sys2Proof.Machine.execShoot h f s
  | .pairSaveDecisionReceived team act => Sys2Proof.Machine.execPairSaveDecisionReceived team act s
  | .keyProvisioning k key1 key2 ikey => Sys2Proof.Machine.execKeyProvisioning k key1 key2 ikey s

end Sys2Proof.Machine
end

