-- ==== Sys2Proof/Machine/Step.lean ====
section
/-!
DEFINITION. One step of the machine: the agent whose turn it is moves. A walker's or a timetable processor's move is
the meaning of the word it fetches; an event's move is the meaning of the event.
-/

namespace Sys2Proof.Machine

/-- The meaning of a fetched word, executed by `ctx`. -/
def runFetched (s : State) (ctx : Ctx) (w : W80) : Host.Outcome State Fault Refusal :=
  match decode w with
  | .ok i => exec i { s with focus := ctx }
  | .error _ => .fault .notAnInstruction

/-- One step. -/
def step (s : State) : Host.Outcome State Fault Refusal :=
  match nextMover s with
  | (.event i, t) => if i.isWord then .next t else exec i t
  | (.walker c e, t) =>
    match fetchWord t c e with
    | .idle => .next t
    | .miss va => exec (.fetchLineMiss c va) t
    | .word w => runFetched t (.cls c e) w
  | (.fw d, t) =>
    match fetchFw t d with
    | .idle => .next t
    | .miss _ => .next t
    | .word w => runFetched t (.fw d) w
  | (.service d, t) => .next (service t d)

/-- The state with a word of the table placed where the next step fetches it (log 11). -/
def State.withFetchWord (s : State) (nbits w : Nat) : State := placeWord s (BitVec.ofNat 80 (w % 2 ^ nbits))

end Sys2Proof.Machine
end

