-- ==== Sys2Proof/Safety.lean ====
section
/-!
DEFINITION. The terms claims use: a safe step, the canonical form of memory, when a word can issue, what it means that a word
issues with an effect, that it issues and completes later, that it traps, and what a step leaves alone.
-/

namespace Sys2Proof.Machine

/-- The memory bytes are in canonical form: addresses strictly rising, no listed byte equal to what an unlisted
address reads as. -/
abbrev Memory.wf (m : List Host.Cell) : Prop := twf (0 : Byte) m = true

/-- One step that stops with no fault and no refusal. -/
def stepSafe (s : State) : Prop := ∃ t, step s = .next t

/-! ## Registers of a class -/

/-- s[n] of class `c`; s0 reads zero (R150). -/
def regS (s : State) (c : Nat) (n : BitVec 5) : W64 := if n = 0 then 0 else tget 0 (getCls s c).sreg n.toNat
/-- a[n] of class `c` (R150). -/
def regA (s : State) (c : Nat) (n : BitVec 4) : W64 := tget 0 (getCls s c).areg n.toNat
/-- `s` with v in s[n] of class `c`; a write to s0 is discarded (R150). -/
def withS (s : State) (c : Nat) (n : BitVec 5) (v : W64) : State :=
  if n = 0 then s else modCls s c fun k => { k with sreg := tset 0 k.sreg n.toNat v }
/-- `s` with v in a[n] of class `c`. -/
def withA (s : State) (c : Nat) (n : BitVec 4) (v : W64) : State :=
  modCls s c fun k => { k with areg := tset 0 k.areg n.toNat v }

/-! ## When a word can issue -/

/-- Walker `e` of class `c` stands at word `i`, whose engine it is, and nothing but the word's own operands can hold it: the
class runs (R112), the walker is neither parked (R267) nor at EXIT (R157), SLIP, the registers, TWR, the tags and the acquire
rule let it issue (R155, R161, R167, R239, R335), no RETT has retired the word (R269), handler mode admits it (R268), the S
walker's block signature holds (R132), no QCVT issues again before it (R265). -/
structure Ready (i : Instr) (s : State) (c : Nat) (e : Eng) : Prop where
  focus : s.focus = .cls c e
  inRange : c < s.cls.length
  runs : runnable s c = true
  walks : (walkerOf (getCls s c) e).parked = false
  open_ : (walkerOf (getCls s c) e).atExit = false
  owns : owner i = some e
  notRetired : isRetired (getCls s c) e = false
  handler : ((getCls s c).hmode && doubleTrapWord i) = false
  free : canIssue s c e i = true
  signed : e = .s → ∃ b, blockStep (getCls s c) i = .ok b
  once : e = .m → (getCls s c).inflight.find? (fun f => f.status == .again) = none

/-- A common word can pass at walker `e` (R153, R155, R157); no SLEEPNS holds the S walker (R366). -/
structure ReadyCommon (i : Instr) (s : State) (c : Nat) (e : Eng) : Prop where
  focus : s.focus = .cls c e
  inRange : c < s.cls.length
  runs : runnable s c = true
  walks : (walkerOf (getCls s c) e).parked = false
  open_ : (walkerOf (getCls s c) e).atExit = false
  slip : slipOk (getCls s c) e = true
  awake : e = .s → asleep (getCls s c) = false
  signed : e = .s → ∃ b, blockStep (getCls s c) i = .ok b

/-! ## What a word does -/

/-- A class without what passing a word changes: walkers, tags, what the interlocks remember, the block signature, the loop
buffer. Everything else of the class is left: registers, queues, control registers, issued words, traps, desks. -/
def ClassState.body (k : ClassState) : ClassState :=
  { k with ws := {}, wa := {}, wv := {}, wm := {}, wx := {}, tok := [], rsv := [], pend := [], resolved := [], strictOld := [],
           vlOld := [], loopBuf := [], block := none, taken := [], retire := [] }

/-- Nothing but class `c` differs, and of class `c` nothing but what passing a word changes. -/
def SameBody (s t : State) (c : Nat) : Prop :=
  { t with cls := [] } = { s with cls := [] } ∧ (∀ j, j ≠ c → getCls t j = getCls s j)
    ∧ (getCls t c).body = (getCls s c).body

/-- Word `i` of walker `e` has its effect `s'` and passes: the walker goes on at word `n` (or at the end of a pass of a loop,
R172), one position further; the tokens it consumes are taken and the one it allocates is there (R161); no other walker moves;
nothing else of the machine changes. -/
def Passed (i : Instr) (s' t : State) (c : Nat) (e : Eng) (n : Nat) : Prop :=
  SameBody s' t c
    ∧ walkerOf (getCls t c) e = walkOn (getCls s' c).run (walkerOf (getCls s' c) e) n
    ∧ (∀ e', e' ≠ e → walkerOf (getCls t c) e' = walkerOf (getCls s' c) e')
    ∧ (getCls t c).tok = (tagsDone (getCls s' c) e (hdr i)).tok
    ∧ (getCls t c).rsv = (getCls s' c).rsv

/-- `exec` answers a next state in which word `i` has had the effect `s'` and its walker has gone on at word `n`. -/
def ExecutesTo (i : Instr) (s : State) (c : Nat) (e : Eng) (s' : State) (n : Nat) : Prop :=
  ∃ t, exec i s = .next t ∧ Passed i s' t c e n

/-- The same, at the next word. -/
def Executes (i : Instr) (s : State) (c : Nat) (e : Eng) (s' : State) : Prop :=
  ExecutesTo i s c e s' ((walkerOf (getCls s c) e).wi + 1)

/-- The entry an issued word has in the replay queue (R277): the next number, its place on the path, the register values it
read, the movements it presented, the time, the sequence number of its first corridor request and the requests, none of which has
left, the translations of its first batch (R211), the count of its nanosecond wait if it is one (R56), the view slots of a GATHER or
SCATTER (R220). -/
def replayEntry (i : Instr) (s : State) (c : Nat) (e : Eng) (ops : List W64) (ms : List Move) : InFlight :=
  let k := getCls s c
  { id := k.nextId, ord := (walkerOf k e).ord, run := k.run, eng := e, instr := i, ops := ops, status := .issued, prog := 0,
    start := s.ticks8, seq := if requests i ops = 0 then none else some k.seqNo.toNat
    reqs := List.replicate (requests i ops) {}, moves := ms, pages := k.batch, rem := startCount k.clks i ops
    slots := if rereads i then k.views else [] }

/-- `exec` answers a next state in which the word has issued: it stands in flight as entry `f` of the replay queue, having had the
effect `s'` so far; its tokens are taken and its tag is reserved (R161); its walker has passed it, but for an acquire word (R239); no
other walker moves; nothing else of the machine changes. -/
def IssuesAs (i : Instr) (s : State) (c : Nat) (e : Eng) (s' : State) (f : InFlight) : Prop :=
  ∃ t, exec i s = .next t
    ∧ SameBody
        (modCls s' c fun k => { k with inflight := k.inflight ++ [f], nextId := k.nextId + 1, batch := []
                                       seqNo := k.seqNo + BitVec.ofNat 16 (requests i f.ops) }) t c
    ∧ walkerOf (getCls t c) e = (if isAcquire i then walkerOf (getCls s' c) e
        else walkOn (getCls s' c).run (walkerOf (getCls s' c) e) ((walkerOf (getCls s' c) e).wi + 1))
    ∧ (∀ e', e' ≠ e → walkerOf (getCls t c) e' = walkerOf (getCls s' c) e')
    ∧ (getCls t c).tok = (tagsIssued (getCls s' c) e (hdr i)).tok
    ∧ (getCls t c).rsv = (tagsIssued (getCls s' c) e (hdr i)).rsv

/-- The word has issued with the operands and movements given. -/
def IssuesWith (i : Instr) (s : State) (c : Nat) (e : Eng) (s' : State) (ops : List W64) (ms : List Move) : Prop :=
  IssuesAs i s c e s' (replayEntry i s' c e ops ms)

/-- The word has issued and its first pass over the towers is done (R416). -/
def IssuesPaced (i : Instr) (s : State) (c : Nat) (e : Eng) (s' : State) (ops : List W64) (gs : List Strip) : Prop :=
  IssuesAs i s c e s' { replayEntry i s' c e ops [] with prog := 1, segs := gs }

/-- `exec` answers the state in which the word has raised a synchronous cause before issue (R265). -/
def Traps (i : Instr) (s : State) (c : Nat) (e : Eng) (code : Nat) (tinfo : W64) : Prop :=
  exec i s = .next (trapAt s c e code tinfo)

/-- `exec` answers the same state: the word waits. -/
def Waits (i : Instr) (s : State) : Prop := exec i s = .next s

/-! ## Timetable processors -/

/-- The processor of die `d` stands at a word. -/
def FwReady (s : State) (d : Nat) : Prop := s.focus = .fw d ∧ d < s.dies.length ∧ (getDie s d).fw.running = true

/-- Only the processor of die `d` may differ. -/
def SameButFw (s t : State) (d : Nat) : Prop :=
  { t with dies := [] } = { s with dies := [] } ∧ (∀ j, j ≠ d → getDie t j = getDie s j)
    ∧ { getDie t d with fw := default } = { getDie s d with fw := default }

/-- `s` with v in s[n] of the processor of die `d`. -/
def withFwS (s : State) (d : Nat) (n : BitVec 5) (v : W64) : State :=
  if n = 0 then s else modFw s d fun f => { f with sreg := tset 0 f.sreg n.toNat v }
/-- s[n] of the processor of die `d`. -/
def regFw (s : State) (d : Nat) (n : BitVec 5) : W64 := if n = 0 then 0 else tget 0 (getDie s d).fw.sreg n.toNat

end Sys2Proof.Machine
end

