-- ==== Sys2Proof/Certificates/Slice0/Obligations.lean ====
section
/-!
DEFINITION. The statements for the provers: what each word and event does and leaves alone, where it completes, the rules of
the whole machine. Each statement's docstring names the rules of the spec it rests on.
-/

namespace Sys2Proof.Machine

/-- A register-register word: s[D] ← g(s[A], s[B]), nothing else (R348, R354). -/
def SrRule (mk : Hdr → FSR → Instr) (g : W64 → W64 → W64) : Prop :=
  ∀ h f s c, Ready (mk h f) s c .s → Executes (mk h f) s c .s (withS s c f.d (g (regS s c f.a) (regS s c f.b)))

/-- An immediate word: s[D] ← g(s[A], IMM32), nothing else (R348, R356). -/
def SiRule (mk : Hdr → FSI → Instr) (g : W64 → W32 → W64) : Prop :=
  ∀ h f s c, Ready (mk h f) s c .s → Executes (mk h f) s c .s (withS s c f.d (g (regS s c f.a) f.imm))

/-- A branch: taken, the path goes on at the word index x + sext(OFF, 24); not taken, at the next word; nothing is written. -/
def BrRule (mk : Hdr → FB → Instr) (cond : W64 → W64 → Prop) : Prop :=
  ∀ h f s c, Ready (mk h f) s c .s →
    (cond (regS s c f.a) (regS s c f.b) →
      ExecutesTo (mk h f) s c .s s (((getCls s c).ws.wi : Int) + f.off.toInt).toNat)
    ∧ (¬ cond (regS s c f.a) (regS s c f.b) → Executes (mk h f) s c .s s)

end Sys2Proof.Machine

open Sys2Proof Sys2Proof.Machine

/-- R354: the register-register operations but the divisions write their result into s[D] and pass to the next word; no other
register, no flag, no byte of memory changes. -/
def Obligations.IntegerRegisterWords : Prop :=
  SrRule .add (fun a b => BitVec.ofNat 64 (a.toNat + b.toNat))
  ∧ SrRule .sub (fun a b => BitVec.ofInt 64 ((a.toNat : Int) - b.toNat))
  ∧ SrRule .mul (fun a b => BitVec.ofNat 64 (a.toNat * b.toNat))
  ∧ SrRule .mulh (fun a b => (BitVec.ofInt 128 (a.toInt * b.toInt)).extractLsb' 64 64)
  ∧ SrRule .mulhu (fun a b => (BitVec.ofNat 128 (a.toNat * b.toNat)).extractLsb' 64 64)
  ∧ SrRule .and (fun a b => a &&& b) ∧ SrRule .or (fun a b => a ||| b) ∧ SrRule .xor (fun a b => a ^^^ b)
  ∧ SrRule .shl (fun a b => BitVec.ofNat 64 (a.toNat * 2 ^ (b.extractLsb' 0 6).toNat))
  ∧ SrRule .shr (fun a b => BitVec.ofNat 64 (a.toNat / 2 ^ (b.extractLsb' 0 6).toNat))
  ∧ SrRule .sra (fun a b => BitVec.ofInt 64 (a.toInt / 2 ^ (b.extractLsb' 0 6).toNat))
  ∧ SrRule .min (fun a b => BitVec.ofInt 64 (min a.toInt b.toInt))
  ∧ SrRule .max (fun a b => BitVec.ofInt 64 (max a.toInt b.toInt))
  ∧ SrRule .minu (fun a b => BitVec.ofNat 64 (min a.toNat b.toNat))
  ∧ SrRule .maxu (fun a b => BitVec.ofNat 64 (max a.toNat b.toNat))

/-- R354: POPC counts the set bits; CLZ the zero bits above the highest set bit and CTZ those below the lowest, 64 for 0. -/
def Obligations.BitCountWords : Prop :=
  SrRule .popc (fun a _ => BitVec.ofNat 64 ((List.range 64).countP fun j => a.getLsbD j))
  ∧ SrRule .clz (fun a _ => BitVec.ofNat 64 ((List.range 64).countP fun j => decide (a.toNat < 2 ^ j)))
  ∧ SrRule .ctz (fun a _ => BitVec.ofNat 64 ((List.range 64).countP fun j => decide (a.toNat % 2 ^ (j + 1) = 0)))

/-- R355: division truncates toward zero; a zero divisor gives q = −1 (2^64 − 1) and r = a; −2^63 / −1 wraps. -/
def Obligations.DivisionWords : Prop :=
  SrRule .divu (fun a b => BitVec.ofNat 64 (if b.toNat = 0 then 2 ^ 64 - 1 else a.toNat / b.toNat))
  ∧ SrRule .remu (fun a b => BitVec.ofNat 64 (if b.toNat = 0 then a.toNat else a.toNat % b.toNat))
  ∧ SrRule .div (fun a b => BitVec.ofInt 64 (if b.toInt = 0 then -1 else if a.toInt = -2 ^ 63 ∧ b.toInt = -1 then -2 ^ 63
      else (a.toInt.natAbs / b.toInt.natAbs : Nat) * a.toInt.sign * b.toInt.sign))
  ∧ SrRule .rem (fun a b => BitVec.ofInt 64 (if b.toInt = 0 then a.toInt else if a.toInt = -2 ^ 63 ∧ b.toInt = -1 then 0
      else a.toInt - (a.toInt.natAbs / b.toInt.natAbs : Nat) * a.toInt.sign * b.toInt.sign * b.toInt))

/-- R356, R357: the immediate operations and the constants. A shift immediate of an instruction is at most 63 and LIH's
immediate below 2^24 (R356, R357), which WellFormed says. -/
def Obligations.ImmediateAndConstantWords : Prop :=
  SiRule .addi (fun a m => BitVec.ofInt 64 (a.toInt + m.toInt))
  ∧ SiRule .muli (fun a m => BitVec.ofInt 64 (a.toInt * m.toInt))
  ∧ SiRule .andi (fun a m => a &&& BitVec.ofNat 64 m.toNat)
  ∧ SiRule .ori (fun a m => a ||| BitVec.ofNat 64 m.toNat)
  ∧ SiRule .xori (fun a m => a ^^^ BitVec.ofNat 64 m.toNat)
  ∧ SiRule .shli (fun a m => BitVec.ofNat 64 (a.toNat * 2 ^ m.toNat))
  ∧ SiRule .shri (fun a m => BitVec.ofNat 64 (a.toNat / 2 ^ m.toNat))
  ∧ SiRule .srai (fun a m => BitVec.ofInt 64 (a.toInt / 2 ^ m.toNat))
  ∧ (∀ h f s c, Ready (.li h f) s c .s → Executes (.li h f) s c .s (withS s c f.d (BitVec.ofInt 64 f.imm.toInt)))
  ∧ (∀ h f s c, Ready (.lih h f) s c .s → Executes (.lih h f) s c .s
      (withS s c f.d (BitVec.ofNat 64 (f.imm.toNat % 2 ^ 24 * 2 ^ 40 + (regS s c f.d).toNat % 2 ^ 40))))

/-- R358: the compares write 1 when their condition holds and 0 otherwise; SEL selects. -/
def Obligations.CompareAndSelectWords : Prop :=
  SrRule .cmpeq (fun a b => if a.toNat = b.toNat then 1 else 0)
  ∧ SrRule .cmpne (fun a b => if a.toNat ≠ b.toNat then 1 else 0)
  ∧ SrRule .cmplt (fun a b => if a.toInt < b.toInt then 1 else 0)
  ∧ SrRule .cmpltu (fun a b => if a.toNat < b.toNat then 1 else 0)
  ∧ SrRule .cmple (fun a b => if a.toInt ≤ b.toInt then 1 else 0)
  ∧ SrRule .cmpleu (fun a b => if a.toNat ≤ b.toNat then 1 else 0)
  ∧ SiRule .cmpeqi (fun a m => if a.toInt = m.toInt then 1 else 0)
  ∧ SiRule .cmplti (fun a m => if a.toInt < m.toInt then 1 else 0)
  ∧ (∀ h f s c, Ready (.sel h f) s c .s → Executes (.sel h f) s c .s
      (withS s c f.d (if (regS s c f.c).toNat ≠ 0 then regS s c f.a else regS s c f.b)))

/-- R359, R360: the branches whose outcome registers decide, and BR. -/
def Obligations.RegisterBranches : Prop :=
  BrRule .br (fun _ _ => True)
  ∧ BrRule .bz (fun a _ => a.toNat = 0) ∧ BrRule .bnz (fun a _ => a.toNat ≠ 0)
  ∧ BrRule .beq (fun a b => a = b) ∧ BrRule .bne (fun a b => a ≠ b)
  ∧ BrRule .blt (fun a b => a.toInt < b.toInt) ∧ BrRule .bge (fun a b => a.toInt ≥ b.toInt)
  ∧ BrRule .bltu (fun a b => a.toNat < b.toNat) ∧ BrRule .bgeu (fun a b => a.toNat ≥ b.toNat)
  ∧ (∀ h f s c, Ready (.brr h f) s c .s →
      -- bits [55:6] of the target name the line, bits [2:0] a slot 0-5, the other bits are zero (R329)
      (regS s c f.a).toNat < 2 ^ 56 → (regS s c f.a).toNat % 64 < 6 →
      ExecutesTo (.brr h f) s c .s s (6 * ((regS s c f.a).toNat / 64) + (regS s c f.a).toNat % 64))

namespace Sys2Proof.Machine

/-- The word index that a branch at word index x with offset OFF names: x + sext(OFF, 24) (R359). -/
def branchTarget (s : State) (c : Nat) (f : FB) : Nat := (((getCls s c).ws.wi : Int) + f.off.toInt).toNat

/-- Class `c`'s S walker with another return stack. -/
def withStack (s : State) (c : Nat) (l : List Nat) : State := modCls s c fun k => { k with ws := { k.ws with rstack := l } }

/-- A control-flow fault (R133): class `c`'s node is to be killed for cause 0x12, TCAUSE holds code 0x22; no register, queue or
byte of memory changes. -/
def ControlFlowFault (i : Instr) (s : State) (c : Nat) : Prop :=
  ∀ t0, teamOf s c = some t0 → ∃ t, exec i s = .next t
    ∧ t.kills = ⟨t0.inst, t0.node, 0x12⟩ :: s.kills ∧ t.agenda = .event (.nodeKill t0.inst t0.node 0x12) :: s.agenda
    ∧ (getCls t c).tcode = 0x22 ∧ (getCls t c).sreg = (getCls s c).sreg ∧ (getCls t c).ws = (getCls s c).ws
    ∧ (∀ a, readByte t a = readByte s a)

end Sys2Proof.Machine

/-- R361: CALL and CALLR push the next word and branch, RET pops an address and goes there; a seventeenth address, an empty
stack and a target that is no word address are control-flow faults. -/
def Obligations.CallsAndReturns : Prop :=
  (∀ h f s c, Ready (.call h f) s c .s → (getCls s c).ws.rstack.length < 16 →
      ExecutesTo (.call h f) s c .s (withStack s c (((getCls s c).ws.wi + 1) :: (getCls s c).ws.rstack)) (branchTarget s c f))
  ∧ (∀ h f s c, Ready (.callr h f) s c .s → (getCls s c).ws.rstack.length < 16 →
      (regS s c f.a).toNat < 2 ^ 56 → (regS s c f.a).toNat % 64 < 6 →
      ExecutesTo (.callr h f) s c .s (withStack s c (((getCls s c).ws.wi + 1) :: (getCls s c).ws.rstack))
        (6 * ((regS s c f.a).toNat / 64) + (regS s c f.a).toNat % 64))
  ∧ (∀ h s c n r, Ready (.ret h) s c .s → (getCls s c).ws.rstack = n :: r →
      ExecutesTo (.ret h) s c .s (withStack s c r) n)
  ∧ (∀ h f s c, Ready (.call h f) s c .s → 16 ≤ (getCls s c).ws.rstack.length → ControlFlowFault (.call h f) s c)
  ∧ (∀ h s c, Ready (.ret h) s c .s → (getCls s c).ws.rstack = [] → ControlFlowFault (.ret h) s c)
  ∧ (∀ h f s c, Ready (.callr h f) s c .s →
      (¬ ((regS s c f.a).toNat < 2 ^ 56 ∧ (regS s c f.a).toNat % 64 < 6) ∨ 16 ≤ (getCls s c).ws.rstack.length) →
      ControlFlowFault (.callr h f) s c)
  ∧ (∀ h f s c, Ready (.brr h f) s c .s → ¬ ((regS s c f.a).toNat < 2 ^ 56 ∧ (regS s c f.a).toNat % 64 < 6) →
      ControlFlowFault (.brr h f) s c)

/-- R158, R360, R362, R363: BQ and BQN pop QB and follow its outcome, QPOP pops QS into s[D] and consumes no other element,
FQPUSH pushes into QF; each waits where its queue is empty, FQPUSH where QF holds 16 entries. -/
def Obligations.QueueWords : Prop :=
  (∀ h f s c b r, Ready (.bq h f) s c .s → (getCls s c).qb = b :: r →
      let s' := modCls s c fun k => { k with qb := r, ws := { k.ws with qbSeen := k.ws.qbSeen + 1 } }
      (b = true → ExecutesTo (.bq h f) s c .s s' (branchTarget s c f)) ∧ (b = false → Executes (.bq h f) s c .s s'))
  ∧ (∀ h f s c b r, Ready (.bqn h f) s c .s → (getCls s c).qb = b :: r →
      let s' := modCls s c fun k => { k with qb := r, ws := { k.ws with qbSeen := k.ws.qbSeen + 1 } }
      (b = false → ExecutesTo (.bqn h f) s c .s s' (branchTarget s c f)) ∧ (b = true → Executes (.bqn h f) s c .s s'))
  ∧ (∀ h f s c v r, Ready (.qpop h f) s c .s → (getCls s c).qs = v :: r → (∀ e ∈ s.poison, ∀ n, e.1 ≠ .queue c 0 n) →
      Executes (.qpop h f) s c .s
        (withS (modCls s c fun k => { k with qs := r, qhead := tset 0 k.qhead 0 ((tget 0 k.qhead 0 + 1) % 64) }) c f.d v))
  ∧ (∀ h f s c, Ready (.fqpush h f) s c .s → (getCls s c).qf.length < 16 →
      Executes (.fqpush h f) s c .s (modCls s c fun k => { k with qf := k.qf ++ [regS s c f.a] }))
  ∧ (∀ h f s c, Ready (.bq h f) s c .s → (getCls s c).qb = [] → Waits (.bq h f) s)
  ∧ (∀ h f s c, Ready (.bqn h f) s c .s → (getCls s c).qb = [] → Waits (.bqn h f) s)
  ∧ (∀ h f s c, Ready (.qpop h f) s c .s → (getCls s c).qs = [] → Waits (.qpop h f) s)
  ∧ (∀ h f s c, Ready (.fqpush h f) s c .s → 16 ≤ (getCls s c).qf.length → Waits (.fqpush h f) s)

/-- R364, R366, R367: PRIO sets the team's own class to the greater of p and PCEIL, on every member's PRIOC; SLEEPNS of 0 ns
passes, another stands in flight until its wait ends; RDLNC reads LNC, and in pair mode raises the LNC-read trap before issue. -/
def Obligations.TimeAndPriorityWords : Prop :=
  (∀ h f s c, Ready (.prio h f) s c .s → f.imm.toNat ≤ 3 →
      Executes (.prio h f) s c .s (setPrio s c f.imm.toNat)
      ∧ ∀ t0 m, teamOf s c = some t0 → (s.teams.map (·.id)).Nodup → m ∈ t0.classes → m < s.cls.length →
          (∀ u ∈ s.teams, m ∈ u.classes → u.state ≠ .saved → u = t0) →
          (getCls (setPrio s c f.imm.toNat) m).own.toNat = max f.imm.toNat (getCls s c).ceil.toNat
          ∧ getCls (setPrio s c f.imm.toNat) m
              = { getCls s m with own := (getCls (setPrio s c f.imm.toNat) m).own
                                  eff := (getCls (setPrio s c f.imm.toNat) m).eff })
  ∧ (∀ h f s c, Ready (.sleepns h f) s c .s → (regS s c f.a).toNat = 0 → Executes (.sleepns h f) s c .s s)
  ∧ (∀ h f s c, Ready (.sleepns h f) s c .s → (regS s c f.a).toNat ≠ 0 →
      IssuesWith (.sleepns h f) s c .s s [regS s c f.a] [])
  ∧ (∀ h f s c, Ready (.rdlnc h f) s c .s → (getPart s (partOf s c)).paired = false →
      Executes (.rdlnc h f) s c .s (withS s c f.d (lnc s c)))
  ∧ (∀ h f s c, Ready (.rdlnc h f) s c .s → (getCls s c).hmode = false → (getPart s (partOf s c)).paired = true →
      Traps (.rdlnc h f) s c .s 0x06 0)

/-- R368: RDCSR writes the register that CSR names into s[D], each in its own layout. RDCSR of AFLG waits for every older V and M
word; RDCSR of LNC traps in pair mode. -/
def Obligations.ReadControlRegister : Prop :=
  (∀ h f s c, Ready (.rdcsr h f) s c .s → (f.csr = 0x03 → (getPart s (partOf s c)).paired = false) →
      (f.csr = 0x09 → vmDone (getCls s c) (getCls s c).ws.ord = true) →
      Executes (.rdcsr h f) s c .s (withS s c f.d (csrRead s c f.csr.toNat)))
  ∧ (∀ s c, let k := getCls s c
      (csrRead s c 0x00).toNat = k.slip.toNat ∧ (csrRead s c 0x01).toNat = k.vl.toNat ∧ csrRead s c 0x02 = k.thnd
      ∧ csrRead s c 0x03 = lnc s c ∧ csrRead s c 0x05 = k.srseed ∧ (csrRead s c 0x06).toNat = k.strict.toNat
      ∧ (csrRead s c 0x07).toNat = k.ceil.toNat * 16 + k.own.toNat * 4 + k.eff.toNat
      ∧ (csrRead s c 0x0A).toNat
          = k.tcode.toNat * 2 ^ 56 + k.teng.toNat * 2 ^ 53 + k.hmode.toNat * 2 ^ 52 + k.tord.toNat
      ∧ csrRead s c 0x0B = k.tinfo
      ∧ (csrRead s c 0x04).getLsbD 63 = k.defer ∧ (k.defer = false → (csrRead s c 0x04).extractLsb' 24 24 = 0)
      ∧ (k.defer = true → (csrRead s c 0x04).extractLsb' 24 24 = k.lim)
      ∧ ((csrRead s c 0x04).getLsbD 62 = true ↔ ∃ p ∈ k.passes, p.forced = true ∧ p.tower ∈ towersInUse k)
      ∧ (csrRead s c 0x04).extractLsb' 54 8 = 0
      -- the lowest-numbered of the towers in use whose consumption, in 1/256 µs-equivalents, is greatest
      ∧ (∀ t ∈ towersInUse k, t < 34 → (∀ u ∈ towersInUse k, u < 34 ∧ consOf k u ≤ consOf k t ∧ (consOf k u = consOf k t → t ≤ u)) →
          ((csrRead s c 0x04).extractLsb' 48 6).toNat = t
          ∧ ((csrRead s c 0x04).extractLsb' 0 24).toNat
              = ((if k.defer then k.lim.toNat else 1950000) * 256 - consOf k t) / 256)
      -- lc0 belongs to the outermost active loop, whose context stands last in the walker's list
      ∧ (∀ j : Nat, j < 3 → (k.ws.loops.length ≤ j → csrRead s c (0x0C + j) = 0)
          ∧ (∀ l, j < k.ws.loops.length → k.ws.loops[k.ws.loops.length - 1 - j]? = some l → csrRead s c (0x0C + j) = BitVec.ofNat 64 l.cnt))
      ∧ ((getPart s (partOf s c)).paired = true → (csrRead s c 0x08).toNat = k.vsel.toNat * 2 ^ 9)
      ∧ ((getPart s (partOf s c)).paired = false → k.hub < 64 → k.kbkt < 4 → s.grant < 8 →
          (csrRead s c 0x08).toNat = k.clks.toNat * 2 ^ 17 + k.hub * 2 ^ 11 + k.vsel.toNat * 2 ^ 9 + k.kbkt * 2 ^ 7
            + k.klvl.toNat * 2 ^ 4 + k.bal.toNat * 8 + s.grant)
      ∧ (∀ j : Nat, j < 6 → ((csrRead s c 0x09).getLsbD j = true ↔
          ∃ d ∈ desksOf s c, (tget 0 k.aflg d : BitVec 6).getLsbD j = true)))
  ∧ (∀ h f s c, Ready (.rdcsr h f) s c .s → f.csr = 0x09 → vmDone (getCls s c) (getCls s c).ws.ord = false →
      Waits (.rdcsr h f) s)
  ∧ (∀ h f s c, Ready (.rdcsr h f) s c .s → (getCls s c).hmode = false → f.csr = 0x03 →
      (getPart s (partOf s c)).paired = true → Traps (.rdcsr h f) s c .s 0x06 0)

/-- R368 with R155, R394, R295, R300, R151: what WRCSR does to each register; one that is RO is left unchanged. -/
def Obligations.WriteControlRegister : Prop :=
  (∀ h f s c, Ready (.wrcsr h f) s c .s →
      (f.csr = 0x05 ∨ f.csr = 0x09 → vmDone (getCls s c) (getCls s c).ws.ord = true) →
      Executes (.wrcsr h f) s c .s (modCls s c fun k => csrWrite k f.csr.toNat (regS s c f.a)))
  ∧ (∀ (k : ClassState) (v : W64),
      (csrWrite k 0x00 v).body = ({ k with slip :=
          (if v.toNat % 2 ^ 13 = 0 then 1 else if 4096 < v.toNat % 2 ^ 13 then 4096 else BitVec.ofNat 13 v.toNat) } : ClassState).body
      ∧ (csrWrite k 0x01 v).body = ({ k with vl :=
          (if v.toNat % 2 ^ 10 = 0 then 64 else if 512 < v.toNat % 2 ^ 10 then 512
            else BitVec.ofNat 10 ((v.toNat % 2 ^ 10 + 63) / 64 * 64)) } : ClassState).body
      ∧ csrWrite k 0x02 v = { k with thnd := v }
      ∧ (csrWrite k 0x06 v).body = ({ k with strict := BitVec.ofNat 2 v.toNat } : ClassState).body
      ∧ ({ csrWrite k 0x05 v with srgen := [] } : ClassState) = { k with srseed := BitVec.ofNat 64 (v.toNat % 2 ^ 33), srgen := [] }
      ∧ (twf 1 k.srgen = true → ∀ d : Nat, d < 32 →
          let st := v.setWidth 32 ^^^ (if v.getLsbD 32 then BitVec.ofNat 32 (d * 0x9E3779B9) else 0)
          genOf (csrWrite k 0x05 v) d = if st = 0 then 1 else st)
      ∧ ({ csrWrite k 0x09 v with aflg := [] } : ClassState) = { k with aflg := [] }
      ∧ (twf 0 k.aflg = true → ∀ d j : Nat, d < 32 → j < 6 →
          (tget 0 (csrWrite k 0x09 v).aflg d : BitVec 6).getLsbD j = ((tget 0 k.aflg d : BitVec 6).getLsbD j && !v.getLsbD j))
      ∧ (∀ n : Nat, n ∈ [0x03, 0x04, 0x07, 0x08, 0x0A, 0x0B, 0x0C, 0x0D, 0x0E] → csrWrite k n v = k))
  ∧ (∀ h f s c, Ready (.wrcsr h f) s c .s → (f.csr = 0x05 ∨ f.csr = 0x09) →
      vmDone (getCls s c) (getCls s c).ws.ord = false → Waits (.wrcsr h f) s)

/-- R369: LDS reads and STS writes 1, 2, 4 or 8 little-endian bytes of sequencer scratch at x = u(s[A]) + OFF; an x out of range
or not aligned raises the segment fault before issue with TINFO = x mod 2^64. -/
def Sys2Proof.Machine.ScratchClauses : Prop :=
  (∀ h f s c, Ready (.lds h f) s c .s → Memory.wf s.mem →
      let x := (regS s c f.a).toNat + f.off.toNat
      let n := 2 ^ f.sz.toNat
      x + n ≤ 65536 → x % n = 0 → poisonAt s (.scratch c (x / 64)) = none →
      let v := leNat ((List.range n).map fun j => readByte s (scratchAddr c (x + j)))
      Executes (.lds h f) s c .s (withS s c f.d
        (if f.sx = true ∧ 2 ^ (8 * n - 1) ≤ v then BitVec.ofInt 64 ((v : Int) - 2 ^ (8 * n)) else BitVec.ofNat 64 v)))
  ∧ (∀ h f s c, Ready (.sts h f) s c .s →
      let x := (regS s c f.a).toNat + f.off.toNat
      let n := 2 ^ f.sz.toNat
      x + n ≤ 65536 → x % n = 0 →
      Executes (.sts h f) s c .s (writeBytes s (scratchAddr c x)
        ((List.range n).map fun j => (regS s c f.d).extractLsb' (8 * j) 8)))
  ∧ (∀ h f s c, Ready (.lds h f) s c .s → (getCls s c).hmode = false →
      let x := (regS s c f.a).toNat + f.off.toNat
      ¬ (x + 2 ^ f.sz.toNat ≤ 65536 ∧ x % 2 ^ f.sz.toNat = 0) → Traps (.lds h f) s c .s 0x02 (BitVec.ofNat 64 x))
  ∧ (∀ h f s c, Ready (.sts h f) s c .s → (getCls s c).hmode = false →
      let x := (regS s c f.a).toNat + f.off.toNat
      ¬ (x + 2 ^ f.sz.toNat ≤ 65536 ∧ x % 2 ^ f.sz.toNat = 0) → Traps (.sts h f) s c .s 0x02 (BitVec.ofNat 64 x))

/-- R351-R353, R172, R156: a common word is passed by every walker. BLK and NOP have no effect; LOOP takes the next counter, or
skips its body for a count of 0; PSW goes to the chosen variant, sets VSEL and HUB, and the other walkers follow. A common
word's header is zero (R324). -/
def Sys2Proof.Machine.CommonClauses : Prop :=
  (∀ h s c, Ready (.nop h) s c .s → Executes (.nop h) s c .s s)
  ∧ (∀ h f s c e, ReadyCommon (.blk h f) s c e → h.cmask = 0 → h.av = false → Executes (.blk h f) s c e s)
  ∧ (∀ h f s c e n, ReadyCommon (.loop h f) s c e → h.cmask = 0 → h.av = false →
      -- an immediate count; a register count that the S walker reads; a register count that it has resolved
      ((f.rs = false ∧ n = f.count.toNat)
        ∨ (f.rs = true ∧ e = .s ∧ regsFree (getCls s c) (getCls s c).ws.ord (.loop h f) = true
            ∧ n = (regS s c (f.count.extractLsb' 27 5)).toNat)
        ∨ (f.rs = true ∧ e ≠ .s
            ∧ (getCls s c).resolved.find? (fun r => r.1 = (walkerOf (getCls s c) e).ord)
                = some ((walkerOf (getCls s c) e).ord, n))) →
      let w := walkerOf (getCls s c) e
      (n = 0 → ExecutesTo (.loop h f) s c e s (w.wi + 1 + f.len.toNat))
      ∧ (n ≠ 0 → Executes (.loop h f) s c e (modCls s c fun k =>
          setWalker k e { w with loops := ⟨w.wi + 1, w.wi + 1 + f.len.toNat, n, k.run⟩ :: w.loops })))
  ∧ (∀ h f s c, ReadyCommon (.psw h f) s c .s → h.cmask = 0 → h.av = false → (getCls s c).hmode = false →
      (getPart s (partOf s c)).paired = false →
      let e := chosen s c
      ExecutesTo (.psw h f) s c .s
        (modCls (countLowp s c e) c fun k => { k with
          vsel := BitVec.ofNat 2 e
          hub := min (schedBudget (schedOf s c) e) (min (allowance (getCls s c).klvl.toNat) (desksOf s c).length) })
        (((getCls s c).ws.wi : Int) + (if e = 0 then f.t0 else if e = 1 then f.t1 else f.t2).toInt).toNat)
  ∧ (∀ h f s c e n, ReadyCommon (.psw h f) s c e → h.cmask = 0 → h.av = false → e ≠ .s →
      (getCls s c).resolved.find? (fun r => r.1 = (walkerOf (getCls s c) e).ord)
        = some ((walkerOf (getCls s c) e).ord, n) →
      ExecutesTo (.psw h f) s c e s n)

/-- The scratch loads and stores (R369, R370) and the words that every walker passes, with NOP (R351 to R353). -/
def Obligations.ScratchAndCommonWords : Prop := ScratchClauses ∧ CommonClauses

namespace Sys2Proof.Machine

/-- An address word: a[X] takes a value computed from a- and s-registers, nothing else changes (R374). -/
def ArRule {F : Type} (mk : Hdr → F → Instr) (x : F → BitVec 4) (g : State → Nat → F → W64) : Prop :=
  ∀ h f s c, Ready (mk h f) s c .a → Executes (mk h f) s c .a (withA s c (x f) (g s c f))

/-- An outcome compare pushes one bit into QB, and waits while QB holds 64 (R158, R375). -/
def AqRule {F : Type} (mk : Hdr → F → Instr) (cond : State → Nat → F → Prop) : Prop :=
  ∀ h f s c, Ready (mk h f) s c .a →
    (∀ b : Bool, (b = true ↔ cond s c f) → (getCls s c).qb.length < 64 →
      Executes (mk h f) s c .a (modCls s c fun k => { k with qb := k.qb ++ [b], qbAll := k.qbAll ++ [b] }))
    ∧ (64 ≤ (getCls s c).qb.length → Waits (mk h f) s)

/-- The addresses that a word of the A engine presents read no poisoned map entry (R130) and resolve to the movements `ms`,
leaving `s1` (copy-on-writes, R228); no view-order check fails (R224); every handle of the first translation batch that is written
finds its block and every frame of the batch is in the translation port (R211). -/
structure Presented (s : State) (c : Nat) (al : Allow) (kdst : Nat) (legs : List Leg) (s1 : State) (ms : List Move) : Prop where
  sound : legsPoison s c legs = none
  resolved : resolveLegs s (getCls s c).views c al legs [] = .ok ms
  ordered : vchkBad s c (getCls s c).wa.ord (kdst == 2) ms = none
  copied : (firstBatch s c (segsOf (winOf s c)) kdst ms).bad = none
  translated : missing (getCls s c) (firstBatch s c (segsOf (winOf s c)) kdst ms).pages = none
  after : s1 = (firstBatch s c (segsOf (winOf s c)) kdst ms).s

/-- What is noted when such a word issues: the pages it used, with VCHK = 1 the sectors it writes, the translations of its first
batch (R211). -/
def noted (s s1 : State) (c kdst : Nat) (ms : List Move) : State :=
  let ps := (firstBatch s c (segsOf (winOf s c)) kdst ms).pages
  modCls s1 c fun k => { noteWrites s1 c (touch k ps) (getCls s c).wa.ord ms with batch := heldOf k ps }

/-- What an issued word keeps of its operands: those given, with a mark if one of its movements goes through the team aperture,
which makes it a corridor request (R174). -/
def keptOps (legs : List Leg) (ops : List W64) : List W64 := markFar ops (legs.any viaAperture)

/-- The movements an issued word keeps: those resolved, or, for tower sources of at most 512 bytes per desk, the lines read in the
issue cycle (R391). -/
def KeptMoves (s1 : State) (tower : Bool) (perDesk : Nat) (ms ms' : List Move) : Prop :=
  ms' = ms ∨ (tower = true ∧ perDesk ≤ 512 ∧ ms' = ms.flatMap (captureMove s1))

/-- The desks that take part in a COPY, and the stride between their global addresses (R373, R377). -/
def copyRange (s : State) (c : Nat) (f : FAM) : List Nat :=
  if f.mode.getLsbD 5 then [(f.imm.extractLsb' 10 5).toNat] else desksOf s c
def deskStride (f : FAM) : Nat :=
  if (f.imm.extractLsb' 5 5).toNat = 0 then 0 else 2 ^ (f.imm.extractLsb' 5 5).toNat

/-- s[SC] names a barrier of the partition, if the word is counted (R256, R377). -/
def CounterOk (s : State) (c : Nat) (cnt : Bool) (sc : BitVec 5) : Prop :=
  cnt = true → ctrInRange s (partOf s c) (regS s c sc).toNat = true ∧ (regS s c sc).toNat % 2 = 0

/-- What a counted word keeps: the value of its token, the bytes of its add, the counter of that add, 1 if there is one. -/
def countOps (s : State) (c tok n : Nat) (cnt : Bool) (sc : BitVec 5) : List W64 :=
  [BitVec.ofNat 64 tok, BitVec.ofNat 64 n, regS s c sc + 1, if cnt then 1 else 0]

/-- One tower range of `n` bytes at `t` of a class's desks (R373). -/
def TowerRange (s : State) (c t n : Nat) : Prop :=
  t % 64 = 0 ∧ n % 64 = 0 ∧ 64 ≤ n ∧ t + n ≤ (if hotOn s c then 2 ^ 26 else 2 ^ 25)

end Sys2Proof.Machine

/-- R374: the address words. -/
def Obligations.AddressWords : Prop :=
  ArRule .aadd FAR.x (fun s c f => BitVec.ofNat 64 ((regA s c f.y).toNat + (regA s c f.z).toNat))
  ∧ ArRule .asub FAR.x (fun s c f => BitVec.ofInt 64 (((regA s c f.y).toNat : Int) - (regA s c f.z).toNat))
  ∧ ArRule .aaddi FAI.x (fun s c f => BitVec.ofInt 64 ((regA s c f.y).toNat + (regS s c f.s).toNat + f.imm.toInt))
  ∧ ArRule .amuli FAI.x (fun s c f => BitVec.ofInt 64 ((regA s c f.y).toNat + (regS s c f.s).toNat * f.imm.toInt))
  ∧ ArRule .ashli FAI.x (fun s c f => BitVec.ofNat 64 ((regA s c f.y).toNat * 2 ^ f.imm.toNat + (regS s c f.s).toNat))
  ∧ ArRule .amov FAI.x (fun s c f => BitVec.ofInt 64 ((regS s c f.s).toNat + f.imm.toInt))
  ∧ ArRule .amovi FAI.x (fun s c f => BitVec.ofNat 64 (f.imm.toNat * 2 ^ 32 + (regA s c f.y).toNat % 2 ^ 32))

/-- R375: the outcome compares. -/
def Obligations.OutcomeCompares : Prop :=
  AqRule .aqeq (fun s c f => regA s c (FAR.x f) = regA s c f.y)
  ∧ AqRule .aqne (fun s c f => regA s c (FAR.x f) ≠ regA s c f.y)
  ∧ AqRule .aqlt (fun s c f => (regA s c (FAR.x f)).toInt < (regA s c f.y).toInt)
  ∧ AqRule .aqltu (fun s c f => (regA s c (FAR.x f)).toNat < (regA s c f.y).toNat)
  ∧ AqRule .aqeqi (fun s c f => regA s c (FAI.x f) = BitVec.ofInt 64 ((regS s c f.s).toNat + f.imm.toInt))
  ∧ AqRule .aqlti (fun s c f =>
      (regA s c (FAI.x f)).toInt < (BitVec.ofInt 64 ((regS s c f.s).toNat + f.imm.toInt)).toInt)

/-- R377, R379: COPY and COPY2D with operands inside their limits issue with the movements their loops give, desks ascending and
rows ascending. WORD_COMPLETION moves the data. -/
def Sys2Proof.Machine.CopyClauses : Prop :=
  (∀ h f s c s1 ms, Ready (.copy h f) s c .a →
      let kind := (f.mode.extractLsb' 6 2).toNat
      let l := (regA s c f.an).toNat
      let d := (regA s c f.ad).toNat
      let a := (regA s c f.as).toNat
      let legs := if kind = 0 then (copyRange s c f).map fun k => (⟨.glob (a + k * deskStride f), .tower c k d, l⟩ : Leg)
        else if kind = 1 then (copyRange s c f).map fun k => ⟨.tower c k a, .glob (d + k * deskStride f), l⟩
        else [⟨.glob a, .glob d, l⟩]
      l % 64 = 0 → 64 ≤ l → l ≤ (if kind = 2 then 2 ^ 32 else 2 ^ 25) →
      (kind = 0 → TowerRange s c d l) → (kind ≠ 0 → d % 64 = 0) → (kind = 1 → TowerRange s c a l) → (kind ≠ 1 → a % 64 = 0) →
      (f.mode.getLsbD 5 = true → (f.imm.extractLsb' 10 5).toNat ∈ desksOf s c) →
      CounterOk s c (f.mode.getLsbD 4) f.sc → Presented s c ⟨true, true⟩ 1 legs s1 ms →
      ∃ ms', KeptMoves s1 (kind == 1) l ms ms'
        ∧ IssuesWith (.copy h f) s c .a (noted s s1 c 1 ms) (keptOps legs (countOps s c l l (f.mode.getLsbD 4) f.sc)) ms')
  ∧ (∀ h f s c s1 ms, Ready (.copy2d h f) s c .a →
      let kind := (f.mode.extractLsb' 6 2).toNat
      let r := (regA s c f.an).toNat / 2 ^ 32
      let w := (regA s c f.an).toNat % 2 ^ 32
      let pd := (regS s c f.sc).toNat / 2 ^ 32
      let ps := (regS s c f.sc).toNat % 2 ^ 32
      let d := (regA s c f.ad).toNat
      let a := (regA s c f.as).toNat
      let row := fun (j : Nat) =>
        if kind = 0 then (copyRange s c f).map fun k => (⟨.glob (a + j * ps + k * deskStride f), .tower c k (d + j * pd), w⟩ : Leg)
        else if kind = 1 then (copyRange s c f).map fun k => ⟨.tower c k (a + j * ps), .glob (d + j * pd + k * deskStride f), w⟩
        else [⟨.glob (a + j * ps), .glob (d + j * pd), w⟩]
      1 ≤ r → r ≤ 2 ^ 20 → w % 64 = 0 → 64 ≤ w → w ≤ 2 ^ 25 → pd % 64 = 0 → ps % 64 = 0 → w ≤ pd → w ≤ ps →
      (kind = 0 → ∀ j < r, TowerRange s c (d + j * pd) w) → (kind ≠ 0 → d % 64 = 0) →
      (kind = 1 → ∀ j < r, TowerRange s c (a + j * ps) w) → (kind ≠ 1 → a % 64 = 0) →
      (f.mode.getLsbD 5 = true → (f.imm.extractLsb' 10 5).toNat ∈ desksOf s c) →
      Presented s c ⟨false, false⟩ 1 ((List.range r).flatMap row) s1 ms →
      ∃ ms', KeptMoves s1 (kind == 1) (r * w) ms ms'
        ∧ IssuesWith (.copy2d h f) s c .a (noted s s1 c 1 ms)
            (keptOps ((List.range r).flatMap row) [BitVec.ofNat 64 (r * w), 0, 1, 0]) ms')
  ∧ (∀ h f s c, Ready (.copy h f) s c .a →
      -- a length outside its limits traps before issue, TINFO holding it
      let l := (regA s c f.an).toNat
      ¬ (l % 64 = 0 ∧ 64 ≤ l ∧ l ≤ (if (f.mode.extractLsb' 6 2).toNat = 2 then 2 ^ 32 else 2 ^ 25)) →
      Traps (.copy h f) s c .a 0x02 (regA s c f.an))

/-- R380-R382, R385: GATHER and SCATTER first take their tokens and read the index lists, eight lines of each desk in a cycle,
then issue one row for each index, desks ascending; LDQ issues an aligned read once an entry of its queue is free; BREFILL issues
its beats. -/
def Sys2Proof.Machine.IndexedClauses : Prop :=
  (∀ h f s c s1 ms ls, Ready (.gather h f) s c .a →
      let rs := 64 * 2 ^ (f.mode.extractLsb' 4 4).toNat
      let n := f.imm.toNat
      let base := (regA s c f.as).toNat
      let tow := (regA s c f.ad).toNat
      let legs := ((desksOf s c).zip ls).flatMap fun x => (x.2.zipIdx).map fun y =>
        (⟨.glob (base + y.1 * rs), .tower c x.1 (tow + y.2 * rs), rs⟩ : Leg)
      takenHere (getCls s c) .a = some ⟨(getCls s c).run, (getCls s c).wa.ord, some ls⟩ → (ls.headD []).length = n →
      TowerRange s c tow (n * rs) → base % 64 = 0 → TowerRange s c (regA s c f.an).toNat ((4 * n + 63) / 64 * 64) →
      CounterOk s c (f.mode.getLsbD 3) f.sc →
      Presented s c ⟨true, true⟩ 1 legs s1 ms →
      IssuesWith (.gather h f) s c .a (noted s s1 c 1 ms)
        (keptOps legs (countOps s c n (n * rs) (f.mode.getLsbD 3) f.sc ++ [regA s c f.as, regA s c f.ad, regA s c f.an])) ms)
  ∧ (∀ h f s c s1 ms ls, Ready (.scatter h f) s c .a →
      let rs := 64 * 2 ^ (f.mode.extractLsb' 4 4).toNat
      let n := f.imm.toNat
      let base := (regA s c f.ad).toNat
      let tow := (regA s c f.as).toNat
      let legs := ((desksOf s c).zip ls).flatMap fun x => (x.2.zipIdx).map fun y =>
        (⟨.tower c x.1 (tow + y.2 * rs), .glob (base + y.1 * rs), rs⟩ : Leg)
      takenHere (getCls s c) .a = some ⟨(getCls s c).run, (getCls s c).wa.ord, some ls⟩ → (ls.headD []).length = n →
      TowerRange s c tow (n * rs) → base % 64 = 0 → TowerRange s c (regA s c f.an).toNat ((4 * n + 63) / 64 * 64) →
      CounterOk s c (f.mode.getLsbD 3) f.sc →
      Presented s c ⟨true, true⟩ 1 legs s1 ms →
      ∃ ms', KeptMoves s1 true (n * rs) ms ms' ∧ IssuesWith (.scatter h f) s c .a (noted s s1 c 1 ms)
        (keptOps legs (countOps s c n (n * rs) (f.mode.getLsbD 3) f.sc ++ [regA s c f.ad, regA s c f.as, regA s c f.an])) ms')
  ∧ (∀ h f s c i tow ls, (i = .gather h f ∧ tow = (regA s c f.ad).toNat ∨ i = .scatter h f ∧ tow = (regA s c f.as).toNat) →
      -- what has been read of the lists so far: nothing, and then the tokens are taken, or what an earlier cycle has left
      Ready i s c .a → Memory.wf s.mem → ls = ((takenHere (getCls s c) .a).bind (·.index)).getD [] → s.poison = [] →
      let n := f.imm.toNat
      let off := (regA s c f.an).toNat
      (ls.headD []).length ≠ n →
      TowerRange s c tow (n * (64 * 2 ^ (f.mode.extractLsb' 4 4).toNat)) →
      (regA s c (match i with | .gather _ _ => f.as | _ => f.ad)).toNat % 64 = 0 →
      TowerRange s c off ((4 * n + 63) / 64 * 64) → CounterOk s c (f.mode.getLsbD 3) f.sc →
      -- no older word of the engine still has to write an index line (R154)
      (∀ g ∈ olderOps (getCls s c) (getCls s c).wa.ord, g.eng = .a →
        overlap (deskSpans s c off ((4 * n + 63) / 64 * 64)) (moveWrites s c g.moves) = false) →
      -- eight lines of each desk, 128 indices, in a cycle
      exec i s = .next (modCls s c fun k =>
        let next : Taken := ⟨k.run, k.wa.ord, some (((desksOf s c).zipIdx).map fun d =>
          let old := ls.getD d.2 []
          old ++ (List.range (min 128 (n - old.length))).map fun j =>
            leNat ((List.range 4).map fun b => readByte s (towerByte (getCls s c) c d.1 (off + 4 * (old.length + j) + b))))⟩
        match takenHere k .a with
        | none => { takeTokens k (hdr i).cmask with taken := next :: k.taken }
        | some o => { k with taken := next :: k.taken.erase o }))
  ∧ (∀ h f s c s1 ms, Ready (.ldq h f) s c .a →
      let n := 2 ^ (f.mode.extractLsb' 5 2).toNat
      let x := (regA s c f.as).toNat + f.imm.toNat
      x % n = 0 → roomQ (getCls s c) (f.mode.getLsbD 7) = true → Presented s c ⟨true, true⟩ 1 [⟨.glob x, .none, n⟩] s1 ms →
      IssuesWith (.ldq h f) s c .a (noted s s1 c 1 ms) (keptOps [⟨.glob x, .none, n⟩] []) ms)
  ∧ (∀ h f s c s1 ms, Ready (.brefill h f) s c .a →
      let per := if f.mode.getLsbD 0 then 64 else 512
      let an := (regA s c f.an).toNat
      let sc := (regS s c f.sc).toNat
      let n := an / 2 ^ 32
      let t := (regA s c f.ad).toNat
      let src := (regA s c f.as).toNat
      -- column bit 4·l + k names desk column k of the class with local index l on the named die
      let cols := ((List.range 80).filter fun b => (sc + an % 2 ^ 16 * 2 ^ 64).testBit b).map fun b =>
        (20 * (an / 2 ^ 16 % 2) + b / 4, b % 4)
      let legs := (List.range n).flatMap fun b => cols.flatMap fun x => (List.range 8).map fun r =>
        (⟨.glob (src + 512 * b + if f.mode.getLsbD 0 then 64 * r else 0), .tower x.1 (4 * r + x.2) (t + per * b), per⟩ : Leg)
      cols ≠ [] → an / 2 ^ 17 % 2 ^ 15 = 0 → 1 ≤ n → (∀ x ∈ cols, classIn s (partOf s c) x.1 = true) →
      t % 64 = 0 → t + per * n ≤ 2 ^ 25 → src % 64 = 0 → (∀ x ∈ cols, frcOf (getCls s x.1) = false) →
      Presented s c ⟨false, true⟩ 1 legs s1 ms →
      IssuesWith (.brefill h f) s c .a (noted s s1 c 1 ms)
        (keptOps legs [BitVec.ofNat 64 n, 0, 1, 0, BitVec.ofNat 64 (cols.length * 8 * per)]) ms)
  ∧ (∀ h f s c, Ready (.brefill h f) s c .a →
      -- forcing on a target class holds a refill before issue (R196)
      let an := (regA s c f.an).toNat
      let cols := refillTargets an (regS s c f.sc).toNat
      cols ≠ [] → an / 2 ^ 17 % 2 ^ 15 = 0 → 1 ≤ an / 2 ^ 32 → (∀ x ∈ cols, classIn s (partOf s c) x.1 = true) →
      (regA s c f.ad).toNat % 64 = 0 →
      (regA s c f.ad).toNat + (if f.mode.getLsbD 0 then 64 else 512) * (an / 2 ^ 32) ≤ 2 ^ 25 →
      (regA s c f.as).toNat % 64 = 0 → (∃ x ∈ cols, frcOf (getCls s x.1) = true) → Waits (.brefill h f) s)

/-- The copies and refills, and the indexed words and queue reads, issue with the movements that their operands name. -/
def Obligations.CopyAndIndexedWordsIssue : Prop := CopyClauses ∧ IndexedClauses

namespace Sys2Proof.Machine

/-- Only memory differs, and what a write to memory makes stale: scan results (R338) and fetch line buffers (R350). -/
def MemOnly (s t : State) : Prop :=
  { t with mem := [], cls := [], dies := [] } = { s with mem := [], cls := [], dies := [] }
    ∧ (∀ d, { getDie t d with scan := [] } = { getDie s d with scan := [] })
    ∧ (∀ c, { getCls t c with fetchBuf := [] } = { getCls s c with fetchBuf := [] })

/-- Only memory differs, what a write to it makes stale, and the address an encrypted sector is kept under (R230). -/
def MemSealed (s t : State) : Prop := MemOnly { s with tweaks := [] } { t with tweaks := [] }

/-- The parts of a pool follow one another below its first block (R225). -/
def PoolLaidOut (p : Pool) : Prop := 64 + 16 * p.nent + 6 * p.nblk ≤ p.blkoff ∧ 0 < p.nent

/-- Block-store word `f` of class `c` has its reply (R383): a[AD] takes the handle, s[TOK] the status, and it completes. -/
def kvReply (t : State) (c : Nat) (f : InFlight) (ad : BitVec 4) (tok : BitVec 5) (hdl status : Nat) : State :=
  complete (setS (setA t c ad.toNat (BitVec.ofNat 64 hdl)) c tok.toNat (BitVec.ofNat 64 status)) c f

/-- A map operation can be performed: nothing holds the issued word, no unit is poisoned, its pool is there, no sector of its map was
written under another address (R230), and no atomic has read a word of it and not written it (R233). -/
structure MapOpReady (s : State) (c id : Nat) (f : InFlight) (pnum : Nat) (p : Pool) : Prop where
  stands : findOp s c id = some f
  first : qaReady s c f = true
  clean : s.poison = []
  pool : poolOf s c pnum = some p
  written : ∀ k, k < p.nent → misread s (mapAt p k / 64) (p.seg.vbase + mapOff k) = false
  settled : amoOpen s p.seg.pbase p.seg.len = false
  wf : Memory.wf s.mem
  laid : PoolLaidOut p

/-- A handle (R226): 0xFC, PNUM, GEN, ENTRY, OFFSET 0. -/
def handleOf (p : Pool) (k gen : Nat) : Nat := 0xFC * 2 ^ 48 + p.seg.pnum * 2 ^ 44 + gen * 2 ^ 40 + k * 2 ^ 16

/-- Where desk `d` stands in the span of one class, and its size (R191). -/
def deskXY (hot : Bool) (d : Nat) : Nat × Nat := if hot then (d % 4 / 2, d / 4) else (d % 4, d / 4)
/-- The desk at (x, y) of that span. -/
def deskAt (hot : Bool) (x y : Nat) : Nat := if hot then 4 * y + 2 * x + y % 2 else 4 * y + x

/-- What desk `d` receives in a shift of one class, sources given by desk (R192). -/
def shiftIn (hot : Bool) (dir edge : BitVec 2) (zero : α) (src : Nat → α) (d : Nat) : α :=
  let w : Int := if hot then 2 else 4
  let dx : Int := if dir = 2 then 1 else if dir = 3 then -1 else 0
  let dy : Int := if dir = 1 then 1 else if dir = 0 then -1 else 0
  let x := (deskXY hot d).1 - dx
  let y := (deskXY hot d).2 - dy
  if (0 ≤ x ∧ x < w ∧ 0 ≤ y ∧ y < 8) ∨ edge = 0 then src (deskAt hot (x % w).toNat (y % 8).toNat)
  else if edge = 2 then src d else zero

/-- What one member of a line brings to a shift: its own direction, edge mode and size, and its desks' source units, lines with their
poison. -/
structure LineShift where
  dir : BitVec 2
  edge : BitVec 2
  lines : Nat
  unit : Nat → XUnit

/-- Where desk `d` of the member of rank `q` stands in the span of a line, shape 1 east-west, 2 north-south (R191). -/
def linePos (shape q d : Nat) : Int × Int :=
  if shape = 1 then (4 * q + (d % 4 : Nat), (d / 4 : Nat)) else ((d % 4 : Nat), 8 * q + (d / 4 : Nat))

/-- The span of a line of `n` members, the place that a direction leads to, whether that lies inside, and round the edge. -/
def lineDim (shape n : Nat) : Int × Int := if shape = 1 then (4 * n, 8) else (4, 8 * n)
def dirXY (dir : BitVec 2) : Int × Int := if dir = 0 then (0, -1) else if dir = 1 then (0, 1) else if dir = 2 then (1, 0) else (-1, 0)
def inSpan (dim p : Int × Int) : Bool := decide (0 ≤ p.1 ∧ p.1 < dim.1 ∧ 0 ≤ p.2 ∧ p.2 < dim.2)
def around (dim p : Int × Int) : Int × Int := (p.1 % dim.1, p.2 % dim.2)

/-- What desk `d` of the member of rank `q` receives (R192, R193): by its own direction and edge mode it looks for its sender; a unit
of another member crosses only where that member's direction and edge mode send it here; it is written at the receiver's size. -/
def lineIn (shape : Nat) (ms : List LineShift) (q d : Nat) : XUnit :=
  let own := ms.getD q ⟨0, 0, 0, fun _ => []⟩
  let dim := lineDim shape ms.length
  let p := linePos shape q d
  let from_ : Int × Int := (p.1 - (dirXY own.dir).1, p.2 - (dirXY own.dir).2)
  let w := around dim from_
  let r := if shape = 1 then (w.1 / 4).toNat else (w.2 / 8).toNat
  let e := if shape = 1 then (4 * w.2 + w.1 % 4).toNat else (4 * (w.2 % 8) + w.1).toNat
  let other := ms.getD r ⟨0, 0, 0, fun _ => []⟩
  let to_ : Int × Int := ((linePos shape r e).1 + (dirXY other.dir).1, (linePos shape r e).2 + (dirXY other.dir).2)
  let u : XUnit :=
    if inSpan dim from_ = true ∨ own.edge = 0 then
      if r = q then own.unit e
      else if (inSpan dim to_ = true ∨ other.edge = 0) ∧ around dim to_ = p then other.unit e else []
    else if own.edge = 2 then own.unit d else []
  (List.range own.lines).map fun j => u.getD j (List.replicate 64 0, none)

/-- A shift in flight that has kept its sources, desks ascending (R193): tower and registers hold media poison only (log 52). -/
structure KeptUnits (f : InFlight) (g : FXS) (x : LineShift) : Prop where
  dir : x.dir = g.dir
  edge : x.edge = g.edge
  lines : x.lines = match f.instr with
    | .xsh _ _ => 8
    | _ => g.nl.toNat + 1
  moves : f.moves = (List.range 32).flatMap fun d => (x.unit d).map fun l => (⟨.line l.1 l.2, .none, 64⟩ : Move)
  sized : ∀ d, d < 32 → (x.unit d).length = x.lines
  whole : ∀ d, d < 32 → ∀ l ∈ x.unit d, l.1.length = 64 ∧ l.2 ≠ some true

/-- No two desks of the class hold one tower (R189). -/
def RemapOk (k : ClassState) : Prop := ∀ d e : Nat, d < 32 → e < 32 → physTower k d = physTower k e → d = e
/-- The length of a corridor transfer (R390). -/
def XferLen (n : Nat) : Prop := n % 64 = 0 ∧ 64 ≤ n ∧ n ≤ 2 ^ 25

/-- A good corridor address for `n` bytes (R389): the fields that must be zero, a class of the issuing partition, or of the peer
package that an unpaired partition names. -/
def CorridorAddress (s : State) (c : Nat) (a : W64) (n : Nat) (one : Bool) : Prop :=
  a.extractLsb' 46 9 = 0 ∧ a.extractLsb' 26 9 = 0 ∧ (a.extractLsb' 40 6).toNat < 40
    ∧ (one = false → a.extractLsb' 35 5 = 0)
    ∧ (a.extractLsb' 0 26).toNat % 64 = 0 ∧ (a.extractLsb' 0 26).toNat + n ≤ 2 ^ 25
    ∧ (a.getLsbD 63 = false → a.extractLsb' 55 8 = 0 ∧ classIn s (partOf s c) (a.extractLsb' 40 6).toNat = true)
    ∧ (a.getLsbD 63 = true → (getPart s (partOf s c)).paired = false
        ∧ (getPart s (partOf s c)).peer = some (a.extractLsb' 55 8).toNat)

/-- The desks that exchange (R390): one pair, or every participating desk with its like. -/
def xferPairs (s : State) (c : Nat) (f : FXC) (a : W64) : List (Nat × Nat) :=
  if f.mode.getLsbD 0 then [((f.mode.extractLsb' 1 5).toNat, (a.extractLsb' 35 5).toNat)]
  else (desksOf s c).map fun d => (d, d)

/-- The counter of a counted transfer is in the partition; of one to another package its zero bits are checked (R390). -/
def XferCounter (s : State) (c : Nat) (f : FXC) (far : Bool) : Prop :=
  f.mode.getLsbD 6 = true → if far then (regS s c f.ctr).toNat < 2 ^ 25 else handleOk s (regS s c f.ctr).toNat = true

/-- What a corridor transfer keeps: token, bytes of its add, counter, whether it adds, classes named, address. -/
def xferOps (s : State) (c : Nat) (f : FXC) (tok n classes : Nat) (a : W64) : List W64 :=
  [BitVec.ofNat 64 tok, BitVec.ofNat 64 n, regS s c f.ctr, if f.mode.getLsbD 6 then 1 else 0, BitVec.ofNat 64 classes, a]

end Sys2Proof.Machine

/-- R225-R227, R383: the block-store words go to their pool's home, or raise the segment fault naming PNUM; there the map
operation is performed: a key found, a block allocated, an entry shared, a sequence released, each with its status. -/
def Obligations.BlockStoreWords : Prop :=
  (∀ h f s c i, (i = .kvmap h f ∨ i = .kvshare h f ∨ i = .kvfree h f) → Ready i s c .a →
      (∀ p, poolOf s c (f.mode.extractLsb' 0 4).toNat = some p →
        IssuesWith i s c .a s [regA s c f.as, regA s c f.an] [⟨.mem p.seg.vbase, .none, p.seg.len⟩])
      ∧ (poolOf s c (f.mode.extractLsb' 0 4).toNat = none →
          Traps i s c .a 0x02 (BitVec.ofNat 64 (f.mode.extractLsb' 0 4).toNat)))
  ∧ (∀ s c id f h g p, MapOpReady s c id f (g.mode.extractLsb' 0 4).toNat p → f.instr = .kvmap h g →
      let key := (f.ops.getD 0 0).toNat
      -- a live entry
      (∀ k, liveAt s p key = some k → exec (.mapOpArrival c id) s
          = .next (kvReply s c f g.ad g.tok (handleOf p k (getEntry s p k).gen) 0))
      -- a block from the free stack
      ∧ (∀ k b, liveAt s p key = none → openAt s p key = some k → 0 < ftop s p →
          b = readNat s (freeAt p (ftop s p - 1)) 4 → b < p.nblk →
          let gen := ((getEntry s p k).gen + 1) % 16
          ∃ t, exec (.mapOpArrival c id) s = .next (kvReply t c f g.ad g.tok (handleOf p k gen) 1)
            ∧ MemSealed s t
            ∧ getEntry t p k = ⟨key, b, true, false, gen⟩
            ∧ (∀ j, j < 2 ^ p.log2 → readByte t (blockAt p b + j) = 0)
            ∧ refCount t p b = 1 ∧ ftop t p = ftop s p - 1 ∧ nlive t p = (nlive s p + 1) % 2 ^ 32
            ∧ (∀ a, ¬ (poolAt p 16 ≤ a ∧ a < poolAt p 24) → ¬ (mapAt p k ≤ a ∧ a < mapAt p k + 16) →
                ¬ (countAt p b ≤ a ∧ a < countAt p b + 2) → ¬ (blockAt p b ≤ a ∧ a < blockAt p b + 2 ^ p.log2) →
                readByte t a = readByte s a))
      -- no slot, or no block
      ∧ (liveAt s p key = none → (openAt s p key = none ∨ ftop s p = 0) →
          exec (.mapOpArrival c id) s = .next (kvReply s c f g.ad g.tok 0 2)))
  ∧ (∀ s c id f h g p, MapOpReady s c id f (g.mode.extractLsb' 0 4).toNat p → f.instr = .kvshare h g →
      let new := (f.ops.getD 0 0).toNat
      let old := (f.ops.getD 1 0).toNat
      (liveAt s p old = none → exec (.mapOpArrival c id) s = .next (kvReply s c f g.ad g.tok 0 3))
      ∧ (∀ o n, liveAt s p old = some o → liveAt s p new = some n →
          exec (.mapOpArrival c id) s = .next (kvReply s c f g.ad g.tok 0 4))
      ∧ (∀ o, liveAt s p old = some o → liveAt s p new = none →
          (openAt s p new = none ∨ 65535 ≤ refCount s p (getEntry s p o).block) →
          exec (.mapOpArrival c id) s = .next (kvReply s c f g.ad g.tok 0 2))
      ∧ (∀ o k, liveAt s p old = some o → liveAt s p new = none → openAt s p new = some k →
          refCount s p (getEntry s p o).block < 65535 → (getEntry s p o).block < p.nblk →
          let b := (getEntry s p o).block
          let gen := ((getEntry s p k).gen + 1) % 16
          ∃ t, exec (.mapOpArrival c id) s = .next (kvReply t c f g.ad g.tok (handleOf p k gen) 0)
            ∧ MemSealed s t
            ∧ getEntry t p k = ⟨new, b, true, false, gen⟩
            ∧ refCount t p b = refCount s p b + 1 ∧ nlive t p = (nlive s p + 1) % 2 ^ 32
            ∧ (∀ a, ¬ (poolAt p 20 ≤ a ∧ a < poolAt p 24) → ¬ (mapAt p k ≤ a ∧ a < mapAt p k + 16) →
                ¬ (countAt p b ≤ a ∧ a < countAt p b + 2) → readByte t a = readByte s a)))
  ∧ (∀ s c id f h g p, MapOpReady s c id f (g.mode.extractLsb' 0 4).toNat p → f.instr = .kvfree h g →
      let live := fun (k : Nat) => (getEntry s p k).v && (getEntry s p k).key / 2 ^ 32 == (f.ops.getD 0 0).toNat / 2 ^ 32
      -- how many of the released entries name block b; the blocks whose count they bring to 0
      let refs := fun (b : Nat) => (List.range p.nent).countP fun k => live k && (getEntry s p k).block == b
      let freed := fun (b : Nat) => decide (0 < refs b) && decide (refCount s p b = refs b)
      let released := (List.range p.nent).countP live
      ∃ t, exec (.mapOpArrival c id) s = .next (complete (setS t c g.tok.toNat (BitVec.ofNat 64 released)) c f)
        ∧ MemSealed s t
        ∧ (∀ k, k < p.nent → getEntry t p k
            = if live k then { getEntry s p k with v := false, t := true } else getEntry s p k)
        -- in a pool whose NLIVE, counts and free stack agree with its map
        ∧ (released ≤ nlive s p → (∀ k, k < p.nent → live k = true → (getEntry s p k).block < p.nblk) →
            (∀ b, b < p.nblk → refs b ≤ refCount s p b) → ftop s p + (List.range p.nblk).countP freed ≤ p.nblk →
            nlive t p = nlive s p - released ∧ ftop t p = ftop s p + (List.range p.nblk).countP freed
            ∧ (∀ b, b < p.nblk → refCount t p b = refCount s p b - refs b)
            ∧ (∀ j, j < ftop s p → readNat t (freeAt p j) 4 = readNat s (freeAt p j) 4)
            ∧ (∀ b, b < p.nblk → freed b = true →
                ∃ j, ftop s p ≤ j ∧ j < ftop t p ∧ readNat t (freeAt p j) 4 = b)
            ∧ (∀ a, ¬ (poolAt p 16 ≤ a ∧ a < poolAt p 24) → ¬ (mapAt p 0 ≤ a ∧ a < freeAt p p.nblk) → readByte t a = readByte s a)))

/-- R220, R384: VIEW.DEF defines its slot when it issues, its two aliases go to a[AD] and a[AD + 1] at completion; a failed
check defines nothing and raises the segment fault at B. -/
def Obligations.ViewDefinition : Prop :=
  ∀ h f s c, Ready (.viewDef h f) s c .a →
    let slot := (f.mode.extractLsb' 0 4).toNat
    let b := (regA s c f.as).toNat
    let nr := (regA s c f.an).toNat % 2 ^ 25
    let nc := (regA s c f.an).toNat / 2 ^ 25
    let e := 2 ^ (f.mode.extractLsb' 4 2).toNat
    let p := (regS s c f.sc).toNat
    let good := 1 ≤ nr ∧ nr ≤ 2 ^ 24 ∧ 1 ≤ nc ∧ p % 64 = 0 ∧ nc * e ≤ p ∧ nr * nc * e ≤ 2 ^ 42
      ∧ ∃ g, findSeg (segsOf (winOf s c)) b = some g ∧ b + nr * p ≤ g.vbase + g.len
    (good → IssuesWith (.viewDef h f) s c .a
      (modCls s c fun k => { k with views := (List.range 16).map fun j =>
        if j = slot then ⟨true, b, p, nc, nr, e⟩ else k.views.getD j {} })
      [BitVec.ofNat 64 (0xFD * 2 ^ 48 + 2 ^ 46 + slot * 2 ^ 42),
       if nc * e % 64 = 0 ∧ nr % 64 = 0 then BitVec.ofNat 64 (0xFD * 2 ^ 48 + 2 ^ 47 + slot * 2 ^ 42) else 0] [])
    ∧ (¬ good → Traps (.viewDef h f) s c .a 0x02 (regA s c f.as))

/-- R184-R186, R387: RFDEFER puts deferral in force or ends it; RFNOW ends it and starts a pass on every tower in use that has
none; RDRETB pushes RETB into QS, and waits for room and for the entries older words have reserved. -/
def Sys2Proof.Machine.RefreshWordClauses : Prop :=
  (∀ h f s c, Ready (.rfdefer h f) s c .a →
      let l := min ((regS s c f.s).toNat + f.imm.toNat) (2 ^ 64 - 1)
      let s' := modCls s c fun k =>
        if l = 0 then endDefer k else { k with defer := true, lim := BitVec.ofNat 24 (min l 1950000) }
      (∃ t, Passed (.rfdefer h f) s' t c .a ((getCls s c).wa.wi + 1) ∧ exec (.rfdefer h f) s = .next (force t c))
      ∧ (forcedTowers (getCls s' c) = [] → Executes (.rfdefer h f) s c .a s'))
  ∧ (∀ k : ClassState, (endDefer k).defer = false ∧ (endDefer k).lim = 0
      ∧ (∀ p ∈ k.passes, p ∈ (endDefer k).passes)
      ∧ (∀ t ∈ towersInUse k, passOn (endDefer k) t = (passOn k t || decide (1000000 * 256 ≤ consOf k t)))
      ∧ { endDefer k with passes := k.passes } = ({ k with defer := false, lim := 0 } : ClassState))
  ∧ (∀ h s c, Ready (.rfnow h) s c .a →
      ∃ k', Executes (.rfnow h) s c .a (modCls s c fun _ => k')
        ∧ k'.defer = false ∧ k'.lim = 0 ∧ (∀ t ∈ towersInUse (getCls s c), passOn k' t = true)
        ∧ (∀ p ∈ (getCls s c).passes, p ∈ k'.passes)
        ∧ { k' with passes := (getCls s c).passes } = ({ getCls s c with defer := false, lim := 0 } : ClassState))
  ∧ (∀ h s c, Ready (.rdretb h) s c .a →
      (roomQ (getCls s c) false = true → reservedQ (getCls s c) false = 0 →
        Executes (.rdretb h) s c .a (modCls s c fun k => { k with qs := k.qs ++ [retb (getCls s c)] }))
      ∧ (roomQ (getCls s c) false = false ∨ reservedQ (getCls s c) false ≠ 0 → Waits (.rdretb h) s))

/-- R191-R193, R388: XSH and XSHT give every participating desk its neighbour's unit, all sources read before any write; the edge
desks wrap, take zeros or hold. A shift along a line of classes goes into flight with its sources and waits for its partners. -/
def Obligations.SystolicShifts : Prop :=
  (∀ h f s c, Ready (.xsh h f) s c .x → alongLine s c f.dir = false → s.poison = [] →
      (hotOn s c = false → f.s.toNat < 32 ∧ f.d.toNat < 32) →
      ∃ v, Executes (.xsh h f) s c .x (modCls s c fun k => { k with v := v })
        ∧ (∀ d ∈ desksOf s c, vGet { getCls s c with v := v } (hotOn s c) d f.d.toNat
            = shiftIn (hotOn s c) f.dir f.edge 0 (fun e => vGet (getCls s c) (hotOn s c) e f.s.toNat) d)
        ∧ (∀ d, d < 32 → ∀ r, r < 32 → (∀ e ∈ desksOf s c, vKey (hotOn s c) e f.d.toNat ≠ some (d, r)) →
            tget 0 v (d * 32 + r) = tget 0 (getCls s c).v (d * 32 + r)))
  ∧ (∀ h f s c, Ready (.xsht h f) s c .x → alongLine s c f.dir = false → s.poison = [] → Memory.wf s.mem →
      RemapOk (getCls s c) →
      let hot := hotOn s c
      let n := 64 * (f.nl.toNat + 1)
      let src := (regS s c (f.s.extractLsb' 1 5)).toNat
      let dst := (regS s c (f.d.extractLsb' 1 5)).toNat
      TowerRange s c src n → TowerRange s c dst n →
      -- no older word of the engine still has to write these lines, or to read those written (R154)
      xTurn s c (olderOps (getCls s c) (getCls s c).wx.ord) (deskSpans s c src n) (deskSpans s c dst n) = true →
      ∃ m dirty, Executes (.xsht h f) s c .x (modCls { s with mem := m } c fun k => { k with dirty := dirty })
        ∧ (∀ d ∈ desksOf s c, ∀ j, j < n → tget 0 m (towerByte (getCls s c) c d (dst + j))
            = shiftIn hot f.dir f.edge 0 (fun e => readByte s (towerByte (getCls s c) c e (src + j))) d)
        ∧ (∀ a, (∀ d ∈ desksOf s c, ∀ j, j < n → a ≠ towerByte (getCls s c) c d (dst + j)) → tget 0 m a = readByte s a))
  ∧ (∀ h f s c, Ready (.xsh h f) s c .x → alongLine s c f.dir = true →
      IssuesWith (.xsh h f) s c .x s [BitVec.ofNat 64 f.d.toNat]
        ((desksOf s c).flatMap fun d => (regUnit s c d f.s.toNat).map fun l => ⟨.line l.1 l.2, .none, 64⟩))
  ∧ (∀ h f s c, Ready (.xsht h f) s c .x → alongLine s c f.dir = true →
      let n := 64 * (f.nl.toNat + 1)
      TowerRange s c (regS s c (f.s.extractLsb' 1 5)).toNat n → TowerRange s c (regS s c (f.d.extractLsb' 1 5)).toNat n →
      xTurn s c (olderOps (getCls s c) (getCls s c).wx.ord) (deskSpans s c (regS s c (f.s.extractLsb' 1 5)).toNat n)
        (deskSpans s c (regS s c (f.d.extractLsb' 1 5)).toNat n) = true →
      IssuesWith (.xsht h f) s c .x s [regS s c (f.d.extractLsb' 1 5)]
        ((desksOf s c).flatMap fun d => (towerUnit s c d (regS s c (f.s.extractLsb' 1 5)).toNat (f.nl.toNat + 1)).map fun l =>
          ⟨.line l.1 l.2, .none, 64⟩))
  -- every member of the line has issued its matching shift: each desk writes what comes to it, and all of them complete
  ∧ (∀ s c id f0 t shape (fs : List (InFlight × FXS)) (xs : List LineShift),
      findOp s c id = some f0 → (shiftFields f0.instr).isSome = true → teamOf s c = some t → shapeOf s c = shape →
      (shape = 1 ∨ shape = 2) → Memory.wf s.mem → t.classes.Nodup →
      (∀ m ∈ t.classes, m < s.cls.length ∧ (getCls s m).live = true ∧ (getCls s m).frozen = false ∧ RemapOk (getCls s m)
        ∧ hotOn s m = false) →
      t.classes.map (oldestShift s) = fs.map some → xs.length = fs.length →
      (∀ (q : Nat) (f : InFlight) (g : FXS) (x : LineShift), fs[q]? = some (f, g) → xs[q]? = some x → KeptUnits f g x
        ∧ (match f.instr with
          | .xsh _ _ => op0 f 0 < 32
          | _ => op0 f 0 % 64 = 0 ∧ op0 f 0 + 64 * x.lines ≤ 2 ^ 25)) →
      ∃ u, exec (.wordCompletion c id) s = .next u
        ∧ (∀ (q m : Nat) (f : InFlight) (g : FXS) (x : LineShift), t.classes[q]? = some m → fs[q]? = some (f, g) → xs[q]? = some x →
            (getCls u m).inflight = (getCls s m).inflight.filter (fun (y : InFlight) => decide (y.id ≠ f.id))
            ∧ ∀ d, d < 32 → match f.instr with
              | .xsh _ _ => regUnit u m d (op0 f 0) = lineIn shape xs q d
                  ∧ ∀ r, r < 32 → r ≠ op0 f 0 → tget 0 (getCls u m).v (d * 32 + r) = tget 0 (getCls s m).v (d * 32 + r)
              | _ => towerUnit u m d (op0 f 0) x.lines = lineIn shape xs q d ∧ (getCls u m).v = (getCls s m).v)
        ∧ (∀ a, (∀ (q m : Nat) (f : InFlight) (g : FXS) (d j : Nat), t.classes[q]? = some m → fs[q]? = some (f, g) → (∀ h g', f.instr ≠ .xsh h g') → d < 32 →
              j < 64 * (g.nl.toNat + 1) → a ≠ towerByte (getCls s m) m d (op0 f 0 + j)) → readByte u a = readByte s a))

/-- R389-R391: XSEND, XRECV and XBCAST with good lengths, ranges, addresses and counters issue with the movements between the
desks named; a length out of its limits traps. -/
def Obligations.CorridorTransfersIssue : Prop :=
  (∀ h f s c, Ready (.xsend h f) s c .x →
      let n := (regS s c f.len).toNat
      let a := regS s c f.dst
      let l := (regS s c f.loc).toNat
      let far := a.getLsbD 63
      XferLen n → CorridorAddress s c a n (f.mode.getLsbD 0) → TowerRange s c l n → XferCounter s c f far →
      (f.mode.getLsbD 0 = true → (f.mode.extractLsb' 1 5).toNat ∈ desksOf s c) →
      let ms := (xferPairs s c f a).map fun d => (⟨.tower c d.1 l,
        if far then .none else .tower (a.extractLsb' 40 6).toNat d.2 (a.extractLsb' 0 26).toNat, n⟩ : Move)
      ∃ ms', KeptMoves s true n ms ms' ∧ IssuesWith (.xsend h f) s c .x s (xferOps s c f n n 1 a) ms')
  ∧ (∀ h f s c, Ready (.xrecv h f) s c .x →
      let n := (regS s c f.len).toNat
      let a := regS s c f.loc
      let l := (regS s c f.dst).toNat
      XferLen n → CorridorAddress s c a n (f.mode.getLsbD 0) → TowerRange s c l n → XferCounter s c f false →
      (f.mode.getLsbD 0 = true → (f.mode.extractLsb' 1 5).toNat ∈ desksOf s c) →
      IssuesWith (.xrecv h f) s c .x s (xferOps s c f n n 1 a)
        ((xferPairs s c f a).map fun d => (⟨if a.getLsbD 63 then .none
          else .tower (a.extractLsb' 40 6).toNat d.2 (a.extractLsb' 0 26).toNat, .tower c d.1 l, n⟩ : Move)))
  ∧ (∀ h f s c, Ready (.xbcast h f) s c .x →
      let n := (regS s c f.len).toNat
      let a := (regS s c f.dst).toNat
      let l := (regS s c f.loc).toNat
      let cs := ((List.range 20).filter fun b => a.testBit b).map fun b => 20 * (a / 2 ^ 20 % 2) + b
      XferLen n → a < 2 ^ 46 → cs ≠ [] → (∀ x ∈ cs, classIn s (partOf s c) x = true) →
      a / 2 ^ 21 % 64 = 0 → a / 2 ^ 21 + n ≤ 2 ^ 25 → TowerRange s c l n → XferCounter s c f false →
      let ms := cs.flatMap fun x => (desksOf s c).map fun d => (⟨.tower c d l, .tower x d (a / 2 ^ 21), n⟩ : Move)
      ∃ ms', KeptMoves s true n ms ms'
        ∧ IssuesWith (.xbcast h f) s c .x s (xferOps s c f (n * cs.length) n cs.length (regS s c f.dst)) ms')
  ∧ (∀ h f s c i, (i = .xsend h f ∨ i = .xrecv h f ∨ i = .xbcast h f) → Ready i s c .x →
      ¬ XferLen (regS s c f.len).toNat → Traps i s c .x 0x02 (regS s c f.len))

namespace Sys2Proof.Machine

/-! ### What a V word leaves behind -/

/-- Element `i` of `b` bits of v`r` of desk `d` (R284). -/
def vElem (s : State) (c d r b i : Nat) : Nat := elem b (vGet (getCls s c) (hotOn s c) d r) i
/-- LEN at the V walker's position (R394). -/
def lenOf (s : State) (c : Nat) : Nat := (vlAt (getCls s c) (getCls s c).wv.ord).toNat
/-- Bit `i` of a mask register of desk `d`. -/
def maskBit (s : State) (c d : Nat) (k : BitVec 3) (i : Nat) : Bool := (kGet (getCls s c) d k.toNat).testBit i

/-- A V word took `s` to `s'`: on every participating desk the registers listed, each with its element width, hold the new
elements, and the masks listed the new bits; flags are sticky; under SR the participating desks' generators have advanced
(R296, R300); no other register, mask, flag, no memory, no other class has changed. -/
structure VecEffect (s s' : State) (c : Nat) (sr : Bool) (regs : List (Nat × Nat)) (new : Nat → Nat → Nat → Nat)
    (masks : List Nat) (bit : Nat → Nat → Nat → Bool) (fl : Nat → Fl) : Prop where
  only : s' = modCls s c fun k => { k with v := (getCls s' c).v, k := (getCls s' c).k, aflg := (getCls s' c).aflg
                                           srgen := (getCls s' c).srgen }
  wrote : ∀ d ∈ desksOf s c, ∀ r ∈ regs, (hotOn s c = false → r.1 < 32) → ∀ i, i < 4096 / r.2 →
    vElem s' c d r.1 r.2 i = new d r.1 i
  kept : ∀ d r, d < 32 → r < 32 → (∀ e ∈ desksOf s c, ∀ n ∈ regs, vKey (hotOn s c) e n.1 ≠ some (d, r)) →
    tget 0 (getCls s' c).v (d * 32 + r) = tget 0 (getCls s c).v (d * 32 + r)
  masked : ∀ d ∈ desksOf s c, ∀ j ∈ masks, ∀ i, i < 1024 → (kGet (getCls s' c) d j).testBit i = bit d j i
  maskKept : ∀ d j, j < 8 → (d ∉ desksOf s c ∨ j ∉ masks) → kGet (getCls s' c) d j = kGet (getCls s c) d j
  flags : ∀ d, (tget 0 (getCls s' c).aflg d : Fl)
    = if d ∈ desksOf s c then tget 0 (getCls s c).aflg d ||| fl d else tget 0 (getCls s c).aflg d
  gens : ∀ d, genOf (getCls s' c) d
    = if sr = true ∧ d ∈ desksOf s c then stepGen (genOf (getCls s c) d) else genOf (getCls s c) d

/-- A ready V word: nothing it uses is poisoned, and under SR no older word rounds under SR (R397, R436). -/
structure VReady (i : Instr) (s : State) (c : Nat) (rm : BitVec 3) : Prop where
  ready : Ready i s c .v
  clean : s.poison = []
  alone : rm = 4 → srClear (getCls s c) (getCls s c).wv.ord = true

/-- Rounding of lane `i` (R294, R296): the mode, under SR with 16 bits of the desk's generator rotated left by 5·i. -/
def laneRnd (s : State) (c : Nat) (rm : BitVec 3) (d i : Nat) : Rnd :=
  ⟨rm.toNat, if rm = 4 then ((genOf (getCls s c) d).rotateLeft (5 * i % 32)).toNat % 2 ^ 16 else 0⟩

/-- An element-wise result (R395): within VL an active lane takes its result, an inactive one is kept, or zeroed with KZ; beyond
VL elements are kept. -/
def laneNew (s : State) (c b : Nat) (f : FVR) (g : Nat → Nat → Nat × Fl) (d r i : Nat) : Nat :=
  if i * b / 8 < lenOf s c then
    if maskBit s c d f.k i then (g d i).1 % 2 ^ b else if f.kz then 0 else vElem s c d r b i
  else vElem s c d r b i

/-- Active lanes of a desk (R395). -/
def activeLanes (s : State) (c b : Nat) (k : BitVec 3) (d : Nat) : List Nat :=
  (List.range (4096 / b)).filter fun i => decide (i * b / 8 < lenOf s c) && maskBit s c d k i
/-- Flags of the active lanes. -/
def laneFlags (s : State) (c b : Nat) (f : FVR) (g : Nat → Nat → Nat × Fl) (d : Nat) : Fl :=
  (activeLanes s c b f.k d).foldl (fun a i => a ||| (g d i).2) 0

/-- A lane's result and flags, from the state, the class, the word's fields, the queue element, desk and lane. -/
abbrev LaneFn := State → Nat → FVR → Nat → Nat → Nat → Nat × Fl

/-- An element-wise word of `bits` bits per element, with fields that `ok` admits, computes `g` in every active lane of vD. -/
def LaneRuleOn (ok : FVR → Bool) (mk : Hdr → FVR → Instr) (bits : FVR → Nat) (g : LaneFn) : Prop :=
  ∀ h f s c, ok f = true → VReady (mk h f) s c f.rm →
    ∃ s', Executes (mk h f) s c .v s'
      ∧ VecEffect s s' c (f.rm == 4) [(f.vd.toNat, bits f)] (laneNew s c (bits f) f (g s c f 0)) [] (fun _ _ _ => false)
          (laneFlags s c (bits f) f (g s c f 0))

/-- The same with any fields. -/
def LaneRule (mk : Hdr → FVR → Instr) (bits : FVR → Nat) (g : LaneFn) : Prop := LaneRuleOn (fun _ => true) mk bits g

/-- The same with the head of QV as an operand (R401): the word takes it out of QV, and waits while QV is empty. -/
def LaneRuleQ (mk : Hdr → FVR → Instr) (g : LaneFn) : Prop :=
  ∀ h f s c, VReady (mk h f) s c f.rm →
    (∀ q r, (getCls s c).qv = q :: r →
      let s0 := modCls s c fun k => { k with qv := r, qhead := tset 0 k.qhead 1 ((tget 0 k.qhead 1 + 1) % 64) }
      ∃ s', Executes (mk h f) s c .v s'
        ∧ VecEffect s0 s' c (f.rm == 4) [(f.vd.toNat, elemBits f.ty)]
            (laneNew s c (elemBits f.ty) f (g s c f q.toNat)) [] (fun _ _ _ => false)
            (laneFlags s c (elemBits f.ty) f (g s c f q.toNat)))
    ∧ ((getCls s c).qv = [] → Waits (mk h f) s)

/-- Operand elements of a lane. -/
def eA (s : State) (c : Nat) (f : FVR) (d i : Nat) : Nat := vElem s c d f.va.toNat (elemBits f.ty) i
def eB (s : State) (c : Nat) (f : FVR) (d i : Nat) : Nat := vElem s c d f.vb.toNat (elemBits f.ty) i
def eC (s : State) (c : Nat) (f : FVR) (d i : Nat) : Nat := vElem s c d f.vc.toNat (elemBits f.ty) i
/-- A queue element as operand of every lane. -/
def eQ (f : FVR) (q : Nat) : Nat := q % 2 ^ elemBits f.ty
/-- The value of an integer code (R286). -/
def iVal (f : FVR) (w : Nat) : Int :=
  if f.ty.toNat < 4 ∧ 2 ^ (elemBits f.ty - 1) ≤ w then (w : Int) - 2 ^ elemBits f.ty else w
/-- The value of a floating code (R285). -/
def fVal (f : FVR) (w : Nat) : Val := valOf (fmtOf f.ty) w

/-- A floating operation for the floating types, else an integer result modulo 2^s (R400). -/
def fltOr (f : FVR) (x : Nat × Fl) (v : Int) : Nat × Fl := if tyF f.ty then x else ((v % 2 ^ elemBits f.ty).toNat, 0)
/-- One rounding of an exact result, with the flags it comes with (R298). -/
def rounded (s : State) (c : Nat) (f : FVR) (d i : Nat) (x : Val × Fl) : Nat × Fl :=
  roundRes (fmtOf f.ty) (laneRnd s c f.rm d i) x

def addFn (s : State) (c : Nat) (f : FVR) (d i a b : Nat) : Nat × Fl :=
  fltOr f (rounded s c f d i (sumVal [fVal f a, fVal f b] (f.rm == 2))) (iVal f a + iVal f b)
def subFn (s : State) (c : Nat) (f : FVR) (d i a b : Nat) : Nat × Fl :=
  fltOr f (rounded s c f d i (sumVal [fVal f a, (fVal f b).negate] (f.rm == 2))) (iVal f a - iVal f b)
def mulFn (s : State) (c : Nat) (f : FVR) (d i a b : Nat) : Nat × Fl :=
  fltOr f (rounded s c f d i (mulVal (fVal f a) (fVal f b))) (iVal f a * iVal f b)
/-- ± a·b + c, rounded once. -/
def fmaFn (s : State) (c : Nat) (f : FVR) (neg : Bool) (d i x y z : Nat) : Nat × Fl :=
  fltOr f (fMulAdd (fmtOf f.ty) (laneRnd s c f.rm d i) neg (fVal f x) (fVal f y) (fVal f z))
    (if neg then iVal f z - iVal f x * iVal f y else iVal f x * iVal f y + iVal f z)
def minFn (f : FVR) (a b : Nat) : Nat × Fl := fltOr f (fMinMax (fmtOf f.ty) false a b) (min (iVal f a) (iVal f b))
def maxFn (f : FVR) (a b : Nat) : Nat × Fl := fltOr f (fMinMax (fmtOf f.ty) true a b) (max (iVal f a) (iVal f b))

/-- Clamped to the range of the integer type (R400). -/
def clampFn (f : FVR) (v : Int) : Nat × Fl :=
  let b := elemBits f.ty
  let lo : Int := if f.ty.toNat < 4 then -2 ^ (b - 1) else 0
  let hi : Int := if f.ty.toNat < 4 then 2 ^ (b - 1) - 1 else 2 ^ b - 1
  ((max lo (min hi v) % 2 ^ b).toNat, 0)

/-- A compare writes bits into the mask register k[VD mod 8] (R403): active lanes from the compare, inactive ones within VL kept
or zeroed, bits of elements beyond VL kept, bits past the last element zero. -/
def CompareRule (mk : Hdr → FVR → Instr) (p : Cmp) : Prop :=
  ∀ h f s c, VReady (mk h f) s c f.rm →
    ∃ s', Executes (mk h f) s c .v s'
      ∧ VecEffect s s' c (f.rm == 4) [] (fun _ _ _ => 0) [f.vd.toNat % 8]
          (fun d j i => if i < 4096 / elemBits f.ty then
              if i * elemBits f.ty / 8 < lenOf s c then
                if maskBit s c d f.k i then (cmpLane f.ty p (eA s c f d i) (eB s c f d i)).1
                else !f.kz && (kGet (getCls s c) d j).testBit i
              else (kGet (getCls s c) d j).testBit i
            else false)
          (laneFlags s c (elemBits f.ty) f fun d i => (0, (cmpLane f.ty p (eA s c f d i) (eB s c f d i)).2))

def CompareRuleQ (mk : Hdr → FVR → Instr) (p : Cmp) : Prop :=
  ∀ h f s c, VReady (mk h f) s c f.rm →
    (∀ q r, (getCls s c).qv = q :: r →
      ∃ s', Executes (mk h f) s c .v s'
        ∧ VecEffect (modCls s c fun k => { k with qv := r, qhead := tset 0 k.qhead 1 ((tget 0 k.qhead 1 + 1) % 64) }) s' c (f.rm == 4) [] (fun _ _ _ => 0) [f.vd.toNat % 8]
            (fun d j i => if i < 4096 / elemBits f.ty then
                if i * elemBits f.ty / 8 < lenOf s c then
                  if maskBit s c d f.k i then (cmpLane f.ty p (eA s c f d i) (eQ f q.toNat)).1
                  else !f.kz && (kGet (getCls s c) d j).testBit i
                else (kGet (getCls s c) d j).testBit i
              else false)
            (laneFlags s c (elemBits f.ty) f fun d i => (0, (cmpLane f.ty p (eA s c f d i) (eQ f q.toNat)).2)))
    ∧ ((getCls s c).qv = [] → Waits (mk h f) s)

/-- A mask-logic word acts on all 1,024 bits (R404). -/
def MaskRule (mk : Hdr → FVR → Instr) (g : Bool → Bool → Bool) : Prop :=
  ∀ h f s c, VReady (mk h f) s c f.rm →
    ∃ s', Executes (mk h f) s c .v s'
      ∧ VecEffect s s' c (f.rm == 4) [] (fun _ _ _ => 0) [f.vd.toNat % 8]
          (fun d _ i => g ((kGet (getCls s c) d (f.va.toNat % 8)).testBit i) ((kGet (getCls s c) d (f.vb.toNat % 8)).testBit i))
          (fun _ => 0)

/-- A word without flags whose elements within VL are given, whatever the mask says. -/
def WithinRule (i : Instr) (b : Nat) (vd : BitVec 6) (sr : Bool) (s : State) (c : Nat) (g : Nat → Nat → Nat) : Prop :=
  ∃ s', Executes i s c .v s'
    ∧ VecEffect s s' c sr [(vd.toNat, b)]
        (fun d r i => if i * b / 8 < lenOf s c then g d i % 2 ^ b else vElem s c d r b i) [] (fun _ _ _ => false) (fun _ => 0)

/-- Sources and destinations of a VCVT between element types (R407): n pairs; the narrower side uses segment SEG. -/
def cvtPairs (f : FVR) : List (Nat × Nat) :=
  let bs := elemBits (f.aux.extractLsb' 0 5)
  let bd := elemBits f.ty
  let n := 4096 / max bs bd
  let seg := (f.aux.extractLsb' 5 3).toNat
  (List.range n).map fun i => (if bs < bd then seg * n + i else i, if bd < bs then seg * n + i else i)

/-- The conversion of one element (R301-R303). -/
def cvtOne (s : State) (c : Nat) (f : FVR) (d q j : Nat) : Nat × Fl :=
  let t := f.aux.extractLsb' 0 5
  let w := vElem s c d f.va.toNat (elemBits t) q
  let fp := fun (t : BitVec 5) => tyF t || tyFp8 t
  if fp t then
    if fp f.ty then
      roundVal (fmtOf f.ty) (if tyFp8 f.ty && !f.oc then .sat else .ieee) (laneRnd s c f.rm d j) (valOf (fmtOf t) w)
    else toInt f.ty (laneRnd s c f.rm d j) (valOf (fmtOf t) w)
  else
    let v : Int := if t.toNat < 4 ∧ 2 ^ (elemBits t - 1) ≤ w then (w : Int) - 2 ^ elemBits t else w
    if fp f.ty then roundVal (fmtOf f.ty) .ieee (laneRnd s c f.rm d j) (.fin (decide (v < 0)) v.natAbs 0) else satInt f.ty v

/-- A reduction (R413): its result in element 0, every other element zero. -/
def ReduceRule (mk : Hdr → FVR → Instr) (g : State → Nat → FVR → Nat → List Nat → Nat × Fl) : Prop :=
  ∀ h f s c, VReady (mk h f) s c f.rm →
    let r := fun d => g s c f d ((activeLanes s c (elemBits f.ty) f.k d).map (eA s c f d))
    ∃ s', Executes (mk h f) s c .v s'
      ∧ VecEffect s s' c (f.rm == 4) [(f.vd.toNat, elemBits f.ty)]
          (fun d _ i => if i = 0 then (r d).1 % 2 ^ elemBits f.ty else 0) [] (fun _ _ _ => false) (fun d => (r d).2)

/-- A widening word (R409): result element i of the source's lane order goes to register VD + (i mod w), place i div w. -/
def WideRule (mk : Hdr → FVR → Instr) (g : State → Nat → FVR → Nat → Nat → Nat × Fl) : Prop :=
  ∀ h f s c, VReady (mk h f) s c f.rm → f.vd.toNat % widenWays f.aux = 0 →
    let w := widenWays f.aux
    let b := elemBits f.ty
    ∃ s', Executes (mk h f) s c .v s'
      ∧ VecEffect s s' c (f.rm == 4) ((List.range w).map fun r => (f.vd.toNat + r, b * w))
          (fun d r j =>
            let i := j * w + (r - f.vd.toNat)
            if i * b / 8 < lenOf s c then
              if maskBit s c d f.k i then (g s c f d i).1 % 2 ^ (b * w) else if f.kz then 0 else vElem s c d r (b * w) j
            else vElem s c d r (b * w) j)
          [] (fun _ _ _ => false) (laneFlags s c b f (g s c f))
/-- The addend of a widening lane. -/
def wideC (s : State) (c : Nat) (f : FVR) (d i : Nat) : Nat :=
  vElem s c d (f.vc.toNat + i % widenWays f.aux) (elemBits f.ty * widenWays f.aux) (i / widenWays f.aux)
/-- A wide integer result. -/
def wideInt (f : FVR) (v : Int) : Nat × Fl := ((v % 2 ^ (elemBits f.ty * widenWays f.aux)).toNat, 0)

/-! ### Tower words -/

/-- Tower offset of segment `j` (R414). -/
def segAt0 (s : State) (c : Nat) (f : FVM) (p : SegKind) (d j : Nat) : Nat :=
  let base := (regS s c f.sb).toNat + 64 * f.off.toNat
  match p with
  | .unit => base + 64 * j
  | .stride => base + j * (regS s c f.sx).toNat
  | .index => base + 64 * vElem s c d f.vx.toNat 32 j

/-- Every segment within VL of every participating desk is a line of its tower, a stride is a multiple of 64 and a record named is the
partition's. -/
structure SegsOk (s : State) (c : Nat) (f : FVM) (p : SegKind) : Prop where
  lines : ∀ d ∈ desksOf s c, ∀ j, j < 8 → 64 * j < lenOf s c → TowerRange s c (segAt0 s c f p d j) 64
  stride : p = .stride → (regS s c f.sx).toNat % 64 = 0
  record : f.rc = true → recInRange s (partOf s c) (regS s c f.srec).toNat = true

/-- Byte `j` of a line of a word in its tower. -/
def stripAt (s : State) (c : Nat) (g : Strip) (j : Nat) : Nat := towerByte (getCls s c) c g.desk (g.off + j)
/-- The lanes of a line that are enabled. -/
def laneOn (g : Strip) (j : Nat) : Bool := g.mask.testBit (j / 4)

/-- The lines of a word lie in the tower, hold no poison and, for a store, 64 bytes each. -/
structure StripsOk (s : State) (c : Nat) (gs : List Strip) : Prop where
  line : ∀ g ∈ gs, TowerRange s c g.off 64 ∧ g.desk < 32 ∧ g.mask < 2 ^ 16 ∧ g.p = none
  whole : ∀ g ∈ gs, g.line.length = 64

/-- Pass `n` of a store (R119, R415): each line of the pass is written in turn, its enabled lanes from the register, the other bytes as
they stand; the granules of the lines are dirty; nothing else changes. -/
structure StoresPass (s s' : State) (c n : Nat) (gs : List Strip) : Prop where
  only : s' = modCls { s with mem := s'.mem } c fun k => { k with dirty := (getCls s' c).dirty }
  wrote : ∀ (q : Nat) (g : Strip), gs[q]? = some g → g.pass = n → ∀ j, j < 64 → laneOn g j = true →
    (∀ (q' : Nat) (g' : Strip) (j' : Nat), q < q' → gs[q']? = some g' → g'.pass = n → j' < 64 → laneOn g' j' = true →
      stripAt s c g' j' ≠ stripAt s c g j) → tget 0 s'.mem (stripAt s c g j) = g.line.getD j 0
  kept : ∀ a, (∀ g ∈ gs, g.pass = n → ∀ j, j < 64 → laneOn g j = true → a ≠ stripAt s c g j) → tget 0 s'.mem a = readByte s a
  dirtied : ∀ g ∈ gs, g.pass = n →
    let x := towerOf (getCls s c) g.desk g.off
    tget false (getCls s' c).dirty (x.1 * 512 + x.2 / 65536) = true

/-- Pass `n` of a load (R415, R416): the lines of the pass as they stand now. -/
def taken (s : State) (c n : Nat) (gs : List Strip) : List Strip :=
  gs.map fun g => if g.pass = n then { g with line := (List.range 64).map fun j => readByte s (stripAt s c g j), p := none } else g

/-- The loaded lines reach the register (R415): each enabled 4-byte lane of each line, every other lane is kept. -/
def Loaded (s s' : State) (c v : Nat) (gs : List Strip) : Prop :=
  VecEffect s s' c false [(v, 32)]
    (fun d r i => match gs.find? fun g => g.desk = d && g.unit = i / 16 with
      | some g => if g.mask.testBit (i % 16) then leNat ((g.line.drop (4 * (i % 16))).take 4) else vElem s c d r 32 i
      | none => vElem s c d r 32 i)
    [] (fun _ _ _ => false) (fun _ => 0)

/-- The values that a store contributes (R314, R417): of each segment its enabled lanes, in the record's format. -/
def stripValues (s : State) (f : FVM) (h : Nat) (gs : List Strip) : List W32 :=
  if f.rc then gs.flatMap fun g => ((List.range 16).filter fun l => g.mask.testBit l).flatMap fun l =>
    laneValues (getRec s h) (elem 32 (leNat g.line) l) else []
/-- The contribution of a store that is done. -/
def storeDone (s : State) (c : Nat) (f : FVM) (h : Nat) (gs : List Strip) : State :=
  if f.rc then contribute s c h (stripValues s f h gs) false else s

/-- The segments of a tower word (R414): those within VL of every participating desk, each with its lanes; the passes of a load put
the p-th segment of each bank into pass p, a store's are clause `StorePasses`; a store has the bytes of its register. -/
def stripsOf (s : State) (c : Nat) (f : FVM) (p : SegKind) (load : Bool) : List Strip :=
  (desksOf s c).flatMap fun d =>
    let js := (List.range 8).filter fun j => decide (64 * j < lenOf s c)
    let bank := fun j => bankOf s c d (segAt0 s c f p d j)
    js.map fun j =>
      { pass := if load then (js.filter fun i => decide (i < j) && bank i == bank j).length
          else (((storePasses 8 0 (js.map fun j => (j, bank j))).find? fun y => y.1 = j).map (·.2)).getD 0
        desk := d, unit := j, off := segAt0 s c f p d j, mask := (kGet (getCls s c) d f.k.toNat) / 2 ^ (16 * j) % 2 ^ 16
        line := if load then [] else (List.range 64).map fun n =>
          BitVec.ofNat 8 (vElem s c d f.v.toNat 32 (16 * j + n / 4) / 2 ^ (8 * (n % 4))) }

/-- The passes of a store (R416), of segments in ascending j given with their banks: each segment has one pass; a pass takes at most
four segments and at most one of a bank, of each bank the lowest not yet written; a bank left out of a pass has no more unwritten
segments than one that is taken, and where they have equally many its next segment is the higher; no pass is empty. -/
def StorePasses : Prop :=
  ∀ xs : List (Nat × Nat × Nat), xs.length ≤ 8 → (xs.map (·.1)).Pairwise (· < ·) → (∀ x ∈ xs, x.1 < 8) →
    let ps := storePasses 8 0 xs
    let pass : Nat → Nat := fun j => ((ps.find? fun y => y.1 = j).map (·.2)).getD 0
    let left := fun (n : Nat) (b : Nat × Nat) => (xs.filter fun x => x.2 == b && decide (n ≤ pass x.1)).length
    (∀ j, j ∈ ps.map (·.1) ↔ j ∈ xs.map (·.1)) ∧ (ps.map (·.1)).Nodup
    ∧ (∀ x ∈ xs, ∀ y ∈ xs, x.2 = y.2 → x.1 < y.1 → pass x.1 < pass y.1)
    ∧ (∀ n, (ps.filter fun y => y.2 = n).length ≤ 4)
    ∧ (∀ n, (∃ x ∈ xs, n ≤ pass x.1) → ∃ y ∈ ps, y.2 = n)
    ∧ (∀ n, ∀ x ∈ xs, n < pass x.1 → (∀ z ∈ xs, z.2 = x.2 → pass z.1 ≠ n) → (∀ z ∈ xs, z.2 = x.2 → n ≤ pass z.1 → x.1 ≤ z.1) →
        (ps.filter fun y => y.2 = n).length = 4
        ∧ ∀ y ∈ xs, pass y.1 = n → left n x.2 ≤ left n y.2 ∧ (left n x.2 = left n y.2 → y.1 < x.1))

/-- An issued tower word of the V engine, at a pass after its first. -/
structure UnderWay (s : State) (c : Nat) (o : InFlight) (i : Instr) : Prop where
  stands : findOp s c o.id = some o
  word : o.instr = i
  issued : o.status = .issued
  lives : (getCls s c).live = true ∧ (getCls s c).frozen = false
  clean : s.poison = []

/-- A load (R415, R416): its first pass as it issues; with one pass it is done, else the others follow, and with the last one the
register is written and the word completes. A load with REC = 1 is no instruction (R417). -/
def LoadRule (mk : Hdr → FVM → Instr) (p : SegKind) : Prop :=
  (∀ h f s c, VReady (mk h f) s c 0 → Memory.wf s.mem → f.rc = false → SegsOk s c f p →
    let gs := stripsOf s c f p true
    vmSegs s f p true c = gs
    ∧ ((∀ g ∈ gs, g.pass = 0) → ∃ s', Executes (mk h f) s c .v s'
        ∧ VecEffect s s' c false [(f.v.toNat, 32)]
          (fun d r i => if 64 * (i / 16) < lenOf s c ∧ maskBit s c d f.k i = true
            then leNat ((List.range 4).map fun n =>
              readByte s (towerByte (getCls s c) c d (segAt0 s c f p d (i / 16) + 4 * (i % 16) + n)))
            else vElem s c d r 32 i)
          [] (fun _ _ _ => false) (fun _ => 0))
    ∧ ((∃ g ∈ gs, g.pass ≠ 0) → IssuesPaced (mk h f) s c .v s [regS s c f.srec] (taken s c 0 gs)))
  ∧ (∀ h f s c o, UnderWay s c o (mk h f) → o.eng = .v → StripsOk s c (taken s c o.prog o.segs) →
      (o.segs.map fun g => (g.desk, g.unit)).Nodup → (∀ g ∈ o.segs, g.unit < 8 ∧ g.desk ∈ desksOf s c) →
      let gs := taken s c o.prog o.segs
      ((∃ g ∈ o.segs, o.prog < g.pass) → exec (.wordCompletion c o.id) s
          = .next (modOp s c o.id fun g => { g with prog := o.prog + 1, segs := gs }))
      ∧ ((∀ g ∈ o.segs, g.pass ≤ o.prog) → ∃ s', exec (.wordCompletion c o.id) s = .next (complete s' c o)
          ∧ Loaded s s' c f.v.toNat gs))

/-- A store (R119, R415 to R417): its first pass as it issues, the others after that; with the last one it contributes what it has
stored and completes. Where two segments of a desk name one line, the later one prevails where they overlap. -/
def StoreRule (mk : Hdr → FVM → Instr) (p : SegKind) : Prop :=
  (∀ h f s c, VReady (mk h f) s c 0 → Memory.wf s.mem → RemapOk (getCls s c) → SegsOk s c f p →
    let gs := stripsOf s c f p false
    vmSegs s f p false c = gs
    ∧ ∃ s1, StoresPass s s1 c 0 gs
      ∧ ((∀ g ∈ gs, g.pass = 0) → Executes (mk h f) s c .v (storeDone s1 c f (regS s c f.srec).toNat gs))
      ∧ ((∃ g ∈ gs, g.pass ≠ 0) → IssuesPaced (mk h f) s c .v s1 [regS s c f.srec] gs))
  ∧ (∀ h f s c o, UnderWay s c o (mk h f) → o.eng = .v → Memory.wf s.mem → RemapOk (getCls s c) → StripsOk s c o.segs →
      ∃ s1, StoresPass s s1 c o.prog o.segs
        ∧ ((∃ g ∈ o.segs, o.prog < g.pass) → exec (.wordCompletion c o.id) s
            = .next (modOp s1 c o.id fun g => { g with prog := o.prog + 1, segs := o.segs }))
        ∧ ((∀ g ∈ o.segs, g.pass ≤ o.prog) → exec (.wordCompletion c o.id) s
            = .next (complete (storeDone s1 c f (o.ops.getD 0 0).toNat o.segs) c o)))

/-- The exact value of a finite number. -/
def ratOf : Val → Option ℚ
  | .fin n m e => some ((if n then -1 else 1) * m * (2 : ℚ) ^ e)
  | .inf _ => none
  | .nan _ => none

/-- A number of at most 16 significant bits. -/
def Short (y : ℚ) : Prop := ∃ m e : ℤ, |m| ≤ 2 ^ 16 ∧ y = m * (2 : ℚ) ^ e

/-- `r` is `q` rounded to the nearest FP32 number of at most 16 significant bits, which for a subnormal result is the coarser of the
two grids, with its flags (R307, R298); from half a step past the largest one on it is ±∞. -/
def Rounds16 (q : ℝ) (r : Nat × Fl) : Prop :=
  (|q| < 2 ^ 128 - 2 ^ 111 → ∃ y, ratOf (valOf fF32 r.1) = some y ∧ Short y
      ∧ (∀ w z, ratOf (valOf fF32 w) = some z → Short z → |(y : ℝ) - q| ≤ |(z : ℝ) - q|)
      ∧ ((y : ℝ) = q → r.2 = 0)
      ∧ ((y : ℝ) ≠ q → (2 : ℝ) ^ (-126 : ℤ) ≤ |q| → r.2 = flNx)
      ∧ ((y : ℝ) ≠ q → |q| ≤ (2 : ℝ) ^ (-126 : ℤ) - (2 : ℝ) ^ (-142 : ℤ) → r.2 = flNx ||| flUf))
  ∧ (2 ^ 128 - 2 ^ 111 ≤ |q| → r = (if 0 < q then 0x7F800000 else 0xFF800000, flOf ||| flNx))

/-- The codes of FP32 that R307, R308 and R412 name. -/
def f32Nan : Nat := 0x7FC00000
def f32Inf (neg : Bool) : Nat := if neg then 0xFF800000 else 0x7F800000
def f32Zero (neg : Bool) : Nat := if neg then 0x80000000 else 0
/-- What a NaN operand gives: the canonical NaN, IV if it is signalling. -/
def nanGives (sig : Bool) : Nat × Fl := (f32Nan, if sig then flIv else 0)

end Sys2Proof.Machine

/-- R400, R401: element-wise floating and integer arithmetic, from registers or with the head of QV. -/
def Obligations.VectorArithmetic : Prop :=
  let b := fun (f : FVR) => elemBits f.ty
  LaneRule .vadd b (fun s c f _ d i => addFn s c f d i (eA s c f d i) (eB s c f d i))
  ∧ LaneRule .vsub b (fun s c f _ d i => subFn s c f d i (eA s c f d i) (eB s c f d i))
  ∧ LaneRule .vmul b (fun s c f _ d i => mulFn s c f d i (eA s c f d i) (eB s c f d i))
  ∧ LaneRule .vfma b (fun s c f _ d i => fmaFn s c f false d i (eA s c f d i) (eB s c f d i) (eC s c f d i))
  ∧ LaneRule .vfnma b (fun s c f _ d i => fmaFn s c f true d i (eA s c f d i) (eB s c f d i) (eC s c f d i))
  ∧ LaneRule .vmin b (fun s c f _ d i => minFn f (eA s c f d i) (eB s c f d i))
  ∧ LaneRule .vmax b (fun s c f _ d i => maxFn f (eA s c f d i) (eB s c f d i))
  ∧ LaneRule .vabs b (fun s c f _ d i => fltOr f (fAbs (fmtOf f.ty) (eA s c f d i)) (iVal f (eA s c f d i)).natAbs)
  ∧ LaneRule .vneg b (fun s c f _ d i => fltOr f (fNeg (fmtOf f.ty) (eA s c f d i)) (-iVal f (eA s c f d i)))
  ∧ LaneRuleQ .vaddQ (fun s c f q d i => addFn s c f d i (eA s c f d i) (eQ f q))
  ∧ LaneRuleQ .vsubQ (fun s c f q d i => subFn s c f d i (eA s c f d i) (eQ f q))
  ∧ LaneRuleQ .vmulQ (fun s c f q d i => mulFn s c f d i (eA s c f d i) (eQ f q))
  ∧ LaneRuleQ .vfmaQ (fun s c f q d i => fmaFn s c f false d i (eA s c f d i) (eQ f q) (eC s c f d i))
  ∧ LaneRuleQ .vminQ (fun s c f q d i => minFn f (eA s c f d i) (eQ f q))
  ∧ LaneRuleQ .vmaxQ (fun s c f q d i => maxFn f (eA s c f d i) (eQ f q))

/-- R400, R402: saturating sums, high products, logic, shifts and bit counts. -/
def Obligations.VectorIntegerWords : Prop :=
  let b := fun (f : FVR) => elemBits f.ty
  let sh := fun (f : FVR) (n : Nat) => n % elemBits f.ty
  LaneRule .vaddsat b (fun s c f _ d i => clampFn f (iVal f (eA s c f d i) + iVal f (eB s c f d i)))
  ∧ LaneRule .vsubsat b (fun s c f _ d i => clampFn f (iVal f (eA s c f d i) - iVal f (eB s c f d i)))
  ∧ LaneRule .vmulh b (fun s c f _ d i =>
      ((iVal f (eA s c f d i) * iVal f (eB s c f d i) / 2 ^ b f % 2 ^ b f).toNat, 0))
  ∧ LaneRule .vand b (fun s c f _ d i => (eA s c f d i &&& eB s c f d i, 0))
  ∧ LaneRule .vor b (fun s c f _ d i => (eA s c f d i ||| eB s c f d i, 0))
  ∧ LaneRule .vxor b (fun s c f _ d i => (eA s c f d i ^^^ eB s c f d i, 0))
  ∧ LaneRule .vnot b (fun s c f _ d i => (2 ^ b f - 1 - eA s c f d i, 0))
  ∧ LaneRule .vpopc b (fun s c f _ d i => ((List.range (b f)).countP fun j => (eA s c f d i).testBit j, 0))
  ∧ LaneRule .vclz b (fun s c f _ d i => ((List.range (b f)).countP fun j => decide (eA s c f d i < 2 ^ j), 0))
  ∧ LaneRule .vshl b (fun s c f _ d i => (eA s c f d i * 2 ^ sh f (eB s c f d i), 0))
  ∧ LaneRule .vshr b (fun s c f _ d i => (eA s c f d i / 2 ^ sh f (eB s c f d i), 0))
  ∧ LaneRule .vsra b (fun s c f _ d i => ((iVal f (eA s c f d i) / 2 ^ sh f (eB s c f d i) % 2 ^ b f).toNat, 0))
  ∧ LaneRule .vshli b (fun s c f _ d i => (eA s c f d i * 2 ^ f.aux.toNat, 0))
  ∧ LaneRule .vshri b (fun s c f _ d i => (eA s c f d i / 2 ^ f.aux.toNat, 0))
  ∧ LaneRule .vsrai b (fun s c f _ d i => ((iVal f (eA s c f d i) / 2 ^ f.aux.toNat % 2 ^ b f).toNat, 0))
  ∧ LaneRuleQ .vandQ (fun s c f q d i => (eA s c f d i &&& eQ f q, 0))
  ∧ LaneRuleQ .vorQ (fun s c f q d i => (eA s c f d i ||| eQ f q, 0))
  ∧ LaneRuleQ .vxorQ (fun s c f q d i => (eA s c f d i ^^^ eQ f q, 0))

/-- R403, R404: compares write a mask register, the mask words act on all its bits, KSET sets the bits of the elements within VL.
The integer compares are those of the values; an unordered floating compare holds for NE and UN only. -/
def Obligations.VectorComparesAndMasks : Prop :=
  CompareRule .vcmpeq .eq ∧ CompareRule .vcmpne .ne ∧ CompareRule .vcmplt .lt ∧ CompareRule .vcmple .le
  ∧ CompareRule .vcmpun .un ∧ CompareRuleQ .vcmpeqQ .eq ∧ CompareRuleQ .vcmpltQ .lt ∧ CompareRuleQ .vcmpleQ .le
  ∧ MaskRule .kand (fun a b => a && b) ∧ MaskRule .kor (fun a b => a || b) ∧ MaskRule .kxor (fun a b => a != b)
  ∧ MaskRule .kandn (fun a b => a && !b) ∧ MaskRule .knot (fun a _ => !a)
  ∧ (∀ h f s c, VReady (.kset h f) s c f.rm → ∃ s', Executes (.kset h f) s c .v s'
      ∧ VecEffect s s' c (f.rm == 4) [] (fun _ _ _ => 0) [f.vd.toNat % 8]
          (fun _ _ i => decide (i < 4096 / elemBits f.ty) && decide (i * elemBits f.ty / 8 < lenOf s c)) (fun _ => 0))
  ∧ (∀ (f : FVR) a b, tyF f.ty = false →
      cmpLane f.ty .eq a b = (decide (iVal f a = iVal f b), 0) ∧ cmpLane f.ty .ne a b = (decide (iVal f a ≠ iVal f b), 0)
      ∧ cmpLane f.ty .lt a b = (decide (iVal f a < iVal f b), 0) ∧ cmpLane f.ty .le a b = (decide (iVal f a ≤ iVal f b), 0))
  ∧ (∀ (f : FVR) a b x y, tyF f.ty = true → ratOf (fVal f a) = some x → ratOf (fVal f b) = some y →
      cmpLane f.ty .eq a b = (decide (x = y), 0) ∧ cmpLane f.ty .ne a b = (decide (x ≠ y), 0)
      ∧ cmpLane f.ty .lt a b = (decide (x < y), 0) ∧ cmpLane f.ty .le a b = (decide (x ≤ y), 0)
      ∧ cmpLane f.ty .un a b = (false, 0))
  ∧ (∀ (f : FVR) a b, tyF f.ty = true → ((fVal f a).isNan || (fVal f b).isNan) = true →
      (cmpLane f.ty .eq a b).1 = false ∧ (cmpLane f.ty .ne a b).1 = true ∧ cmpLane f.ty .lt a b = (false, flIv)
      ∧ cmpLane f.ty .le a b = (false, flIv) ∧ (cmpLane f.ty .un a b).1 = true)

/-- R405, R406: selects, moves, permutes and slides. -/
def Obligations.VectorMovesAndPermutes : Prop :=
  let b := fun (f : FVR) => elemBits f.ty
  (∀ h f s c, VReady (.vsel h f) s c f.rm → WithinRule (.vsel h f) (b f) f.vd (f.rm == 4) s c
      (fun d i => if maskBit s c d f.k i then eA s c f d i else eB s c f d i))
  ∧ (∀ h f s c, VReady (.vmovi h f) s c 0 → WithinRule (.vmovi h f) (elemBits f.ty) f.vd false s c (fun _ _ => f.imm.toNat))
  ∧ LaneRule .vmov b (fun s c f _ d i => (eA s c f d i, 0))
  ∧ LaneRule .vsplat b (fun s c f _ d _ => (eA s c f d f.aux.toNat, 0))
  ∧ LaneRule .vperm b (fun s c f _ d i =>
      (eA s c f d (if b f = 8 then 256 * (i / 256) + eB s c f d i else eB s c f d i % (4096 / b f)), 0))
  ∧ LaneRule .vslideup b (fun s c f _ d i =>
      let m := f.aux.toNat
      (if m ≤ i then eA s c f d (i - m) else eB s c f d (4096 / b f - m + i), 0))
  ∧ LaneRule .vslidedn b (fun s c f _ d i =>
      let m := f.aux.toNat
      (if i + m < 4096 / b f then eA s c f d (i + m) else eB s c f d (i + m - 4096 / b f), 0))
  ∧ LaneRuleQ .vqbc (fun _ _ f q _ _ => (eQ f q, 0))

/-- R301-R304, R407-R411: conversions between element types and to and from block formats, widening and narrowing words, the
four-way dot product. -/
def Obligations.VectorConversions : Prop :=
  (∀ h f s c, VReady (.vcvt h f) s c f.rm → tyBlock f.ty = false → tyBlock (f.aux.extractLsb' 0 5) = false →
      let bs := elemBits (f.aux.extractLsb' 0 5)
      let bd := elemBits f.ty
      let act := fun (d : Nat) (q : Nat) => q * bs / 8 < lenOf s c ∧ maskBit s c d f.k q = true
      ∃ s', Executes (.vcvt h f) s c .v s'
        ∧ VecEffect s s' c (f.rm == 4) [(f.vd.toNat, bd)]
            (fun d r j => match (cvtPairs f).find? fun x => x.2 = j with
              | none => vElem s c d r bd j
              | some x =>
                if x.1 * bs / 8 < lenOf s c then
                  if maskBit s c d f.k x.1 then (cvtOne s c f d x.1 j).1 % 2 ^ bd else if f.kz then 0 else vElem s c d r bd j
                else vElem s c d r bd j)
            [] (fun _ _ _ => false)
            (fun d => ((cvtPairs f).filter fun x => decide (act d x.1)).foldl
              (fun a x => if x.2 < 4096 / bd then a ||| (cvtOne s c f d x.1 x.2).2 else a) 0))
  ∧ (∀ h f s c, VReady (.vcvt h f) s c f.rm → tyBlock f.ty = true → f.vd.getLsbD 0 = false →
      (f.aux.extractLsb' 5 3).toNat * elemBits f.ty < 32 →
      -- 128 FP32 elements into blocks: codes into vD, scale bytes into vD + 1; a block counts if its first element is within VL
      let z := blockSize f.ty
      let seg := (f.aux.extractLsb' 5 3).toNat
      let g := fun d => valOf fBf16 (vElem s c d f.vb.toNat 16 0)
      let src := fun (d b : Nat) => (List.range z).map fun j =>
        (valOf fF32 (vElem s c d f.va.toNat 32 (b * z + j)), laneRnd s c f.rm d (seg * 128 + b * z + j))
      let blk := fun d b => if f.ty = 13 then k4Block (g d) (src d b) else mxBlock (fmtOf f.ty) (src d b)
      let live := fun (b : Nat) => b * z * 32 / 8 < lenOf s c
      ∃ s' fl, Executes (.vcvt h f) s c .v s'
        ∧ VecEffect s s' c (f.rm == 4) [(f.vd.toNat, elemBits f.ty), (f.vd.toNat + 1, 8)]
            (fun d r j =>
              if r = f.vd.toNat then
                let q := j - seg * 128
                if seg * 128 ≤ j ∧ q < 128 ∧ live (q / z) then (blk d (q / z)).1.getD (q % z) 0 % 2 ^ elemBits f.ty
                else vElem s c d r (elemBits f.ty) j
              else
                let q := j - seg * (128 / z)
                if scaleArea f.ty ≤ j then 0
                else if seg * (128 / z) ≤ j ∧ q < 128 / z ∧ live q then (blk d q).2.1 % 256 else vElem s c d r 8 j)
            [] (fun _ _ _ => false) fl)
  ∧ (∀ h f s c, VReady (.vcvt h f) s c f.rm → tyBlock f.ty = false → tyBlock (f.aux.extractLsb' 0 5) = true →
      let t := f.aux.extractLsb' 0 5
      let bs := elemBits t
      let q := fun (j : Nat) => (f.aux.extractLsb' 5 3).toNat * 128 + j
      let val := fun d j =>
        let code := vElem s c d f.va.toNat bs (q j)
        let sc := vElem s c d (f.va.toNat + 1) 8 (q j / blockSize t)
        roundRes fF32 (laneRnd s c f.rm d j)
          (if t = 13 then k4Val code sc (valOf fBf16 (vElem s c d f.vb.toNat 16 0)) else mxVal (fmtOf t) code sc)
      ∃ s' fl, Executes (.vcvt h f) s c .v s'
        ∧ VecEffect s s' c (f.rm == 4) [(f.vd.toNat, 32)]
            (fun d r j => if q j * bs / 8 < lenOf s c then (val d j).1 % 2 ^ 32 else vElem s c d r 32 j)
            [] (fun _ _ _ => false) fl)
  ∧ WideRule .vwadd (fun s c f d i => if tyF f.ty
      then roundRes fF32 (laneRnd s c f.rm d i) (sumVal [fVal f (eA s c f d i), fVal f (eB s c f d i)] (f.rm == 2))
      else wideInt f (iVal f (eA s c f d i) + iVal f (eB s c f d i)))
  ∧ WideRule .vwmul (fun s c f d i => if tyF f.ty
      then roundRes fF32 (laneRnd s c f.rm d i) (mulVal (fVal f (eA s c f d i)) (fVal f (eB s c f d i)))
      else wideInt f (iVal f (eA s c f d i) * iVal f (eB s c f d i)))
  ∧ WideRule .vwfma (fun s c f d i => if tyF f.ty
      then fMulAdd fF32 (laneRnd s c f.rm d i) false (fVal f (eA s c f d i)) (fVal f (eB s c f d i))
        (valOf fF32 (wideC s c f d i))
      else wideInt f (iVal f (eA s c f d i) * iVal f (eB s c f d i) + wideC s c f d i))
  ∧ LaneRuleOn (fun f => narrowOk f.ty f.aux f.va) .vnrw (fun f => elemBits f.ty) (fun s c f _ d i =>
      let w := widenWays f.aux
      let x := vElem s c d (f.va.toNat + i % w) (elemBits f.ty * w) (i / w)
      if tyF f.ty then roundVal (fmtOf f.ty) .ieee (laneRnd s c f.rm d i) (valOf fF32 x)
      else satInt f.ty (if f.ty.toNat < 4 ∧ 2 ^ (elemBits f.ty * w - 1) ≤ x then (x : Int) - 2 ^ (elemBits f.ty * w) else x))
  ∧ LaneRule .vdot4 (fun _ => 32) (fun s c f _ d i =>
      (((vElem s c d f.vc.toNat 32 i : Int) + ((List.range 4).map fun j =>
        iVal f (vElem s c d f.va.toNat 8 (4 * i + j)) * iVal f (vElem s c d f.vb.toNat 8 (4 * i + j))).sum) % 2 ^ 32 |>.toNat, 0))

/-- R307, R308, R412: each approximation and refinement executes in every active lane; what they compute there. -/
def Sys2Proof.Machine.ApproximationClauses : Prop :=
  let x := fun (s : State) (c : Nat) (f : FVR) (d i : Nat) => vElem s c d f.va.toNat (elemBits f.ty) i
  LaneRule .vrcp (fun _ => 32) (fun s c f _ d i => vrcp (x s c f d i))
  ∧ LaneRule .vrsq (fun _ => 32) (fun s c f _ d i => vrsq (x s c f d i))
  ∧ LaneRule .vexp2 (fun _ => 32) (fun s c f _ d i => vexp2 (x s c f d i))
  ∧ LaneRule .vrcpf (fun _ => 32) (fun s c f _ d i => refine false (x s c f d i) (eB s c f d i))
  ∧ LaneRule .vrsqf (fun _ => 32) (fun s c f _ d i => refine true (x s c f d i) (eB s c f d i))
  -- 1/a and 1/√a (R307)
  ∧ (∀ a q, ratOf (valOf fF32 a) = some q → q ≠ 0 → Rounds16 (1 / (q : ℝ)) (vrcp a))
  ∧ (∀ a q, ratOf (valOf fF32 a) = some q → 0 < q → Rounds16 (1 / Real.sqrt (q : ℝ)) (vrsq a))
  ∧ (∀ a q, ratOf (valOf fF32 a) = some q → q < 0 → vrsq a = (f32Nan, flIv))
  ∧ (∀ n, vrcp (f32Zero n) = (f32Inf n, flDz) ∧ vrsq (f32Zero n) = (f32Inf n, flDz) ∧ vrcp (f32Inf n) = (f32Zero n, 0))
  ∧ vrsq (f32Inf false) = (f32Zero false, 0) ∧ vrsq (f32Inf true) = (f32Nan, flIv)
  ∧ (∀ a sig, valOf fF32 a = .nan sig → vrcp a = nanGives sig ∧ vrsq a = nanGives sig ∧ vexp2 a = nanGives sig)
  -- 2^a (R412): the special inputs; integers exactly; between two integers a number of at most 16 significant bits between the powers;
  -- from 128 on overflow, to −150 underflow
  ∧ vexp2 (f32Inf false) = (f32Inf false, 0) ∧ vexp2 (f32Inf true) = (0, 0)
  ∧ (∀ a (n : ℤ), ratOf (valOf fF32 a) = some (n : ℚ) → -149 ≤ n → n ≤ 127 →
      ratOf (valOf fF32 (vexp2 a).1) = some ((2 : ℚ) ^ n) ∧ (vexp2 a).2 = 0)
  ∧ (∀ a q (n : ℤ), ratOf (valOf fF32 a) = some q → (n : ℚ) < q → q < n + 1 → -126 ≤ n → n ≤ 126 →
      ∃ y, ratOf (valOf fF32 (vexp2 a).1) = some y ∧ Short y ∧ (2 : ℚ) ^ n ≤ y ∧ y ≤ (2 : ℚ) ^ (n + 1) ∧ (vexp2 a).2 = flNx)
  ∧ (∀ a q, ratOf (valOf fF32 a) = some q → (128 ≤ q → vexp2 a = (f32Inf false, flOf ||| flNx))
      ∧ (q ≤ -150 → vexp2 a = (0, flUf ||| flNx)))
  -- one Newton step (R308): the exact value rounded once; what is passed through
  ∧ (∀ x a p q, ratOf (valOf fF32 x) = some p → p ≠ 0 → ratOf (valOf fF32 a) = some q →
      (∃ v, ratOf v = some (p * (2 - q * p)) ∧ refine false x a = roundVal fF32 .ieee rne v)
      ∧ (∃ v, ratOf v = some (p * (3 - q * p * p) / 2) ∧ refine true x a = roundVal fF32 .ieee rne v))
  ∧ (∀ x a sig, valOf fF32 x = .nan sig → refine false x a = (f32Nan, 0) ∧ refine true x a = (f32Nan, 0))
  ∧ (∀ x a, ratOf (valOf fF32 x) = some 0 ∨ (∃ n, valOf fF32 x = .inf n) → refine false x a = (x, 0) ∧ refine true x a = (x, 0))
  ∧ (∀ x a p sig, ratOf (valOf fF32 x) = some p → p ≠ 0 → valOf fF32 a = .nan sig →
      refine false x a = nanGives sig ∧ refine true x a = nanGives sig)
  ∧ (∀ x a p n, ratOf (valOf fF32 x) = some p → p ≠ 0 → valOf fF32 a = .inf n →
      refine false x a = (f32Inf !n, 0) ∧ refine true x a = (f32Inf (!(n != decide (p < 0))), 0))

/-- R413: each reduction executes, whatever the mask and VL select; what it computes of the active elements. -/
def Sys2Proof.Machine.ReductionClauses : Prop :=
  let amax := fun (f : FVR) (vs : List Nat) => vs.foldl (fun (a : Nat × Fl) v =>
      let m := fAbs (fmtOf f.ty) v
      let y := fMinMax (fmtOf f.ty) true a.1 m.1
      (y.1, m.2 ||| y.2 ||| a.2)) (0, 0)
  let sum := fun (s : State) (c : Nat) (f : FVR) (d : Nat) (vs : List Nat) => if tyF f.ty
      then rounded s c f d 0 (sumVal (vs.map (fVal f)) (f.rm == 2))
      else (((vs.map (iVal f)).sum % 2 ^ elemBits f.ty).toNat, 0)
  ReduceRule .vrsum sum
  ∧ ReduceRule .vrmax (fun _ _ f _ vs => reduceMinMax f true vs)
  ∧ ReduceRule .vrmin (fun _ _ f _ vs => reduceMinMax f false vs)
  ∧ ReduceRule .vramax (fun _ _ f _ vs => amax f vs)
  -- with no active element
  ∧ (∀ s c f d, sum s c f d [] = (0, 0)) ∧ (∀ f, amax f [] = (0, 0))
  ∧ (∀ (f : FVR), tyF f.ty = true →
      valOf (fmtOf f.ty) (reduceMinMax f true []).1 = .inf true ∧ valOf (fmtOf f.ty) (reduceMinMax f false []).1 = .inf false)
  -- a sum does not depend on the order of its elements
  ∧ (∀ s c f d vs ws, List.Perm vs ws → sum s c f d vs = sum s c f d ws)
  -- floating maxima, minima and magnitudes without a NaN: one of the elements, which none exceeds
  ∧ (∀ (f : FVR) vs, tyF f.ty = true → vs ≠ [] → (∀ v ∈ vs, v < 2 ^ elemBits f.ty ∧ (fVal f v).isNan = false) →
      (reduceMinMax f true vs).1 ∈ vs ∧ (reduceMinMax f false vs).1 ∈ vs ∧ (amax f vs).1 ∈ vs.map (· % 2 ^ (elemBits f.ty - 1))
      ∧ (reduceMinMax f true vs).2 = 0 ∧ (reduceMinMax f false vs).2 = 0 ∧ (amax f vs).2 = 0
      ∧ ∀ v ∈ vs, ∀ p q, ratOf (fVal f v) = some p →
          (ratOf (fVal f (reduceMinMax f true vs).1) = some q → p ≤ q) ∧ (ratOf (fVal f (reduceMinMax f false vs).1) = some q → q ≤ p)
          ∧ (ratOf (fVal f (amax f vs).1) = some q → |p| ≤ q))
  -- with one: the canonical NaN
  ∧ (∀ (f : FVR) vs, tyF f.ty = true → (∃ v ∈ vs, (fVal f v).isNan = true) →
      (reduceMinMax f true vs).1 = (fmtOf f.ty).nanCode ∧ (reduceMinMax f false vs).1 = (fmtOf f.ty).nanCode
      ∧ (amax f vs).1 = (fmtOf f.ty).nanCode)
  -- the integer reductions: the value of the result is the largest, the least
  ∧ (∀ (f : FVR) vs, tyF f.ty = false → tyI f.ty = true → vs ≠ [] → (∀ v ∈ vs, v < 2 ^ elemBits f.ty) →
      (iVal f (reduceMinMax f true vs).1 ∈ vs.map (iVal f)) ∧ (∀ v ∈ vs, iVal f v ≤ iVal f (reduceMinMax f true vs).1)
      ∧ (iVal f (reduceMinMax f false vs).1 ∈ vs.map (iVal f)) ∧ (∀ v ∈ vs, iVal f (reduceMinMax f false vs).1 ≤ iVal f v))

/-- R307, R308, R412, R413: the FP32 approximations and refinements, and the reductions: VRCP, VRSQ, VRCPF, VRSQF, VEXP2, VRSUM,
VRMAX, VRMIN and VRAMAX complete on every operand (the next state goes on at the next word), and what they compute. -/
def Obligations.VectorApproximationsAndReductions : Prop :=
  (∀ h f s c i, i ∈ [Instr.vrcp h f, .vrsq h f, .vrcpf h f, .vrsqf h f, .vexp2 h f, .vrsum h f, .vrmax h f, .vrmin h f, .vramax h f] →
      VReady i s c f.rm → ∃ t, exec i s = .next t
        ∧ (walkerOf (getCls t c) .v).ord = (walkerOf (getCls s c) .v).ord + 1 ∧ t.mem = s.mem ∧ (∀ j, j ≠ c → getCls t j = getCls s j))
  ∧ ApproximationClauses ∧ ReductionClauses

/-- R119, R414-R417: the tower loads and stores: VLD, VLDS, VLDX, VST, VSTS and VSTX issue wherever their segments lie in the
tower and a record they name is the partition's, and complete with their last pass; what each pass loads and stores; the segment
fault names the first offending offset, of the lowest desk and then the lowest segment, or the record's handle. -/
def Obligations.VectorTowerWords : Prop :=
  let forms := fun (h : Hdr) (f : FVM) => [(SegKind.unit, Instr.vld h f), (.stride, .vlds h f), (.index, .vldx h f),
    (.unit, .vst h f), (.stride, .vsts h f), (.index, .vstx h f)]
  (∀ h f s c p i, (p, i) ∈ forms h f → VReady i s c 0 → SegsOk s c f p → ∃ t, exec i s = .next t
      ∧ (walkerOf (getCls t c) .v).ord = (walkerOf (getCls s c) .v).ord + 1 ∧ t.insts = s.insts
      ∧ (i ∈ [.vld h f, .vlds h f, .vldx h f] → t.mem = s.mem))
  ∧ StorePasses
  ∧ LoadRule .vld .unit ∧ LoadRule .vlds .stride ∧ LoadRule .vldx .index
  ∧ StoreRule .vst .unit ∧ StoreRule .vsts .stride ∧ StoreRule .vstx .index
  ∧ (∀ h f s c p i d j, (p, i) ∈ forms h f → Ready i s c .v → d ∈ desksOf s c → j < 8 → 64 * j < lenOf s c →
      ¬ TowerRange s c (segAt0 s c f p d j) 64 →
      (∀ e ∈ desksOf s c, ∀ k, k < 8 → 64 * k < lenOf s c → e < d ∨ (e = d ∧ k < j) → TowerRange s c (segAt0 s c f p e k) 64) →
      Traps i s c .v 0x02 (BitVec.ofNat 64 (segAt0 s c f p d j)))
  ∧ (∀ h f s c p i, (p, i) ∈ forms h f → Ready i s c .v → f.rc = true →
      (∀ d ∈ desksOf s c, ∀ j, j < 8 → 64 * j < lenOf s c → TowerRange s c (segAt0 s c f p d j) 64) →
      recInRange s (partOf s c) (regS s c f.srec).toNat = false → Traps i s c .v 0x02 (regS s c f.srec))

/-- R294, R298: the exact sum and product of finite values, and one rounding of a value within the range of a format: RDN gives the
largest number not above it, RUP the least not below it, RTZ the nearest toward zero, RNE a nearest one, the even code of two. -/
def Obligations.ExactOperationsRoundedOnce : Prop :=
  (∀ a b x y, ratOf a = some x → ratOf b = some y → ∀ rdn,
      ratOf (sumVal [a, b] rdn).1 = some (x + y) ∧ (sumVal [a, b] rdn).2 = 0
      ∧ ratOf (mulVal a b).1 = some (x * y) ∧ (mulVal a b).2 = 0)
  ∧ (∀ f ∈ [fF32, fF16, fBf16, fE4m3, fE5m2, fE2m1], ∀ o n m e x top (mode bits : Nat), ratOf (.fin n m e) = some x →
      ratOf (valOf f f.maxCode) = some top → -top ≤ x → x ≤ top →
      let w := (roundVal f o ⟨mode, bits⟩ (.fin n m e)).1
      ∃ r, ratOf (valOf f w) = some r
        ∧ (mode = 2 → r ≤ x ∧ ∀ w' y, ratOf (valOf f w') = some y → y ≤ x → y ≤ r)
        ∧ (mode = 3 → x ≤ r ∧ ∀ w' y, ratOf (valOf f w') = some y → x ≤ y → r ≤ y)
        ∧ (mode = 1 → |r| ≤ |x| ∧ ∀ w' y, ratOf (valOf f w') = some y → |y| ≤ |x| → |y| ≤ |r|)
        ∧ (mode = 0 → (∀ w' y, ratOf (valOf f w') = some y → |r - x| ≤ |y - x|)
            ∧ (∀ w' y, ratOf (valOf f w') = some y → |r - x| = |y - x| → y = r ∨ w % 2 = 0)))

namespace Sys2Proof.Machine

/-! ### M words -/

/-- An operand of `n` chunks of 256 bytes, 1 KiB apart, inside one tower's half (R420, R422). -/
def OperandFits (s : State) (c base n : Nat) : Prop :=
  base % 256 = 0 ∧ (base + 1024 * (n - 1) + 256 ≤ 2 ^ 25
    ∨ hotOn s c = true ∧ 2 ^ 25 ≤ base ∧ base + 1024 * (n - 1) + 256 ≤ 2 ^ 26)

/-- The operand's bytes in order, as a number: byte n lies at base + 1024·(n div 256) + n mod 256. -/
def operandBytes (s : State) (c d base n : Nat) : Nat :=
  leNat ((List.range (256 * n)).map fun j => readByte s (towerByte (getCls s c) c d (base + 1024 * (j / 256) + j % 256)))

/-- An M word took `s` to `s'`: tile `t` of each of the desks `ds` holds the new elements, its flags are sticky; no other
tile, register, flag, no memory, no other class has changed. -/
structure TileEffect (s s' : State) (c : Nat) (ds : List Nat) (t : Nat) (new : Nat → Nat → Nat) (fl : Nat → Fl) : Prop where
  only : s' = modCls s c fun k => { k with tile := (getCls s' c).tile, aflg := (getCls s' c).aflg }
  wrote : ∀ d ∈ ds, ∀ i, i < 2048 → elem 32 (tileGet (getCls s' c) d t) i = new d i
  kept : ∀ d u, u < 4 → (d ∉ ds ∨ u ≠ t) → tileGet (getCls s' c) d u = tileGet (getCls s c) d u
  flags : ∀ d, (tget 0 (getCls s' c).aflg d : Fl)
    = if d ∈ ds then tget 0 (getCls s c).aflg d ||| fl d else tget 0 (getCls s c).aflg d

/-- Element (i, j) of a step (R423, R426, R427): a rows of K elements, b columns of K elements, the format word's band scales
and B format, K4's block scales behind the codes. -/
def stepElem (p : StepForm) (zero : Bool) (fw : W64) (a b acc i j : Nat) : Nat × Fl :=
  let one : Val := .fin false 1 0
  let ga := if fw.getLsbD 34 then valOf fBf16 (fw.toNat % 2 ^ 16) else one
  let gb := if fw.getLsbD 34 then valOf fBf16 (fw.toNat / 2 ^ 16 % 2 ^ 16) else one
  let fb := if fw.getLsbD 33 then p.other else p.fmt
  let val := fun (f : Fmt) (v : Nat) (g : Val) (scales e : Nat) =>
    operandVal (valOf f (elem p.bits v e)) g (if p.bits = 4 then scaleVal (elem 8 v (scales + e / 8)) else one)
  roundRes fF32 rne (dotVal (if zero then [] else [valOf fF32 (elem 32 acc (64 * i + j))])
    ((List.range p.depth).map fun k => val p.fmt a ga 1024 (p.depth * i + k))
    ((List.range p.depth).map fun k => val fb b gb 2048 (p.depth * j + k)))

/-- The format word has left QF (R158, R425). -/
def formatTaken (s : State) (c : Nat) (r : List W64) : State :=
  modCls s c fun k => { k with qf := r, qhead := tset 0 k.qhead 3 ((tget 0 k.qhead 3 + 1) % 16) }
/-- The ramp permit for a word that issues (R44): where matrix work begins it starts at the present load, ballast included,
rounded up to a multiple of 8 units, at least 8; the load is held in 1/625 of a unit. -/
def permitFor (k : ClassState) : Nat := if k.busy then k.permit else min 32 (max 8 (8 * ((k.load + 4999) / 5000)))
/-- The wave height min(HUB, permit) (R40, R428). -/
def waveFor (k : ClassState) : Nat := max 1 (min k.hub (permitFor k))
/-- The word begins its waves on the participating desks: the load rises to that of the first, ballast fills the rest (R40, R44,
R45). -/
def worked (s : State) (c : Nat) : State :=
  modCls s c fun k =>
    let u := 625 * min (desksOf s c).length (waveFor k)
    { k with permit := permitFor k, busy := true, load := max k.load u, bal := decide (u < k.load) }

/-- An issued word's stage is done with effect `s'`: with the last one the word completes. -/
def staged (s' : State) (c : Nat) (o : InFlight) (last : Bool) : State :=
  if last then complete s' c o else modOp s' c o.id fun g => { g with prog := o.prog + 1 }
/-- The wave height of an issued word. -/
def heightOf (o : InFlight) : Nat := max 1 (o.ops.getD 3 0).toNat
/-- The desks of its wave: those of rank v·H to v·H + H − 1, ascending (R428). -/
def waveOf (s : State) (c : Nat) (o : InFlight) : List Nat := ((desksOf s c).drop (o.prog * heightOf o)).take (heightOf o)
/-- It is the last wave. -/
def lastWave (s : State) (c : Nat) (o : InFlight) : Bool := decide ((desksOf s c).length ≤ (o.prog + 1) * heightOf o)

/-- A step word of form `p` (R424-R428): it issues with the format word and the bases it read; each wave then takes the operands of its
desks as they stand and writes their accumulators whole; with the last wave the word completes. -/
def StepRule (mk : Hdr → FMA → Instr) (p : StepForm) (zero : Bool) : Prop :=
  (∀ h f s c fw r, Ready (mk h f) s c .m → s.poison = [] → (getCls s c).qf = fw :: r →
      OperandFits s c (regS s c f.sa).toNat p.na → OperandFits s c (regS s c f.sb).toNat p.nb →
      IssuesWith (mk h f) s c .m (worked (formatTaken s c r) c)
        [fw, regS s c f.sa, regS s c f.sb, BitVec.ofNat 64 (waveFor (getCls s c))] [])
  ∧ (∀ h f s c o, UnderWay s c o (mk h f) → o.eng = .m → Memory.wf s.mem →
      OperandFits s c (o.ops.getD 1 0).toNat p.na → OperandFits s c (o.ops.getD 2 0).toNat p.nb →
      let g := fun d i => stepElem p zero (o.ops.getD 0 0) (operandBytes s c d (o.ops.getD 1 0).toNat p.na)
        (operandBytes s c d (o.ops.getD 2 0).toNat p.nb) (tileGet (getCls s c) d f.c.toNat) (i / 64) (i % 64)
      ∃ s', exec (.wordCompletion c o.id) s = .next (staged s' c o (lastWave s c o))
        ∧ TileEffect s s' c (waveOf s c o) f.c.toNat (fun d i => (g d i).1 % 2 ^ 32)
            (fun d => (List.range 2048).foldl (fun a i => a ||| (g d i).2) 0))
  ∧ (∀ h f s c, Ready (mk h f) s c .m → (getCls s c).qf = [] →
      if (getCls s c).ws.ord ≤ (getCls s c).wm.ord then Waits (mk h f) s else Traps (mk h f) s c .m 0x01 0)
  ∧ (∀ h f s c fw r, Ready (mk h f) s c .m → (getCls s c).qf = fw :: r →
      (¬ OperandFits s c (regS s c f.sa).toNat p.na → Traps (mk h f) s c .m 0x02 (regS s c f.sa))
      ∧ (OperandFits s c (regS s c f.sa).toNat p.na → ¬ OperandFits s c (regS s c f.sb).toNat p.nb →
          Traps (mk h f) s c .m 0x02 (regS s c f.sb)))

/-- What desk `d` gets from an issued QCVT of target `p` (R433): its operands are the format word, s[SD], E, the wave height, GEN and
POLICY.TRP as it read them. -/
def qDesk (p : QForm) (f : FMQ) (o : InFlight) (s : State) (c d : Nat) : QOut :=
  qConvert p (o.ops.getD 2 0).toInt f.rm ((o.ops.getD 0 0).getLsbD 16) (genOf (getCls s c) d)
    (tileGet (getCls s c) d (f.va.toNat % 4))
/-- Its scale line (R435). -/
def qLine (p : QForm) (f : FMQ) (o : InFlight) (s : State) (c d : Nat) : List Byte :=
  let e := (o.ops.getD 2 0).toInt
  let x := qDesk p f o s c d
  leBytes 4 ((e + 127).toNat * 128) ++ leBytes 4 (e % 2 ^ 32).toNat ++ leBytes 4 (o.ops.getD 4 0).toNat
    ++ leBytes 2 ((o.ops.getD 0 0).toNat % 2 ^ 13) ++ leBytes 2 (if x.ovf then 1 else 0)
    ++ leBytes 4 x.xmax.toNat ++ List.replicate 44 0

/-- A QCVT can issue: a format word is there, its record is the partition's, the tower output fits, SR is free (R433-R436). -/
structure QReady (p : QForm) (i : Instr) (f : FMQ) (s : State) (c : Nat) (fw : W64) (r : List W64) : Prop where
  ready : Ready i s c .m
  clean : s.poison = []
  admitted : admits i = true
  head : (getCls s c).qf = fw :: r
  record : recInRange s (partOf s c) (fw.toNat % 2 ^ 13) = true
  room : f.dst = true → OperandFits s c (regS s c f.sd).toNat p.chunks
    ∧ (((regS s c f.sd).toNat + p.scaleOff + 64 ≤ 2 ^ 25)
      ∨ hotOn s c = true ∧ 2 ^ 25 ≤ (regS s c f.sd).toNat ∧ (regS s c f.sd).toNat + p.scaleOff + 64 ≤ 2 ^ 26)
  alone : f.rm = 4 → srClear (getCls s c) (getCls s c).wm.ord = true

/-- After the destinations (R314, R433): every input is contributed, and the word completes. -/
def qAfter (f : FMQ) (s s1 : State) (c : Nat) (o : InFlight) (ovf : Bool) : State :=
  complete (contribute s1 c ((o.ops.getD 0 0).toNat % 2 ^ 13)
    ((desksOf s c).flatMap fun d => (elems 32 2048 (tileGet (getCls s c) d (f.va.toNat % 4))).map (BitVec.ofNat 32)) ovf) c o

/-- Byte `n` of a desk's tower output in operand order (R434). -/
def qByte (k4 : Bool) (x : QOut) (n : Nat) : Byte :=
  BitVec.ofNat 8 (if k4 then
      if n < 1024 then x.codes.getD (2 * n) 0 % 16 + 16 * (x.codes.getD (2 * n + 1) 0 % 16) else x.scales.getD (n - 1024) 0 % 256
    else x.codes.getD n 0 % 256)

/-- Its lines, in ascending operand order, the scale line last, four to a pass (R434). -/
def qStrips (p : QForm) (k4 : Bool) (d base : Nat) (x : QOut) (line : List Byte) : List Strip :=
  ((List.range (4 * p.chunks)).map fun j =>
    { pass := j / 4, desk := d, unit := j, off := base + 1024 * (j / 4) + 64 * (j % 4), mask := 0xFFFF
      line := (List.range 64).map fun n => qByte k4 x (64 * j + n) })
  ++ [{ pass := p.chunks, desk := d, unit := 4 * p.chunks, off := base + p.scaleOff, mask := 0xFFFF, line := line }]

/-- QCVT of target `p` (R432-R435, R320, R321): it issues with its record read once, converts its tile in waves, and then writes its
destinations. -/
def QuantiseRule (mk : Hdr → FMQ → Instr) (p : QForm) (k4 : Bool) : Prop :=
  (∀ h f s c fw r, QReady p (mk h f) f s c fw r →
      let rec0 := getRec s (fw.toNat % 2 ^ 13)
      IssuesWith (mk h f) s c .m (worked (formatTaken s c r) c)
        [fw, regS s c f.sd, BitVec.ofInt 64 (scaleExp rec0 p.mt), BitVec.ofNat 64 (waveFor (getCls s c)), BitVec.ofNat 64 rec0.gen,
         if rec0.policy.getLsbD 30 then 1 else 0] [])
  -- a wave before the last
  ∧ (∀ h f s c o, UnderWay s c o (mk h f) → o.eng = .m → o.segs = [] → lastWave s c o = false →
      exec (.wordCompletion c o.id) s = .next (modOp s c o.id fun g => { g with prog := o.prog + 1 }))
  -- the last one
  ∧ (∀ h f s c o, UnderWay s c o (mk h f) → o.eng = .m → o.segs = [] → lastWave s c o = true → admits (mk h f) = true →
      let x := qDesk p f o s c
      let above := (desksOf s c).any fun d => (x d).ovf
      let line := fun d i => ((qLine p f o s c d).getD i 0).toNat
      let vd := f.vd.toNat
      -- an overflow under POLICY.TRP: nothing written, the trap merge to come
      (above = true → o.ops.getD 5 0 = 1 → ∃ d, (desksOf s c).find? (fun d => (x d).ovf) = some d
        ∧ exec (.wordCompletion c o.id) s = .next (modOp s c o.id fun g => { g with
            status := .waiting
            ops := o.ops.take 6 ++ [((desksOf s c).foldl (fun a d => if (x d).xmax.toNat ≤ a.toNat then a else (x d).xmax)
              (0 : W32)).setWidth 64, BitVec.ofNat 64 d] }))
      -- registers
      ∧ ((above = false ∨ o.ops.getD 5 0 ≠ 1) → f.dst = false →
        ∃ s1, exec (.wordCompletion c o.id) s = .next (qAfter f s s1 c o above)
          ∧ VecEffect s s1 c (f.rm == 4)
              (if k4 then [(vd, 4), (vd + 1, 8), (vd + 2, 4), (vd + 3, 8), (vd + 4, 8)]
               else [(vd, 8), (vd + 1, 8), (vd + 2, 8), (vd + 3, 8), (vd + 4, 8)])
              (fun d q i =>
                if q = vd + 4 then (if i < 64 then line d i else 0)
                else if k4 then
                  if (q - vd) % 2 = 0 then (x d).codes.getD (1024 * ((q - vd) / 2) + i) 0 % 16
                  else if i < 128 then (x d).scales.getD (128 * ((q - vd) / 2) + i) 0 % 256 else 0
                else (x d).codes.getD (512 * (q - vd) + i) 0 % 256)
              [] (fun _ _ _ => false) (fun d => (x d).fl))
      -- the tower: the lines are on their way
      ∧ ((above = false ∨ o.ops.getD 5 0 ≠ 1) → f.dst = true →
        ∃ s1, VecEffect s s1 c (f.rm == 4) [] (fun _ _ _ => 0) [] (fun _ _ _ => false) (fun d => (x d).fl)
          ∧ exec (.wordCompletion c o.id) s = .next (modOp s1 c o.id fun g => { g with
              prog := 0, ops := o.ops.take 6 ++ [if above then 1 else 0]
              segs := (desksOf s c).flatMap fun d => qStrips p k4 d (o.ops.getD 1 0).toNat (x d) (qLine p f o s c d) })))
  -- four lines a stage; with the scale line the word completes
  ∧ (∀ h f s c o, UnderWay s c o (mk h f) → o.eng = .m → o.segs ≠ [] → Memory.wf s.mem → RemapOk (getCls s c) → StripsOk s c o.segs →
      ∃ s1, StoresPass s s1 c o.prog o.segs
        ∧ ((∃ g ∈ o.segs, o.prog < g.pass) → exec (.wordCompletion c o.id) s
            = .next (modOp s1 c o.id fun g => { g with prog := o.prog + 1 }))
        ∧ ((∀ g ∈ o.segs, g.pass ≤ o.prog) → exec (.wordCompletion c o.id) s
            = .next (qAfter f s s1 c o (decide (o.ops.getD 6 0 = 1)))))
  ∧ (∀ h f s c, Ready (mk h f) s c .m → (getCls s c).qf = [] →
      if (getCls s c).ws.ord ≤ (getCls s c).wm.ord then Waits (mk h f) s else Traps (mk h f) s c .m 0x01 0)
  ∧ (∀ h f s c fw r, Ready (mk h f) s c .m → s.poison = [] → (getCls s c).qf = fw :: r →
      recInRange s (partOf s c) (fw.toNat % 2 ^ 13) = false → Traps (mk h f) s c .m 0x02 (fw &&& 0x1FFF))

end Sys2Proof.Machine

/-- R44, R305, R422-R428: a step runs in waves of min(HUB, permit) desks; every element of a step is the accumulator (or nothing,
for MMAZ) plus the exact sum of its products, rounded once; the format word leaves QF; operands that do not fit and an empty QF
trap, or wait for the S walker. -/
def Obligations.MatrixSteps : Prop :=
  StepRule .mmaBf16 stepBf16 false ∧ StepRule .mmaE4m3 stepE4m3 false ∧ StepRule .mmaE5m2 stepE5m2 false
  ∧ StepRule .mmaK4 stepK4 false ∧ StepRule .mmazBf16 stepBf16 true ∧ StepRule .mmazE4m3 stepE4m3 true
  ∧ StepRule .mmazE5m2 stepE5m2 true ∧ StepRule .mmazK4 stepK4 true
  ∧ (∀ (acc : Val) (as bs : List Val) (x : ℚ) (xs ys : List ℚ), ratOf acc = some x → as.map ratOf = xs.map some → bs.map ratOf = ys.map some →
      as.length = bs.length →
      ratOf (dotVal [acc] as bs).1 = some (x + ((xs.zip ys).map fun e => e.1 * e.2).sum) ∧ (dotVal [acc] as bs).2 = 0)

/-- R431, R437: MZERO clears a tile, MLDC loads it from 8 KiB of the tower, eight lines at a time, MSTC stores it there, four
lines at a time, MSTAT writes a record's 64 bytes to a tower line; a base that does not fit and a foreign record trap. -/
def Obligations.AccumulatorWords : Prop :=
  (∀ h f s c, Ready (.mzero h f) s c .m → ∃ s', Executes (.mzero h f) s c .m s' ∧
      (s.poison = [] → TileEffect s s' c (desksOf s c) f.c.toNat (fun _ _ => 0) (fun _ => 0)))
  ∧ (∀ h f s c, Ready (.mldc h f) s c .m → TowerRange s c (regS s c f.sa).toNat 8192 →
      IssuesWith (.mldc h f) s c .m s [regS s c f.sa] [])
  ∧ (∀ h f s c o, UnderWay s c o (.mldc h f) → o.eng = .m → Memory.wf s.mem → TowerRange s c (o.ops.getD 0 0).toNat 8192 →
      o.prog < 16 →
      ∃ s', exec (.wordCompletion c o.id) s = .next (staged s' c o (o.prog == 15))
        ∧ TileEffect s s' c (desksOf s c) f.c.toNat (fun d i => if i / 128 = o.prog
            then leNat ((List.range 4).map fun n => readByte s (towerByte (getCls s c) c d ((o.ops.getD 0 0).toNat + 4 * i + n)))
            else elem 32 (tileGet (getCls s c) d f.c.toNat) i) (fun _ => 0))
  ∧ (∀ h f s c, Ready (.mstc h f) s c .m → TowerRange s c (regS s c f.sa).toNat 8192 →
      (f.rc = true → recInRange s (partOf s c) (regS s c f.srec).toNat = true) →
      IssuesWith (.mstc h f) s c .m s [regS s c f.sa, regS s c f.srec] [])
  ∧ (∀ h f s c o, UnderWay s c o (.mstc h f) → o.eng = .m → Memory.wf s.mem → RemapOk (getCls s c) →
      TowerRange s c (o.ops.getD 0 0).toNat 8192 → o.prog < 32 →
      let at0 := fun d n => towerByte (getCls s c) c d ((o.ops.getD 0 0).toNat + n)
      ∃ m dirty, exec (.wordCompletion c o.id) s = .next (staged
          (let s1 := modCls { s with mem := m } c fun k => { k with dirty := dirty }
           if f.rc = true ∧ o.prog = 31 then contribute s1 c (o.ops.getD 1 0).toNat
             ((desksOf s c).flatMap fun d => (elems 32 2048 (tileGet (getCls s c) d f.c.toNat)).map (BitVec.ofNat 32)) false
           else s1) c o (o.prog == 31))
        ∧ (∀ d ∈ desksOf s c, ∀ n, n / 256 = o.prog →
            tget 0 m (at0 d n) = BitVec.ofNat 8 (elem 8 (tileGet (getCls s c) d f.c.toNat) n))
        ∧ (∀ a, (∀ d ∈ desksOf s c, ∀ n, n / 256 = o.prog → a ≠ at0 d n) → tget 0 m a = readByte s a))
  ∧ (∀ h f s c, Ready (.mstat h f) s c .m → s.poison = [] → Memory.wf s.mem → RemapOk (getCls s c) →
      TowerRange s c (regS s c f.sa).toNat 64 → recInRange s (partOf s c) (regS s c f.srec).toNat = true →
      let at0 := fun d n => towerByte (getCls s c) c d ((regS s c f.sa).toNat + n)
      let rec0 := getRec s (regS s c f.srec).toNat
      ∃ m dirty, Executes (.mstat h f) s c .m (modCls { s with mem := m } c fun k => { k with dirty := dirty })
        ∧ (∀ d ∈ desksOf s c, ∀ n, n < 64 → tget 0 m (at0 d n) = BitVec.ofNat 8 (recNat rec0 / 2 ^ (8 * n)))
        ∧ (∀ a, (∀ d ∈ desksOf s c, ∀ n, n < 64 → a ≠ at0 d n) → tget 0 m a = readByte s a))
  ∧ (∀ h f s c i, (i = .mldc h f ∨ i = .mstc h f) → Ready i s c .m → ¬ TowerRange s c (regS s c f.sa).toNat 8192 →
      Traps i s c .m 0x02 (regS s c f.sa))
  ∧ (∀ h f s c, Ready (.mstat h f) s c .m → TowerRange s c (regS s c f.sa).toNat 64 →
      recInRange s (partOf s c) (regS s c f.srec).toNat = false → Traps (.mstat h f) s c .m 0x02 (regS s c f.srec))

/-- R319-R321, R432-R436: QCVT writes codes, block scales and scale line into registers or the tower, contributes every input, and
under POLICY.TRP with an overflow writes nothing; the trap merge then raises AMAX and GEN of the record and the rescale trap. -/
def Obligations.QuantiseWords : Prop :=
  QuantiseRule .qcvtK4 qK4 true ∧ QuantiseRule .qcvtE4m3 qE4m3 false ∧ QuantiseRule .qcvtE5m2 qE5m2 false
  ∧ (∀ s c f, (getCls s c).inflight.find? (fun f => f.eng == .m && f.status == .waiting) = some f → c < s.cls.length →
      let h := (f.ops.getD 0 0).toNat % 2 ^ 13
      let m : W32 := (f.ops.getD 6 0).setWidth 32
      let r := getRec s h
      ∃ t, exec (.trapMerge c) s = .next (raiseLater t c
            { code := 0x04, eng := some .m, ord := f.ord, op := some f.id
              tinfo := BitVec.ofNat 64 (h * 2 ^ 35 + (f.ops.getD 7 0).toNat * 2 ^ 30) })
        ∧ getRec t h = { r with amax := if m.toNat ≤ r.amax.toNat then r.amax else m
                                gen := if r.gen = 2 ^ 32 - 1 then 1 else r.gen + 1 }
        ∧ (∀ x, x ≠ h → getRec t x = getRec s x)
        ∧ { t with recs := [], cls := [] } = { s with recs := [], cls := [] }
        ∧ (∀ j, j ≠ c → getCls t j = getCls s j)
        ∧ getCls t c = { getCls s c with inflight := (getCls s c).inflight.map fun g =>
            if g.id = f.id then { g with status := .rescale } else g })
  -- TFMT takes the word's format word as its cause is taken, not while another is handled (R265, R268)
  ∧ (∀ s c (x : Cause) f fw, (getCls s c).inflight.find? (fun g => some g.id = x.op) = some f → f.ops.head? = some fw → x.code = 4 →
      c < s.cls.length → (getCls s c).live = true →
      ((getCls s c).hmode = false → (getCls s c).hold = none →
        (getCls s c).thnd = 0 ∨ ((getCls s c).thnd.toNat < 2 ^ 56 ∧ (getCls s c).thnd.toNat % 64 < 6) →
        (getCls (raiseLater s c x) c).tfmt = some fw)
      ∧ ((getCls s c).hmode = true → (getCls (raiseLater s c x) c).tfmt = (getCls s c).tfmt))

namespace Sys2Proof.Machine

/-- s[H] names a counter of the partition; a barrier's handle is even (R252, R446). -/
def CtrNamed (s : State) (c : Nat) (h : W64) : Prop := ctrInRange s (partOf s c) h.toNat = true
def BarNamed (s : State) (c : Nat) (h : W64) : Prop := CtrNamed s c h ∧ h.getLsbD 0 = false

/-- A counter or wait word: it issues with its operands, or traps on a handle outside the partition (R440). -/
def CtrWord (mk : Hdr → FCN → Instr) (ops : State → Nat → FCN → List W64) : Prop :=
  ∀ h f s c, Ready (mk h f) s c .s →
    (CtrNamed s c (regS s c f.h) → IssuesWith (mk h f) s c .s s (ops s c f) [])
    ∧ ((getCls s c).hmode = false → ¬ CtrNamed s c (regS s c f.h) → Traps (mk h f) s c .s 0x02 (regS s c f.h))

/-- A request of an issued word is performed at its home engine: nothing of the class holds it back and no router has lost it (R144,
R238, R251), it has not been performed yet, no counter is poisoned. -/
structure RequestHere (s : State) (c id : Nat) (f : InFlight) : Prop where
  stands : findOp s c id = some f
  reaches : arrives s c f 0 = true
  opened : requestOpen f = true
  clean : s.poison = []
  inRange : c < s.cls.length

/-- A result lands at once, not while the class is frozen (R126). -/
def Thawed (s : State) (c : Nat) : Prop := (getCls s c).frozen = false

/-- `t` is what an add of `v` to counter `h` leaves (R253, R441, R442): the counter is raised, no other counter changes, the word has
completed (a frozen class holds its answer), and no CWAIT that waits on the counter with its condition met is left. -/
def Added (s t : State) (c id h v : Nat) (byt : Bool) : Prop :=
  ctrGet t h = (if byt then (ctrGet s h + v) % 2 ^ 40 else ctrGet s h + v)
    ∧ (∀ x, x ≠ h → ctrGet t x = ctrGet s x) ∧ (Thawed s c → findOp t c id = none)
    ∧ (¬ Thawed s c → ∃ w, findOp t c id = some w ∧ w.status = .answered ∧ w.held = some [])
    ∧ (∀ d, d < 40 → ∀ w ∈ (getCls t d).inflight, ∀ hh g, w.instr = .cwait hh g → w.status = .waiting →
        op0 w 0 = h → waitMet t h (op0 w 1) (g.imm.getLsbD 21) = false)
    ∧ t.mem = s.mem

/-- The value that a read or a satisfied wait returns (R442). -/
def ctrSeen (s : State) (h : Nat) (byt : Bool) : W64 := BitVec.ofNat 64 (if byt then ctrGet s h % 2 ^ 40 else ctrGet s h)

/-- The condition of a BWAIT on the barrier `b` for `n` arrivals and `e` bytes (R448, R449), without TB's. -/
def arrived (s : State) (b n e : Nat) : Prop := n ≤ ctrGet s b ∧ (ctrGet s (b + 1) % 2 ^ 40 + 2 ^ 40 - e) % 2 ^ 40 < 2 ^ 39

end Sys2Proof.Machine

/-- R440-R452: the counter, barrier, fence and phase words at the S walker. -/
def Obligations.SynchronisationWords : Prop :=
  CtrWord .cadd (fun s c f => [regS s c f.h, regS s c f.v])
  ∧ CtrWord .caddi (fun s c f => [regS s c f.h, BitVec.ofNat 64 f.imm.toNat])
  ∧ CtrWord .cread (fun s c f => [regS s c f.h])
  ∧ CtrWord .cwait (fun s c f => [regS s c f.h, regS s c f.v])
  ∧ CtrWord .cwaitT (fun s c f => [regS s c f.h, regS s c f.v, regS s c f.t])
  ∧ (∀ h f s c, Ready (.barrive h f) s c .s → BarNamed s c (regS s c f.h) →
      let k := getCls s c
      let since := max k.lncStart.toNat (max k.lncResume.toNat (match k.lncBar with | some x => x.toNat | none => 0))
      IssuesWith (.barrive h f) s c .s (modCls s c fun k => { k with region := some (regS s c f.h), regionCount := 0, regionOp := k.nextId })
        (if f.imm.getLsbD 21 then [regS s c f.h, BitVec.ofNat 64 ((lnc s c).toNat - since)] else [regS s c f.h]) [])
  ∧ (∀ h f s c, Ready (.bwait h f) s c .s → BarNamed s c (regS s c f.h) →
      IssuesWith (.bwait h f) s c .s s [regS s c f.h, regS s c f.v, BitVec.ofNat 64 (getCls s c).bexp.toNat] [])
  ∧ (∀ h f s c i, (i = .barrive h f ∨ i = .bwait h f) → Ready i s c .s → (getCls s c).hmode = false →
      ¬ BarNamed s c (regS s c f.h) → Traps i s c .s 0x02 (regS s c f.h))
  ∧ (∀ h f s c, Ready (.bexp h f) s c .s → Executes (.bexp h f) s c .s
      (modCls s c fun k => { k with bexp := BitVec.ofNat 40 ((regS s c f.v).toNat + f.imm.toNat) }))
  ∧ (∀ h f s c, Ready (.fence h f) s c .s → Executes (.fence h f) s c .s (modCls s c fun k =>
      -- one marker for a FENCE, whichever walker reaches it first
      if k.fences.any (fun m => m.run == k.run && m.ord == k.ws.ord) then k
      else { k with fences := ⟨k.nextId, k.ws.ord, k.run, f.imm.extractLsb' 0 3⟩ :: k.fences, nextId := k.nextId + 1 }))
  ∧ (∀ h s c, Ready (.join h) s c .s →
      let k := getCls s c
      let older := fun (m : FenceMark) => before m.run m.ord m.id k.run k.ws.ord k.nextId
      let heads := ∀ m ∈ k.fences, older m = true → ∀ q, q < 3 → m.qset.getLsbD q = true →
        queueBusy k q m.run m.ord m.id = false
      (heads → Executes (.join h) s c .s
        (modCls s c fun k => { k with fences := k.fences.filter fun m => !before m.run m.ord m.id k.run k.ws.ord k.nextId }))
      ∧ (¬ heads → Waits (.join h) s))
  ∧ (∀ h f s c, Ready (.phase h f) s c .s →
      (2 ≤ f.scope.toNat → IssuesWith (.phase h f) s c .s s [] [])
      -- every older word but a counted transfer has completed (R238, R258)
      ∧ (f.scope.toNat < 2 → (∀ w ∈ olderOps (getCls s c) (getCls s c).ws.ord, isCounted w.instr = true) →
          (∀ p ∈ olderPend (getCls s c) (getCls s c).ws.ord, isCounted p.instr = true) →
          Executes (.phase h f) s c .s
            (if f.scope.toNat = 1 then mergePartials (landTransit s c) c none else landTransit s c))
      ∧ (f.scope.toNat < 2 → ((∃ w ∈ olderOps (getCls s c) (getCls s c).ws.ord, isCounted w.instr = false)
            ∨ ∃ p ∈ olderPend (getCls s c) (getCls s c).ws.ord, isCounted p.instr = false) → Waits (.phase h f) s))

/-- R253-R257, R441-R449: a counter request performed at its home: adds, reads, waits that are met or kept, arrivals. -/
def Sys2Proof.Machine.CounterRequestClauses : Prop :=
  let ev := fun c id => Instr.counterRequestArrival c id
  (∀ s c id f h g, RequestHere s c id f → f.instr = .cadd h g →
      (g.imm.getLsbD 21 = false → ctrGet s (op0 f 0) + op0 f 1 < 2 ^ 64) →
      ∃ t, exec (ev c id) s = .next t ∧ Added s t c id (op0 f 0) (op0 f 1) (g.imm.getLsbD 21))
  ∧ (∀ s c id f h g, RequestHere s c id f → f.instr = .caddi h g → ctrGet s (op0 f 0) + op0 f 1 < 2 ^ 64 →
      ∃ t, exec (ev c id) s = .next t ∧ Added s t c id (op0 f 0) (op0 f 1) false)
  ∧ (∀ s c id f h g, RequestHere s c id f → f.instr = .barrive h g → ctrGet s (op0 f 0) + 1 < 2 ^ 64 →
      ∃ t, exec (ev c id) s = .next t ∧ Added s t c id (op0 f 0) 1 false)
  ∧ (∀ s c id f h g i, findOp s c id = some f → f.status = .issued → f.instr = i →
      (i = .cadd h g ∨ i = .caddi h g ∨ i = .barrive h g) →
      -- a release waits for every older word but counted transfers (R238, R258)
      olderDone (getCls s c) f = false → exec (ev c id) s = .next s)
  ∧ (∀ s c id f h g, RequestHere s c id f → f.instr = .cread h g → Thawed s c →
      exec (ev c id) s
        = .next (complete (setS s c g.d.toNat (ctrSeen s (op0 f 0) (g.imm.getLsbD 21))) c f))
  ∧ (∀ s c id f h g, RequestHere s c id f → f.instr = .cread h g → ¬ Thawed s c →
      -- a freeze holds the result until it ends (R126)
      exec (ev c id) s = .next (modOp s c id fun w =>
        { w with status := .answered, held := some [(g.d.toNat, ctrSeen s (op0 f 0) (g.imm.getLsbD 21))], prog := f.prog }))
  ∧ (∀ s c id f h g, RequestHere s c id f → f.instr = .cwait h g → f.status = .issued →
      (waitMet s (op0 f 0) (op0 f 1) (g.imm.getLsbD 21) = true → Thawed s c →
        exec (ev c id) s = .next (complete
          (setS (doAcquire s c g.scope.toNat) c g.d.toNat (ctrSeen s (op0 f 0) (g.imm.getLsbD 21))) c f))
      ∧ (waitMet s (op0 f 0) (op0 f 1) (g.imm.getLsbD 21) = false →
        -- the request is acknowledged, a waiting record stays at the engine
        exec (ev c id) s = .next (modOp s c id fun _ => markDone { f with prog := 1, status := .waiting } 0)))
  ∧ (∀ s c id f h g, RequestHere s c id f → f.instr = .cwaitT h g →
      (waitMet s (op0 f 0) (op0 f 1) (g.imm.getLsbD 21) = true → Thawed s c →
        exec (ev c id) s = .next (complete (setS (doAcquire s c g.scope.toNat) c g.d.toNat 0) c f))
      -- a wait of 0 ns is a single test (R444)
      ∧ (waitMet s (op0 f 0) (op0 f 1) (g.imm.getLsbD 21) = false → f.ops.getD 2 0 = 0 → Thawed s c →
        exec (ev c id) s = .next (complete (setS s c g.d.toNat 1) c f))
      ∧ (waitMet s (op0 f 0) (op0 f 1) (g.imm.getLsbD 21) = false → f.ops.getD 2 0 ≠ 0 →
        exec (ev c id) s = .next (modOp s c id fun _ =>
          markDone { f with prog := 1, status := if f.status = .cancelling then .cancelling else .waiting } 0)))
  ∧ (∀ s c id f h g, RequestHere s c id f → f.instr = .bwait h g → f.status = .issued → g.imm.getLsbD 21 = false →
      (arrived s (op0 f 0) (op0 f 1) (op0 f 2) → Thawed s c →
        exec (ev c id) s = .next (relendIf (g.imm.getLsbD 20) (complete
          (modCls (doAcquire s c g.scope.toNat) c fun k => { k with region := none, regionCount := 0, regionOp := 0 }) c f)))
      ∧ (¬ arrived s (op0 f 0) (op0 f 1) (op0 f 2) →
          ∃ n, exec (ev c id) s
            = .next (relendIf (g.imm.getLsbD 20) (modOp s c id fun _ => markDone { f with prog := n, status := .waiting } 0))))
  ∧ (∀ s c id f h g b r lvl bkt, RequestHere s c id f → f.instr = .bwait h g → f.status = .issued → Thawed s c →
      -- TB: the round of the class's latest arrival is complete; the member takes its key (R449)
      g.imm.getLsbD 21 = true → arrived s (op0 f 0) (op0 f 1) (op0 f 2) →
      barrierOf s (op0 f 0) (teamSize s c) = some b → (getCls s c).region = some (BitVec.ofNat 64 b.handle) →
      (getCls s c).regionCount ≠ 0 → r = ((getCls s c).regionCount + b.size - 1) / b.size → r ≤ ctrGet s b.handle / b.size →
      b.keys.find? (fun x => x.1 = r) = some (r, lvl, bkt) →
      ∃ t, exec (ev c id) s = .next t ∧ findOp t c id = none ∧ (getCls t c).klvl = lvl ∧ (getCls t c).kbkt = bkt
        ∧ (getCls t c).region = none)

/-- R54, R56, R242, R254, R452: countdowns that end, the cancel of a timed wait, the epoch of a PHASE; what a release and an
acquire of node scope or wider do to epochs. -/
def Sys2Proof.Machine.WaitAndEpochClauses : Prop :=
  -- a countdown decides until its wait is satisfied or has expired (R254)
  let counts := fun (w : InFlight) => match w.instr with
    | .sleepns _ _ => true
    | .cwaitT _ _ => w.status == .issued || w.status == .waiting
    | _ => false
  -- a count that reaches zero before the next reference tick ends (R56; log 7)
  let ends := fun (s : State) (c : Nat) (w : InFlight) => w.rem < 20 - 2 * (getCls s c).clks.toNat
  (∀ s c f pre post h g, (getCls s c).inflight = pre ++ f :: post → (∀ w ∈ pre, counts w = true → ¬ ends s c w) → f.instr = .sleepns h g →
      ends s c f → exec (.nanosecondWaitExpiry c) s = .next (complete s c f))
  ∧ (∀ s c f pre post h g, (getCls s c).inflight = pre ++ f :: post → (∀ w ∈ pre, counts w = true → ¬ ends s c w) → f.instr = .cwaitT h g →
      f.status = .issued ∨ f.status = .waiting → ends s c f →
      exec (.nanosecondWaitExpiry c) s = .next (modOp s c f.id fun f => { f with status := .cancelling }))
  ∧ (∀ s c, (∀ w ∈ (getCls s c).inflight, counts w = true → ¬ ends s c w) →
      exec (.nanosecondWaitExpiry c) s = .next s)
  ∧ (∀ s c id f h g, findOp s c id = some f → f.instr = .cwaitT h g → f.status = .cancelling → f.prog = 1 → Thawed s c →
      exec (.waitCancelArrival c id) s = .next (complete (setS s c g.d.toNat 1) c f))
  ∧ (∀ s c id f h g, findOp s c id = some f → f.instr = .phase h g → f.status = .issued → 2 ≤ g.scope.toNat →
      -- a request of QY: it leaves once every older word is done, and no router has lost it (R238, R242, R440)
      arrives s c f 0 = true → Thawed s c →
      exec (.epochRequest c id) s
        = .next (complete (doAcquire (doRelease s c g.scope.toNat (some (wordId s c f)) none) c g.scope.toNat) c f))
  -- of the writes older than the releasing word that have no epoch yet, those of no counted transfer become versions of the
  -- next epoch, of one byte the newest; no other version goes
  ∧ (∀ s c t0 i sc upto die, 2 ≤ sc → teamOf s c = some t0 → instOf s t0.inst = some i → t0.node < i.nodes.length →
      let n := nodeOf s t0.inst t0.node
      let t := doRelease s c sc upto die
      let m := nodeOf t t0.inst t0.node
      let as := fun (w : Staged) => { w with epoch := some (n.epoch + 1) }
      { m with staged := [] } = { n with epoch := n.epoch + 1, staged := [] }
        ∧ (∀ w ∈ n.staged, published c upto w = false → w.epoch ≠ some (n.epoch + 1) → w ∈ m.staged)
        ∧ (∀ pre w post, n.staged = pre ++ w :: post → published c upto w = true →
            (∀ y ∈ pre, published c upto y = true → y.pa ≠ w.pa) → as w ∈ m.staged)
        ∧ (∀ w ∈ m.staged, (w ∈ n.staged ∧ published c upto w = false)
            ∨ ∃ x ∈ n.staged, published c upto x = true ∧ w = as x)
        ∧ t.mem = s.mem ∧ t.ctr = s.ctr)
  -- which those are (R238, R244, R258)
  ∧ (∀ c upto w, published c upto w = true ↔ w.cls = c ∧ w.epoch = none ∧ w.counted = false
      ∧ ∀ u x, upto = some u → w.word = some x → wordBefore x u = true)
  ∧ (∀ s c t0 i sc, 2 ≤ sc → teamOf s c = some t0 → instOf s t0.inst = some i → t0.node < i.nodes.length →
      let n := nodeOf s t0.inst t0.node
      nodeOf (doAcquire s c sc) t0.inst t0.node = { n with recorded := tset 0 n.recorded c n.epoch })

/-- R218, R236, R243, R244: a kernel's write to a covered frame leaves device-visible memory alone; the class that wrote reads what
it wrote, every other class of the node reads what it read before. -/
def Obligations.StagedWritesAreReadOwn : Prop :=
  ∀ s c t0 i pa va bs s' x, teamOf s c = some t0 → instOf s t0.inst = some i → t0.node < i.nodes.length →
    frameIdx pa = some x → pa % 64 + bs.length ≤ 64 → Memory.wf s.mem → s.poison = [] →
    let nd := nodeOf s t0.inst t0.node
    -- the frame that a first write's shadow takes from the reserve
    let sh := framePa x.1 (reserveFrame s x.1)
    -- staged bytes lie in shadowed frames; that frame lies apart from the frame written and from the node's shadows
    (∀ w ∈ nd.staged, (shadowOf nd w.pa).isSome = true) →
    (shadowOf nd pa = none → sh ≠ pa / 65536 * 65536 ∧ ∀ h ∈ nd.shadows, framePa h.table h.idx ≠ sh) →
    kernelWrite s c pa va bs none = some s' →
    ((shadowOf nd pa).isSome = true → s'.mem = s.mem)
      -- no byte of memory but the new shadow's changes; the write itself reaches none
      ∧ (∀ a, ¬ (sh ≤ a ∧ a < sh + 65536) → readByte s' a = readByte s a)
      ∧ (∀ v, (readPa s' c pa v bs.length).1 = bs)
      ∧ (∀ d a v n, d ≠ c → teamOf s d = some t0 → a % 64 + n ≤ 64 → a / 65536 * 65536 ≠ sh →
          (readPa s' d a v n).1 = (readPa s d a v n).1)

/-- A counter request performed at its home engine; waits that end or are cancelled, epoch requests. -/
def Obligations.CounterRequestsAndWaits : Prop := CounterRequestClauses ∧ WaitAndEpochClauses

namespace Sys2Proof.Machine

/-- An issued word of QA can be performed: nothing older of its queue touches the same locations, no marker holds it, its requests
have come through, no map entry that it reads for a handle is poisoned. -/
def Performable (s : State) (c id : Nat) (f : InFlight) : Prop :=
  findOp s c id = some f ∧ ready s c f = true ∧ f.status = .issued ∧ movesPoison s c f.moves = none

/-- What the movements of a word of QA come to from where it stands: the state and the bytes moved, and why they stopped. -/
def movement (s : State) (c : Nat) (f : InFlight) : Flow × Stop :=
  moveAll { cls := c, held := f.pages, meas := measured f.instr } f.moves f.prog { s := s, k := 0, m := ⟨f.meas, f.odd⟩ }
/-- The state they leave: what they staged is the word's (R242). -/
def moved (s : State) (c : Nat) (f : InFlight) : State := stampWrites (movement s c f).1.s c f (isCounted f.instr)

/-- The words whose completion moves data. -/
def Moves (i : Instr) : Prop :=
  (∃ h f, i = .copy h f) ∨ (∃ h f, i = .copy2d h f) ∨ (∃ h f, i = .gather h f) ∨ (∃ h f, i = .scatter h f)
    ∨ (∃ h f, i = .brefill h f)

/-- A read of a record (R318, R440, R455): the word sends its request; at the record's home eight registers take its bytes as they
stood, then the record changes. -/
def RecordReadRule (mk : Hdr → FSR → Instr) (change : Record → W64 → Record) : Prop :=
  (∀ h f s c, Ready (mk h f) s c .s → recInRange s (partOf s c) (regS s c f.a).toNat = true →
      IssuesWith (mk h f) s c .s s [regS s c f.a, regS s c f.b] [])
  ∧ (∀ h f s c, Ready (mk h f) s c .s → (getCls s c).hmode = false →
      recInRange s (partOf s c) (regS s c f.a).toNat = false → Traps (mk h f) s c .s 0x02 (regS s c f.a))
  ∧ (∀ s c id f h g, RequestHere s c id f → f.instr = mk h g → Thawed s c →
      let r := getRec s (op0 f 0)
      ∃ rs, exec (.counterRequestArrival c id) s = .next (complete ((List.range 8).foldl
          (fun t j => withS t c (g.d + BitVec.ofNat 5 j) (BitVec.ofNat 64 (recNat r / 2 ^ (64 * j)))) { s with recs := rs }) c f)
        ∧ ∀ x, (tget {} rs x : Record) = if x = op0 f 0 then change r (f.ops.getD 1 0) else getRec s x)

/-- GEN after a change (R309). -/
def genAfter (g : Nat) : Nat := if g = 2 ^ 32 - 1 then 1 else g + 1

/-- The bytes of an atomic's operand. -/
def opBytes (f : FAO) : Nat := if f.sz then 8 else 4

/-- An atomic (R232-R234, R453, R454): it issues on an aligned device address with W permission, waits for room in QS, traps when
misaligned. On a system-atomic page its home reads and writes as one step; elsewhere it reads, and later writes the new value at the
address it has read, whatever has been written there between. With RET it pushes the value read. -/
def AtomicRule (mk : Hdr → FAO → Instr) (new : Nat → Nat → Nat → Nat → Nat) : Prop :=
  (∀ h f s c s1 ms, Ready (mk h f) s c .a →
      let x := (regA s c f.ad).toNat
      x % opBytes f = 0 → (f.ret = true → roomQ (getCls s c) false = true) →
      Presented s c ⟨false, false⟩ 2 [⟨.none, .glob x, opBytes f⟩] s1 ms →
      (∀ m ∈ ms, ∀ a pa, m.dst = .mem a → placeOf s c [] a = .pa pa → pa < 2 ^ 51) →
      IssuesWith (mk h f) s c .a (noted s s1 c 2 ms) (keptOps [⟨.none, .glob x, opBytes f⟩] [regS s c f.sv, regS s c f.sw]) ms)
  ∧ (∀ h f s c, Ready (mk h f) s c .a → (regA s c f.ad).toNat % opBytes f ≠ 0 →
      Traps (mk h f) s c .a 0x02 (regA s c f.ad))
  ∧ (∀ h f s c, Ready (mk h f) s c .a → (regA s c f.ad).toNat % opBytes f = 0 → f.ret = true →
      roomQ (getCls s c) false = false → Waits (mk h f) s)
  ∧ (∀ s c id f h g s1 va pa, Performable s c id f → f.instr = mk h g → f.prog = 0 →
      -- its place, after the copy of a block that is shared (R226, R228)
      amoTarget s c f = (s1, va, .pa pa) → poisonUnder s1 (pa / 64) va = none → Memory.wf s1.mem →
      (g.ret = true → pushTurn (getCls s c) f false = true) →
      let b := opBytes g
      let o := readNat s1 pa b
      (saPage s1 pa = true → ∃ t, exec (.wordCompletion c id) s = .next
            (complete (if g.ret then modCls t c fun k => { k with qs := k.qs ++ [BitVec.ofNat 64 o] } else t) c f)
        ∧ MemSealed s1 t ∧ readNat t pa b = new b o ((op0 f 0) % 2 ^ (8 * b)) ((op0 f 1) % 2 ^ (8 * b))
        ∧ (∀ a, ¬ (pa ≤ a ∧ a < pa + b) → readByte t a = readByte s1 a))
      ∧ (saPage s1 pa = false → engineBusy s pa = true → exec (.wordCompletion c id) s = .next s)
      ∧ (saPage s1 pa = false → engineBusy s pa = false → exec (.wordCompletion c id) s = .next (modOp s1 c id fun w =>
          { w with prog := 1, ops := [w.ops.getD 0 0, w.ops.getD 1 0, BitVec.ofNat 64 o, BitVec.ofNat 64 pa, BitVec.ofNat 64 va] })))
  -- an unhandled address: no copy, the address that the word presented
  ∧ (∀ s c f src va n ms, f.moves = ⟨src, .mem va, n⟩ :: ms → amoTarget s c f = (s, va, placeOf s c f.pages va))
  ∧ (∀ s c id f h g, Performable s c id f → f.instr = mk h g → f.prog = 1 → Memory.wf s.mem →
      (g.ret = true → pushTurn (getCls s c) f false = true) →
      let b := opBytes g
      let o := op0 f 2
      let pa := op0 f 3
      ∃ t, exec (.wordCompletion c id) s = .next
            (complete (if g.ret then modCls t c fun k => { k with qs := k.qs ++ [BitVec.ofNat 64 o] } else t) c f)
        ∧ MemSealed s t
        ∧ readNat t pa b = new b o ((op0 f 0) % 2 ^ (8 * b)) ((op0 f 1) % 2 ^ (8 * b)) % 2 ^ (8 * b)
        ∧ (∀ a, ¬ (pa ≤ a ∧ a < pa + b) → readByte t a = readByte s a))

/-- A firmware event that class `c` puts into its die's queue (R270, R461). -/
def eventOf (s : State) (c code : Nat) (tinfo tcause : W64) : FwEvent :=
  { code := BitVec.ofNat 8 code, cls := BitVec.ofNat 8 c, part := BitVec.ofNat 8 (partOf s c), id := (getDie s (dieOf c)).nextEv
    tinfo := tinfo, tcause := tcause, inst := BitVec.ofNat 64 (match teamOf s c with | some t => t.inst | none => 0) }

end Sys2Proof.Machine

/-- R162, R211, R258, R382, R384, R390: an issued word of QA moves its data, adds to its counter, writes its token and completes;
LDQ pushes its element, VIEW.DEF writes its aliases, an acknowledged corridor transfer writes its token. -/
def Obligations.IssuedWordsComplete : Prop :=
  let ev := fun c id => Instr.wordCompletion c id
  (∀ s c id f, Performable s c id f → Moves f.instr → (movement s c f).2 = .finished →
      -- what the word has measured is contributed at its completion (R314)
      let t := contributeAll (moved s c f) c (movement s c f).1.m
      (f.ops.getD 3 0 ≠ 1 → exec (ev c id) s = .next (complete (setS t c (tokenReg f.instr) (f.ops.getD 0 0)) c f))
      ∧ (f.ops.getD 3 0 = 1 → c < s.cls.length → poisonAt t (.counter (op0 f 2)) = none →
        ∃ u, exec (ev c id) s = .next (complete (setS u c (tokenReg f.instr) (f.ops.getD 0 0)) c f)
          ∧ ctrGet u (op0 f 2) = (ctrGet t (op0 f 2) + op0 f 1) % 2 ^ 40
          ∧ (∀ x, x ≠ op0 f 2 → ctrGet u x = ctrGet t x) ∧ u.mem = t.mem))
  ∧ (∀ s c id f va cause table kind, Performable s c id f → Moves f.instr →
      -- a later batch halts the word with its progress, while a record is valid it waits
      (movement s c f).2 = .halted va cause table kind →
      if (getCls s c).halt.valid = true then exec (ev c id) s = .next s
      else ∃ u, exec (ev c id) s = .next u ∧ (c < (movement s c f).1.s.cls.length →
        (getCls u c).halt.valid = true ∧ (getCls u c).halt.fva = BitVec.ofNat 64 va
          ∧ (getCls u c).halt.prog = (movement s c f).1.k ∧ (getCls u c).tcode = 0x10))
  ∧ (∀ s c id f, Performable s c id f → Moves f.instr → (movement s c f).2 = .waiting →
      -- a page under migration: the word keeps its progress and waits (R209)
      exec (ev c id) s = .next (modOp (moved s c f) c id fun w => { w with
        prog := (movement s c f).1.k, moves := f.moves, meas := (movement s c f).1.m.parts
        odd := (movement s c f).1.m.odd }))
  ∧ (∀ s c id f h g src dst n ms t bs, Performable s c id f → f.instr = .ldq h g → f.moves = ⟨src, dst, n⟩ :: ms →
      pushTurn (getCls s c) f (g.mode.getLsbD 7) = true → s.poison = [] →
      readEnd s c f.pages src 0 (2 ^ (g.mode.extractLsb' 5 2).toNat) = .ok t bs none →
      let bits := 8 * 2 ^ (g.mode.extractLsb' 5 2).toNat
      let v := if g.mode.getLsbD 4 then BitVec.ofInt 64 (if 2 ^ (bits - 1) ≤ leNat bs then (leNat bs : Int) - 2 ^ bits else leNat bs)
        else BitVec.ofNat 64 (leNat bs)
      leNat bs < 2 ^ bits →
      exec (ev c id) s = .next (complete (modCls s c fun k =>
        if g.mode.getLsbD 7 then { k with qv := k.qv ++ [v] } else { k with qs := k.qs ++ [v] }) c f))
  ∧ (∀ s c id f h g, Performable s c id f → f.instr = .viewDef h g → g.ad.toNat < 15 →
      exec (ev c id) s
        = .next (complete (withA (withA s c g.ad (f.ops.getD 0 0)) c (g.ad + 1) (f.ops.getD 1 0)) c f))
  ∧ (∀ s c id f h g, findOp s c id = some f → (f.instr = .xsend h g ∨ f.instr = .xrecv h g ∨ f.instr = .xbcast h g) →
      (f.status = .answered → (getCls s c).live = true → (getCls s c).frozen = false →
        exec (ev c id) s = .next (complete (setS s c g.tok.toNat (f.ops.getD 0 0)) c f))
      ∧ (f.status ≠ .answered → exec (ev c id) s = .next s))
  -- a movement between towers copies its bytes (R163, R389)
  ∧ (∀ s c x d xo y e yo n, s.poison = [] → Memory.wf s.mem → n % 64 = 0 → xo % 64 = 0 → yo % 64 = 0 →
      xo + n ≤ 2 ^ 25 → yo + n ≤ 2 ^ 25 → physTower (getCls s x) d < 34 → physTower (getCls s y) e < 34 →
      (x, physTower (getCls s x) d) ≠ (y, physTower (getCls s y) e) →
      ∃ t, moveAll { cls := c } [⟨.tower x d xo, .tower y e yo, n⟩] 0 { s := s, k := 0 } = ({ s := t, k := n }, .finished)
        ∧ (∀ j, j < n → readByte t (towerByte (getCls s y) y e (yo + j)) = readByte s (towerByte (getCls s x) x d (xo + j)))
        ∧ (∀ a, (∀ j, j < n → a ≠ towerByte (getCls s y) y e (yo + j)) → readByte t a = readByte s a))

/-- R309-R312, R318, R453-R455: the record reads and their changes, the layout of a record, the atomics. -/
def Obligations.RecordsAndAtomics : Prop :=
  RecordReadRule .srread (fun r _ => r)
  ∧ RecordReadRule .srreadPol (fun r v => { r with policy := v.setWidth 32 &&& 0xFCFFF000, gen := genAfter r.gen })
  ∧ RecordReadRule .srreadClr (fun r v => { amax := 0, bins := List.replicate 16 0, count := 0
                                            policy := v.setWidth 32 &&& 0xFCFFF000, gen := genAfter r.gen })
  ∧ (∀ r : Record, r.bins.length = 16 → (∀ b ∈ r.bins, b < 2 ^ 24) → r.count < 2 ^ 32 → r.gen < 2 ^ 32 →
      recNat r % 2 ^ 32 = r.amax.toNat
      ∧ (∀ j, j < 16 → recNat r / 2 ^ (32 + 24 * j) % 2 ^ 24 = r.bins.getD j 0)
      ∧ recNat r / 2 ^ 416 % 2 ^ 32 = r.count ∧ recNat r / 2 ^ 448 % 2 ^ 32 = r.gen
      ∧ recNat r / 2 ^ 480 = r.policy.toNat)
  ∧ AtomicRule .amoAdd (fun b o v _ => (o + v) % 2 ^ (8 * b))
  ∧ AtomicRule .amoMax (fun _ o v _ => if o ≤ v then v else o)
  ∧ AtomicRule .amoMin (fun _ o v _ => if o ≤ v then o else v)
  ∧ AtomicRule .amoAnd (fun _ o v _ => o &&& v)
  ∧ AtomicRule .amoOr (fun _ o v _ => o ||| v)
  ∧ AtomicRule .amoXchg (fun _ _ v _ => v)
  ∧ AtomicRule .amoCas (fun _ o v w => if o = w then v else o)

/-- R265-R270: what taking a trap does. With THND = 0 firmware gets an event and the class is held; with a word address in THND
the handler begins there with the interrupted walkers saved and V and M parked; TCAUSE and TINFO name the cause, and no
general register changes. In handler mode a second cause is a double trap: the node fails. -/
def Obligations.TakingATrap : Prop :=
  (∀ s c code (e : Eng) ord tinfo, c < s.cls.length → (getCls s c).thnd = 0 → dieOf c < s.dies.length →
      let k := getCls s c
      let t := enterTrap s c code (some e) ord tinfo
      (getCls t c).tcode = BitVec.ofNat 8 code ∧ (getCls t c).teng = engCode e ∧ (getCls t c).tord = BitVec.ofNat 48 ord
      ∧ (getCls t c).tinfo = tinfo ∧ (getCls t c).hold = some (getDie s (dieOf c)).nextEv ∧ (getCls t c).hmode = k.hmode
      ∧ (getDie t (dieOf c)).evq = (getDie s (dieOf c)).evq ++ [eventOf s c code tinfo (tcauseOf (getCls t c))]
      ∧ (getCls t c).trap = some ⟨BitVec.ofNat 8 code, some e, ord, tinfo, none⟩
      ∧ { getCls t c with tcode := 0, teng := 0, tord := 0, tinfo := 0, walk := none, hold := none, trap := none }
          = ({ k with tcode := 0, teng := 0, tord := 0, tinfo := 0, walk := none, hold := none, trap := none } : ClassState)
      ∧ (∀ j, j ≠ c → getCls t j = getCls s j) ∧ t.mem = s.mem)
  ∧ (∀ s c code (e : Eng) ord tinfo, c < s.cls.length → (getCls s c).thnd ≠ 0 → (getCls s c).thnd.toNat < 2 ^ 56 →
      (getCls s c).thnd.toNat % 64 < 6 →
      let k := getCls s c
      let at0 := 6 * (k.thnd.toNat / 64) + k.thnd.toNat % 64
      let go := fun (w : Walker) => { w with wi := at0, ord := 0, atExit := false }
      enterTrap s c code (some e) ord tinfo = modCls s c fun k => { k with
        tcode := BitVec.ofNat 8 code, teng := engCode e, tord := BitVec.ofNat 48 ord, tinfo := tinfo, walk := none
        trap := some ⟨BitVec.ofNat 8 code, some e, ord, tinfo, none⟩, hmode := true, run := k.runs + 1, runs := k.runs + 1, block := none
        frame := some { run := k.run, block := k.block, ws := k.ws, wa := k.wa, wv := k.wv, wm := k.wm, wx := k.wx
                        pend := k.pend, resolved := k.resolved }
        ws := go k.ws, wa := go k.wa, wx := go k.wx, wv := { k.wv with parked := true }, wm := { k.wm with parked := true }
        pend := [], resolved := [] })
  ∧ (∀ s c e code tinfo, (getCls s c).hmode = false →
      trapAt s c e code tinfo
        = enterTrap (if e = .a then modCls s c forgetLists else s) c code (some e) (walkerOf (getCls s c) e).ord tinfo)
  -- a word of the A engine that traps before issue reads its index lists again (R265, R381); its tokens stay taken
  ∧ (∀ k : ClassState, { forgetLists k with taken := [] } = { k with taken := [] }
      ∧ (forgetLists k).taken = k.taken.map fun t => if t.run = k.run ∧ t.ord = k.wa.ord then { t with index := none } else t)
  ∧ (∀ s c e code tinfo t0 i, (getCls s c).hmode = true → teamOf s c = some t0 → instOf s t0.inst = some i →
      i.state ≠ .ended → ∃ j, instOf (trapAt s c e code tinfo) t0.inst = some j ∧ j.state = .ended ∧ j.status = 0x04)

/-- R175, R269, R335, R370, R456, R457: TRAP is passed and raises code 0x07 with its immediate; RETT ends handler mode once A and X
have reached it, and outside a handler has no effect; EXIT waits for everything, arrives, and the last arrival ends the team. -/
def Obligations.TrapReturnExitWords : Prop :=
  (∀ h f s c, Ready (.trap h f) s c .s → (getCls s c).hmode = false →
      ∃ t, Passed (.trap h f) s t c .s ((getCls s c).ws.wi + 1)
        ∧ exec (.trap h f) s
          = .next (enterTrap t c 0x07 (some .s) (getCls s c).ws.ord (BitVec.ofNat 64 f.imm.toNat)))
  ∧ (∀ h f s c, Ready (.rett h f) s c .s → (getCls s c).hmode = false → Executes (.rett h f) s c .s s)
  ∧ (∀ h f s c fr, Ready (.rett h f) s c .s → (getCls s c).hmode = true → (getCls s c).frame = some fr →
      (getCls s c).wa.ord = (getCls s c).ws.ord → (getCls s c).wx.ord = (getCls s c).ws.ord → (getCls s c).causes = [] →
      let k := getCls s c
      let back := fun (w now : Walker) => { w with loops := now.loops, rstack := now.rstack }
      ∃ t, exec (.rett h f) s = .next t
        ∧ (let q := getCls t c
           q.hmode = false ∧ q.frame = none ∧ q.run = fr.run ∧ q.ws = back fr.ws k.ws ∧ q.wa = back fr.wa k.wa
             ∧ q.wx = back fr.wx k.wx ∧ q.wv = fr.wv ∧ q.wm = fr.wm ∧ q.pend = fr.pend ∧ q.resolved = fr.resolved
             ∧ q.sreg = k.sreg ∧ q.areg = k.areg ∧ q.v = k.v
             -- skip = 1 retires the trapping word without effect, whether it has issued or not
             ∧ (f.imm = 1 → ∀ x e, k.trap = some x → x.op = none → x.eng = some e → x.code ≠ 0x07 →
                 q.retire = (e, fr.run, x.ord) :: k.retire)
             ∧ (f.imm = 1 → ∀ x id, k.trap = some x → x.op = some id → ∀ w ∈ q.inflight, w.id ≠ id)
             -- skip = 0 has a word that had issued issue again
             ∧ (f.imm ≠ 1 → ∀ x id w, k.trap = some x → x.op = some id → k.inflight.find? (fun w => w.id = id) = some w →
                 q.inflight = k.inflight.map fun w => if w.id = id then { w with status := .again } else w))
        ∧ (∀ j, j ≠ c → getCls t j = getCls s j) ∧ t.mem = s.mem)
  ∧ (∀ h f s c, Ready (.rett h f) s c .s → (getCls s c).hmode = true →
      ¬ ((getCls s c).wa.ord = (getCls s c).ws.ord ∧ (getCls s c).wx.ord = (getCls s c).ws.ord) → Waits (.rett h f) s)
  ∧ (∀ h s c t0, Ready (.exit h) s c .s → teamOf s c = some t0 →
      (∀ u ∈ s.teams, u.id = t0.id → u = t0) → (∀ e : Eng, e ≠ .s → (walkerOf (getCls s c) e).atExit = true) →
      (getCls s c).inflight = [] → (getCls s c).pend = [] →
      ∃ t, exec (.exit h) s = .next t
        ∧ ((∃ m ∈ t0.classes, m ≠ c ∧ m ∉ t0.arrived) → (getCls t c).ws.atExit = true
            ∧ ∃ u ∈ t.teams, u.id = t0.id ∧ u.arrived = c :: t0.arrived)
        ∧ ((∀ m ∈ t0.classes, m = c ∨ m ∈ t0.arrived) → (∀ u ∈ t.teams, u.id ≠ t0.id)
            ∧ ∀ m ∈ t0.classes, m < s.cls.length → (getCls t m).live = false))
  ∧ (∀ h s c, Ready (.exit h) s c .s → ((∃ e : Eng, e ≠ .s ∧ (walkerOf (getCls s c) e).atExit = false)
      ∨ (getCls s c).inflight ≠ [] ∨ (getCls s c).pend ≠ []) → Waits (.exit h) s)

namespace Sys2Proof.Machine

/-- The processor of die `d` runs word `i` with the effect `s'` and goes on at the next word (R458). -/
def FwRuns (i : Instr) (s : State) (d : Nat) (s' : State) : Prop :=
  exec i s = .next (fwGo s' d ((getDie s d).fw.wi + 1))

/-- `s` with ERR of die `d`'s processor set (R460). -/
def withErr (s : State) (d : Nat) : State := modFw s d fun f => { f with err := true }

/-- x is naturally aligned and every byte of [x, x + n) is backed (R18, R460). -/
def PhysBacked (s : State) (x n : Nat) : Prop := x % n = 0 ∧ x + n ≤ 2 ^ 52 ∧ ∀ j, j < n → backed s (x + j) = true

/-- Sign or zero extension of an `n`-byte number. -/
def extended (sx : Bool) (n v : Nat) : W64 :=
  BitVec.ofInt 64 (if sx = true ∧ 2 ^ (8 * n - 1) ≤ v then (v : Int) - 2 ^ (8 * n) else v)

end Sys2Proof.Machine

/-- R253, R444, R458-R464: the words of the timetable processors: physical loads and stores, heartbeat, events, mailbox, own
registers, shoot-down, their waits. (Of an encrypted frame PLD and PST see what is stored; the clauses here are about frames
without a key.) -/
def Obligations.FirmwareWords : Prop :=
  (∀ h f s d, FwReady s d → Memory.wf s.mem →
      let x := (regFw s d f.a).toNat + f.off.toNat
      let n := 2 ^ f.sz.toNat
      (PhysBacked s x n → tablePlace s x = none → keyOf s (64 * (x / 64)) = none →
        FwRuns (.pld h f) s d (withFwS s d f.d (extended f.sx n (leNat ((List.range n).map fun j => readByte s (x + j))))))
      ∧ (¬ PhysBacked s x n → FwRuns (.pld h f) s d (withFwS (withErr s d) d f.d (BitVec.allOnes 64)))
      -- the first eight bytes of a table's entry (R207, R208)
      ∧ (∀ b j, b < 8 → j < tableLen s b → x = tableBase b + 16 * j → f.sz = 3 → PhysBacked s x n →
          let e := shownEntry s b j
          FwRuns (.pld h f) s d (withFwS s d f.d (BitVec.ofNat 64 (e.vpn % 2 ^ 40 * 2 ^ 24 + e.part % 32 * 2 ^ 19
            + e.v.toNat * 2 ^ 18 + e.sa.toNat * 2 ^ 17 + e.mig.toNat * 2 ^ 16 + e.shd.toNat * 2 ^ 15))))
      -- the handover memory is read-only to the standby processors (R92); a store waits for an atomic that has read the word (R233)
      ∧ (PhysBacked s x n → s.update.started = true → handoverBase ≤ x → x < handoverBase + 65536 → FwRuns (.pst h f) s d s)
      ∧ (PhysBacked s x n → s.update.started = false → amoOpen s x n = true → Waits (.pst h f) s)
      ∧ (PhysBacked s x n → tablePlace s x = none → keyOf s x = none → s.update.started = false → amoOpen s x n = false →
          ∃ t, FwRuns (.pst h f) s d t ∧ MemOnly s t
            ∧ (∀ j, j < n → readByte t (x + j) = (regFw s d f.d).extractLsb' (8 * j) 8)
            ∧ (∀ a, ¬ (x ≤ a ∧ a < x + n) → readByte t a = readByte s a))
      ∧ (¬ PhysBacked s x n → FwRuns (.pst h f) s d (withErr s d)))
  ∧ (∀ h s d, FwReady s d → s.update.started = false →
      FwRuns (.hbeat h) s d (modFw s d fun f => { f with beat := lnc s (20 * d) }))
  ∧ (∀ h s d, FwReady s d → s.update.started = true → s.update.transferAt + 1250000 ≤ s.ticks8 →
      -- a heartbeat later than 10 ms after the transfer point completes nothing (R93)
      FwRuns (.hbeat h) s d (modFw s d fun f => { f with beat := lnc s (20 * d) }))
  ∧ (∀ h s d, FwReady s d → s.update.started = true → s.ticks8 < s.update.transferAt + 1250000 →
      -- the first heartbeat of a new image completes the update (R92)
      ∃ t, FwRuns (.hbeat h) s d t ∧ t.update.started = false ∧ t.mbstat = 0 ∧ (getDie t d).fw.beat = lnc s (20 * d)
        ∧ (∀ b, b < s.dies.length → (getDie t b).fw.previous = none
            ∧ (getDie t b).fw.standby = (getDie s b).fw.previous.map FwCtx.image)
        ∧ t.meas = (s.meas.set 1 (getDie s 0).fw.image.digest).set 2 ((getDie s 0).fw.image.svn.setWidth 256))
  ∧ (∀ h f s d e es, FwReady s d → (getDie s d).evq = e :: es →
      (s.update.started = false →
        let s1 := modDie s d fun x => { x with evq := es, openEv := e :: x.openEv }
        FwRuns (.evpop h f) s d (withFwS (withFwS (withFwS (withFwS s1 d f.d
          (BitVec.ofNat 64 (e.code.toNat * 2 ^ 56 + e.cls.toNat * 2 ^ 48 + e.part.toNat * 2 ^ 40 + e.id % 2 ^ 40)))
          d (f.d + 1) e.tinfo) d (f.d + 2) e.tcause) d (f.d + 3) e.inst))
      ∧ (s.update.started = true → Waits (.evpop h f) s))
  ∧ (∀ h f s d, FwReady s d → (getDie s d).evq = [] → Waits (.evpop h f) s)
  ∧ (∀ h f s d e, FwReady s d → (getDie s d).openEv.find? (fun x => x.id = (regFw s d f.a).toNat) = some e →
      let act := (regFw s d f.b).toNat
      let c := e.cls.toNat
      let s1 := modDie s d fun x => { x with openEv := x.openEv.erase e }
      (5 < act → FwRuns (.evdone h f) s d (withErr s d))
      ∧ (act ≤ 5 → waitsEvent s1 d e = false → FwRuns (.evdone h f) s d s1)
      ∧ (waitsEvent s1 d e = true → (getCls s c).hold = some e.id → act ≤ 1 →
          FwRuns (.evdone h f) s d (returnTrap s1 c (act == 1)))
      ∧ (waitsEvent s1 d e = true → act = 2 → FwRuns (.evdone h f) s d (failEvent s1 c e.code.toNat))
      ∧ (waitsEvent s1 d e = true → act = 4 → (getCls s c).halt.ev = e.id →
          FwRuns (.evdone h f) s d (modCls s1 c fun k => { k with halt := { k.halt with valid := false } }))
      ∧ (waitsEvent s1 d e = true → act = 5 → FwRuns (.evdone h f) s d s1))
  ∧ (∀ h f s d, FwReady s d → (getDie s d).openEv.find? (fun x => x.id = (regFw s d f.a).toNat) = none →
      FwRuns (.evdone h f) s d (withErr s d))
  ∧ (∀ h f s d, FwReady s d →
      let n := (regFw s d f.a).toNat
      -- a register that is none sets ERR and reads 0 (R463)
      FwRuns (.mbxrd h f) s d (withFwS (if 9 < n then withErr s d else s) d f.d
        (if n = 0 then s.mbcmd else if n ≤ 8 then s.mbarg.getD (n - 1) 0 else if n = 9 then BitVec.ofNat 64 s.mbstat.toNat else 0))
      ∧ (1 ≤ n → n ≤ 8 → FwRuns (.mbxwr h f) s d { s with mbarg := s.mbarg.set (n - 1) (regFw s d f.b) })
      ∧ (n = 9 → FwRuns (.mbxwr h f) s d
          { s with mbstat := BitVec.ofNat 16 ((regFw s d f.b).toNat / 2 ^ 8 % 2 ^ 8 * 2 ^ 8), out := s.out ++ [.msix .pf0 0] })
      ∧ (n = 0 ∨ 9 < n → FwRuns (.mbxwr h f) s d (withErr s d)))
  ∧ (∀ h f s d, FwReady s d → d < 2 →
      let v := regFw s d f.a
      let r : W64 := if f.csr = 0 then
          BitVec.ofNat 64 ((getDie s d).fw.err.toNat * 8 + s.pairPeer.isSome.toNat * 4 + (!s.update.started).toNat * 2 + d)
        else if f.csr = 1 then BitVec.ofNat 64 (getDie s d).evq.length else BitVec.ofNat 64 handoverBase
      FwRuns (.fwcsr h f) s d (if f.a ≠ 0 ∧ f.csr = 0 ∧ v.getLsbD 3 = true
        then modFw (withFwS s d f.d r) d fun x => { x with err := false } else withFwS s d f.d r))
  ∧ (∀ h f s d, FwReady s d →
      let p := (regFw s d f.b).toNat % 32
      let cs := if p = 0 ∨ (getPart s p).state = 0 then [] else (List.range 40).filter fun c => (partArg s p 1).testBit c
      ((getDie s d).fw.shoot = none → cs = [] → FwRuns (.shoot h f) s d (withFwS s d f.d 0))
      ∧ ((getDie s d).fw.shoot = none → cs ≠ [] → exec (.shoot h f) s
          = .next (modFw s d fun x => { x with shoot := some ((regFw s d f.a).toNat / 2 ^ 16 % 2 ^ 40, cs, cs.length) }))
      ∧ (∀ vpn n, (getDie s d).fw.shoot = some (vpn, [], n) →
          FwRuns (.shoot h f) s d (withFwS (modFw s d fun x => { x with shoot := none }) d f.d (BitVec.ofNat 64 n)))
      ∧ (∀ vpn c l n, (getDie s d).fw.shoot = some (vpn, c :: l, n) → Waits (.shoot h f) s))
  -- a wait of a processor is tested as it arrives; else an add satisfies it, or its time passes (R253, R444, R458)
  ∧ (∀ h f s d, FwReady s d → (regFw s d f.h).toNat < 2 ^ 25 → (getDie s d).fw.wait = none →
      let n := (regFw s d f.h).toNat
      let v := (regFw s d f.v).toNat
      let now := s.ticks8 * 8
      (waitMet s n v (f.imm.getLsbD 21) = true → FwRuns (.cwait h f) s d (withFwS s d f.d (ctrSeen s n (f.imm.getLsbD 21)))
        ∧ FwRuns (.cwaitT h f) s d (withFwS s d f.d 0))
      ∧ (waitMet s n v (f.imm.getLsbD 21) = false →
        exec (.cwait h f) s = .next (modFw s d fun x => { x with wait := some ⟨n, v, f.imm.getLsbD 21, none⟩, sleepUntil := none })
        ∧ ((regFw s d f.t).toNat = 0 → FwRuns (.cwaitT h f) s d (withFwS s d f.d 1))
        ∧ ((regFw s d f.t).toNat ≠ 0 → exec (.cwaitT h f) s = .next (modFw s d fun x =>
            { x with wait := some ⟨n, v, f.imm.getLsbD 21, none⟩, sleepUntil := some (now + (regFw s d f.t).toNat) }))))
  ∧ (∀ h f s d w, FwReady s d → (regFw s d f.h).toNat < 2 ^ 25 → (getDie s d).fw.wait = some w →
      let clear := modFw s d fun x => { x with wait := none, sleepUntil := none }
      (∀ x, w.met = some x → FwRuns (.cwait h f) s d (withFwS clear d f.d
          (BitVec.ofNat 64 (if f.imm.getLsbD 21 then x % 2 ^ 40 else x)))
        ∧ FwRuns (.cwaitT h f) s d (withFwS clear d f.d 0))
      ∧ (∀ t, w.met = none → (getDie s d).fw.sleepUntil = some t →
        (t ≤ s.ticks8 * 8 → FwRuns (.cwaitT h f) s d (withFwS clear d f.d 1)) ∧ (s.ticks8 * 8 < t → Waits (.cwaitT h f) s))
      ∧ (w.met = none → (getDie s d).fw.sleepUntil = none → Waits (.cwait h f) s))

namespace Sys2Proof.Machine

/-- The bytes `bs` stand at `a` in `t`, and every other byte reads as in `s`. -/
def BytesWritten (s t : State) (a : Nat) (bs : List Byte) : Prop :=
  readBytes t a bs.length = bs ∧ ∀ b, ¬ (a ≤ b ∧ b < a + bs.length) → readByte t b = readByte s b

/-- The completion record (R71): SEQ, STATUS, NRB, FLAGS, INST; none when the entry names no address. -/
def recordOf (e : List Byte) (status nrb flags inst : Nat) : List Byte :=
  if entCpl e = 0 then [] else leBytes 4 (entSeq e) ++ leBytes 2 status ++ leBytes 1 nrb ++ leBytes 1 flags ++ leBytes 8 inst

/-- The record of an entry that is no accepted instance is written, with the flag of pair mode where the partition is paired, and
its message sent; else `t` is `s` (R68, R71). -/
def RecordSent (s t : State) (k q : Nat) (e : List Byte) (status : Nat) : Prop :=
  MemOnly { s with out := s.out ++ if entIrq e then [.msix (.vf k) q] else [] } t
    ∧ BytesWritten s t (hostAddr (entCpl e)) (recordOf e status 0 (if (getPart s k).paired then 2 else 0) 0)

/-- Queue q of partition k is `x`; nothing else differs. -/
def withQueue (s : State) (k q : Nat) (x : Queue) : State := modQueue s k q fun _ => x

/-- An entry's checks are over: a clearing of EN that came meanwhile takes effect (R65). -/
def checksOver (x : Queue) : Queue :=
  if x.stopping then { x with checking := none, stopping := false, en := false, halt := true } else { x with checking := none }

end Sys2Proof.Machine

/-- R62 to R65: what writes to the registers of a launch queue do. -/
def Sys2Proof.Machine.QueueRegisterClauses : Prop :=
  -- QBASE, bits [6:0] RZ, discarded while EN = 1; HMTO (R62, R63)
  (∀ k q v s, vfOn s k = true → q < 8 →
      let x := getQueue s k q
      exec (.registerWrite (.vf k) (q * 256) v) s
          = .next (withQueue s k q (if x.en then x else { x with qbase := BitVec.ofNat 64 (v.toNat / 128 * 128) }))
      ∧ exec (.registerWrite (.vf k) (q * 256 + 0x20) v) s
          = .next (withQueue s k q { x with hmto := BitVec.ofNat 32 v.toNat }))
  -- a virtual function that is disabled refuses every access to a queue's registers (R23)
  ∧ (∀ k s, vfOn s k = false →
      let no : Host.Outcome State Fault Refusal := .next { s with out := s.out ++ [.unsupported] }
      (∀ off v, exec (.registerWrite (.vf k) off v) s = no) ∧ (∀ q v, exec (.qwidxWrite k q v) s = no)
      ∧ (∀ q (v : W64), exec (if v.getLsbD 7 then .queueEnable k q v else .queueDisable k q v) s = no))
  -- an argument register of PF0's mailbox (R79); where MBARG7 lies is the model's log 40
  ∧ (∀ j v s, j < 8 → exec (.registerWrite .pf0 (8 * (j + 1)) v) s
      = if j < 7 then .next { s with mbarg := s.mbarg.set j v } else .next s)
  ∧ (∀ off v s, 0x40 < off → off ∉ [0x100, 0x108, 0x110, 0x118] → exec (.registerWrite .pf0 off v) s
      = if off = Config.mbarg7At then .next { s with mbarg := s.mbarg.set 7 v } else .next s)
  -- a write to MBCMD while BUSY = 1 is discarded; another keeps the code alone, RZ bits are not held (R6, R79)
  ∧ (∀ v s, s.mbstat.getLsbD 0 = true → exec (.registerWrite .pf0 0 v) s = .next { s with mbstat := 0x0401 })
  ∧ (∀ v s, s.mbstat.getLsbD 0 = false → ∃ t, exec (.registerWrite .pf0 0 v) s = .next t
      ∧ t.mbcmd = BitVec.ofNat 64 (v.toNat / 2 ^ 56 * 2 ^ 56)
      ∧ (v.toNat / 2 ^ 56 ∉ [1, 2, 3, 4, 0x10, 0x11, 0x20] → t.mbstat = 0x0100 ∧ t.out = s.out ++ [.msix .pf0 0])
      ∧ (v.toNat / 2 ^ 56 ∈ [1, 2, 3, 4, 0x10, 0x11, 0x20] → s.bootstat.getLsbD 16 = false → t.mbstat = 1 ∧ t.out = s.out))
  -- QWIDX: an overrun keeps the old value (R64)
  ∧ (∀ k q v s, vfOn s k = true →
      let x := getQueue s k q
      ((v - x.qridx).toNat ≤ 2 ^ x.log2n → exec (.qwidxWrite k q v) s = .next (withQueue s k q { x with qwidx := v }))
      ∧ (2 ^ x.log2n < (v - x.qridx).toNat →
          exec (.qwidxWrite k q v) s = .next (withQueue s k q { x with halt := true, err := 2 })))
  -- setting EN (R63, R73)
  ∧ (∀ k q (v : W64) s, vfOn s k = true → v.getLsbD 7 = true → (getQueue s k q).en = false →
      let n := v.toNat % 32
      let x := { getQueue s k q with log2n := n, pceil := BitVec.ofNat 2 (v.toNat / 32) }
      exec (.queueEnable k q v) s = .next (withQueue s k q
        (if n < 4 ∨ 16 < n then { x with err := 1 }
         else if (getPart s k).state = 1 then { x with en := true, err := 0, halt := false } else { x with en := true })))
  -- setting it once more takes back a clearing that waits for its entry boundary (the model's log 34), and does nothing else
  ∧ (∀ k q (v : W64) s, vfOn s k = true → v.getLsbD 7 = true → (getQueue s k q).en = true →
      exec (.queueEnable k q v) s = .next (withQueue s k q { getQueue s k q with stopping := false }))
  -- clearing EN takes effect at an entry boundary, so after the checks of a launch; QSTAT.HALT reads 1 then; with EN = 0 already
  -- LOG2N and PCEIL are written (R63, R65)
  ∧ (∀ k q (v : W64) s, vfOn s k = true → v.getLsbD 7 = false →
      let x := getQueue s k q
      exec (.queueDisable k q v) s = .next (withQueue s k q
        (if x.en then (if x.checking.isSome then { x with stopping := true } else { x with en := false, halt := true })
         else { x with log2n := v.toNat % 32, pceil := BitVec.ofNat 2 (v.toNat / 32) })))

/-- R66 to R71: the entries that are no launch; an entry that is refused has no other effect (R69). -/
def Sys2Proof.Machine.QueueEntryClauses : Prop :=
  -- an entry is consumed: QRIDX advances, the hall monitor restarts, in whole ticks of 1 µs (R66, R74)
  (∀ k q s, canConsume s k q = true → consumed s k q
      = withQueue s k q { getQueue s k q with
          qridx := (getQueue s k q).qridx + 1, wait := false, hm := 0, hmPart := decide (s.ticks8 % 125 ≠ 0) })
  ∧ (∀ k q s, Memory.wf s.mem → canConsume s k q = true →
      let e := headEntry s k q
      -- NOP
      (entKind e = 0 → entryFails s k e = [] → ∃ t, exec (.entryNop k q) s = .next t ∧ RecordSent (consumed s k q) t k q e 0)
      -- an unknown KIND is a malformed entry
      ∧ (3 < entKind e → ∃ t, exec (.entryNop k q) s = .next t ∧ RecordSent (consumed s k q) t k q e 1)
      -- CADD: the add is there before the record
      ∧ (entKind e = 2 → entryFails s k e = [] → entCval e = 0 →
          ∃ t, exec (.entryCadd k q) s = .next t ∧ RecordSent (consumed s k q) t k q e 0)
      ∧ (entKind e = 2 → entryFails s k e = [] → 0 < entCval e →
          ∃ s1 t, exec (.entryCadd k q) s = .next t
            ∧ ctrAdd (consumed s k q) (entCctr e) (entCval e) false = some s1 ∧ RecordSent s1 t k q e 0
            ∧ (∀ h, ctrGet t h = if h = entCctr e then ctrGet s h + entCval e else ctrGet s h))
      ∧ (∀ x, entKind e = 2 → lowest (entryFails s k e) = some x →
          ∃ t, exec (.entryCadd k q) s = .next t ∧ RecordSent (consumed s k q) t k q e x)
      -- CWAIT: the queue waits
      ∧ (entKind e = 3 → entryFails s k e = [] → exec (.entryCwait k q) s
          = .next (withQueue s k q { getQueue s k q with
              qridx := (getQueue s k q).qridx + 1, hm := 0, hmPart := decide (s.ticks8 % 125 ≠ 0), armed := some e, wait := true
              waits := some (entSctr e, entSval e, decide (entSval e ≤ ctrGet s (entSctr e))) }))
      -- a read completion that carries an error (R64)
      ∧ exec (.entryReadError k q) s = .next (withQueue s k q { getQueue s k q with halt := true, err := 3 }))
  -- an entry of another KIND than the event's, or of a queue that consumes nothing, is left as it is
  ∧ (∀ k q s, canConsume s k q = false ∨ (entKind (headEntry s k q) ∈ [1, 2, 3]) → exec (.entryNop k q) s = .next s)
  -- a CWAIT whose condition has been met, as it arrived or by an add, and one whose condition has not (R253)
  ∧ (∀ k q s e h v, Memory.wf s.mem → (getQueue s k q).armed = some e → (getQueue s k q).waits = some (h, v, true) →
      ∃ t, exec (.entryCwaitSatisfied k q) s = .next t
        ∧ RecordSent (withQueue s k q { getQueue s k q with armed := none, waits := none, wait := false }) t k q e 0)
  ∧ (∀ k q s e h v, (getQueue s k q).armed = some e → (getQueue s k q).waits = some (h, v, false) →
      exec (.entryCwaitSatisfied k q) s = .next s)

/-- R68, R69, R99 to R102, R105, R106, R253, R70: launches, the start of an instance, its nodes, its end. -/
def Obligations.LaunchesAndInstances : Prop :=
  -- the graph is read once there is room for an instance
  (∀ k q s, canConsume s k q = true → entKind (headEntry s k q) = 1 →
      exec (.entryLaunch k q) s = .next (withQueue s k q (if 512 ≤ s.insts.length then { getQueue s k q with wait := true }
        else { getQueue s k q with checking := some (headEntry s k q), wait := false })))
  -- acceptance
  ∧ (∀ k q s e, (getQueue s k q).checking = some e →
      let t := consumed (modQueue s k q checksOver) k q
      let g := readGraph s k (entGraph e) (entGver e)
      -- at 512 live instances the entry stays where it is
      (512 ≤ s.insts.length → exec (.launchAcceptance k q) s = .next (modQueue s k q fun x => { checksOver x with wait := true }))
      ∧ (s.insts.length < 512 → entryFails s k e = [] → entryBad e = false → g.1 = [] →
        ∃ i u, exec (.launchAcceptance k q) s = .next u
          ∧ { u with parts := [] } = { t with parts := [], insts := s.insts ++ [i], nextInst := s.nextInst + 1 }
          ∧ (∀ j, { getPart u j with segs := [] } = { getPart t j with segs := [] })
          ∧ i.num = s.nextInst ∧ i.part = k ∧ i.queue = q ∧ i.entry = e ∧ i.state = .held
          ∧ i.pceil = (getQueue s k q).pceil ∧ i.accepted = s.ticks8 ∧ i.nctr = hdrCtrs g.2.1 ∧ i.nodes = [] ∧ i.nrb = 0
          ∧ i.sctrMet = decide (entSval e ≤ ctrGet s (entSctr e)))
      -- a refusal carries the lowest status and has no other effect; firmware gets an event with free data
      ∧ (∀ x, s.insts.length < 512 → Memory.wf s.mem → lowest (entryFails s k e ++ if entryBad e then [] else g.1) = some x →
          ∃ t', exec (.launchAcceptance k q) s = .next t'
            ∧ RecordSent (pushEvent (bumpBy t 2) 0 0x80 0xFF k (freeNth t 0) (freeNth t 1) 0) t' k q e x))
  -- start: SVAL has been met, no earlier instance of the graph excludes it, the counters are free; they become 0, the nodes wait for
  -- their edges or are ready
  ∧ (∀ n s i, instOf s n = some i → i.state = .held → (getPart s i.part).state = 1 → exclBlocked s i = false → i.sctrMet = true →
      (∀ h0, (if i.nctr = 0 then some 0 else takeRun s i.part i.nctr) = some h0 → ∃ t, exec (.instanceStart n) s = .next t
        ∧ (∀ h, ctrGet t h = if h0 ≤ h ∧ h < h0 + i.nctr then 0 else ctrGet s h)
        ∧ t.insts = s.insts.map (fun j => if j.num = n then { j with
            state := .running, h0 := h0
            nodes := i.snaps.map fun y =>
              let w := recWait y.record
              { state := if edgeOn w.1 then .waiting else .ready
                met := !edgeOn w.1 || decide (w.2 ≤ ctrGet t (edgeHandle h0 w.1)) } } else j)
        ∧ t.mem = s.mem ∧ t.cls = s.cls)
      ∧ (0 < i.nctr → takeRun s i.part i.nctr = none → exec (.instanceStart n) s = .next s))
  -- an instance whose start counter has not reached SVAL stays held
  ∧ (∀ n s i, instOf s n = some i → i.sctrMet = false → exec (.instanceStart n) s = .next s)
  -- every add meets the waits of launches and wait edges in its own step, and a wait once met stays met (R68, R105, R253)
  ∧ (∀ s h v t n i, ctrAdd s h v false = some t → instOf s n = some i → ∃ j, instOf t n = some j
      ∧ j.state = i.state ∧ j.nodes.length = i.nodes.length
      ∧ (j.sctrMet = true ↔ i.sctrMet = true ∨ (entSctr i.entry = h ∧ entSval i.entry ≤ ctrGet s h + v))
      ∧ (∀ m, m < i.nodes.length → (nodeOf t n m).state = (nodeOf s n m).state
          ∧ let w := recWait (i.snaps.getD m default).record
            (edgeOn w.1 = true → ((nodeOf t n m).met = true
              ↔ (nodeOf s n m).met = true ∨ (edgeHandle i.h0 w.1 = h ∧ w.2 ≤ ctrGet s h + v)))))
  -- a node whose wait edge has been satisfied is ready
  ∧ (∀ n j s i, instOf s n = some i → i.state = .running → j < i.nodes.length → (nodeOf s n j).state = .waiting →
      ((nodeOf s n j).met = true → exec (.nodeReady n j) s = .next (modNode s n j fun x => { x with state := .ready }))
      ∧ ((nodeOf s n j).met = false → exec (.nodeReady n j) s = .next s))
  -- a node whose iterations have all ended retires: outside pair mode its anchors swap at once
  ∧ (∀ n j s i, instOf s n = some i → nodeDone s i j = true → (getPart s i.part).paired = false →
      exec (.nodeRetirement n j) s = .next (modNode s n j fun x => { x with state := .swapping }))
  -- the swap: the node is retired, its staged writes and shadows are no longer apart; it waits for an atomic that has read a sector
  ∧ (∀ n j s i, instOf s n = some i → i.state = .running → j < i.nodes.length → (nodeOf s n j).state = .swapping →
      (swapFree s n j = false → exec (.anchorSwapComplete n j) s = .next s)
      ∧ (swapFree s n j = true → ∃ t, exec (.anchorSwapComplete n j) s = .next t
        ∧ (nodeOf t n j).state = .retired ∧ (nodeOf t n j).staged = [] ∧ (nodeOf t n j).shadows = []
        -- the newest staged byte of each address is device-visible now, every other byte stays (R245), but in shadow frames, which
        -- are free then (R218)
        ∧ (Memory.wf s.mem → ∀ a,
            (∀ m, ∀ h ∈ (nodeOf s n m).shadows, ¬ (framePa h.table h.idx ≤ a ∧ a < framePa h.table h.idx + 65536)) →
            readByte t a = match newestAt (nodeOf s n j).staged a with
            | some w => w.byte
            | none => readByte s a)
        -- then the signals are added in order (R106 step 3), each for good; with the last node the instance ends with success, an
        -- overflow fails it
        ∧ let es := (recSignals (i.snaps.getD j default).record).filter fun e => edgeOn e.1
          let sum := fun (h : Nat) (es : List (Nat × Nat)) => ((es.filter fun e => edgeHandle i.h0 e.1 == h).map (·.2)).sum
          ((∀ h, ctrGet s h + sum h es < 2 ^ 64) → (∀ h, ctrGet t h = ctrGet s h + sum h es)
            ∧ ∃ u, instOf t n = some u ∧ (if ∀ m, m < i.nodes.length → m ≠ j → (nodeOf s n m).state = .retired
                then u.state = .ended ∧ u.status = 0 else u.state = .running))
          ∧ ((∃ h, 2 ^ 64 ≤ ctrGet s h + sum h es) → ∃ u, instOf t n = some u ∧ u.state = .ended ∧ u.status = 0x04
              ∧ ∀ e r, es = e :: r → ctrGet s (edgeHandle i.h0 e.1) + e.2 < 2 ^ 64 →
                ∀ h, ctrGet t h = ctrGet s h + sum h [e])))
  -- the end: record, completion add, message, in this order; a failed instance adds nothing (R70)
  ∧ (∀ n s i, Memory.wf s.mem → instOf s n = some i → i.state = .ended →
      let flags := i.lowp.toNat + 2 * (getPart s i.part).paired.toNat
      ∃ t, exec (.instanceEnd n) s = .next t
        ∧ BytesWritten s t (hostAddr (entCpl i.entry)) (recordOf i.entry i.status.toNat i.nrb flags i.num)
        ∧ t.out = s.out ++ (if entIrq i.entry then [.msix (.vf i.part) i.queue] else [])
        ∧ (∀ h, ctrGet t h = if i.status = 0 ∧ h = entCctr i.entry ∧ ctrGet s h + entCval i.entry < 2 ^ 64
            then ctrGet s h + entCval i.entry else ctrGet s h)
        ∧ instOf t n = none)

/-- The registers of a launch queue and its entries that are no launch. Not the spec's but the model's: that a refused enable stores
LOG2N and PCEIL (log 35, DESIGN CHOICE), that the hall monitor's count starts anew at a whole µs (log 36, DEDUCED), a second write
while a clearing of EN waits (log 34), where MBARG7 lies (log 40), the message of an entry without a record (log 64). -/
def Obligations.LaunchQueues : Prop := QueueRegisterClauses ∧ QueueEntryClauses

namespace Sys2Proof.Machine

/-- A mailbox command has ended with a status: BUSY clears, MSI-X vector 0 of PF0 is sent (R79). -/
def MailboxEnds (s : State) (status : Nat) : State :=
  { s with mbstat := BitVec.ofNat 16 (256 * status), out := s.out ++ [.msix .pf0 0] }

/-- A handle lies in one of the partition's two counter ranges, as these two arguments give them (R486). -/
def InRanges (a b h : Nat) : Prop :=
  (a / 2 ^ 32 ≤ h ∧ h < a / 2 ^ 32 + a % 2 ^ 32) ∨ (b / 2 ^ 32 ≤ h ∧ h < b / 2 ^ 32 + b % 2 ^ 32)

/-- The completion records that the reset sequence writes (R75 step 5), each with its entry: those of the partition's live instances
and of its launches under check with the status of the reset, that of an instance that has ended with its own. -/
def resetRecords (s : State) (k status : Nat) : List (List Byte × List Byte) :=
  let pair := 2 * (getPart s k).paired.toNat
  ((s.insts.filter fun i => i.part = k).map fun i =>
    (i.entry, recordOf i.entry (if i.state = .ended then i.status.toNat else status) i.nrb (i.lowp.toNat + pair) i.num))
  ++ (List.range 8).filterMap fun q => (getQueue s k q).checking.map fun e => (e, recordOf e status 0 pair 0)

/-- What the reset sequence of R75 leaves: the state it ends in, every queue halted, no instance, the counters of the ranges
at 0, towers and scratch scrubbed, the classes cleared, the completion records written, MSI-X vector 8 of the virtual function sent. -/
def ResetDone (s t : State) (k status state : Nat) : Prop :=
  (getPart t k).state = state
    ∧ (∀ x ∈ (getPart t k).queues, x.halt = true ∧ x.armed = none ∧ x.checking = none ∧ x.wait = false)
    ∧ (∀ i ∈ t.insts, i.part ≠ k)
    ∧ (∀ h, InRanges (partArg s k 2) (partArg s k 3) h → ctrGet t h = 0)
    ∧ .msix (.vf k) 8 ∈ t.out
    ∧ (∀ c ∈ classesOf s k, c < s.cls.length → (getCls t c).live = false ∧ (getCls t c).sreg = [] ∧ (getCls t c).inflight = [])
    -- completion records lie at multiples of 16 bytes (R67)
    ∧ (Memory.wf s.mem → (s.insts.map (·.num)).Nodup → (∀ r ∈ resetRecords s k status, entCpl r.1 % 16 = 0) →
        (∀ c ∈ classesOf s k, ∀ p off, p < 34 → off < 2 ^ 25 → readByte t (towerAddr c p off) = 0)
        ∧ (∀ c ∈ classesOf s k, ∀ off, off < 2 ^ 16 → readByte t (scratchAddr c off) = 0)
        ∧ (∀ r ∈ resetRecords s k status, entCpl r.1 ≠ 0 → (∀ x ∈ resetRecords s k status, entCpl x.1 = entCpl r.1 → x = r) →
            readBytes t (hostAddr (entCpl r.1)) 16 = r.2))

end Sys2Proof.Machine

/-- R60, R61, R75, R78, R80, R140, R229, R312, R486, R26: the partition commands of the mailbox, key provisioning, the pair. Not the
spec's but the model's: HALT of a queue with EN = 0 (log 33, DESIGN CHOICE), the statuses of a wrong STATE, the order of PART_CREATE's
checks and the pairing of a partition that is created later (logs 37 to 39), the hall monitors' whole µs (log 36). -/
def Obligations.PartitionCommands : Prop :=
  (∀ s, mailboxBusy s 0x01 = true → s.parts.length = 17 →
      (createBad s = true → exec .partCreate s = .next (MailboxEnds s 2))
      ∧ (createBad s = false → createConflict s = true → exec .partCreate s = .next (MailboxEnds s 3))
      ∧ (createBad s = false → createConflict s = false →
          let k := (s.mbarg.getD 0 0).toNat
          let pair := s.pairPeer.isSome && s.pairSet.testBit k
          ∃ t, exec .partCreate s = .next t
            -- a partition of the pair configuration's set is paired from its creation (the model's log 39)
            ∧ getPart t k = { state := 1, args := s.mbarg, keys := (getPart s k).keys, paired := pair
                              peer := if pair then s.pairPeer else none }
            -- its statistics records are zero (R312)
            ∧ (∀ h, recInRange t k h = true → getRec t h = {})
            ∧ (∀ h, recInRange t k h = false → getRec t h = getRec s h)
            ∧ (∀ j, j ≠ k → getPart t j = getPart s j)
            ∧ (∀ h, (InRanges (s.mbarg.getD 2 0).toNat (s.mbarg.getD 3 0).toNat h → ctrGet t h = 0)
                ∧ (¬ InRanges (s.mbarg.getD 2 0).toNat (s.mbarg.getD 3 0).toNat h → ctrGet t h = ctrGet s h))
            ∧ t.mbstat = 0 ∧ t.out = s.out ++ [.msix .pf0 0] ∧ t.mem = s.mem ∧ t.cls = s.cls ∧ t.insts = s.insts))
  -- PART_DESTROY asks for a partition that has stopped; towers, scratch, counters, records are zero, the frames are free
  ∧ (∀ s, mailboxBusy s 0x02 = true →
      let k := (s.mbarg.getD 0 0).toNat
      ((namesPart s = false ∨ (getPart s k).state < 3) → exec .partDestroy s = .next (MailboxEnds s 2))
      ∧ (namesPart s = true → 3 ≤ (getPart s k).state →
          ∃ t, exec .partDestroy s = .next t ∧ getPart t k = {} ∧ (∀ j, j ≠ k → getPart t j = getPart s j)
            ∧ (∀ h, InRanges (partArg s k 2) (partArg s k 3) h → ctrGet t h = 0)
            ∧ (∀ h, recInRange s k h = true → getRec t h = {})
            -- an encrypted frame shows what it holds as stored from now on (R229); every other byte stays
            ∧ (Memory.wf s.mem → ∀ a, keyOf s a = none →
                readByte t a = if classCell (classesOf s k) a then 0 else readByte s a)
            ∧ (∀ st f, (iptEntry t st f).part ≠ k)
            ∧ t.mbstat = 0 ∧ t.out = s.out ++ [.msix .pf0 0]))
  ∧ (∀ s, mailboxBusy s 0x03 = true → namesPart s = true → (∀ i ∈ s.insts, i.queue < 8) →
      let k := (s.mbarg.getD 0 0).toNat
      ((getPart s k).state = 0 → exec .partReset s = .next (MailboxEnds s 2))
      ∧ ((getPart s k).state ≠ 0 → ∃ t, exec .partReset s = .next t ∧ ResetDone s t k 0x07 5 ∧ t.mbstat = 0))
  ∧ (∀ s, mailboxBusy s 0x04 = true → namesPart s = true →
      let k := (s.mbarg.getD 0 0).toNat
      let p := getPart s k
      (p.state < 3 → exec .partRearm s = .next (MailboxEnds s 2))
      ∧ (3 ≤ p.state → ∃ t, exec .partRearm s = .next t
          ∧ getPart t k = { p with
              state := 1, paired := p.paired && p.state != 4
              queues := p.queues.map fun x => if x.err = 0 ∨ x.err = 4 then { x with err := 0, halt := !x.en } else x }
          -- after a fence the pair configuration no longer names it (R140)
          ∧ (∀ j, j < 17 → t.pairSet.testBit j = (s.pairSet.testBit j && !(p.state == 4 && j == k)))
          ∧ { t with parts := [], meas := [], pairSet := 0 } = { MailboxEnds s 0 with parts := [], meas := [], pairSet := 0 }))
  -- a hall monitor that a 1 µs tick has found at HMTO resets its partition (R74, R75)
  ∧ (∀ k q s, (getPart s k).state = 1 → q < 8 → (∀ i ∈ s.insts, i.queue < 8) →
      ((getQueue s k q).hmDue = true → ∃ t, exec (.hallMonitorExpiry k q) s = .next t ∧ ResetDone s t k 0x05 3
        ∧ (getPart t k).wdcnt = min 255 ((getPart s k).wdcnt + 1)
        ∧ (getQueue t k q).err = if (getQueue s k q).err = 0 then 4 else (getQueue s k q).err)
      ∧ ((getQueue s k q).hmDue = false → exec (.hallMonitorExpiry k q) s = .next s))
  -- PAIR_CONFIG (R26, R80)
  ∧ (∀ s, mailboxBusy s 0x20 = true → s.cabling = true → (s.mbarg.getD 0 0).toNat < 256 → (s.mbarg.getD 1 0).toNat < 2 →
      (s.mbarg.getD 2 0).toNat < 2 ^ 17 → (s.mbarg.getD 2 0).getLsbD 0 = false → (∀ x ∈ s.mbarg.drop 3, x = 0) →
      ∃ t, exec .pairConfig s = .next t ∧ t.pairPeer = some (s.mbarg.getD 0 0).toNat
        ∧ t.pairMaster = (s.mbarg.getD 1 0).getLsbD 0
        ∧ (∀ k, k < s.parts.length → (getPart t k).paired = (s.mbarg.getD 2 0).getLsbD k)
        ∧ t.pairSet = (s.mbarg.getD 2 0).toNat
        ∧ { t with parts := [], meas := [], pairPeer := none, pairMaster := false, pairSet := 0 }
          = { MailboxEnds s 0 with parts := [], meas := [], pairPeer := none, pairMaster := false, pairSet := 0 })
  -- keys come in a secure session, before the partition is there (R229)
  ∧ (∀ k k1 k2 ik s, s.spdm.established = true → 1 ≤ k → k ≤ 16 → (getPart s k).state = 0 →
      exec (.keyProvisioning k k1 k2 ik) s = .next (modPart s k fun p => { p with keys := some (k1, k2, ik) }))
  ∧ (∀ k k1 k2 ik s, s.spdm.established = false → exec (.keyProvisioning k k1 k2 ik) s = .next s)
  -- PCAP (R81), BBCTL (R85)
  ∧ (∀ v s, exec (.pcapWrite v) s = .next { s with pcap := v.toNat % 8, capped := true })
  ∧ (∀ d v s, exec (.bbctlWrite d v) s = .next (modDie s d fun x =>
      { x with frz := v.getLsbD 0, lost := if v.getLsbD 0 = true ∧ x.frz = false then 0 else x.lost }))

/-- R91 to R93: loading an image, activating it, going back to the old one. -/
def Obligations.FirmwareUpdate : Prop :=
  -- FW_LOAD: a verified image stands by on both dies and extends measurement 7, any other clears the slots (R91; that one
  -- refused for its handover versions or by the scan extends nothing is the model's log 65)
  (∀ s, mailboxBusy s 0x10 = true → (∀ x ∈ s.mbarg.drop 2, x = 0) →
      let b := readBytes s (hostAddr (s.mbarg.getD 0 0).toNat) (s.mbarg.getD 1 0).toNat
      ∃ t, exec .fwLoad s = .next t
        ∧ (∀ d, d < s.dies.length → getDie t d = { getDie s d with fw := { (getDie s d).fw with
            standby := if imageOk b then some (imageOf b) else none } })
        ∧ t.meas = (if imageOk b then s.meas.set 6 (sha256 (digestBytes (s.meas.getD 6 0) ++ digestBytes (imageOf b).digest))
            else s.meas)
        ∧ { t with dies := [], meas := [] } = { MailboxEnds s (if imageOk b then 0 else 5) with dies := [], meas := [] })
  -- FW_ACTIVATE without a verified image (R91)
  ∧ (∀ s, mailboxBusy s 0x11 = true → s.update.started = false → (∃ d ∈ s.dies, d.fw.standby = none) →
      exec .fwActivate s = .next (MailboxEnds s 2))
  -- it waits until every queue stands at an entry boundary and no hall monitor has expired (R92)
  ∧ (∀ s, mailboxBusy s 0x11 = true → s.update.started = false → (∀ x ∈ s.mbarg, x = 0) →
      (∀ d ∈ s.dies, d.fw.standby ≠ none) → (∃ p ∈ s.parts, ∃ x ∈ p.queues, x.checking ≠ none ∨ x.hmDue = true) →
      exec .fwActivate s = .next s)
  -- the transfer point: the handover structure is written, the standby processors start the new image (R92)
  ∧ (∀ s, Memory.wf s.mem → mailboxBusy s 0x11 = true → s.update.started = false → (∀ x ∈ s.mbarg, x = 0) →
      (∀ d ∈ s.dies, d.fw.standby ≠ none) → (∀ p ∈ s.parts, ∀ x ∈ p.queues, x.checking = none ∧ x.hmDue = false) →
      ∃ t, exec .fwActivate s = .next t ∧ t.update = ⟨true, s.ticks8⟩ ∧ BytesWritten s t handoverBase (handover s)
        ∧ (∀ d x, d < s.dies.length → (getDie s d).fw.standby = some x →
            let f := (getDie s d).fw
            let g := (getDie t d).fw
            g.image = x ∧ g.wi = 0 ∧ g.sreg = [] ∧ g.rstack = [] ∧ g.loops = []
              ∧ g.wait = none ∧ g.sleepUntil = none
              ∧ g.previous = some ⟨f.sreg, f.wi, f.rstack, f.loops, f.image, f.sleepUntil, f.wait⟩)
        ∧ (∀ k q, canConsume t k q = false) ∧ t.mbstat = s.mbstat ∧ t.parts = s.parts ∧ t.insts = s.insts)
  -- no HBEAT within 10 ms: the old image goes on where it stood, FW_ACTIVATE ends with 0x05 (R93)
  ∧ (∀ s, s.update.started = true → s.update.transferAt + 1250000 ≤ s.ticks8 →
      ∃ t, exec .fwReversion s = .next t ∧ t.update = {} ∧ t.mbstat = 0x0500 ∧ t.out = s.out ++ [.msix .pf0 0]
        ∧ (∀ d p, d < s.dies.length → (getDie s d).fw.previous = some p →
            let g := (getDie t d).fw
            g.image = p.image ∧ g.sreg = p.sreg ∧ g.wi = p.wi ∧ g.rstack = p.rstack ∧ g.loops = p.loops ∧ g.previous = none
              -- its wait goes on as well (R458)
              ∧ g.wait = p.wait ∧ g.sleepUntil = p.sleepUntil)
        ∧ t.mem = s.mem ∧ t.parts = s.parts ∧ t.cls = s.cls)
  ∧ (∀ s, s.update.started = true → s.ticks8 < s.update.transferAt + 1250000 → exec .fwReversion s = .next s)

namespace Sys2Proof.Machine

/-- A message leaves the package; nothing else differs. -/
def Sends (s : State) (m : OutMsg) : State := { s with out := s.out ++ [m] }

/-- `n` bytes at an offset of a partition's window stand at physical address `a` of one frame (R22; where the window maps is the
model's log 24). -/
def WindowAt (s : State) (k off n a : Nat) : Prop := ∀ j, j < n → barAddr s k (off + j) = some (a + j)

end Sys2Proof.Machine

/-- R23, R79, R82, R83, R130, R236: what the host sees and does through the base address registers. Not the spec's but the model's:
which frame a window's offset names (log 24), that a 32-bit compare-and-swap answers Unsupported Request (log 32, DESIGN CHOICE). -/
def Obligations.HostWindows : Prop :=
  -- read-back returns the 64-byte line as it stands and changes nothing; its writes are Unsupported Requests (R83)
  (∀ off s, exec (.readbackRead off) s = .next { Sends s (.completion ((List.range 64).map fun j => rbByte s (off / 64 * 64 + j)))
      with tick := s.tick + 1 })
  ∧ (∀ off v s, exec (.readbackWrite off v) s = .next (Sends s .unsupported))
  -- the towers of R82, through the class's remap table
  ∧ (∀ s c d o, c < 40 → d < 32 → o < 2 ^ 25 →
      rbByte s ((32 * c + d) * 2 ^ 25 + o) = readByte s (towerAddr c (physTower (getCls s c) d) o))
  ∧ (∀ s i x, i < 65536 → x < 8 →
      rbByte s (0x0C00000000 + 8 * i + x) = (BitVec.ofNat 64 (ctrGet s i)).extractLsb' (8 * x) 8)
  -- a virtual function with no partition (R23)
  ∧ (∀ k bar off n s, vfOn s k = false → exec (.hostBarRead (.vf k) bar off n) s = .next (Sends s .unsupported))
  ∧ (∀ k off d s, vfOn s k = false → exec (.hostBarWrite k off d) s = .next (Sends s .unsupported))
  ∧ (∀ k off op w x y s, vfOn s k = false → exec (.hostAtomicop k off op w x y) s = .next (Sends s .unsupported))
  -- a register of a queue (R62)
  ∧ (∀ k q s, vfOn s k = true → q < 8 →
      exec (.hostBarRead (.vf k) 0 (q * 256 + 0x18) 8) s = .next (Sends s (.completion (leBytes 8 (getQueue s k q).qridx.toNat))))
  -- the partition's window: device-visible bytes; poison completes with Completer Abort and a black-box entry (R130)
  ∧ (∀ k off n a s, vfOn s k = true → 0 < n → WindowAt s k off n a →
      ((∀ j, j < n → poisonAt s (.phys ((a + j) / 64)) = none) →
        exec (.hostBarRead (.vf k) 2 off n) s = .next (Sends s (.completion ((List.range n).map fun j => readByte s (a + j)))))
      ∧ (poisonAt s (.phys (a / 64)) = some false →
        exec (.hostBarRead (.vf k) 2 off n) s = .next (Sends (bbRecord s (dieOfPa (64 * (a / 64))) k 0x013 0xFF 0xFF 0
          (locator (.phys (a / 64)) (64 * (a / 64)))) .completerAbort)))
  -- a write is unstaged; other bytes stay; whole units lose their poison (R129, R236)
  ∧ (∀ k off d a s, Memory.wf s.mem → vfOn s k = true → 0 < d.length → WindowAt s k off d.length a →
      ∃ t, exec (.hostBarWrite k off d) s = .next t ∧ BytesWritten s t a d
        ∧ (∀ u, a ≤ 64 * u → 64 * u + 64 ≤ a + d.length → poisonAt t (.phys u) = none)
        ∧ (∀ u, ¬ (a ≤ 64 * u ∧ 64 * u + 64 ≤ a + d.length) → poisonAt t (.phys u) = poisonAt s (.phys u))
        ∧ t.insts = s.insts ∧ t.out = s.out ∧ t.ctr = s.ctr)
  -- AtomicOps of 32 and 64 bits; CAS has 64 (R23)
  ∧ (∀ k off op (wide : Bool) x y a s, Memory.wf s.mem → vfOn s k = true → off % (if wide then 8 else 4) = 0 → (op = .cas → wide = true) →
      barAddr s k off = some a → poisonAt s (.phys (a / 64)) = none →
      let n := if wide then 8 else 4
      let old := readNat s a n
      let new := match op with
        | .fetchAdd => (old + x.toNat) % 2 ^ (8 * n)
        | .swap => x.toNat % 2 ^ (8 * n)
        | .cas => if old = x.toNat then y.toNat else old
      ∃ t, exec (.hostAtomicop k off op wide x y) s = .next t ∧ t.out = s.out ++ [.completion (leBytes n old)]
        ∧ BytesWritten s t a (leBytes n new) ∧ t.insts = s.insts ∧ t.poison = s.poison)
  ∧ (∀ k off x y s, exec (.hostAtomicop k off .cas false x y) s = .next (Sends s .unsupported))

/-- R89, R90: the messages of the SPDM responder in their order; a message out of order gets ERROR (the codes are SPDM's: log
28). -/
def Obligations.SpdmMessages : Prop :=
  let err := fun (s : State) => Sends s (.doe 0x7F [])
  (∀ s, exec .getVersion s = .next (Sends { s with spdm := { stage := 1, nextSession := s.spdm.nextSession } } (.doe 0x04 [0x13])))
  ∧ (∀ s, exec .getCapabilities s = .next (if s.spdm.stage = 1
      then Sends { s with spdm := { s.spdm with stage := 2 } } (.doe 0x61 []) else err s))
  ∧ (∀ a b c d s, exec (.negotiateAlgorithms a b c d) s = .next
      (if s.spdm.stage = 2 ∧ a = true ∧ b = true ∧ c = true ∧ d = true
        then Sends { s with spdm := { s.spdm with stage := 3 } } (.doe 0x63 []) else err s))
  ∧ (∀ s, s.spdm.stage < 3 → exec .getDigests s = .next (err s) ∧ (∀ a b c, exec (.getCertificate a b c) s = .next (err s))
      ∧ (∀ a b, exec (.challenge a b) s = .next (err s)) ∧ (∀ a b c, exec (.getMeasurements a b c) s = .next (err s))
      ∧ (∀ a b, exec (.keyExchange a b) s = .next (err s)))
  ∧ (∀ s, 3 ≤ s.spdm.stage →
      let d := digestBytes (sha256 Config.certChain)
      exec .getDigests s = .next (Sends s (.doe 0x01 d))
      ∧ (∀ off n, exec (.getCertificate 0 off n) s = .next (Sends s (.doe 0x02 ((Config.certChain.drop off).take n))))
      ∧ (∀ nonce, exec (.challenge 0 nonce) s
          = .next (Sends s (.doe 0x03 (d ++ Config.signature (digestBytes nonce ++ d)))))
      -- slot 0 only
      ∧ (∀ slot off n x, slot ≠ 0 → exec (.getCertificate slot off n) s = .next (err s)
          ∧ exec (.challenge slot x) s = .next (err s))
      -- measurement 1 to 8, signed on request
      ∧ (∀ j nonce, 1 ≤ j → j ≤ 8 →
          let m := digestBytes (s.meas.getD (j - 1) 0)
          exec (.getMeasurements j false nonce) s = .next (Sends s (.doe 0x60 m))
          ∧ exec (.getMeasurements j true nonce) s = .next (Sends s (.doe 0x60 (m ++ Config.signature (digestBytes nonce ++ m)))))
      ∧ (∀ j x nonce, 8 < j → j ≠ 0xFF → exec (.getMeasurements j x nonce) s = .next (err s))
      -- a session
      ∧ (∀ pub, s.spdm.session = none →
          let n := s.spdm.nextSession
          let k := Config.exchangeKey n pub
          exec (.keyExchange 0 pub) s = .next (Sends { s with spdm := { s.spdm with
            session := some n, established := false, nextSession := n + 1 } } (.doe 0x64 (k ++ Config.signature k)))))
  ∧ (∀ n s, s.spdm.session = some n → s.spdm.established = false →
      exec (.finish n (Config.sessionMac n)) s
        = .next (Sends { s with spdm := { s.spdm with established := true } } (.doe 0x65 []))
      ∧ (∀ mac, mac ≠ Config.sessionMac n → exec (.finish n mac) s = .next (err s)))
  ∧ (∀ n s, s.spdm.session = some n → s.spdm.established = true →
      exec (.heartbeat n) s = .next (Sends s (.doe 0x68 []))
      ∧ exec (.endSession n) s = .next (Sends { s with spdm := { s.spdm with session := none, established := false } } (.doe 0x6C [])))
  ∧ (∀ n s, ¬ (s.spdm.session = some n ∧ s.spdm.established = true) →
      exec (.heartbeat n) s = .next (err s) ∧ exec (.endSession n) s = .next (err s))

/-- R86, R88, R90, R32, R54, R145: cold start and warm reset. -/
def Obligations.ColdStartAndWarmReset : Prop :=
  -- a boot that succeeds: the image runs on both dies, measurement 7 is zero, no partition, grant 2
  (∀ b s, b.rootKeyOk = true → b.primaryOk = true ∨ b.fallbackOk = true → b.certMatches = true →
      ∃ t, exec (.coldStart b) s = .next t
        ∧ (∀ d, d < 2 → (getDie t d).fw.running = true ∧ (getDie t d).fw.wi = 0 ∧ (getDie t d).fw.image.digest = b.imageDigest)
        ∧ t.meas.getD 0 0 = b.romDigest ∧ t.meas.getD 1 0 = b.imageDigest ∧ t.meas.getD 2 0 = b.imageSvn.setWidth 256
        ∧ t.meas.getD 3 1 = (if repairOk b then sha256 b.repair else 0) ∧ t.meas.getD 6 1 = 0 ∧ t.meas.getD 7 1 = 0
        -- the save area of each die has a size that R271 allows (the model's log 45 says which)
        ∧ 2 ^ 31 ≤ t.boot.saveBytes ∧ t.boot.saveBytes ≤ 2 ^ 35
        ∧ (∀ k, (getPart t k).state = 0) ∧ t.grant = 2 ∧ t.capped = false ∧ t.insts = [] ∧ t.teams = [] ∧ t.nextInst = 1
        -- a defect that the record does not name disables its class
        ∧ (∀ x ∈ b.defects, namesDefect (if repairOk b then repairEntries b.repair else []) x = false → x.1 ∈ t.disabled)
        ∧ (repairOk b = true → t.bootstat = 6)
        -- a record that names a spare lane or a spare tower twice is refused (R148)
        ∧ (¬ (lanesOf (repairEntries b.repair)).Nodup → repairOk b = false ∧ t.bootstat = 0x3006))
  -- steps 1, 2 and 5 lead to recovery mode, BOOTSTAT names the step, no processor runs (R86, R88)
  ∧ (∀ b s, ∃ t, exec (.coldStart b) s = .next t
      ∧ (b.rootKeyOk = false → t.bootstat.getLsbD 16 = true ∧ t.bootstat.toNat % 256 = 1)
      ∧ (b.rootKeyOk = true → b.primaryOk = false → b.fallbackOk = false →
          t.bootstat.getLsbD 16 = true ∧ t.bootstat.toNat % 256 = 2)
      ∧ (b.rootKeyOk = true → b.primaryOk = true → b.certMatches = false →
          t.bootstat.getLsbD 16 = true ∧ t.bootstat.toNat % 256 = 5)
      ∧ (t.bootstat.getLsbD 16 = true → ∀ d, d < 2 → (getDie t d).fw.running = false))
  -- warm reset: the LNCs go on, the black boxes with SEQ and HEAD stay, grant 2 until a cap is written; towers keep their
  -- remapping (what else stays is the model's choice: log 27)
  ∧ (∀ s, ∃ t, exec .warmReset s = .next t
      ∧ (∀ c, lnc t c = lnc s c) ∧ t.grant = 2 ∧ t.capped = false
      ∧ (∀ d, d < s.dies.length → (getDie t d).bb = (getDie s d).bb ∧ (getDie t d).seq = (getDie s d).seq
          ∧ (getDie t d).head = (getDie s d).head)
      ∧ (∀ c, c < s.cls.length → (getCls t c).remap = (getCls s c).remap ∧ (getCls t c).live = false
          ∧ (getCls t c).inflight = [])
      -- frames whose key goes with their partition show what they hold as stored (R229); every other byte stays
      ∧ (Memory.wf s.mem → ∀ a, keyOf s a = none → readByte t a = readByte s a)
      ∧ t.nextInst = s.nextInst ∧ t.insts = [] ∧ (∀ k, (getPart t k).state = 0))

namespace Sys2Proof.Machine

/-- Class clock in units of 0.25 GHz of a clock code of R59: 0 is 2.50 GHz, 8 is 0.50 GHz. -/
def clockOfCode (n : Nat) : Nat := if n ≤ 8 then 10 - n else 2

/-- The level clock of R31, in units of 0.25 GHz. -/
def levelQuarters (level : Nat) : Nat :=
  if 6 ≤ level then 10 else if level = 5 then 9 else if level = 4 then 8 else if level = 3 then 7 else if level = 2 then 6
  else if level = 1 then 4 else 2

/-- The thermal cap of a row of R52, in units of 0.25 GHz; 10 for none. -/
def thermalQuarters (level row : Nat) : Nat :=
  if row = 0 then 10 else if row = 1 then max 2 (levelQuarters level - 1) else if row = 2 then 5 else 2

/-- The hottest of four readings. -/
def hot4 (a b c d : Nat) : Nat := max (max a b) (max c d)

end Sys2Proof.Machine

/-- R31 to R33, R44 to R46, R48, R49, R52, R54, R56, R74, R93, R198: the grant, the class clock, the hotspot guard, ramp and
ballast, vertical exclusion, the reference tick. Not the spec's but the model's: that a countdown is converted and counted in
whole reference ticks (log 7, DEDUCED), that a hall monitor counts whole ticks of 1 µs (log 36, DEDUCED), that the alarm is raised
when the hottest reading comes to 125 °C and not at each sample (log 63), how a permit begins anew and a load falls (log 44), what
an evaluation takes from the telemetry (log 47). -/
def Obligations.PowerClocksAndHeat : Prop :=
  -- the grant never exceeds the cap, rises by at most one level, at most once per 100 µs, is 0 at 125 °C, 2 before a cap
  (∀ g s, (match s.evalAt with | some t => t + 1250 ≤ s.ticks8 | none => True) →
      ∃ t, exec (.powerEvaluation g) s = .next t
        ∧ { t with grant := 0, evalAt := none, raisedAt := none } = { s with grant := 0, evalAt := none, raisedAt := none }
        ∧ t.grant ≤ s.pcap ∧ t.grant ≤ s.grant + 1
        ∧ (s.capped = false → t.grant ≤ s.grant)
        ∧ (∀ r, s.raisedAt = some r → s.ticks8 < r + 12500 → t.grant ≤ s.grant)
        ∧ ((∃ k ∈ s.cls, ∃ x ∈ k.temps, 125 ≤ x) → t.grant = 0)
        ∧ (s.capped = true → (∀ k ∈ s.cls, ∀ x ∈ k.temps, x < 125) → g.toNat ≤ s.grant → t.grant = min s.pcap g.toNat))
  -- the class clock is the lowest of level clock, thermal cap and governor's cap (R33); the cycles left of a countdown under way
  -- become as many of the new clock as take the same time, rounded up (R56; log 7)
  ∧ (∀ c s, s.grant ≤ 7 → (getCls s c).thermRow ≤ 3 → (∀ x, (getCls s c).govCap = some x → x ≤ 8) →
      let ck := fun (x : BitVec 4) => 20 - 2 * x.toNat
      ∃ n : BitVec 4, exec (.frequencyTransition c) s = .next (modCls s c fun k => { k with
          clks := n, inflight := k.inflight.map fun f => { f with rem := (f.rem * ck n + ck k.clks - 1) / ck k.clks } })
        ∧ clockOfCode n.toNat = min (levelQuarters s.grant) (min (thermalQuarters s.grant (getCls s c).thermRow)
            (match (getCls s c).govCap with | some x => clockOfCode x | none => 10)))
  -- a sample that selects a lower row takes it at once; 125 °C forces the grant to 0 (R52; the alarm: log 63)
  ∧ (∀ c a b x y s, c < 40 → c < s.cls.length → (getCls s c).thermRow ≤ 3 →
      let h := hot4 a b x y
      let row := if h < 100 then 0 else if h < 110 then 1 else if h < 120 then 2 else 3
      ∃ t, exec (.sensorSample c a b x y) s = .next t ∧ (getCls t c).temps = [a, b, x, y]
        ∧ row ≤ (getCls t c).thermRow
        ∧ ((getCls s c).thermRow < row → (getCls t c).thermRow = row)
        ∧ ((getCls s c).thermRow = row → (getCls t c).thermRow = row)
        ∧ (0 < (getCls s c).thermRow → 85 + 10 * (getCls s c).thermRow ≤ h → row ≤ (getCls s c).thermRow →
            (getCls t c).thermRow = (getCls s c).thermRow)
        ∧ t.grant = (if 125 ≤ h then 0 else s.grant)
        ∧ (125 ≤ h → hot4 ((getCls s c).temps.getD 0 0) ((getCls s c).temps.getD 1 0) ((getCls s c).temps.getD 2 0)
            ((getCls s c).temps.getD 3 0) < 125 → (getCls s c).temps.length = 4 → t.out = s.out ++ [.msix .pf0 1])
        ∧ (∀ j, j ≠ c → getCls t j = getCls s j)
        ∧ { getCls t c with temps := [], thermRow := 0, thermBelow := 0, thermPeak := 0 }
          = { getCls s c with temps := [], thermRow := 0, thermBelow := 0, thermPeak := 0 })
  -- the ramp permit rises by 8 to 32 (R44)
  ∧ (∀ c s, exec (.rampPermitStep c) s = .next (modCls s c fun k => { k with permit := min 32 (k.permit + 8) }))
  -- a window of vertical exclusion: who was refused in the window before runs at full rate (R49); pair 4 is the stairwell router
  -- that lies beneath the classes of grid columns 1 and 3 (R48, R198)
  ∧ (∀ c a b s, ¬ (c % 20 % 5 = 1 ∨ c % 20 % 5 = 3) → exec (.windowArbitration c 4 a b) s = .next s)
  ∧ (∀ c p a b s, p ≤ 4 → (p = 4 → c % 20 % 5 = 1 ∨ c % 20 % 5 = 3) → ∃ t, exec (.windowArbitration c p a b) s = .next t
      ∧ (∀ j, j ≠ c → getCls t j = getCls s j)
      ∧ (c < s.cls.length →
          let before := (getCls s c).refusals
          (2 * p ∈ (getCls t c).refusals ↔ a = true ∧ b = true ∧ 2 * p ∉ before ∧ 2 * p + 1 ∈ before)
          ∧ (2 * p + 1 ∈ (getCls t c).refusals ↔ a = true ∧ b = true ∧ (2 * p ∈ before ∨ 2 * p + 1 ∉ before))
          ∧ (∀ u, u / 2 ≠ p → (u ∈ (getCls t c).refusals ↔ u ∈ before))))
  -- the reference tick: every LNC advances by 8 (R54); every 125th moves the hall monitors by 1 µs (R74; log 36); a live update whose
  -- 10 ms are over is reverted next (R93); a countdown that has run out expires next (R57)
  ∧ (∀ s, ∃ t, exec .lncTick s = .next t ∧ t.ticks8 = s.ticks8 + 1 ∧ (∀ c, lnc t c = lnc s c + 8)
      ∧ t.mem = s.mem ∧ t.insts = s.insts ∧ t.ctr = s.ctr
      ∧ (∀ d, { getDie t d with balNs := 0, balEnergy := 0 } = { getDie s d with balNs := 0, balEnergy := 0 })
      ∧ (∀ c, { getCls t c with inflight := [], busy := false, load := 0, bal := false }
          = { getCls s c with inflight := [], busy := false, load := 0, bal := false })
      -- countdowns run by 8 ns of cycles (R56); of the words in flight nothing else changes but when their requests left
      ∧ (∀ c, c < 40 → c < s.cls.length →
          (getCls t c).inflight.map (fun f => { f with reqs := [] })
            = (getCls s c).inflight.map fun f => { f with reqs := [], rem := f.rem - (20 - 2 * (getCls s c).clks.toNat) })
      -- the matrix rail, in 1/625 of a unit: the load is that of the units that run, but falls by no more than 32 units in 40 µs,
      -- and no further ballast than the active desks have units; what the running units do not take of it is ballast (R44, R45)
      ∧ (∀ c, c < 40 → c < s.cls.length →
          let run := (getCls s c).inflight.find? fun o => (waveHeight o).isSome
          let u := match run with
            | some o => (waveOf s c o).length
            | none => 0
          (getCls t c).busy = run.isSome
          ∧ (getCls t c).load = max (625 * u) (min ((getCls s c).load - 4) (625 * max u (desksOf s c).length))
          ∧ ((getCls t c).bal = true ↔ 625 * u < (getCls t c).load))
      ∧ (t.ticks8 % 125 ≠ 0 → t.parts = s.parts
          ∧ ∃ es, t.agenda = (if s.update.started = true ∧ s.update.transferAt + 1250000 ≤ t.ticks8 then [.event .fwReversion] else [])
              ++ es ++ s.agenda
            ∧ ∀ e, e ∈ es ↔ ∃ c, c < 40 ∧ e = .event (.nanosecondWaitExpiry c)
                ∧ ∃ f ∈ (getCls t c).inflight, timing f = true ∧ f.rem = 0)
      ∧ (t.ticks8 % 125 = 0 → s.update.started = false → ∀ k q, k < 17 → q < 8 → (getPart s k).state = 1 →
          q < (getPart s k).queues.length → k < s.parts.length → 1 ≤ k →
          let x := getQueue s k q
          let n := if hmRuns s k q then (if x.hmPart then x.hm else x.hm + 1) else 0
          (getQueue t k q).hm = n ∧ (getQueue t k q).hmPart = false
          ∧ ((getQueue t k q).hmDue = true ↔ x.hmto ≠ 0 ∧ x.hmto.toNat ≤ n ∧ hmRuns s k q = true)
          ∧ ((getQueue t k q).hmDue = true → .event (.hallMonitorExpiry k q) ∈ t.agenda))
      ∧ (s.update.started = true → t.parts = s.parts))

/-- R123, R125, R126, R128, R129: replays and their governor, freezes, poison that nothing consumes. -/
def Obligations.ReplaysFreezesAndPoison : Prop :=
  (∀ c s, exec (.shadowLatchReplay c) s = .next (modCls s c fun k =>
      if k.replayHold then k else { k with replayHold := true, replays := k.replays + 1 })
    ∧ exec (.replayHoldEnd c) s = .next (modCls s c fun k => { k with replayHold := false })
    ∧ ((getCls s c).frozen = false → exec (.freezeEnd c) s = .next s)
    ∧ ((getCls s c).frozen = true → (∀ f ∈ (getCls s c).inflight, f.held = none) →
        exec (.freezeEnd c) s = .next (modCls s c fun k => { k with frozen := false, guard := true }))
    ∧ exec (.freezeGuardEnd c) s = .next (modCls s c fun k => { k with guard := false }))
  -- a result that the freeze has held lands as it ends (R126); a satisfied BWAIT ends its region then
  ∧ (∀ c s pre f post rs, (getCls s c).frozen = true → (getCls s c).inflight = pre ++ f :: post → f.held = some rs →
      (∀ g ∈ pre ++ post, g.held = none) → isRecv f.instr = false →
      let thaw := fun (t : State) => modCls t c fun k => { k with frozen := false, guard := true }
      ((∀ h g, f.instr ≠ .bwait h g) → exec (.freezeEnd c) s
        = .next (thaw (complete (rs.foldl (fun s r => setS s c r.1 r.2) s) c f)))
      ∧ (∀ h g, f.instr = .bwait h g → g.imm.getLsbD 21 = false → rs = [] → exec (.freezeEnd c) s
        = .next (thaw (complete (modCls s c fun k => { k with region := none, regionCount := 0, regionOp := 0 }) c f))))
  -- the data of an XRECV that has come back during it reach the class's own towers then
  ∧ (∀ c s pre f post rs h g, (getCls s c).frozen = true → (getCls s c).inflight = pre ++ f :: post → f.held = some rs →
      (∀ x ∈ pre ++ post, x.held = none ∧ x.id ≠ f.id) → f.instr = .xrecv h g → f.ops.getD 3 0 ≠ 1 → s.poison = [] →
      ∃ t, exec (.freezeEnd c) s = .next t ∧ (getCls t c).frozen = false
        ∧ (getCls t c).inflight = pre ++ { f with held := none } :: post
        ∧ t.mem = (moveAll { cls := c } (requestMoves f 0) 0 { s := s, k := 0 }).1.s.mem)
  -- the governor: above 64 replays a step down, recorded; after 1,000 windows of at most 16 a step up
  ∧ (∀ c s, c < 40 → c < s.cls.length →
      let k := getCls s c
      let level := levelClock s.grant
      ∃ t, exec (.replayGovernorWindow c) s = .next t ∧ (getCls t c).replays = 0
        ∧ (64 < k.replays → (getCls t c).govCap = some (min 8 (k.govCap.getD level + 1))
            ∧ t = bbClass (modCls s c fun k => { k with govCap := some (min 8 (k.govCap.getD level + 1)), quiet := 0, replays := 0 })
                c 0x003 0xFF (BitVec.ofNat 64 (k.govCap.getD level * 16 + min 8 (k.govCap.getD level + 1))))
        ∧ (k.replays ≤ 64 → k.govCap = none → (getCls t c).govCap = none)
        ∧ (∀ x, k.govCap = some x → 16 < k.replays → k.replays ≤ 64 → (getCls t c).govCap = some x ∧ (getCls t c).quiet = 0)
        ∧ (∀ x, k.govCap = some x → k.replays ≤ 16 → k.quiet < 999 → (getCls t c).govCap = some x
            ∧ (getCls t c).quiet = k.quiet + 1)
        ∧ (∀ x, k.govCap = some x → k.replays ≤ 16 → 999 ≤ k.quiet →
            (getCls t c).govCap = if x - 1 ≤ level then none else some (x - 1)))
  -- a correctable error freezes the class and enters the patch table; a patched place freezes nothing
  ∧ (∀ c m loc s, c < 40 → c < s.cls.length → (getCls s c).frozen = false →
      let k := getCls s c
      let n := loc.toNat
      ((m, n) ∈ k.patch → exec (.correctableError c m loc) s
        = .next (modCls s c fun k => { k with patch := (m, n) :: k.patch.erase (m, n) }))
      ∧ ((m, n) ∉ k.patch → k.guard = false → ∃ t, exec (.correctableError c m loc) s = .next t
          ∧ getCls t c = { k with frozen := true, patch := ((m, n) :: k.patch).take 32 } ∧ runnable t c = false
          ∧ (∀ j, j ≠ c → getCls t j = getCls s j))
      -- within the guard it is a freeze storm: cause 0x23, the node is killed (R128)
      ∧ ((m, n) ∉ k.patch → k.guard = true → ∃ t, exec (.correctableError c m loc) s = .next t
          ∧ (getCls t c).tcode = 0x23 ∧ (getCls t c).tinfo = BitVec.ofNat 64 n ∧ (getCls t c).frozen = false
          ∧ (∀ tm, teamOf s c = some tm → t.kills = ⟨tm.inst, tm.node, 0x02⟩ :: s.kills
              ∧ t.agenda = .event (.nodeKill tm.inst tm.node 0x02) :: s.agenda)))
  -- found without consumption: the unit is marked media poison and recorded, nothing is killed (R129)
  ∧ (∀ u s, ∃ t, exec (.uncorrectableError u) s = .next t ∧ poisonAt t u = some false
      ∧ (∀ v, v ≠ u → poisonAt t v = poisonAt s v)
      ∧ { t with poison := [], dies := [], tags := [] } = { s with poison := [], dies := [], tags := [] })

namespace Sys2Proof.Machine

/-- w of R181 in 1/256 at T °C: 2^((T − 85)/10) rounded up to a multiple of 1/256, 1 at or below 85 °C. -/
def IsLeakWeight (T w : Nat) : Prop :=
  (T ≤ 85 → w = 256) ∧ (85 < T → (w - 1) ^ 10 < 256 ^ 10 * 2 ^ (T - 85) ∧ 256 ^ 10 * 2 ^ (T - 85) ≤ w ^ 10)

/-- A tower in use has reached the forcing condition (R187): 1,950,000, with no forced pass on it yet, or the limit of a deferral. -/
def Forces (k : ClassState) (t : Nat) : Prop :=
  t ∈ towersInUse k
    ∧ ((1950000 * 256 ≤ consOf k t ∧ ∀ p ∈ k.passes, p.tower = t → p.forced = false)
      ∨ (k.defer = true ∧ k.lim.toNat * 256 ≤ consOf k t))

end Sys2Proof.Machine

/-- R181, R183, R184, R187, R188, R196: consumption, refresh passes, forcing, re-injection. -/
def Sys2Proof.Machine.RefreshEventClauses : Prop :=
  -- each tick adds w(T) to every tower in use, T the hottest sensor
  (∀ s, (∀ k ∈ s.cls, ∀ x ∈ k.temps, x ≤ 200) → ∃ t, exec .refreshTick s = .next t
      ∧ { t with cls := [] } = { s with cls := [] } ∧ t.cls.length = s.cls.length
      ∧ ∀ c, c < s.cls.length → { getCls t c with cons := [] } = { getCls s c with cons := [] }
          ∧ ∃ w, IsLeakWeight ((getCls s c).temps.foldl max 0) w
              ∧ ∀ x, consOf (getCls t c) x = consOf (getCls s c) x + if x ∈ towersInUse (getCls s c) then w else 0)
  -- a background pass starts at 1,000,000, without deferral, where no pass runs
  ∧ (∀ c x s, c < s.cls.length → x ∈ towersInUse (getCls s c) → (∀ p ∈ (getCls s c).passes, p.tower ≠ x) →
      ((getCls s c).defer = false → 1000000 * 256 ≤ consOf (getCls s c) x → exec (.backgroundPassStart c x) s
        = .next (modCls s c fun k => { k with passes := ⟨x, consOf k x, false⟩ :: k.passes }))
      ∧ ((getCls s c).defer = true ∨ consOf (getCls s c) x < 1000000 * 256 → exec (.backgroundPassStart c x) s = .next s))
  -- a pass that completes leaves the consumption since it began
  ∧ (∀ c x s p, (getCls s c).passes.find? (fun q => q.tower = x) = some p → ∃ t, exec (.refreshPassComplete c x) s = .next t
      ∧ (∀ y, consOf (getCls t c) y = if y = x then consOf (getCls s c) x - p.at0 else consOf (getCls s c) y)
      ∧ (∀ q ∈ (getCls t c).passes, q.tower ≠ x) ∧ (∀ j, j ≠ c → getCls t j = getCls s j) ∧ t.mem = s.mem)
  -- forcing: deferral ends, forced passes start, the refresh-forced trap names the lowest forced tower
  ∧ (∀ c s, (∀ x, ¬ Forces (getCls s c) x) → exec (.forcing c) s = .next s)
  ∧ (∀ c s low, c < s.cls.length → Forces (getCls s c) low → (∀ x, Forces (getCls s c) x → low ≤ x) →
      ∃ t, exec (.forcing c) s = .next t ∧ (getCls t c).defer = false ∧ (getCls t c).lim = 0
        ∧ (∀ x, Forces (getCls s c) x → ⟨x, consOf (getCls s c) x, true⟩ ∈ (getCls t c).passes) ∧ frcOf (getCls t c) = true
        ∧ ((getCls s c).live = true → (getCls s c).hmode = false → (getCls s c).hold = none → (getCls s c).thnd = 0 →
            (getCls t c).tcode = 5 ∧ (getCls t c).teng = 7 ∧ (getCls t c).tinfo = BitVec.ofNat 64 low
              ∧ (getCls t c).hold = some (getDie s (dieOf c)).nextEv)
        ∧ ((getCls s c).live = true → (getCls s c).hmode = true → (∀ y ∈ (getCls s c).causes, y.eng ≠ none) →
            ∃ y, (getCls t c).causes = (getCls s c).causes ++ [y] ∧ y.code = 5 ∧ y.eng = none ∧ y.tinfo = BitVec.ofNat 64 low))
  -- a stopped refill goes on once FRC = 0 on every class that it writes
  ∧ (∀ c n s f, findOp s c n = some f → f.status = .stopped →
      ((∀ d ∈ refillClasses f, frcOf (getCls s d) = false) →
        exec (.refillReinject c n) s = .next (modOp s c n fun f => { f with status := .issued }))
      ∧ ((∃ d ∈ refillClasses f, frcOf (getCls s d) = true) → exec (.refillReinject c n) s = .next s))

/-- The refresh words, and the events of retention, refresh and forcing. -/
def Obligations.RefreshWordsAndEvents : Prop := RefreshWordClauses ∧ RefreshEventClauses

/-- R206, R325, R328, R338, R339: a line is fetched from a frame that the scanner has passed. -/
def Obligations.FetchAndScan : Prop :=
  -- the scan's result is kept; of 4,096 frames the least recently used goes
  (∀ c va pa s, codeFrame s c va = some pa → ∃ t, exec (.codePageScan c va) s = .next t
      ∧ (dieOf c < s.dies.length → (getDie t (dieOf c)).scan.find? (fun e => e.1 = pa) = some (pa, scanFrame s pa)
          ∧ (getDie t (dieOf c)).scan.length ≤ 4096)
      ∧ { t with dies := [] } = { s with dies := [] } ∧ (∀ d, { getDie t d with scan := [] } = { getDie s d with scan := [] }))
  -- a frame in the expanders is refused (R330), as is any whose words, trailers or layout are not as R337 asks
  ∧ (∀ s pa, 2 ^ 39 ≤ pa → scanFrame s pa = some 0)
  -- an unscanned frame is scanned first
  ∧ (∀ c va pa s, codeFrame s c va = some pa → (getDie s (dieOf c)).scan.find? (fun e => e.1 = pa) = none →
      exec (.fetchLineMiss c va) s = .next { s with agenda := .event (.codePageScan c va) :: s.agenda })
  -- a refused frame: a segment fault of S at the first offending word; no word of it reaches a walker; of the scanned frames it is the
  -- one used last (R338)
  ∧ (∀ c va pa w s, codeFrame s c va = some pa → (getDie s (dieOf c)).scan.find? (fun e => e.1 = pa) = some (pa, some w) →
      (getCls s c).live = true → (getCls s c).hold = none → 64 * ((getCls s c).ws.wi / 6) = va →
      exec (.fetchLineMiss c va) s
        = .next (trapAt (noteScan s (dieOf c) pa (some w)) c .s 0x02 (BitVec.ofNat 64 (va / 65536 * 65536 + wordAddr w)))
      ∧ (dieOf c < s.dies.length → (getDie (noteScan s (dieOf c) pa (some w)) (dieOf c)).scan
          = ((pa, some w) :: (getDie s (dieOf c)).scan.filter fun e => e.1 ≠ pa).take 4096))
  -- a clean line comes into the buffers as it stands in memory; of the scanned frames its own is the one used last
  ∧ (∀ c va pa s, codeFrame s c va = some pa → (getDie s (dieOf c)).scan.find? (fun e => e.1 = pa) = some (pa, none) →
      let a := pa + va % 65536
      let l := BitVec.ofNat 512 (leNat ((List.range 64).map fun j => readByte s (a + j)))
      Memory.wf s.mem → poisonUnder s (a / 64) va = none → checkLine l = .clean → c < s.cls.length →
      ∃ t, exec (.fetchLineMiss c va) s = .next t
        ∧ (getCls t c).fetchBuf.find? (fun x => x.1 = va) = some (va, a, l) ∧ (getCls t c).fetchBuf.length ≤ 64
        ∧ { getCls t c with fetchBuf := [] } = { getCls s c with fetchBuf := [] } ∧ (∀ j, j ≠ c → getCls t j = getCls s j)
        ∧ { t with cls := [], dies := [] } = { s with cls := [], dies := [] }
        ∧ (∀ d, { getDie t d with scan := [] } = { getDie s d with scan := [] })
        ∧ (dieOf c < s.dies.length →
            (getDie t (dieOf c)).scan = ((pa, none) :: (getDie s (dieOf c)).scan.filter fun e => e.1 ≠ pa).take 4096))
  -- a line with poison that no walker stands in is left; one that a walker stands in is consumed, media poison with a kill (R328)
  ∧ (∀ c va pa s kind, codeFrame s c va = some pa → (getDie s (dieOf c)).scan.find? (fun e => e.1 = pa) = some (pa, none) →
      poisonUnder s ((pa + va % 65536) / 64) va = some kind →
      ((∀ e : Eng, 64 * ((walkerOf (getCls s c) e).wi / 6) ≠ va) → ∃ t, exec (.fetchLineMiss c va) s = .next t
        ∧ { t with dies := [] } = { s with dies := [] })
      ∧ (kind = false → (getCls s c).live = true → (getCls s c).hold = none → c < s.cls.length →
          64 * ((getCls s c).ws.wi / 6) = va → ∃ t, exec (.fetchLineMiss c va) s = .next t
        ∧ (getCls t c).tcode = 0x20 ∧ (getCls t c).teng = 0 ∧ (getCls t c).tinfo = locator (.code c va) va
        ∧ (∀ tm, teamOf s c = some tm → t.kills = ⟨tm.inst, tm.node, 0x13⟩ :: s.kills)))

/-- R209, R211, R214 to R217, R316: page walks, shoot-downs, migration, merges of statistics records. -/
def Obligations.WalksShootdownsAndMerges : Prop :=
  (∀ c s w g, c < s.cls.length → (getCls s c).walk = some w → findSeg (segsOf (winOf s c)) (w / 4) = some g →
      (∀ f, walk s g.table (partOf s c) (w / 4 / 65536) = .frame f → exec (.pageWalkComplete c) s
        = .next (modCls s c fun k => { k with walk := none
                                              tcache := ((pageKey g.table (w / 4 / 65536), f) :: k.tcache).take 256 }))
      ∧ (∀ f, walk s g.table (partOf s c) (w / 4 / 65536) = .wait f → exec (.pageWalkComplete c) s = .next s)
      -- halt(): the halt record, TCAUSE and TINFO, the event for firmware
      ∧ (∀ x, walk s g.table (partOf s c) (w / 4 / 65536) = .halt x → ∃ t, exec (.pageWalkComplete c) s = .next t
          ∧ (getCls t c).halt = ⟨BitVec.ofNat 64 (w / 4), (getCls s c).wa.ord, BitVec.ofNat 8 x, BitVec.ofNat 8 (w % 4), true, g.table,
              0, (getDie s (dieOf c)).nextEv⟩
          ∧ (getCls t c).tcode = 0x10 ∧ (getCls t c).teng = 1 ∧ (getCls t c).tinfo = BitVec.ofNat 64 (w / 4)
          ∧ (getCls t c).walk = none ∧ (getCls t c).wa = (getCls s c).wa
          ∧ (dieOf c < s.dies.length → ∃ e, (getDie t (dieOf c)).evq = (getDie s (dieOf c)).evq ++ [e] ∧ e.code = 0x10
              ∧ e.cls = BitVec.ofNat 8 c ∧ e.tinfo = BitVec.ofNat 64 (w / 4))))
  -- a shoot-down: the port drops the page's translations, and acknowledges once no word that has translated it is in flight
  ∧ (∀ c (v : BitVec 40) s, c < s.cls.length → shootPending s c v.toNat = true → ∃ t, exec (.shootdownReceipt c v) s = .next t
      ∧ (∀ e ∈ (getCls t c).tcache, e.1 % 2 ^ 40 ≠ v.toNat) ∧ v.toNat ∈ (getCls t c).shootAcks
      ∧ (∀ e ∈ (getCls s c).tcache, e.1 % 2 ^ 40 ≠ v.toNat → e ∈ (getCls t c).tcache)
      ∧ { getCls t c with tcache := [], shootAcks := [] } = { getCls s c with tcache := [], shootAcks := [] })
  ∧ (∀ c (v : BitVec 40) s, v.toNat ∈ (getCls s c).shootAcks → shootPending s c v.toNat = true →
      (usesPage (getCls s c) v.toNat = true → exec (.shootdownAck c v) s = .next s)
      ∧ (usesPage (getCls s c) v.toNat = false → ∃ t, exec (.shootdownAck c v) s = .next t ∧ shootPending t c v.toNat = false
          ∧ (∀ e ∈ (getCls t c).tcache, e.1 % 2 ^ 40 ≠ v.toNat)
          ∧ (∀ d u, (d, u) ≠ (c, v.toNat) → shootPending t d u = shootPending s d u) ∧ t.mem = s.mem ∧ t.ipts = s.ipts))
  -- migration: MIG is set and the shoot-down sent; once all have acknowledged the page moves
  ∧ (∀ x a b err bad s, s.migs.find? (fun m => m.table = x ∧ m.src = a) = none →
      let e := iptEntry s x a
      -- an executable frame is pinned (R206), a system-atomic page stays in HBM (R234), a page with a shadow stays (R216)
      (frameExec s e.part (framePa x a) = true → exec (.migration x a b err bad) s = .next s)
      ∧ (e.sa = true → hbmFrames ≤ b → exec (.migration x a b err bad) s = .next s)
      ∧ (e.shd = true ∨ e.shadow ≠ 0xFFFFFFFF → exec (.migration x a b err bad) s = .next s)
      ∧ (e.v = true → e.shd = false → e.shadow = 0xFFFFFFFF → e.mig = false → frameFree s x b = true → a ≠ b → x < s.ipts.length →
      frameExec s e.part (framePa x a) = false → e.sa = false ∨ b < hbmFrames →
      ∃ t, exec (.migration x a b err bad) s = .next t ∧ iptEntry t x a = { e with mig := true }
        ∧ t.migs = s.migs ++ [⟨x, a, b, e.vpn, partClasses s e.part⟩] ∧ t.mem = s.mem
        ∧ (∀ y f, (y, f) ≠ (x, a) → iptEntry t y f = iptEntry s y f)))
  ∧ (∀ x a b vpn err bad s, s.migs.find? (fun m => m.table = x ∧ m.src = a) = some ⟨x, a, b, vpn, []⟩ →
      let e := iptEntry s x a
      e.v = true → e.mig = true → a ≠ b → x < s.ipts.length → Memory.wf s.mem →
      -- a shadow taken since by a word that was in flight: the page is not migrated (R216)
      (e.shd = true ∨ e.shadow ≠ 0xFFFFFFFF → ∃ t, exec (.migration x a b err bad) s = .next t
        ∧ iptEntry t x a = { e with mig := false } ∧ (∀ y f, (y, f) ≠ (x, a) → iptEntry t y f = iptEntry s y f) ∧ t.mem = s.mem)
      ∧ (e.shd = false → e.shadow = 0xFFFFFFFF → err = false → ∃ t, exec (.migration x a b err bad) s = .next t
        ∧ iptEntry t x a = {} ∧ (iptEntry t x b).vpn = e.vpn ∧ (iptEntry t x b).part = e.part ∧ (iptEntry t x b).v = true
        ∧ (iptEntry t x b).sa = e.sa ∧ (iptEntry t x b).mig = false
        ∧ (∀ j, j < 65536 → readByte t (framePa x b + j) = readByte s (framePa x a + j))
        -- a source frame that was encrypted shows what it holds as stored (R229); every other byte stays
        ∧ (∀ y, ¬ (framePa x b ≤ y ∧ y < framePa x b + 65536) → keyOf s (framePa x a) = none → readByte t y = readByte s y))
      -- an error leaves the mapping (R217)
      ∧ (e.shd = false → e.shadow = 0xFFFFFFFF → err = true → ∃ t, exec (.migration x a b err bad) s = .next t ∧ iptEntry t x a = { e with mig := false } ∧ t.mem = s.mem
          ∧ (∀ j ∈ bad, (poisonAt t (.phys (framePa x a / 64 + j % 1024))).isSome = true)))
  -- a merge reaches its record (R316)
  ∧ (∀ d i c s x, s.transit.find? (fun y => y.cls = c && y.part.hdl = d * 4096 + i) = some x →
      0 < x.part.count ∨ x.part.ovf = true → x.part.bins.length = 16 → (getRec s (d * 4096 + i)).bins.length = 16 →
      let r := getRec s (d * 4096 + i)
      ∃ t, exec (.recordMerge d i c) s = .next t ∧ t.transit = s.transit.erase x
        ∧ (getRec t (d * 4096 + i)).amax.toNat = max r.amax.toNat x.part.amax.toNat
        ∧ (∀ j, j < 16 → (getRec t (d * 4096 + i)).bins.getD j 0 = min (r.bins.getD j 0 + x.part.bins.getD j 0) (2 ^ 24 - 1))
        ∧ (getRec t (d * 4096 + i)).count = min (r.count + x.part.count) (2 ^ 32 - 1)
        ∧ (getRec t (d * 4096 + i)).policy = (if x.part.ovf then r.policy ||| 0x80000000 else r.policy)
        ∧ (getRec t (d * 4096 + i)).gen = (if r.gen = 2 ^ 32 - 1 then 1 else r.gen + 1)
        ∧ (∀ h, h ≠ d * 4096 + i → getRec t h = getRec s h) ∧ { t with recs := [], transit := [] } = { s with recs := [], transit := [] })
  -- a later release of the class waits for none of its own on the way: they merge with it (R317)
  ∧ (∀ s c sc upto die, ∀ x ∈ (doRelease s c sc upto die).transit, x.cls = c → x.part ∈ (getCls s c).partials)

/-- R72, R112, R113, R152, R237: a scan of the items; what a dispatched member holds. -/
def Obligations.DispenseAndDispatch : Prop :=
  -- nothing can be placed: the items passed over raise their requests (R117), no more; classes with a team that is not saved keep
  -- it and their state in any case, but for what
  -- is lent to it (R115)
  (∀ s, firstPlace s (items s) = none → exec .dispenseScan s = .next { s with requests := passedOver s })
  ∧ (∀ s, ∃ t, exec .dispenseScan s = .next t ∧ (∀ c, (teamOf s c).isSome = true →
        { getCls t c with own := 0, eff := 0 } = { getCls s c with own := 0, eff := 0 })
      ∧ t.ctr = s.ctr ∧ t.out = s.out ∧ t.recs = s.recs ∧ t.parts = s.parts)
  -- one new iteration is placed: registers, masks, walkers, queues, arguments of each member
  ∧ (∀ s x cs i, firstPlace s (items s) = some (x, cs) → x.team = none → instOf s x.inst = some i →
      firstPlace (placeAt s x cs) (items (placeAt s x cs)) = none → cs.Nodup → (∀ c ∈ cs, c < s.cls.length) → Memory.wf s.mem →
      let r := (i.snaps.getD x.node default).record
      let bare := fun (u : Team) => { u with loans := [] }
      ∃ t tm, exec .dispenseScan s = .next t ∧ tm ∈ t.teams ∧ t.teams.map bare = s.teams.map bare ++ [bare tm] ∧ tm.id = s.nextTeam ∧ tm.inst = i.num
        ∧ tm.node = x.node ∧ tm.ord = x.ord ∧ tm.classes = cs ∧ tm.state = .running ∧ tm.since = s.ticks8
        ∧ (∀ a, (∀ c ∈ cs, ¬ (scratchAddr c 0xFFE0 ≤ a ∧ a < scratchAddr c 0xFFE0 + (entArgs i.entry).length)) → readByte t a = readByte s a)
        ∧ (∀ rank c, cs[rank]? = some c →
            let k := getCls t c
            k.live = true
            ∧ (∀ n, tget 0 k.sreg n = BitVec.ofNat 64
                (([0] ++ indicesOf r x.ord ++ [cs.length * 256 + rank, x.ord, i.h0]).getD n 0))
            ∧ k.areg = [] ∧ k.v = [] ∧ k.tile = [] ∧ k.tok = [] ∧ k.rsv = [] ∧ k.aflg = []
            ∧ (∀ d j, d < 32 → j < 8 → kGet k d j = 2 ^ 1024 - 1)
            ∧ k.qs = [] ∧ k.qv = [] ∧ k.qb = [] ∧ k.qf = [] ∧ k.inflight = []
            ∧ (∀ e : Eng, walkerOf k e = { wi := wiOf (recEntry r) })
            ∧ k.thnd = BitVec.ofNat 64 (recThnd r) ∧ k.ceil = i.pceil
            ∧ k.own = BitVec.ofNat 2 (max (recPrio r) i.pceil.toNat) ∧ k.eff.toNat ≤ k.own.toNat
            ∧ ((∀ u ∈ s.teams, onClasses u = true → lendsTo s u = []) → k.eff = k.own)
            ∧ k.klvl = BitVec.ofNat 3 s.grant ∧ k.kbkt = 0 ∧ k.tcode = 0 ∧ k.teng = 7 ∧ k.tinfo = 0 ∧ k.hmode = false
            ∧ ((entArgs i.entry).length = 32 → readBytes t (scratchAddr c 0xFFE0) 32 = entArgs i.entry)))

namespace Sys2Proof.Machine

/-- The team's members execute nothing any more. -/
def Stopped (t : State) (cs : List Nat) : Prop := ∀ c ∈ cs, c < t.cls.length → (getCls t c).live = false ∧ (getCls t c).inflight = []

/-- What a decision of R118 does to a running or draining team `tm` (R119, R120, R280): drain, discard, save. -/
def Decided (s t : State) (tm : Team) (a : TeamAct) : Prop :=
  match a with
  | .drain => t = modTeam s tm.id fun u => { u with
      state := .draining, decidedAt := s.ticks8, bound := (tdrain s tm).getD 0 + tsave s tm }
  | .discard => Stopped t tm.classes ∧ (∀ u ∈ t.teams, u.id ≠ tm.id)
      ∧ (tm.node < ((instOf s tm.inst).map fun i => i.nodes.length).getD 0 →
          (nodeOf t tm.inst tm.node).restarts = tm.ord :: (nodeOf s tm.inst tm.node).restarts) ∧ t.mem = s.mem
  | .save => Stopped t tm.classes
      -- a transfer from another package that a freeze has held lands first
      ∧ ((∀ c ∈ tm.classes, ∀ f ∈ (getCls s c).inflight, f.held = none) → t.mem = s.mem) ∧ ∃ u ∈ t.teams, u.id = tm.id ∧ u.state = .saving
      ∧ u.elapsed = elapsedOf s tm ∧ ∃ i, u.image = some i ∧ i.members.length = tm.classes.length

end Sys2Proof.Machine

/-- R117 to R120, R271, R280, R282: the decision on a victim, its drain bound, the end of a save, a resume. -/
def Obligations.PreemptionAndResume : Prop :=
  (∀ n s tm x, s.teams.find? (fun t => t.id = n) = some tm → tm.state = .running → requesterOf s tm = some x →
      (getPart s (partOfInst s tm.inst)).paired = false →
      let e := elapsedOf s tm
      let est := recEst (snapOf s tm.inst tm.node).record
      let row1 := e < est ∧ 100 * (est - e) ≤ tsave s tm
      let row2 := slackOf s x = none ∨ (e < est ∧ ∃ y, slackOf s x = some (some y) ∧ (2 * (100 * (est - e)) : Int) ≤ y)
      let row3 := recIdemp (snapOf s tm.inst tm.node).record = true ∧ 100 * e ≤ tsave s tm
      -- an image that does not fit is drained, whatever row holds (R271)
      (row1 ∨ row2 ∨ imagePlace s tm = none → ∃ t, exec (.victimDecision n) s = .next t ∧ Decided s t tm .drain)
      ∧ (¬ row1 → ¬ row2 → row3 → imagePlace s tm ≠ none → ∃ t, exec (.victimDecision n) s = .next t ∧ Decided s t tm .discard)
      ∧ (¬ row1 → ¬ row2 → ¬ row3 → imagePlace s tm ≠ none → ∃ t, exec (.victimDecision n) s = .next t ∧ Decided s t tm .save))
  -- a team that no request of a scan names is left (R117)
  ∧ (∀ n s tm, s.teams.find? (fun t => t.id = n) = some tm → requesterOf s tm = none → exec (.victimDecision n) s = .next s)
  ∧ (∀ s tm x, requesterOf s tm = some x → ∃ r ∈ s.requests, r.item = x ∧ tm.id ∈ r.victims ∧ x ∈ items s)
  -- a drain that has outrun Tdrain + Tsave is decided again, by rows 3 and 4
  ∧ (∀ n s tm, s.teams.find? (fun t => t.id = n) = some tm → tm.state = .draining →
      (getPart s (partOfInst s tm.inst)).paired = false → imagePlace s tm ≠ none →
      (100 * (8 * (s.ticks8 - tm.decidedAt)) < tm.bound → exec (.drainBoundExpiry n) s = .next s)
      ∧ (tm.bound ≤ 100 * (8 * (s.ticks8 - tm.decidedAt)) → ∃ t, exec (.drainBoundExpiry n) s = .next t
          ∧ Decided s t tm (if recIdemp (snapOf s tm.inst tm.node).record = true ∧ 100 * elapsedOf s tm ≤ tsave s tm
              then .discard else .save)))
  -- the image is whole: the team is a resume item; the sectors that it fills hold no older poison (R129)
  ∧ (∀ n s tm, s.teams.find? (fun t => t.id = n) = some tm → tm.state = .saving → ∃ t, exec (.saveComplete n) s = .next t
      ∧ { t with poison := [] } = { modTeam s n (fun u => { u with
          state := .saved, lastSave := 8 * (s.ticks8 - tm.decidedAt), image := tm.image.map (finalImage s tm) }) with poison := [] }
      ∧ (∀ e ∈ t.poison, e ∈ s.poison) ∧ (∀ e ∈ s.poison, (∀ u, e.1 ≠ .phys u) → e ∈ t.poison)
      ∧ (∀ i u, tm.image = some i → let a := Config.saveArea (dieOf (tm.classes.headD 0)) + (finalImage s tm i).off
          a ≤ 64 * u → 64 * u + 64 ≤ a + opqStart (finalImage s tm i).members.length 0 → poisonAt t (.phys u) = none))
  -- with the members as they stood at the decision, but their granules, towers and scratch as they stand now (R119, R280)
  ∧ (∀ s tm i, (finalImage s tm i).members = ((tm.classes.zip i.members).map fun x => { x.2 with dirty := (getCls s x.1).dirty })
      ∧ ∀ e, e ∈ (finalImage s tm i).cells ↔ e ∈ s.mem
      ∧ ∃ c ∈ tm.classes, cellSaved c (gransOf (getCls s c) (recResid (snapOf s tm.inst tm.node).record)) e.1 = true)
  -- an image whose checks fail fails the node (R276, R282)
  ∧ (∀ n s tm i x, s.teams.find? (fun t => t.id = n) = some tm → tm.state = .resuming → tm.image = some i → imageBad s tm i = true →
      instOf s tm.inst = some x → x.state = .running → ∃ t y, exec (.resumeComplete n) s = .next t ∧ instOf t tm.inst = some y
        ∧ y.state = .ended ∧ y.status = 0x04)
  -- a resume puts every member back as it was, with the granted level and bucket 0 as its key (R42), its countdowns in the present
  -- clock (R58); what its requests brought while it was saved is not there yet
  ∧ (∀ n s tm i, s.teams.find? (fun t => t.id = n) = some tm → tm.state = .resuming → tm.image = some i → tm.classes.Nodup →
      i.members.length = tm.classes.length → (∀ c ∈ tm.classes, c < s.cls.length ∧ ∀ r ∈ (getCls s c).router, r.team ≠ n) →
      (∀ m ∈ i.members, ∀ f ∈ m.inflight, f.held = none) → imageBad s tm i = false →
      ∃ t, exec (.resumeComplete n) s = .next t
        ∧ (∃ u ∈ t.teams, u.id = n ∧ u.state = .running ∧ u.image = none ∧ u.resumed = true ∧ u.since = s.ticks8
            ∧ u.classes = tm.classes)
        ∧ ∀ (r : Nat) c (m : ClassState), tm.classes[r]? = some c → i.members[r]? = some m →
            let k := getCls t c
            k.live = true ∧ k.sreg = m.sreg ∧ k.areg = m.areg ∧ k.v = m.v ∧ k.k = m.k ∧ k.tile = m.tile ∧ k.aflg = m.aflg
            ∧ k.qs = m.qs ∧ k.qv = m.qv ∧ k.qb = m.qb ∧ k.qf = m.qf ∧ k.tok = m.tok ∧ k.rsv = m.rsv
            ∧ (∀ e : Eng, walkerOf k e = walkerOf m e) ∧ k.views = m.views ∧ k.thnd = m.thnd ∧ k.tcode = m.tcode
            ∧ k.defer = false ∧ k.klvl = BitVec.ofNat 3 s.grant ∧ k.kbkt = 0 ∧ k.remap = (getCls s c).remap
            ∧ k.inflight.length = m.inflight.length
            ∧ (∀ (z : Nat) (f g : InFlight), m.inflight[z]? = some f → k.inflight[z]? = some g → g.id = f.id ∧ g.status = f.status
                ∧ g.rem = (f.rem * clockCk (getCls s c).clks + clockCk m.clks - 1) / clockCk m.clks))

/-- R134 to R140, R43, R27, R283: kills, the digest exchange of a pair, notices, selections, pre-emption decisions. -/
def Obligations.KillsAndPairMode : Prop :=
  -- a kill short of the fourth rolls the node back whole, its wait edge treated as satisfied (R107, R134, R135)
  (∀ n j (c : BitVec 8) s i, ⟨n, j, c⟩ ∈ s.kills → instOf s n = some i → killable { s with kills := s.kills.erase ⟨n, j, c⟩ } n j = true →
      (nodeOf s n j).rollbacks < 3 → ∃ t, exec (.nodeKill n j c) s = .next t
        ∧ t.kills = s.kills.erase ⟨n, j, c⟩ ∧ Stopped t (nodeClasses s n j) ∧ (∀ u ∈ t.teams, ¬ (u.inst = n ∧ u.node = j))
        ∧ (nodeOf t n j).state = .ready ∧ (nodeOf t n j).next = 0 ∧ (nodeOf t n j).restarts = []
        ∧ (nodeOf t n j).rollbacks = (nodeOf s n j).rollbacks + 1 ∧ (nodeOf t n j).staged = [] ∧ (nodeOf t n j).shadows = []
        ∧ (∀ d ∈ nodeClasses s n j, d < s.cls.length → (getCls t d).sreg = [] ∧ (getCls t d).qs = [] ∧ (getCls t d).tile = [])
        ∧ (∀ i', instOf t n = some i' → i'.nrb = min 255 (i.nrb + 1) ∧ i'.state = .running))
  -- the fourth fails the instance with status 0x04 (R107)
  ∧ (∀ n j (c : BitVec 8) s, ⟨n, j, c⟩ ∈ s.kills → killable { s with kills := s.kills.erase ⟨n, j, c⟩ } n j = true →
      3 ≤ (nodeOf s n j).rollbacks → ∃ t i', exec (.nodeKill n j c) s = .next t ∧ instOf t n = some i' ∧ i'.state = .ended
        ∧ i'.status = 0x04)
  -- a node whose swap has begun, or that has retired, is not killed (R136)
  ∧ (∀ n j (c : BitVec 8) s, (nodeOf s n j).state = .swapping ∨ (nodeOf s n j).state = .retired →
      exec (.nodeKill n j c) s = .next { s with kills := if (⟨n, j, c⟩ : Kill) ∈ s.kills then s.kills.erase ⟨n, j, c⟩ else s.kills })
  -- digests: the master compares rollback counts and digests, commits or aborts (R138); one of a run that has been killed since is
  -- not kept
  ∧ (∀ n j rb d s x, (getPart s (partOfInst s n)).paired = true → s.pairMaster = true → (instOf s n).isSome = true →
      (nodeOf s n j).state = .digest → (nodeOf s n j).digest = some x → pairLinksDown s = false →
      let rbs := (nodeOf s n j).rollbacks
      ((rb, d) = (rbs, x) → ∃ t, exec (.pairDigestReceived n j rb d) s = .next t
          ∧ (nodeOf t n j).state = .swapping ∧ t.out = s.out ++ [.pairMsg 0x138 [n, j, 1, 0, rbs]]
          ∧ (getPart t (partOfInst s n)).mismatches = 0)
      ∧ (rbs ≤ rb → (rb, d) ≠ (rbs, x) → (getPart s (partOfInst s n)).mismatches < 2 →
          ∃ t, exec (.pairDigestReceived n j rb d) s = .next t ∧ t.out = s.out ++ [.pairMsg 0x138 [n, j, 0, 1, rbs]]
            ∧ (getPart t (partOfInst s n)).mismatches = (getPart s (partOfInst s n)).mismatches + 1
            ∧ t.kills = ⟨n, j, 0x20⟩ :: s.kills
            -- the classes that run the node take the cause 0x25 with its index (R263)
            ∧ (∀ c ∈ nodeClasses s n j, c < s.cls.length → (getCls s c).live = true →
                (getCls t c).tcode = 0x25 ∧ (getCls t c).tinfo = BitVec.ofNat 64 j))
      -- the third mismatch in a row fences the partition (R140)
      ∧ (rbs ≤ rb → (rb, d) ≠ (rbs, x) → 2 ≤ (getPart s (partOfInst s n)).mismatches →
          (getPart s (partOfInst s n)).state = 1 → ∃ t, exec (.pairDigestReceived n j rb d) s = .next t
            ∧ (getPart t (partOfInst s n)).state = 4 ∧ .pairMsg 0x140 [partOfInst s n] ∈ t.out)
      ∧ (rb < rbs → exec (.pairDigestReceived n j rb d) s = .next s))
  ∧ (∀ n j s a, digestAge s n j = some a → (getPart s (partOfInst s n)).paired = true → pairLinksDown s = false →
      -- 50 µs without the partner's digest: abort; 100 µs without a decision: fence
      (s.pairMaster = true → 50000 ≤ a → (getPart s (partOfInst s n)).mismatches < 2 →
        ∃ t, exec (.pairDigestTimeout n j) s = .next t
          ∧ t.out = s.out ++ [.pairMsg 0x138 [n, j, 0, 1, (nodeOf s n j).rollbacks]] ∧ t.kills = ⟨n, j, 0x20⟩ :: s.kills)
      ∧ (a < 50000 → exec (.pairDigestTimeout n j) s = .next s)
      ∧ (∀ x rb, s.pairMaster = false → ∃ t, exec (.pairDecisionReceived n j ⟨true, x, rb⟩) s = .next t
          ∧ (nodeOf t n j).state = .swapping ∧ (getPart t (partOfInst s n)).mismatches = 0)
      ∧ (s.pairMaster = false → 100000 ≤ a → (getPart s (partOfInst s n)).state = 1 →
          ∃ t, exec (.pairDecisionTimeout n j) s = .next t ∧ (getPart t (partOfInst s n)).state = 4)
      ∧ (a < 100000 → exec (.pairDecisionTimeout n j) s = .next s))
  -- an ABORT kills here as well, a run whose own digest is still to come too; the master's copy of the count is taken over, and a
  -- mismatch is counted (R138 to R140)
  ∧ (∀ n j v s, (getPart s (partOfInst s n)).paired = true → s.pairMaster = false → v.commit = false → killable s n j = true →
      (nodeOf s n j).rollbacks ≤ v.rollbacks → ∃ t, exec (.pairDecisionReceived n j v) s = .next t
        ∧ (v.counted = true → (getPart s (partOfInst s n)).mismatches < 2 → t.kills = ⟨n, j, 0x20⟩ :: s.kills
            ∧ (getPart t (partOfInst s n)).mismatches = (getPart s (partOfInst s n)).mismatches + 1
            ∧ (nodeOf t n j).rollbacks = v.rollbacks)
        ∧ (v.counted = false → t.kills = ⟨n, j, 0xFF⟩ :: s.kills
            ∧ (getPart t (partOfInst s n)).mismatches = (getPart s (partOfInst s n)).mismatches
            ∧ (nodeOf t n j).rollbacks = v.rollbacks))
  -- an ABORT of a run that has been killed here already raises the count once, and kills nothing (R140)
  ∧ (∀ n j v s, (getPart s (partOfInst s n)).paired = true → s.pairMaster = false → v.commit = false → (instOf s n).isSome = true →
      v.rollbacks < (nodeOf s n j).rollbacks →
      (v.counted = true → (nodeOf s n j).judged ≤ v.rollbacks → (getPart s (partOfInst s n)).state = 1 →
        (getPart s (partOfInst s n)).mismatches < 2 → ∃ t, exec (.pairDecisionReceived n j v) s = .next t
          ∧ (getPart t (partOfInst s n)).mismatches = (getPart s (partOfInst s n)).mismatches + 1 ∧ t.kills = s.kills
          ∧ t.agenda = s.agenda ∧ t.cls = s.cls
          ∧ (∀ i, instOf s n = some i → j < i.nodes.length → exec (.pairDecisionReceived n j v) t = .next t))
      ∧ (v.counted = false ∨ v.rollbacks < (nodeOf s n j).judged → exec (.pairDecisionReceived n j v) s = .next s))
  -- notices (R139, R140); a run that has been killed here already is not killed again
  ∧ (∀ n x s, (getPart s (partOfInst s n)).paired = true → killable s n x.node = true → (nodeOf s n x.node).rollbacks ≤ x.rollbacks →
      ∃ t, exec (.killNoticeReceived n x) s = .next t
      ∧ t.kills = ⟨n, x.node, 0xFF⟩ :: s.kills ∧ t.agenda = .event (.nodeKill n x.node 0xFF) :: s.agenda ∧ t.mem = s.mem
      ∧ (nodeOf t n x.node).rollbacks = (if s.pairMaster then (nodeOf s n x.node).rollbacks else x.rollbacks))
  ∧ (∀ n x s, (getPart s (partOfInst s n)).paired = false ∨ x.rollbacks < (nodeOf s n x.node).rollbacks →
      exec (.killNoticeReceived n x) s = .next s)
  ∧ (∀ k s, (getPart s k).paired = true → (getPart s k).state = 1 → ∃ t, exec (.fenceNoticeReceived k) s = .next t
      ∧ (getPart t k).state = 4 ∧ (∀ x ∈ (getPart t k).queues, x.halt = true))
  ∧ (∀ k s, (getPart s k).paired = false → exec (.fenceNoticeReceived k) s = .next s)
  -- the master's selection waits for the partner's PSW; 50 µs without it, or one for another ordinal, is a mismatch (R43)
  ∧ (∀ c o e s, (getPart s (partOfInst s c.inst)).paired = true → s.pairMaster = false →
      exec (.pairSelectionReceived c o e) s = .next { s with pairSel := s.pairSel ++ [⟨c, o, e⟩] })
  ∧ (∀ c s a tm, (getCls s c).pswAt = some a → teamOf s c = some tm → (getCls s c).live = true → c < s.cls.length →
      (getPart s (partOfInst s tm.inst)).mismatches < 2 →
      (50000 ≤ 8 * (s.ticks8 - a) ∨ (∃ x, selectionFor s c = some x ∧ x.ord ≠ (getCls s c).ws.ord) →
          ∃ t, exec (.pairSelectionTimeout c) s = .next t ∧ (getCls t c).pswAt = none
          ∧ t.kills = ⟨tm.inst, tm.node, 0x20⟩ :: s.kills ∧ t.out = s.out)
      ∧ (8 * (s.ticks8 - a) < 50000 → (∀ x, selectionFor s c = some x → x.ord = (getCls s c).ws.ord) →
          exec (.pairSelectionTimeout c) s = .next s))
  -- the partner applies the master's decision on a team; without one in 50 µs it fences (R283)
  ∧ (∀ n act s tm, s.teams.find? (fun t => t.id = n) = some tm → (getPart s (partOfInst s tm.inst)).paired = true →
      s.pairMaster = false → tm.state = .decided → (act = .save → imagePlace s tm ≠ none) →
      ∃ t, exec (.pairSaveDecisionReceived n act) s = .next t ∧ Decided s t tm act)
  ∧ (∀ n s tm, s.teams.find? (fun t => t.id = n) = some tm → tm.state = .decided →
      (8 * (s.ticks8 - tm.decidedAt) < 50000 → exec (.pairSaveDecisionTimeout n) s = .next s)
      ∧ (50000 ≤ 8 * (s.ticks8 - tm.decidedAt) → (getPart s (partOfInst s tm.inst)).state = 1 →
          ∃ t, exec (.pairSaveDecisionTimeout n) s = .next t ∧ (getPart t (partOfInst s tm.inst)).state = 4))

/-- R141, R142, R199 to R201, R143, R144: requests on the corridor network, their resends, routers and routing registers. -/
def Obligations.CorridorAndRouters : Prop :=
  -- the destination performs an XSEND's request once: the bytes are there, it is remembered, a duplicate does nothing
  (∀ src (seq : BitVec 16) s h g f j d off x e o n, findSeq s src seq = some (f, j, none) → f.instr = .xsend h g →
      (getCls s src).live = true → arrives s src f j = true → xferTurn s src f = true → f.reqs.length = 1 → Memory.wf s.mem →
      s.poison = [] →
      corRmt (f.ops.getD 5 0).toNat = false → corCls (f.ops.getD 5 0).toNat = x → f.ops.getD 3 0 = 0 →
      f.moves = [⟨.tower src d off, .tower x e o, n⟩] → n % 64 = 0 → off % 64 = 0 → o % 64 = 0 → off + n ≤ 2 ^ 25 → o + n ≤ 2 ^ 25 →
      x ≠ src → d < 32 → e < 32 → (∀ z, z < 32 → physTower (getCls s src) z < 34 ∧ physTower (getCls s x) z < 34) → src < s.cls.length → x < s.cls.length →
      ∃ t, exec (.corridorRequestArrival (.cls src) seq) s = .next t
        ∧ (∀ b, b < n → readByte t (towerByte (getCls s x) x e (o + b)) = readByte s (towerByte (getCls s src) src d (off + b)))
        ∧ (∀ a, (∀ b, b < n → a ≠ towerByte (getCls s x) x e (o + b)) → readByte t a = readByte s a)
        ∧ (∃ y ∈ (getCls t src).inflight, y.id = f.id ∧ y.status = .answered) ∧ (src, seq.toNat) ∈ (getCls t x).seen
        ∧ t.ctr = s.ctr ∧ t.out = s.out)
  ∧ (∀ src (seq : BitVec 16) s f j team, findSeq s src seq = some (f, j, team) → (reqOf f j).done = true →
      exec (.corridorRequestArrival (.cls src) seq) s = .next s)
  -- one that a router refuses, or has lost, does not arrive (R144, R201)
  ∧ (∀ src (seq : BitVec 16) s f j, findSeq s src seq = some (f, j, none) → arrives s src f j = false →
      exec (.corridorRequestArrival (.cls src) seq) s = .next s)
  -- a transfer with another package leaves on the link that names it, and is performed there (R25)
  ∧ (∀ src (seq : BitVec 16) s f j, findSeq s src seq = some (f, j, none) → isFar f = true → queueOf f.instr = some 1 →
      (getCls s src).live = true → arrives s src f j = true → xferTurn s src f = true →
      let pkg := corPkg (f.ops.getD 5 0).toNat
      (linkTo s pkg = none → exec (.corridorRequestArrival (.cls src) seq) s = .next s)
      ∧ (∀ l, linkTo s pkg = some l → ∃ t q, exec (.corridorRequestArrival (.cls src) seq) s = .next t
          ∧ t.out = s.out ++ [.corridor pkg seq q] ∧ q.src = src ∧ q.cls = corCls (f.ops.getD 5 0).toNat
          ∧ q.off = corOff (f.ops.getD 5 0).toNat ∧ q.len = (f.ops.getD 1 0).toNat ∧ q.part = partOf s src
          ∧ t.klink = s.klink.set l (true, 0) ∧ t.mem = s.mem ∧ t.poison = s.poison ∧ t.ctr = s.ctr))
  -- what arrives from another package: refused where its partition is not granted the class, else performed once (R141, R389)
  ∧ (∀ pkg (seq : BitVec 16) r s l, linkTo s pkg = some l →
      (classIn s r.part r.cls = false → ∃ t, exec (.corridorRequestArrival (.ask pkg r) seq) s = .next t
        ∧ t.out = s.out ++ [.corridorRefusal pkg r.src seq] ∧ t.mem = s.mem ∧ t.cls = s.cls ∧ t.ctr = s.ctr)
      -- a duplicate is acknowledged again, with the lines of the first answer, and nothing more
      ∧ (classIn s r.part r.cls = true → (getPart s r.part).state ≠ 0 →
          (40 * (pkg + 1) + r.src, seq.toNat) ∈ (getCls s r.cls).seen → ∃ t, exec (.corridorRequestArrival (.ask pkg r) seq) s = .next t
          ∧ t.out = s.out ++ [.corridorAck pkg r.src seq (((getCls s r.cls).answers.find? fun x =>
              x.1 == 40 * (pkg + 1) + r.src && x.2.1 == seq.toNat).elim [] (·.2.2))]
          ∧ t.mem = s.mem ∧ t.cls = s.cls ∧ t.ctr = s.ctr)
      ∧ (∀ d, classIn s r.part r.cls = true → (getPart s r.part).state ≠ 0 → r.data = none → r.desks = [d] →
          (40 * (pkg + 1) + r.src, seq.toNat) ∉ (getCls s r.cls).seen → s.poison = [] → r.off % 64 = 0 → r.len % 64 = 0 →
          r.off + r.len ≤ 2 ^ 25 → d < 32 → physTower (getCls s r.cls) d < 34 → r.cls < s.cls.length →
          ∃ t ls, exec (.corridorRequestArrival (.ask pkg r) seq) s = .next t ∧ t.out = s.out ++ [.corridorAck pkg r.src seq ls]
            ∧ ls.length = r.len / 64 ∧ (∀ b, b < r.len →
              (ls.getD (b / 64) default).1.getD (b % 64) 0 = readByte s (towerByte (getCls s r.cls) r.cls d (r.off + b)))
            ∧ (40 * (pkg + 1) + r.src, seq.toNat, ls) ∈ (getCls t r.cls).answers
            ∧ (40 * (pkg + 1) + r.src, seq.toNat) ∈ (getCls t r.cls).seen ∧ t.mem = s.mem ∧ t.ctr = s.ctr)
      ∧ (∀ d ls, classIn s r.part r.cls = true → (getPart s r.part).state ≠ 0 → r.data = some ls → r.desks = [d] → r.add = none →
          (40 * (pkg + 1) + r.src, seq.toNat) ∉ (getCls s r.cls).seen → Memory.wf s.mem → s.poison = [] →
          r.len = 64 * ls.length → (∀ x ∈ ls, x.1.length = 64 ∧ x.2 = none) → r.off % 64 = 0 → r.off + r.len ≤ 2 ^ 25 → d < 32 →
          physTower (getCls s r.cls) d < 34 → r.cls < s.cls.length →
          ∃ t, exec (.corridorRequestArrival (.ask pkg r) seq) s = .next t
            ∧ (∀ b, b < r.len → readByte t (towerByte (getCls s r.cls) r.cls d (r.off + b)) = (ls.getD (b / 64) default).1.getD (b % 64) 0)
            ∧ (∀ a, (∀ b, b < r.len → a ≠ towerByte (getCls s r.cls) r.cls d (r.off + b)) → readByte t a = readByte s a)
            ∧ (40 * (pkg + 1) + r.src, seq.toNat) ∈ (getCls t r.cls).seen
            ∧ t.out = s.out ++ [.corridorAck pkg r.src seq []] ∧ t.ctr = s.ctr))
  -- a refusal is a delivery fault, and kills the node (R142, R389)
  ∧ (∀ c (seq : BitVec 16) s f j tm, findSeq s c seq = some (f, j, none) → isFar f = true → (reqOf f j).left ≠ none →
      (reqOf f j).done = false → teamOf s c = some tm → c < s.cls.length →
      ∃ t, exec (.corridorRequestArrival (.refused c) seq) s = .next t ∧ (getCls t c).tcode = 0x24
        ∧ (getCls t c).tinfo = seq.setWidth 64 ∧ t.kills = ⟨tm.inst, tm.node, 0x34⟩ :: s.kills)
  -- 4 µs without an acknowledgement after its last sending: that request is sent again at most three times, then the delivery fault
  -- kills the node
  ∧ (∀ c (seq : BitVec 16) s f j, findSeq s c seq = some (f, j, none) → unacked f j = true → c < s.cls.length →
      let age := 8 * (s.ticks8 - (reqOf f j).left.getD 0)
      (age < 4000 → exec (.corridorAckTimeout c seq) s = .next s)
      ∧ (4000 ≤ age → (reqOf f j).sends < 3 → ∃ t, exec (.corridorAckTimeout c seq) s = .next t
          ∧ (∃ y ∈ (getCls t c).inflight, y.id = f.id ∧ (reqOf y j).sends = (reqOf f j).sends + 1 ∧ (reqOf y j).left = some s.ticks8
              ∧ ∀ i, i ≠ j → reqOf y i = reqOf f i)
          ∧ t.mem = s.mem ∧ t.kills = s.kills ∧ (∀ k, k ≠ c → getCls t k = getCls s k))
      ∧ (4000 ≤ age → 3 ≤ (reqOf f j).sends → ∃ t, exec (.corridorAckTimeout c seq) s = .next t
          ∧ (getCls t c).tcode = 0x24 ∧ (getCls t c).teng = 4 ∧ (getCls t c).tinfo = seq.setWidth 64
          ∧ (∀ tm, teamOf s c = some tm → t.kills = ⟨tm.inst, tm.node, 0x34⟩ :: s.kills)))
  ∧ (∀ c (seq : BitVec 16) s f j, findSeq s c seq = some (f, j, none) → unacked f j = false →
      exec (.corridorAckTimeout c seq) s = .next s)
  -- a saved team's request that its class's router holds is sent again and at last delivered to no one in the same way (R280); no
  -- class takes that cause (the model's log 61)
  ∧ (∀ c (seq : BitVec 16) s f j team u, findSeq s c seq = some (f, j, some team) → s.teams.find? (fun x => x.id = team) = some u →
      (reqOf f j).left ≠ none → (reqOf f j).done = false → c < s.cls.length →
      let age := 8 * (s.ticks8 - (reqOf f j).left.getD 0)
      (age < 4000 → exec (.corridorAckTimeout c seq) s = .next s)
      ∧ (4000 ≤ age → (reqOf f j).sends < 3 → ∃ t, exec (.corridorAckTimeout c seq) s = .next t
          ∧ (∃ r ∈ (getCls t c).router, r.team = team ∧ r.op.id = f.id ∧ (reqOf r.op j).sends = (reqOf f j).sends + 1
              ∧ (reqOf r.op j).left = some s.ticks8)
          ∧ (getCls t c).inflight = (getCls s c).inflight ∧ t.mem = s.mem ∧ t.kills = s.kills)
      ∧ (4000 ≤ age → 3 ≤ (reqOf f j).sends → ∃ t, exec (.corridorAckTimeout c seq) s = .next t
          ∧ t.cls = s.cls ∧ t.kills = ⟨u.inst, u.node, 0x34⟩ :: s.kills
          ∧ (dieOf c < s.dies.length → ∃ e, (getDie t (dieOf c)).evq = (getDie s (dieOf c)).evq ++ [e] ∧ e.code = 0x24 ∧ e.cls = 0xFF
              ∧ e.tinfo = seq.setWidth 64)))
  -- phase 1 of a retirement: the router drains and takes no further packet, routing registers that name it name the other
  ∧ (∀ d r s, (wellOf s d r).state = 0 → ∃ t, exec (.stairwellDrain d r) s = .next t
      ∧ wellOf t d r = ⟨1⟩ ∧ (∀ ws, (d, r) ∈ ws → routeOpen t ws = false)
      ∧ (∀ c, c < s.cls.length → dieOf c = d →
          (getCls t c).rpri = (if (getCls s c).rpri = r then (getCls s c).ralt else (getCls s c).rpri)
          ∧ (getCls t c).ralt = (if (getCls s c).ralt = r then (getCls s c).rpri else (getCls s c).ralt))
      ∧ (∀ c, dieOf c ≠ d → (getCls t c).rpri = (getCls s c).rpri ∧ (getCls t c).ralt = (getCls s c).ralt)
      ∧ (∀ c, { getCls t c with inflight := [], rpri := 0, ralt := 0 } = { getCls s c with inflight := [], rpri := 0, ralt := 0 }
          ∧ (getCls t c).inflight.map (fun f => { f with reqs := [] }) = (getCls s c).inflight.map fun f => { f with reqs := [] })
      ∧ t.mem = s.mem)
  -- phase 2 waits until no packet is in flight through it
  ∧ (∀ d r s, (wellOf s d r).state = 1 →
      (wellCount s d r = 0 → ∃ t, exec (.stairwellRetire d r) s = .next t ∧ wellOf t d r = ⟨2⟩
        ∧ t.cls = s.cls ∧ t.mem = s.mem)
      ∧ (wellCount s d r ≠ 0 → exec (.stairwellRetire d r) s = .next s))
  -- an abrupt failure: STATE 3; packets inside may be lost, which ones is free; no packet on another way is
  ∧ (∀ d r s, (wellOf s d r).state < 2 → ∃ t, exec (.stairwellFailure d r) s = .next t ∧ (wellOf t d r).state = 3
      ∧ (∀ c, c < s.cls.length → { getCls t c with inflight := [], router := [], rpri := 0, ralt := 0 }
          = { getCls s c with inflight := [], router := [], rpri := 0, ralt := 0 }
          ∧ (getCls t c).inflight.map (fun f => { f with reqs := [] }) = (getCls s c).inflight.map (fun f => { f with reqs := [] })
          ∧ (∀ (n j : Nat) (f g : InFlight), (getCls s c).inflight[n]? = some f → (getCls t c).inflight[n]? = some g →
              (reqOf f j).left ≠ none → (d, r) ∉ (reqOf f j).wells → reqOf g j = reqOf f j)
          ∧ (dieOf c = d → (getCls s c).rpri ≠ r ∨ (getCls s c).ralt ≠ r → (getCls t c).rpri ≠ r)) ∧ t.mem = s.mem)
  -- a routing register that would name a retired or failed router is refused (R201)
  ∧ (∀ c p a s, (p < 8 → a < 8 → (wellOf s (dieOf c) p).state < 2 → (wellOf s (dieOf c) a).state < 2 →
        exec (.rtblWrite c p a) s = .next (modCls s c fun k => { k with rpri := p, ralt := a }))
      ∧ ((8 ≤ p ∨ 8 ≤ a ∨ 2 ≤ (wellOf s (dieOf c) p).state ∨ 2 ≤ (wellOf s (dieOf c) a).state) →
        exec (.rtblWrite c p a) s = .next s))

/-- R24 to R26, R29, R182, R189: K-links, link training, bridge lanes, remap entries. The model's choice: that a training brings up all
twelve links, whatever the pair cables are, and leaves a pair that is configured (log 62). -/
def Obligations.LinksAndRemap : Prop :=
  -- eight retries in a row take a link down, recorded
  (∀ l n s, l < 12 → s.klink.getD l (false, 0) = (true, n) →
      (n < 7 → exec (.kLinkFlitRetry l) s = .next { s with klink := s.klink.set l (true, n + 1) })
      ∧ (7 ≤ n → ∃ t, exec (.kLinkFlitRetry l) s = .next t ∧ t.klink = s.klink.set l (false, 0)
          ∧ { t with klink := [], dies := [], tick := 0 } = { s with klink := [], dies := [], tick := 0 }
          -- it is reported to firmware, by an event whose code and words are free (the model's log 42)
          ∧ (l / 6 < s.dies.length → ∃ e, (getDie t (l / 6)).evq = (getDie s (l / 6)).evq ++ [e])
          ∧ ((getDie s (l / 6)).frz = false → l / 6 < s.dies.length → ∃ e ∈ (getDie t (l / 6)).bb, e.code = 0x040
              ∧ e.detail = BitVec.ofNat 64 l)))
  ∧ (∀ l n s, s.klink.getD l (false, 0) = (false, n) → exec (.kLinkFlitRetry l) s = .next s)
  ∧ (∀ b far s, ∃ t, exec (.linkTraining b far) s = .next t ∧ t.cabling = b ∧ t.klink = List.replicate 12 (true, 0)
      ∧ (∀ l, l < 12 → tget 0 t.farPort l = (far.getD l 0).toNat)
      ∧ { t with cabling := false, klink := [], farPort := [], dies := [], tick := 0 }
        = { s with cabling := false, klink := [], farPort := [], dies := [], tick := 0 }
      ∧ (b = true → t.dies = s.dies) ∧ (∀ d, { getDie t d with evq := [], nextEv := 0 } = { getDie s d with evq := [], nextEv := 0 }))
  -- a failed bridge lane takes a spare; without one its direction is degraded
  ∧ (∀ d l s, d < 2 → d < s.spare.length → d < s.degraded.length → ∃ t, exec (.bridgeLaneFailure d l) s = .next t
      ∧ t.spare = s.spare.modify d (· - 1)
      ∧ (0 < s.spare.getD d 0 → t.degraded = s.degraded) ∧ (s.spare.getD d 0 = 0 → t.degraded = s.degraded.set d true)
      ∧ { t with spare := [], degraded := [], dies := [] } = { s with spare := [], degraded := [], dies := [] })
  -- a remap entry names the desk's own tower or a spare that no other entry names, and only while no partition has the class
  ∧ (∀ c d x s, d < 32 → owned s c = false → Memory.wf s.mem →
      -- a tower that comes into use holds no defined data: its bytes are free (R182; log 8)
      let fresh := fun (t : State) => (x ∈ towersInUse (getCls s c) ∨ 40 ≤ c → t.mem = s.mem)
        ∧ (∀ a, ¬ (towerAddr c x 0 ≤ a ∧ a < towerAddr c x 0 + 2 ^ 25) → readByte t a = readByte s a)
        ∧ (x ∉ towersInUse (getCls s c) → c < 40 → ∀ a, a < 2 ^ 25 → readByte t (towerAddr c x 0 + a) = Config.freeByte s.tick a)
      (x = d → ∃ t, exec (.remapTableWrite c d x) s = .next t ∧ (c < s.cls.length → physTower (getCls t c) d = d)
        ∧ (∀ e, e ≠ d → physTower (getCls t c) e = physTower (getCls s c) e) ∧ fresh t)
      ∧ ((x = 32 ∨ x = 33) → (∀ e, e < 32 → e ≠ d → physTower (getCls s c) e ≠ x) →
        ∃ t, exec (.remapTableWrite c d x) s = .next t ∧ (c < s.cls.length → physTower (getCls t c) d = x)
          ∧ (∀ e, e ≠ d → physTower (getCls t c) e = physTower (getCls s c) e) ∧ fresh t)
      ∧ (x ≠ d → x ≠ 32 → x ≠ 33 → exec (.remapTableWrite c d x) s = .next s)
      ∧ ((x = 32 ∨ x = 33) → (∃ e, e < 32 ∧ e ≠ d ∧ physTower (getCls s c) e = x) → exec (.remapTableWrite c d x) s = .next s))
  ∧ (∀ c d x s, owned s c = true → exec (.remapTableWrite c d x) s = .next s)

/-- What the machine holds right after reset, as the register layouts and the rules on cold start give it. Two values are not the
spec's but the model's: that no byte of memory is listed (log 3, DESIGN CHOICE), and THND = 0 (log 4). -/
def Obligations.ResetState : Prop :=
  let s := State.reset
  s.grant = 2 ∧ s.pcap = 2 ∧ s.insts = [] ∧ s.teams = [] ∧ s.nextInst = 1 ∧ s.pairPeer = none ∧ Memory.wf s.mem ∧ s.mem = []
  ∧ (∀ c, c < 40 →
      let k := getCls s c
      k.live = false ∧ k.slip = 0x1000 ∧ k.vl = 0x200 ∧ k.thnd = 0 ∧ k.srseed = 1 ∧ k.strict = 0 ∧ k.klvl = 2 ∧ k.vsel = 0
      ∧ k.tcode = 0 ∧ k.teng = 7 ∧ k.hmode = false ∧ k.tinfo = 0 ∧ k.defer = false ∧ k.lim = 0 ∧ k.halt.valid = false
      ∧ (∀ d, d < 32 → physTower k d = d) ∧ (∀ v ∈ k.views, v.defined = false)
      ∧ k.rpri = 2 * (c % 20 / 5) + (if c % 20 % 5 ≤ 1 then 0 else 1) ∧ k.rpri / 2 = k.ralt / 2 ∧ k.rpri ≠ k.ralt)
  ∧ (∀ k q, 1 ≤ k → k ≤ 16 → q < 8 → (getPart s k).state = 0 ∧ (getPart s k).wdcnt = 0 ∧ (getQueue s k q).en = false
      ∧ (getQueue s k q).pceil = 3 ∧ (getQueue s k q).log2n = 0 ∧ (getQueue s k q).err = 0 ∧ vfOn s k = false
      ∧ (qstat s k q).getLsbD 0 = true)
  ∧ (∀ d r, d < 2 → r < 8 → (getDie s d).frz = false ∧ (getDie s d).lost = 0 ∧ (wellOf s d r).state = 0)
  -- frame 0 of H0 is the handover memory's partition 31 (R207)
  ∧ (iptEntry s 0 0).part = 31 ∧ (iptEntry s 0 0).v = false

/-- A step fetches the word at the position of the agent whose turn it is, decodes it and executes it there; bytes that are no
instruction stop the step by name. -/
def Obligations.StepRunsTheDecodedWord : Prop :=
  (∀ s t c e w i, nextMover s = (.walker c e, t) → fetchWord t c e = .word w → decode w = .ok i →
      step s = exec i { t with focus := .cls c e })
  ∧ (∀ s t d w i, nextMover s = (.fw d, t) → fetchFw t d = .word w → decode w = .ok i → step s = exec i { t with focus := .fw d })
  ∧ (∀ s t c e w x, nextMover s = (.walker c e, t) → fetchWord t c e = .word w → decode w = .error x →
      step s = .fault .notAnInstruction)
  -- a line that is not in the buffers is fetched first
  ∧ (∀ s t c e va, nextMover s = (.walker c e, t) → fetchWord t c e = .miss va → step s = exec (.fetchLineMiss c va) t)
  ∧ (∀ s t i, nextMover s = (.event i, t) → i.isWord = false → step s = exec i t)
  -- where the word comes from: the line of the buffers that holds the walker's position (R325), at no loop
  ∧ (∀ t c e va pa l, walkerMoves t c e = true → (walkerOf (getCls t c) e).loops = [] →
      (getCls t c).inflight.find? (fun f => f.status == .again) = none → va = 64 * ((walkerOf (getCls t c) e).wi / 6) →
      (getCls t c).fetchBuf.find? (fun x => x.1 = va) = some (va, pa, l) →
      fetchWord t c e = .word (l.extractLsb' (80 * ((walkerOf (getCls t c) e).wi % 6)) 80))
  -- a word that is placed where the next step fetches it is what that step executes
  ∧ (∀ s w i, decode w = .ok i → firmwareOnly w = false → 0 < s.cls.length →
      (getCls s 0).inflight.find? (fun f => f.status == .again) = none →
      ∃ t, step (s.withFetchWord 80 w.toNat) = exec i t ∧ t.focus = .cls 0 (placeEng w) ∧ (walkerOf (getCls t 0) (placeEng w)).wi = 1)

/-- R323, R331, R341: words of the S, A, V and M engines that the spec writes out bit by bit decode to the
instruction they stand for; a field out of its range and an unassigned opcode do not decode. -/
def Obligations.WrittenWordsDecode : Prop :=
  decode 0x4F064000220210080000 = .ok (.vadd ⟨1, true, 2, 1⟩ ⟨4, 1, 2, 0, 8, 0, false, 0, false, 0⟩)
  ∧ decode 0xE0400000000000004004 = .ok (.loop ⟨0, false, 0, 0⟩ ⟨false, 4, 4⟩)
  ∧ decode 0x2AE240000468C0000280 = .ok (.copy ⟨0, true, 2, 0⟩ ⟨2, 3, 4, 12, 0, 0, 0x280⟩)
  ∧ decode 0x550000000304000B2828 = .ok (.vcvt ⟨0, false, 0, 0⟩ ⟨6, 2, 0, 0, 11, 1, false, 4, false, 0x28⟩)
  ∧ decode 0x796000010D2A00000000 = .ok (.mmaK4 ⟨0, false, 0, 8⟩ ⟨1, 20, 21, false, 0⟩)
  ∧ decode 0xBB60000007525A400000 = .ok (.cwaitT ⟨0, false, 0, 0⟩ ⟨7, 10, 2, 11, 9, 0⟩)
  ∧ decode 0x04600000080000000001 = .ok (.li ⟨0, false, 0, 0⟩ ⟨8, 1⟩)
  ∧ decode 0xBCE000000E0060000000 = .ok (.amoOr ⟨0, false, 0, 0⟩ ⟨7, 0, 0, true, true⟩)
  -- RM = 5 in the first (R294), the all-zero word (R342)
  ∧ decode 0x4F064000220210080A00 = .error .badField
  ∧ decode 0 = .error .unassignedOpcode

/-- R323, R331, R336, R342: encoding and decoding agree. Every well-formed word, with every operand at every value its encoding
admits, is what its encoding decodes to; what decodes is well formed and has exactly the bits it came from; the 32 opcodes of R342,
and a word whose engine is not its opcode's, do not decode. -/
def Obligations.DecodeAndEncodeAgree : Prop :=
  (∀ i, i.isWord = true → wellFormed i = true → ∃ w, encode i = some w ∧ decode w = .ok i)
  ∧ (∀ w i, decode w = .ok i → i.isWord = true ∧ wellFormed i = true ∧ encode i = some w)
  ∧ (∀ w : W80, let n := (w.extractLsb' 69 8).toNat
      (n = 0 ∨ (0x47 ≤ n ∧ n ≤ 0x4F) ∨ (0x6A ≤ n ∧ n ≤ 0x6F) ∨ (0x75 ≤ n ∧ n ≤ 0x77) ∨ (0xC4 ≤ n ∧ n ≤ 0xC7) ∨ n = 0xD7
        ∨ (0xED ≤ n ∧ n ≤ 0xEF) ∨ 0xFB ≤ n) → decode w = .error .unassignedOpcode)
  ∧ (∀ (w v : W80) i, decode w = .ok i → v.extractLsb' 0 77 = w.extractLsb' 0 77 → v ≠ w → decode v = .error .wrongEngine)

/-- Invariants of every step, from any state: memory keeps its canonical form, so that equal memories are equal data; and the
reference clock, from which every LNC is formed, never runs back while the device has power (R54). -/
def Obligations.EveryStepKeeps : Prop :=
  (∀ s t, Memory.wf s.mem → step s = .next t → Memory.wf t.mem)
  ∧ (∀ s t, step s = .next t → s.born ≤ t.born ∧ (t.born = s.born → s.ticks8 ≤ t.ticks8))
end

