-- ==== Sys2Proof/Laws/State.lean ====
section
/-!
SUPPORT. The small lemmas of the state: one per field per update, true by definition, and reading a class or a die after an
update of it.
-/

namespace Sys2Proof.Machine

theorem getCls_modCls (s : State) (c : Nat) (f : ClassState → ClassState) (h : c < s.cls.length) :
    getCls (modCls s c f) c = f (getCls s c) := by
  simp [getCls, modCls, List.getD_eq_getElem?_getD, h]
theorem getCls_modCls_ne (s : State) (c j : Nat) (f : ClassState → ClassState) (h : j ≠ c) :
    getCls (modCls s c f) j = getCls s j := by
  simp [getCls, modCls, List.getD_eq_getElem?_getD, Ne.symm h]
theorem modCls_modCls (s : State) (c : Nat) (f g : ClassState → ClassState) :
    modCls (modCls s c f) c g = modCls s c fun k => g (f k) := by
  simp only [modCls]
  congr 1
  apply List.ext_getElem?
  intro n
  simp only [List.getElem?_modify]
  split <;> simp [Option.map_map, Function.comp_def]

/-! ## Fields that an update leaves alone -/

/-! ### modCls -/

@[simp] theorem modCls_agenda (s : State) (c : Nat) (f : ClassState → ClassState) : (modCls s c f).agenda = s.agenda := rfl
@[simp] theorem modCls_tick (s : State) (c : Nat) (f : ClassState → ClassState) : (modCls s c f).tick = s.tick := rfl
@[simp] theorem modCls_focus (s : State) (c : Nat) (f : ClassState → ClassState) : (modCls s c f).focus = s.focus := rfl
@[simp] theorem modCls_ticks8 (s : State) (c : Nat) (f : ClassState → ClassState) : (modCls s c f).ticks8 = s.ticks8 := rfl
@[simp] theorem modCls_born (s : State) (c : Nat) (f : ClassState → ClassState) : (modCls s c f).born = s.born := rfl
@[simp] theorem modCls_grant (s : State) (c : Nat) (f : ClassState → ClassState) : (modCls s c f).grant = s.grant := rfl
@[simp] theorem modCls_capped (s : State) (c : Nat) (f : ClassState → ClassState) : (modCls s c f).capped = s.capped := rfl
@[simp] theorem modCls_raisedAt (s : State) (c : Nat) (f : ClassState → ClassState) : (modCls s c f).raisedAt = s.raisedAt := rfl
@[simp] theorem modCls_evalAt (s : State) (c : Nat) (f : ClassState → ClassState) : (modCls s c f).evalAt = s.evalAt := rfl
@[simp] theorem modCls_pcap (s : State) (c : Nat) (f : ClassState → ClassState) : (modCls s c f).pcap = s.pcap := rfl
@[simp] theorem modCls_mbcmd (s : State) (c : Nat) (f : ClassState → ClassState) : (modCls s c f).mbcmd = s.mbcmd := rfl
@[simp] theorem modCls_mbarg (s : State) (c : Nat) (f : ClassState → ClassState) : (modCls s c f).mbarg = s.mbarg := rfl
@[simp] theorem modCls_mbstat (s : State) (c : Nat) (f : ClassState → ClassState) : (modCls s c f).mbstat = s.mbstat := rfl
@[simp] theorem modCls_bootstat (s : State) (c : Nat) (f : ClassState → ClassState) : (modCls s c f).bootstat = s.bootstat := rfl
@[simp] theorem modCls_boot (s : State) (c : Nat) (f : ClassState → ClassState) : (modCls s c f).boot = s.boot := rfl
@[simp] theorem modCls_disabled (s : State) (c : Nat) (f : ClassState → ClassState) : (modCls s c f).disabled = s.disabled := rfl
@[simp] theorem modCls_dies (s : State) (c : Nat) (f : ClassState → ClassState) : (modCls s c f).dies = s.dies := rfl
@[simp] theorem modCls_parts (s : State) (c : Nat) (f : ClassState → ClassState) : (modCls s c f).parts = s.parts := rfl
@[simp] theorem modCls_insts (s : State) (c : Nat) (f : ClassState → ClassState) : (modCls s c f).insts = s.insts := rfl
@[simp] theorem modCls_nextInst (s : State) (c : Nat) (f : ClassState → ClassState) : (modCls s c f).nextInst = s.nextInst := rfl
@[simp] theorem modCls_teams (s : State) (c : Nat) (f : ClassState → ClassState) : (modCls s c f).teams = s.teams := rfl
@[simp] theorem modCls_nextTeam (s : State) (c : Nat) (f : ClassState → ClassState) : (modCls s c f).nextTeam = s.nextTeam := rfl
@[simp] theorem modCls_placeCount (s : State) (c : Nat) (f : ClassState → ClassState) : (modCls s c f).placeCount = s.placeCount := rfl
@[simp] theorem modCls_requests (s : State) (c : Nat) (f : ClassState → ClassState) : (modCls s c f).requests = s.requests := rfl
@[simp] theorem modCls_ipts (s : State) (c : Nat) (f : ClassState → ClassState) : (modCls s c f).ipts = s.ipts := rfl
@[simp] theorem modCls_ctr (s : State) (c : Nat) (f : ClassState → ClassState) : (modCls s c f).ctr = s.ctr := rfl
@[simp] theorem modCls_barriers (s : State) (c : Nat) (f : ClassState → ClassState) : (modCls s c f).barriers = s.barriers := rfl
@[simp] theorem modCls_recs (s : State) (c : Nat) (f : ClassState → ClassState) : (modCls s c f).recs = s.recs := rfl
@[simp] theorem modCls_transit (s : State) (c : Nat) (f : ClassState → ClassState) : (modCls s c f).transit = s.transit := rfl
@[simp] theorem modCls_mem (s : State) (c : Nat) (f : ClassState → ClassState) : (modCls s c f).mem = s.mem := rfl
@[simp] theorem modCls_poison (s : State) (c : Nat) (f : ClassState → ClassState) : (modCls s c f).poison = s.poison := rfl
@[simp] theorem modCls_tweaks (s : State) (c : Nat) (f : ClassState → ClassState) : (modCls s c f).tweaks = s.tweaks := rfl
@[simp] theorem modCls_tags (s : State) (c : Nat) (f : ClassState → ClassState) : (modCls s c f).tags = s.tags := rfl
@[simp] theorem modCls_kills (s : State) (c : Nat) (f : ClassState → ClassState) : (modCls s c f).kills = s.kills := rfl
@[simp] theorem modCls_spdm (s : State) (c : Nat) (f : ClassState → ClassState) : (modCls s c f).spdm = s.spdm := rfl
@[simp] theorem modCls_meas (s : State) (c : Nat) (f : ClassState → ClassState) : (modCls s c f).meas = s.meas := rfl
@[simp] theorem modCls_update (s : State) (c : Nat) (f : ClassState → ClassState) : (modCls s c f).update = s.update := rfl
@[simp] theorem modCls_handovers (s : State) (c : Nat) (f : ClassState → ClassState) : (modCls s c f).handovers = s.handovers := rfl
@[simp] theorem modCls_migs (s : State) (c : Nat) (f : ClassState → ClassState) : (modCls s c f).migs = s.migs := rfl
@[simp] theorem modCls_pairPeer (s : State) (c : Nat) (f : ClassState → ClassState) : (modCls s c f).pairPeer = s.pairPeer := rfl
@[simp] theorem modCls_pairMaster (s : State) (c : Nat) (f : ClassState → ClassState) : (modCls s c f).pairMaster = s.pairMaster := rfl
@[simp] theorem modCls_pairSet (s : State) (c : Nat) (f : ClassState → ClassState) : (modCls s c f).pairSet = s.pairSet := rfl
@[simp] theorem modCls_pairSel (s : State) (c : Nat) (f : ClassState → ClassState) : (modCls s c f).pairSel = s.pairSel := rfl
@[simp] theorem modCls_cabling (s : State) (c : Nat) (f : ClassState → ClassState) : (modCls s c f).cabling = s.cabling := rfl
@[simp] theorem modCls_farPort (s : State) (c : Nat) (f : ClassState → ClassState) : (modCls s c f).farPort = s.farPort := rfl
@[simp] theorem modCls_klink (s : State) (c : Nat) (f : ClassState → ClassState) : (modCls s c f).klink = s.klink := rfl
@[simp] theorem modCls_spare (s : State) (c : Nat) (f : ClassState → ClassState) : (modCls s c f).spare = s.spare := rfl
@[simp] theorem modCls_degraded (s : State) (c : Nat) (f : ClassState → ClassState) : (modCls s c f).degraded = s.degraded := rfl
@[simp] theorem modCls_out (s : State) (c : Nat) (f : ClassState → ClassState) : (modCls s c f).out = s.out := rfl

/-! ### modDie -/

@[simp] theorem modDie_agenda (s : State) (b : Nat) (f : Die → Die) : (modDie s b f).agenda = s.agenda := rfl
@[simp] theorem modDie_tick (s : State) (b : Nat) (f : Die → Die) : (modDie s b f).tick = s.tick := rfl
@[simp] theorem modDie_focus (s : State) (b : Nat) (f : Die → Die) : (modDie s b f).focus = s.focus := rfl
@[simp] theorem modDie_ticks8 (s : State) (b : Nat) (f : Die → Die) : (modDie s b f).ticks8 = s.ticks8 := rfl
@[simp] theorem modDie_born (s : State) (b : Nat) (f : Die → Die) : (modDie s b f).born = s.born := rfl
@[simp] theorem modDie_grant (s : State) (b : Nat) (f : Die → Die) : (modDie s b f).grant = s.grant := rfl
@[simp] theorem modDie_capped (s : State) (b : Nat) (f : Die → Die) : (modDie s b f).capped = s.capped := rfl
@[simp] theorem modDie_raisedAt (s : State) (b : Nat) (f : Die → Die) : (modDie s b f).raisedAt = s.raisedAt := rfl
@[simp] theorem modDie_evalAt (s : State) (b : Nat) (f : Die → Die) : (modDie s b f).evalAt = s.evalAt := rfl
@[simp] theorem modDie_pcap (s : State) (b : Nat) (f : Die → Die) : (modDie s b f).pcap = s.pcap := rfl
@[simp] theorem modDie_mbcmd (s : State) (b : Nat) (f : Die → Die) : (modDie s b f).mbcmd = s.mbcmd := rfl
@[simp] theorem modDie_mbarg (s : State) (b : Nat) (f : Die → Die) : (modDie s b f).mbarg = s.mbarg := rfl
@[simp] theorem modDie_mbstat (s : State) (b : Nat) (f : Die → Die) : (modDie s b f).mbstat = s.mbstat := rfl
@[simp] theorem modDie_bootstat (s : State) (b : Nat) (f : Die → Die) : (modDie s b f).bootstat = s.bootstat := rfl
@[simp] theorem modDie_boot (s : State) (b : Nat) (f : Die → Die) : (modDie s b f).boot = s.boot := rfl
@[simp] theorem modDie_disabled (s : State) (b : Nat) (f : Die → Die) : (modDie s b f).disabled = s.disabled := rfl
@[simp] theorem modDie_cls (s : State) (b : Nat) (f : Die → Die) : (modDie s b f).cls = s.cls := rfl
@[simp] theorem modDie_parts (s : State) (b : Nat) (f : Die → Die) : (modDie s b f).parts = s.parts := rfl
@[simp] theorem modDie_insts (s : State) (b : Nat) (f : Die → Die) : (modDie s b f).insts = s.insts := rfl
@[simp] theorem modDie_nextInst (s : State) (b : Nat) (f : Die → Die) : (modDie s b f).nextInst = s.nextInst := rfl
@[simp] theorem modDie_teams (s : State) (b : Nat) (f : Die → Die) : (modDie s b f).teams = s.teams := rfl
@[simp] theorem modDie_nextTeam (s : State) (b : Nat) (f : Die → Die) : (modDie s b f).nextTeam = s.nextTeam := rfl
@[simp] theorem modDie_placeCount (s : State) (b : Nat) (f : Die → Die) : (modDie s b f).placeCount = s.placeCount := rfl
@[simp] theorem modDie_requests (s : State) (b : Nat) (f : Die → Die) : (modDie s b f).requests = s.requests := rfl
@[simp] theorem modDie_ipts (s : State) (b : Nat) (f : Die → Die) : (modDie s b f).ipts = s.ipts := rfl
@[simp] theorem modDie_ctr (s : State) (b : Nat) (f : Die → Die) : (modDie s b f).ctr = s.ctr := rfl
@[simp] theorem modDie_barriers (s : State) (b : Nat) (f : Die → Die) : (modDie s b f).barriers = s.barriers := rfl
@[simp] theorem modDie_recs (s : State) (b : Nat) (f : Die → Die) : (modDie s b f).recs = s.recs := rfl
@[simp] theorem modDie_transit (s : State) (b : Nat) (f : Die → Die) : (modDie s b f).transit = s.transit := rfl
@[simp] theorem modDie_mem (s : State) (b : Nat) (f : Die → Die) : (modDie s b f).mem = s.mem := rfl
@[simp] theorem modDie_poison (s : State) (b : Nat) (f : Die → Die) : (modDie s b f).poison = s.poison := rfl
@[simp] theorem modDie_tweaks (s : State) (b : Nat) (f : Die → Die) : (modDie s b f).tweaks = s.tweaks := rfl
@[simp] theorem modDie_tags (s : State) (b : Nat) (f : Die → Die) : (modDie s b f).tags = s.tags := rfl
@[simp] theorem modDie_kills (s : State) (b : Nat) (f : Die → Die) : (modDie s b f).kills = s.kills := rfl
@[simp] theorem modDie_spdm (s : State) (b : Nat) (f : Die → Die) : (modDie s b f).spdm = s.spdm := rfl
@[simp] theorem modDie_meas (s : State) (b : Nat) (f : Die → Die) : (modDie s b f).meas = s.meas := rfl
@[simp] theorem modDie_update (s : State) (b : Nat) (f : Die → Die) : (modDie s b f).update = s.update := rfl
@[simp] theorem modDie_handovers (s : State) (b : Nat) (f : Die → Die) : (modDie s b f).handovers = s.handovers := rfl
@[simp] theorem modDie_migs (s : State) (b : Nat) (f : Die → Die) : (modDie s b f).migs = s.migs := rfl
@[simp] theorem modDie_pairPeer (s : State) (b : Nat) (f : Die → Die) : (modDie s b f).pairPeer = s.pairPeer := rfl
@[simp] theorem modDie_pairMaster (s : State) (b : Nat) (f : Die → Die) : (modDie s b f).pairMaster = s.pairMaster := rfl
@[simp] theorem modDie_pairSet (s : State) (b : Nat) (f : Die → Die) : (modDie s b f).pairSet = s.pairSet := rfl
@[simp] theorem modDie_pairSel (s : State) (b : Nat) (f : Die → Die) : (modDie s b f).pairSel = s.pairSel := rfl
@[simp] theorem modDie_cabling (s : State) (b : Nat) (f : Die → Die) : (modDie s b f).cabling = s.cabling := rfl
@[simp] theorem modDie_farPort (s : State) (b : Nat) (f : Die → Die) : (modDie s b f).farPort = s.farPort := rfl
@[simp] theorem modDie_klink (s : State) (b : Nat) (f : Die → Die) : (modDie s b f).klink = s.klink := rfl
@[simp] theorem modDie_spare (s : State) (b : Nat) (f : Die → Die) : (modDie s b f).spare = s.spare := rfl
@[simp] theorem modDie_degraded (s : State) (b : Nat) (f : Die → Die) : (modDie s b f).degraded = s.degraded := rfl
@[simp] theorem modDie_out (s : State) (b : Nat) (f : Die → Die) : (modDie s b f).out = s.out := rfl

/-! ### modFw -/

@[simp] theorem modFw_agenda (s : State) (b : Nat) (f : FwState → FwState) : (modFw s b f).agenda = s.agenda := rfl
@[simp] theorem modFw_tick (s : State) (b : Nat) (f : FwState → FwState) : (modFw s b f).tick = s.tick := rfl
@[simp] theorem modFw_focus (s : State) (b : Nat) (f : FwState → FwState) : (modFw s b f).focus = s.focus := rfl
@[simp] theorem modFw_ticks8 (s : State) (b : Nat) (f : FwState → FwState) : (modFw s b f).ticks8 = s.ticks8 := rfl
@[simp] theorem modFw_born (s : State) (b : Nat) (f : FwState → FwState) : (modFw s b f).born = s.born := rfl
@[simp] theorem modFw_grant (s : State) (b : Nat) (f : FwState → FwState) : (modFw s b f).grant = s.grant := rfl
@[simp] theorem modFw_capped (s : State) (b : Nat) (f : FwState → FwState) : (modFw s b f).capped = s.capped := rfl
@[simp] theorem modFw_raisedAt (s : State) (b : Nat) (f : FwState → FwState) : (modFw s b f).raisedAt = s.raisedAt := rfl
@[simp] theorem modFw_evalAt (s : State) (b : Nat) (f : FwState → FwState) : (modFw s b f).evalAt = s.evalAt := rfl
@[simp] theorem modFw_pcap (s : State) (b : Nat) (f : FwState → FwState) : (modFw s b f).pcap = s.pcap := rfl
@[simp] theorem modFw_mbcmd (s : State) (b : Nat) (f : FwState → FwState) : (modFw s b f).mbcmd = s.mbcmd := rfl
@[simp] theorem modFw_mbarg (s : State) (b : Nat) (f : FwState → FwState) : (modFw s b f).mbarg = s.mbarg := rfl
@[simp] theorem modFw_mbstat (s : State) (b : Nat) (f : FwState → FwState) : (modFw s b f).mbstat = s.mbstat := rfl
@[simp] theorem modFw_bootstat (s : State) (b : Nat) (f : FwState → FwState) : (modFw s b f).bootstat = s.bootstat := rfl
@[simp] theorem modFw_boot (s : State) (b : Nat) (f : FwState → FwState) : (modFw s b f).boot = s.boot := rfl
@[simp] theorem modFw_disabled (s : State) (b : Nat) (f : FwState → FwState) : (modFw s b f).disabled = s.disabled := rfl
@[simp] theorem modFw_cls (s : State) (b : Nat) (f : FwState → FwState) : (modFw s b f).cls = s.cls := rfl
@[simp] theorem modFw_parts (s : State) (b : Nat) (f : FwState → FwState) : (modFw s b f).parts = s.parts := rfl
@[simp] theorem modFw_insts (s : State) (b : Nat) (f : FwState → FwState) : (modFw s b f).insts = s.insts := rfl
@[simp] theorem modFw_nextInst (s : State) (b : Nat) (f : FwState → FwState) : (modFw s b f).nextInst = s.nextInst := rfl
@[simp] theorem modFw_teams (s : State) (b : Nat) (f : FwState → FwState) : (modFw s b f).teams = s.teams := rfl
@[simp] theorem modFw_nextTeam (s : State) (b : Nat) (f : FwState → FwState) : (modFw s b f).nextTeam = s.nextTeam := rfl
@[simp] theorem modFw_placeCount (s : State) (b : Nat) (f : FwState → FwState) : (modFw s b f).placeCount = s.placeCount := rfl
@[simp] theorem modFw_requests (s : State) (b : Nat) (f : FwState → FwState) : (modFw s b f).requests = s.requests := rfl
@[simp] theorem modFw_ipts (s : State) (b : Nat) (f : FwState → FwState) : (modFw s b f).ipts = s.ipts := rfl
@[simp] theorem modFw_ctr (s : State) (b : Nat) (f : FwState → FwState) : (modFw s b f).ctr = s.ctr := rfl
@[simp] theorem modFw_barriers (s : State) (b : Nat) (f : FwState → FwState) : (modFw s b f).barriers = s.barriers := rfl
@[simp] theorem modFw_recs (s : State) (b : Nat) (f : FwState → FwState) : (modFw s b f).recs = s.recs := rfl
@[simp] theorem modFw_transit (s : State) (b : Nat) (f : FwState → FwState) : (modFw s b f).transit = s.transit := rfl
@[simp] theorem modFw_mem (s : State) (b : Nat) (f : FwState → FwState) : (modFw s b f).mem = s.mem := rfl
@[simp] theorem modFw_poison (s : State) (b : Nat) (f : FwState → FwState) : (modFw s b f).poison = s.poison := rfl
@[simp] theorem modFw_tweaks (s : State) (b : Nat) (f : FwState → FwState) : (modFw s b f).tweaks = s.tweaks := rfl
@[simp] theorem modFw_tags (s : State) (b : Nat) (f : FwState → FwState) : (modFw s b f).tags = s.tags := rfl
@[simp] theorem modFw_kills (s : State) (b : Nat) (f : FwState → FwState) : (modFw s b f).kills = s.kills := rfl
@[simp] theorem modFw_spdm (s : State) (b : Nat) (f : FwState → FwState) : (modFw s b f).spdm = s.spdm := rfl
@[simp] theorem modFw_meas (s : State) (b : Nat) (f : FwState → FwState) : (modFw s b f).meas = s.meas := rfl
@[simp] theorem modFw_update (s : State) (b : Nat) (f : FwState → FwState) : (modFw s b f).update = s.update := rfl
@[simp] theorem modFw_handovers (s : State) (b : Nat) (f : FwState → FwState) : (modFw s b f).handovers = s.handovers := rfl
@[simp] theorem modFw_migs (s : State) (b : Nat) (f : FwState → FwState) : (modFw s b f).migs = s.migs := rfl
@[simp] theorem modFw_pairPeer (s : State) (b : Nat) (f : FwState → FwState) : (modFw s b f).pairPeer = s.pairPeer := rfl
@[simp] theorem modFw_pairMaster (s : State) (b : Nat) (f : FwState → FwState) : (modFw s b f).pairMaster = s.pairMaster := rfl
@[simp] theorem modFw_pairSet (s : State) (b : Nat) (f : FwState → FwState) : (modFw s b f).pairSet = s.pairSet := rfl
@[simp] theorem modFw_pairSel (s : State) (b : Nat) (f : FwState → FwState) : (modFw s b f).pairSel = s.pairSel := rfl
@[simp] theorem modFw_cabling (s : State) (b : Nat) (f : FwState → FwState) : (modFw s b f).cabling = s.cabling := rfl
@[simp] theorem modFw_farPort (s : State) (b : Nat) (f : FwState → FwState) : (modFw s b f).farPort = s.farPort := rfl
@[simp] theorem modFw_klink (s : State) (b : Nat) (f : FwState → FwState) : (modFw s b f).klink = s.klink := rfl
@[simp] theorem modFw_spare (s : State) (b : Nat) (f : FwState → FwState) : (modFw s b f).spare = s.spare := rfl
@[simp] theorem modFw_degraded (s : State) (b : Nat) (f : FwState → FwState) : (modFw s b f).degraded = s.degraded := rfl
@[simp] theorem modFw_out (s : State) (b : Nat) (f : FwState → FwState) : (modFw s b f).out = s.out := rfl

/-! ### writeBytes -/

@[simp] theorem writeBytes_agenda (s : State) (a : Nat) (bs : List Byte) : (writeBytes s a bs).agenda = s.agenda := rfl
@[simp] theorem writeBytes_tick (s : State) (a : Nat) (bs : List Byte) : (writeBytes s a bs).tick = s.tick := rfl
@[simp] theorem writeBytes_focus (s : State) (a : Nat) (bs : List Byte) : (writeBytes s a bs).focus = s.focus := rfl
@[simp] theorem writeBytes_ticks8 (s : State) (a : Nat) (bs : List Byte) : (writeBytes s a bs).ticks8 = s.ticks8 := rfl
@[simp] theorem writeBytes_born (s : State) (a : Nat) (bs : List Byte) : (writeBytes s a bs).born = s.born := rfl
@[simp] theorem writeBytes_grant (s : State) (a : Nat) (bs : List Byte) : (writeBytes s a bs).grant = s.grant := rfl
@[simp] theorem writeBytes_capped (s : State) (a : Nat) (bs : List Byte) : (writeBytes s a bs).capped = s.capped := rfl
@[simp] theorem writeBytes_raisedAt (s : State) (a : Nat) (bs : List Byte) : (writeBytes s a bs).raisedAt = s.raisedAt := rfl
@[simp] theorem writeBytes_evalAt (s : State) (a : Nat) (bs : List Byte) : (writeBytes s a bs).evalAt = s.evalAt := rfl
@[simp] theorem writeBytes_pcap (s : State) (a : Nat) (bs : List Byte) : (writeBytes s a bs).pcap = s.pcap := rfl
@[simp] theorem writeBytes_mbcmd (s : State) (a : Nat) (bs : List Byte) : (writeBytes s a bs).mbcmd = s.mbcmd := rfl
@[simp] theorem writeBytes_mbarg (s : State) (a : Nat) (bs : List Byte) : (writeBytes s a bs).mbarg = s.mbarg := rfl
@[simp] theorem writeBytes_mbstat (s : State) (a : Nat) (bs : List Byte) : (writeBytes s a bs).mbstat = s.mbstat := rfl
@[simp] theorem writeBytes_bootstat (s : State) (a : Nat) (bs : List Byte) : (writeBytes s a bs).bootstat = s.bootstat := rfl
@[simp] theorem writeBytes_boot (s : State) (a : Nat) (bs : List Byte) : (writeBytes s a bs).boot = s.boot := rfl
@[simp] theorem writeBytes_disabled (s : State) (a : Nat) (bs : List Byte) : (writeBytes s a bs).disabled = s.disabled := rfl
@[simp] theorem writeBytes_cls (s : State) (a : Nat) (bs : List Byte) : (writeBytes s a bs).cls = s.cls := rfl
@[simp] theorem writeBytes_dies (s : State) (a : Nat) (bs : List Byte) : (writeBytes s a bs).dies = s.dies := rfl
@[simp] theorem writeBytes_parts (s : State) (a : Nat) (bs : List Byte) : (writeBytes s a bs).parts = s.parts := rfl
@[simp] theorem writeBytes_insts (s : State) (a : Nat) (bs : List Byte) : (writeBytes s a bs).insts = s.insts := rfl
@[simp] theorem writeBytes_nextInst (s : State) (a : Nat) (bs : List Byte) : (writeBytes s a bs).nextInst = s.nextInst := rfl
@[simp] theorem writeBytes_teams (s : State) (a : Nat) (bs : List Byte) : (writeBytes s a bs).teams = s.teams := rfl
@[simp] theorem writeBytes_nextTeam (s : State) (a : Nat) (bs : List Byte) : (writeBytes s a bs).nextTeam = s.nextTeam := rfl
@[simp] theorem writeBytes_placeCount (s : State) (a : Nat) (bs : List Byte) : (writeBytes s a bs).placeCount = s.placeCount := rfl
@[simp] theorem writeBytes_requests (s : State) (a : Nat) (bs : List Byte) : (writeBytes s a bs).requests = s.requests := rfl
@[simp] theorem writeBytes_ipts (s : State) (a : Nat) (bs : List Byte) : (writeBytes s a bs).ipts = s.ipts := rfl
@[simp] theorem writeBytes_ctr (s : State) (a : Nat) (bs : List Byte) : (writeBytes s a bs).ctr = s.ctr := rfl
@[simp] theorem writeBytes_barriers (s : State) (a : Nat) (bs : List Byte) : (writeBytes s a bs).barriers = s.barriers := rfl
@[simp] theorem writeBytes_recs (s : State) (a : Nat) (bs : List Byte) : (writeBytes s a bs).recs = s.recs := rfl
@[simp] theorem writeBytes_transit (s : State) (a : Nat) (bs : List Byte) : (writeBytes s a bs).transit = s.transit := rfl
@[simp] theorem writeBytes_poison (s : State) (a : Nat) (bs : List Byte) : (writeBytes s a bs).poison = s.poison := rfl
@[simp] theorem writeBytes_tweaks (s : State) (a : Nat) (bs : List Byte) : (writeBytes s a bs).tweaks = s.tweaks := rfl
@[simp] theorem writeBytes_tags (s : State) (a : Nat) (bs : List Byte) : (writeBytes s a bs).tags = s.tags := rfl
@[simp] theorem writeBytes_kills (s : State) (a : Nat) (bs : List Byte) : (writeBytes s a bs).kills = s.kills := rfl
@[simp] theorem writeBytes_spdm (s : State) (a : Nat) (bs : List Byte) : (writeBytes s a bs).spdm = s.spdm := rfl
@[simp] theorem writeBytes_meas (s : State) (a : Nat) (bs : List Byte) : (writeBytes s a bs).meas = s.meas := rfl
@[simp] theorem writeBytes_update (s : State) (a : Nat) (bs : List Byte) : (writeBytes s a bs).update = s.update := rfl
@[simp] theorem writeBytes_handovers (s : State) (a : Nat) (bs : List Byte) : (writeBytes s a bs).handovers = s.handovers := rfl
@[simp] theorem writeBytes_migs (s : State) (a : Nat) (bs : List Byte) : (writeBytes s a bs).migs = s.migs := rfl
@[simp] theorem writeBytes_pairPeer (s : State) (a : Nat) (bs : List Byte) : (writeBytes s a bs).pairPeer = s.pairPeer := rfl
@[simp] theorem writeBytes_pairMaster (s : State) (a : Nat) (bs : List Byte) : (writeBytes s a bs).pairMaster = s.pairMaster := rfl
@[simp] theorem writeBytes_pairSet (s : State) (a : Nat) (bs : List Byte) : (writeBytes s a bs).pairSet = s.pairSet := rfl
@[simp] theorem writeBytes_pairSel (s : State) (a : Nat) (bs : List Byte) : (writeBytes s a bs).pairSel = s.pairSel := rfl
@[simp] theorem writeBytes_cabling (s : State) (a : Nat) (bs : List Byte) : (writeBytes s a bs).cabling = s.cabling := rfl
@[simp] theorem writeBytes_farPort (s : State) (a : Nat) (bs : List Byte) : (writeBytes s a bs).farPort = s.farPort := rfl
@[simp] theorem writeBytes_klink (s : State) (a : Nat) (bs : List Byte) : (writeBytes s a bs).klink = s.klink := rfl
@[simp] theorem writeBytes_spare (s : State) (a : Nat) (bs : List Byte) : (writeBytes s a bs).spare = s.spare := rfl
@[simp] theorem writeBytes_degraded (s : State) (a : Nat) (bs : List Byte) : (writeBytes s a bs).degraded = s.degraded := rfl
@[simp] theorem writeBytes_out (s : State) (a : Nat) (bs : List Byte) : (writeBytes s a bs).out = s.out := rfl

/-! ### send -/

@[simp] theorem send_agenda (s : State) (m : OutMsg) : (send s m).agenda = s.agenda := rfl
@[simp] theorem send_tick (s : State) (m : OutMsg) : (send s m).tick = s.tick := rfl
@[simp] theorem send_focus (s : State) (m : OutMsg) : (send s m).focus = s.focus := rfl
@[simp] theorem send_ticks8 (s : State) (m : OutMsg) : (send s m).ticks8 = s.ticks8 := rfl
@[simp] theorem send_born (s : State) (m : OutMsg) : (send s m).born = s.born := rfl
@[simp] theorem send_grant (s : State) (m : OutMsg) : (send s m).grant = s.grant := rfl
@[simp] theorem send_capped (s : State) (m : OutMsg) : (send s m).capped = s.capped := rfl
@[simp] theorem send_raisedAt (s : State) (m : OutMsg) : (send s m).raisedAt = s.raisedAt := rfl
@[simp] theorem send_evalAt (s : State) (m : OutMsg) : (send s m).evalAt = s.evalAt := rfl
@[simp] theorem send_pcap (s : State) (m : OutMsg) : (send s m).pcap = s.pcap := rfl
@[simp] theorem send_mbcmd (s : State) (m : OutMsg) : (send s m).mbcmd = s.mbcmd := rfl
@[simp] theorem send_mbarg (s : State) (m : OutMsg) : (send s m).mbarg = s.mbarg := rfl
@[simp] theorem send_mbstat (s : State) (m : OutMsg) : (send s m).mbstat = s.mbstat := rfl
@[simp] theorem send_bootstat (s : State) (m : OutMsg) : (send s m).bootstat = s.bootstat := rfl
@[simp] theorem send_boot (s : State) (m : OutMsg) : (send s m).boot = s.boot := rfl
@[simp] theorem send_disabled (s : State) (m : OutMsg) : (send s m).disabled = s.disabled := rfl
@[simp] theorem send_cls (s : State) (m : OutMsg) : (send s m).cls = s.cls := rfl
@[simp] theorem send_dies (s : State) (m : OutMsg) : (send s m).dies = s.dies := rfl
@[simp] theorem send_parts (s : State) (m : OutMsg) : (send s m).parts = s.parts := rfl
@[simp] theorem send_insts (s : State) (m : OutMsg) : (send s m).insts = s.insts := rfl
@[simp] theorem send_nextInst (s : State) (m : OutMsg) : (send s m).nextInst = s.nextInst := rfl
@[simp] theorem send_teams (s : State) (m : OutMsg) : (send s m).teams = s.teams := rfl
@[simp] theorem send_nextTeam (s : State) (m : OutMsg) : (send s m).nextTeam = s.nextTeam := rfl
@[simp] theorem send_placeCount (s : State) (m : OutMsg) : (send s m).placeCount = s.placeCount := rfl
@[simp] theorem send_requests (s : State) (m : OutMsg) : (send s m).requests = s.requests := rfl
@[simp] theorem send_ipts (s : State) (m : OutMsg) : (send s m).ipts = s.ipts := rfl
@[simp] theorem send_ctr (s : State) (m : OutMsg) : (send s m).ctr = s.ctr := rfl
@[simp] theorem send_barriers (s : State) (m : OutMsg) : (send s m).barriers = s.barriers := rfl
@[simp] theorem send_recs (s : State) (m : OutMsg) : (send s m).recs = s.recs := rfl
@[simp] theorem send_transit (s : State) (m : OutMsg) : (send s m).transit = s.transit := rfl
@[simp] theorem send_mem (s : State) (m : OutMsg) : (send s m).mem = s.mem := rfl
@[simp] theorem send_poison (s : State) (m : OutMsg) : (send s m).poison = s.poison := rfl
@[simp] theorem send_tweaks (s : State) (m : OutMsg) : (send s m).tweaks = s.tweaks := rfl
@[simp] theorem send_tags (s : State) (m : OutMsg) : (send s m).tags = s.tags := rfl
@[simp] theorem send_kills (s : State) (m : OutMsg) : (send s m).kills = s.kills := rfl
@[simp] theorem send_spdm (s : State) (m : OutMsg) : (send s m).spdm = s.spdm := rfl
@[simp] theorem send_meas (s : State) (m : OutMsg) : (send s m).meas = s.meas := rfl
@[simp] theorem send_update (s : State) (m : OutMsg) : (send s m).update = s.update := rfl
@[simp] theorem send_handovers (s : State) (m : OutMsg) : (send s m).handovers = s.handovers := rfl
@[simp] theorem send_migs (s : State) (m : OutMsg) : (send s m).migs = s.migs := rfl
@[simp] theorem send_pairPeer (s : State) (m : OutMsg) : (send s m).pairPeer = s.pairPeer := rfl
@[simp] theorem send_pairMaster (s : State) (m : OutMsg) : (send s m).pairMaster = s.pairMaster := rfl
@[simp] theorem send_pairSet (s : State) (m : OutMsg) : (send s m).pairSet = s.pairSet := rfl
@[simp] theorem send_pairSel (s : State) (m : OutMsg) : (send s m).pairSel = s.pairSel := rfl
@[simp] theorem send_cabling (s : State) (m : OutMsg) : (send s m).cabling = s.cabling := rfl
@[simp] theorem send_farPort (s : State) (m : OutMsg) : (send s m).farPort = s.farPort := rfl
@[simp] theorem send_klink (s : State) (m : OutMsg) : (send s m).klink = s.klink := rfl
@[simp] theorem send_spare (s : State) (m : OutMsg) : (send s m).spare = s.spare := rfl
@[simp] theorem send_degraded (s : State) (m : OutMsg) : (send s m).degraded = s.degraded := rfl

/-! ### due -/

@[simp] theorem due_tick (s : State) (m : Mover) : (due s m).tick = s.tick := rfl
@[simp] theorem due_focus (s : State) (m : Mover) : (due s m).focus = s.focus := rfl
@[simp] theorem due_ticks8 (s : State) (m : Mover) : (due s m).ticks8 = s.ticks8 := rfl
@[simp] theorem due_born (s : State) (m : Mover) : (due s m).born = s.born := rfl
@[simp] theorem due_grant (s : State) (m : Mover) : (due s m).grant = s.grant := rfl
@[simp] theorem due_capped (s : State) (m : Mover) : (due s m).capped = s.capped := rfl
@[simp] theorem due_raisedAt (s : State) (m : Mover) : (due s m).raisedAt = s.raisedAt := rfl
@[simp] theorem due_evalAt (s : State) (m : Mover) : (due s m).evalAt = s.evalAt := rfl
@[simp] theorem due_pcap (s : State) (m : Mover) : (due s m).pcap = s.pcap := rfl
@[simp] theorem due_mbcmd (s : State) (m : Mover) : (due s m).mbcmd = s.mbcmd := rfl
@[simp] theorem due_mbarg (s : State) (m : Mover) : (due s m).mbarg = s.mbarg := rfl
@[simp] theorem due_mbstat (s : State) (m : Mover) : (due s m).mbstat = s.mbstat := rfl
@[simp] theorem due_bootstat (s : State) (m : Mover) : (due s m).bootstat = s.bootstat := rfl
@[simp] theorem due_boot (s : State) (m : Mover) : (due s m).boot = s.boot := rfl
@[simp] theorem due_disabled (s : State) (m : Mover) : (due s m).disabled = s.disabled := rfl
@[simp] theorem due_cls (s : State) (m : Mover) : (due s m).cls = s.cls := rfl
@[simp] theorem due_dies (s : State) (m : Mover) : (due s m).dies = s.dies := rfl
@[simp] theorem due_parts (s : State) (m : Mover) : (due s m).parts = s.parts := rfl
@[simp] theorem due_insts (s : State) (m : Mover) : (due s m).insts = s.insts := rfl
@[simp] theorem due_nextInst (s : State) (m : Mover) : (due s m).nextInst = s.nextInst := rfl
@[simp] theorem due_teams (s : State) (m : Mover) : (due s m).teams = s.teams := rfl
@[simp] theorem due_nextTeam (s : State) (m : Mover) : (due s m).nextTeam = s.nextTeam := rfl
@[simp] theorem due_placeCount (s : State) (m : Mover) : (due s m).placeCount = s.placeCount := rfl
@[simp] theorem due_requests (s : State) (m : Mover) : (due s m).requests = s.requests := rfl
@[simp] theorem due_ipts (s : State) (m : Mover) : (due s m).ipts = s.ipts := rfl
@[simp] theorem due_ctr (s : State) (m : Mover) : (due s m).ctr = s.ctr := rfl
@[simp] theorem due_barriers (s : State) (m : Mover) : (due s m).barriers = s.barriers := rfl
@[simp] theorem due_recs (s : State) (m : Mover) : (due s m).recs = s.recs := rfl
@[simp] theorem due_transit (s : State) (m : Mover) : (due s m).transit = s.transit := rfl
@[simp] theorem due_mem (s : State) (m : Mover) : (due s m).mem = s.mem := rfl
@[simp] theorem due_poison (s : State) (m : Mover) : (due s m).poison = s.poison := rfl
@[simp] theorem due_tweaks (s : State) (m : Mover) : (due s m).tweaks = s.tweaks := rfl
@[simp] theorem due_tags (s : State) (m : Mover) : (due s m).tags = s.tags := rfl
@[simp] theorem due_kills (s : State) (m : Mover) : (due s m).kills = s.kills := rfl
@[simp] theorem due_spdm (s : State) (m : Mover) : (due s m).spdm = s.spdm := rfl
@[simp] theorem due_meas (s : State) (m : Mover) : (due s m).meas = s.meas := rfl
@[simp] theorem due_update (s : State) (m : Mover) : (due s m).update = s.update := rfl
@[simp] theorem due_handovers (s : State) (m : Mover) : (due s m).handovers = s.handovers := rfl
@[simp] theorem due_migs (s : State) (m : Mover) : (due s m).migs = s.migs := rfl
@[simp] theorem due_pairPeer (s : State) (m : Mover) : (due s m).pairPeer = s.pairPeer := rfl
@[simp] theorem due_pairMaster (s : State) (m : Mover) : (due s m).pairMaster = s.pairMaster := rfl
@[simp] theorem due_pairSet (s : State) (m : Mover) : (due s m).pairSet = s.pairSet := rfl
@[simp] theorem due_pairSel (s : State) (m : Mover) : (due s m).pairSel = s.pairSel := rfl
@[simp] theorem due_cabling (s : State) (m : Mover) : (due s m).cabling = s.cabling := rfl
@[simp] theorem due_farPort (s : State) (m : Mover) : (due s m).farPort = s.farPort := rfl
@[simp] theorem due_klink (s : State) (m : Mover) : (due s m).klink = s.klink := rfl
@[simp] theorem due_spare (s : State) (m : Mover) : (due s m).spare = s.spare := rfl
@[simp] theorem due_degraded (s : State) (m : Mover) : (due s m).degraded = s.degraded := rfl
@[simp] theorem due_out (s : State) (m : Mover) : (due s m).out = s.out := rfl

/-! ### bump -/

@[simp] theorem bump_agenda (s : State) : (bump s).agenda = s.agenda := rfl
@[simp] theorem bump_focus (s : State) : (bump s).focus = s.focus := rfl
@[simp] theorem bump_ticks8 (s : State) : (bump s).ticks8 = s.ticks8 := rfl
@[simp] theorem bump_born (s : State) : (bump s).born = s.born := rfl
@[simp] theorem bump_grant (s : State) : (bump s).grant = s.grant := rfl
@[simp] theorem bump_capped (s : State) : (bump s).capped = s.capped := rfl
@[simp] theorem bump_raisedAt (s : State) : (bump s).raisedAt = s.raisedAt := rfl
@[simp] theorem bump_evalAt (s : State) : (bump s).evalAt = s.evalAt := rfl
@[simp] theorem bump_pcap (s : State) : (bump s).pcap = s.pcap := rfl
@[simp] theorem bump_mbcmd (s : State) : (bump s).mbcmd = s.mbcmd := rfl
@[simp] theorem bump_mbarg (s : State) : (bump s).mbarg = s.mbarg := rfl
@[simp] theorem bump_mbstat (s : State) : (bump s).mbstat = s.mbstat := rfl
@[simp] theorem bump_bootstat (s : State) : (bump s).bootstat = s.bootstat := rfl
@[simp] theorem bump_boot (s : State) : (bump s).boot = s.boot := rfl
@[simp] theorem bump_disabled (s : State) : (bump s).disabled = s.disabled := rfl
@[simp] theorem bump_cls (s : State) : (bump s).cls = s.cls := rfl
@[simp] theorem bump_dies (s : State) : (bump s).dies = s.dies := rfl
@[simp] theorem bump_parts (s : State) : (bump s).parts = s.parts := rfl
@[simp] theorem bump_insts (s : State) : (bump s).insts = s.insts := rfl
@[simp] theorem bump_nextInst (s : State) : (bump s).nextInst = s.nextInst := rfl
@[simp] theorem bump_teams (s : State) : (bump s).teams = s.teams := rfl
@[simp] theorem bump_nextTeam (s : State) : (bump s).nextTeam = s.nextTeam := rfl
@[simp] theorem bump_placeCount (s : State) : (bump s).placeCount = s.placeCount := rfl
@[simp] theorem bump_requests (s : State) : (bump s).requests = s.requests := rfl
@[simp] theorem bump_ipts (s : State) : (bump s).ipts = s.ipts := rfl
@[simp] theorem bump_ctr (s : State) : (bump s).ctr = s.ctr := rfl
@[simp] theorem bump_barriers (s : State) : (bump s).barriers = s.barriers := rfl
@[simp] theorem bump_recs (s : State) : (bump s).recs = s.recs := rfl
@[simp] theorem bump_transit (s : State) : (bump s).transit = s.transit := rfl
@[simp] theorem bump_mem (s : State) : (bump s).mem = s.mem := rfl
@[simp] theorem bump_poison (s : State) : (bump s).poison = s.poison := rfl
@[simp] theorem bump_tweaks (s : State) : (bump s).tweaks = s.tweaks := rfl
@[simp] theorem bump_tags (s : State) : (bump s).tags = s.tags := rfl
@[simp] theorem bump_kills (s : State) : (bump s).kills = s.kills := rfl
@[simp] theorem bump_spdm (s : State) : (bump s).spdm = s.spdm := rfl
@[simp] theorem bump_meas (s : State) : (bump s).meas = s.meas := rfl
@[simp] theorem bump_update (s : State) : (bump s).update = s.update := rfl
@[simp] theorem bump_handovers (s : State) : (bump s).handovers = s.handovers := rfl
@[simp] theorem bump_migs (s : State) : (bump s).migs = s.migs := rfl
@[simp] theorem bump_pairPeer (s : State) : (bump s).pairPeer = s.pairPeer := rfl
@[simp] theorem bump_pairMaster (s : State) : (bump s).pairMaster = s.pairMaster := rfl
@[simp] theorem bump_pairSet (s : State) : (bump s).pairSet = s.pairSet := rfl
@[simp] theorem bump_pairSel (s : State) : (bump s).pairSel = s.pairSel := rfl
@[simp] theorem bump_cabling (s : State) : (bump s).cabling = s.cabling := rfl
@[simp] theorem bump_farPort (s : State) : (bump s).farPort = s.farPort := rfl
@[simp] theorem bump_klink (s : State) : (bump s).klink = s.klink := rfl
@[simp] theorem bump_spare (s : State) : (bump s).spare = s.spare := rfl
@[simp] theorem bump_degraded (s : State) : (bump s).degraded = s.degraded := rfl
@[simp] theorem bump_out (s : State) : (bump s).out = s.out := rfl

/-! ### ctrSet -/

@[simp] theorem ctrSet_agenda (s : State) (h v : Nat) : (ctrSet s h v).agenda = s.agenda := rfl
@[simp] theorem ctrSet_tick (s : State) (h v : Nat) : (ctrSet s h v).tick = s.tick := rfl
@[simp] theorem ctrSet_focus (s : State) (h v : Nat) : (ctrSet s h v).focus = s.focus := rfl
@[simp] theorem ctrSet_ticks8 (s : State) (h v : Nat) : (ctrSet s h v).ticks8 = s.ticks8 := rfl
@[simp] theorem ctrSet_born (s : State) (h v : Nat) : (ctrSet s h v).born = s.born := rfl
@[simp] theorem ctrSet_grant (s : State) (h v : Nat) : (ctrSet s h v).grant = s.grant := rfl
@[simp] theorem ctrSet_capped (s : State) (h v : Nat) : (ctrSet s h v).capped = s.capped := rfl
@[simp] theorem ctrSet_raisedAt (s : State) (h v : Nat) : (ctrSet s h v).raisedAt = s.raisedAt := rfl
@[simp] theorem ctrSet_evalAt (s : State) (h v : Nat) : (ctrSet s h v).evalAt = s.evalAt := rfl
@[simp] theorem ctrSet_pcap (s : State) (h v : Nat) : (ctrSet s h v).pcap = s.pcap := rfl
@[simp] theorem ctrSet_mbcmd (s : State) (h v : Nat) : (ctrSet s h v).mbcmd = s.mbcmd := rfl
@[simp] theorem ctrSet_mbarg (s : State) (h v : Nat) : (ctrSet s h v).mbarg = s.mbarg := rfl
@[simp] theorem ctrSet_mbstat (s : State) (h v : Nat) : (ctrSet s h v).mbstat = s.mbstat := rfl
@[simp] theorem ctrSet_bootstat (s : State) (h v : Nat) : (ctrSet s h v).bootstat = s.bootstat := rfl
@[simp] theorem ctrSet_boot (s : State) (h v : Nat) : (ctrSet s h v).boot = s.boot := rfl
@[simp] theorem ctrSet_disabled (s : State) (h v : Nat) : (ctrSet s h v).disabled = s.disabled := rfl
@[simp] theorem ctrSet_cls (s : State) (h v : Nat) : (ctrSet s h v).cls = s.cls := rfl
@[simp] theorem ctrSet_dies (s : State) (h v : Nat) : (ctrSet s h v).dies = s.dies := rfl
@[simp] theorem ctrSet_parts (s : State) (h v : Nat) : (ctrSet s h v).parts = s.parts := rfl
@[simp] theorem ctrSet_insts (s : State) (h v : Nat) : (ctrSet s h v).insts = s.insts := rfl
@[simp] theorem ctrSet_nextInst (s : State) (h v : Nat) : (ctrSet s h v).nextInst = s.nextInst := rfl
@[simp] theorem ctrSet_teams (s : State) (h v : Nat) : (ctrSet s h v).teams = s.teams := rfl
@[simp] theorem ctrSet_nextTeam (s : State) (h v : Nat) : (ctrSet s h v).nextTeam = s.nextTeam := rfl
@[simp] theorem ctrSet_placeCount (s : State) (h v : Nat) : (ctrSet s h v).placeCount = s.placeCount := rfl
@[simp] theorem ctrSet_requests (s : State) (h v : Nat) : (ctrSet s h v).requests = s.requests := rfl
@[simp] theorem ctrSet_ipts (s : State) (h v : Nat) : (ctrSet s h v).ipts = s.ipts := rfl
@[simp] theorem ctrSet_barriers (s : State) (h v : Nat) : (ctrSet s h v).barriers = s.barriers := rfl
@[simp] theorem ctrSet_recs (s : State) (h v : Nat) : (ctrSet s h v).recs = s.recs := rfl
@[simp] theorem ctrSet_transit (s : State) (h v : Nat) : (ctrSet s h v).transit = s.transit := rfl
@[simp] theorem ctrSet_mem (s : State) (h v : Nat) : (ctrSet s h v).mem = s.mem := rfl
@[simp] theorem ctrSet_poison (s : State) (h v : Nat) : (ctrSet s h v).poison = s.poison := rfl
@[simp] theorem ctrSet_tweaks (s : State) (h v : Nat) : (ctrSet s h v).tweaks = s.tweaks := rfl
@[simp] theorem ctrSet_tags (s : State) (h v : Nat) : (ctrSet s h v).tags = s.tags := rfl
@[simp] theorem ctrSet_kills (s : State) (h v : Nat) : (ctrSet s h v).kills = s.kills := rfl
@[simp] theorem ctrSet_spdm (s : State) (h v : Nat) : (ctrSet s h v).spdm = s.spdm := rfl
@[simp] theorem ctrSet_meas (s : State) (h v : Nat) : (ctrSet s h v).meas = s.meas := rfl
@[simp] theorem ctrSet_update (s : State) (h v : Nat) : (ctrSet s h v).update = s.update := rfl
@[simp] theorem ctrSet_handovers (s : State) (h v : Nat) : (ctrSet s h v).handovers = s.handovers := rfl
@[simp] theorem ctrSet_migs (s : State) (h v : Nat) : (ctrSet s h v).migs = s.migs := rfl
@[simp] theorem ctrSet_pairPeer (s : State) (h v : Nat) : (ctrSet s h v).pairPeer = s.pairPeer := rfl
@[simp] theorem ctrSet_pairMaster (s : State) (h v : Nat) : (ctrSet s h v).pairMaster = s.pairMaster := rfl
@[simp] theorem ctrSet_pairSet (s : State) (h v : Nat) : (ctrSet s h v).pairSet = s.pairSet := rfl
@[simp] theorem ctrSet_pairSel (s : State) (h v : Nat) : (ctrSet s h v).pairSel = s.pairSel := rfl
@[simp] theorem ctrSet_cabling (s : State) (h v : Nat) : (ctrSet s h v).cabling = s.cabling := rfl
@[simp] theorem ctrSet_farPort (s : State) (h v : Nat) : (ctrSet s h v).farPort = s.farPort := rfl
@[simp] theorem ctrSet_klink (s : State) (h v : Nat) : (ctrSet s h v).klink = s.klink := rfl
@[simp] theorem ctrSet_spare (s : State) (h v : Nat) : (ctrSet s h v).spare = s.spare := rfl
@[simp] theorem ctrSet_degraded (s : State) (h v : Nat) : (ctrSet s h v).degraded = s.degraded := rfl
@[simp] theorem ctrSet_out (s : State) (h v : Nat) : (ctrSet s h v).out = s.out := rfl

/-! ### clearPoison -/

@[simp] theorem clearPoison_agenda (s : State) (u : PUnit) : (clearPoison s u).agenda = s.agenda := rfl
@[simp] theorem clearPoison_tick (s : State) (u : PUnit) : (clearPoison s u).tick = s.tick := rfl
@[simp] theorem clearPoison_focus (s : State) (u : PUnit) : (clearPoison s u).focus = s.focus := rfl
@[simp] theorem clearPoison_ticks8 (s : State) (u : PUnit) : (clearPoison s u).ticks8 = s.ticks8 := rfl
@[simp] theorem clearPoison_born (s : State) (u : PUnit) : (clearPoison s u).born = s.born := rfl
@[simp] theorem clearPoison_grant (s : State) (u : PUnit) : (clearPoison s u).grant = s.grant := rfl
@[simp] theorem clearPoison_capped (s : State) (u : PUnit) : (clearPoison s u).capped = s.capped := rfl
@[simp] theorem clearPoison_raisedAt (s : State) (u : PUnit) : (clearPoison s u).raisedAt = s.raisedAt := rfl
@[simp] theorem clearPoison_evalAt (s : State) (u : PUnit) : (clearPoison s u).evalAt = s.evalAt := rfl
@[simp] theorem clearPoison_pcap (s : State) (u : PUnit) : (clearPoison s u).pcap = s.pcap := rfl
@[simp] theorem clearPoison_mbcmd (s : State) (u : PUnit) : (clearPoison s u).mbcmd = s.mbcmd := rfl
@[simp] theorem clearPoison_mbarg (s : State) (u : PUnit) : (clearPoison s u).mbarg = s.mbarg := rfl
@[simp] theorem clearPoison_mbstat (s : State) (u : PUnit) : (clearPoison s u).mbstat = s.mbstat := rfl
@[simp] theorem clearPoison_bootstat (s : State) (u : PUnit) : (clearPoison s u).bootstat = s.bootstat := rfl
@[simp] theorem clearPoison_boot (s : State) (u : PUnit) : (clearPoison s u).boot = s.boot := rfl
@[simp] theorem clearPoison_disabled (s : State) (u : PUnit) : (clearPoison s u).disabled = s.disabled := rfl
@[simp] theorem clearPoison_cls (s : State) (u : PUnit) : (clearPoison s u).cls = s.cls := rfl
@[simp] theorem clearPoison_dies (s : State) (u : PUnit) : (clearPoison s u).dies = s.dies := rfl
@[simp] theorem clearPoison_parts (s : State) (u : PUnit) : (clearPoison s u).parts = s.parts := rfl
@[simp] theorem clearPoison_insts (s : State) (u : PUnit) : (clearPoison s u).insts = s.insts := rfl
@[simp] theorem clearPoison_nextInst (s : State) (u : PUnit) : (clearPoison s u).nextInst = s.nextInst := rfl
@[simp] theorem clearPoison_teams (s : State) (u : PUnit) : (clearPoison s u).teams = s.teams := rfl
@[simp] theorem clearPoison_nextTeam (s : State) (u : PUnit) : (clearPoison s u).nextTeam = s.nextTeam := rfl
@[simp] theorem clearPoison_placeCount (s : State) (u : PUnit) : (clearPoison s u).placeCount = s.placeCount := rfl
@[simp] theorem clearPoison_requests (s : State) (u : PUnit) : (clearPoison s u).requests = s.requests := rfl
@[simp] theorem clearPoison_ipts (s : State) (u : PUnit) : (clearPoison s u).ipts = s.ipts := rfl
@[simp] theorem clearPoison_ctr (s : State) (u : PUnit) : (clearPoison s u).ctr = s.ctr := rfl
@[simp] theorem clearPoison_barriers (s : State) (u : PUnit) : (clearPoison s u).barriers = s.barriers := rfl
@[simp] theorem clearPoison_recs (s : State) (u : PUnit) : (clearPoison s u).recs = s.recs := rfl
@[simp] theorem clearPoison_transit (s : State) (u : PUnit) : (clearPoison s u).transit = s.transit := rfl
@[simp] theorem clearPoison_mem (s : State) (u : PUnit) : (clearPoison s u).mem = s.mem := rfl
@[simp] theorem clearPoison_tweaks (s : State) (u : PUnit) : (clearPoison s u).tweaks = s.tweaks := rfl
@[simp] theorem clearPoison_kills (s : State) (u : PUnit) : (clearPoison s u).kills = s.kills := rfl
@[simp] theorem clearPoison_spdm (s : State) (u : PUnit) : (clearPoison s u).spdm = s.spdm := rfl
@[simp] theorem clearPoison_meas (s : State) (u : PUnit) : (clearPoison s u).meas = s.meas := rfl
@[simp] theorem clearPoison_update (s : State) (u : PUnit) : (clearPoison s u).update = s.update := rfl
@[simp] theorem clearPoison_handovers (s : State) (u : PUnit) : (clearPoison s u).handovers = s.handovers := rfl
@[simp] theorem clearPoison_migs (s : State) (u : PUnit) : (clearPoison s u).migs = s.migs := rfl
@[simp] theorem clearPoison_pairPeer (s : State) (u : PUnit) : (clearPoison s u).pairPeer = s.pairPeer := rfl
@[simp] theorem clearPoison_pairMaster (s : State) (u : PUnit) : (clearPoison s u).pairMaster = s.pairMaster := rfl
@[simp] theorem clearPoison_pairSet (s : State) (u : PUnit) : (clearPoison s u).pairSet = s.pairSet := rfl
@[simp] theorem clearPoison_pairSel (s : State) (u : PUnit) : (clearPoison s u).pairSel = s.pairSel := rfl
@[simp] theorem clearPoison_cabling (s : State) (u : PUnit) : (clearPoison s u).cabling = s.cabling := rfl
@[simp] theorem clearPoison_farPort (s : State) (u : PUnit) : (clearPoison s u).farPort = s.farPort := rfl
@[simp] theorem clearPoison_klink (s : State) (u : PUnit) : (clearPoison s u).klink = s.klink := rfl
@[simp] theorem clearPoison_spare (s : State) (u : PUnit) : (clearPoison s u).spare = s.spare := rfl
@[simp] theorem clearPoison_degraded (s : State) (u : PUnit) : (clearPoison s u).degraded = s.degraded := rfl
@[simp] theorem clearPoison_out (s : State) (u : PUnit) : (clearPoison s u).out = s.out := rfl

/-! ### setPoison -/

@[simp] theorem setPoison_agenda (s : State) (u : PUnit) (k : Bool) : (setPoison s u k).agenda = s.agenda := rfl
@[simp] theorem setPoison_tick (s : State) (u : PUnit) (k : Bool) : (setPoison s u k).tick = s.tick := rfl
@[simp] theorem setPoison_focus (s : State) (u : PUnit) (k : Bool) : (setPoison s u k).focus = s.focus := rfl
@[simp] theorem setPoison_ticks8 (s : State) (u : PUnit) (k : Bool) : (setPoison s u k).ticks8 = s.ticks8 := rfl
@[simp] theorem setPoison_born (s : State) (u : PUnit) (k : Bool) : (setPoison s u k).born = s.born := rfl
@[simp] theorem setPoison_grant (s : State) (u : PUnit) (k : Bool) : (setPoison s u k).grant = s.grant := rfl
@[simp] theorem setPoison_capped (s : State) (u : PUnit) (k : Bool) : (setPoison s u k).capped = s.capped := rfl
@[simp] theorem setPoison_raisedAt (s : State) (u : PUnit) (k : Bool) : (setPoison s u k).raisedAt = s.raisedAt := rfl
@[simp] theorem setPoison_evalAt (s : State) (u : PUnit) (k : Bool) : (setPoison s u k).evalAt = s.evalAt := rfl
@[simp] theorem setPoison_pcap (s : State) (u : PUnit) (k : Bool) : (setPoison s u k).pcap = s.pcap := rfl
@[simp] theorem setPoison_mbcmd (s : State) (u : PUnit) (k : Bool) : (setPoison s u k).mbcmd = s.mbcmd := rfl
@[simp] theorem setPoison_mbarg (s : State) (u : PUnit) (k : Bool) : (setPoison s u k).mbarg = s.mbarg := rfl
@[simp] theorem setPoison_mbstat (s : State) (u : PUnit) (k : Bool) : (setPoison s u k).mbstat = s.mbstat := rfl
@[simp] theorem setPoison_bootstat (s : State) (u : PUnit) (k : Bool) : (setPoison s u k).bootstat = s.bootstat := rfl
@[simp] theorem setPoison_boot (s : State) (u : PUnit) (k : Bool) : (setPoison s u k).boot = s.boot := rfl
@[simp] theorem setPoison_disabled (s : State) (u : PUnit) (k : Bool) : (setPoison s u k).disabled = s.disabled := rfl
@[simp] theorem setPoison_cls (s : State) (u : PUnit) (k : Bool) : (setPoison s u k).cls = s.cls := rfl
@[simp] theorem setPoison_dies (s : State) (u : PUnit) (k : Bool) : (setPoison s u k).dies = s.dies := rfl
@[simp] theorem setPoison_parts (s : State) (u : PUnit) (k : Bool) : (setPoison s u k).parts = s.parts := rfl
@[simp] theorem setPoison_insts (s : State) (u : PUnit) (k : Bool) : (setPoison s u k).insts = s.insts := rfl
@[simp] theorem setPoison_nextInst (s : State) (u : PUnit) (k : Bool) : (setPoison s u k).nextInst = s.nextInst := rfl
@[simp] theorem setPoison_teams (s : State) (u : PUnit) (k : Bool) : (setPoison s u k).teams = s.teams := rfl
@[simp] theorem setPoison_nextTeam (s : State) (u : PUnit) (k : Bool) : (setPoison s u k).nextTeam = s.nextTeam := rfl
@[simp] theorem setPoison_placeCount (s : State) (u : PUnit) (k : Bool) : (setPoison s u k).placeCount = s.placeCount := rfl
@[simp] theorem setPoison_requests (s : State) (u : PUnit) (k : Bool) : (setPoison s u k).requests = s.requests := rfl
@[simp] theorem setPoison_ipts (s : State) (u : PUnit) (k : Bool) : (setPoison s u k).ipts = s.ipts := rfl
@[simp] theorem setPoison_ctr (s : State) (u : PUnit) (k : Bool) : (setPoison s u k).ctr = s.ctr := rfl
@[simp] theorem setPoison_barriers (s : State) (u : PUnit) (k : Bool) : (setPoison s u k).barriers = s.barriers := rfl
@[simp] theorem setPoison_recs (s : State) (u : PUnit) (k : Bool) : (setPoison s u k).recs = s.recs := rfl
@[simp] theorem setPoison_transit (s : State) (u : PUnit) (k : Bool) : (setPoison s u k).transit = s.transit := rfl
@[simp] theorem setPoison_mem (s : State) (u : PUnit) (k : Bool) : (setPoison s u k).mem = s.mem := rfl
@[simp] theorem setPoison_tweaks (s : State) (u : PUnit) (k : Bool) : (setPoison s u k).tweaks = s.tweaks := rfl
@[simp] theorem setPoison_kills (s : State) (u : PUnit) (k : Bool) : (setPoison s u k).kills = s.kills := rfl
@[simp] theorem setPoison_spdm (s : State) (u : PUnit) (k : Bool) : (setPoison s u k).spdm = s.spdm := rfl
@[simp] theorem setPoison_meas (s : State) (u : PUnit) (k : Bool) : (setPoison s u k).meas = s.meas := rfl
@[simp] theorem setPoison_update (s : State) (u : PUnit) (k : Bool) : (setPoison s u k).update = s.update := rfl
@[simp] theorem setPoison_handovers (s : State) (u : PUnit) (k : Bool) : (setPoison s u k).handovers = s.handovers := rfl
@[simp] theorem setPoison_migs (s : State) (u : PUnit) (k : Bool) : (setPoison s u k).migs = s.migs := rfl
@[simp] theorem setPoison_pairPeer (s : State) (u : PUnit) (k : Bool) : (setPoison s u k).pairPeer = s.pairPeer := rfl
@[simp] theorem setPoison_pairMaster (s : State) (u : PUnit) (k : Bool) : (setPoison s u k).pairMaster = s.pairMaster := rfl
@[simp] theorem setPoison_pairSet (s : State) (u : PUnit) (k : Bool) : (setPoison s u k).pairSet = s.pairSet := rfl
@[simp] theorem setPoison_pairSel (s : State) (u : PUnit) (k : Bool) : (setPoison s u k).pairSel = s.pairSel := rfl
@[simp] theorem setPoison_cabling (s : State) (u : PUnit) (k : Bool) : (setPoison s u k).cabling = s.cabling := rfl
@[simp] theorem setPoison_farPort (s : State) (u : PUnit) (k : Bool) : (setPoison s u k).farPort = s.farPort := rfl
@[simp] theorem setPoison_klink (s : State) (u : PUnit) (k : Bool) : (setPoison s u k).klink = s.klink := rfl
@[simp] theorem setPoison_spare (s : State) (u : PUnit) (k : Bool) : (setPoison s u k).spare = s.spare := rfl
@[simp] theorem setPoison_degraded (s : State) (u : PUnit) (k : Bool) : (setPoison s u k).degraded = s.degraded := rfl
@[simp] theorem setPoison_out (s : State) (u : PUnit) (k : Bool) : (setPoison s u k).out = s.out := rfl

/-! ### modInst -/

@[simp] theorem modInst_agenda (s : State) (n : Nat) (f : Instance → Instance) : (modInst s n f).agenda = s.agenda := rfl
@[simp] theorem modInst_tick (s : State) (n : Nat) (f : Instance → Instance) : (modInst s n f).tick = s.tick := rfl
@[simp] theorem modInst_focus (s : State) (n : Nat) (f : Instance → Instance) : (modInst s n f).focus = s.focus := rfl
@[simp] theorem modInst_ticks8 (s : State) (n : Nat) (f : Instance → Instance) : (modInst s n f).ticks8 = s.ticks8 := rfl
@[simp] theorem modInst_born (s : State) (n : Nat) (f : Instance → Instance) : (modInst s n f).born = s.born := rfl
@[simp] theorem modInst_grant (s : State) (n : Nat) (f : Instance → Instance) : (modInst s n f).grant = s.grant := rfl
@[simp] theorem modInst_capped (s : State) (n : Nat) (f : Instance → Instance) : (modInst s n f).capped = s.capped := rfl
@[simp] theorem modInst_raisedAt (s : State) (n : Nat) (f : Instance → Instance) : (modInst s n f).raisedAt = s.raisedAt := rfl
@[simp] theorem modInst_evalAt (s : State) (n : Nat) (f : Instance → Instance) : (modInst s n f).evalAt = s.evalAt := rfl
@[simp] theorem modInst_pcap (s : State) (n : Nat) (f : Instance → Instance) : (modInst s n f).pcap = s.pcap := rfl
@[simp] theorem modInst_mbcmd (s : State) (n : Nat) (f : Instance → Instance) : (modInst s n f).mbcmd = s.mbcmd := rfl
@[simp] theorem modInst_mbarg (s : State) (n : Nat) (f : Instance → Instance) : (modInst s n f).mbarg = s.mbarg := rfl
@[simp] theorem modInst_mbstat (s : State) (n : Nat) (f : Instance → Instance) : (modInst s n f).mbstat = s.mbstat := rfl
@[simp] theorem modInst_bootstat (s : State) (n : Nat) (f : Instance → Instance) : (modInst s n f).bootstat = s.bootstat := rfl
@[simp] theorem modInst_boot (s : State) (n : Nat) (f : Instance → Instance) : (modInst s n f).boot = s.boot := rfl
@[simp] theorem modInst_disabled (s : State) (n : Nat) (f : Instance → Instance) : (modInst s n f).disabled = s.disabled := rfl
@[simp] theorem modInst_cls (s : State) (n : Nat) (f : Instance → Instance) : (modInst s n f).cls = s.cls := rfl
@[simp] theorem modInst_dies (s : State) (n : Nat) (f : Instance → Instance) : (modInst s n f).dies = s.dies := rfl
@[simp] theorem modInst_parts (s : State) (n : Nat) (f : Instance → Instance) : (modInst s n f).parts = s.parts := rfl
@[simp] theorem modInst_nextInst (s : State) (n : Nat) (f : Instance → Instance) : (modInst s n f).nextInst = s.nextInst := rfl
@[simp] theorem modInst_teams (s : State) (n : Nat) (f : Instance → Instance) : (modInst s n f).teams = s.teams := rfl
@[simp] theorem modInst_nextTeam (s : State) (n : Nat) (f : Instance → Instance) : (modInst s n f).nextTeam = s.nextTeam := rfl
@[simp] theorem modInst_placeCount (s : State) (n : Nat) (f : Instance → Instance) : (modInst s n f).placeCount = s.placeCount := rfl
@[simp] theorem modInst_requests (s : State) (n : Nat) (f : Instance → Instance) : (modInst s n f).requests = s.requests := rfl
@[simp] theorem modInst_ipts (s : State) (n : Nat) (f : Instance → Instance) : (modInst s n f).ipts = s.ipts := rfl
@[simp] theorem modInst_ctr (s : State) (n : Nat) (f : Instance → Instance) : (modInst s n f).ctr = s.ctr := rfl
@[simp] theorem modInst_barriers (s : State) (n : Nat) (f : Instance → Instance) : (modInst s n f).barriers = s.barriers := rfl
@[simp] theorem modInst_recs (s : State) (n : Nat) (f : Instance → Instance) : (modInst s n f).recs = s.recs := rfl
@[simp] theorem modInst_transit (s : State) (n : Nat) (f : Instance → Instance) : (modInst s n f).transit = s.transit := rfl
@[simp] theorem modInst_mem (s : State) (n : Nat) (f : Instance → Instance) : (modInst s n f).mem = s.mem := rfl
@[simp] theorem modInst_poison (s : State) (n : Nat) (f : Instance → Instance) : (modInst s n f).poison = s.poison := rfl
@[simp] theorem modInst_tweaks (s : State) (n : Nat) (f : Instance → Instance) : (modInst s n f).tweaks = s.tweaks := rfl
@[simp] theorem modInst_tags (s : State) (n : Nat) (f : Instance → Instance) : (modInst s n f).tags = s.tags := rfl
@[simp] theorem modInst_kills (s : State) (n : Nat) (f : Instance → Instance) : (modInst s n f).kills = s.kills := rfl
@[simp] theorem modInst_spdm (s : State) (n : Nat) (f : Instance → Instance) : (modInst s n f).spdm = s.spdm := rfl
@[simp] theorem modInst_meas (s : State) (n : Nat) (f : Instance → Instance) : (modInst s n f).meas = s.meas := rfl
@[simp] theorem modInst_update (s : State) (n : Nat) (f : Instance → Instance) : (modInst s n f).update = s.update := rfl
@[simp] theorem modInst_handovers (s : State) (n : Nat) (f : Instance → Instance) : (modInst s n f).handovers = s.handovers := rfl
@[simp] theorem modInst_migs (s : State) (n : Nat) (f : Instance → Instance) : (modInst s n f).migs = s.migs := rfl
@[simp] theorem modInst_pairPeer (s : State) (n : Nat) (f : Instance → Instance) : (modInst s n f).pairPeer = s.pairPeer := rfl
@[simp] theorem modInst_pairMaster (s : State) (n : Nat) (f : Instance → Instance) : (modInst s n f).pairMaster = s.pairMaster := rfl
@[simp] theorem modInst_pairSet (s : State) (n : Nat) (f : Instance → Instance) : (modInst s n f).pairSet = s.pairSet := rfl
@[simp] theorem modInst_pairSel (s : State) (n : Nat) (f : Instance → Instance) : (modInst s n f).pairSel = s.pairSel := rfl
@[simp] theorem modInst_cabling (s : State) (n : Nat) (f : Instance → Instance) : (modInst s n f).cabling = s.cabling := rfl
@[simp] theorem modInst_farPort (s : State) (n : Nat) (f : Instance → Instance) : (modInst s n f).farPort = s.farPort := rfl
@[simp] theorem modInst_klink (s : State) (n : Nat) (f : Instance → Instance) : (modInst s n f).klink = s.klink := rfl
@[simp] theorem modInst_spare (s : State) (n : Nat) (f : Instance → Instance) : (modInst s n f).spare = s.spare := rfl
@[simp] theorem modInst_degraded (s : State) (n : Nat) (f : Instance → Instance) : (modInst s n f).degraded = s.degraded := rfl
@[simp] theorem modInst_out (s : State) (n : Nat) (f : Instance → Instance) : (modInst s n f).out = s.out := rfl

/-! ### modTeam -/

@[simp] theorem modTeam_agenda (s : State) (n : Nat) (f : Team → Team) : (modTeam s n f).agenda = s.agenda := rfl
@[simp] theorem modTeam_tick (s : State) (n : Nat) (f : Team → Team) : (modTeam s n f).tick = s.tick := rfl
@[simp] theorem modTeam_focus (s : State) (n : Nat) (f : Team → Team) : (modTeam s n f).focus = s.focus := rfl
@[simp] theorem modTeam_ticks8 (s : State) (n : Nat) (f : Team → Team) : (modTeam s n f).ticks8 = s.ticks8 := rfl
@[simp] theorem modTeam_born (s : State) (n : Nat) (f : Team → Team) : (modTeam s n f).born = s.born := rfl
@[simp] theorem modTeam_grant (s : State) (n : Nat) (f : Team → Team) : (modTeam s n f).grant = s.grant := rfl
@[simp] theorem modTeam_capped (s : State) (n : Nat) (f : Team → Team) : (modTeam s n f).capped = s.capped := rfl
@[simp] theorem modTeam_raisedAt (s : State) (n : Nat) (f : Team → Team) : (modTeam s n f).raisedAt = s.raisedAt := rfl
@[simp] theorem modTeam_evalAt (s : State) (n : Nat) (f : Team → Team) : (modTeam s n f).evalAt = s.evalAt := rfl
@[simp] theorem modTeam_pcap (s : State) (n : Nat) (f : Team → Team) : (modTeam s n f).pcap = s.pcap := rfl
@[simp] theorem modTeam_mbcmd (s : State) (n : Nat) (f : Team → Team) : (modTeam s n f).mbcmd = s.mbcmd := rfl
@[simp] theorem modTeam_mbarg (s : State) (n : Nat) (f : Team → Team) : (modTeam s n f).mbarg = s.mbarg := rfl
@[simp] theorem modTeam_mbstat (s : State) (n : Nat) (f : Team → Team) : (modTeam s n f).mbstat = s.mbstat := rfl
@[simp] theorem modTeam_bootstat (s : State) (n : Nat) (f : Team → Team) : (modTeam s n f).bootstat = s.bootstat := rfl
@[simp] theorem modTeam_boot (s : State) (n : Nat) (f : Team → Team) : (modTeam s n f).boot = s.boot := rfl
@[simp] theorem modTeam_disabled (s : State) (n : Nat) (f : Team → Team) : (modTeam s n f).disabled = s.disabled := rfl
@[simp] theorem modTeam_cls (s : State) (n : Nat) (f : Team → Team) : (modTeam s n f).cls = s.cls := rfl
@[simp] theorem modTeam_dies (s : State) (n : Nat) (f : Team → Team) : (modTeam s n f).dies = s.dies := rfl
@[simp] theorem modTeam_parts (s : State) (n : Nat) (f : Team → Team) : (modTeam s n f).parts = s.parts := rfl
@[simp] theorem modTeam_insts (s : State) (n : Nat) (f : Team → Team) : (modTeam s n f).insts = s.insts := rfl
@[simp] theorem modTeam_nextInst (s : State) (n : Nat) (f : Team → Team) : (modTeam s n f).nextInst = s.nextInst := rfl
@[simp] theorem modTeam_nextTeam (s : State) (n : Nat) (f : Team → Team) : (modTeam s n f).nextTeam = s.nextTeam := rfl
@[simp] theorem modTeam_placeCount (s : State) (n : Nat) (f : Team → Team) : (modTeam s n f).placeCount = s.placeCount := rfl
@[simp] theorem modTeam_requests (s : State) (n : Nat) (f : Team → Team) : (modTeam s n f).requests = s.requests := rfl
@[simp] theorem modTeam_ipts (s : State) (n : Nat) (f : Team → Team) : (modTeam s n f).ipts = s.ipts := rfl
@[simp] theorem modTeam_ctr (s : State) (n : Nat) (f : Team → Team) : (modTeam s n f).ctr = s.ctr := rfl
@[simp] theorem modTeam_barriers (s : State) (n : Nat) (f : Team → Team) : (modTeam s n f).barriers = s.barriers := rfl
@[simp] theorem modTeam_recs (s : State) (n : Nat) (f : Team → Team) : (modTeam s n f).recs = s.recs := rfl
@[simp] theorem modTeam_transit (s : State) (n : Nat) (f : Team → Team) : (modTeam s n f).transit = s.transit := rfl
@[simp] theorem modTeam_mem (s : State) (n : Nat) (f : Team → Team) : (modTeam s n f).mem = s.mem := rfl
@[simp] theorem modTeam_poison (s : State) (n : Nat) (f : Team → Team) : (modTeam s n f).poison = s.poison := rfl
@[simp] theorem modTeam_tweaks (s : State) (n : Nat) (f : Team → Team) : (modTeam s n f).tweaks = s.tweaks := rfl
@[simp] theorem modTeam_tags (s : State) (n : Nat) (f : Team → Team) : (modTeam s n f).tags = s.tags := rfl
@[simp] theorem modTeam_kills (s : State) (n : Nat) (f : Team → Team) : (modTeam s n f).kills = s.kills := rfl
@[simp] theorem modTeam_spdm (s : State) (n : Nat) (f : Team → Team) : (modTeam s n f).spdm = s.spdm := rfl
@[simp] theorem modTeam_meas (s : State) (n : Nat) (f : Team → Team) : (modTeam s n f).meas = s.meas := rfl
@[simp] theorem modTeam_update (s : State) (n : Nat) (f : Team → Team) : (modTeam s n f).update = s.update := rfl
@[simp] theorem modTeam_handovers (s : State) (n : Nat) (f : Team → Team) : (modTeam s n f).handovers = s.handovers := rfl
@[simp] theorem modTeam_migs (s : State) (n : Nat) (f : Team → Team) : (modTeam s n f).migs = s.migs := rfl
@[simp] theorem modTeam_pairPeer (s : State) (n : Nat) (f : Team → Team) : (modTeam s n f).pairPeer = s.pairPeer := rfl
@[simp] theorem modTeam_pairMaster (s : State) (n : Nat) (f : Team → Team) : (modTeam s n f).pairMaster = s.pairMaster := rfl
@[simp] theorem modTeam_pairSet (s : State) (n : Nat) (f : Team → Team) : (modTeam s n f).pairSet = s.pairSet := rfl
@[simp] theorem modTeam_pairSel (s : State) (n : Nat) (f : Team → Team) : (modTeam s n f).pairSel = s.pairSel := rfl
@[simp] theorem modTeam_cabling (s : State) (n : Nat) (f : Team → Team) : (modTeam s n f).cabling = s.cabling := rfl
@[simp] theorem modTeam_farPort (s : State) (n : Nat) (f : Team → Team) : (modTeam s n f).farPort = s.farPort := rfl
@[simp] theorem modTeam_klink (s : State) (n : Nat) (f : Team → Team) : (modTeam s n f).klink = s.klink := rfl
@[simp] theorem modTeam_spare (s : State) (n : Nat) (f : Team → Team) : (modTeam s n f).spare = s.spare := rfl
@[simp] theorem modTeam_degraded (s : State) (n : Nat) (f : Team → Team) : (modTeam s n f).degraded = s.degraded := rfl
@[simp] theorem modTeam_out (s : State) (n : Nat) (f : Team → Team) : (modTeam s n f).out = s.out := rfl

/-! ### modPart -/

@[simp] theorem modPart_agenda (s : State) (k : Nat) (f : Partition → Partition) : (modPart s k f).agenda = s.agenda := rfl
@[simp] theorem modPart_tick (s : State) (k : Nat) (f : Partition → Partition) : (modPart s k f).tick = s.tick := rfl
@[simp] theorem modPart_focus (s : State) (k : Nat) (f : Partition → Partition) : (modPart s k f).focus = s.focus := rfl
@[simp] theorem modPart_ticks8 (s : State) (k : Nat) (f : Partition → Partition) : (modPart s k f).ticks8 = s.ticks8 := rfl
@[simp] theorem modPart_born (s : State) (k : Nat) (f : Partition → Partition) : (modPart s k f).born = s.born := rfl
@[simp] theorem modPart_grant (s : State) (k : Nat) (f : Partition → Partition) : (modPart s k f).grant = s.grant := rfl
@[simp] theorem modPart_capped (s : State) (k : Nat) (f : Partition → Partition) : (modPart s k f).capped = s.capped := rfl
@[simp] theorem modPart_raisedAt (s : State) (k : Nat) (f : Partition → Partition) : (modPart s k f).raisedAt = s.raisedAt := rfl
@[simp] theorem modPart_evalAt (s : State) (k : Nat) (f : Partition → Partition) : (modPart s k f).evalAt = s.evalAt := rfl
@[simp] theorem modPart_pcap (s : State) (k : Nat) (f : Partition → Partition) : (modPart s k f).pcap = s.pcap := rfl
@[simp] theorem modPart_mbcmd (s : State) (k : Nat) (f : Partition → Partition) : (modPart s k f).mbcmd = s.mbcmd := rfl
@[simp] theorem modPart_mbarg (s : State) (k : Nat) (f : Partition → Partition) : (modPart s k f).mbarg = s.mbarg := rfl
@[simp] theorem modPart_mbstat (s : State) (k : Nat) (f : Partition → Partition) : (modPart s k f).mbstat = s.mbstat := rfl
@[simp] theorem modPart_bootstat (s : State) (k : Nat) (f : Partition → Partition) : (modPart s k f).bootstat = s.bootstat := rfl
@[simp] theorem modPart_boot (s : State) (k : Nat) (f : Partition → Partition) : (modPart s k f).boot = s.boot := rfl
@[simp] theorem modPart_disabled (s : State) (k : Nat) (f : Partition → Partition) : (modPart s k f).disabled = s.disabled := rfl
@[simp] theorem modPart_cls (s : State) (k : Nat) (f : Partition → Partition) : (modPart s k f).cls = s.cls := rfl
@[simp] theorem modPart_dies (s : State) (k : Nat) (f : Partition → Partition) : (modPart s k f).dies = s.dies := rfl
@[simp] theorem modPart_insts (s : State) (k : Nat) (f : Partition → Partition) : (modPart s k f).insts = s.insts := rfl
@[simp] theorem modPart_nextInst (s : State) (k : Nat) (f : Partition → Partition) : (modPart s k f).nextInst = s.nextInst := rfl
@[simp] theorem modPart_teams (s : State) (k : Nat) (f : Partition → Partition) : (modPart s k f).teams = s.teams := rfl
@[simp] theorem modPart_nextTeam (s : State) (k : Nat) (f : Partition → Partition) : (modPart s k f).nextTeam = s.nextTeam := rfl
@[simp] theorem modPart_placeCount (s : State) (k : Nat) (f : Partition → Partition) : (modPart s k f).placeCount = s.placeCount := rfl
@[simp] theorem modPart_requests (s : State) (k : Nat) (f : Partition → Partition) : (modPart s k f).requests = s.requests := rfl
@[simp] theorem modPart_ipts (s : State) (k : Nat) (f : Partition → Partition) : (modPart s k f).ipts = s.ipts := rfl
@[simp] theorem modPart_ctr (s : State) (k : Nat) (f : Partition → Partition) : (modPart s k f).ctr = s.ctr := rfl
@[simp] theorem modPart_barriers (s : State) (k : Nat) (f : Partition → Partition) : (modPart s k f).barriers = s.barriers := rfl
@[simp] theorem modPart_recs (s : State) (k : Nat) (f : Partition → Partition) : (modPart s k f).recs = s.recs := rfl
@[simp] theorem modPart_transit (s : State) (k : Nat) (f : Partition → Partition) : (modPart s k f).transit = s.transit := rfl
@[simp] theorem modPart_mem (s : State) (k : Nat) (f : Partition → Partition) : (modPart s k f).mem = s.mem := rfl
@[simp] theorem modPart_poison (s : State) (k : Nat) (f : Partition → Partition) : (modPart s k f).poison = s.poison := rfl
@[simp] theorem modPart_tweaks (s : State) (k : Nat) (f : Partition → Partition) : (modPart s k f).tweaks = s.tweaks := rfl
@[simp] theorem modPart_tags (s : State) (k : Nat) (f : Partition → Partition) : (modPart s k f).tags = s.tags := rfl
@[simp] theorem modPart_kills (s : State) (k : Nat) (f : Partition → Partition) : (modPart s k f).kills = s.kills := rfl
@[simp] theorem modPart_spdm (s : State) (k : Nat) (f : Partition → Partition) : (modPart s k f).spdm = s.spdm := rfl
@[simp] theorem modPart_meas (s : State) (k : Nat) (f : Partition → Partition) : (modPart s k f).meas = s.meas := rfl
@[simp] theorem modPart_update (s : State) (k : Nat) (f : Partition → Partition) : (modPart s k f).update = s.update := rfl
@[simp] theorem modPart_handovers (s : State) (k : Nat) (f : Partition → Partition) : (modPart s k f).handovers = s.handovers := rfl
@[simp] theorem modPart_migs (s : State) (k : Nat) (f : Partition → Partition) : (modPart s k f).migs = s.migs := rfl
@[simp] theorem modPart_pairPeer (s : State) (k : Nat) (f : Partition → Partition) : (modPart s k f).pairPeer = s.pairPeer := rfl
@[simp] theorem modPart_pairMaster (s : State) (k : Nat) (f : Partition → Partition) : (modPart s k f).pairMaster = s.pairMaster := rfl
@[simp] theorem modPart_pairSet (s : State) (k : Nat) (f : Partition → Partition) : (modPart s k f).pairSet = s.pairSet := rfl
@[simp] theorem modPart_pairSel (s : State) (k : Nat) (f : Partition → Partition) : (modPart s k f).pairSel = s.pairSel := rfl
@[simp] theorem modPart_cabling (s : State) (k : Nat) (f : Partition → Partition) : (modPart s k f).cabling = s.cabling := rfl
@[simp] theorem modPart_farPort (s : State) (k : Nat) (f : Partition → Partition) : (modPart s k f).farPort = s.farPort := rfl
@[simp] theorem modPart_klink (s : State) (k : Nat) (f : Partition → Partition) : (modPart s k f).klink = s.klink := rfl
@[simp] theorem modPart_spare (s : State) (k : Nat) (f : Partition → Partition) : (modPart s k f).spare = s.spare := rfl
@[simp] theorem modPart_degraded (s : State) (k : Nat) (f : Partition → Partition) : (modPart s k f).degraded = s.degraded := rfl
@[simp] theorem modPart_out (s : State) (k : Nat) (f : Partition → Partition) : (modPart s k f).out = s.out := rfl

end Sys2Proof.Machine
end

