-- ==== Sys2Proof/Laws/Issue.lean ====
section
/-!
SUPPORT. What issuing a word can do, once for all words: the state after a body that is done, jumps, goes into flight, waits,
traps or stops, and what it leaves alone.
-/

namespace Sys2Proof.Machine

/-! ## Passing a word keeps the body of the class -/

@[simp] theorem body_setWalker (k : ClassState) (e : Eng) (w : Walker) : (setWalker k e w).body = k.body := by
  cases e <;> rfl
@[simp] theorem body_prune (k : ClassState) : (prune k).body = k.body := rfl
theorem keepLoop_eq (k : ClassState) (e : Eng) (i : Instr) : ∃ b, keepLoop k e i = { k with loopBuf := b } := by
  unfold keepLoop; dsimp only; (repeat' split) <;> exact ⟨_, rfl⟩
@[simp] theorem body_keepLoop (k : ClassState) (e : Eng) (i : Instr) : (keepLoop k e i).body = k.body := by
  obtain ⟨b, h⟩ := keepLoop_eq k e i; rw [h]; rfl
@[simp] theorem body_passTo (k : ClassState) (e : Eng) (i : Instr) (n : Nat) : (passTo k e i n).body = k.body := by
  simp [passTo]
@[simp] theorem body_unpend (k : ClassState) (e : Eng) : (unpend k e).body = k.body := rfl
@[simp] theorem body_consume (k : ClassState) (e : Eng) (h : Hdr) : (consume k e h).body = k.body := by
  unfold consume; split <;> rfl
@[simp] theorem body_tagsDone (k : ClassState) (e : Eng) (h : Hdr) : (tagsDone k e h).body = k.body := by
  unfold tagsDone; split
  · exact body_consume k e h
  · exact body_consume k e h
@[simp] theorem body_tagsIssued (k : ClassState) (e : Eng) (h : Hdr) : (tagsIssued k e h).body = k.body := by
  unfold tagsIssued; split
  · exact body_consume k e h
  · exact body_consume k e h
@[simp] theorem body_noteResolved (k : ClassState) (b : Bool) (n : Nat) : (noteResolved k b n).body = k.body := by
  unfold noteResolved; split <;> rfl

/-! ## The walkers -/

@[simp] theorem walkerOf_setWalker (k : ClassState) (e : Eng) (w : Walker) : walkerOf (setWalker k e w) e = w := by
  cases e <;> rfl
theorem walkerOf_setWalker_ne (k : ClassState) (e e' : Eng) (w : Walker) (h : e' ≠ e) :
    walkerOf (setWalker k e w) e' = walkerOf k e' := by
  cases e <;> cases e' <;> first | rfl | exact absurd rfl h
@[simp] theorem walkerOf_prune (k : ClassState) (e : Eng) : walkerOf (prune k) e = walkerOf k e := by cases e <;> rfl
@[simp] theorem walkerOf_keepLoop (k : ClassState) (e e' : Eng) (i : Instr) :
    walkerOf (keepLoop k e i) e' = walkerOf k e' := by
  obtain ⟨b, h⟩ := keepLoop_eq k e i; rw [h]; cases e' <;> rfl
@[simp] theorem run_keepLoop (k : ClassState) (e : Eng) (i : Instr) : (keepLoop k e i).run = k.run := by
  obtain ⟨b, h⟩ := keepLoop_eq k e i; rw [h]
theorem walkerOf_passTo (k : ClassState) (e : Eng) (i : Instr) (n : Nat) :
    walkerOf (passTo k e i n) e = walkOn k.run (walkerOf k e) n := by
  simp [passTo]
theorem walkerOf_passTo_ne (k : ClassState) (e e' : Eng) (i : Instr) (n : Nat) (h : e' ≠ e) :
    walkerOf (passTo k e i n) e' = walkerOf k e' := by
  simp [passTo, walkerOf_setWalker_ne _ _ _ _ h]
@[simp] theorem walkerOf_unpend (k : ClassState) (e e' : Eng) : walkerOf (unpend k e) e' = walkerOf k e' := by
  cases e' <;> rfl
@[simp] theorem walkerOf_consume (k : ClassState) (e e' : Eng) (h : Hdr) :
    walkerOf (consume k e h) e' = walkerOf k e' := by
  unfold consume; split <;> cases e' <;> rfl
@[simp] theorem walkerOf_tagsDone (k : ClassState) (e e' : Eng) (h : Hdr) :
    walkerOf (tagsDone k e h) e' = walkerOf k e' := by
  have := walkerOf_consume k e e' h
  unfold tagsDone; split
  · rw [← this]; cases e' <;> rfl
  · exact this
@[simp] theorem walkerOf_tagsIssued (k : ClassState) (e e' : Eng) (h : Hdr) :
    walkerOf (tagsIssued k e h) e' = walkerOf k e' := by
  have := walkerOf_consume k e e' h
  unfold tagsIssued; split
  · rw [← this]; cases e' <;> rfl
  · exact this
@[simp] theorem walkerOf_noteResolved (k : ClassState) (b : Bool) (n : Nat) (e : Eng) :
    walkerOf (noteResolved k b n) e = walkerOf k e := by
  unfold noteResolved; split <;> [(cases e <;> rfl); rfl]

theorem run_of_body {k k' : ClassState} (h : k.body = k'.body) : k.run = k'.run := by
  have r := congrArg ClassState.run h
  exact r

/-! ## Tags -/

@[simp] theorem tok_passTo (k : ClassState) (e : Eng) (i : Instr) (n : Nat) : (passTo k e i n).tok = k.tok := by
  have h : ∀ k : ClassState, ∀ w, (setWalker k e w).tok = k.tok := fun k w => by cases e <;> rfl
  obtain ⟨b, hb⟩ := keepLoop_eq k e i
  simp only [passTo, prune, h, hb]
@[simp] theorem rsv_passTo (k : ClassState) (e : Eng) (i : Instr) (n : Nat) : (passTo k e i n).rsv = k.rsv := by
  have h : ∀ k : ClassState, ∀ w, (setWalker k e w).rsv = k.rsv := fun k w => by cases e <;> rfl
  obtain ⟨b, hb⟩ := keepLoop_eq k e i
  simp only [passTo, prune, h, hb]

theorem takenHere_congr {k k' : ClassState} (e : Eng) (h1 : k.taken = k'.taken) (h2 : k.run = k'.run)
    (h3 : walkerOf k e = walkerOf k' e) : takenHere k e = takenHere k' e := by
  unfold takenHere; rw [h1, h2, h3]

theorem tok_consume_congr {k k' : ClassState} (e : Eng) (h : Hdr) (h1 : k.taken = k'.taken) (h2 : k.run = k'.run)
    (h3 : walkerOf k e = walkerOf k' e) (h4 : k.tok = k'.tok) : (consume k e h).tok = (consume k' e h).tok := by
  unfold consume; rw [takenHere_congr e h1 h2 h3]
  split
  · exact h4
  · simp only [takeTokens]; rw [h4]
theorem rsv_consume (k : ClassState) (e : Eng) (h : Hdr) : (consume k e h).rsv = k.rsv := by
  unfold consume; split <;> rfl

theorem tok_tagsDone_congr {k k' : ClassState} (e : Eng) (h : Hdr) (h1 : k.taken = k'.taken) (h2 : k.run = k'.run)
    (h3 : walkerOf k e = walkerOf k' e) (h4 : k.tok = k'.tok) : (tagsDone k e h).tok = (tagsDone k' e h).tok := by
  have := tok_consume_congr e h h1 h2 h3 h4
  unfold tagsDone; split
  · simp only [addToken, tokens]; rw [this]
  · exact this
theorem rsv_tagsDone (k : ClassState) (e : Eng) (h : Hdr) : (tagsDone k e h).rsv = k.rsv := by
  unfold tagsDone; split
  · exact rsv_consume k e h
  · exact rsv_consume k e h

/-! ## A word that has issued and completed -/

/-- Every field of the class but those of `passTo` and the tags is what the effect left: what `finishDone` can do. -/
theorem finishDone_passed (i : Instr) (s : State) (c : Nat) (e : Eng) (n : Nat) (b : Option (Option BlockSig)) (r : Bool)
    (m : Nat) (hc : c < s.cls.length) :
    Passed i s
      (match b with
        | some x => modCls (finishDone (modCls s c fun k => noteResolved k r m) c e i n) c fun k => { k with block := x }
        | none => finishDone (modCls s c fun k => noteResolved k r m) c e i n) c e n := by
  have key : ∀ (g : ClassState → ClassState), (∀ k, (g k).body = k.body) → (∀ k e', walkerOf (g k) e' = walkerOf k e') →
      (∀ k, (g k).tok = k.tok) → (∀ k, (g k).rsv = k.rsv) →
      Passed i s (modCls s c fun k => g (passTo (tagsDone (unpend (noteResolved k r m) e) e (hdr i)) e i n)) c e n := by
    intro g gb gw gt gr
    have hr : ∀ k : ClassState, (noteResolved k r m).run = k.run ∧ (noteResolved k r m).taken = k.taken
        ∧ (noteResolved k r m).tok = k.tok ∧ (noteResolved k r m).rsv = k.rsv := fun k => by
      unfold noteResolved; split <;> simp
    refine ⟨⟨rfl, fun j hj => getCls_modCls_ne s c j _ hj, ?_⟩, ?_, fun e' he => ?_, ?_, ?_⟩
    · rw [getCls_modCls s c _ hc, gb]; simp
    · rw [getCls_modCls s c _ hc, gw, walkerOf_passTo]
      rw [show (tagsDone (unpend (noteResolved (getCls s c) r m) e) e (hdr i)).run = (getCls s c).run from
        run_of_body (by simp)]
      simp
    · rw [getCls_modCls s c _ hc, gw, walkerOf_passTo_ne _ _ _ _ _ he]; simp
    · rw [getCls_modCls s c _ hc, gt, tok_passTo]
      exact tok_tagsDone_congr e _ (hr _).2.1 (hr _).1 (by simp) (hr _).2.2.1
    · rw [getCls_modCls s c _ hc, gr, rsv_passTo, rsv_tagsDone]
      exact (hr _).2.2.2
  cases b with
  | none =>
    have := key id (fun _ => rfl) (fun _ _ => rfl) (fun _ => rfl) (fun _ => rfl)
    simpa [finishDone, modCls_modCls] using this
  | some x =>
    have := key (fun k => { k with block := x }) (fun _ => rfl) (fun _ e' => by cases e' <;> rfl) (fun _ => rfl) (fun _ => rfl)
    simpa [finishDone, modCls_modCls] using this

/-- A ready word: `runWord` carries out what its body came to, and for the S walker moves the block signature on. -/
theorem runWord_ready {i : Instr} {s : State} {c : Nat} {e : Eng} (R : Ready i s c e) (body : State → Res) :
    ∃ b : Option BlockSig, runWord i body s = .next
      (if e = .s ∧ (getCls (finish s c e i (body s)) c).ws.ord = (getCls s c).ws.ord + 1
            ∧ (getCls (finish s c e i (body s)) c).run = (getCls s c).run
       then modCls (finish s c e i (body s)) c fun k => { k with block := b }
       else finish s c e i (body s)) := by
  have hi : issue i body s c e = finish s c e i (body s) := by
    have hm : (if e = .m then (getCls s c).inflight.find? fun f => f.status == .again else none) = none := by
      split
      · exact R.once ‹_›
      · rfl
    simp [issue, R.notRetired, R.handler, hm, R.free]
  have hr : runWord i body s = .next (checked i s c e fun s => issue i body s c e) := by
    simp [runWord, R.focus, R.runs, R.walks, R.open_, R.owns]
  rw [hr]
  by_cases he : e = .s
  · subst he
    obtain ⟨b, hb⟩ := R.signed rfl
    refine ⟨some b, ?_⟩
    simp only [checked, hb, hi, true_and, if_true]
  · exact ⟨none, by simp [checked, he, hi]⟩

theorem passed_block {i : Instr} {s' t : State} {c n : Nat} {e : Eng} (b : Option BlockSig) (hc : c < t.cls.length)
    (h : Passed i s' t c e n) : Passed i s' (modCls t c fun k => { k with block := b }) c e n := by
  obtain ⟨⟨h1, h2, h3⟩, h4, h5, h6, h7⟩ := h
  have g := getCls_modCls t c (fun k => { k with block := b }) hc
  have w : ∀ e', walkerOf { getCls t c with block := b } e' = walkerOf (getCls t c) e' := fun e' => by cases e' <;> rfl
  refine ⟨⟨h1, fun j hj => ?_, ?_⟩, ?_, fun e' he => ?_, ?_, ?_⟩
  · rw [getCls_modCls_ne t c j _ hj, h2 j hj]
  · rw [g]; exact h3
  · rw [g, w]; exact h4
  · rw [g, w]; exact h5 e' he
  · rw [g]; exact h6
  · rw [g]; exact h7

@[simp] theorem length_modCls (s : State) (c : Nat) (f : ClassState → ClassState) : (modCls s c f).cls.length = s.cls.length := by
  simp [modCls]

/-- A word whose body is done passes to the next word, having had its effect. -/
theorem runWord_done {i : Instr} {s s' : State} {c : Nat} {e : Eng} (R : Ready i s c e) {body : State → Res}
    (hb : body s = .done s') (hc : c < s'.cls.length) :
    ∃ t, runWord i body s = .next t ∧ Passed i s' t c e ((walkerOf (getCls s c) e).wi + 1) := by
  obtain ⟨b, h⟩ := runWord_ready R body
  refine ⟨_, h, ?_⟩
  have p := finishDone_passed i s' c e ((walkerOf (getCls s c) e).wi + 1) none (resolvedByS i)
    ((walkerOf (getCls s c) e).wi + 1) hc
  simp only [hb, finish]
  split
  · exact passed_block b (by simp [finishDone, hc]) p
  · exact p

/-- A word whose body goes to word `n` passes to it, having had its effect. -/
theorem runWord_jump {i : Instr} {s s' : State} {c n : Nat} {e : Eng} (R : Ready i s c e) {body : State → Res}
    (hb : body s = .jump s' n) (hc : c < s'.cls.length) :
    ∃ t, runWord i body s = .next t ∧ Passed i s' t c e n := by
  obtain ⟨b, h⟩ := runWord_ready R body
  refine ⟨_, h, ?_⟩
  have p := finishDone_passed i s' c e n none (resolvedByS i) n hc
  simp only [hb, finish]
  split
  · exact passed_block b (by simp [finishDone, hc]) p
  · exact p

theorem tok_tagsIssued_congr {k k' : ClassState} (e : Eng) (h : Hdr) (h1 : k.taken = k'.taken) (h2 : k.run = k'.run)
    (h3 : walkerOf k e = walkerOf k' e) (h4 : k.tok = k'.tok) : (tagsIssued k e h).tok = (tagsIssued k' e h).tok := by
  have := tok_consume_congr e h h1 h2 h3 h4
  unfold tagsIssued; split <;> exact this
theorem rsv_tagsIssued_congr {k k' : ClassState} (e : Eng) (h : Hdr) (h1 : k.rsv = k'.rsv) :
    (tagsIssued k e h).rsv = (tagsIssued k' e h).rsv := by
  have a := rsv_consume k e h
  have b := rsv_consume k' e h
  unfold tagsIssued; split
  · simp only [addReserve, reserved]; rw [a, b, h1]
  · rw [a, b, h1]

/-- What going into flight as entry `f` changes of a class. -/
def EntersAs (i : Instr) (k : ClassState) (e : Eng) (f : InFlight) (g : ClassState → ClassState) : Prop :=
  (g k).body = ({ k with inflight := k.inflight ++ [f], nextId := k.nextId + 1, batch := []
                         seqNo := k.seqNo + BitVec.ofNat 16 (requests i f.ops) } : ClassState).body
    ∧ walkerOf (g k) e = (if isAcquire i then walkerOf k e else walkOn k.run (walkerOf k e) ((walkerOf k e).wi + 1))
    ∧ (∀ e', e' ≠ e → walkerOf (g k) e' = walkerOf k e')
    ∧ (g k).tok = (tagsIssued k e (hdr i)).tok ∧ (g k).rsv = (tagsIssued k e (hdr i)).rsv

/-- What `finishIssued` can do: the word stands in flight, its tags are taken and reserved, its walker has passed it unless it
is an acquire word; nothing else changes. -/
theorem finishIssued_eq (i : Instr) (s : State) (c : Nat) (e : Eng) (ops : List W64) (ms : List Move) (n : Nat) (gs : List Strip) :
    ∃ g : ClassState → ClassState, finishIssued s c e i ops ms n gs = modCls s c g
      ∧ EntersAs i (getCls s c) e { replayEntry i s c e ops ms with prog := n, segs := gs } g := by
  refine ⟨_, rfl, ?_⟩
  unfold EntersAs
  unfold replayEntry
  generalize getCls s c = k
  have hk : ∃ a b d l, tagsIssued (unpend k e) e (hdr i) = { k with tok := a, rsv := b, taken := d, pend := l } := by
    unfold tagsIssued consume unpend
    dsimp only
    (repeat' split) <;> exact ⟨_, _, _, _, rfl⟩
  have ht := tok_tagsIssued_congr (k := unpend k e) (k' := k) e (hdr i) rfl rfl (by simp) rfl
  have hv := rsv_tagsIssued_congr (k := unpend k e) (k' := k) e (hdr i) rfl
  obtain ⟨a, b, d, l, h⟩ := hk
  have wk : ∀ x y z : _, ∀ e', walkerOf ({ { k with tok := a, rsv := b, taken := d, pend := l } with
      inflight := x, nextId := y, seqNo := z, batch := [] } : ClassState) e' = walkerOf k e' := fun _ _ _ e' => by cases e' <;> rfl
  rw [h] at ht hv
  dsimp only at ht hv ⊢
  rw [h, ← ht, ← hv]
  split
  · exact ⟨rfl, wk _ _ _ e, fun e' _ => wk _ _ _ e', rfl, rfl⟩
  · refine ⟨by rw [body_passTo]; rfl, ?_, fun e' he => ?_, ?_, ?_⟩
    · rw [walkerOf_passTo, wk]
    · rw [walkerOf_passTo_ne _ _ _ _ _ he, wk]
    · rw [tok_passTo]
    · rw [rsv_passTo]

/-- A ready word that goes into flight as an entry. -/
theorem runWord_enters {i : Instr} {s s' : State} {c : Nat} {e : Eng} {f : InFlight} (R : Ready i s c e)
    {body : State → Res} {g : ClassState → ClassState} (fin : finish s c e i (body s) = modCls s' c g)
    (hg : EntersAs i (getCls s' c) e f g) (hc : c < s'.cls.length)
    (hx : ∀ x, exec i x = runWord i body x) : IssuesAs i s c e s' f := by
  obtain ⟨b, h⟩ := runWord_ready R body
  obtain ⟨h1, h2, h3, h4, h5⟩ := hg
  have one : ∀ t, t = modCls s' c g ∨ t = modCls (modCls s' c g) c (fun k => { k with block := b }) →
      exec i s = .next t → IssuesAs i s c e s' f := by
    intro t ht he
    have gc : (getCls t c).body = (g (getCls s' c)).body ∧ (∀ e', walkerOf (getCls t c) e' = walkerOf (g (getCls s' c)) e')
        ∧ (getCls t c).tok = (g (getCls s' c)).tok ∧ (getCls t c).rsv = (g (getCls s' c)).rsv
        ∧ (∀ j, j ≠ c → getCls t j = getCls s' j) ∧ { t with cls := [] } = { s' with cls := [] } := by
      rcases ht with rfl | rfl
      · rw [getCls_modCls s' c g hc]
        exact ⟨rfl, fun _ => rfl, rfl, rfl, fun j hj => getCls_modCls_ne s' c j g hj, rfl⟩
      · rw [getCls_modCls _ c _ (by simpa using hc), getCls_modCls s' c g hc]
        refine ⟨rfl, fun e' => by cases e' <;> rfl, rfl, rfl, fun j hj => ?_, rfl⟩
        rw [getCls_modCls_ne _ c j _ hj, getCls_modCls_ne s' c j g hj]
    obtain ⟨g1, g2, g3, g4, g5, g6⟩ := gc
    refine ⟨t, he, ⟨g6, fun j hj => ?_, ?_⟩, ?_, fun e' he' => ?_, ?_, ?_⟩
    · rw [g5 j hj, getCls_modCls_ne _ c j _ hj]
    · rw [g1, h1, getCls_modCls s' c _ hc]
    · rw [g2, h2]
    · rw [g2, h3 e' he']
    · rw [g3, h4]
    · rw [g4, h5]
  rw [← hx s, fin] at h
  split at h
  · exact one _ (Or.inr rfl) h
  · exact one _ (Or.inl rfl) h

/-- A ready word that goes into flight. -/
theorem runWord_async {i : Instr} {s s' : State} {c : Nat} {e : Eng} {ops : List W64} {ms : List Move} (R : Ready i s c e)
    {body : State → Res} (hb : body s = .async s' ops ms) (hc : c < s'.cls.length)
    (hx : ∀ x, exec i x = runWord i body x) : IssuesWith i s c e s' ops ms := by
  obtain ⟨g, hg, he⟩ := finishIssued_eq i s' c e ops ms 0 []
  exact runWord_enters R (by rw [hb]; exact hg) he hc hx

/-- A ready word whose first pass over the towers is done as it issues (R416). -/
theorem runWord_paced {i : Instr} {s s' : State} {c : Nat} {e : Eng} {ops : List W64} {gs : List Strip} (R : Ready i s c e)
    {body : State → Res} (hb : body s = .paced s' ops gs) (hc : c < s'.cls.length)
    (hx : ∀ x, exec i x = runWord i body x) : IssuesPaced i s c e s' ops gs := by
  obtain ⟨g, hg, he⟩ := finishIssued_eq i s' c e ops [] 1 gs
  exact runWord_enters R (by rw [hb]; exact hg) he hc hx

/-- A ready word of an engine other than S that raises a cause before issue. -/
theorem runWord_trap {i : Instr} {s : State} {c code : Nat} {tinfo : W64} {e : Eng} (R : Ready i s c e) (he : e ≠ .s)
    {body : State → Res} (hb : body s = .trap code tinfo) : runWord i body s = .next (trapAt s c e code tinfo) := by
  obtain ⟨b, h⟩ := runWord_ready R body
  rw [h, hb]; simp [finish, he]

/-- Naming a cause leaves the walkers alone. -/
theorem setCause_ws (s : State) (c code : Nat) (e : BitVec 3) (ord : Nat) (tinfo : W64) (j : Nat) :
    (getCls (setCause s c code e ord tinfo) j).ws = (getCls s j).ws := by
  unfold setCause modCls getCls
  simp only [List.getD_eq_getElem?_getD, List.getElem?_modify]
  cases s.cls[j]? with
  | none => rfl
  | some k => by_cases h : c = j <;> simp [h]
theorem controlFlowFault_ws (s : State) (c addr : Nat) (crc : BitVec 16) (j : Nat) :
    (getCls (controlFlowFault s c addr crc) j).ws = (getCls s j).ws := by
  rw [← setCause_ws s c 0x22 0 (getCls s c).ws.ord (BitVec.ofNat 64 addr) j]
  simp only [controlFlowFault, killOn]
  split <;> rfl

/-- Taking a cause never moves the S walker on to the next position. -/
theorem takeCause_ord (s : State) (c : Nat) (x : Cause) (hc : c < s.cls.length) :
    (getCls (takeCause s c x) c).ws.ord ≠ (getCls s c).ws.ord + 1 := by
  simp only [takeCause]
  generalize h1 : modCls (setCause s c _ _ _ _) c _ = s1
  have hl : c < s1.cls.length := by subst h1; simpa [setCause] using hc
  have hw : (getCls s1 c).ws = (getCls s c).ws := by
    subst h1
    rw [getCls_modCls _ _ _ (by simpa [setCause] using hc)]
    exact setCause_ws ..
  split
  · rw [getCls_modCls _ _ _ (show c < (causeEvent s1 c).cls.length from hl), ← hw]
    exact (by omega : (getCls s1 c).ws.ord ≠ (getCls s1 c).ws.ord + 1)
  · split
    · rw [controlFlowFault_ws, hw]; omega
    · rw [getCls_modCls _ _ _ hl]; exact (by omega : (0 : Nat) ≠ _ + 1)

/-- Forgetting the index lists leaves the S walker alone. -/
theorem forgetLists_ws (k : ClassState) : (forgetLists k).ws = k.ws := by
  unfold forgetLists; split <;> rfl

/-- A cause before issue never moves the S walker on to the next position. -/
theorem trapAt_ord (s : State) (c : Nat) (e : Eng) (code : Nat) (tinfo : W64) (hm : (getCls s c).hmode = false)
    (hc : c < s.cls.length) : (getCls (trapAt s c e code tinfo) c).ws.ord ≠ (getCls s c).ws.ord + 1 := by
  simp only [trapAt, hm, enterTrap, Bool.false_eq_true, if_false]
  split
  · have := takeCause_ord (modCls s c forgetLists) c ⟨BitVec.ofNat 8 code, some e, (walkerOf (getCls s c) e).ord, tinfo, none⟩
      (by simpa using hc)
    rwa [getCls_modCls s c _ hc, forgetLists_ws] at this
  · exact takeCause_ord s c _ hc

/-- A ready word outside a handler that raises a cause before issue, at any walker. -/
theorem runWord_trap_outside {i : Instr} {s : State} {c code : Nat} {tinfo : W64} {e : Eng} (R : Ready i s c e)
    (hm : (getCls s c).hmode = false) {body : State → Res} (hb : body s = .trap code tinfo) :
    runWord i body s = .next (trapAt s c e code tinfo) := by
  obtain ⟨b, h⟩ := runWord_ready R body
  have := trapAt_ord s c e code tinfo hm R.inRange
  rw [h, hb]; simp [finish, this]

/-- A word of an engine other than S whose body neither issues nor waits. -/
theorem runWord_stop {i : Instr} {s s' : State} {c : Nat} {e : Eng} (R : Ready i s c e) (he : e ≠ .s) {body : State → Res}
    (hb : body s = .stop s') : runWord i body s = .next s' := by
  obtain ⟨b, h⟩ := runWord_ready R body
  rw [h, hb]; simp [finish, he]

/-- A word on a timetable processor. -/
theorem runWord_fw {i : Instr} {s : State} {d : Nat} (body : State → Res) (h : s.focus = .fw d) :
    runWord i body s = .next (fwIssue body s d) := by
  simp [runWord, h]

/-- A ready word whose body waits leaves the machine as it is. -/
theorem runWord_stall {i : Instr} {s : State} {c : Nat} {e : Eng} (R : Ready i s c e) {body : State → Res}
    (hb : body s = .stall) : runWord i body s = .next s := by
  obtain ⟨b, h⟩ := runWord_ready R body
  rw [h, hb]; simp [finish]

end Sys2Proof.Machine
end

