-- ==== Sys2Proof/Laws/Table.lean ====
section
/-!
SUPPORT. The canonical form of tables and of memory: every operation keeps it, and reading after writing.
-/

namespace Sys2Proof.Machine

variable {α : Type}

/-! ## The canonical form -/

theorem twfFrom_mono [DecidableEq α] (d : α) {lo hi : Nat} (h : lo ≤ hi) :
    ∀ t : Tbl α, twfFrom d hi t = true → twfFrom d lo t = true
  | [], _ => rfl
  | (k, v) :: t, hw => by
    simp only [twfFrom, Bool.and_eq_true, decide_eq_true_eq] at hw ⊢
    exact ⟨⟨le_trans h hw.1.1, hw.1.2⟩, hw.2⟩

theorem twfFrom_filter [DecidableEq α] (d : α) (p : Nat × α → Bool) :
    ∀ (lo : Nat) (t : Tbl α), twfFrom d lo t = true → twfFrom d lo (t.filter p) = true
  | _, [], _ => rfl
  | lo, (k, v) :: t, hw => by
    simp only [twfFrom, Bool.and_eq_true, decide_eq_true_eq] at hw
    have ih := twfFrom_filter d p (k + 1) t hw.2
    simp only [List.filter_cons]
    split
    · simp only [twfFrom, Bool.and_eq_true, decide_eq_true_eq]
      exact ⟨hw.1, ih⟩
    · exact twfFrom_mono d (by omega) _ ih

theorem twf_filter [DecidableEq α] (d : α) (p : Nat × α → Bool) (t : Tbl α) (h : twf d t = true) :
    twf d (t.filter p) = true := twfFrom_filter d p 0 t h

theorem twf_tdrop [DecidableEq α] (d : α) (p : Nat → Bool) (t : Tbl α) (h : twf d t = true) :
    twf d (tdrop p t) = true := twf_filter d _ t h

theorem twfFrom_tput [DecidableEq α] (d : α) (k : Nat) (v : α) (hv : v ≠ d) :
    ∀ (lo : Nat) (t : Tbl α), lo ≤ k → twfFrom d lo t = true → twfFrom d lo (tput t k v) = true
  | lo, [], hk, _ => by simp [tput, twfFrom, hk, hv]
  | lo, (j, w) :: t, hk, hw => by
    simp only [twfFrom, Bool.and_eq_true, decide_eq_true_eq] at hw
    simp only [tput]
    split
    · rename_i h
      simp only [twfFrom, Bool.and_eq_true, decide_eq_true_eq]
      exact ⟨⟨hk, hv⟩, ⟨⟨h, hw.1.2⟩, hw.2⟩⟩
    · split
      · rename_i h
        subst h
        simp only [twfFrom, Bool.and_eq_true, decide_eq_true_eq]
        exact ⟨⟨hk, hv⟩, hw.2⟩
      · simp only [twfFrom, Bool.and_eq_true, decide_eq_true_eq]
        exact ⟨hw.1, twfFrom_tput d k v hv (j + 1) t (by omega) hw.2⟩

theorem twfFrom_tdel [DecidableEq α] (d : α) (k : Nat) :
    ∀ (lo : Nat) (t : Tbl α), twfFrom d lo t = true → twfFrom d lo (tdel t k) = true
  | _, [], _ => rfl
  | lo, (j, w) :: t, hw => by
    simp only [twfFrom, Bool.and_eq_true, decide_eq_true_eq] at hw
    simp only [tdel]
    split
    · exact twfFrom_mono d (by omega) _ (twfFrom_tdel d k (j + 1) t hw.2)
    · simp only [twfFrom, Bool.and_eq_true, decide_eq_true_eq]
      exact ⟨hw.1, twfFrom_tdel d k (j + 1) t hw.2⟩

theorem twf_tset [DecidableEq α] (d : α) (t : Tbl α) (k : Nat) (v : α) (h : twf d t = true) :
    twf d (tset d t k v) = true := by
  unfold tset; split
  · exact twfFrom_tdel d k 0 t h
  · rename_i hv; exact twfFrom_tput d k v hv 0 t (Nat.zero_le _) h

/-- Lists put one after another: the first ends before the second begins. -/
theorem twfFrom_append [DecidableEq α] (d : α) (mid : Nat) :
    ∀ (lo : Nat) (t u : Tbl α), twfFrom d lo t = true → (∀ e ∈ t, e.1 < mid) → lo ≤ mid → twfFrom d mid u = true →
      twfFrom d lo (t ++ u) = true
  | lo, [], u, _, _, h, hu => twfFrom_mono d h u hu
  | lo, (k, v) :: t, u, hw, hm, _, hu => by
    simp only [twfFrom, Bool.and_eq_true, decide_eq_true_eq, List.cons_append] at hw ⊢
    exact ⟨hw.1, twfFrom_append d mid (k + 1) t u hw.2 (fun e he => hm e (List.mem_cons_of_mem _ he))
      (hm (k, v) List.mem_cons_self) hu⟩

theorem twfFrom_tcells [DecidableEq α] (d : α) : ∀ (a : Nat) (vs : List α), twfFrom d a (tcells d a vs) = true
  | _, [] => rfl
  | a, v :: vs => by
    have ih := twfFrom_tcells d (a + 1) vs
    simp only [tcells]; split
    · exact twfFrom_mono d (by omega) _ ih
    · rename_i hv
      simp only [twfFrom, Bool.and_eq_true, decide_eq_true_eq]
      exact ⟨⟨le_refl _, hv⟩, ih⟩

theorem tcells_lt [DecidableEq α] (d : α) : ∀ (a : Nat) (vs : List α), ∀ e ∈ tcells d a vs, e.1 < a + vs.length
  | _, [], e, he => by simp [tcells] at he
  | a, v :: vs, e, he => by
    simp only [tcells] at he
    split at he
    · have := tcells_lt d (a + 1) vs e he
      simp only [List.length_cons]; omega
    · rcases List.mem_cons.mp he with rfl | he
      · simp
      · have := tcells_lt d (a + 1) vs e he
        simp only [List.length_cons]; omega

theorem twfFrom_takeWhile [DecidableEq α] (d : α) (p : Nat × α → Bool) :
    ∀ (lo : Nat) (t : Tbl α), twfFrom d lo t = true → twfFrom d lo (t.takeWhile p) = true
  | _, [], _ => rfl
  | lo, (k, v) :: t, hw => by
    simp only [twfFrom, Bool.and_eq_true, decide_eq_true_eq] at hw
    simp only [List.takeWhile_cons]
    split
    · simp only [twfFrom, Bool.and_eq_true, decide_eq_true_eq]
      exact ⟨hw.1, twfFrom_takeWhile d p (k + 1) t hw.2⟩
    · rfl

/-- What is left from `n` on of a canonical table is canonical from `n`. -/
theorem twfFrom_dropWhile_lt [DecidableEq α] (d : α) (n : Nat) :
    ∀ (lo : Nat) (t : Tbl α), twfFrom d lo t = true → twfFrom d n (t.dropWhile fun e => decide (e.1 < n)) = true
  | _, [], _ => rfl
  | lo, (k, v) :: t, hw => by
    simp only [twfFrom, Bool.and_eq_true, decide_eq_true_eq] at hw
    simp only [List.dropWhile_cons]
    split
    · exact twfFrom_dropWhile_lt d n (k + 1) t hw.2
    · rename_i h
      simp only [decide_eq_true_eq, not_lt] at h
      simp only [twfFrom, Bool.and_eq_true, decide_eq_true_eq]
      exact ⟨⟨h, hw.1.2⟩, hw.2⟩

theorem twf_tsetN [DecidableEq α] (d : α) (t : Tbl α) (a : Nat) (vs : List α) (h : twf d t = true) :
    twf d (tsetN d t a vs) = true := by
  unfold tsetN twf
  rw [List.append_assoc]
  refine twfFrom_append d a 0 _ _ (twfFrom_takeWhile d _ 0 t h) (fun e he => ?_) (Nat.zero_le _) ?_
  · have := List.mem_takeWhile_imp he
    simpa using this
  · exact twfFrom_append d (a + vs.length) a _ _ (twfFrom_tcells d a vs) (tcells_lt d a vs) (by omega)
      (twfFrom_dropWhile_lt d _ a _ (twfFrom_dropWhile_lt d a 0 t h))

/-! ## Reading -/

theorem tget_of_lt [DecidableEq α] (d : α) :
    ∀ (lo : Nat) (t : Tbl α) (k : Nat), twfFrom d lo t = true → k < lo → tget d t k = d
  | _, [], _, _, _ => rfl
  | lo, (j, v) :: t, k, hw, hk => by
    simp only [twfFrom, Bool.and_eq_true, decide_eq_true_eq] at hw
    simp only [tget]
    rw [if_neg (by omega)]
    exact tget_of_lt d (j + 1) t k hw.2 (by omega)

theorem tget_tput (d : α) (k : Nat) (v : α) : ∀ (t : Tbl α) (j : Nat), tget d (tput t k v) j = if k = j then v else tget d t j
  | [], j => by simp [tput, tget]
  | (i, w) :: t, j => by
    simp only [tput]
    split
    · simp only [tget]
    · split
      · rename_i h; subst h; simp only [tget]; split <;> simp_all
      · rename_i h1 h2
        simp only [tget, tget_tput d k v t j]
        split
        · rename_i h; subst h; rw [if_neg h2]
        · rfl

theorem tget_tdel (d : α) (k : Nat) :
    ∀ (t : Tbl α) (j : Nat), tget d (tdel t k) j = if k = j then d else tget d t j
  | [], j => by simp [tdel, tget]
  | (i, w) :: t, j => by
    have ih := tget_tdel d k t j
    simp only [tdel]
    split
    · rename_i h
      rw [ih]
      split
      · rfl
      · rename_i hk; simp only [tget]; rw [if_neg (h ▸ hk)]
    · rename_i h1
      simp only [tget, ih]
      split
      · rename_i h; subst h; rw [if_neg (Ne.symm h1)]
      · rfl

/-- Reading after a write of one entry, in any table. -/
@[simp] theorem tget_tset [DecidableEq α] (d : α) (t : Tbl α) (k j : Nat) (v : α) :
    tget d (tset d t k v) j = if k = j then v else tget d t j := by
  unfold tset; split
  · rename_i hv; rw [tget_tdel d k t j, hv]
  · exact tget_tput d k v t j

theorem tget_append (d : α) :
    ∀ (t u : Tbl α) (k : Nat), tget d (t ++ u) k = if k ∈ t.map Prod.fst then tget d t k else tget d u k
  | [], u, k => by simp
  | (j, v) :: t, u, k => by
    simp only [List.cons_append, tget, tget_append d t u k, List.map_cons, List.mem_cons]
    by_cases h : j = k
    · simp [h]
    · have h' : ¬k = j := fun e => h e.symm
      simp only [h, h', if_false, false_or]

theorem tget_tcells [DecidableEq α] (d : α) :
    ∀ (a : Nat) (vs : List α) (k : Nat), tget d (tcells d a vs) k = if a ≤ k then vs.getD (k - a) d else d
  | a, [], k => by simp [tcells, tget]
  | a, v :: vs, k => by
    have ih := tget_tcells d (a + 1) vs k
    simp only [tcells]
    split
    · rename_i hv
      rw [ih]
      by_cases h : a = k
      · subst h; simp [hv]
      · by_cases h' : a ≤ k
        · rw [if_pos (by omega), if_pos h', show k - a = (k - (a + 1)) + 1 by omega]; simp
        · rw [if_neg (by omega), if_neg h']
    · simp only [tget, ih]
      by_cases h : a = k
      · subst h; simp
      · rw [if_neg h]
        by_cases h' : a ≤ k
        · rw [if_pos (by omega), if_pos h', show k - a = (k - (a + 1)) + 1 by omega]; simp
        · rw [if_neg (by omega), if_neg h']

theorem tget_takeWhile_lt [DecidableEq α] (d : α) (a : Nat) :
    ∀ (lo : Nat) (t : Tbl α) (k : Nat), twfFrom d lo t = true →
      tget d (t.takeWhile fun e => decide (e.1 < a)) k = if k < a then tget d t k else d
  | _, [], k, _ => by simp [tget]
  | lo, (j, v) :: t, k, hw => by
    simp only [twfFrom, Bool.and_eq_true, decide_eq_true_eq] at hw
    simp only [List.takeWhile_cons]
    split
    · rename_i h
      simp only [decide_eq_true_eq] at h
      simp only [tget, tget_takeWhile_lt d a (j + 1) t k hw.2]
      split
      · rename_i h'; subst h'; rw [if_pos h]
      · rfl
    · rename_i h
      simp only [decide_eq_true_eq, not_lt] at h
      simp only [tget]
      split
      · rw [if_neg (by omega)]
        exact (tget_of_lt d (j + 1) t k hw.2 (by omega)).symm
      · rfl

theorem tget_dropWhile_lt [DecidableEq α] (d : α) (a : Nat) :
    ∀ (lo : Nat) (t : Tbl α) (k : Nat), twfFrom d lo t = true →
      tget d (t.dropWhile fun e => decide (e.1 < a)) k = if k < a then d else tget d t k
  | _, [], k, _ => by simp [tget]
  | lo, (j, v) :: t, k, hw => by
    simp only [twfFrom, Bool.and_eq_true, decide_eq_true_eq] at hw
    simp only [List.dropWhile_cons]
    split
    · rename_i h
      simp only [decide_eq_true_eq] at h
      rw [tget_dropWhile_lt d a (j + 1) t k hw.2]
      simp only [tget]
      split
      · rfl
      · rw [if_neg (by omega)]
    · rename_i h
      simp only [decide_eq_true_eq, not_lt] at h
      split
      · exact tget_of_lt d j _ k (by simp [twfFrom, hw.1.2, hw.2]) (by omega)
      · rfl

theorem not_mem_of_tget [DecidableEq α] (d : α) :
    ∀ (lo : Nat) (t : Tbl α) (k : Nat), twfFrom d lo t = true → tget d t k = d → k ∉ t.map Prod.fst
  | _, [], _, _, _ => by simp
  | lo, (j, v) :: t, k, hw, hg => by
    simp only [twfFrom, Bool.and_eq_true, decide_eq_true_eq] at hw
    simp only [tget] at hg
    split at hg
    · exact absurd hg hw.1.2
    · rename_i h
      simp only [List.map_cons, List.mem_cons, not_or]
      exact ⟨Ne.symm h, not_mem_of_tget d (j + 1) t k hw.2 hg⟩

/-- Reading after consecutive writes, in a canonical table. -/
theorem tget_tsetN [DecidableEq α] (d : α) (t : Tbl α) (a : Nat) (vs : List α) (k : Nat) (h : twf d t = true) :
    tget d (tsetN d t a vs) k = if a ≤ k ∧ k < a + vs.length then vs.getD (k - a) d else tget d t k := by
  have h1 := twfFrom_takeWhile d (fun e => decide (e.1 < a)) 0 t h
  have h2 := twfFrom_tcells d a vs
  have h3 := twfFrom_dropWhile_lt d a 0 t h
  unfold tsetN
  rw [List.append_assoc, tget_append]
  by_cases hm : k ∈ (t.takeWhile fun e => decide (e.1 < a)).map Prod.fst
  · rw [if_pos hm, tget_takeWhile_lt d a 0 t k h]
    have hk : k < a := by
      obtain ⟨e, he, rfl⟩ := List.mem_map.mp hm
      simpa using List.mem_takeWhile_imp he
    rw [if_pos hk, if_neg (by omega)]
  · rw [if_neg hm, tget_append]
    have lowk : k < a → tget d t k = d := fun hk => by
      by_contra hne
      apply hm
      have := tget_takeWhile_lt d a 0 t k h
      rw [if_pos hk] at this
      by_contra hn
      have hd : ∀ (u : Tbl α), k ∉ u.map Prod.fst → tget d u k = d := by
        intro u
        induction u with
        | nil => intro _; rfl
        | cons e u ih =>
          intro hu
          simp only [List.map_cons, List.mem_cons, not_or] at hu
          obtain ⟨j, w⟩ := e
          simp only [tget]
          rw [if_neg (Ne.symm hu.1)]
          exact ih hu.2
      exact hne (this ▸ hd _ hn)
    by_cases hc : k ∈ (tcells d a vs).map Prod.fst
    · obtain ⟨e, he, rfl⟩ := List.mem_map.mp hc
      have hlt := tcells_lt d a vs e he
      have hge : a ≤ e.1 := by
        by_contra hn
        have := tget_of_lt d a _ e.1 h2 (by omega)
        exact not_mem_of_tget d a _ e.1 h2 this (List.mem_map.mpr ⟨e, he, rfl⟩)
      rw [if_pos hc, tget_tcells, if_pos hge, if_pos ⟨hge, hlt⟩]
    · rw [if_neg hc, tget_dropWhile_lt d (a + vs.length) a _ k h3, tget_dropWhile_lt d a 0 t k h]
      by_cases hin : a ≤ k ∧ k < a + vs.length
      · rw [if_pos hin.2, if_pos hin]
        have hz := tget_tcells d a vs k
        rw [if_pos hin.1] at hz
        have hd : ∀ (u : Tbl α), k ∉ u.map Prod.fst → tget d u k = d := by
          intro u
          induction u with
          | nil => intro _; rfl
          | cons e u ih =>
            intro hu
            simp only [List.map_cons, List.mem_cons, not_or] at hu
            obtain ⟨j, w⟩ := e
            simp only [tget]
            rw [if_neg (Ne.symm hu.1)]
            exact ih hu.2
        rw [← hz, hd _ hc]
      · rw [if_neg hin]
        by_cases hk : k < a
        · rw [if_pos (by omega), lowk hk]
        · rw [if_neg (by omega), if_neg hk]

/-- Walking a table from `a` reads entry by entry. -/
theorem twalk_eq [DecidableEq α] (d : α) :
    ∀ (n a : Nat) (t : Tbl α), twfFrom d a t = true → twalk d n a t = (List.range n).map fun j => tget d t (a + j)
  | 0, _, _, _ => rfl
  | n + 1, a, [], _ => by
    have ih := twalk_eq d n (a + 1) [] rfl
    simp only [twalk, ih, List.range_succ_eq_map, tget, List.map_cons, List.map_map, Function.comp_def]
  | n + 1, a, (k, v) :: t, hw => by
    simp only [twfFrom, Bool.and_eq_true, decide_eq_true_eq] at hw
    simp only [twalk]
    split
    · rename_i h
      subst h
      rw [twalk_eq d n (k + 1) t hw.2, List.range_succ_eq_map]
      simp only [List.map_cons, List.map_map, tget, Nat.add_zero, if_true]
      congr 1
      apply List.map_congr_left
      intro j _
      simp only [Function.comp, Nat.succ_eq_add_one]
      rw [if_neg (by omega)]
      congr 1; omega
    · rename_i h
      have hw' : twfFrom d (a + 1) ((k, v) :: t) = true := by
        simp only [twfFrom, Bool.and_eq_true, decide_eq_true_eq]
        exact ⟨⟨by omega, hw.1.2⟩, hw.2⟩
      rw [twalk_eq d n (a + 1) _ hw', List.range_succ_eq_map]
      simp only [List.map_cons, List.map_map, Nat.add_zero]
      congr 1
      · simp only [tget]; rw [if_neg h, tget_of_lt d (k + 1) t a hw.2 (by omega)]
      · apply List.map_congr_left
        intro j _
        simp only [Function.comp, Nat.succ_eq_add_one]
        congr 1; omega

/-- Reading consecutive entries of a canonical table. -/
theorem tgetN_eq [DecidableEq α] (d : α) (t : Tbl α) (a n : Nat) (h : twf d t = true) :
    tgetN d t a n = (List.range n).map fun j => tget d t (a + j) := by
  unfold tgetN
  rw [twalk_eq d n a _ (twfFrom_dropWhile_lt d a 0 t h)]
  apply List.map_congr_left
  intro j _
  rw [tget_dropWhile_lt d a 0 t _ h, if_neg (by omega)]

end Sys2Proof.Machine
end

