-- ==== Sys2Proof/Laws/Focus.lean ====
section
/-!
SUPPORT. What the accessors of "whoever executes" are when a walker of a class executes: the class's own registers, and the
lemmas that a ready word of the S walker needs.
-/

namespace Sys2Proof.Machine

theorem focusCls_cls {s : State} {c : Nat} {e : Eng} (h : s.focus = .cls c e) : focusCls s = c := by simp [focusCls, h]
theorem me_cls {s : State} {c : Nat} {e : Eng} (h : s.focus = .cls c e) : me s = getCls s c := by simp [me, focusCls, h]
theorem modMe_cls {s : State} {c : Nat} {e : Eng} (h : s.focus = .cls c e) (f : ClassState → ClassState) :
    modMe s f = modCls s c f := by simp [modMe, focusCls, h]
theorem sget_cls {s : State} {c : Nat} {e : Eng} (h : s.focus = .cls c e) (n : BitVec 5) : sget s n = regS s c n := by
  simp [sget, regS, h]
theorem sset_cls {s : State} {c : Nat} {e : Eng} (h : s.focus = .cls c e) (n : BitVec 5) (v : W64) :
    sset s n v = withS s c n v := by
  simp only [sset, withS, h, setS, BitVec.toNat_eq]; rfl
theorem aget_cls {s : State} {c : Nat} {e : Eng} (h : s.focus = .cls c e) (n : BitVec 4) : aget s n = regA s c n := by
  simp [aget, regA, me_cls h]
theorem aset_cls {s : State} {c : Nat} {e : Eng} (h : s.focus = .cls c e) (n : BitVec 4) (v : W64) :
    aset s n v = withA s c n v := by simp [aset, withA, modMe_cls h]
theorem curWi_cls {s : State} {c : Nat} {e : Eng} (h : s.focus = .cls c e) : curWi s = (walkerOf (getCls s c) e).wi := by
  simp [curWi, h]
theorem clsOnly_cls {s : State} {c : Nat} {e : Eng} (h : s.focus = .cls c e) (r : Res) : clsOnly s r = r := by simp [clsOnly, h]
theorem rstackOf_cls {s : State} {c : Nat} {e : Eng} (h : s.focus = .cls c e) :
    rstackOf s = (walkerOf (getCls s c) e).rstack := by simp [rstackOf, h]
theorem handleOk_cls {s : State} {c : Nat} {e : Eng} (h : s.focus = .cls c e) (n : Nat) :
    handleOk s n = ctrInRange s (partOf s c) n := by simp [handleOk, h]
theorem sget_fw {s : State} {d : Nat} (h : s.focus = .fw d) (n : BitVec 5) : sget s n = regFw s d n := by
  simp [sget, regFw, h]
theorem sset_fw {s : State} {d : Nat} (h : s.focus = .fw d) (n : BitVec 5) (v : W64) : sset s n v = withFwS s d n v := by
  simp [sset, withFwS, h]

/-! ## A register after a write of it -/

theorem regS_withS (s : State) (c : Nat) (n m : BitVec 5) (v : W64) (h : c < s.cls.length) :
    regS (withS s c n v) c m = if m = 0 then 0 else if n = m then v else regS s c m := by
  unfold regS withS
  by_cases hm : m = 0
  · simp [hm]
  · by_cases hn : n = 0
    · rw [if_pos hn, if_neg hm, if_neg hm, if_neg (fun x => hm (x.symm.trans hn))]
    · rw [if_neg hn, if_neg hm, if_neg hm, getCls_modCls _ _ _ h, tget_tset]
      have e : ¬ m = 0#5 := hm
      simp [BitVec.toNat_inj, e]
theorem regA_withA (s : State) (c : Nat) (n m : BitVec 4) (v : W64) (h : c < s.cls.length) :
    regA (withA s c n v) c m = if n = m then v else regA s c m := by
  simp [regA, withA, getCls_modCls _ _ _ h, BitVec.toNat_inj]

@[simp] theorem withS_length (s : State) (c : Nat) (n : BitVec 5) (v : W64) : (withS s c n v).cls.length = s.cls.length := by
  unfold withS; split <;> simp
@[simp] theorem withA_length (s : State) (c : Nat) (n : BitVec 4) (v : W64) : (withA s c n v).cls.length = s.cls.length := by
  simp [withA]
@[simp] theorem withS_mem (s : State) (c : Nat) (n : BitVec 5) (v : W64) : (withS s c n v).mem = s.mem := by
  unfold withS; split <;> rfl
@[simp] theorem withA_mem (s : State) (c : Nat) (n : BitVec 4) (v : W64) : (withA s c n v).mem = s.mem := rfl

end Sys2Proof.Machine
end

