-- ==== Sys2Proof/Laws/Memory.lean ====
section
/-!
SUPPORT. Memory: every operation over it keeps the canonical form, and a byte reads as what was written to it last.
-/

namespace Sys2Proof.Machine

/-! ## The canonical form -/

theorem wf_reset : Memory.wf State.reset.mem := rfl

theorem wf_writeBytes {s : State} (a : Nat) (bs : List Byte) (h : Memory.wf s.mem) : Memory.wf (writeBytes s a bs).mem :=
  twf_tsetN 0 s.mem a bs h
theorem wf_writeNat {s : State} (a n v : Nat) (h : Memory.wf s.mem) : Memory.wf (writeNat s a n v).mem :=
  wf_writeBytes a _ h
theorem wf_writePhys {s : State} (a : Nat) (bs : List Byte) (h : Memory.wf s.mem) : Memory.wf (writePhys s a bs).mem :=
  wf_writeBytes a bs h
theorem wf_writePhysNat {s : State} (a n v : Nat) (h : Memory.wf s.mem) : Memory.wf (writePhysNat s a n v).mem :=
  wf_writePhys a _ h
/-- Bytes that are dropped read zero (scrubbed towers and scratches, a power-up). -/
theorem wf_dropped {m : List Host.Cell} (p : Host.Cell → Bool) (h : Memory.wf m) : Memory.wf (m.filter p) :=
  twf_filter 0 p m h
/-- Bytes that are put back one by one (a restored image). -/
theorem wf_restored (l : List Host.Cell) : ∀ (m : List Host.Cell), Memory.wf m →
    Memory.wf (l.foldl (fun m e => tset 0 m e.1 e.2) m) := by
  induction l with
  | nil => exact fun m h => h
  | cons e l ih => exact fun m h => ih _ (twf_tset 0 m e.1 e.2 h)
/-- Bytes moved to a place that keeps their order. -/
theorem twfFrom_shift (a b : Nat) : ∀ (lo : Nat) (t : List Host.Cell), a ≤ lo → twfFrom (0 : Byte) lo t = true →
    twfFrom (0 : Byte) (lo - a + b) (t.map fun e => (e.1 - a + b, e.2)) = true
  | _, [], _, _ => rfl
  | lo, (k, v) :: t, hl, hw => by
    simp only [twfFrom, Bool.and_eq_true, decide_eq_true_eq, List.map_cons] at hw ⊢
    have ih := twfFrom_shift a b (k + 1) t (by omega) hw.2
    exact ⟨⟨by omega, hw.1.2⟩, twfFrom_mono 0 (by omega) _ ih⟩
/-- The entries of a canonical memory from `a` on are canonical from `a`. -/
theorem twfFrom_filter_ge (a : Nat) (p : Host.Cell → Bool) (hp : ∀ e, p e = true → a ≤ e.1) :
    ∀ (lo : Nat) (t : List Host.Cell), twfFrom (0 : Byte) lo t = true → twfFrom (0 : Byte) a (t.filter p) = true
  | _, [], _ => rfl
  | lo, (k, v) :: t, hw => by
    simp only [twfFrom, Bool.and_eq_true, decide_eq_true_eq] at hw
    simp only [List.filter_cons]
    split
    · rename_i h
      simp only [twfFrom, Bool.and_eq_true, decide_eq_true_eq]
      exact ⟨⟨hp _ h, hw.1.2⟩, twfFrom_filter 0 p (k + 1) t hw.2⟩
    · exact twfFrom_filter_ge a p hp (k + 1) t hw.2
/-- A copy of one range over another keeps the form. -/
theorem wf_copyCells {m : List Host.Cell} (a b n : Nat) (h : Memory.wf m) : Memory.wf (copyCells m a b n) := by
  have hs := twfFrom_shift a b a _ le_rfl (twfFrom_filter_ge a (fun e => decide (a ≤ e.1) && decide (e.1 < a + n))
    (fun e he => by simp only [Bool.and_eq_true, decide_eq_true_eq] at he; exact he.1) 0 m h)
  rw [Nat.sub_self, Nat.zero_add] at hs
  have hge := twfFrom_filter_ge (b + n) (fun e => decide (b + n ≤ e.1)) (fun e he => by simpa using he) 0 m h
  unfold copyCells Memory.wf twf
  rw [List.append_assoc]
  refine twfFrom_append 0 b 0 _ _ (twfFrom_filter 0 _ 0 m h) (fun e he => ?_) (Nat.zero_le _)
    (twfFrom_append 0 (b + n) b _ _ hs (fun e he => ?_) (Nat.le_add_right _ _) hge)
  · simpa using (List.mem_filter.mp he).2
  · obtain ⟨x, hx, rfl⟩ := List.mem_map.mp he
    have := (List.mem_filter.mp hx).2
    simp only [Bool.and_eq_true, decide_eq_true_eq] at this
    show x.1 - a + b < b + n
    omega
theorem wf_restoreCells {s : State} (t : Team) (i : Image) (h : Memory.wf s.mem) : Memory.wf (restoreCells s t i).mem :=
  wf_restored _ _ (wf_dropped _ h)
theorem wf_powerUp {s : State} (b : BootInput) (h : Memory.wf s.mem) : Memory.wf (powerUp s b).mem := wf_dropped _ h

/-! ## A byte after a write -/

theorem readByte_writeBytes {s : State} (a k : Nat) (bs : List Byte) (h : Memory.wf s.mem) :
    readByte (writeBytes s a bs) k = if a ≤ k ∧ k < a + bs.length then bs.getD (k - a) 0 else readByte s k :=
  tget_tsetN 0 s.mem a bs k h
theorem readByte_writePhys {s : State} (a k : Nat) (bs : List Byte) (h : Memory.wf s.mem) :
    readByte (writePhys s a bs) k = if a ≤ k ∧ k < a + bs.length then bs.getD (k - a) 0 else readByte s k :=
  readByte_writeBytes a k bs h
theorem readBytes_eq {s : State} (a n : Nat) (h : Memory.wf s.mem) :
    readBytes s a n = (List.range n).map fun j => readByte s (a + j) :=
  tgetN_eq 0 s.mem a n h
theorem length_leBytes (n v : Nat) : (leBytes n v).length = n := by
  induction n generalizing v with
  | zero => rfl
  | succ n ih => simp [leBytes, ih]
theorem leNat_leBytes (n v : Nat) : leNat (leBytes n v) = v % 256 ^ n := by
  induction n generalizing v with
  | zero => simp [leBytes, leNat, Nat.mod_one]
  | succ n ih =>
    have e : (BitVec.ofNat 8 v).toNat = v % 256 := BitVec.toNat_ofNat v 8
    rw [leBytes, leNat, ih, e, Nat.pow_succ, Nat.mul_comm (256 ^ n) 256, Nat.mod_mul]

/-- Read after write at the same place. -/
theorem readBytes_writeBytes {s : State} (a : Nat) (bs : List Byte) (h : Memory.wf s.mem) :
    readBytes (writeBytes s a bs) a bs.length = bs := by
  rw [readBytes_eq _ _ (wf_writeBytes a bs h)]
  apply List.ext_getElem
  · simp
  · intro n h1 h2
    simp only [List.getElem_map, List.getElem_range, readByte_writeBytes _ _ _ h]
    rw [if_pos ⟨by omega, by omega⟩]
    simp [List.getD_eq_getElem?_getD, h2]
theorem readNat_writeNat {s : State} (a n v : Nat) (h : Memory.wf s.mem) :
    readNat (writeNat s a n v) a n = v % 256 ^ n := by
  unfold readNat writeNat
  have := readBytes_writeBytes a (leBytes n v) h
  rw [length_leBytes] at this
  rw [this, leNat_leBytes]

/-! ## Equal memories are equal data -/

/-- A canonical memory reads nothing but zeros only if it lists nothing. -/
theorem wf_nil_of_zero : ∀ (m : List Host.Cell), Memory.wf m → (∀ a, tget (0 : Byte) m a = 0) → m = []
  | [], _, _ => rfl
  | (k, v) :: t, h, z => by
    have hv : v ≠ 0 := by
      have := h
      simp only [Memory.wf, twf, twfFrom, Bool.and_eq_true, decide_eq_true_eq] at this
      exact this.1.2
    exact absurd (by simpa [tget] using z k) hv

end Sys2Proof.Machine
end

