-- ==== Sys2Proof/Laws/Present.lean ====
section
/-!
SUPPORT. What the shared operation that presents a word's addresses can answer; a counter and a unit of poison
after a write.
-/

namespace Sys2Proof.Machine

/-- Addresses that resolve, pass their checks and are translated let the word issue, with the copy-on-writes of its first batch; the
movements it keeps are those resolved, or what a tower read in the issue cycle gave (R391). -/
theorem accessBody_issues {i : Instr} {s : State} {c : Nat} {r : Req} {check : List Move → Option Nat} {ops : List W64}
    {ms : List Move} (sound : legsPoison s c r.legs = none) (resolved : resolveLegs s (getCls s c).views c r.al r.legs [] = .ok ms) (checked : check ms = none)
    (ordered : vchkBad s c (getCls s c).wa.ord (r.kdst == 2) ms = none)
    (copied : (firstBatch s c (segsOf (winOf s c)) r.kdst ms).bad = none)
    (translated : missing (getCls s c) (firstBatch s c (segsOf (winOf s c)) r.kdst ms).pages = none) :
    ∃ ms', (r.perDesk = 0 → ms' = ms)
      ∧ (ms' = ms ∨ r.perDesk ≤ 512 ∧ ms' = ms.flatMap (captureMove (firstBatch s c (segsOf (winOf s c)) r.kdst ms).s))
      ∧ accessBody i s c r check ops = .async
          (modCls (firstBatch s c (segsOf (winOf s c)) r.kdst ms).s c fun k =>
            { noteWrites (firstBatch s c (segsOf (winOf s c)) r.kdst ms).s c
                (touch k (firstBatch s c (segsOf (winOf s c)) r.kdst ms).pages) (getCls s c).wa.ord ms with
              batch := heldOf k (firstBatch s c (segsOf (winOf s c)) r.kdst ms).pages })
          (markFar ops (r.legs.any viaAperture)) ms' := by
  unfold accessBody
  simp only [sound, resolved, checked, ordered, copied, translated]
  refine ⟨_, fun h => by simp [h], ?_, rfl⟩
  split
  · unfold capture
    split
    · rename_i h
      exact Or.inr ⟨by simpa using (show _ from by simp at h; exact h.1), rfl⟩
    · exact Or.inl rfl
  · exact Or.inl rfl

/-- An address that does not resolve raises the segment fault before issue. -/
theorem accessBody_unresolved {i : Instr} {s : State} {c a : Nat} {r : Req} {check : List Move → Option Nat} {ops : List W64}
    (sound : legsPoison s c r.legs = none) (h : resolveLegs s (getCls s c).views c r.al r.legs [] = .error a) :
    accessBody i s c r check ops = .trap 0x02 (BitVec.ofNat 64 a) := by
  simp only [accessBody, sound, h]

/-- An untranslated page starts a walk, or waits for the one under way. -/
theorem accessBody_walks {i : Instr} {s : State} {c : Nat} {r : Req} {check : List Move → Option Nat} {ops : List W64}
    {ms : List Move} {p : Page} (sound : legsPoison s c r.legs = none) (resolved : resolveLegs s (getCls s c).views c r.al r.legs [] = .ok ms)
    (checked : check ms = none) (ordered : vchkBad s c (getCls s c).wa.ord (r.kdst == 2) ms = none)
    (copied : (firstBatch s c (segsOf (winOf s c)) r.kdst ms).bad = none)
    (h : missing (getCls s c) (firstBatch s c (segsOf (winOf s c)) r.kdst ms).pages = some p) :
    accessBody i s c r check ops
      = if (getCls s c).walk.isSome then .stall else .stop (modCls s c fun k => { k with walk := some (4 * p.va + p.kind) }) := by
  simp only [accessBody, sound, resolved, checked, ordered, copied, h]

/-! ## Counters -/

/-- A counter after a write of one. -/
theorem ctrGet_ctrSet (s : State) (h v x : Nat) : ctrGet (ctrSet s h v) x = if h = x then v else ctrGet s x := by
  simp [ctrGet, ctrSet]

/-! ## Poison -/

theorem poisonAt_clear (s : State) (u v : PUnit) : poisonAt (clearPoison s u) v = if v = u then none else poisonAt s v := by
  unfold poisonAt clearPoison
  by_cases h : v = u
  · simp [h]
  · rw [List.find?_filter, if_neg h]
    congr 2
    funext e
    by_cases he : e.1 = v
    · simp [he, h]
    · simp [he]
theorem poisonAt_set (s : State) (u v : PUnit) (k : Bool) :
    poisonAt (setPoison s u k) v = if v = u then some (k && inHbm u) else poisonAt s v := by
  by_cases h : v = u
  · subst h; simp [poisonAt, setPoison]
  · have : ¬ u = v := fun e => h e.symm
    have := poisonAt_clear s u v
    simpa [poisonAt, setPoison, h, ‹¬ u = v›] using this

end Sys2Proof.Machine
end

