-- ==== Sys2Proof/Tests/Slice0.lean ====
section
/-!
SUPPORT. Tests: ill-formed terms that WellFormed refuses, words of the spec that the decoder reads, single instructions on small
states with results worked out by hand from the spec, and for each statement of Certificates/Slice0 states and operands that
meet the hypotheses of its clauses.
-/

namespace Sys2Proof.Tests

open Sys2Proof Sys2Proof.Machine

-- one theorem after another: each kernel evaluation holds a thread and its stack
set_option Elab.async false

/-! ## Small states -/

/-- Tag fields that say nothing. -/
abbrev h0 : Hdr := default

/-- The machine after reset with class 0 running, walker `e` at a word in the middle of a block; `g` changes the class, `h` the
machine. -/
def at0 (e : Eng) (g : ClassState → ClassState := id) (h : State → State := id) : State :=
  { h (modCls State.reset 0 fun k => g { k with live := true, block := some ⟨0, 9, 0, 0⟩ }) with focus := .cls 0 e }

/-- A window table of one segment: 1 MiB at 1 TiB, all permissions, unpaged, at physical address 0. -/
def win1 : List Byte := leBytes 8 (2 ^ 40) ++ leBytes 8 16 ++ leBytes 8 0 ++ leBytes 8 (2 ^ 63 + 2 ^ 62 + 2 ^ 61)

/-- A running instance of partition 1 with one node. -/
def inst1 : Instance :=
  { num := 1, part := 1, queue := 0, entry := [], gid := 0, excl := false, snaps := [⟨[], [], win1, []⟩], nctr := 0,
    state := .running, nodes := [{ state := .ready }] }

/-- Instance 1 of partition 1 with one node that runs on class 0 as team 5; the partition has all classes, counters 0-1023,
records 0-99. -/
def owned0 (paired : Bool := false) (s : State) : State :=
  { s with
    parts := s.parts.set 1 { state := 1, paired := paired, args := [1, 0xFFFFFFFFFF, 1024, 0, 100, 0, 0, 0] }
    insts := [inst1]
    teams := [{ id := 5, inst := 1, node := 0, ord := 0, classes := [0], own := 0 }] }

/-- What `exec` answers, looked at when it is a next state. -/
def next? (o : Out) (p : State → Bool) : Bool := match o with | .next t => p t | _ => false

/-- `Ready`, as a test. -/
def readyB (i : Instr) (s : State) (c : Nat) (e : Eng) : Bool :=
  decide (s.focus = .cls c e) && decide (c < s.cls.length) && runnable s c && !(walkerOf (getCls s c) e).parked
    && !(walkerOf (getCls s c) e).atExit && decide (owner i = some e) && !isRetired (getCls s c) e
    && !((getCls s c).hmode && doubleTrapWord i) && canIssue s c e i
    && (decide (e ≠ .s) || (match blockStep (getCls s c) i with | .ok _ => true | .error _ => false))
    && (decide (e ≠ .m) || ((getCls s c).inflight.find? fun f => f.status == .again).isNone)

theorem ready_of {i : Instr} {s : State} {c : Nat} {e : Eng} (h : readyB i s c e = true) : Ready i s c e := by
  simp only [readyB, Bool.and_eq_true, decide_eq_true_eq, Bool.not_eq_true', Bool.or_eq_true] at h
  obtain ⟨⟨⟨⟨⟨⟨⟨⟨⟨⟨h1, h2⟩, h3⟩, h4⟩, h5⟩, h6⟩, h7⟩, h8⟩, h9⟩, h10⟩, h11⟩ := h
  refine ⟨h1, h2, h3, h4, h5, h6, h7, h8, h9, fun he => ?_, fun he => ?_⟩
  · rcases h10 with h | h
    · exact absurd he h
    · split at h
      · exact ⟨_, ‹_›⟩
      · cases h
  · rcases h11 with h | h
    · exact absurd he h
    · simpa using h

/-! ## WellFormed refuses each kind of ill-formed term -/

/-- Fields of a well-formed VADD.F32, with changes. -/
abbrev vr (f : FVR → FVR := id) : FVR := f ⟨4, 1, 2, 0, 8, 0, false, 0, false, 0⟩
/-- A tag without AV, a common word with tags (R323, R324), block and loop lengths, a wide register count (R172, R352). -/
theorem test_wf_common :
    wellFormed (.add h0 ⟨1, 2, 3, 0, 0⟩) = true ∧ wellFormed (.nop ⟨0, false, 1, 0⟩) = false
    ∧ wellFormed (.blk ⟨0, false, 0, 1⟩ ⟨1, 0⟩) = false ∧ wellFormed (.psw ⟨1, false, 0, 0⟩ default) = false
    ∧ wellFormed (.blk h0 ⟨0, 0⟩) = false ∧ wellFormed (.blk h0 ⟨4097, 0⟩) = false ∧ wellFormed (.blk h0 ⟨4096, 0⟩) = true
    ∧ wellFormed (.loop h0 ⟨false, 4, 0⟩) = false ∧ wellFormed (.loop h0 ⟨false, 4, 257⟩) = false
    ∧ wellFormed (.loop h0 ⟨true, 1, 4⟩) = false := by decide
/-- Unused fields of S words, shift immediates, LIH, PRIO, control registers, STS (R348, R356, R357, R364, R368, R369). -/
theorem test_wf_scalar :
    [Instr.add h0 ⟨1, 2, 3, 1, 0⟩, .add h0 ⟨1, 2, 3, 0, 1⟩, .popc h0 ⟨1, 2, 1, 0, 0⟩, .shli h0 ⟨1, 2, 64⟩, .lih h0 ⟨1, 0x1000000⟩,
      .sel h0 ⟨1, 2, 3, 4, 1⟩, .br h0 ⟨1, 0, 0⟩, .br h0 ⟨0, 1, 0⟩, .brr h0 ⟨1, 1, 0, 0, 0⟩, .bz h0 ⟨1, 1, 0⟩, .bq h0 ⟨1, 0, 0⟩,
      .call h0 ⟨0, 1, 0⟩, .callr h0 ⟨0, 1, 1, 0, 0⟩, .qpop h0 ⟨1, 1, 0, 0, 0⟩, .fqpush h0 ⟨1, 1, 0, 0, 0⟩, .prio h0 ⟨0, 0, 4⟩,
      .prio h0 ⟨1, 0, 0⟩, .prio h0 ⟨0, 1, 0⟩, .sleepns h0 ⟨1, 1, 0, 0, 0⟩, .rdlnc h0 ⟨1, 1, 0, 0, 0⟩, .rdcsr h0 ⟨1, 1, 0, 0, 0⟩,
      .rdcsr h0 ⟨1, 0, 0, 0, 0x0F⟩, .wrcsr h0 ⟨1, 1, 0, 0, 0⟩, .wrcsr h0 ⟨0, 1, 0, 0, 0x0F⟩, .sts h0 ⟨1, 2, 0, true, 0⟩].all
      (fun i => !wellFormed i) = true := by decide
/-- Unused fields of A and X words, modes, desk fields, counts (R374 to R390). -/
theorem test_wf_address :
    [Instr.aqeq h0 ⟨1, 2, 3⟩, .ashli h0 ⟨1, 2, 3, 64⟩, .amov h0 ⟨1, 1, 2, 0⟩, .amovi h0 ⟨1, 1, 1, 0⟩,
      .copy h0 ⟨1, 2, 3, 4, 0xC0, 0, 0⟩, .copy h0 ⟨1, 2, 3, 4, 1, 0, 0⟩, .copy h0 ⟨1, 2, 3, 4, 0, 1, 0⟩,
      .copy h0 ⟨1, 2, 3, 4, 0, 0, 1⟩, .copy h0 ⟨1, 2, 3, 4, 0, 0, 0x0A0⟩, .copy h0 ⟨1, 2, 3, 4, 0, 0, 0x400⟩,
      .copy h0 ⟨1, 2, 3, 4, 0x20, 0, 0x0C0⟩, .copy h0 ⟨1, 2, 3, 4, 0xA0, 0, 0⟩, .copy2d h0 ⟨1, 2, 3, 4, 0x10, 0, 0⟩,
      .gather h0 ⟨1, 2, 3, 4, 0xB0, 0, 1⟩, .gather h0 ⟨1, 2, 3, 4, 1, 0, 1⟩, .gather h0 ⟨1, 2, 3, 4, 0, 0, 0⟩,
      .gather h0 ⟨1, 2, 3, 4, 0, 1, 1⟩, .ldq h0 ⟨1, 2, 0, 0, 0, 0, 0⟩, .ldq h0 ⟨0, 2, 1, 0, 0, 0, 0⟩, .ldq h0 ⟨0, 2, 0, 1, 0, 0, 0⟩,
      .ldq h0 ⟨0, 2, 0, 0, 0, 1, 0⟩, .ldq h0 ⟨0, 2, 0, 0, 1, 0, 0⟩, .kvmap h0 ⟨1, 2, 1, 4, 0, 0, 0⟩, .kvmap h0 ⟨1, 2, 0, 4, 0x10, 0, 0⟩,
      .kvshare h0 ⟨1, 2, 3, 4, 0, 1, 0⟩, .kvshare h0 ⟨1, 2, 3, 4, 0, 0, 1⟩, .kvfree h0 ⟨1, 2, 0, 4, 0, 0, 0⟩,
      .viewDef h0 ⟨1, 2, 3, 0, 0, 4, 0⟩, .viewDef h0 ⟨2, 2, 3, 1, 0, 4, 0⟩, .viewDef h0 ⟨2, 2, 3, 0, 0x30, 4, 0⟩,
      .viewDef h0 ⟨2, 2, 3, 0, 0x40, 4, 0⟩, .brefill h0 ⟨1, 2, 3, 4, 2, 5, 0⟩, .brefill h0 ⟨1, 2, 3, 4, 0, 5, 1⟩,
      .rfdefer h0 ⟨1, 0, 1, 0⟩, .rfdefer h0 ⟨0, 1, 1, 0⟩, .xsh h0 ⟨1, 2, 0, 3, 0⟩, .xsh h0 ⟨1, 2, 0, 0, 1⟩, .xsht h0 ⟨1, 2, 0, 0, 0⟩,
      .xsht h0 ⟨2, 1, 0, 0, 0⟩, .xsht h0 ⟨2, 2, 0, 3, 0⟩, .xsend h0 ⟨1, 2, 3, 0, 4, 0x80⟩, .xsend h0 ⟨1, 2, 3, 0, 4, 2⟩,
      .xsend h0 ⟨1, 2, 3, 1, 4, 0⟩, .xbcast h0 ⟨1, 2, 3, 0, 4, 1⟩, .amoAdd h0 ⟨1, 2, 1, false, false⟩].all
      (fun i => !wellFormed i) = true := by decide
/-- Types, rounding modes, OC, AUX, mask registers, zeroing and register groups of V words (R394 to R413). -/
theorem test_wf_vector :
    wellFormed (.vadd h0 vr) = true
    ∧ [Instr.vadd h0 (vr fun f => { f with ty := 0 }), .vadd h0 (vr fun f => { f with vc := 1 }), .vadd h0 (vr fun f => { f with oc := true }),
      .vadd h0 (vr fun f => { f with aux := 1 }), .vadd h0 (vr fun f => { f with rm := 5 }),
      .vadd h0 (vr fun f => { f with ty := 7, rm := 1 }), .vmin h0 (vr fun f => { f with rm := 1 }), .vabs h0 vr,
      .vaddsat h0 vr, .vaddQ h0 vr, .vand h0 vr, .vpopc h0 (vr fun f => { f with ty := 7 }), .vcmpeq h0 (vr fun f => { f with vd := 8 }),
      .vcmpun h0 (vr fun f => { f with ty := 7 }), .vshli h0 (vr fun f => { f with ty := 7, vb := 0, aux := 32 }),
      .kand h0 (vr fun f => { f with ty := 1 }), .kand h0 (vr fun f => { f with ty := 0, va := 8 }), .knot h0 (vr fun f => { f with ty := 0 }),
      .kset h0 vr, .vsel h0 (vr fun f => { f with kz := true }), .vcvt h0 (vr fun f => { f with vb := 0, aux := 8 }),
      .vcvt h0 (vr fun f => { f with ty := 6, vb := 0, aux := 0x28, oc := true }), .vcvt h0 (vr fun f => { f with ty := 6, vb := 0, aux := 0x68 }),
      .vcvt h0 (vr fun f => { f with ty := 14, vb := 0, aux := 8, kz := true }), .vcvt h0 (vr fun f => { f with ty := 14, vd := 5, vb := 0, aux := 8 }),
      .vwadd h0 vr, .vwadd h0 (vr fun f => { f with ty := 9, vd := 5 }), .vwfma h0 (vr fun f => { f with ty := 9, vc := 1 }),
      .vdot4 h0 vr, .vnrw h0 vr, .vrcp h0 vr, .vrcpf h0 (vr fun f => { f with ty := 9 }), .vrsum h0 vr, .vramax h0 (vr fun f => { f with ty := 7, vb := 0 }),
      .vperm h0 (vr fun f => { f with ty := 0 }), .vslideup h0 (vr fun f => { f with aux := 128 }),
      .vsplat h0 (vr fun f => { f with vb := 0, aux := 128 }), .vmov h0 vr, .vmovi h0 ⟨1, 1, 256⟩, .vld h0 { (default : FVM) with sx := 1 },
      .vld h0 { (default : FVM) with vx := 1 }, .vld h0 { (default : FVM) with rc := true }, .vlds h0 { (default : FVM) with srec := 1 },
      .vst h0 { (default : FVM) with srec := 1 }, .vqbc h0 vr].all (fun i => !wellFormed i) = true := by decide
/-- Unused fields, tiles, destinations and scopes of M, synchronisation, record and firmware words. -/
theorem test_wf_matrix_system :
    [Instr.mmaBf16 h0 { (default : FMA) with rc := true }, .mmaBf16 h0 { (default : FMA) with srec := 1 }, .mzero h0 { (default : FMA) with sa := 1 },
      .mldc h0 { (default : FMA) with sb := 1 }, .mstc h0 { (default : FMA) with srec := 1 }, .mstat h0 default,
      .mstat h0 { (default : FMA) with rc := true, c := 1 }, .qcvtK4 h0 { (default : FMQ) with va := 4 },
      .qcvtK4 h0 { (default : FMQ) with rm := 5 }, .qcvtK4 h0 { (default : FMQ) with vd := 2 }, .qcvtK4 h0 { (default : FMQ) with vd := 28 },
      .qcvtK4 h0 { (default : FMQ) with sd := 1 }, .qcvtK4 h0 { (default : FMQ) with dst := true, vd := 4 },
      .cadd h0 { (default : FCN) with t := 1 }, .cadd h0 { (default : FCN) with scope := 5 }, .cadd h0 { (default : FCN) with imm := 1 },
      .caddi h0 { (default : FCN) with v := 1 }, .cread h0 { (default : FCN) with scope := 1 }, .barrive h0 { (default : FCN) with v := 1 },
      .bwait h0 { (default : FCN) with imm := 1 }, .bexp h0 { (default : FCN) with h := 1 }, .fence h0 default,
      .fence h0 { (default : FCN) with imm := 8 }, .phase h0 { (default : FCN) with imm := 1 }, .srread h0 ⟨9, 1, 0, 0, 0⟩,
      .srread h0 ⟨8, 1, 1, 0, 0⟩, .trap h0 ⟨1, 0, 0⟩, .rett h0 ⟨0, 0, 2⟩, .evpop h0 ⟨1, 0, 0, 0, 0⟩, .evdone h0 ⟨1, 1, 2, 0, 0⟩,
      .fwcsr h0 ⟨1, 2, 0, 0, 3⟩].all (fun i => !wellFormed i) = true := by decide

/-! ## Words that the spec writes out bit by bit -/

/-- What a word decodes to. -/
def reads (w : W80) (i : Instr) : Bool := match decode w with | .ok j => decide (j = i) | .error _ => false
/-- Common, S and firmware words: a loop, LI, WRCSR STRICT (19_program_scale_and_add), EXIT, PLD.b4.sx s2, s1, 16 (R331). -/
theorem test_decode_scalar :
    reads 0xE0400000000000004004 (.loop h0 ⟨false, 4, 4⟩) = true
    ∧ reads 0x04600000080000000001 (.li h0 ⟨8, 1⟩) = true
    ∧ reads 0x08640000004000000006 (.wrcsr ⟨1, false, 0, 0⟩ ⟨0, 8, 0, 0, 6⟩) = true
    ∧ reads 0x08C00000000000000000 (.exit h0) = true
    ∧ reads 0xDE600000020D00000010 (.pld h0 ⟨2, 1, 2, true, 16⟩) = true := by decide
/-- A and X words of the programs in 19, 21 and 23: AMULI, AADDI, COPY, GATHER, BREFILL; XSH.e.hold v3, v5 (R331). -/
theorem test_decode_address :
    reads 0x2A600000060100008000 (.amuli h0 ⟨3, 0, 1, 0x8000⟩) = true
    ∧ reads 0x2A4000000A0000000400 (.aaddi h0 ⟨5, 0, 0, 0x400⟩) = true
    ∧ reads 0x2AE60000006AC0000140 (.copy ⟨1, true, 0, 0⟩ ⟨0, 3, 5, 12, 0, 0, 0x140⟩) = true
    ∧ reads 0x2AE80000460AD4000140 (.copy ⟨2, false, 0, 2⟩ ⟨3, 0, 5, 13, 0x40, 0, 0x140⟩) = true
    ∧ reads 0x2B200000048603000008 (.gather h0 ⟨2, 4, 3, 0, 0x30, 0, 8⟩) = true
    ∧ reads 0x2CC600000468C0158000 (.brefill ⟨1, true, 0, 0⟩ ⟨2, 3, 4, 12, 1, 11, 0⟩) = true
    ∧ reads 0x8E000000018B40000000 (.xsh h0 ⟨3, 5, 2, 2, 0⟩) = true := by decide
/-- V words: VADD (13_isa_encoding), VFMA, VMOVI, VLD, VST (19), VCVT, VRCPF (23). -/
theorem test_decode_vector :
    reads 0x4F064000220210080000 (.vadd ⟨1, true, 2, 1⟩ ⟨4, 1, 2, 0, 8, 0, false, 0, false, 0⟩) = true
    ∧ reads 0x4F640000010218480000 (.vfma ⟨1, false, 0, 0⟩ ⟨2, 1, 3, 2, 8, 0, false, 0, false, 0⟩) = true
    ∧ reads 0x550000000304000B2828 (.vcvt h0 ⟨6, 2, 0, 0, 11, 1, false, 4, false, 0x28⟩) = true
    ∧ reads 0x5780000001883F000000 (.vmovi h0 ⟨3, 8, 0x3F000000⟩) = true
    ∧ reads 0x57A00000208000000000 (.vld ⟨0, false, 0, 1⟩ ⟨1, 0, 0, 0, 0, false, 0, 0⟩) = true
    ∧ reads 0x58062000010000000008 (.vst ⟨1, true, 1, 0⟩ ⟨2, 0, 0, 0, 0, false, 0, 8⟩) = true
    ∧ reads 0x56040000071C68080000 (.vrcpf ⟨1, false, 0, 0⟩ ⟨14, 14, 13, 0, 8, 0, false, 0, false, 0⟩) = true := by decide
/-- M, synchronisation and atomic words: MMA.k4, QCVT.k4.tw (22), CWAIT.T, AMO.OR, AMO.XCHG (20). -/
theorem test_decode_matrix_sync :
    reads 0x79640000252A00000000 (.mmaK4 ⟨1, false, 0, 1⟩ ⟨0, 20, 21, false, 0⟩) = true
    ∧ reads 0x7A862000005C08000000 (.qcvtK4 ⟨1, true, 1, 0⟩ ⟨0, 23, 0, true, 0⟩) = true
    ∧ reads 0xBB60000007525A400000 (.cwaitT h0 ⟨7, 10, 2, 11, 9, 0⟩) = true
    ∧ reads 0xBCE000000E0060000000 (.amoOr h0 ⟨7, 0, 0, true, true⟩) = true
    ∧ reads 0xBD0000000D6040000000 (.amoXchg h0 ⟨6, 22, 0, true, false⟩) = true := by decide

/-! ## Single instructions, results by hand from the spec -/

/-- Class 0 with registers. -/
abbrev sr (l : List (Nat × W64)) (k : ClassState) : ClassState := { k with sreg := l }
abbrev ar (l : List (Nat × W64)) (k : ClassState) : ClassState := { k with areg := l }
/-- s[3] after a word on s1 and s2. -/
def s3 (i : Instr) (x y : W64) : Option W64 :=
  match exec i (at0 .s (sr [(1, x), (2, y)])) with | .next t => some (regS t 0 3) | _ => none
abbrev f3 : FSR := ⟨3, 1, 2, 0, 0⟩
/-- R354: wrap, high products, arithmetic shift with a shift count of 64 + 1, signed and unsigned extremes, bit counts of 0. -/
theorem test_integer :
    s3 (.add h0 f3) (BitVec.allOnes 64) 2 = some 1 ∧ s3 (.sub h0 f3) 1 2 = some (BitVec.allOnes 64)
    ∧ s3 (.mulh h0 f3) (BitVec.allOnes 64) 1 = some (BitVec.allOnes 64) ∧ s3 (.mulhu h0 f3) (BitVec.allOnes 64) 2 = some 1
    ∧ s3 (.sra h0 f3) (BitVec.ofInt 64 (-3)) 65 = some (BitVec.ofInt 64 (-2)) ∧ s3 (.shl h0 f3) 3 63 = some (BitVec.ofNat 64 (2 ^ 63))
    ∧ s3 (.min h0 f3) (BitVec.allOnes 64) 1 = some (BitVec.allOnes 64) ∧ s3 (.minu h0 f3) (BitVec.allOnes 64) 1 = some 1
    ∧ s3 (.clz h0 f3) 0 0 = some 64 ∧ s3 (.ctz h0 f3) 0 0 = some 64 ∧ s3 (.clz h0 f3) 1 0 = some 63
    ∧ s3 (.popc h0 f3) 0x8001 0 = some 2 := by decide
/-- R355: zero divisors, truncation toward zero, the sign of the remainder, −2^63 / −1. -/
theorem test_division :
    s3 (.div h0 f3) (BitVec.ofInt 64 (-7)) 2 = some (BitVec.ofInt 64 (-3)) ∧ s3 (.rem h0 f3) (BitVec.ofInt 64 (-7)) 2 = some (BitVec.ofInt 64 (-1))
    ∧ s3 (.div h0 f3) 5 0 = some (BitVec.allOnes 64) ∧ s3 (.rem h0 f3) 5 0 = some 5
    ∧ s3 (.divu h0 f3) 5 0 = some (BitVec.allOnes 64) ∧ s3 (.remu h0 f3) 5 0 = some 5
    ∧ s3 (.div h0 f3) (BitVec.ofNat 64 (2 ^ 63)) (BitVec.allOnes 64) = some (BitVec.ofNat 64 (2 ^ 63))
    ∧ s3 (.rem h0 f3) (BitVec.ofNat 64 (2 ^ 63)) (BitVec.allOnes 64) = some 0 := by decide
/-- R356 to R358: sign extension of an immediate, LI then LIH, compares across signs, SEL; a write to s0 is discarded (R150). -/
theorem test_immediates :
    s3 (.addi h0 ⟨3, 1, 0xFFFFFFFF⟩) 0 0 = some (BitVec.allOnes 64) ∧ s3 (.andi h0 ⟨3, 1, 0xFFFFFFFF⟩) (BitVec.allOnes 64) 0 = some 0xFFFFFFFF
    ∧ s3 (.li h0 ⟨3, 0x8000000000⟩) 0 0 = some (BitVec.ofInt 64 (-2 ^ 39)) ∧ s3 (.srai h0 ⟨3, 1, 63⟩) (BitVec.ofNat 64 (2 ^ 63)) 0 = some (BitVec.allOnes 64)
    ∧ (match exec (.lih h0 ⟨1, 0xABCDEF⟩) (at0 .s (sr [(1, BitVec.allOnes 64)])) with
      | .next t => regS t 0 1 | _ => 0) = 0xABCDEFFFFFFFFFFF
    ∧ s3 (.cmplt h0 f3) (BitVec.allOnes 64) 0 = some 1 ∧ s3 (.cmpltu h0 f3) (BitVec.allOnes 64) 0 = some 0
    ∧ s3 (.sel h0 ⟨3, 1, 2, 2, 0⟩) 7 9 = some 7 ∧ s3 (.sel h0 ⟨3, 1, 2, 0, 0⟩) 7 9 = some 9
    ∧ next? (exec (.addi h0 ⟨0, 0, 5⟩) (at0 .s)) (fun t => regS t 0 0 == 0) = true := by decide
/-- R359 to R361: a backward branch taken and not taken, CALL pushes the next word, a seventeenth address kills the node. -/
theorem test_branches :
    next? (exec (.bnz h0 ⟨1, 0, 0xFFFFFD⟩) (at0 .s fun k => { sr [(1, 1)] k with ws := { wi := 10 } })) (fun t => (getCls t 0).ws.wi == 7) = true
    ∧ next? (exec (.bnz h0 ⟨1, 0, 0xFFFFFD⟩) (at0 .s fun k => { k with ws := { wi := 10 } })) (fun t => (getCls t 0).ws.wi == 11) = true
    ∧ next? (exec (.call h0 ⟨0, 0, 20⟩) (at0 .s fun k => { k with ws := { wi := 10 } }))
        (fun t => (getCls t 0).ws.wi == 30 && (getCls t 0).ws.rstack == [11]) = true
    ∧ next? (exec (.call h0 ⟨0, 0, 20⟩) (at0 .s (fun k => { k with ws := { rstack := List.replicate 16 0 } }) owned0))
        (fun t => t.kills == [⟨1, 0, 0x12⟩] && (getCls t 0).tcode == 0x22) = true
    ∧ next? (exec (.bq h0 ⟨0, 0, 4⟩) (at0 .s fun k => { k with qb := [true, false] }))
        (fun t => (getCls t 0).ws.wi == 4 && (getCls t 0).qb == [false]) = true := by decide
/-- R369: a sign-extended byte of scratch; a misaligned store raises the segment fault with its offset and writes nothing. -/
theorem test_scratch :
    next? (exec (.lds h0 ⟨3, 1, 0, true, 2⟩) (at0 .s (sr [(1, 5)]) fun s => { s with mem := [(scratchAddr 0 7, 0x80)] }))
      (fun t => regS t 0 3 == BitVec.ofInt 64 (-128)) = true
    ∧ next? (exec (.sts h0 ⟨3, 1, 1, false, 0⟩) (at0 .s (sr [(1, 6), (3, 0x12345)])))
        (fun t => readByte t (scratchAddr 0 6) == 0x45 && readByte t (scratchAddr 0 7) == 0x23 && readByte t (scratchAddr 0 8) == 0) = true
    ∧ next? (exec (.sts h0 ⟨3, 1, 1, false, 0⟩) (at0 .s (sr [(1, 7), (3, 1)])))
        (fun t => t.mem == [] && (getCls t 0).tcode == 2 && (getCls t 0).tinfo == 7 && (getCls t 0).ws.wi == 0) = true := by decide
/-- R374, R375: AMULI with a negative immediate, AMOVI keeps the low half, signed and unsigned outcome compares. -/
theorem test_address_words :
    next? (exec (.amuli h0 ⟨3, 1, 2, 0xFFFFFFFF⟩) (at0 .a fun k => ar [(1, 10)] (sr [(2, 4)] k))) (fun t => regA t 0 3 == 6) = true
    ∧ next? (exec (.amovi h0 ⟨1, 1, 0, 5⟩) (at0 .a (ar [(1, BitVec.allOnes 64)]))) (fun t => regA t 0 1 == 0x5FFFFFFFF) = true
    ∧ next? (exec (.aqlt h0 ⟨1, 2, 0⟩) (at0 .a (ar [(1, BitVec.allOnes 64)]))) (fun t => (getCls t 0).qb == [true]) = true
    ∧ next? (exec (.aqltu h0 ⟨1, 2, 0⟩) (at0 .a (ar [(1, BitVec.allOnes 64)]))) (fun t => (getCls t 0).qb == [false]) = true := by decide
/-- R327, R328: the first data bit has code position 3, so a line of that bit alone carries ECC 0x203; with it the line is clean,
one flipped bit is corrected, two are poison. -/
theorem test_ecc :
    let l := fun (data rz ecc : Nat) => BitVec.ofNat 512 (data + rz * 2 ^ 480 + ecc * 2 ^ 494)
    eccOf 1 = 0x203 ∧ checkLine (l 1 0 0x203) = .clean
    ∧ checkLine (l 0 0 0x203) = .corrected (l 1 0 0x203) ∧ checkLine (l 3 0 0x203) = .corrected (l 1 0 0x203)
    ∧ checkLine (l 1 0 0x202) = .corrected (l 1 0 0x203) ∧ checkLine (l 7 0 0x203) = .poison
    ∧ checkLine (l 1 1 0x203) = .corrected (l 1 0 0x203) := by decide +kernel
/-- R294, R298: 1 + 2^-24 is a tie (1, inexact), the same under RUP; 3e38 + 3e38 overflows; inf - inf is invalid. -/
theorem test_rounding :
    let sum := fun (m a b : Nat) => roundRes fF32 ⟨m, 0⟩ (sumVal [valOf fF32 a, valOf fF32 b] (m == 2))
    (sum 0 0x3F800000 0x33800000).1 = 0x3F800000 ∧ (sum 3 0x3F800000 0x33800000).1 = 0x3F800001
    ∧ (sum 0 0x7F7FFFFF 0x7F7FFFFF).1 = 0x7F800000 ∧ (sum 1 0x7F7FFFFF 0x7F7FFFFF).1 = 0x7F7FFFFF
    ∧ (sum 0 0x7F800000 0xFF800000).2 = flIv ∧ (sum 2 0x3F800000 0xBF800000).1 = 0x80000000
    ∧ (sum 0 0x3F800000 0xBF800000).1 = 0 := by decide
/-- R403: signed and unsigned compares of one code, a NaN. -/
theorem test_compare_lane :
    (cmpLane 1 .lt 0xFF 1).1 = true ∧ (cmpLane 5 .lt 0xFF 1).1 = false ∧ cmpLane 8 .le 0x7FC00000 0 = (false, flIv)
    ∧ (cmpLane 8 .ne 0x7FC00000 0).1 = true ∧ (cmpLane 8 .eq 0x80000000 0).1 = true := by decide
/-- R405: VMOVI fills the lanes within VL and leaves the rest. -/
theorem test_vmovi :
    next? (exec (.vmovi h0 ⟨1, 3, 7⟩) (at0 .v fun k => { k with vl := 64 }))
      (fun t => vGet (getCls t 0) false 5 1 == leNat ((List.range 16).flatMap fun _ => leBytes 4 7)) = true := by decide +kernel
/-- R368: SLIP is clamped, VL rounded up, an RO register kept. -/
theorem test_wrcsr :
    (csrWrite {} 0 0x1FFF).slip = 4096 ∧ (csrWrite {} 0 0).slip = 1 ∧ (csrWrite {} 1 65).vl = 128 ∧ (csrWrite {} 1 0).vl = 64
    ∧ csrWrite {} 0x0A 5 = {} := by decide +kernel
/-- R230: AES-256 of the block of FIPS-197, appendix C.3. -/
theorem test_aes :
    aesEnc (roundKeys 0x000102030405060708090a0b0c0d0e0f101112131415161718191a1b1c1d1e1f)
        [0, 0x11, 0x22, 0x33, 0x44, 0x55, 0x66, 0x77, 0x88, 0x99, 0xaa, 0xbb, 0xcc, 0xdd, 0xee, 0xff]
      = [0x8e, 0xa2, 0xb7, 0xca, 0x51, 0x67, 0x45, 0xbf, 0xea, 0xfc, 0x49, 0x90, 0x4b, 0x49, 0x60, 0x89] := by decide +kernel
/-- R137: SHA-256 of "abc" (FIPS 180-2, appendix B.1). -/
theorem test_sha256 :
    sha256 [0x61, 0x62, 0x63] = 0xba7816bf8f01cfea414140de5dae2223b00361a396177a9cb410ff61f20015ad := by decide +kernel
/-- R441, R442: an add to a counter, and the byte form that wraps at 2^40. -/
theorem test_counters :
    (ctrAdd (owned0 false State.reset) 3 5 false).map (fun t => ctrGet t 3) = some 5
    ∧ (ctrAdd { owned0 false State.reset with ctr := [(3, 2 ^ 40 - 1)] } 3 2 true).map (fun t => ctrGet t 3) = some 1 := by decide +kernel
/-- R265 to R267: TRAP with a handler enters it: code 0x07, the immediate, handler mode, V parked, the walker at the handler. -/
theorem test_trap :
    next? (exec (.trap h0 ⟨0, 0, 9⟩) (at0 .s fun k => { k with thnd := 0x41 })) (fun t =>
      let k := getCls t 0
      k.hmode && k.tcode == 7 && k.tinfo == 9 && k.ws.wi == 7 && k.wv.parked && (k.frame.map fun f => f.ws.wi) == some 1) = true := by decide
/-- R270: with THND = 0 the class is held and its die's queue has the event. -/
theorem test_trap_firmware :
    next? (exec (.trap h0 ⟨0, 0, 9⟩) (at0 .s)) (fun t =>
      (getCls t 0).hold == some 0 && ((getDie t 0).evq.map fun e => (e.code, e.tinfo)) == [(7, 9)] && !(getCls t 0).hmode) = true := by decide
/-- R461, R460: a firmware load beyond the physical space sets ERR and reads all ones. -/
theorem test_firmware_load :
    next? (exec (.pld h0 ⟨2, 1, 3, false, 0⟩) { modFw State.reset 0 (fun f => { f with running := true, sreg := [(1, BitVec.ofNat 64 (2 ^ 52))] })
        with focus := .fw 0 })
      (fun t => regFw t 0 2 == BitVec.allOnes 64 && (getDie t 0).fw.err && (getDie t 0).fw.wi == 1) = true := by decide
/-- R64: QWIDX more than 2^LOG2N beyond QRIDX is an overrun. R52: 125 °C forces the grant to 0. R54: a tick. -/
theorem test_events :
    next? (exec (.qwidxWrite 1 0 17) (modQueue (owned0 false State.reset) 1 0 fun q => { q with log2n := 4 }))
      (fun t => (getQueue t 1 0).err == 2 && (getQueue t 1 0).halt && (getQueue t 1 0).qwidx == 0) = true
    ∧ next? (exec (.sensorSample 0 20 125 20 20) State.reset) (fun t => t.grant == 0 && t.out == [.msix .pf0 1]) = true
    ∧ next? (exec .lncTick State.reset) (fun t => t.ticks8 == 1) = true := by decide +kernel
/-- R20, R23: the step runs a word that is placed for it. -/
theorem test_step : next? (step (State.reset.withFetchWord 80 0x04600000080000000001)) (fun t => regS t 0 8 == 1) = true := by decide +kernel

/-! ## Hypotheses that are met -/

/-- Every word of the S walker is ready in the small state (`Ready` of every statement about it). -/
theorem test_meets_ready_s :
    ([.nop, .ret, .exit, .join] : List (Hdr → Instr)).all
        (fun m => readyB (m h0) (at0 .s) 0 .s) = true
    ∧ ([.add, .sub, .mul, .mulh, .mulhu, .div, .divu, .rem, .remu, .and, .or, .xor, .shl, .shr, .sra, .min, .max, .minu,
        .maxu, .popc, .clz, .ctz, .cmpeq, .cmpne, .cmplt, .cmpltu, .cmple, .cmpleu, .sel, .brr, .callr, .qpop, .fqpush,
        .sleepns, .rdlnc, .rdcsr, .wrcsr, .srread, .srreadPol, .srreadClr] : List (Hdr → FSR → Instr)).all
        (fun m => readyB (m h0 default) (at0 .s) 0 .s) = true
    ∧ ([.addi, .muli, .andi, .ori, .xori, .shli, .shri, .srai, .cmpeqi, .cmplti, .prio, .trap, .rett] : List (Hdr → FSI → Instr)).all
        (fun m => readyB (m h0 default) (at0 .s) 0 .s) = true
    ∧ ([.li, .lih] : List (Hdr → FSL → Instr)).all
        (fun m => readyB (m h0 default) (at0 .s) 0 .s) = true
    ∧ ([.br, .bz, .bnz, .beq, .bne, .blt, .bge, .bltu, .bgeu, .bq, .bqn, .call] : List (Hdr → FB → Instr)).all
        (fun m => readyB (m h0 default) (at0 .s) 0 .s) = true
    ∧ ([.lds, .sts] : List (Hdr → FSM → Instr)).all
        (fun m => readyB (m h0 default) (at0 .s) 0 .s) = true
    ∧ ([.cadd, .caddi, .cwait, .cwaitT, .cread, .barrive, .bwait, .bexp, .fence, .phase] : List (Hdr → FCN → Instr)).all
        (fun m => readyB (m h0 default) (at0 .s) 0 .s) = true := by decide +kernel
/-- Every word of the A walker is ready in the small state (`Ready` of every statement about it). -/
theorem test_meets_ready_a :
    ([.aadd, .asub, .aqeq, .aqne, .aqlt, .aqltu] : List (Hdr → FAR → Instr)).all
        (fun m => readyB (m h0 default) (at0 .a) 0 .a) = true
    ∧ ([.aaddi, .amuli, .ashli, .amov, .amovi, .aqeqi, .aqlti, .rfdefer] : List (Hdr → FAI → Instr)).all
        (fun m => readyB (m h0 default) (at0 .a) 0 .a) = true
    ∧ ([.copy, .copy2d, .gather, .scatter, .ldq, .kvmap, .kvshare, .kvfree, .viewDef, .brefill] : List (Hdr → FAM → Instr)).all
        (fun m => readyB (m h0 default) (at0 .a) 0 .a) = true
    ∧ ([.rfnow, .rdretb] : List (Hdr → Instr)).all
        (fun m => readyB (m h0) (at0 .a) 0 .a) = true
    ∧ ([.amoAdd, .amoMax, .amoMin, .amoAnd, .amoOr, .amoXchg, .amoCas] : List (Hdr → FAO → Instr)).all
        (fun m => readyB (m h0 default) (at0 .a) 0 .a) = true := by decide
/-- Every word of the X walker is ready in the small state (`Ready` of every statement about it). -/
theorem test_meets_ready_x :
    ([.xsh, .xsht] : List (Hdr → FXS → Instr)).all
        (fun m => readyB (m h0 default) (at0 .x) 0 .x) = true
    ∧ ([.xsend, .xrecv, .xbcast] : List (Hdr → FXC → Instr)).all
        (fun m => readyB (m h0 default) (at0 .x) 0 .x) = true := by decide
/-- Every word of the V walker is ready in the small state (`Ready` of every statement about it). -/
theorem test_meets_ready_v :
    ([.vadd, .vsub, .vmul, .vfma, .vfnma, .vmin, .vmax, .vabs, .vneg, .vaddsat, .vsubsat, .vmulh, .vaddQ, .vsubQ, .vmulQ,
        .vfmaQ, .vminQ, .vmaxQ, .vandQ, .vorQ, .vxorQ, .vcmpeqQ, .vcmpltQ, .vcmpleQ, .vand, .vor, .vxor, .vnot, .vpopc,
        .vclz, .vshl, .vshr, .vsra, .vshli, .vshri, .vsrai, .vcmpeq, .vcmpne, .vcmplt, .vcmple, .vcmpun, .kand, .kor, .kxor,
        .kandn, .knot, .kset, .vsel, .vcvt, .vwadd, .vwmul, .vwfma, .vdot4, .vnrw, .vrcp, .vrsq, .vrcpf, .vrsqf, .vexp2,
        .vrsum, .vrmax, .vrmin, .vramax, .vperm, .vslideup, .vslidedn, .vsplat, .vmov, .vqbc] : List (Hdr → FVR → Instr)).all
        (fun m => readyB (m h0 default) (at0 .v) 0 .v) = true
    ∧ ([.vmovi] : List (Hdr → FVI → Instr)).all
        (fun m => readyB (m h0 default) (at0 .v) 0 .v) = true
    ∧ ([.vld, .vlds, .vldx, .vst, .vsts, .vstx] : List (Hdr → FVM → Instr)).all
        (fun m => readyB (m h0 default) (at0 .v) 0 .v) = true := by decide
/-- Every word of the M walker is ready in the small state (`Ready` of every statement about it). -/
theorem test_meets_ready_m :
    ([.mmaBf16, .mmaE4m3, .mmaE5m2, .mmaK4, .mmazBf16, .mmazE4m3, .mmazE5m2, .mmazK4, .mzero, .mldc, .mstc, .mstat] : List (Hdr → FMA → Instr)).all
        (fun m => readyB (m h0 default) (at0 .m) 0 .m) = true
    ∧ ([.qcvtK4, .qcvtE4m3, .qcvtE5m2] : List (Hdr → FMQ → Instr)).all
        (fun m => readyB (m h0 default) (at0 .m) 0 .m) = true := by decide
/-- `ReadyCommon`, as a test. -/
def commonB (i : Instr) (s : State) (e : Eng) : Bool :=
  decide (s.focus = .cls 0 e) && runnable s 0 && !(walkerOf (getCls s 0) e).parked && !(walkerOf (getCls s 0) e).atExit
    && slipOk (getCls s 0) e && (decide (e ≠ .s) || !asleep (getCls s 0)) && (decide (e ≠ .s) || (match blockStep (getCls s 0) i with | .ok _ => true | .error _ => false))
theorem common_of {i : Instr} {s : State} {e : Eng} (hc : 0 < s.cls.length) (h : commonB i s e = true) : ReadyCommon i s 0 e := by
  simp only [commonB, Bool.and_eq_true, decide_eq_true_eq, Bool.not_eq_true', Bool.or_eq_true] at h
  obtain ⟨⟨⟨⟨⟨⟨h1, h2⟩, h3⟩, h4⟩, h5⟩, h7⟩, h6⟩ := h
  refine ⟨h1, hc, h2, h3, h4, h5, fun he => ?_, fun he => ?_⟩
  · rcases h7 with h | h
    · exact absurd he h
    · exact h
  · rcases h6 with h | h
    · exact absurd he h
    · split at h
      · exact ⟨_, ‹_›⟩
      · cases h
/-- Every condition of a branch holds in one of two states and fails in the other; a register target in slot 5 of the last line
below 2^56. -/
theorem test_meets_RegisterBranches :
    let s := at0 .s (sr [(1, 1), (2, 2)])
    let t := at0 .s (sr [(1, BitVec.ofNat 64 (2 ^ 56 - 59))])
    readyB (.blt h0 ⟨1, 2, 0⟩) s 0 .s = true ∧ (regS s 0 1 ≠ regS s 0 2 ∧ (regS s 0 1).toInt < (regS s 0 2).toInt ∧ (regS s 0 1).toNat ≠ 0)
    ∧ readyB (.bge h0 ⟨0, 0, 0⟩) s 0 .s = true ∧ (regS s 0 0 = regS s 0 0 ∧ (regS s 0 0).toInt ≥ (regS s 0 0).toInt ∧ (regS s 0 0).toNat = 0)
    ∧ readyB (.brr h0 ⟨0, 1, 0, 0, 0⟩) t 0 .s = true ∧ (regS t 0 1).toNat < 2 ^ 56 ∧ (regS t 0 1).toNat % 64 = 5 := by decide
/-- Fifteen and sixteen return addresses, none, targets in slot 5 and 6. -/
theorem test_meets_CallsAndReturns :
    let s := fun (n : Nat) => at0 .s (fun k => { sr [(1, 5), (2, 6)] k with ws := { rstack := List.replicate n 7 } }) owned0
    readyB (.call h0 default) (s 15) 0 .s = true ∧ (getCls (s 15) 0).ws.rstack.length < 16
    ∧ readyB (.callr h0 ⟨0, 1, 0, 0, 0⟩) (s 15) 0 .s = true ∧ (regS (s 15) 0 1).toNat < 2 ^ 56 ∧ (regS (s 15) 0 1).toNat % 64 < 6
    ∧ readyB (.ret h0) (s 1) 0 .s = true ∧ (getCls (s 1) 0).ws.rstack = [7]
    ∧ readyB (.call h0 default) (s 16) 0 .s = true ∧ 16 ≤ (getCls (s 16) 0).ws.rstack.length
    ∧ readyB (.ret h0) (s 0) 0 .s = true ∧ (getCls (s 0) 0).ws.rstack = []
    ∧ readyB (.callr h0 ⟨0, 1, 0, 0, 0⟩) (s 16) 0 .s = true ∧ readyB (.callr h0 ⟨0, 2, 0, 0, 0⟩) (s 0) 0 .s = true
    ∧ readyB (.brr h0 ⟨0, 2, 0, 0, 0⟩) (s 0) 0 .s = true ∧ ¬ ((regS (s 0) 0 2).toNat < 2 ^ 56 ∧ (regS (s 0) 0 2).toNat % 64 < 6)
    ∧ (teamOf (s 0) 0).isSome = true := by decide
/-- Queues with one element, both outcomes; 15 and 16 entries of QF; empty queues. -/
theorem test_meets_QueueWords :
    let s := at0 .s fun k => { k with qb := [true], qs := [3], qf := List.replicate 15 0 }
    let t := at0 .s fun k => { k with qb := [false], qf := List.replicate 16 0 }
    readyB (.bq h0 default) s 0 .s = true ∧ (getCls s 0).qb = [true] ∧ readyB (.bqn h0 default) t 0 .s = true ∧ (getCls t 0).qb = [false]
    ∧ readyB (.qpop h0 default) s 0 .s = true ∧ (getCls s 0).qs = [3] ∧ s.poison = []
    ∧ readyB (.fqpush h0 default) s 0 .s = true ∧ (getCls s 0).qf.length < 16
    ∧ readyB (.fqpush h0 default) t 0 .s = true ∧ 16 ≤ (getCls t 0).qf.length
    ∧ (getCls (at0 .s) 0).qb = [] ∧ (getCls (at0 .s) 0).qs = [] := by decide
/-- PRIO 3 on a team; waits of 0 and 1 ns; RDLNC outside and in pair mode. -/
theorem test_meets_TimeAndPriorityWords :
    let s := at0 .s (sr [(1, 1)]) owned0
    let p := at0 .s id (owned0 true)
    readyB (.prio h0 ⟨0, 0, 3⟩) s 0 .s = true ∧ (teamOf s 0).map (fun t => (t.id, t.classes)) = some (5, [0]) ∧ s.teams.length = 1
    ∧ readyB (.sleepns h0 ⟨0, 0, 0, 0, 0⟩) s 0 .s = true ∧ (regS s 0 0).toNat = 0
    ∧ readyB (.sleepns h0 ⟨0, 1, 0, 0, 0⟩) s 0 .s = true ∧ (regS s 0 1).toNat ≠ 0
    ∧ readyB (.rdlnc h0 default) s 0 .s = true ∧ (getPart s (partOf s 0)).paired = false
    ∧ readyB (.rdlnc h0 default) p 0 .s = true ∧ (getCls p 0).hmode = false ∧ (getPart p (partOf p 0)).paired = true := by decide
/-- RDCSR of LNC and AFLG: nothing older in V and M, an older M word that has not issued, pair mode, both states of deferral. -/
theorem test_meets_ReadControlRegister :
    let s := at0 .s id owned0
    let w := at0 .s fun k => { k with ws := { ord := 1 }, pend := [⟨0, .m, .mzero h0 default⟩] }
    let p := at0 .s id (owned0 true)
    readyB (.rdcsr h0 ⟨3, 0, 0, 0, 3⟩) s 0 .s = true ∧ (getPart s (partOf s 0)).paired = false
    ∧ readyB (.rdcsr h0 ⟨3, 0, 0, 0, 9⟩) s 0 .s = true ∧ vmDone (getCls s 0) (getCls s 0).ws.ord = true
    ∧ (getCls s 0).hub < 64 ∧ (getCls s 0).kbkt < 4 ∧ s.grant < 8 ∧ (getCls s 0).defer = false
    ∧ (getCls (at0 .s fun k => { k with defer := true }) 0).defer = true
    ∧ readyB (.rdcsr h0 ⟨3, 0, 0, 0, 9⟩) w 0 .s = true ∧ vmDone (getCls w 0) (getCls w 0).ws.ord = false
    ∧ readyB (.rdcsr h0 ⟨3, 0, 0, 0, 3⟩) p 0 .s = true ∧ (getCls p 0).hmode = false ∧ (getPart p (partOf p 0)).paired = true := by decide
/-- WRCSR of SRSEED and AFLG with nothing older and with an older M word; canonical tables of generators and flags. -/
theorem test_meets_WriteControlRegister :
    let s := at0 .s
    let w := at0 .s fun k => { k with ws := { ord := 1 }, pend := [⟨0, .m, .mzero h0 default⟩] }
    readyB (.wrcsr h0 ⟨0, 1, 0, 0, 5⟩) s 0 .s = true ∧ vmDone (getCls s 0) (getCls s 0).ws.ord = true
    ∧ readyB (.wrcsr h0 ⟨0, 1, 0, 0, 9⟩) w 0 .s = true ∧ vmDone (getCls w 0) (getCls w 0).ws.ord = false
    ∧ twf 1 (getCls s 0).srgen = true ∧ twf 0 (getCls s 0).aflg = true := by decide
/-- The last byte of scratch and one beyond, a misaligned offset; the common words with both kinds of count. -/
theorem test_meets_ScratchAndCommonWords :
    let s := at0 .s (sr [(1, 65535), (2, 65536)]) owned0
    readyB (.lds h0 ⟨3, 1, 0, false, 0⟩) s 0 .s = true ∧ Memory.wf s.mem ∧ (regS s 0 1).toNat + 1 ≤ 65536
    ∧ poisonAt s (.scratch 0 1023) = none ∧ readyB (.sts h0 ⟨3, 1, 0, false, 0⟩) s 0 .s = true
    ∧ readyB (.lds h0 ⟨3, 2, 0, false, 0⟩) s 0 .s = true ∧ ¬ (regS s 0 2).toNat + 1 ≤ 65536
    ∧ readyB (.sts h0 ⟨3, 1, 1, false, 0⟩) s 0 .s = true ∧ (regS s 0 1).toNat % 2 ≠ 0 ∧ (getCls s 0).hmode = false
    ∧ readyB (.nop h0) s 0 .s = true
    ∧ commonB (.blk h0 ⟨1, 0⟩) s .s = true ∧ commonB (.blk h0 ⟨1, 0⟩) (at0 .m) .m = true
    ∧ commonB (.loop h0 ⟨false, 0, 4⟩) (at0 .a) .a = true ∧ commonB (.loop h0 ⟨false, 4, 4⟩) s .s = true
    ∧ commonB (.loop h0 ⟨true, 0x08000000, 4⟩) s .s = true
    ∧ regsFree (getCls s 0) (getCls s 0).ws.ord (.loop h0 ⟨true, 0x08000000, 4⟩) = true
    ∧ (regS s 0 ((0x08000000 : W32).extractLsb' 27 5)).toNat = 65535
    ∧ (let t := at0 .v fun k => { k with resolved := [(0, 3)] }
       commonB (.loop h0 ⟨true, 0x08000000, 4⟩) t .v = true ∧ commonB (.psw h0 default) t .v = true
       ∧ (getCls t 0).resolved.find? (fun r => r.1 = (walkerOf (getCls t 0) .v).ord) = some (0, 3))
    ∧ commonB (.psw h0 default) s .s = true ∧ (getPart s (partOf s 0)).paired = false := by decide
/-- An outcome compare whose condition holds and one whose condition fails, 63 and 64 entries of QB. -/
theorem test_meets_OutcomeCompares :
    let s := fun (n : Nat) => at0 .a fun k => ar [(1, 1)] { k with qb := List.replicate n true }
    readyB (.aqlt h0 ⟨0, 1, 0⟩) (s 63) 0 .a = true ∧ (getCls (s 63) 0).qb.length < 64
    ∧ (regA (s 63) 0 0).toInt < (regA (s 63) 0 1).toInt ∧ regA (s 63) 0 0 ≠ regA (s 63) 0 1
    ∧ readyB (.aqeqi h0 ⟨1, 0, 0, 1⟩) (s 64) 0 .a = true ∧ 64 ≤ (getCls (s 64) 0).qb.length
    ∧ regA (s 64) 0 1 = BitVec.ofInt 64 ((regS (s 64) 0 0).toNat + (1 : W32).toInt) := by decide
/-- `Presented`, as a test: the addresses resolve, no view-order check fails, nothing is to be translated. -/
def presentedB (s : State) (al : Allow) (kdst : Nat) (legs : List Leg) : Bool :=
  (legsPoison s 0 legs).isNone && match resolveLegs s (getCls s 0).views 0 al legs [] with
  | .ok ms => (vchkBad s 0 (getCls s 0).wa.ord (kdst == 2) ms).isNone && (firstBatch s 0 (segsOf (winOf s 0)) kdst ms).bad.isNone
      && (missing (getCls s 0) (firstBatch s 0 (segsOf (winOf s 0)) kdst ms).pages).isNone
  | .error _ => false
theorem presented_of {s : State} {al : Allow} {kdst : Nat} {legs : List Leg} (h : presentedB s al kdst legs = true) :
    ∃ s1 ms, Presented s 0 al kdst legs s1 ms := by
  simp only [presentedB, Bool.and_eq_true, Option.isNone_iff_eq_none] at h
  obtain ⟨hp, h⟩ := h
  split at h
  · simp only [Bool.and_eq_true, Option.isNone_iff_eq_none] at h
    exact ⟨_, _, hp, ‹_›, h.1.1, h.1.2, h.2, rfl⟩
  · cases h
/-- 1 TiB, where the segment of the small state begins. -/
abbrev base1 : W64 := BitVec.ofNat 64 (2 ^ 40)
/-- Registers of the transfers: a0 = 0, a1 = 1 TiB, a2 = 64, a3 = the last line of a tower, a4 = (1 row, 64 bytes); s1 = pitches of
64, s2 = counter 2. -/
def moveState : State :=
  at0 .a (fun k => { k with areg := [(1, base1), (2, 64), (3, 2 ^ 25 - 64), (4, 2 ^ 32 + 64), (5, 2 ^ 32), (6, 2 ^ 25 + 64)]
                            sreg := [(1, 2 ^ 38 + 64), (2, 2), (3, 1)] }) owned0
/-- COPY of each kind between 1 TiB and the last line of the towers, counted by counter 2 and plain; a length of 0. -/
theorem test_meets_copy :
    let s := moveState
    readyB (.copy h0 ⟨3, 1, 2, 7, 0x10, 2, 0⟩) s 0 .a = true ∧ readyB (.copy h0 ⟨1, 3, 2, 7, 0x40, 0, 0⟩) s 0 .a = true
    ∧ readyB (.copy h0 ⟨1, 1, 2, 7, 0x80, 0, 0⟩) s 0 .a = true ∧ readyB (.copy h0 ⟨3, 1, 2, 7, 0x20, 0, 0x7C00⟩) s 0 .a = true
    ∧ readyB (.copy h0 ⟨3, 1, 0, 7, 0, 0, 0⟩) s 0 .a = true ∧ readyB (.copy h0 ⟨3, 1, 6, 7, 0, 0, 0⟩) s 0 .a = true
    ∧ (regA s 0 2).toNat = 64 ∧ (regA s 0 3).toNat + 64 = 2 ^ 25 ∧ (regA s 0 6).toNat = 2 ^ 25 + 64 ∧ hotOn s 0 = false
    ∧ 31 ∈ desksOf s 0 ∧ ctrInRange s (partOf s 0) (regS s 0 2).toNat = true
    ∧ presentedB s ⟨true, true⟩ 1 ((copyRange s 0 default).map fun k => ⟨.glob (2 ^ 40), .tower 0 k (2 ^ 25 - 64), 64⟩) = true
    ∧ presentedB s ⟨true, true⟩ 1 ((copyRange s 0 default).map fun k => ⟨.tower 0 k (2 ^ 25 - 64), .glob (2 ^ 40), 64⟩) = true
    ∧ presentedB s ⟨true, true⟩ 1 [⟨.glob (2 ^ 40), .glob (2 ^ 40), 64⟩] = true := by decide +kernel
/-- COPY2D of one row of 64 bytes with pitches of 64. -/
theorem test_meets_copy2d :
    let s := moveState
    readyB (.copy2d h0 ⟨3, 1, 4, 7, 0, 1, 0⟩) s 0 .a = true ∧ (regA s 0 4).toNat / 2 ^ 32 = 1 ∧ (regA s 0 4).toNat % 2 ^ 32 = 64
    ∧ (regS s 0 1).toNat / 2 ^ 32 = 64 ∧ (regS s 0 1).toNat % 2 ^ 32 = 64
    ∧ presentedB s ⟨false, false⟩ 1 ((List.range 1).flatMap fun j => (copyRange s 0 default).map fun k =>
        ⟨.glob (2 ^ 40 + j * 64), .tower 0 k (2 ^ 25 - 64 + j * 64), 64⟩) = true := by decide +kernel
/-- GATHER and SCATTER of one row of 64 bytes, before and after their index lists are read; one of 129 rows with 128 indices read. -/
theorem test_meets_indexed :
    let s := moveState
    let ls : List (List Nat) := List.replicate 32 [3]
    let t := modCls s 0 fun k => { k with taken := [⟨0, 0, some ls⟩] }
    let u := modCls s 0 fun k => { k with taken := [⟨0, 0, some (List.replicate 32 (List.replicate 128 3))⟩] }
    readyB (.gather h0 ⟨0, 1, 0, 7, 8, 2, 129⟩) u 0 .a = true ∧ olderOps (getCls u 0) (getCls u 0).wa.ord = []
    ∧ (((((takenHere (getCls u 0) .a).bind (·.index)).getD []).headD []).length = 128) ∧ (129 - 128 < 128) ∧ (desksOf u 0).length = 32
    ∧ readyB (.gather h0 ⟨3, 1, 0, 7, 8, 2, 1⟩) s 0 .a = true ∧ readyB (.scatter h0 ⟨1, 3, 0, 7, 0, 0, 1⟩) s 0 .a = true
    ∧ takenHere (getCls s 0) .a = none ∧ Memory.wf s.mem ∧ s.poison = [] ∧ olderOps (getCls s 0) (getCls s 0).wa.ord = []
    ∧ readyB (.gather h0 ⟨3, 1, 0, 7, 8, 2, 1⟩) t 0 .a = true ∧ readyB (.scatter h0 ⟨1, 3, 0, 7, 0, 0, 1⟩) t 0 .a = true
    ∧ takenHere (getCls t 0) .a = some ⟨(getCls t 0).run, (getCls t 0).wa.ord, some ls⟩
    ∧ presentedB t ⟨true, true⟩ 1 (((desksOf t 0).zip ls).flatMap fun x => (x.2.zipIdx).map fun y =>
        ⟨.glob (2 ^ 40 + y.1 * 64), .tower 0 x.1 (2 ^ 25 - 64 + y.2 * 64), 64⟩) = true
    ∧ presentedB t ⟨true, true⟩ 1 (((desksOf t 0).zip ls).flatMap fun x => (x.2.zipIdx).map fun y =>
        ⟨.tower 0 x.1 (2 ^ 25 - 64 + y.2 * 64), .glob (2 ^ 40 + y.1 * 64), 64⟩) = true := by decide +kernel
/-- LDQ of 8 bytes; BREFILL of one slice to a column of class 0, with and without forced refresh. -/
theorem test_meets_queue_read_refill :
    let s := moveState
    let w := modCls s 0 fun k => { k with passes := [⟨0, 0, true⟩] }
    readyB (.ldq h0 ⟨0, 1, 0, 0, 0x60, 0, 8⟩) s 0 .a = true ∧ ((regA s 0 1).toNat + 8) % 8 = 0 ∧ roomQ (getCls s 0) false = true
    ∧ presentedB s ⟨true, true⟩ 1 [⟨.glob (2 ^ 40 + 8), .none, 8⟩] = true
    ∧ readyB (.brefill h0 ⟨3, 1, 5, 7, 1, 3, 0⟩) s 0 .a = true ∧ refillTargets (regA s 0 5).toNat (regS s 0 3).toNat = [(0, 0)]
    ∧ (regA s 0 5).toNat = 2 ^ 32 ∧ classIn s (partOf s 0) 0 = true ∧ frcOf (getCls s 0) = false
    ∧ presentedB s ⟨false, true⟩ 1 ((List.range 8).map fun r => ⟨.glob (2 ^ 40 + 64 * r), .tower 0 (4 * r) (2 ^ 25 - 64), 64⟩) = true
    ∧ readyB (.brefill h0 ⟨3, 1, 5, 7, 1, 3, 0⟩) w 0 .a = true ∧ frcOf (getCls w 0) = true := by decide +kernel
/-- VIEW.DEF of one row of 64 one-byte elements at the end of the segment; one row too many. -/
theorem test_meets_ViewDefinition :
    let s := at0 .a (fun k => { k with areg := [(1, base1 + 0xFFFC0), (2, 64 * 2 ^ 25 + 1), (3, 64 * 2 ^ 25 + 2)], sreg := [(1, 64)] }) owned0
    readyB (.viewDef h0 ⟨2, 1, 2, 0, 0, 1, 0⟩) s 0 .a = true ∧ readyB (.viewDef h0 ⟨2, 1, 3, 0, 0, 1, 0⟩) s 0 .a = true
    ∧ (findSeg (segsOf (winOf s 0)) (regA s 0 1).toNat).map (fun g => g.vbase + g.len) = some (2 ^ 40 + 2 ^ 20)
    ∧ (regA s 0 1).toNat + 64 = 2 ^ 40 + 2 ^ 20 ∧ (regA s 0 2).toNat % 2 ^ 25 = 1 ∧ (regA s 0 3).toNat % 2 ^ 25 = 2 := by decide +kernel
/-- Deferral to a limit and to 0, with nothing forced; a full queue and a reserved entry for RDRETB. -/
theorem test_meets_RefreshWords :
    let s := at0 .a (sr [(1, 5)])
    let full := at0 .a fun k => { k with qs := List.replicate 64 0 }
    let held := at0 .a fun k => { k with inflight := [{ id := 0, ord := 0, run := 0, eng := .a, instr := .ldq h0 ⟨0, 1, 0, 0, 0x60, 0, 0⟩ }] }
    readyB (.rfdefer h0 ⟨0, 0, 1, 0⟩) s 0 .a = true ∧ forcedTowers (getCls s 0) = []
    ∧ readyB (.rdretb h0) s 0 .a = true ∧ roomQ (getCls s 0) false = true ∧ reservedQ (getCls s 0) false = 0
    ∧ readyB (.rdretb h0) full 0 .a = true ∧ roomQ (getCls full 0) false = false
    ∧ readyB (.rdretb h0) held 0 .a = true ∧ reservedQ (getCls held 0) false ≠ 0 := by decide +kernel
/-- The default remapping names each tower once. -/
theorem remapOk_reset (k : ClassState) (h : k.remap = []) : RemapOk k := by
  intro d e _ _ x
  simpa [physTower, h, tget] using x
/-- A node whose team is a line of classes 0 and 1: north-south, or west-east. -/
def lineTeam (shape : Nat) (s : State) : State :=
  let s := owned0 false s
  { s with
    insts := [{ inst1 with snaps := [⟨leBytes 8 (shape * 2 ^ 53) ++ List.replicate 120 0, [], win1, []⟩] }]
    teams := [{ id := 5, inst := 1, node := 0, ord := 0, classes := [0, 1], own := 0 }] }
/-- Shifts inside a class and along a line; the last line of the towers. -/
theorem test_meets_SystolicShifts :
    let s := at0 .x (sr [(1, 2 ^ 25 - 64)]) owned0
    let t := at0 .x (sr [(1, 2 ^ 25 - 64)]) (lineTeam 1)
    readyB (.xsh h0 ⟨31, 31, 2, 0, 0⟩) s 0 .x = true ∧ alongLine s 0 2 = false ∧ s.poison = [] ∧ hotOn s 0 = false
    ∧ readyB (.xsht h0 ⟨0, 2, 0, 2, 0⟩) s 0 .x = true ∧ Memory.wf s.mem ∧ (getCls s 0).remap = []
    ∧ (regS s 0 1).toNat + 64 = 2 ^ 25 ∧ (regS s 0 0).toNat = 0
    ∧ ([s, t].all fun s => xTurn s 0 (olderOps (getCls s 0) (getCls s 0).wx.ord) (deskSpans s 0 (2 ^ 25 - 64) 64) (deskSpans s 0 0 64)) = true
    ∧ readyB (.xsh h0 ⟨1, 2, 2, 0, 0⟩) t 0 .x = true ∧ alongLine t 0 2 = true ∧ readyB (.xsht h0 ⟨0, 2, 3, 0, 0⟩) t 0 .x = true
    ∧ alongLine t 0 3 = true := by decide +kernel
/-- XSH of v1 to v2, east, round the edge, in flight with its sources. -/
def shiftWord : InFlight :=
  { id := 0, ord := 0, run := 0, eng := .x, instr := .xsh h0 ⟨1, 2, 2, 0, 0⟩, ops := [2]
    moves := List.replicate 256 ⟨.line (List.replicate 64 5) none, .none, 64⟩ }
/-- Both members of a line hold a shift. -/
theorem test_meets_line_shift :
    let s := modCls (at0 .x (fun k => { k with inflight := [shiftWord] }) (lineTeam 1)) 1 fun k => { k with live := true, inflight := [shiftWord] }
    findOp s 0 0 = some shiftWord ∧ (shiftFields shiftWord.instr).isSome = true ∧ (teamOf s 0).map (·.classes) = some [0, 1] ∧ shapeOf s 0 = 1
    ∧ Memory.wf s.mem ∧ ([0, 1].all fun m => (getCls s m).live && !(getCls s m).frozen && (getCls s m).remap.isEmpty && !hotOn s m) = true
    ∧ s.cls.length = 40 ∧ [0, 1].map (oldestShift s) = [some (shiftWord, ⟨1, 2, 2, 0, 0⟩), some (shiftWord, ⟨1, 2, 2, 0, 0⟩)]
    ∧ op0 shiftWord 0 = 2 := by decide +kernel
theorem test_meets_kept_units : KeptUnits shiftWord ⟨1, 2, 2, 0, 0⟩ ⟨2, 0, 8, fun _ => List.replicate 8 (List.replicate 64 5, none)⟩ := by
  refine ⟨rfl, rfl, rfl, by decide +kernel, fun d _ => rfl, fun d _ l h => ?_⟩
  rw [List.eq_of_mem_replicate h]; decide
/-- Addresses on class 1, on the peer package 9, a broadcast to classes 1 and 2; the last line; a length of 0. -/
theorem test_meets_CorridorTransfers :
    let s := at0 .x (sr [(1, 64), (2, 2 ^ 40 + 2 ^ 25 - 64), (3, 2 ^ 25 - 64), (4, 2), (5, BitVec.ofNat 64 (2 ^ 63 + 9 * 2 ^ 55)), (6, 6), (7, 1)])
      (fun s => modPart (owned0 false s) 1 fun p => { p with peer := some 9 })
    readyB (.xsend h0 ⟨2, 3, 1, 4, 8, 0x40⟩) s 0 .x = true ∧ readyB (.xsend h0 ⟨5, 3, 1, 4, 8, 0x40⟩) s 0 .x = true
    ∧ readyB (.xrecv h0 ⟨3, 2, 1, 0, 8, 0⟩) s 0 .x = true ∧ readyB (.xbcast h0 ⟨6, 3, 1, 0, 8, 0⟩) s 0 .x = true
    ∧ readyB (.xsend h0 ⟨2, 3, 0, 0, 8, 0⟩) s 0 .x = true ∧ (regS s 0 0).toNat = 0 ∧ (regS s 0 1).toNat = 64
    ∧ ((regS s 0 2).extractLsb' 40 6).toNat = 1 ∧ ((regS s 0 2).extractLsb' 0 26).toNat + 64 = 2 ^ 25 ∧ (regS s 0 2).extractLsb' 46 18 = 0
    ∧ (regS s 0 2).extractLsb' 26 14 = 0 ∧ classIn s (partOf s 0) 1 = true ∧ classIn s (partOf s 0) 2 = true
    ∧ (regS s 0 5).getLsbD 63 = true ∧ (getPart s (partOf s 0)).paired = false
    ∧ (getPart s (partOf s 0)).peer = some ((regS s 0 5).extractLsb' 55 8).toNat ∧ (regS s 0 5).extractLsb' 0 55 = 0
    ∧ handleOk s (regS s 0 4).toNat = true ∧ (regS s 0 4).toNat < 2 ^ 25 ∧ (regS s 0 3).toNat + 64 = 2 ^ 25 := by decide +kernel
/-- Pool 3 of four entries and two blocks of 4 KiB at physical address 0: slot 1 live with key 1·2^32 and block 1, block 0 free. -/
def poolMem : List Host.Cell :=
  [(16, 1), (20, 1)] ++ [(84, 1), (88, 1), (95, 0x80)] ++ [(130, 1)]
/-- A word of class 0 with running number 0 stands issued with these operands and movements. -/
def flying (i : Instr) (e : Eng) (ops : List W64) (ms : List Move := []) (st : OpStatus := .issued) (k : ClassState) : ClassState :=
  { k with nextId := 1, inflight := [{ id := 0, ord := 0, run := 0, eng := e, instr := i, ops := ops, moves := ms, status := st }] }
/-- The small state with that pool and memory. -/
def poolState (i : Instr) (ops : List W64) (m : List Host.Cell := poolMem) : State :=
  { at0 .a (flying i .a ops [⟨.mem (2 ^ 40), .none, 65536⟩]) owned0 with
    mem := m
    insts := [{ inst1 with snaps := [⟨[], [], leBytes 8 (2 ^ 40) ++ leBytes 8 1 ++ leBytes 8 0 ++ leBytes 8 (2 ^ 63 + 2 ^ 58 + 3 * 2 ^ 50),
      [(3, [12, 4, 2, 4096])]⟩] }] }
def pool3 : Pool := ⟨⟨2 ^ 40, 65536, 0, false, false, false, false, true, 0, 3, false, 0⟩, 12, 4, 2, 4096⟩
abbrev kvf : FAM := ⟨1, 2, 0, 4, 3, 0, 0⟩
def mapReadyB (s : State) : Bool :=
  (match findOp s 0 0 with | some f => qaReady s 0 f | none => false) && s.poison.isEmpty && decide (poolOf s 0 3 = some pool3)
    && decide (Memory.wf s.mem) && !amoOpen s pool3.seg.pbase pool3.seg.len
    && (List.range 4).all fun k => !misread s (mapAt pool3 k / 64) (pool3.seg.vbase + mapOff k)
/-- The pool is laid out; it is pool 3 of the class, pool 4 is none; KVMAP of a live key, of a new key with and without a free block;
KVSHARE from an unknown key, to a live key, to a new one, of a block shared 65,535 times; KVFREE of a live and an absent sequence. -/
theorem test_meets_BlockStoreWords :
    let key := fun (n : Nat) => BitVec.ofNat 64 (n * 2 ^ 32)
    let m := fun k => poolState (.kvmap h0 kvf) [key k, 0]
    let sh := fun a b => poolState (.kvshare h0 kvf) [key a, key b]
    let fr := fun k => poolState (.kvfree h0 kvf) [key k, 0]
    let none1 := poolState (.kvmap h0 kvf) [key 2, 0] ((20, 1) :: poolMem.drop 2)
    let many := poolState (.kvshare h0 kvf) [key 2, key 1] (poolMem.dropLast ++ [(130, 255), (131, 255)])
    (64 + 16 * pool3.nent + 6 * pool3.nblk ≤ pool3.blkoff ∧ 0 < pool3.nent)
    ∧ ([m 1, m 2, sh 2 1, sh 2 3, sh 1 1, fr 1, fr 2, none1, many].all mapReadyB) = true
    ∧ readyB (.kvmap h0 kvf) (modCls (m 1) 0 fun k => { k with inflight := [] }) 0 .a = true ∧ poolOf (m 1) 0 4 = none
    ∧ liveAt (m 1) pool3 (2 ^ 32) = some 1 ∧ liveAt (m 1) pool3 (2 ^ 33) = none ∧ openAt (m 1) pool3 (2 ^ 33) = some 2
    ∧ ftop (m 1) pool3 = 1 ∧ readNat (m 1) (freeAt pool3 0) 4 = 0 ∧ ftop none1 pool3 = 0 ∧ liveAt none1 pool3 (2 ^ 33) = none
    ∧ (getEntry (m 1) pool3 1).block = 1 ∧ refCount (m 1) pool3 1 = 1 ∧ refCount many pool3 1 = 65535
    ∧ liveAt (m 1) pool3 (3 * 2 ^ 32) = none
    -- the pool's NLIVE, counts and free stack agree with its map: the one released entry takes block 1's count to 0
    ∧ (let live := fun k => (getEntry (m 1) pool3 k).v && (getEntry (m 1) pool3 k).key / 2 ^ 32 == 1
       let refs := fun (b : Nat) => (List.range 4).countP fun k => live k && (getEntry (m 1) pool3 k).block == b
       (List.range 4).countP live = 1 ∧ nlive (m 1) pool3 = 1 ∧ refs 0 = 0 ∧ refs 1 = 1 ∧ refCount (m 1) pool3 1 = 1
         ∧ ftop (m 1) pool3 + 1 ≤ 2) := by decide +kernel
/-- `VReady` under rounding mode 4, as a test. -/
def vreadyB (i : Instr) (s : State) : Bool :=
  readyB i s 0 .v && s.poison.isEmpty && srClear (getCls s 0) (getCls s 0).wv.ord
/-- Element-wise words: RNE and SR, an empty QV and one with an element, LEN 512 and 64; the seating plan. -/
def vState0 : State := at0 .v (fun k => { k with qv := [7], vl := 64 }) owned0
def hotTeam (s : State) : State :=
  { owned0 false s with insts := [{ inst1 with snaps := [⟨leBytes 8 (2 * 2 ^ 60) ++ List.replicate 120 0, [], win1, []⟩] }] }
abbrev fAny (ty : BitVec 5) (rm : BitVec 3) (aux : BitVec 8) : FVR := ⟨4, 2, 6, 8, ty, 1, true, rm, false, aux⟩
theorem test_meets_VectorArithmetic :
    vreadyB (.vadd h0 (fAny 8 4 0)) (at0 .v) = true ∧ vreadyB (.vfma h0 (fAny 9 0 0)) (at0 .v id hotTeam) = true ∧ hotOn (at0 .v id hotTeam) 0 = true
    ∧ vreadyB (.vaddQ h0 (fAny 8 4 0)) vState0 = true ∧ (getCls vState0 0).qv = [7] ∧ (getCls (at0 .v) 0).qv = []
    ∧ lenOf vState0 0 = 64 ∧ lenOf (at0 .v) 0 = 512 := by decide +kernel
theorem test_meets_VectorIntegerWords :
    vreadyB (.vshl h0 (fAny 7 0 0)) vState0 = true ∧ vreadyB (.vshli h0 (fAny 1 0 7)) vState0 = true
    ∧ vreadyB (.vxorQ h0 (fAny 0 0 0)) vState0 = true ∧ vreadyB (.vaddsat h0 (fAny 4 0 0)) (at0 .v) = true := by decide +kernel
/-- Integer and floating elements of both kinds of comparison; 1.0 and the quiet NaN of FP32. -/
theorem test_meets_VectorComparesAndMasks :
    vreadyB (.vcmplt h0 (fAny 8 0 0)) vState0 = true ∧ vreadyB (.vcmpeqQ h0 (fAny 1 0 0)) vState0 = true
    ∧ vreadyB (.kandn h0 (fAny 0 0 0)) vState0 = true ∧ vreadyB (.kset h0 (fAny 1 0 0)) vState0 = true
    ∧ tyF 8 = true ∧ tyF 1 = false ∧ valOf fF32 0x3F800000 = .fin false 0x800000 (-23) ∧ (valOf fF32 0x7FC00000).isNan = true := by decide +kernel
/-- A slide by 0 and by the last element, a permute of bytes, a select, an immediate. -/
theorem test_meets_VectorMovesAndPermutes :
    vreadyB (.vslideup h0 (fAny 3 0 127)) vState0 = true ∧ vreadyB (.vslidedn h0 (fAny 8 0 0)) vState0 = true
    ∧ vreadyB (.vperm h0 (fAny 1 0 0)) vState0 = true ∧ vreadyB (.vsel h0 (fAny 8 0 0)) vState0 = true
    ∧ vreadyB (.vmovi h0 ⟨31, 8, 1⟩) vState0 = true ∧ vreadyB (.vqbc h0 (fAny 8 0 0)) vState0 = true := by decide +kernel
/-- FP32 to E4M3 in segment 3; FP32 to MXFP4 and K4 in segment 7; K4 to FP32; widening by 2 and 4; narrowing. -/
theorem test_meets_VectorConversions :
    vreadyB (.vcvt h0 (fAny 11 0 0x68)) vState0 = true ∧ tyBlock 11 = false ∧ tyBlock ((0x68 : BitVec 8).extractLsb' 0 5) = false
    ∧ vreadyB (.vcvt h0 (fAny 13 4 0xE8)) (at0 .v) = true ∧ vreadyB (.vcvt h0 (fAny 16 0 0xE8)) vState0 = true
    ∧ tyBlock 13 = true ∧ tyBlock 16 = true ∧ (4 : BitVec 6).getLsbD 0 = false
    ∧ ((0xE8 : BitVec 8).extractLsb' 5 3).toNat * elemBits 13 < 32 ∧ ((0x68 : BitVec 8).extractLsb' 5 3).toNat * elemBits 14 < 32
    ∧ vreadyB (.vcvt h0 (fAny 8 0 0xED)) vState0 = true ∧ tyBlock ((0xED : BitVec 8).extractLsb' 0 5) = true ∧ tyBlock 8 = false
    ∧ vreadyB (.vwadd h0 (fAny 1 0 1)) vState0 = true ∧ 4 % widenWays 0 = 0 ∧ 4 % widenWays 1 = 0
    ∧ vreadyB (.vnrw h0 (fAny 9 0 0)) vState0 = true ∧ narrowOk 9 0 2 = true ∧ vreadyB (.vdot4 h0 (fAny 1 0 0)) vState0 = true := by decide +kernel
/-- The FP32 words, reductions; a list with the least and the largest byte, with the largest and least FP32 and the two zeros,
with a NaN. -/
theorem test_meets_VectorApproximationsAndReductions :
    ([Instr.vrcp h0 (fAny 8 0 0), .vrsq h0 (fAny 8 0 0), .vrcpf h0 (fAny 8 0 0), .vrsqf h0 (fAny 8 0 0), .vexp2 h0 (fAny 8 0 0),
      .vrsum h0 (fAny 8 4 0), .vrmax h0 (fAny 9 0 0), .vrmin h0 (fAny 1 0 0), .vramax h0 (fAny 10 0 0)].all (vreadyB · vState0)) = true
    ∧ tyF 1 = false ∧ tyI 1 = true ∧ ([0x80, 0x7F].all fun v => decide (v < 2 ^ elemBits 1)) = true
    ∧ tyF 8 = true ∧ ([0x7F7FFFFF, 0xFF7FFFFF, 0, 0x80000000].all fun v => decide (v < 2 ^ elemBits 8) && !(valOf (fmtOf 8) v).isNan) = true
    ∧ (valOf (fmtOf 8) 0x7F800001).isNan = true := by decide +kernel
/-- Numbers in the domains of 1/a, 1/√a and 2^a, at their ends: the least subnormal and the largest number; −3; ±149, 127, 128 and
−150; numbers between −126 and −125, 126 and 127; a signalling NaN; infinities. -/
theorem test_meets_approximation_domains :
    (∃ q, ratOf (valOf fF32 1) = some q ∧ 0 < q) ∧ (∃ q, ratOf (valOf fF32 0x7F7FFFFF) = some q ∧ 0 < q)
    ∧ ratOf (valOf fF32 0xC0400000) = some (-3) ∧ ratOf (valOf fF32 0xC3150000) = some ((-149 : ℤ) : ℚ)
    ∧ ratOf (valOf fF32 0x42FE0000) = some ((127 : ℤ) : ℚ) ∧ ratOf (valOf fF32 0x43000000) = some 128
    ∧ ratOf (valOf fF32 0xC3160000) = some (-150) ∧ ratOf (valOf fF32 0xC2FB0000) = some (-125.5)
    ∧ ratOf (valOf fF32 0x42FD0000) = some 126.5 ∧ ratOf (valOf fF32 0) = some 0
    ∧ valOf fF32 0x7F800001 = .nan true ∧ valOf fF32 (f32Inf true) = .inf true := by
  have v : [1, 0x7F7FFFFF, 0xC0400000, 0xC3150000, 0x42FE0000, 0x43000000, 0xC3160000, 0xC2FB0000, 0x42FD0000, 0].map (valOf fF32)
      = [.fin false 1 (-149), .fin false 0xFFFFFF 104, .fin true 0xC00000 (-22), .fin true 0x950000 (-16), .fin false 0xFE0000 (-17),
        .fin false 0x800000 (-16), .fin true 0x960000 (-16), .fin true 0xFB0000 (-17), .fin false 0xFD0000 (-17), .fin false 0 (-149)] := by
    decide +kernel
  simp only [List.map_cons, List.map_nil, List.cons.injEq] at v
  obtain ⟨v1, v2, v3, v4, v5, v6, v7, v8, v9, v10, -⟩ := v
  rw [v1, v2, v3, v4, v5, v6, v7, v8, v9, v10]
  refine ⟨⟨_, rfl, ?_⟩, ⟨_, rfl, ?_⟩, ?_, ?_, ?_, ?_, ?_, ?_, ?_, ?_, by decide +kernel, by decide +kernel⟩
  all_goals norm_num [ratOf]
/-- Segments from 2^25 − 512 to the end of the towers, with record 99 of the partition; a base at the end; record 100, which is not the
partition's. -/
theorem test_meets_VectorTowerWords :
    let s := at0 .v (sr [(1, 2 ^ 25 - 512), (2, 64), (3, 99), (4, 2 ^ 25), (5, 100)]) owned0
    let f : FVM := ⟨4, 1, 2, 6, 0, true, 3, 0⟩
    let l := { f with rc := false }
    vreadyB (.vld h0 l) s = true ∧ vreadyB (.vlds h0 l) s = true ∧ vreadyB (.vldx h0 l) s = true ∧ vreadyB (.vst h0 f) s = true
    ∧ readyB (.vst h0 { f with srec := 5 }) s 0 .v = true ∧ recInRange s (partOf s 0) (regS s 0 5).toNat = false
    ∧ readyB (.vlds h0 { l with sb := 4 }) s 0 .v = true ∧ 0 ∈ desksOf s 0
    ∧ vreadyB (.vsts h0 f) s = true ∧ vreadyB (.vstx h0 f) s = true ∧ Memory.wf s.mem ∧ (getCls s 0).remap = []
    ∧ hotOn s 0 = false ∧ ((desksOf s 0).all fun d => (List.range 8).all fun j => [SegKind.unit, .stride, .index].all fun p =>
        segAt0 s 0 f p d j % 64 == 0 && decide (segAt0 s 0 f p d j + 64 ≤ 2 ^ 25)) = true
    ∧ segAt0 s 0 f .unit 31 7 + 64 = 2 ^ 25 ∧ recInRange s (partOf s 0) (regS s 0 3).toNat = true
    ∧ vreadyB (.vst h0 { f with sb := 4 }) s = true ∧ 0 < lenOf s 0 ∧ (regS s 0 4).toNat + 64 * 0 = 2 ^ 25 := by decide +kernel
/-- `UnderWay` of class 0, as a test. -/
def underB (s : State) (o : InFlight) : Bool :=
  decide (findOp s 0 o.id = some o) && o.status == .issued && (getCls s 0).live && !(getCls s 0).frozen && s.poison.isEmpty
theorem under_of {s : State} {o : InFlight} (h : underB s o = true) : UnderWay s 0 o o.instr := by
  simp only [underB, Bool.and_eq_true, decide_eq_true_eq, beq_iff_eq, Bool.not_eq_true', List.isEmpty_iff] at h
  obtain ⟨⟨⟨⟨h1, h2⟩, h3⟩, h4⟩, h5⟩ := h
  exact ⟨h1, rfl, h2, ⟨h3, h4⟩, h5⟩
/-- Class 0 with one issued word `o` of engine `e`. -/
def goingOn (e : Eng) (o : InFlight) (f : ClassState → ClassState := id) : State :=
  at0 e (fun k => f { k with nextId := 1, inflight := [o] }) owned0
/-- A line of a word, at the last line of desk 31's tower, in a pass. -/
def strip (pass unit : Nat) : Strip :=
  { pass := pass, desk := 31, unit := unit, off := 2 ^ 25 - 64, mask := 0x8001, line := List.replicate 64 7 }
def stripsB (s : State) (gs : List Strip) : Bool :=
  gs.all fun g => g.off % 64 == 0 && decide (g.off + 64 ≤ 2 ^ 25) && decide (g.desk < 32) && decide (g.mask < 2 ^ 16) && g.p.isNone
    && g.line.length == 64 && desksOf s 0 == List.range 32
/-- Unit strides of 64 (one pass of a load) and strides of 1024 (eight segments of one bank); a store of eight segments of eight
banks, which takes two passes; a word under way before its last pass and at it. -/
theorem test_meets_tower_passes :
    let s := at0 .v (sr [(1, 0), (2, 1024), (3, 99)]) owned0
    let f : FVM := ⟨4, 1, 2, 6, 0, true, 3, 0⟩
    let l := { f with rc := false }
    let ld : InFlight := { id := 0, ord := 0, run := 0, eng := .v, instr := .vld h0 l, ops := [99], segs := [strip 0 0, strip 1 1] }
    let st : InFlight := { ld with instr := .vst h0 f }
    (vreadyB (.vlds h0 l) s && vreadyB (.vld h0 l) s && vreadyB (.vst h0 f) s) = true
    ∧ ((stripsOf s 0 l .unit true).all fun g => g.pass == 0) = true ∧ ((stripsOf s 0 l .stride true).any fun g => g.pass != 0) = true
    ∧ ((stripsOf s 0 f .unit false).any fun g => g.pass != 0) = true ∧ (regS s 0 2).toNat % 64 = 0
    ∧ ((stripsOf (at0 .v (fun k => { sr [(1, 0)] k with vl := 64 }) owned0) 0 f .unit false).all fun g => g.pass == 0) = true
    ∧ ([ld, st].all fun o => [0, 1].all fun p => underB (goingOn .v { o with prog := p }) { o with prog := p }) = true
    ∧ stripsB (goingOn .v ld) (taken (goingOn .v ld) 0 0 ld.segs) = true ∧ stripsB (goingOn .v st) st.segs = true
    ∧ (ld.segs.map fun g => (g.desk, g.unit)).Nodup ∧ (ld.segs.map (·.pass)) = [0, 1] ∧ (getCls (goingOn .v ld) 0).remap = []
    ∧ Memory.wf (goingOn .v ld).mem ∧ hotOn (goingOn .v ld) 0 = false := by decide +kernel
/-- 3/2 and −1/4 as FP32; a value inside FP32. -/
theorem test_meets_ExactOperationsRoundedOnce :
    valOf fF32 0x3FC00000 = .fin false 0xC00000 (-23) ∧ valOf fF32 0xBE800000 = .fin true 0x800000 (-25)
    ∧ ratOf (valOf fF32 0x3FC00000) = some (3 / 2) ∧ (∃ t, ratOf (valOf fF32 fF32.maxCode) = some t ∧ -t ≤ 1 / 3 ∧ 1 / 3 ≤ t) := by
  have h : valOf fF32 0x3FC00000 = .fin false 0xC00000 (-23) := by decide +kernel
  have m : valOf fF32 fF32.maxCode = .fin false 0xFFFFFF 104 := by decide +kernel
  refine ⟨h, by decide +kernel, ?_, _, by rw [m]; rfl, ?_, ?_⟩
  · rw [h]; simp only [ratOf]; norm_num
  · norm_num
  · norm_num
/-- Format word 1 in QF; operands at 0 and at the last place of a tower, one that is not aligned, an empty QF with the S walker level
and ahead; the exact values of two factors. -/
theorem test_meets_MatrixSteps :
    let s := at0 .m (fun k => { sr [(1, 2 ^ 25 - 4352), (2, 1)] k with qf := [1] }) owned0
    let ahead := at0 .m fun k => { k with ws := { ord := 1 } }
    let f : FMA := ⟨1, 0, 1, false, 0⟩
    readyB (.mmaK4 h0 f) s 0 .m = true ∧ readyB (.mmazBf16 h0 f) s 0 .m = true ∧ s.poison = [] ∧ Memory.wf s.mem ∧ (getCls s 0).qf = [1]
    ∧ (regS s 0 0).toNat % 256 = 0 ∧ (regS s 0 1).toNat % 256 = 0 ∧ (regS s 0 1).toNat + 1024 * (5 - 1) + 256 = 2 ^ 25
    ∧ ¬ (regS s 0 2).toNat % 256 = 0 ∧ readyB (.mmaK4 h0 { f with sb := 2 }) s 0 .m = true
    ∧ readyB (.mmaK4 h0 { f with sa := 2 }) s 0 .m = true
    ∧ readyB (.mmaBf16 h0 f) (at0 .m) 0 .m = true ∧ (getCls (at0 .m) 0).qf = [] ∧ (getCls (at0 .m) 0).ws.ord ≤ (getCls (at0 .m) 0).wm.ord
    ∧ readyB (.mmaBf16 h0 f) ahead 0 .m = true ∧ ¬ (getCls ahead 0).ws.ord ≤ (getCls ahead 0).wm.ord := by decide +kernel
/-- A step of height 16 before its last wave and at it; a row height of 1 where the permit is none. -/
theorem test_meets_waves :
    let o : InFlight := { id := 0, ord := 0, run := 0, eng := .m, instr := .mmaK4 h0 ⟨1, 0, 1, false, 0⟩
                          ops := [1, 2 ^ 25 - 4352, 0, 16] }
    let at1 := { o with prog := 1 }
    underB (goingOn .m o) o = true ∧ underB (goingOn .m at1) at1 = true ∧ o.eng = .m ∧ Memory.wf (goingOn .m o).mem
    ∧ lastWave (goingOn .m o) 0 o = false ∧ lastWave (goingOn .m at1) 0 at1 = true
    ∧ waveOf (goingOn .m o) 0 o = List.range 16 ∧ (waveOf (goingOn .m at1) 0 at1).map (· - 16) = List.range 16
    ∧ (o.ops.getD 1 0).toNat % 256 = 0 ∧ (o.ops.getD 1 0).toNat + 1024 * (5 - 1) + 256 = 2 ^ 25 ∧ (o.ops.getD 2 0).toNat = 0 := by
  decide +kernel
theorem test_meets_dot : ratOf (.fin true 3 (-1)) = some (-3 / 2) ∧ ([Val.fin false 1 0].map ratOf) = [(1 : ℚ)].map some := by
  constructor <;> simp only [ratOf, List.map] <;> norm_num
/-- A base at the last 8 KiB, the last line for MSTAT; record 99 of the partition, record 100 that is not; a base that is not
aligned. -/
theorem test_meets_AccumulatorWords :
    let s := at0 .m (sr [(1, 2 ^ 25 - 8192), (2, 1), (3, 99), (4, 100), (5, 2 ^ 25 - 64)]) owned0
    readyB (.mzero h0 default) s 0 .m = true ∧ readyB (.mldc h0 ⟨3, 1, 0, false, 0⟩) s 0 .m = true
    ∧ readyB (.mstc h0 ⟨3, 1, 0, true, 3⟩) s 0 .m = true ∧ readyB (.mstat h0 ⟨0, 5, 0, false, 3⟩) s 0 .m = true
    ∧ readyB (.mstat h0 ⟨0, 5, 0, false, 4⟩) s 0 .m = true ∧ readyB (.mldc h0 ⟨3, 2, 0, false, 0⟩) s 0 .m = true
    ∧ s.poison = [] ∧ Memory.wf s.mem ∧ (getCls s 0).remap = [] ∧ hotOn s 0 = false
    ∧ (regS s 0 1).toNat + 8192 = 2 ^ 25 ∧ (regS s 0 5).toNat + 64 = 2 ^ 25 ∧ (regS s 0 2).toNat % 64 ≠ 0
    ∧ recInRange s (partOf s 0) (regS s 0 3).toNat = true ∧ recInRange s (partOf s 0) (regS s 0 4).toNat = false
    -- loads and stores under way, at their first and last lines
    ∧ (let o : InFlight := { id := 0, ord := 0, run := 0, eng := .m, instr := .mldc h0 ⟨3, 1, 0, false, 0⟩, ops := [2 ^ 25 - 8192, 99] }
       let t : InFlight := { o with instr := .mstc h0 ⟨3, 1, 0, true, 3⟩ }
       ([{ o with prog := 0 }, { o with prog := 15 }, { t with prog := 0 }, { t with prog := 31 }].all fun x => underB (goingOn .m x) x) = true
         ∧ (o.ops.getD 0 0).toNat + 8192 = 2 ^ 25 ∧ hotOn (goingOn .m o) 0 = false ∧ (getCls (goingOn .m t) 0).remap = []) := by decide +kernel
/-- Record 7 with TRP and without; both destinations, round to nearest and SR. A wave before the last, the last one with nothing
above the range and with desk 0's first element above it; the lines of a tower output before their last stage and at it; a trap
merge, its cause taken with no handler, with one, and within one. -/
def quantState (pol : W32) (t : Tbl Tile) : State :=
  { at0 .m (fun k => { k with qf := [7], tile := t }) owned0 with recs := [(7, { policy := pol })] }
theorem test_meets_QuantiseWords :
    let f : FMQ := ⟨24, 0, 2, false, 4⟩
    let g : FMQ := { f with vd := 0, dst := true, rm := 0 }
    let fw : W64 := 7
    let o : InFlight := { id := 0, ord := 0, run := 0, eng := .m, instr := .qcvtE5m2 h0 f, ops := [7, 0, 0, 16, 0, 1], prog := 1 }
    let big : Tile := BitVec.ofNat 65536 0x7F000000
    let calm := goingOn .m o
    let trp := goingOn .m o fun k => { k with tile := [(2, big)] }
    let first := { o with prog := 0 }
    let free := { o with ops := [7, 0, 0, 16, 0, 0] }
    let tow := { o with instr := .qcvtE5m2 h0 g, ops := [7, 0, 0, 16, 0, 0, 1], segs := [strip 0 0, strip 1 1], prog := 0 }
    let stop := { o with status := .waiting, ops := [7, 0, 0, 16, 0, 1, 0x7F000000, 0] }
    let merge := goingOn .m stop
    let x : Cause := { (default : Cause) with code := 4, eng := some .m, ord := 0, op := some 0 }
    ([quantState 0 [], quantState 0x40000000 []].all fun s => readyB (.qcvtK4 h0 f) s 0 .m && readyB (.qcvtE4m3 h0 g) s 0 .m
      && s.poison.isEmpty && decide ((getCls s 0).qf = [7]) && recInRange s (partOf s 0) (fw.toNat % 2 ^ 13)
      && srClear (getCls s 0) (getCls s 0).wm.ord) = true
    ∧ admits (.qcvtK4 h0 f) = true ∧ admits (.qcvtE4m3 h0 g) = true ∧ admits (.qcvtE5m2 h0 f) = true
    ∧ (regS calm 0 0).toNat % 256 = 0 ∧ (regS calm 0 0).toNat + 0x2000 + 64 ≤ 2 ^ 25
    ∧ (underB calm o && underB trp o && underB (goingOn .m first) first && underB (goingOn .m free) free && underB (goingOn .m tow) tow
      && underB (goingOn .m { tow with prog := 1 }) { tow with prog := 1 }) = true
    ∧ lastWave (goingOn .m first) 0 first = false ∧ lastWave calm 0 o = true ∧ o.segs = [] ∧ stripsB (goingOn .m tow) tow.segs = true
    ∧ (desksOf trp 0).find? (fun d => (qDesk qE5m2 f o trp 0 d).ovf) = some 0 ∧ o.ops.getD 5 0 = 1 ∧ free.ops.getD 5 0 ≠ 1
    ∧ ((desksOf calm 0).any fun d => (qDesk qE5m2 f o calm 0 d).ovf) = false
    ∧ recInRange calm (partOf calm 0) 100 = false
    ∧ (getCls merge 0).inflight.find? (fun f => f.eng == .m && f.status == .waiting) = some stop ∧ 0 < merge.cls.length
    ∧ (getCls merge 0).inflight.find? (fun g => some g.id = x.op) = some stop ∧ stop.ops.head? = some fw ∧ x.code = 4
    ∧ (getCls merge 0).live = true ∧ (getCls merge 0).hmode = false ∧ (getCls merge 0).hold = none ∧ (getCls merge 0).thnd = 0
    ∧ (getCls (modCls merge 0 fun k => { k with thnd := BitVec.ofNat 64 (2 ^ 56 - 59) }) 0).thnd.toNat % 64 = 5
    ∧ (getCls (modCls merge 0 fun k => { k with hmode := true }) 0).hmode = true := by decide +kernel
/-- Handle 2 of the partition, the odd handle 3, handle 1024 outside it; JOIN behind a marker with its queue idle and busy; PHASE of
scopes 0, 1, 2, with nothing older, behind an issued word that is not counted and behind a counted one. -/
theorem test_meets_SynchronisationWords :
    let s := at0 .s (sr [(1, 2), (2, 1024), (3, 3)]) owned0
    let f : FCN := ⟨1, 0, 0, 0, 0, 0⟩
    let mark := fun (k : ClassState) => { k with fences := [⟨1, 1, 0, 1⟩], nextId := 2, ws := { ord := 2 } }
    let idle := at0 .s mark
    let busy := at0 .s fun k => mark (flying (.copy h0 default) .a [] [] .issued k)
    let cnt := at0 .s fun k => mark (flying (.copy h0 { (default : FAM) with mode := 0x10 }) .a [] [] .issued k)
    ([.cadd, .caddi, .cread, .cwait, .cwaitT, .barrive, .bwait].all fun (m : Hdr → FCN → Instr) => readyB (m h0 f) s 0 .s
        && readyB (m h0 { f with h := 2 }) s 0 .s && readyB (m h0 { f with h := 3 }) s 0 .s) = true
    ∧ ctrInRange s (partOf s 0) (regS s 0 1).toNat = true ∧ (regS s 0 1).getLsbD 0 = false ∧ (getCls s 0).hmode = false
    ∧ ctrInRange s (partOf s 0) (regS s 0 2).toNat = false ∧ (regS s 0 3).getLsbD 0 = true
    ∧ readyB (.bexp h0 f) s 0 .s = true ∧ readyB (.fence h0 { f with imm := 7 }) s 0 .s = true
    ∧ readyB (.join h0) idle 0 .s = true ∧ readyB (.join h0) busy 0 .s = true
    ∧ ((getCls idle 0).fences.all fun m => before m.run m.ord m.id 0 2 2 && !queueBusy (getCls idle 0) 0 m.run m.ord m.id) = true
    ∧ ((getCls busy 0).fences.any fun m => before m.run m.ord m.id 0 2 2 && m.qset.getLsbD 0 && queueBusy (getCls busy 0) 0 m.run m.ord m.id) = true
    ∧ ([0, 1, 2].all fun (n : BitVec 3) => readyB (.phase h0 { f with scope := n }) s 0 .s) = true
    ∧ olderOps (getCls s 0) (getCls s 0).ws.ord = [] ∧ olderPend (getCls s 0) (getCls s 0).ws.ord = []
    ∧ readyB (.phase h0 f) busy 0 .s = true ∧ (olderOps (getCls busy 0) (getCls busy 0).ws.ord).map (fun w => isCounted w.instr) = [false]
    ∧ readyB (.phase h0 f) cnt 0 .s = true ∧ (olderOps (getCls cnt 0) (getCls cnt 0).ws.ord).map (fun w => isCounted w.instr) = [true] := by
  decide +kernel
/-- `RequestHere`, as a test, for the word 0 of class 0. -/
def requestB (s : State) : Bool :=
  s.poison.isEmpty && (match findOp s 0 0 with | some f => arrives s 0 f 0 && requestOpen f | none => false)
/-- A request of class 0 with operands, counters 2 and 3 as given, older words before it. -/
def asked (i : Instr) (ops : List W64) (ctr : Tbl Nat := []) (older : List InFlight := []) (st : OpStatus := .issued) : State :=
  let s := at0 .s (flying i .s ops [] st) owned0
  { modCls s 0 fun k => { k with inflight := k.inflight ++ older } with ctr := ctr }
/-- Adds to 2^64 − 2 with no overflow and in the byte form, an older word in the way; reads, one by a frozen class; waits that are
met at equality and one short, one of 0 ns, one whose countdown has ended. -/
def oldCopy : InFlight := { id := 9, ord := 0, run := 0, eng := .a, instr := .nop h0 }
theorem test_meets_CounterRequestsAndWaits :
    let f : FCN := ⟨1, 2, 2, 3, 4, 0⟩
    let byt : FCN := { f with imm := 0x200000 }
    let top := [(2, 2 ^ 64 - 2)]
    let ice := fun s => modCls s 0 fun k => { k with frozen := true }
    let late := modCls (asked (.cadd h0 f) [2, 1] top [oldCopy]) 0 fun k => { k with inflight := k.inflight.map fun g => { g with ord := if g.id = 0 then 1 else 0 } }
    ([asked (.cadd h0 f) [2, 1] top, asked (.cadd h0 byt) [2, 5] top, asked (.caddi h0 f) [2, 1] top, asked (.barrive h0 f) [2] top,
      asked (.cread h0 byt) [2] top, asked (.cwait h0 f) [2, 7] [(2, 7)], asked (.cwait h0 f) [2, 7] [(2, 6)],
      asked (.cwaitT h0 f) [2, 7, 5] [(2, 7)], asked (.cwaitT h0 f) [2, 7, 0] [(2, 6)], asked (.cwaitT h0 f) [2, 7, 5] [(2, 6)] [] .cancelling,
      ice (asked (.cread h0 f) [2] top), ice (asked (.cadd h0 f) [2, 1] top), asked (.bwait h0 f) [2, 2, 8] [(2, 2), (3, 8)], asked (.bwait h0 f) [2, 2, 8] [(2, 2), (3, 7)]].all requestB) = true
    ∧ requestB late = false ∧ (findOp late 0 0).isSome = true ∧ (getCls late 0).frozen = false
    ∧ (getCls (ice late) 0).frozen = true
    ∧ olderDone (getCls (asked (.cadd h0 f) [2, 1] top) 0) ((findOp (asked (.cadd h0 f) [2, 1] top) 0 0).get!) = true
    ∧ olderDone (getCls late 0) ((findOp late 0 0).get!) = false
    ∧ ctrGet (asked (.cadd h0 f) [2, 1] top) 2 + 1 < 2 ^ 64 ∧ waitMet (asked (.cwait h0 f) [] [(2, 7)]) 2 7 false = true
    ∧ waitMet (asked (.cwait h0 f) [] [(2, 6)]) 2 7 false = false := by decide +kernel
/-- A barrier of a team of one (R449): its third round is complete with key level 3, bucket 1; the member tests. Countdowns that have
ended, and one that has not; a cancelled wait; a PHASE of node scope with nothing older; node 0 of the team's instance. -/
theorem test_meets_waits :
    let f : FCN := ⟨1, 2, 2, 3, 4, 0x200000⟩
    let tb := asked (.bwait h0 f) [2, 4, 0] [(2, 4)]
    let tb := modCls { tb with barriers := [{ handle := 2, size := 1, keys := [(3, 3, 1)] }] } 0 fun k => { k with region := some 2, regionCount := 3 }
    -- a class at clock code 8 loses four cycles with each tick
    let left := fun (i : Instr) (n : Nat) => modCls (asked i [2, 7, 17]) 0 fun k => { k with clks := 8, inflight := k.inflight.map fun w => { w with rem := n } }
    let slept := left (.sleepns h0 default) 3
    let timed := left (.cwaitT h0 f) 4
    let gone := modOp (asked (.cwaitT h0 f) [2, 7, 17] [] [] .cancelling) 0 0 fun w => { w with prog := 1 }
    let phase := asked (.phase h0 f) []
    requestB tb = true ∧ (barrierOf tb 2 (teamSize tb 0)).map (fun b => (b.handle, b.size)) = some (2, 1) ∧ (3 + 1 - 1) / 1 = 3 ∧ 3 ≤ ctrGet tb 2 / 1
    ∧ ctrGet (asked (.bwait h0 f) [] [(2, 2), (3, 8)]) 3 = 8 ∧ (8 % 2 ^ 40 + 2 ^ 40 - 8) % 2 ^ 40 < 2 ^ 39 ∧ ¬ (7 % 2 ^ 40 + 2 ^ 40 - 8) % 2 ^ 40 < 2 ^ 39
    ∧ ((getCls slept 0).inflight.map fun w => decide (w.rem < 20 - 2 * (getCls slept 0).clks.toNat)) = [true]
    ∧ ((getCls timed 0).inflight.map fun w => decide (w.rem < 20 - 2 * (getCls timed 0).clks.toNat)) = [false]
    ∧ ([slept, timed].all fun s => (getCls s 0).inflight.any fun w => match w.instr with | .sleepns _ _ => true | .cwaitT _ _ => true | _ => false) = true
    ∧ ((getCls gone 0).inflight.map fun w => (w.status, w.prog)) = [(.cancelling, 1)]
    ∧ ((findOp phase 0 0).map fun w => arrives phase 0 w 0 && w.status == .issued) = some true
    ∧ (teamOf phase 0).map (fun t => (t.inst, t.node)) = some (1, 0) ∧ (instOf phase 1).map (fun i => i.nodes.length) = some 1
    -- writes of class 0: of an older word, of a later one, of a counted transfer, one that has its epoch
    ∧ (let w : Staged := { (default : Staged) with cls := 0, pa := 56, word := some ⟨5, 0, 4, 1⟩ }
       published 0 (some ⟨5, 0, 5, 2⟩) w = true ∧ published 0 (some ⟨5, 0, 4, 1⟩) w = false ∧ published 0 none w = true
         ∧ published 0 none { w with counted := true } = false ∧ published 0 none { w with epoch := some 1 } = false
         ∧ published 1 none w = false) := by decide +kernel
/-- A write of 8 bytes to the end of a unit of frame 0 is staged, its frame shadowed; class 1 is of the same team. -/
theorem test_meets_StagedWritesAreReadOwn :
    -- frames 7 and 8 of H0 are the shadow reserve; the frame written is frame 0
    let s := reserveFrameAdd (reserveFrameAdd (at0 .a id (fun s => lineTeam 1 s)) 0 7) 0 8
    let sh := framePa 0 (reserveFrame s 0)
    (teamOf s 0).map (fun t => (t.id, t.inst, t.node, t.classes)) = some (5, 1, 0, [0, 1]) ∧ teamOf s 1 = teamOf s 0
    ∧ (frameIdx 56).isSome = true ∧ 56 % 64 + 8 = 64 ∧ Memory.wf s.mem ∧ s.poison = [] ∧ (nodeOf s 1 0).staged = []
    ∧ (kernelWrite s 0 56 (2 ^ 40 + 56) [1, 2, 3, 4, 5, 6, 7, 8] none).isSome = true ∧ frameIdx 56 = some (0, 0)
    ∧ sh = 7 * 65536 ∧ sh ≠ 56 / 65536 * 65536 ∧ (shadowOf (nodeOf s 1 0) 56).isNone = true ∧ (nodeOf s 1 0).shadows = []
    ∧ ((kernelWrite s 0 56 (2 ^ 40 + 56) [1] none).map fun t => (nodeOf t 1 0).staged.length) = some 1 := by decide +kernel
/-- The small window with a second segment, paged, at 2 TiB, whose pages are not mapped. -/
def pagedTeam (s : State) : State :=
  { owned0 false s with insts := [{ inst1 with snaps := [⟨[], [], win1 ++ leBytes 8 (2 ^ 41) ++ leBytes 8 16 ++ leBytes 8 0
      ++ leBytes 8 (2 ^ 63 + 2 ^ 62 + 2 ^ 61 + 2 ^ 59), []⟩] }] }
/-- An issued word of class 0's A engine. -/
def issuedA (i : Instr) (ops : List W64) (ms : List Move) : State := at0 .a (flying i .a ops ms) pagedTeam
def performableB (s : State) : Bool :=
  match findOp s 0 0 with | some f => Machine.ready s 0 f && f.status == .issued && (movesPoison s 0 f.moves).isNone | none => false
/-- How far the movements of the issued word come. -/
def movedTo (s : State) : Stop := match findOp s 0 0 with | some f => (movement s 0 f).2 | none => .finished
/-- A copy between towers with and without a counter, one into an unmapped page, with VALID clear and set, one into a page under
migration; LDQ of 8 bytes; VIEW.DEF
into a14; a corridor transfer answered and not; a movement between two towers up to their end. -/
theorem test_meets_IssuedWordsComplete :
    let f : FAM := ⟨14, 2, 0, 4, 0x60, 0, 0⟩
    let tw : Move := ⟨.tower 0 0 0, .tower 1 31 (2 ^ 25 - 64), 64⟩
    let cp := issuedA (.copy h0 f) [64, 64, 3, 0] [tw]
    let cnt := issuedA (.copy h0 f) [64, 64, 3, 1] [tw]
    let out := issuedA (.copy h0 f) [64, 0, 1, 0] [⟨.tower 0 0 0, .mem (2 ^ 41), 64⟩]
    let held := modCls out 0 fun k => { k with halt := { k.halt with valid := true } }
    let mig := { out with ipts := out.ipts.modify 0 fun x => { x with
      anchor := [(hashOf 1 (2 ^ 25), 5)], entry := [(5, { part := 1, v := true, vpn := 2 ^ 25, mig := true })] } }
    let ldq := issuedA (.ldq h0 f) [] [⟨.mem (2 ^ 40), .none, 8⟩]
    let x := fun st => at0 .x (flying (.xsend h0 ⟨1, 2, 3, 4, 5, 0⟩) .x [64, 0, 0, 0, 1, 0] [] st) owned0
    ([cp, cnt, out, held, mig, ldq, issuedA (.viewDef h0 f) [1, 2] []].all performableB) = true ∧ (movedTo mig matches .waiting) = true
    ∧ poisonAt cnt (.counter 3) = none ∧ 0 < cnt.cls.length ∧ 0 < out.cls.length
    ∧ movedTo cp = .finished ∧ movedTo cnt = .finished ∧ (movedTo out matches .halted ..) = true ∧ (getCls out 0).halt.valid = false
    ∧ (getCls held 0).halt.valid = true ∧ (movedTo held matches .halted ..) = true
    ∧ ((findOp ldq 0 0).map fun w => pushTurn (getCls ldq 0) w false) = some true ∧ ldq.poison = [] ∧ Memory.wf ldq.mem
    ∧ (match readEnd ldq 0 [] (.mem (2 ^ 40)) 0 (2 ^ ((0x60 : BitVec 8).extractLsb' 5 2).toNat) with | .ok _ bs none => decide (leNat bs < 2 ^ 64) | _ => false) = true
    ∧ f.ad.toNat < 15 ∧ (getCls (x .answered) 0).live = true ∧ (getCls (x .answered) 0).frozen = false
    ∧ ((findOp (x .issued) 0 0).map (·.status)) = some .issued ∧ physTower (getCls cp 0) 0 < 34 ∧ physTower (getCls cp 1) 31 = 31 := by decide +kernel
/-- Handles 99 and 100 of SRREAD; an aligned and a misaligned atomic, RET with QS full; an issued atomic at the end of the segment. -/
theorem test_meets_RecordsAndAtomics :
    let s := at0 .s (sr [(1, 99), (2, 100)]) owned0
    let a := at0 .a (ar [(1, base1 + 0xFFFF8), (2, base1 + 1)]) owned0
    let full := modCls a 0 fun k => { k with qs := List.replicate 64 0 }
    let f : FAO := ⟨1, 0, 0, true, true⟩
    let w := issuedA (.amoCas h0 f) [5, 0] [⟨.none, .mem (2 ^ 40 + 0xFFFF8), 8⟩]
    let sa := setIptEntry { w with boot := { w.boot with e0Host := true } } 0 15 { v := true, sa := true }
    let read : InFlight := { id := 0, ord := 0, run := 0, eng := .a, instr := .amoAdd h0 f, ops := [0, 0, 0, 0xFFFF8], prog := 1 }
    let busy := modCls w 1 fun k => { k with inflight := [read] }
    readyB (.srreadClr h0 ⟨8, 1, 0, 0, 0⟩) s 0 .s = true ∧ readyB (.srread h0 ⟨8, 2, 0, 0, 0⟩) s 0 .s = true
    ∧ recInRange s (partOf s 0) (regS s 0 1).toNat = true ∧ recInRange s (partOf s 0) (regS s 0 2).toNat = false
    ∧ (let r : Record := { bins := List.replicate 16 (2 ^ 24 - 1), count := 2 ^ 32 - 1, gen := 2 ^ 32 - 1 }
       r.bins.length = 16 ∧ r.bins.all (fun b => decide (b < 2 ^ 24)) = true ∧ r.count < 2 ^ 32 ∧ r.gen < 2 ^ 32)
    ∧ readyB (.amoCas h0 f) a 0 .a = true ∧ (regA a 0 1).toNat % 8 = 0 ∧ roomQ (getCls a 0) false = true
    ∧ presentedB a ⟨false, false⟩ 2 [⟨.none, .glob (2 ^ 40 + 0xFFFF8), 8⟩] = true ∧ placeOf a 0 [] (2 ^ 40 + 0xFFFF8) = .pa 0xFFFF8
    ∧ readyB (.amoCas h0 { f with ad := 2 }) a 0 .a = true ∧ (regA a 0 2).toNat % 8 ≠ 0
    ∧ readyB (.amoCas h0 f) full 0 .a = true ∧ roomQ (getCls full 0) false = false
    ∧ saPage w 0xFFFF8 = false ∧ engineBusy w 0xFFFF8 = false ∧ saPage sa 0xFFFF8 = true ∧ engineBusy busy 0xFFFF8 = true
    ∧ amoOpen busy 0xFFFF0 8 = false ∧ amoOpen busy 0xFFFF8 8 = true
    ∧ performableB (modOp w 0 0 fun g => { g with prog := 1, ops := [5, 0, 7, 0xFFFF8, 2 ^ 40 + 0xFFFF8] }) = true
    ∧ ([w, sa, busy].all fun t => performableB t && decide ((findOp t 0 0).map (amoTarget t 0) = some (t, 2 ^ 40 + 0xFFFF8, .pa 0xFFFF8))
        && (poisonUnder t (0xFFFF8 / 64) (2 ^ 40 + 0xFFFF8)).isNone && decide (Memory.wf t.mem)) = true
    ∧ ((findOp w 0 0).map fun g => pushTurn (getCls w 0) g false) = some true := by decide +kernel
/-- THND 0, slot 5 of the last line below 2^56; a handler that is running on a live instance. -/
theorem test_meets_TakingATrap :
    let s := at0 .s id owned0
    let t := at0 .s (fun k => { k with thnd := BitVec.ofNat 64 (2 ^ 56 - 59) }) owned0
    let d := at0 .s (fun k => { k with hmode := true }) owned0
    0 < s.cls.length ∧ (getCls s 0).thnd = 0 ∧ dieOf 0 < s.dies.length ∧ (getCls t 0).thnd ≠ 0 ∧ (getCls t 0).thnd.toNat < 2 ^ 56
    ∧ (getCls t 0).thnd.toNat % 64 = 5 ∧ (getCls s 0).hmode = false ∧ (getCls d 0).hmode = true
    ∧ (teamOf d 0).map (·.inst) = some 1 ∧ (instOf d 1).map (·.state) = some .running := by decide +kernel
/-- TRAP and RETT outside a handler; RETT of skip 1 with A and X at it and with A short of it; EXIT with every walker there and
one not. -/
theorem test_meets_TrapReturnExitWords :
    let s := at0 .s id owned0
    let fr : TrapFrame := ⟨3, none, {}, {}, {}, {}, {}, [], []⟩
    let h := at0 .s (fun k => { k with hmode := true, frame := some fr, run := 4, tcode := 2, teng := 1, tord := 7,
                                       trap := some ⟨2, some .a, 7, 0, none⟩ }) owned0
    let issued := modCls h 0 fun k => { flying (.copy h0 default) .a [] [] .issued k with trap := some ⟨2, some .a, 7, 0, some 0⟩ }
    let late := modCls h 0 fun k => { k with ws := { ord := 1 } }
    let gone := fun (w : Walker) => { w with atExit := true }
    let e := at0 .s (fun k => { k with wa := gone k.wa, wv := gone k.wv, wm := gone k.wm, wx := gone k.wx }) owned0
    let two := { e with teams := (lineTeam 1 s).teams, insts := (lineTeam 1 s).insts }
    readyB (.trap h0 ⟨0, 0, 9⟩) s 0 .s = true ∧ readyB (.rett h0 ⟨0, 0, 1⟩) s 0 .s = true ∧ (getCls s 0).hmode = false
    ∧ readyB (.rett h0 ⟨0, 0, 1⟩) h 0 .s = true ∧ (getCls h 0).frame = some fr ∧ (getCls h 0).wa.ord = (getCls h 0).ws.ord
    ∧ (getCls h 0).wx.ord = (getCls h 0).ws.ord ∧ (getCls h 0).causes = []
    ∧ (getCls h 0).trap = some ⟨2, some .a, 7, 0, none⟩ ∧ (2 : Byte) ≠ 0x07 ∧ readyB (.rett h0 ⟨0, 0, 1⟩) issued 0 .s = true
    ∧ (getCls issued 0).trap = some ⟨2, some .a, 7, 0, some 0⟩ ∧ ((getCls issued 0).inflight.find? fun w => w.id = 0).isSome = true
    ∧ readyB (.rett h0 ⟨0, 0, 0⟩) late 0 .s = true ∧ (getCls late 0).wa.ord ≠ (getCls late 0).ws.ord
    ∧ readyB (.exit h0) e 0 .s = true ∧ (teamOf e 0).map (fun t => (t.classes, t.arrived)) = some ([0], [])
    ∧ (teamOf two 0).map (fun t => (t.classes, t.arrived)) = some ([0, 1], []) ∧ readyB (.exit h0) two 0 .s = true
    ∧ ([Eng.a, .v, .m, .x].all fun w => (walkerOf (getCls e 0) w).atExit) = true ∧ (getCls e 0).inflight = [] ∧ (getCls e 0).pend = []
    ∧ e.teams.length = 1 ∧ readyB (.exit h0) s 0 .s = true ∧ (walkerOf (getCls s 0) .a).atExit = false := by decide +kernel
/-! ### Processors, queues, partitions -/

/-- The processor of die 0 with registers. -/
def fw0 (r : Tbl W64 := []) (h : State → State := id) : State :=
  { modFw (h State.reset) 0 (fun f => { f with running := true, sreg := r }) with focus := .fw 0 }
/-- Partition 1 of classes 0 and 1 with counters 0-1023 and records 0-99; its queue 0. -/
def part1 (q : Queue := {}) (s : State := State.reset) : State :=
  { s with parts := s.parts.set 1 { state := 1, args := [1, 3, 1024, 0, 100, 0, 0, 0], queues := q :: List.replicate 7 {} } }
def anEvent (id : Nat) : FwEvent := { (default : FwEvent) with id := id, code := 0x10 }
/-- Frame 0 of a stack holds no table. -/
theorem no_table (s : State) {x : Nat} (h : x < 65536) : tablePlace s x = none := by
  have t : ¬ tableBase (x / 2 ^ 36) ≤ x := by unfold tableBase; omega
  have a : ¬ anchorBase (x / 2 ^ 36) ≤ x := by unfold anchorBase; omega
  unfold tablePlace
  rw [if_neg (by omega), if_neg fun h => t h.1, if_neg fun h => a h.1]
/-- The table of H0 begins at a backed address. -/
theorem table_backed (s : State) : tableBase 0 < 2 ^ 36 ∧ PhysBacked s (tableBase 0) 8 := by
  have m := Nat.mod_lt (Config.tableFrame 0) (show 0 < hbmFrames - 16641 by decide)
  unfold PhysBacked backed tableBase
  obtain ⟨n, hn⟩ : ∃ n, Config.tableFrame 0 % (hbmFrames - 16641) = n := ⟨_, rfl⟩
  rw [hn] at m ⊢
  clear hn
  rw [show hbmFrames = 786432 from rfl] at *
  rw [show hostBase = 2 ^ 51 from rfl]
  refine ⟨by omega, by omega, by omega, fun j hj => ?_⟩
  rw [if_neg (by omega), if_neg (by omega)]
  simp only [Bool.and_eq_true, decide_eq_true_eq]
  omega
/-- A register that names the first entry of H0's table, which has entries whatever the ports back. -/
theorem test_meets_FirmwareTableWords :
    FwReady (fw0 [(1, BitVec.ofNat 64 (tableBase 0))]) 0
    ∧ (regFw (fw0 [(1, BitVec.ofNat 64 (tableBase 0))]) 0 1).toNat + (0 : W32).toNat = tableBase 0 + 16 * 0
    ∧ PhysBacked (fw0 [(1, BitVec.ofNat 64 (tableBase 0))]) (tableBase 0) 8
    ∧ 0 < tableLen (fw0 [(1, BitVec.ofNat 64 (tableBase 0))]) 0 ∧ tablePlace (fw0 []) 65528 = none := by
  have e : ∀ v, regFw (fw0 [(1, v)]) 0 1 = v ∧ FwReady (fw0 [(1, v)]) 0 := fun v =>
    ⟨by simp [regFw, fw0, getDie, modFw, modDie, State.reset, tget], by simp [FwReady, fw0, getDie, modFw, modDie, State.reset]⟩
  refine ⟨(e _).2, ?_, (table_backed _).2, Nat.lt_of_lt_of_le (by decide) (Nat.le_add_right hbmFrames _), no_table _ (by decide)⟩
  rw [(e _).1]
  have := (table_backed State.reset).1
  rw [show (0 : W32).toNat = 0 from rfl, BitVec.toNat_ofNat]; omega
/-- PLD and PST of the last 8 bytes of H0's frames, of an address between stacks, misaligned; events 0 and 4 of a halted walk,
actions 0 to 6; mailbox registers 0, 8, 9, 10; SHOOT of no class, of two, acknowledged, waiting; an update under way, 10 ms after
its start and one tick before; waits of the processor that are met as they arrive, by an add since, at their time, and one tick
short of it. -/
theorem test_meets_FirmwareWords :
    let end0 := hbmFrames * 65536
    let s := fw0 [(1, BitVec.ofNat 64 (end0 - 8)), (2, BitVec.ofNat 64 end0), (3, 1), (4, 7), (5, 9), (6, 10), (7, 65528)] (fun s => part1 {} s)
    let ev := modDie s 0 fun d => { d with evq := [anEvent 7], openEv := [anEvent 7] }
    let hold := modCls ev 0 fun k => { k with live := true, hold := some 7 }
    let held := modCls ev 0 fun k => { k with live := true, halt := { k.halt with valid := true, ev := 7 } }
    let upd := { ev with update := ⟨true, 0⟩ }
    (s.focus = .fw 0 ∧ 0 < s.dies.length ∧ (getDie s 0).fw.running = true) ∧ Memory.wf s.mem
    ∧ (regFw s 0 1).toNat % 8 = 0 ∧ ((List.range 8).all fun j => backed s (end0 - 8 + j)) = true
    -- the last 8 bytes of frame 0, which holds no table
    ∧ (regFw s 0 7).toNat = 65528 ∧ 65528 % 8 = 0 ∧ ((List.range 8).all fun j => backed s (65528 + j)) = true
    ∧ keyOf s (64 * (65528 / 64)) = none ∧ keyOf s 65528 = none ∧ (upd.update.transferAt, upd.ticks8) = (0, 0)
    ∧ backed s end0 = false ∧ (regFw s 0 2).toNat % 8 = 0 ∧ s.update.started = false ∧ upd.update.started = true
    ∧ (getDie ev 0).evq = [anEvent 7] ∧ (getDie s 0).evq = []
    ∧ ((getDie ev 0).openEv.find? fun x => x.id = (regFw ev 0 4).toNat) = some (anEvent 7)
    ∧ ((getDie ev 0).openEv.find? fun x => x.id = (regFw ev 0 5).toNat) = none
    ∧ waitsEvent (modDie ev 0 fun x => { x with openEv := [] }) 0 (anEvent 7) = false ∧ waitsEvent hold 0 (anEvent 7) = true
    ∧ (getCls hold 0).hold = some (anEvent 7).id ∧ waitsEvent held 0 (anEvent 7) = true ∧ (getCls held 0).halt.ev = 7
    ∧ (regFw s 0 5).toNat = 9 ∧ (regFw s 0 6).toNat = 10 ∧ (regFw s 0 0).toNat = 0
    ∧ (getDie s 0).fw.shoot = none ∧ (getPart s 0).state = 0 ∧ ((List.range 40).filter fun c => (partArg s 1 1).testBit c) = [0, 1]
    ∧ (regFw s 0 3).toNat % 32 = 1 ∧ (getPart s 1).state = 1 ∧ amoOpen s 65528 8 = false
    ∧ (let late := fun n => { upd with ticks8 := n }
       (late 1250000).update.transferAt + 1250000 ≤ (late 1250000).ticks8 ∧ (late 1249999).ticks8 < (late 1249999).update.transferAt + 1250000)
    ∧ (let w := fun (m : Option Nat) (u : Option Nat) (n : Nat) =>
         modFw { fw0 [(1, 3), (2, 5), (3, 9)] with ctr := [(3, n)] } 0 fun x => { x with wait := if u = some 0 then none else some ⟨3, 5, false, m⟩, sleepUntil := u }
       (regFw (w none (some 0) 5) 0 1).toNat = 3 ∧ 3 < 2 ^ 25 ∧ (getDie (w none (some 0) 5) 0).fw.wait = none ∧ (regFw (w none (some 0) 5) 0 2).toNat = 5
         ∧ waitMet (w none (some 0) 5) 3 5 false = true ∧ waitMet (w none (some 0) 4) 3 5 false = false
         ∧ (regFw (w none (some 0) 4) 0 0).toNat = 0 ∧ (regFw (w none (some 0) 4) 0 3).toNat = 9
         ∧ (getDie (w (some 5) none 4) 0).fw.wait = some ⟨3, 5, false, some 5⟩ ∧ (getDie (w none (some 8) 4) 0).fw.wait = some ⟨3, 5, false, none⟩
         ∧ (getDie (w none (some 8) 4) 0).fw.sleepUntil = some 8 ∧ (getDie (w none none 4) 0).fw.sleepUntil = none
         ∧ 8 ≤ { w none (some 8) 4 with ticks8 := 1 }.ticks8 * 8 ∧ (w none (some 8) 4).ticks8 * 8 < 8 ∧ (w none none 4).focus = .fw 0
         ∧ 0 < (w none none 4).dies.length ∧ (getDie (w none none 4) 0).fw.running = true) := by decide +kernel
/-- Registers of queue 0; 16 entries pending and 17; LOG2N 3, 4, 16, 17; a partition that is there and one that is not; a CWAIT whose
condition has been met and one whose has not; a queue whose EN was cleared under a launch's checks; a mailbox code that is none. -/
def queue1 (e : List Byte) (x : Queue := {}) (ctr : Tbl Nat := []) : State :=
  { part1 { x with en := true, log2n := 4, qwidx := 1 } with mem := tsetN 0 [] hostBase e, ctr := ctr }
/-- A queue entry: KIND, word 4 (CCTR), CVAL, word 6 (SCTR), SVAL, CPL. -/
def entry (kind cctr cval sctr sval cpl : Nat) : List Byte :=
  leBytes 8 (kind * 2 ^ 56 + 2 ^ 48 + 2 ^ 46 + 5) ++ List.replicate 24 0 ++ leBytes 8 (cctr * 2 ^ 32) ++ leBytes 8 cval
    ++ leBytes 8 (sctr * 2 ^ 32) ++ leBytes 8 sval ++ List.replicate 32 0 ++ leBytes 8 cpl ++ List.replicate 24 0
theorem test_meets_LaunchQueues :
    let s := part1 { log2n := 4, qridx := 0xFFFFFFFF }
    let b := { s with mbstat := 1 }
    let nop := queue1 (entry 0 0 0 0 0 4096)
    let cadd := queue1 (entry 2 3 5 0 0 4096)
    let big := queue1 (entry 2 3 5 0 0 4096) {} [(3, 2 ^ 64 - 5)]
    let wait := queue1 (entry 3 0 0 3 5 4096)
    let armed := fun n => queue1 [] { armed := some (entry 3 0 0 3 5 4096), waits := some (3, 5, decide (5 ≤ n)) } [(3, n)]
    let busy := part1 { en := true, log2n := 4, checking := some [], stopping := true }
    vfOn s 1 = true ∧ vfOn s 2 = false ∧ vfOn s 17 = false ∧ b.mbstat.getLsbD 0 = true
    ∧ ((15 : W32) - (getQueue s 1 0).qridx).toNat = 16 ∧ ((16 : W32) - (getQueue s 1 0).qridx).toNat = 17
    ∧ (0x83 : W64).getLsbD 7 = true ∧ (0x91 : W64).toNat % 32 = 17 ∧ (getQueue s 1 0).en = false ∧ (0x1F : W64).getLsbD 7 = false
    ∧ ([nop, cadd, big, wait].all fun t => canConsume t 1 0 && decide (Memory.wf t.mem)) = true
    ∧ entKind (headEntry nop 1 0) = 0 ∧ entryFails nop 1 (headEntry nop 1 0) = []
    ∧ entKind (headEntry cadd 1 0) = 2 ∧ entryFails cadd 1 (headEntry cadd 1 0) = [] ∧ entCval (headEntry cadd 1 0) = 5
    ∧ lowest (entryFails big 1 (headEntry big 1 0)) = some 9
    ∧ entKind (headEntry wait 1 0) = 3 ∧ entryFails wait 1 (headEntry wait 1 0) = []
    ∧ 3 < entKind (headEntry (queue1 (entry 4 0 0 0 0 0)) 1 0)
    ∧ (getQueue (armed 5) 1 0).armed = some (entry 3 0 0 3 5 4096) ∧ (getQueue (armed 5) 1 0).waits = some (3, 5, true)
    ∧ (getQueue (armed 4) 1 0).waits = some (3, 5, false)
    ∧ canConsume s 1 0 = false ∧ entKind (headEntry cadd 1 0) ∈ [1, 2, 3] ∧ (getQueue busy 1 0).en = true
    ∧ (getQueue busy 1 0).checking.isSome = true ∧ (getQueue busy 1 0).stopping = true ∧ (getQueue nop 1 0).checking = none
    ∧ (0x01 : W64).toNat / 2 ^ 56 ∉ [1, 2, 3, 4, 0x10, 0x11, 0x20] ∧ (BitVec.ofNat 64 (0x20 * 2 ^ 56)).toNat / 2 ^ 56 ∈ [1, 2, 3, 4, 0x10, 0x11, 0x20]
    ∧ s.mbstat.getLsbD 0 = false ∧ s.bootstat.getLsbD 16 = false ∧ 0x40 < 0x48 ∧ 0x48 ∉ [0x100, 0x108, 0x110, 0x118] := by decide +kernel
/-- A page at address 0 of partition 1, frame 5 of H0, with a graph of one node at 0x1000 (two counters), its window table at
0x2000 and its entry at 0x4000. -/
def graphRec (wait : Nat) : List Byte :=
  leBytes 8 (2 * 2 ^ 51 + 2 ^ 43 + 2 ^ 40 + 7) ++ leBytes 8 0x4000 ++ leBytes 8 0 ++ leBytes 8 0x2000 ++ leBytes 8 0 ++ leBytes 4 3
    ++ List.replicate 12 0 ++ leBytes 4 wait ++ List.replicate 4 0 ++ leBytes 8 9 ++ List.replicate 56 0
def graphWin : List Byte := leBytes 8 0 ++ leBytes 8 1 ++ leBytes 8 0 ++ leBytes 8 (2 ^ 63 + 2 ^ 62 + 2 ^ 60 + 2 ^ 59)
def launchEntry (graph : Nat) : List Byte :=
  leBytes 8 (2 ^ 56 + 2 ^ 48 + 5) ++ leBytes 8 graph ++ leBytes 8 1 ++ List.replicate 104 0
/-- Its header but the CRC. -/
def graphHead : List Byte :=
  leBytes 4 0x4A594752 ++ leBytes 4 1 ++ leBytes 4 0 ++ leBytes 2 1 ++ leBytes 2 2 ++ leBytes 8 0 ++ leBytes 8 64 ++ List.replicate 28 0
def graphMem (graph : Nat) : List Host.Cell :=
  [(331776, 82), (331777, 71), (331778, 89), (331779, 74), (331780, 1), (331788, 1), (331790, 2), (331800, 64)]
  -- the CRC-32 of header and node table
  ++ [(331836, 0xD8), (331837, 0xC9), (331838, 0x2B), (331839, 0x4A)]
  ++ [(331840, 7), (331845, 9), (331846, 16), (331849, 64), (331865, 32), (331880, 3), (331904, 9), (335880, 1), (335903, 216)]
  ++ [(2251799813685248, 5), (2251799813685254, 1), (2251799813685255, 1), (2251799813685257, BitVec.ofNat 8 (graph / 256)), (2251799813685264, 1)]
def launchState (graph : Nat) : State :=
  let s := part1 { en := true, log2n := 4, qwidx := 1, checking := some (launchEntry graph) }
  { s with
    mem := graphMem graph
    ipts := s.ipts.modify 0 fun x => { x with anchor := [(hashOf 1 0, 5)], entry := [(5, { part := 1, v := true })] } }
/-- Instance 1 of partition 1 in a state, its one node at `wait`, in node state `n`. -/
def inst1At (st : InstState) (n : List NodeState) (wait : Nat := 0) (e : List Byte := launchEntry 0x1000) : State :=
  { part1 with insts := [{ inst1 with state := st, entry := e, nctr := 2, snaps := [⟨graphRec wait, [], graphWin, []⟩],
                                      nodes := n.map fun x => { state := x } }] }
def crcOf (r : W32) (l : List Byte) : W32 := l.foldl (fun r b => crc32Shift 8 (r ^^^ b.setWidth 32)) r
theorem crc_append (r : W32) (a b : List Byte) : crcOf r (a ++ b) = crcOf (crcOf r a) b := List.foldl_append
def winText : List Byte := graphWin ++ List.replicate 2016 0#8
theorem leNat_zeros (n : Nat) : leNat (List.replicate n 0#8) = 0 := by
  induction n with
  | zero => rfl
  | succ n ih => simp only [List.replicate_succ, leNat, ih]; rfl
theorem win_zero {x : Nat} (h : 32 ≤ x) : byteField winText x 8 = 0 := by
  have w : graphWin.length = 32 := by decide
  have e : winText.drop x = List.replicate (2016 - (x - 32)) 0#8 := by
    rw [winText, List.drop_append, List.drop_of_length_le (by omega), w, List.drop_replicate, List.nil_append]
  rw [byteField, e, List.take_replicate, leNat_zeros]
theorem seg_none {k : Nat} (h : 1 ≤ k) : segAt winText k = none := by
  simp [segAt, win_zero (show 32 ≤ 32 * k + 24 by omega)]
theorem win_good (s : State) : winBad s 1 winText = false := by
  have d : ∀ k, descBad s 1 winText k = false := by
    intro k
    rcases Nat.eq_zero_or_pos k with rfl | h
    · have e : segAt winText 0 = some ⟨0, 65536, 0, true, false, true, true, false, 0, 0, false, 0⟩ := by decide +kernel
      have w : (byteField winText 0 8, byteField winText 8 8, byteField winText 16 8, byteField winText 24 8) = (0, 1, 0, 2 ^ 63 + 2 ^ 62 + 2 ^ 60 + 2 ^ 59) := by
        decide +kernel
      simp only [Prod.mk.injEq] at w
      simp [descBad, e, w]
    · simp [descBad, seg_none h, win_zero (show 32 ≤ 32 * k by omega), win_zero (show 32 ≤ 32 * k + 8 by omega),
        win_zero (show 32 ≤ 32 * k + 16 by omega), win_zero (show 32 ≤ 32 * k + 24 by omega)]
  have e : segsOf winText = [⟨0, 65536, 0, true, false, true, true, false, 0, 0, false, 0⟩] := by
    have : (List.range 63).filterMap (fun k => segAt winText (k + 1)) = [] := by
      simp [seg_none]
    rw [segsOf, List.range_succ_eq_map, List.filterMap_cons, List.filterMap_map]
    simp only [Function.comp_def, Nat.succ_eq_add_one, this]
    decide +kernel
  simp [winBad, d, e, segsClash]
/-- The graph of the small state passes every check of a launch. -/
theorem graph_read : (readGraph (launchState 0x1000) 1 0x1000 1).1 = [] := by
  have c : crc32 (graphHead.take 60 ++ [0, 0, 0, 0] ++ graphRec 0) = 0x4A2BC9D8 := by
    have h1 : crcOf (BitVec.allOnes 32) (graphHead.take 60 ++ [0, 0, 0, 0]) = 2811287562 := by decide +kernel
    have h2 : crcOf 2811287562 ((graphRec 0).take 64) = 730392426 := by decide +kernel
    have h3 : crcOf 730392426 ((graphRec 0).drop 64) = 3050583591 := by decide +kernel
    have e : crcOf (BitVec.allOnes 32) (graphHead.take 60 ++ [0, 0, 0, 0] ++ graphRec 0) = 3050583591 := by
      rw [crc_append, h1, ← List.take_append_drop 64 (graphRec 0), crc_append, h2, h3]
    rw [crc32, ← crcOf, e]; decide
  have e1 : readPart (launchState 0x1000) 1 0x1000 64 = some (graphHead ++ [0xD8, 0xC9, 0x2B, 0x4A], false) := by decide +kernel
  have e2 : readPart (launchState 0x1000) 1 (0x1000 + 64) 128 = some (graphRec 0, false) := by decide +kernel
  have e3 : nodeWin (launchState 0x1000) 1 (graphRec 0) = some (winText, false) := by decide +kernel
  have e4 : nodeFails (launchState 0x1000) 1 2 (graphRec 0) = [] := by
    unfold nodeFails; simp only [e3, win_good]; decide +kernel
  have e5 : (graphHead ++ [0xD8, 0xC9, 0x2B, 0x4A]).take 60 = graphHead.take 60 := by decide +kernel
  have e6 : (hdrShape (graphHead ++ [0xD8, 0xC9, 0x2B, 0x4A]), hdrOff (graphHead ++ [0xD8, 0xC9, 0x2B, 0x4A]),
      hdrNodes (graphHead ++ [0xD8, 0xC9, 0x2B, 0x4A]), hdrCtrs (graphHead ++ [0xD8, 0xC9, 0x2B, 0x4A])) = (true, 64, 1, 2) := by decide +kernel
  simp only [Prod.mk.injEq] at e6
  have e7 : recordsOf (graphHead ++ [0xD8, 0xC9, 0x2B, 0x4A]) (graphRec 0) = [graphRec 0] := by decide +kernel
  unfold readGraph
  simp only [e1, Nat.one_ne_zero, if_false, e2, e5, c, e6, e7, e4, List.flatMap_cons, List.flatMap_nil, Nat.mul_one, Nat.reduceAdd]
  decide +kernel
/-- The graph of `graph_read` and one at an address that is not mapped; room and none; a held instance with its counters free and
none left; a wait edge at its value and one short; a node that is done, one that swaps; an ended instance. -/
theorem test_meets_LaunchesAndInstances :
    let s := launchState 0x1000
    let old := { s with parts := (launchState 0x10000).parts }
    let q := { s with parts := s.parts.set 1 { getPart s 1 with queues := (getPart s 1).queues.set 0 { en := true, log2n := 4, qwidx := 1 } } }
    let full := { inst1At .held [] with parts := (modPart (inst1At .held []) 1 fun p => { p with args := [1, 3, 1, 0, 100, 0, 0, 0] }).parts }
    let w := fun n => { inst1At .running [.waiting] (2 ^ 31 + 2 ^ 30 + 3) with ctr := [(3, n)] }
    let done := { inst1At .running [.ready] with insts := (modNode (inst1At .running [.ready]) 1 0 fun x => { x with next := 3 }).insts }
    let many := { s with insts := List.replicate 512 inst1 }
    512 ≤ many.insts.length ∧ (getQueue many 1 0).checking = some (launchEntry 0x1000) ∧ s.insts.length < 512 ∧ Memory.wf old.mem
    ∧ lowest (entryFails old 1 (launchEntry 0x10000) ++ if entryBad (launchEntry 0x10000) then [] else (readGraph old 1 0x10000 1).1) = some 2
    ∧ (getQueue s 1 0).checking = some (launchEntry 0x1000) ∧ entryFails s 1 (launchEntry 0x1000) = [] ∧ entryBad (launchEntry 0x1000) = false
    ∧ (entGraph (launchEntry 0x1000), entGver (launchEntry 0x1000)) = (0x1000, 1) ∧ Memory.wf s.mem
    ∧ lowest (readGraph old 1 (entGraph (launchEntry 0x10000)) (entGver (launchEntry 0x10000))).1 = some 2
    ∧ canConsume q 1 0 = true ∧ entKind (headEntry q 1 0) = 1 ∧ q.insts.length < 512
    ∧ (instOf (inst1At .held []) 1).map (fun i => (i.state, i.nctr, exclBlocked (inst1At .held []) i, entSval i.entry)) = some (.held, 2, false, 0)
    ∧ takeRun (inst1At .held []) 1 2 = some 0 ∧ takeRun full 1 2 = none
    ∧ recWait (graphRec (2 ^ 31 + 2 ^ 30 + 3)) = (2 ^ 31 + 2 ^ 30 + 3, 9) ∧ edgeHandle 0 (2 ^ 31 + 2 ^ 30 + 3) = 3
    ∧ ctrGet (w 9) 3 = 9 ∧ ctrGet (w 8) 3 < 9 ∧ (nodeOf (w 9) 1 0).state = .waiting
    ∧ (instOf done 1).map (nodeDone done · 0) = some true ∧ (getPart done 1).paired = false
    ∧ (nodeOf (inst1At .running [.swapping]) 1 0).state = .swapping
    ∧ (instOf (inst1At .ended []) 1).map (·.state) = some .ended
    -- a byte that no shadow frame covers, with and without a staged one
    ∧ (nodeOf (inst1At .running [.swapping]) 1 0).shadows = [] ∧ newestAt [⟨0, 64, 64, 9, none, none, none, false⟩] 64 ≠ none
    ∧ newestAt [⟨0, 64, 64, 9, none, none, none, false⟩] 65 = none := by decide +kernel
/-- 512 live instances; a held instance whose start condition has been met and one whose has not, with no counters; a wait edge
met by an add; a swapping node with two signal edges below an overflow and at it, and one whose sector an atomic has read. -/
theorem test_meets_starts_and_signals :
    let fullQ := { part1 { en := true, log2n := 4, qwidx := 1 } with mem := graphMem 0x1000, insts := List.replicate 512 inst1 }
    let w := fun n => { inst1At .running [.waiting] (2 ^ 31 + 2 ^ 30 + 3) with ctr := [(3, n)] }
    -- a held instance whose start counter has reached SVAL or not, with n counters
    let start := fun m n => { inst1At .held [] with insts := (inst1At .held []).insts.map fun i => { i with sctrMet := m, nctr := n } }
    let met := fun (s : State) => { s with insts := (modNode s 1 0 fun x => { x with met := true }).insts }
    -- a swapping node with signal edges on counters 3 (absolute, 5) and 0 (relative, 1); an atomic that has read a sector it has staged
    let sig := fun n => { inst1At .running [.swapping] with
      ctr := [(3, n)]
      insts := (inst1At .running [.swapping]).insts.map fun i => { i with snaps := i.snaps.map fun y => { y with
        record := y.record.take 72 ++ leBytes 4 (2 ^ 31 + 2 ^ 30 + 3) ++ leBytes 4 (2 ^ 31) ++ leBytes 8 5 ++ leBytes 8 1 ++ List.replicate 32 0 } } }
    let open1 := modCls (modNode (sig 0) 1 0 fun x => { x with staged := [⟨0, 64, 64, 9, none, none, none, false⟩] }) 3 fun k => { k with
      inflight := [{ id := 0, ord := 0, run := 0, eng := .a, instr := .amoAdd h0 ⟨1, 0, 0, true, true⟩, ops := [0, 0, 0, 64], prog := 1 }] }
    canConsume fullQ 1 0 = true ∧ entKind (headEntry fullQ 1 0) = 1 ∧ 512 ≤ fullQ.insts.length
    ∧ ((instOf (start true 2) 1).map fun i => (i.state, i.sctrMet, i.nctr, exclBlocked (start true 2) i, (getPart (start true 2) i.part).state))
      = some (.held, true, 2, false, 1)
    ∧ ((instOf (start true 0) 1).map fun i => (i.sctrMet, i.nctr)) = some (true, 0)
    ∧ ((instOf (start false 2) 1).map (·.sctrMet)) = some false ∧ (ctrAdd (w 8) 3 1 false).isSome = true
    ∧ (nodeOf (met (w 8)) 1 0).met = true ∧ (nodeOf (met (w 8)) 1 0).state = .waiting ∧ (nodeOf (w 8) 1 0).met = false
    ∧ swapFree (sig 0) 1 0 = true ∧ swapFree open1 1 0 = false ∧ (nodeOf open1 1 0).state = .swapping
    ∧ (recSignals (snapOf (sig 0) 1 0).record).filter (fun e => edgeOn e.1) = [(2 ^ 31 + 2 ^ 30 + 3, 5), (2 ^ 31, 1)]
    ∧ edgeHandle 0 (2 ^ 31 + 2 ^ 30 + 3) = 3 ∧ edgeHandle 0 (2 ^ 31) = 0 ∧ ctrGet (sig (2 ^ 64 - 6)) 3 + 5 < 2 ^ 64 ∧ 2 ^ 64 ≤ ctrGet (sig (2 ^ 64 - 5)) 3 + 5 := by decide +kernel
/-- The mailbox at a command with arguments. -/
def mail (code : Nat) (args : List W64) (s : State := State.reset) : State :=
  { s with mbcmd := BitVec.ofNat 64 (code * 2 ^ 56), mbstat := 1, mbarg := args }
/-- Commands with arguments at their bounds; partitions that run, have stopped, are absent; a hall monitor that a tick
has found at HMTO and one that it has not. -/
theorem test_meets_PartitionCommands :
    let args : List W64 := [16, 4, 0x10000000100, 0, 0, 0, 0, 0]
    let stop := fun (st : Nat) => modPart (part1 {}) 1 fun p => { p with state := st }
    let hm := fun n => part1 { hmto := 9, hm := 9, hmDue := n }
    let pair : List W64 := [255, 1, 0x1FFFE, 0, 0, 0, 0, 0]
    let p := { mail 0x20 pair with cabling := true }
    ([mail 1 args, mail 1 (args.set 0 17), mail 1 args (modPart State.reset 16 fun p => { p with state := 1 })].all fun s => mailboxBusy s 1 && s.parts.length == 17) = true
    ∧ createBad (mail 1 args) = false ∧ createConflict (mail 1 args) = false ∧ createBad (mail 1 (args.set 0 17)) = true
    ∧ createConflict (mail 1 args (modPart State.reset 16 fun p => { p with state := 1 })) = true
    ∧ ([2, 3, 4].all fun c => mailboxBusy (mail c [1, 0, 0, 0, 0, 0, 0, 0] (stop 3)) c && namesPart (mail c [1, 0, 0, 0, 0, 0, 0, 0] (stop 3))) = true
    ∧ namesPart (mail 2 [17, 0, 0, 0, 0, 0, 0, 0]) = false ∧ (getPart (stop 3) 1).state = 3 ∧ (getPart (stop 1) 1).state = 1
    ∧ (getPart (stop 1) 2).state = 0 ∧ (stop 1).insts = [] ∧ (getPart (hm true) 1).state = 1 ∧ (getQueue (hm true) 1 0).hmDue = true
    ∧ (getQueue (hm false) 1 0).hmDue = false ∧ (getPart (stop 4) 1).state = 4
    -- a created partition that the pair's set names
    -- records of a reset: an entry under check, an instance that runs
    ∧ (let r := { part1 { checking := some (entry 1 0 0 0 0 4096) } with insts := [{ inst1 with entry := entry 1 0 0 0 0 8192 }] }
       (resetRecords r 1 7).map (fun x => entCpl x.1) = [8192, 4096] ∧ (r.insts.map (·.num)).Nodup ∧ classesOf r 1 = [0, 1]
         ∧ mailboxBusy { r with mbcmd := BitVec.ofNat 64 (3 * 2 ^ 56), mbstat := 1, mbarg := [1, 0, 0, 0, 0, 0, 0, 0] } 3 = true)
    ∧ (let c := { mail 1 args with pairPeer := some 7, pairSet := 2 ^ 16 }
       c.pairPeer.isSome && c.pairSet.testBit (c.mbarg.getD 0 0).toNat) = true
    ∧ recInRange (stop 3) 1 99 = true ∧ keyOf (stop 3) (2 ^ 44) = none ∧ (∀ i ∈ (stop 3).insts, i.queue < 8)
    ∧ mailboxBusy p 0x20 = true ∧ p.cabling = true ∧ (p.mbarg.getD 0 0).toNat < 256 ∧ (p.mbarg.getD 1 0).toNat < 2
    ∧ (p.mbarg.getD 2 0).toNat < 2 ^ 17 ∧ (p.mbarg.getD 2 0).getLsbD 0 = false ∧ (p.mbarg.drop 3).all (· == 0) = true
    ∧ ({ State.reset with spdm := { established := true } } : State).spdm.established = true ∧ State.reset.spdm.established = false := by decide +kernel
/-- FW_LOAD and FW_ACTIVATE with and without a standby image; an update whose 10 ms have passed and one a tick short. -/
theorem test_meets_FirmwareUpdate :
    let z := List.replicate 8 (0 : W64)
    let ready := mail 0x11 z { State.reset with dies := State.reset.dies.map fun d => { d with fw := { d.fw with standby := some {} } } }
    let upd := fun n => { State.reset with update := ⟨true, 7⟩, ticks8 := 7 + n }
    let checks := fun (x : Queue) => modPart ready 1 fun p => { p with queues := x :: List.replicate 7 {} }
    mailboxBusy (mail 0x10 z) 0x10 = true ∧ ((mail 0x10 z).mbarg.drop 2).all (· == 0) = true
    ∧ mailboxBusy (mail 0x11 z) 0x11 = true ∧ (mail 0x11 z).update.started = false ∧ ((mail 0x11 z).dies.any fun d => d.fw.standby == none) = true
    ∧ mailboxBusy ready 0x11 = true ∧ ready.mbarg.all (· == 0) = true ∧ (ready.dies.all fun d => d.fw.standby != none) = true ∧ Memory.wf ready.mem
    ∧ (ready.parts.all fun p => p.queues.all fun x => x.checking.isNone && !x.hmDue) = true
    ∧ ([checks { checking := some [] }, checks { hmDue := true }].all fun t => mailboxBusy t 0x11 && t.mbarg.all (· == 0)
      && (t.dies.all fun d => d.fw.standby != none) && t.parts.any fun p => p.queues.any fun x => x.checking.isSome || x.hmDue) = true
    ∧ (upd 1250000).update.transferAt + 1250000 ≤ (upd 1250000).ticks8 ∧ (upd 1249999).ticks8 < (upd 1249999).update.transferAt + 1250000
    ∧ (upd 0).update.started = true := by decide +kernel
/-- The responder in each stage, with a session open and established. -/
theorem test_meets_SpdmMessages :
    let at0 := fun (x : Spdm) => ({ State.reset with spdm := x } : State)
    (at0 { stage := 1 }).spdm.stage = 1 ∧ (at0 { stage := 2 }).spdm.stage < 3 ∧ 3 ≤ (at0 { stage := 3 }).spdm.stage
    ∧ (at0 { stage := 3 }).spdm.session = none ∧ (at0 { session := some 1 }).spdm.established = false
    ∧ (at0 { session := some 1, established := true }).spdm.session = some 1 := by decide
/-- Boot inputs that lead to a boot, to recovery in steps 1, 2 and 5; a defect that no record names, a record that is in order. -/
def boot0 : BootInput := { (default : BootInput) with rootKeyOk := true, primaryOk := true, certMatches := true, defects := [(3, 4)] }
def repair0 : List Byte := leBytes 4 0x4A595250 ++ leBytes 2 1 ++ List.replicate 442 0
/-- A record with two lanes of bridge direction 1 that name spare 2. -/
def repair2 : List Byte :=
  leBytes 4 0x4A595250 ++ leBytes 2 1 ++ leBytes 2 2 ++ List.replicate 56 0 ++ [3, 1, 9, 2] ++ List.replicate 12 0 ++ [3, 1, 8, 2]
    ++ List.replicate 396 0
theorem test_meets_ColdStartAndWarmReset :
    (boot0.rootKeyOk = true ∧ boot0.primaryOk = true ∧ boot0.certMatches = true)
    ∧ ({ boot0 with rootKeyOk := false } : BootInput).rootKeyOk = false
    ∧ (let b := { boot0 with primaryOk := false, fallbackOk := false }; b.rootKeyOk = true ∧ b.primaryOk = false ∧ b.fallbackOk = false)
    ∧ ({ boot0 with certMatches := false } : BootInput).certMatches = false
    ∧ namesDefect (if repairOk boot0 then repairEntries boot0.repair else []) (3, 4) = false
    ∧ repairOk { boot0 with repair := repair0, repairSigOk := true } = true
    ∧ ¬ (lanesOf (repairEntries repair2)).Nodup
    ∧ keyOf State.reset (2 ^ 44) = none ∧ Memory.wf State.reset.mem := by decide +kernel
/-! The window of a virtual function lies at a frame that Config leaves open (log 24): what holds of every frame. -/
/-- Table and index of the `n`-th frame. -/
def frameOf (n : Nat) : Nat × Nat :=
  let g := n % (8 * hbmFrames + 6 * 2 ^ 26)
  if g < 8 * hbmFrames then (g / hbmFrames, g % hbmFrames)
  else (portTable ((g - 8 * hbmFrames) / 2 ^ 26), hbmFrames + (g - 8 * hbmFrames) % 2 ^ 26)
theorem frameIdx_frameAt (n r : Nat) (hr : r < 65536) : frameIdx (frameAt n + r) = some (frameOf n) := by
  have := Nat.mod_lt n (show 0 < 8 * hbmFrames + 6 * 2 ^ 26 by decide)
  unfold frameAt frameOf frameIdx
  rw [show hbmFrames = 786432 from rfl] at *
  generalize n % (8 * 786432 + 6 * 2 ^ 26) = g at *
  dsimp only
  split_ifs <;> first
    | (exfalso; omega)
    | (refine congrArg some (Prod.ext ?_ ?_) <;> dsimp only <;> omega)
    | (rw [show (2 ^ 44 + (g - 8 * 786432) * 65536 + r - 2 ^ 44) / 2 ^ 42 = (g - 8 * 786432) / 2 ^ 26 by omega]; refine congrArg some (Prod.ext rfl ?_); dsimp only; omega)
theorem portTable_lt (p : Nat) : portTable p < 8 := by unfold portTable; split <;> decide
theorem frameOf_lt (n : Nat) : (frameOf n).1 < 8 := by
  have := Nat.mod_lt n (show 0 < 8 * hbmFrames + 6 * 2 ^ 26 by decide)
  unfold frameOf; rw [show hbmFrames = 786432 from rfl] at *
  dsimp only
  split_ifs
  · show _ / _ < 8; omega
  · exact portTable_lt _
/-- A machine with full expanders in which partition 1 owns the frame behind the first piece of its window. -/
def windowState : State :=
  let x := frameOf (Config.barFrame 1 0)
  setIptEntry (part1 {} { State.reset with boot := { State.reset.boot with cxl := List.replicate 6 (2 ^ 42) } }) x.1 x.2 { part := 1 }
theorem backed_frameAt (n r : Nat) (hr : r < 65536) : backed windowState (frameAt n + r) = true := by
  have := Nat.mod_lt n (show 0 < 8 * hbmFrames + 6 * 2 ^ 26 by decide)
  have hc : ∀ j < 6, cxlCap windowState.boot j = 2 ^ 42 := by decide +kernel
  unfold backed frameAt
  rw [show hbmFrames = 786432 from rfl] at *
  rw [show hostBase = 2 ^ 51 from rfl]
  generalize n % (8 * 786432 + 6 * 2 ^ 26) = g at *
  dsimp only
  split_ifs
  all_goals first
    | (exfalso; omega)
    | (rw [hc _ (by omega)]; simp only [Bool.and_eq_true, decide_eq_true_eq]; omega)
    | (simp only [Bool.and_eq_true, decide_eq_true_eq]; omega)
theorem windowState_at (j : Nat) (h : j < 65536) : barAddr windowState 1 j = some (frameAt (Config.barFrame 1 0) + j) := by
  unfold barAddr
  rw [Nat.div_eq_of_lt h, Nat.mod_eq_of_lt h]
  simp only [frameIdx_frameAt _ _ h, backed_frameAt _ _ h]
  have e : iptEntry windowState (frameOf (Config.barFrame 1 0)).1 (frameOf (Config.barFrame 1 0)).2 = { part := 1 } := by
    unfold windowState setIptEntry iptEntry iptOf
    have := frameOf_lt (Config.barFrame 1 0)
    simp [List.getD_eq_getElem?_getD, part1, State.reset, this]
  rw [e]
  rw [if_pos (by simp; omega)]
/-- 64 bytes at the window's start and its last 8; a virtual function that is on and one that is off; a poisoned unit. -/
theorem test_meets_HostWindows :
    vfOn windowState 1 = true ∧ vfOn windowState 2 = false ∧ Memory.wf windowState.mem
    ∧ WindowAt windowState 1 0 64 (frameAt (Config.barFrame 1 0)) ∧ barAddr windowState 1 65528 = some (frameAt (Config.barFrame 1 0) + 65528)
    ∧ (∀ u, poisonAt windowState (.phys u) = none) ∧ 65528 % 8 = 0
    ∧ poisonAt (setPoison windowState (.phys (frameAt (Config.barFrame 1 0) / 64)) false) (.phys (frameAt (Config.barFrame 1 0) / 64)) = some false := by
  refine ⟨by decide +kernel, by decide +kernel, by decide +kernel, fun j h => ?_, windowState_at _ (by decide), fun u => rfl, rfl, ?_⟩
  · simpa using windowState_at j (by omega)
  · rw [poisonAt_set]; simp
/-- Class 0 of the machine after reset, changed. -/
def cls0 (f : ClassState → ClassState) (s : State := State.reset) : State := modCls s 0 f
/-- Evaluations at and within 10 µs, with and without a cap, at 125 °C; the lowest clocks; the thresholds of heat; pads in both orders;
a tick that ends a microsecond and one that does not, a queue that waits. -/
theorem test_meets_PowerClocksAndHeat :
    let t : State := { State.reset with ticks8 := 13749, evalAt := some 12499, raisedAt := some 1250, grant := 3, pcap := 7 }
    let due := fun (s : State) => match s.evalAt with | some x => decide (x + 1250 ≤ s.ticks8) | none => true
    due t = true ∧ t.capped = false ∧ t.raisedAt = some 1250 ∧ t.ticks8 < 1250 + 12500
    ∧ (∃ k ∈ (cls0 fun k => { k with temps := [25, 25, 25, 125] }).cls, ∃ x ∈ k.temps, 125 ≤ x)
    ∧ ({ t with capped := true } : State).capped = true ∧ (∀ k ∈ t.cls, ∀ x ∈ k.temps, x < 125) ∧ (3 : BitVec 3).toNat ≤ t.grant
    ∧ (let f := cls0 (fun k => { k with thermRow := 3, govCap := some 8 }) { State.reset with grant := 7 }
       f.grant ≤ 7 ∧ (getCls f 0).thermRow ≤ 3 ∧ (getCls f 0).govCap = some 8)
    ∧ (getCls (cls0 fun k => { k with thermRow := 2 }) 0).thermRow = 2 ∧ 85 + 10 * 2 ≤ hot4 105 0 0 0 ∧ hot4 0 0 0 125 = 125
    ∧ hot4 25 25 25 124 < 125 ∧ (cls0 id).cls.length = 40 ∧ (getCls State.reset 39).temps.length = 4
    ∧ (8 ∈ (getCls (cls0 fun k => { k with refusals := [8, 1] }) 0).refusals ∧ 1 / 2 ≠ 4)
    ∧ (1 % 20 % 5 = 1 ∧ 23 % 20 % 5 = 3 ∧ ¬ (0 % 20 % 5 = 1 ∨ 0 % 20 % 5 = 3))
    ∧ ({ t with update := ⟨true, 0⟩, ticks8 := 1249999 } : State).update.transferAt + 1250000 ≤ 1249999 + 1
    ∧ (let s := fun (n : Nat) => part1 { en := true, log2n := 4, qwidx := 1, hmto := 5, hm := n, armed := some [] }
       (hmRuns (s 4) 1 0 = true) ∧ (getQueue (s 4) 1 0).hmto.toNat ≤ 4 + 1 ∧ ¬ (getQueue (s 3) 1 0).hmto.toNat ≤ 3 + 1)
    ∧ ((State.reset.ticks8 + 1) % 125 ≠ 0 ∧ (124 + 1) % 125 = 0 ∧ State.reset.update.started = false ∧ (getPart (part1 {}) 1).state = 1
       ∧ 7 < (getPart (part1 {}) 1).queues.length ∧ 1 < (part1 {}).parts.length) := by decide +kernel
/-- Windows of 64 and 65 replays, of 16 and 17, the 999th and the 1,000th quiet one; an error in the table, beside it, within the
guard. -/
theorem test_meets_ReplaysFreezesAndPoison :
    let k := fun (n q : Nat) (g : Option Nat) => getCls (cls0 fun k => { k with replays := n, quiet := q, govCap := g }) 0
    64 < (k 65 0 none).replays ∧ (k 64 0 none).replays ≤ 64 ∧ (k 64 0 none).govCap = none
    ∧ (k 17 0 (some 8)).govCap = some 8 ∧ 16 < (k 17 0 (some 8)).replays ∧ (k 17 0 (some 8)).replays ≤ 64
    ∧ (k 16 998 (some 8)).replays ≤ 16 ∧ (k 16 998 (some 8)).quiet < 999 ∧ 999 ≤ (k 16 999 (some 8)).quiet ∧ (k 16 999 (some 8)).govCap = some 8
    ∧ (getCls (cls0 fun k => { k with patch := [(ClassMem.remap, 2 ^ 32 - 1)] }) 0).frozen = false
    ∧ (ClassMem.remap, (0xFFFFFFFF#32).toNat) ∈ (getCls (cls0 fun k => { k with patch := [(ClassMem.remap, 2 ^ 32 - 1)] }) 0).patch
    ∧ (ClassMem.remap, 0) ∉ (getCls (cls0 fun k => { k with patch := [(ClassMem.remap, 1)] }) 0).patch
    ∧ (let f : InFlight := { id := 0, ord := 0, run := 0, eng := .s, instr := .cread h0 default, status := .answered, held := some [(3, 7)] }
       let s := cls0 fun k => { k with frozen := true, inflight := [f, { f with id := 1, held := none }] }
       (getCls s 0).frozen = true ∧ (getCls s 0).inflight = [] ++ f :: [{ f with id := 1, held := none }] ∧ f.held = some [(3, 7)]
         ∧ (getCls (cls0 fun k => { k with frozen := true }) 0).inflight = [])
    ∧ (let g := fun (i : Instr) (e : Eng) => ({ id := 0, ord := 0, run := 0, eng := e, instr := i, status := .answered, held := some [] } : InFlight)
       let b := g (.bwait h0 { (default : FCN) with imm := 0 }) .s
       let x := { g (.xrecv h0 default) .x with ops := [64, 64, 0, 0, 1, 0], moves := [⟨.tower 1 0 0, .tower 0 0 0, 64⟩] }
       let s := fun f => cls0 fun k => { k with frozen := true, inflight := [f, { f with id := 1, held := none }] }
       isRecv b.instr = false ∧ (getCls (s b) 0).inflight = [] ++ b :: [{ b with id := 1, held := none }] ∧ b.held = some []
         ∧ (getCls (s x) 0).inflight = [] ++ x :: [{ x with id := 1, held := none }] ∧ x.ops.getD 3 0 ≠ 1 ∧ (s x).poison = [])
    ∧ (getCls (cls0 fun k => { k with guard := true }) 0).guard = true ∧ (getCls (cls0 id) 0).guard = false
    ∧ teamOf (owned0 false State.reset) 0 ≠ none := by decide +kernel
/-- Consumption at and below the background and the forcing bounds; a pass that runs; forcing in a path, in a handler; a stopped
refill. -/
def consAt (n : Nat) (f : ClassState → ClassState := id) : State := cls0 fun k => f { k with cons := [(0, n)] }
theorem consAt_forces (x : Nat) : Forces (getCls (consAt (1950000 * 256)) 0) x ↔ x = 0 := by
  constructor
  · intro h
    rcases h.2 with ⟨h, _⟩ | ⟨h, _⟩
    · by_contra hx
      have e : consOf (getCls (consAt (1950000 * 256)) 0) x = 0 := by
        show tget 0 [(0, 1950000 * 256)] x = 0
        simp [tget, Ne.symm hx]
      omega
    · exact absurd h (by decide +kernel)
  · rintro rfl; exact ⟨by decide +kernel, .inl ⟨by decide +kernel, by decide +kernel⟩⟩
theorem test_meets_RefreshEvents :
    (∀ k ∈ State.reset.cls, ∀ x ∈ k.temps, x ≤ 200) ∧ 0 < State.reset.cls.length ∧ 31 ∈ towersInUse (getCls State.reset 0)
    ∧ (∀ p ∈ (getCls (consAt 256000000) 0).passes, p.tower ≠ 0) ∧ (getCls (consAt 256000000) 0).defer = false
    ∧ 1000000 * 256 ≤ consOf (getCls (consAt 256000000) 0) 0 ∧ consOf (getCls (consAt 255999999) 0) 0 < 1000000 * 256
    ∧ (getCls (consAt 300 fun k => { k with passes := [⟨0, 100, false⟩] }) 0).passes.find? (fun q => q.tower = 0) = some ⟨0, 100, false⟩
    ∧ (∀ x, ¬ Forces (getCls State.reset 0) x)
    ∧ (let k := consAt (1950000 * 256) fun k => { k with live := true }
       (getCls k 0).live = true ∧ (getCls k 0).hmode = false ∧ (getCls k 0).hold = none ∧ (getCls k 0).thnd = 0)
    ∧ (let k := consAt (1950000 * 256) fun k => { k with live := true, hmode := true }
       (getCls k 0).live = true ∧ (getCls k 0).hmode = true ∧ ∀ y ∈ (getCls k 0).causes, y.eng ≠ none)
    ∧ (let r := fun (b : Bool) => cls0 fun k => { k with
         inflight := [{ id := 3, ord := 0, run := 0, eng := .s, instr := .nop ⟨0, false, 0, 0⟩, status := .stopped, moves := [⟨.handle 0, .tower 0 0 0, 64⟩] }]
         passes := [⟨0, 0, b⟩] }
       ∀ b, ∃ f, findOp (r b) 0 3 = some f ∧ f.status = .stopped ∧ refillClasses f = [0] ∧ frcOf (getCls (r b) 0) = b) := by
  refine ⟨by decide +kernel, by decide +kernel, by decide +kernel, by decide +kernel, by decide +kernel, by decide +kernel, by decide +kernel, by decide +kernel, fun x h => ?_, by decide +kernel,
    by decide +kernel, fun b => ⟨_, rfl, rfl, rfl, ?_⟩⟩
  · have e : consOf (getCls State.reset 0) x = 0 := rfl
    rcases h.2 with ⟨h, _⟩ | ⟨h, _⟩
    · omega
    · exact absurd h (by decide +kernel)
  · cases b <;> decide +kernel
/-- A class whose walkers stand at 1 TiB, physical address 0, die 0 having scanned frames with these results. -/
def fetchState (scan : List (Nat × Option Nat)) : State :=
  let s := owned0 false (cls0 fun k => { k with live := true, ws := { wi := 6 * 2 ^ 34 } })
  modDie { s with insts := [{ inst1 with snaps := [⟨[], [], leBytes 8 (2 ^ 40) ++ leBytes 8 1 ++ leBytes 8 0 ++ leBytes 8 (2 ^ 63 + 2 ^ 60), []⟩] }] }
    0 fun d => { d with scan := scan }
/-- A frame unscanned, refused at its first word, passed; a line at the window's first byte and its last line. -/
theorem test_meets_FetchAndScan :
    let s := fetchState [(0, none)]
    let r := fetchState [(0, some 5)]
    codeFrame (fetchState []) 0 (2 ^ 40) = some 0 ∧ (getDie (fetchState []) (dieOf 0)).scan.find? (fun e => e.1 = 0) = none
    ∧ dieOf 0 < (fetchState []).dies.length
    ∧ codeFrame r 0 (2 ^ 40) = some 0 ∧ (getDie r (dieOf 0)).scan.find? (fun e => e.1 = 0) = some (0, some 5)
    ∧ (getCls r 0).live = true ∧ (getCls r 0).hold = none ∧ 64 * ((getCls r 0).ws.wi / 6) = 2 ^ 40
    ∧ codeFrame s 0 (2 ^ 40) = some 0 ∧ codeFrame s 0 (2 ^ 40 + 65472) = some 0
    ∧ (getDie s (dieOf 0)).scan.find? (fun e => e.1 = 0) = some (0, none)
    ∧ Memory.wf s.mem ∧ poisonUnder s (65472 / 64) (2 ^ 40 + 65472) = none ∧ 0 < s.cls.length
    ∧ (let p := setPoison s (.phys 0) false
       poisonUnder p ((0 + 2 ^ 40 % 65536) / 64) (2 ^ 40) = some false ∧ codeFrame p 0 (2 ^ 40) = some 0 ∧ (teamOf p 0).isSome = true
         ∧ 64 * ((getCls p 0).ws.wi / 6) = 2 ^ 40)
    ∧ (let p := setPoison s (.phys 1023) true
       poisonUnder p 1023 (2 ^ 40 + 65472) = some true
         ∧ ([Eng.s, .a, .v, .m, .x].all fun e => 64 * ((walkerOf (getCls p 0) e).wi / 6) != 2 ^ 40 + 65472) = true)
    ∧ checkLine (BitVec.ofNat 512 (leNat ((List.range 64).map fun j => readByte s (65472 + j)))) = .clean := by decide +kernel
/-- Instance 1 in a window of one paged segment at 1 TiB, table 0; page 0 of it at frame 5. -/
def pagedState (e : IptEntry) (f : ClassState → ClassState) : State :=
  { owned0 false (cls0 f) with
    insts := [{ inst1 with snaps := [⟨[], [], leBytes 8 (2 ^ 40) ++ leBytes 8 1 ++ leBytes 8 0 ++ leBytes 8 (2 ^ 63 + 2 ^ 62 + 2 ^ 60 + 2 ^ 59), []⟩] }]
    ipts := State.reset.ipts.modify 0 fun x => { x with anchor := [(hashOf 1 (2 ^ 24), 5)], entry := [(5, e)] } }
def page0 : IptEntry := { part := 1, v := true, vpn := 2 ^ 24 }
/-- A word that has translated page `v`. -/
def usesWord (v : Nat) : InFlight :=
  { id := 0, ord := 0, run := 0, eng := .a, instr := .nop ⟨0, false, 0, 0⟩, moves := [⟨.mem (v * 65536), .tower 0 0 0, 64⟩], pages := [(v, 0)] }
/-- A walk that finds its frame, one that halts, one that waits for a migration; a shoot-down pending, in use, acknowledged; a page of
an executable segment, a migration that begins, one that is acknowledged; a partial that waits to be merged. -/
theorem test_meets_WalksShootdownsAndMerges :
    let w := fun k : ClassState => { k with walk := some (4 * (2 ^ 40 + 7) + 1) }
    let seg (s : State) := findSeg (segsOf (winOf s 0)) (2 ^ 40 + 7)
    let walked (s : State) := walk s 0 (partOf s 0) ((2 ^ 40 + 7) / 65536)
    let sh := fun (f : ClassState → ClassState) => { cls0 f with migs := [⟨0, 5, 6, 2 ^ 24, [0]⟩] }
    let ack := sh fun k => { k with shootAcks := [2 ^ 24], inflight := [usesWord (2 ^ 24)] }
    let done := sh fun k => { k with shootAcks := [2 ^ 24], inflight := [usesWord (2 ^ 24 + 1)] }
    -- a full expander behind E0, whose first frame holds no table
    let m := fun (l : List Mig) (e : IptEntry) =>
      { pagedState e id with migs := l, boot := { State.reset.boot with cxl := [2 ^ 42] } }
    (seg (pagedState page0 w)).any (fun g => g.table == 0) = true ∧ walked (pagedState page0 w) = .frame 5
    ∧ (seg (pagedState { page0 with v := false } w)).isSome = true
    ∧ (match walked (pagedState { page0 with v := false } w) with | .halt _ => true | _ => false) = true
    ∧ (match walked (pagedState { page0 with mig := true } w) with | .wait _ => true | _ => false) = true
    ∧ (getCls (pagedState page0 w) 0).walk = some (4 * (2 ^ 40 + 7) + 1) ∧ (4 * (2 ^ 40 + 7) + 1) / 4 = 2 ^ 40 + 7
    ∧ shootPending (sh id) 0 (2 ^ 24) = true ∧ (0x1000000#40).toNat = 2 ^ 24
    ∧ 2 ^ 24 ∈ (getCls ack 0).shootAcks ∧ shootPending ack 0 (2 ^ 24) = true ∧ usesPage (getCls ack 0) (2 ^ 24) = true
    ∧ 2 ^ 24 ∈ (getCls done 0).shootAcks ∧ usesPage (getCls done 0) (2 ^ 24) = false
    ∧ (m [] page0).migs.find? (fun m => m.table = 0 ∧ m.src = 5) = none ∧ iptEntry (m [] page0) 0 5 = page0
    ∧ frameExec (m [] page0) 1 (framePa 0 5) = true ∧ 0 < (m [] page0).ipts.length
    ∧ (let p := { m [] page0 with insts := [inst1] }
       frameExec p 1 (framePa 0 5) = false ∧ iptEntry p 0 5 = page0 ∧ p.migs.find? (fun m => m.table = 0 ∧ m.src = 5) = none)
    -- system-atomic, and with a shadow taken before or since
    ∧ (let q := fun l e => m l { page0 with sa := true, mig := e }
       (iptEntry (q [] false) 0 5).sa = true ∧ hbmFrames ≤ 786432 ∧ 6 < hbmFrames)
    ∧ (let q := fun l (e : Bool) => m l { page0 with shd := true, mig := e }
       (iptEntry (q [] false) 0 5).shd = true ∧ (iptEntry (q [⟨0, 5, 6, 2 ^ 24, []⟩] true) 0 5).mig = true
         ∧ (iptEntry (q [⟨0, 5, 6, 2 ^ 24, []⟩] true) 0 5).v = true)
    ∧ page0.shd = false ∧ page0.shadow = 0xFFFFFFFF ∧ page0.sa = false
    ∧ keyOf (m [] page0) (framePa 0 5) = none
    ∧ (m [⟨0, 5, 6, 2 ^ 24, []⟩] { page0 with mig := true }).migs.find? (fun m => m.table = 0 ∧ m.src = 5) = some ⟨0, 5, 6, 2 ^ 24, []⟩
    ∧ iptEntry (m [] { page0 with mig := true }) 0 5 = { page0 with mig := true } ∧ Memory.wf (m [] page0).mem
    ∧ (let x : Transit := ⟨7, 1, 0, { hdl := 4099, count := 1, ovf := true }⟩
       let s := { State.reset with transit := [x] }
       s.transit.find? (fun y => y.cls = 7 && y.part.hdl = 1 * 4096 + 3) = some x ∧ x.part.bins.length = 16 ∧ x.part.ovf = true
         ∧ (getRec s (1 * 4096 + 3)).bins.length = 16) := by decide +kernel
/-- A machine with one full expander, behind E0, and save areas of no size. -/
def freeState : State :=
  { pagedState page0 id with insts := [inst1], boot := { State.reset.boot with cxl := [2 ^ 42], saveBytes := 0 } }
theorem framePa_e0 (f : Nat) (h : 786432 ≤ f) : framePa 0 f = 2 ^ 44 + (f - 786432) * 65536 := by
  unfold framePa
  rw [show hbmFrames = 786432 from rfl, if_neg (by omega), show tablePort 0 = some 0 from rfl]
  simp only [Nat.zero_mul, Nat.add_zero]
theorem firmwareFrame_free (f : Nat) (hf : 786432 ≤ f)
    (h : ∀ d < 2, ¬ (Config.saveArea d < framePa 0 f + 65536 ∧ framePa 0 f < Config.saveArea d)) :
    firmwareFrame freeState 0 f = false := by
  have h0 := h 0 (by decide)
  have h1 := h 1 (by decide)
  have hb : handoverBase < 2 ^ 36 := by
    have m := Nat.mod_lt Config.handoverFrame (show 0 < hbmFrames by decide)
    unfold handoverBase
    obtain ⟨n, hn⟩ : ∃ n, Config.handoverFrame % hbmFrames = n := ⟨_, rfl⟩
    rw [hn] at m ⊢
    clear hn
    rw [show hbmFrames = 786432 from rfl] at m
    omega
  rw [framePa_e0 f hf] at h0 h1
  have n : tablePlace freeState (framePa 0 f) = none := by
    unfold tablePlace; rw [framePa_e0 f hf, if_pos (by omega)]
  unfold firmwareFrame
  dsimp only
  rw [n, framePa_e0 f hf, show freeState.boot.saveBytes = 0 from rfl, show List.range 2 = [0, 1] from rfl]
  rw [Bool.eq_false_iff]
  simp only [List.any_cons, List.any_nil, Option.isSome_none, Bool.false_or, Bool.or_false, ne_eq, Bool.or_eq_true, Bool.and_eq_true,
    decide_eq_true_eq]
  omega
theorem frameFree_of (f : Nat) (hf : 786432 ≤ f) (hi : f < 786440) (h : firmwareFrame freeState 0 f = false) : frameFree freeState 0 f = true := by
  have e : iptEntry freeState 0 f = {} := by
    have i : iptOf freeState 0 = { anchor := [(hashOf 1 (2 ^ 24), 5)], entry := [(5, page0)] } := by
      simp [iptOf, freeState, pagedState, State.reset]
    have n : f ≠ 5 := by omega
    unfold iptEntry; rw [i]; simp [tget, n.symm]
  have b : backed freeState (framePa 0 f) = true := by
    have c : cxlCap freeState.boot 0 = 2 ^ 42 := by decide +kernel
    rw [framePa_e0 f hf]
    unfold backed
    rw [show hostBase = 2 ^ 51 from rfl, show (2 ^ 44 + (f - 786432) * 65536 - 2 ^ 44) / 2 ^ 42 = 0 by omega, c]
    rw [if_neg (by omega), if_pos (by omega)]
    simp only [Bool.and_eq_true, decide_eq_true_eq]; omega
  have g : freeState.migs = [] := rfl
  have ne : f ≠ 0 := by omega
  unfold frameFree
  rw [e, h, b, g]
  simp [ne]
/-- Where the save areas lie is open: of three frames behind E0 one is free, whatever Config says. -/
theorem test_meets_free_frame : ∃ f, 786432 ≤ f ∧ f ≠ 5 ∧ frameFree freeState 0 f = true := by
  have free := fun (f : Nat) (h1 : 786432 ≤ f) (h2 : f < 786440) h => frameFree_of f h1 h2 (firmwareFrame_free f h1 h)
  by_contra c
  have n : ∀ f, 786432 ≤ f → f < 786440 → ∃ d < 2, Config.saveArea d < framePa 0 f + 65536 ∧ framePa 0 f < Config.saveArea d := by
    intro f h1 h2
    by_contra x
    exact c ⟨f, h1, by omega, free f h1 h2 fun d hd y => x ⟨d, hd, y⟩⟩
  obtain ⟨d0, l0, x0⟩ := n 786432 (by omega) (by omega)
  obtain ⟨d1, l1, x1⟩ := n 786433 (by omega) (by omega)
  obtain ⟨d2, l2, x2⟩ := n 786434 (by omega) (by omega)
  rw [framePa_e0 _ (by omega)] at x0 x1 x2
  have : d0 = d1 ∨ d0 = d2 ∨ d1 = d2 := by omega
  rcases this with rfl | rfl | rfl <;> omega
/-- A node record of a priority class and an estimate: one team of two classes of a die, three iterations. -/
def nodeRec (prio est : Nat) (idemp gang : Bool := false) : List Byte :=
  leBytes 8 (prio * 2 ^ 58 + (if gang then 2 ^ 55 else 0) + 2 * 2 ^ 51 + (if idemp then 2 ^ 50 else 0) + 2 ^ 43 + 2 ^ 40 + est)
    ++ leBytes 8 0x4000 ++ leBytes 8 5 ++ leBytes 8 0x2000 ++ leBytes 8 0 ++ leBytes 4 3 ++ List.replicate 84 0
/-- A running instance of partition 1 with one node that is ready. -/
def instOfRec (num : Nat) (r : List Byte) (deadline : Nat := 0) : Instance :=
  { inst1 with num := num, entry := List.replicate 24 0 ++ leBytes 8 deadline ++ List.replicate 32 0 ++ (List.range 32).map (BitVec.ofNat 8) ++ List.replicate 32 0,
               snaps := [⟨r, [], graphWin, []⟩], pceil := 0 }
/-- Instance 1, ready to be dispensed on classes 0 and 1. -/
def ready1 : State := { part1 with insts := [instOfRec 1 (nodeRec 3 7 false true)] }
theorem test_meets_DispenseAndDispatch :
    firstPlace State.reset (items State.reset) = none
    ∧ ∃ x i, firstPlace ready1 (items ready1) = some (x, [0, 1]) ∧ x.team = none ∧ instOf ready1 x.inst = some i
      ∧ firstPlace (placeAt ready1 x [0, 1]) (items (placeAt ready1 x [0, 1])) = none ∧ [0, 1].Nodup ∧ (∀ c ∈ [0, 1], c < ready1.cls.length)
      ∧ Memory.wf ready1.mem ∧ (entArgs i.entry).length = 32 ∧ [0, 1][1]? = some 1 :=
  ⟨by decide +kernel, ⟨3, 1, 1, 0, 0, none⟩, _, by decide +kernel, rfl, rfl, by decide +kernel, by decide, by decide +kernel, by decide +kernel, by decide +kernel, rfl⟩
/-- Team 5 of instance 1 (P3) on class 0, the one class of partition 1; instance 2 (P0) asks for it. -/
def victimState (est e deadline : Nat) (idemp : Bool) (st : TeamState := .running) (room : Nat := 2 ^ 34) : State :=
  { part1 with
    parts := State.reset.parts.set 1 { state := 1, args := [1, 1, 1024, 0, 100, 0, 0, 0] }
    boot := { State.reset.boot with saveBytes := room }
    insts := [instOfRec 1 (nodeRec 3 est idemp), instOfRec 2 (nodeRec 0 9) deadline]
    requests := [⟨⟨0, 1, 2, 0, 0, none⟩, [5]⟩]
    teams := [{ id := 5, inst := 1, node := 0, ord := 0, classes := [0], state := st, own := 3, elapsed := e, bound := 800 }] }
def victimTeam (e : Nat) (st : TeamState) : Team := { id := 5, inst := 1, node := 0, ord := 0, classes := [0], state := st, own := 3, elapsed := e, bound := 800 }
/-- Row 1 at its bound and beyond it, row 2 with and without a deadline, row 3 at its bound, row 4; an image without room; no
request; a drain at its bound; a save; a resume with a countdown at another clock. -/
theorem test_meets_PreemptionAndResume :
    let item : Item := ⟨0, 1, 2, 0, 0, none⟩
    let by_ := fun (s : State) => (s.teams.find? fun t => t.id = 5).bind (requesterOf s)
    let asked := fun (s : State) => decide (by_ s = some item) && s.teams.any (fun t => t.id == 5 && t.state == .running)
      && !(getPart s 1).paired && (items s).contains item
    let r1 := fun (est e : Nat) (s : State) => decide (e < est) && decide (100 * (est - e) ≤ tsave s (victimTeam e .running))
    ([victimState 6000 0 0 false, victimState 9000 0 0 false, victimState 0 6000 99 true, victimState 0 9000 99 true,
      victimState 0 9000 99 false, victimState 0 9000 99 false .running 0].all asked) = true
    ∧ (victimState 6000 0 0 false).teams.find? (fun t => t.id = 5) = some (victimTeam 0 .running)
    ∧ elapsedOf (victimState 6000 0 0 false) (victimTeam 0 .running) = 0 ∧ r1 6000 0 (victimState 6000 0 0 false) = true
    ∧ r1 9000 0 (victimState 9000 0 0 false) = false ∧ (by_ (victimState 9000 0 0 false)).map (slackOf (victimState 9000 0 0 false)) = some none
    ∧ (by_ (victimState 9000 0 3600009 false)).map (slackOf (victimState 9000 0 3600009 false)) = some (some (some 360000000))
    ∧ recIdemp (snapOf (victimState 0 6000 99 true) 1 0).record = true ∧ 100 * 6000 ≤ tsave (victimState 0 6000 99 true) (victimTeam 6000 .running)
    ∧ ¬ 100 * 9000 ≤ tsave (victimState 0 9000 99 true) (victimTeam 9000 .running)
    ∧ (by_ (victimState 0 9000 99 false)).map (slackOf (victimState 0 9000 99 false)) = some (some (some 9000))
    ∧ imagePlace (victimState 0 9000 99 false) (victimTeam 9000 .running) ≠ none
    ∧ imagePlace (victimState 0 9000 99 false .running 0) (victimTeam 9000 .running) = none
    ∧ (let s := fun n => { victimState 0 0 0 true .draining with ticks8 := n }
       100 * (8 * ((s 0).ticks8 - 0)) < 800 ∧ 800 ≤ 100 * (8 * ((s 1).ticks8 - 0)) ∧ (victimTeam 0 .draining).bound = 800
         ∧ (s 1).teams.find? (fun t => t.id = 5) = some (victimTeam 0 .draining))
    ∧ by_ { victimState 6000 0 0 false with requests := [] } = none
    ∧ (victimState 0 0 0 true .saving).teams.find? (fun t => t.id = 5) = some (victimTeam 0 .saving)
    ∧ (let m : ClassState := { kbkt := 9, clks := 8, inflight := [{ id := 0, ord := 0, run := 0, eng := .s, instr := .nop h0, rem := 7 }] }
       let i : Image := ⟨[m], [], [], [], 0, [], 4⟩
       let tm : Team := { victimTeam 0 .resuming with image := some i }
       { part1 with teams := [tm] }.teams.find? (fun t => t.id = 5) = some tm ∧ tm.classes.Nodup ∧ i.members.length = tm.classes.length
         ∧ (∀ c ∈ tm.classes, c < State.reset.cls.length ∧ (getCls State.reset c).router = []) ∧ imageBad part1 tm i = false
         ∧ (∀ f ∈ m.inflight, f.held = none) ∧ (getCls State.reset 0).clks ≠ m.clks) := by decide +kernel
/-- An image whose header stands in a unit found bad; its team resumes on a running instance. -/
theorem test_meets_PreemptionAndResume_bad :
    let i : Image := ⟨[{ kbkt := 9 }], [], [], [], 0, [], 4⟩
    let tm : Team := { victimTeam 0 .resuming with image := some i }
    let s : State := { part1 with insts := [inst1], teams := [tm], poison := [(.phys (Config.saveArea 0 / 64), true)] }
    s.teams.find? (fun t => t.id = 5) = some tm ∧ tm.state = .resuming ∧ tm.image = some i ∧ imageBad s tm i = true
      ∧ (instOf s tm.inst).map (·.state) = some .running := by
  refine ⟨by simp [victimTeam], rfl, rfl, ?_, by decide +kernel⟩
  have d : dieOf 0 = 0 := by decide
  simp [imageBad, victimTeam, d]
  omega
/-- Instance 1 with one node in a state, killed `n` times already; partition 1 paired or not; a kill asked for. -/
def killState (st : NodeState) (n : Nat) (paired : Bool := false) (mis : Nat := 0) (dig : Option (BitVec 256) := none) : State :=
  let s := owned0 paired State.reset
  { s with
    parts := s.parts.modify 1 fun p => { p with mismatches := mis }
    insts := [{ inst1 with nodes := [{ state := st, rollbacks := n, digest := dig }] }], kills := [⟨1, 0, 0x13⟩] }
/-- Third and fourth kills; a node that swaps; digests equal and unequal, the second and third mismatch; ages at the bounds; notices; a
selection; a decision on a team. -/
theorem test_meets_KillsAndPairMode :
    let gone := fun s : State => { s with kills := s.kills.erase ⟨1, 0, 0x13⟩ }
    let m := fun (mis : Nat) => { killState .digest 2 true mis (some 7) with pairMaster := true }
    let at8 := fun (n : Nat) (p : Bool) => { killState .digest 0 true 1 (some 7) with ticks8 := n, pairMaster := p }
    let psw := fun (n : Nat) => { cls0 (fun k => { k with live := true, pswAt := some 0 }) (killState .ready 0 true) with ticks8 := n }
    let dec := fun (n : Nat) => { killState .ready 0 true with ticks8 := n, teams := [victimTeam 0 .decided] }
    (⟨1, 0, 0x13⟩ ∈ (killState .ready 2).kills ∧ (instOf (killState .ready 2) 1).isSome = true ∧ killable (gone (killState .ready 2)) 1 0 = true
      ∧ (nodeOf (killState .ready 2) 1 0).rollbacks < 3)
    ∧ (killable (gone (killState .digest 3)) 1 0 = true ∧ 3 ≤ (nodeOf (killState .digest 3) 1 0).rollbacks)
    ∧ (nodeOf (killState .swapping 0) 1 0).state = .swapping ∧ (nodeOf (killState .retired 0) 1 0).state = .retired
    ∧ ((getPart (m 2) (partOfInst (m 2) 1)).paired = true ∧ (m 2).pairMaster = true ∧ (instOf (m 2) 1).isSome = true
      ∧ (nodeOf (m 2) 1 0).state = .digest ∧ (nodeOf (m 2) 1 0).digest = some 7 ∧ (nodeOf (m 2) 1 0).rollbacks = 2 ∧ (2, 7#256) ≠ (1, 7)
      ∧ (getPart (m 1) 1).mismatches < 2 ∧ 2 ≤ (getPart (m 2) 1).mismatches ∧ (getPart (m 2) 1).state = 1)
    ∧ (digestAge (at8 6250 true) 1 0 = some 50000 ∧ digestAge (at8 6249 true) 1 0 = some 49992 ∧ (at8 6250 true).pairMaster = true
      ∧ digestAge (at8 12500 false) 1 0 = some 100000 ∧ digestAge (at8 12499 false) 1 0 = some 99992 ∧ (at8 12500 false).pairMaster = false
      ∧ (getPart (at8 12500 false) 1).mismatches < 2 ∧ (getPart (at8 12500 false) (partOfInst (at8 12500 false) 1)).paired = true)
    ∧ ((getPart (killState .ready 0 true) (partOfInst (killState .ready 0 true) 1)).paired = true ∧ (getPart (killState .ready 0 true) 1).state = 1
      ∧ (getPart (killState .ready 0) 1).paired = false)
    ∧ (pairedOn (killState .ready 0 true) 0 = true ∧ (killState .ready 0 true).pairMaster = false)
    ∧ ((getCls (psw 6250) 0).pswAt = some 0 ∧ (teamOf (psw 6250) 0).map (·.inst) = some 1 ∧ (getCls (psw 6250) 0).live = true ∧ 0 < (psw 0).cls.length
      ∧ 50000 ≤ 8 * ((psw 6250).ticks8 - 0) ∧ 8 * ((psw 6249).ticks8 - 0) < 50000 ∧ selectionFor (psw 6249) 0 = none)
    ∧ ((dec 6250).teams.find? (fun t => t.id = 5) = some (victimTeam 0 .decided) ∧ (getPart (dec 0) (partOfInst (dec 0) 1)).paired = true
      ∧ (dec 0).pairMaster = false ∧ imagePlace (dec 0) (victimTeam 0 .decided) ≠ none
      ∧ 50000 ≤ 8 * ((dec 6250).ticks8 - 0) ∧ 8 * ((dec 6249).ticks8 - 0) < 50000) := by decide +kernel
/-- Pair links that are up; verdicts and notices of the run here, of a later one, of one that has been killed; a run whose digest is
still to come; a selection for the ordinal at hand, and for another. -/
theorem test_meets_PairExchange :
    let gone := fun s : State => { s with kills := s.kills.erase ⟨1, 0, 0x13⟩ }
    let psw := cls0 (fun k => { k with live := true, pswAt := some 0 }) (killState .ready 0 true)
    pairLinksDown (killState .digest 2 true) = false
    ∧ (let own := killState .ready 1 true 1
       killable own 1 0 = true ∧ own.pairMaster = false ∧ (nodeOf own 1 0).digest = none
         ∧ (nodeOf own 1 0).rollbacks ≤ (⟨false, true, 1⟩ : PairVerdict).rollbacks ∧ (nodeOf own 1 0).rollbacks ≤ (⟨false, false, 2⟩ : PairVerdict).rollbacks
         ∧ (nodeOf own 1 0).rollbacks ≤ (⟨0, 1⟩ : KilledNode).rollbacks ∧ (⟨0, 0⟩ : KilledNode).rollbacks < (nodeOf own 1 0).rollbacks
         ∧ (getPart own (partOfInst own 1)).mismatches < 2
         -- an ABORT of the run before, not judged yet and judged already
         ∧ (⟨false, true, 0⟩ : PairVerdict).rollbacks < (nodeOf own 1 0).rollbacks ∧ (instOf own 1).isSome = true ∧ (nodeOf own 1 0).judged = 0
         ∧ (getPart own (partOfInst own 1)).state = 1 ∧ (instOf own 1).map (·.nodes.length) = some 1
         ∧ (nodeOf (modNode own 1 0 fun x => { x with judged := 1 }) 1 0).judged = 1)
    ∧ ((nodeOf (killState .waiting 2) 1 0).state = .waiting ∧ killable (gone (killState .waiting 2)) 1 0 = true)
    ∧ (let sel := fun (o : Nat) => { psw with pairSel := [⟨⟨1, 0, 0, 0⟩, o, 2⟩] }
       selectionFor (sel 0) 0 = some ⟨⟨1, 0, 0, 0⟩, 0, 2⟩ ∧ (getCls (sel 0) 0).ws.ord = 0 ∧ (selectionFor (sel 4) 0).map (·.ord) = some 4) := by decide +kernel
/-- A corridor transfer of class 0 with sequence number 65535 whose request stands thus, to class 39. -/
def sentWord (r : Sending) (a : Nat) : InFlight :=
  { id := 3, ord := 9, run := 0, eng := .x, instr := .xsend ⟨0, false, 0, 0⟩ ⟨1, 2, 3, 4, 5, 0⟩, seq := some 65535, reqs := [r],
    ops := [64, 64, 0, 0, 1, BitVec.ofNat 64 a], moves := [⟨.tower 0 0 0, .tower 39 31 (2 ^ 25 - 64), 64⟩] }
def sentState (r : Sending) (t a : Nat) (f : InFlight → InFlight := id) : State :=
  { cls0 (fun k => { k with live := true, inflight := [f (sentWord r a)] }) (killState .ready 0) with ticks8 := t }
theorem test_meets_CorridorAndRouters :
    let a := 39 * 2 ^ 40
    let gone : Sending := { left := some 0 }
    let s := sentState gone 499 a
    let w := fun (x : Stairwell) => setWell (sentState {} 0 a) 1 7 x
    -- team 5 is saved, the router of its class holds the request
    let kept := fun (r : Sending) (t : Nat) => { cls0 (fun k => { k with router := [⟨5, 1, 0, sentWord r a⟩] }) (killState .ready 0) with
      ticks8 := t, teams := [victimTeam 0 .saved] }
    let way := fun (x : Stairwell) => setWell (sentState { gone with wells := [(0, 3), (1, 7)] } 0 a) 1 7 x
    (∃ f, findSeq s 0 65535 = some (f, 0, none) ∧ arrives s 0 f 0 = true ∧ xferTurn s 0 f = true ∧ f.reqs.length = 1
      ∧ corRmt (f.ops.getD 5 0).toNat = false ∧ corCls (f.ops.getD 5 0).toNat = 39 ∧ f.ops.getD 3 0 = 0
      ∧ f.moves = [⟨.tower 0 0 0, .tower 39 31 (2 ^ 25 - 64), 64⟩] ∧ unacked f 0 = true ∧ (reqOf f 0).sends < 3
      ∧ 8 * (s.ticks8 - (reqOf f 0).left.getD 0) < 4000 ∧ 4000 ≤ 8 * ((sentState gone 500 a).ticks8 - (reqOf f 0).left.getD 0))
    ∧ Memory.wf s.mem ∧ s.poison = [] ∧ (∀ z ∈ List.range 32, physTower (getCls s 0) z < 34 ∧ physTower (getCls s 39) z < 34)
    ∧ (getCls s 0).live = true ∧ (teamOf s 0).isSome = true
    ∧ (∃ f, findSeq (sentState { gone with done := true } 0 a) 0 65535 = some (f, 0, none) ∧ (reqOf f 0).done = true
      ∧ unacked f 0 = false)
    ∧ (∃ f, findSeq (sentState { gone with lost := true } 0 a) 0 65535 = some (f, 0, none)
      ∧ arrives (sentState { gone with lost := true } 0 a) 0 f 0 = false)
    ∧ (∃ f, findSeq (kept gone 500) 0 65535 = some (f, 0, some 5) ∧ (kept gone 500).teams.find? (fun x => x.id = 5) = some (victimTeam 0 .saved)
      ∧ (reqOf f 0).left = some 0 ∧ (reqOf f 0).done = false ∧ (reqOf f 0).sends < 3 ∧ 4000 ≤ 8 * ((kept gone 500).ticks8 - 0)
      ∧ 8 * ((kept gone 499).ticks8 - 0) < 4000 ∧ dieOf 0 < (kept gone 500).dies.length)
    ∧ (∃ f, findSeq (kept { gone with sends := 3 } 500) 0 65535 = some (f, 0, some 5) ∧ 3 ≤ (reqOf f 0).sends)
    ∧ (∃ f, findSeq (sentState { gone with sends := 3 } 500 a) 0 65535 = some (f, 0, none) ∧ 3 ≤ (reqOf f 0).sends ∧ unacked f 0 = true)
    ∧ (wellOf (w {}) 1 7).state = 0 ∧ (wellOf (way ⟨1⟩) 1 7).state = 1 ∧ (wellOf (way ⟨1⟩) 1 7).state < 2
    ∧ wellCount (way ⟨1⟩) 1 7 ≠ 0 ∧ wellCount (w ⟨1⟩) 1 7 = 0 ∧ dieOf 39 = 1 ∧ dieOf 0 ≠ 1
    ∧ (wellOf (w {}) 1 7).state < 2 ∧ 2 ≤ (wellOf (w ⟨2⟩) 1 7).state := by
  refine ⟨⟨_, rfl, ?_⟩, ?_, ?_, ?_, ?_, ?_, ⟨_, rfl, ?_⟩, ⟨_, rfl, ?_⟩, ⟨_, rfl, ?_⟩, ⟨_, rfl, ?_⟩, ⟨_, rfl, ?_⟩, ?_⟩ <;> decide +kernel
/-- A transfer to package 9, with no link that names it and with link 3; requests of package 9: for a class that its partition has not,
for one that it has, performed already and new; a request of this package that is refused. -/
theorem test_meets_CorridorBetweenPackages :
    let a := 2 ^ 63 + 9 * 2 ^ 55
    let s := sentState { left := some 0 } 0 a fun f => { f with moves := [⟨.tower 0 0 0, .none, 64⟩] }
    let t := { s with farPort := [(3, 9)] }
    let r : FarReq := ⟨1, 7, 39, [31], 2 ^ 25 - 64, 64, some [(List.replicate 64 5, none)], none⟩
    (∃ f, findSeq s 0 65535 = some (f, 0, none) ∧ findSeq t 0 65535 = some (f, 0, none) ∧ isFar f = true ∧ queueOf f.instr = some 1
      ∧ arrives s 0 f 0 = true ∧ xferTurn s 0 f = true ∧ corPkg (f.ops.getD 5 0).toNat = 9 ∧ (reqOf f 0).left ≠ none ∧ (reqOf f 0).done = false)
    ∧ linkTo s 9 = none ∧ linkTo t 9 = some 3 ∧ (teamOf s 0).isSome = true
    ∧ classIn t 2 39 = false ∧ classIn t r.part r.cls = true ∧ (getPart t r.part).state ≠ 0 ∧ r.data ≠ none
    ∧ (40 * (9 + 1) + 7, 65535) ∈ (getCls (modCls t 39 fun k => { k with seen := [(407, 65535)] }) 39).seen
    ∧ (40 * (9 + 1) + 7, 65535) ∉ (getCls t 39).seen ∧ r.off + r.len = 2 ^ 25 ∧ r.len = 64 * 1 ∧ r.desks = [31]
    ∧ physTower (getCls t 39) 31 < 34 ∧ 39 < t.cls.length ∧ t.poison = [] ∧ Memory.wf t.mem := by
  refine ⟨⟨_, rfl, rfl, ?_⟩, ?_⟩ <;> decide +kernel
/-- A read of a tower line by package 9, new and answered already. -/
theorem test_meets_reads_from_afar :
    let r : FarReq := ⟨1, 7, 39, [31], 2 ^ 25 - 64, 64, none, none⟩
    let t : State := { owned0 false State.reset with farPort := [(3, 9)] }
    let u := modCls t 39 fun k => { k with seen := [(407, 65535)], answers := [(407, 65535, [])] }
    linkTo t 9 = some 3 ∧ classIn t r.part r.cls = true ∧ (getPart t r.part).state ≠ 0 ∧ r.data.isNone = true ∧ r.desks = [31] ∧ r.len % 64 = 0
    ∧ r.off % 64 = 0 ∧ r.off + r.len = 2 ^ 25 ∧ (40 * (9 + 1) + 7, 65535) ∉ (getCls t 39).seen
    ∧ (40 * (9 + 1) + 7, 65535) ∈ (getCls u 39).seen ∧ (getCls u 39).answers.map (fun x => (x.1, x.2.1)) = [(407, 65535)]
    ∧ physTower (getCls t 39) 31 < 34 ∧ 39 < t.cls.length ∧ t.poison = [] := by decide +kernel
/-- Seven and eight retries in a row; a link that is down; a direction with and without spares; a spare that is free, one that is
named, a class of a partition. -/
theorem test_meets_LinksAndRemap :
    let s := fun n => { State.reset with klink := State.reset.klink.set 11 (true, n) }
    (s 6).klink.getD 11 (false, 0) = (true, 6) ∧ (s 7).klink.getD 11 (false, 0) = (true, 7) ∧ (getDie (s 7) (11 / 6)).frz = false
    ∧ (State.reset.klink.set 0 (false, 3)).getD 0 (false, 0) = (false, 3) ∧ 1 < State.reset.spare.length ∧ 1 < State.reset.degraded.length
    ∧ 0 < State.reset.spare.getD 1 0 ∧ ({ State.reset with spare := [0, 4] } : State).spare.getD 0 0 = 0
    ∧ owned State.reset 39 = false ∧ (∀ e ∈ List.range 32, e ≠ 31 → physTower (getCls State.reset 39) e ≠ 33)
    ∧ 33 ∉ towersInUse (getCls State.reset 39) ∧ Memory.wf State.reset.mem ∧ owned (cls0 fun k => { k with remap := [(0, 32)] }) 0 = false
    ∧ 32 ∈ towersInUse (getCls (cls0 fun k => { k with remap := [(0, 32)] }) 0)
    ∧ physTower (getCls (cls0 fun k => { k with remap := [(0, 32)] }) 0) 0 = 32 ∧ owned (part1 {}) 1 = true := by decide +kernel
/-- A word fetched at once, from its line, from no line; a firmware word; a word that is none; an event; a first class without a word
that issues again. -/
def stepState (w : Nat) : State := State.reset.withFetchWord 80 w
theorem test_meets_StepRunsTheDecodedWord :
    let li := 0x04600000080000000001
    let s := stepState li
    let t := (nextMover s).2
    let far := modCls s 0 fun k => { k with fetchBuf := [] }
    let f := stepState 0xDE400000000000000000
    (nextMover s).1 = .walker 0 .s ∧ fetchWord t 0 .s = .word (BitVec.ofNat 80 li) ∧ (decode (BitVec.ofNat 80 li)).toOption.isSome = true
    ∧ (nextMover (stepState 0)).1 = .walker 0 .s ∧ fetchWord (nextMover (stepState 0)).2 0 .s = .word 0 ∧ decode 0 = .error .unassignedOpcode
    ∧ (nextMover far).1 = .walker 0 .s ∧ fetchWord (nextMover far).2 0 .s = .miss 0
    ∧ (nextMover { State.reset with agenda := [.event .lncTick] }).1 = .event .lncTick ∧ Instr.isWord .lncTick = false
    ∧ walkerMoves t 0 .s = true ∧ (walkerOf (getCls t 0) .s).loops = [] ∧ (getCls t 0).inflight.find? (fun f => f.status == .again) = none
    ∧ 0 = 64 * ((walkerOf (getCls t 0) .s).wi / 6) ∧ ((getCls t 0).fetchBuf.find? (fun x => x.1 = 0)).isSome = true
    ∧ firmwareOnly (BitVec.ofNat 80 li) = false ∧ 0 < State.reset.cls.length
    ∧ (getCls State.reset 0).inflight.find? (fun f => f.status == .again) = none
    ∧ (nextMover f).1 = .fw 0 ∧ fetchFw (nextMover f).2 0 = .word (BitVec.ofNat 80 0xDE400000000000000000)
    ∧ (decode (BitVec.ofNat 80 0xDE400000000000000000)).toOption.isSome = true := by decide +kernel
/-- Words of each engine; the bounds of the unassigned opcodes; the first word above with another engine in its place. -/
theorem test_meets_DecodeAndEncodeAgree :
    Instr.isWord (.vadd ⟨7, true, 63, 0xFF⟩ ⟨63, 63, 63, 0, 8, 7, true, 4, false, 0⟩) = true
    ∧ wellFormed (.vadd ⟨7, true, 63, 0xFF⟩ ⟨63, 63, 63, 0, 8, 7, true, 4, false, 0⟩) = true
    ∧ ([0, 0x47, 0x4F, 0x6A, 0x6F, 0x75, 0x77, 0xC4, 0xC7, 0xD7, 0xED, 0xEF, 0xFB, 0xFF].all fun n =>
        ((BitVec.ofNat 80 (n * 2 ^ 69)).extractLsb' 69 8).toNat == n) = true
    ∧ (decode 0x04600000080000000001).toOption.isSome = true
    ∧ (0x24600000080000000001 : W80).extractLsb' 0 77 = (0x04600000080000000001 : W80).extractLsb' 0 77
    ∧ (0x24600000080000000001 : W80) ≠ 0x04600000080000000001 := by decide +kernel
theorem test_meets_EveryStepKeeps :
    Memory.wf (stepState 0x04600000080000000001).mem ∧ next? (step (stepState 0x04600000080000000001)) (fun t => (getCls t 0).ws.wi == 2) = true
    ∧ next? (step { State.reset with agenda := [.event .lncTick] }) (fun t => t.ticks8 == 1 && t.born == 0) = true := by decide +kernel

end Sys2Proof.Tests
end

section
/-!
PROOFS for O43: what the host sees and does through the base address registers (R23, R62, R82, R83, R130, R236).
-/

namespace Sys2Proof.Machine

theorem sends_eq_send (s : State) (m : OutMsg) : Sends s m = send s m := rfl

/-! ## The read-back window -/

/-- The towers of the read-back window (R82), through the class's remap table (R189). -/
theorem rbByte_tower {s : State} {c d o : Nat} (hc : c < 40) (hd : d < 32) (ho : o < 2 ^ 25) :
    rbByte s ((32 * c + d) * 2 ^ 25 + o) = readByte s (towerAddr c (physTower (getCls s c) d) o) := by
  have hlt : (32 * c + d) * 2 ^ 25 + o < 0x0A00000000 := by omega
  have hj : ((32 * c + d) * 2 ^ 25 + o) / 2 ^ 25 = 32 * c + d := by omega
  have hr : ((32 * c + d) * 2 ^ 25 + o) % 2 ^ 25 = o := by omega
  have hq : (32 * c + d) / 32 = c := by omega
  have hm : (32 * c + d) % 32 = d := by omega
  simp only [rbByte, if_pos hlt, hj, hr, hq, hm]

/-- Byte `x` of a number, as bits of its low 64. -/
theorem byte_extractLsb' {v x : Nat} (hx : x < 8) :
    BitVec.ofNat 8 (v / 256 ^ x) = (BitVec.ofNat 64 v).extractLsb' (8 * x) 8 := by
  apply BitVec.eq_of_getLsbD_eq
  intro j hj
  have hp : v / 256 ^ x = v >>> (8 * x) := by
    rw [Nat.shiftRight_eq_div_pow, Nat.pow_mul]
  have h64 : 8 * x + j < 64 := by omega
  simp [hp, hj, h64, -BitVec.getLsbD_eq_getElem, BitVec.getLsbD_ofNat, Nat.testBit_shiftRight]

/-- The first 65,536 counters in the read-back window (R82). -/
theorem rbByte_counter {s : State} {i x : Nat} (hi : i < 65536) (hx : x < 8) :
    rbByte s (0x0C00000000 + 8 * i + x) = (BitVec.ofNat 64 (ctrGet s i)).extractLsb' (8 * x) 8 := by
  have hdie : (0x0C00000000 + 8 * i + x - 0x0C00000000) / 2 ^ 28 = 0 := by omega
  have hoff : (0x0C00000000 + 8 * i + x) % 2 ^ 28 = 8 * i + x := by omega
  have hidx : (8 * i + x) / 8 = i := by omega
  have hbyte : (8 * i + x) % 8 = x := by omega
  have hblock : ∀ free, dieByte free s 0 (8 * i + x) = BitVec.ofNat 8 (ctrGet s i / 256 ^ x) := by
    intro free
    simp only [dieByte, if_pos (show 8 * i + x < 0x80000 by omega), hidx, hbyte, Nat.zero_mul, Nat.zero_add]
  rw [rbByte, if_neg (by omega), if_neg (by omega), if_neg (by omega), if_neg (by omega), if_neg (by omega),
    if_pos (by omega), hdie, hoff, hblock, byte_extractLsb' hx]

/-! ## A register of a queue -/

theorem leBytes_eq_map : ∀ (n v : Nat), leBytes n v = (List.range n).map fun j => BitVec.ofNat 8 (v / 256 ^ j)
  | 0, _ => rfl
  | n + 1, v => by
    rw [leBytes, leBytes_eq_map n (v / 256), List.range_succ_eq_map]
    simp [Nat.pow_succ', Nat.div_div_eq_div_mul]

/-- The eight bytes of a register at an aligned offset. -/
theorem regBytes_aligned (r : Nat → W64) {off : Nat} (h : off % 8 = 0) : regBytes r off 8 = leBytes 8 (r off).toNat := by
  rw [leBytes_eq_map]
  apply List.map_congr_left
  intro j hj
  have hj := List.mem_range.mp hj
  have h1 : (off + j) / 8 * 8 = off := by omega
  have h2 : (off + j) % 8 = j := by omega
  rw [h1, h2]

/-- QRIDX of a queue (R62). -/
theorem vfReg_qridx {s : State} {k q : Nat} (hq : q < 8) :
    (vfReg s k (q * 256 + 0x18)).toNat = (getQueue s k q).qridx.toNat := by
  have h1 : q * 256 + 0x18 ≠ 0x800 := by omega
  have h2 : (q * 256 + 0x18) / 256 = q := by omega
  have h3 : (q * 256 + 0x18) % 256 = 0x18 := by omega
  simp only [vfReg, if_neg h1, h2, h3, if_neg (show ¬ 8 ≤ q by omega)]
  have := (getQueue s k q).qridx.isLt
  exact (BitVec.toNat_setWidth _ _).trans (Nat.mod_eq_of_lt (by omega))

/-! ## Bytes of a partition's window -/

/-- The addresses behind a window of consecutive bytes. -/
theorem barAddrs_of_windowAt {s : State} {k : Nat} : ∀ {n off a : Nat}, WindowAt s k off n a → barAddrs s k off n = some (List.range' a n)
  | 0, _, _, _ => rfl
  | n + 1, off, a, h => by
    have hhead : barAddr s k off = some a := h 0 (by omega)
    have htail : WindowAt s k (off + 1) n (a + 1) := fun j hj => by
      have := h (j + 1) (by omega)
      rwa [show off + (j + 1) = off + 1 + j by omega, show a + (j + 1) = a + 1 + j by omega] at this
    simp only [barAddrs, hhead, barAddrs_of_windowAt htail, List.range'_succ]

theorem poisonIn_eq_none {s : State} {a n : Nat} (h : ∀ j, j < n → poisonAt s (.phys ((a + j) / 64)) = none) :
    poisonIn s (List.range' a n) = none := by
  rw [poisonIn, List.findSome?_eq_none_iff]
  intro b hb
  obtain ⟨j, hj, rfl⟩ := List.mem_range'.mp hb
  simpa using h j hj

/-- Poison at the first byte is the first poison that is found. -/
theorem poisonIn_eq_first {s : State} {a n : Nat} {p : Bool} (hn : 0 < n) (h : poisonAt s (.phys (a / 64)) = some p) :
    poisonIn s (List.range' a n) = some (.phys (a / 64), p) := by
  obtain ⟨m, rfl⟩ := Nat.exists_eq_succ_of_ne_zero hn.ne'
  simp [poisonIn, List.range'_succ, h]

/-! ## Unstaged writes of a host -/

/-- Bytes that read as written, and no other, are a write of them. -/
theorem bytesWritten_of_readByte {s t : State} {a : Nat} {bs : List Byte} (ht : Memory.wf t.mem)
    (h : ∀ b, readByte t b = if a ≤ b ∧ b < a + bs.length then bs.getD (b - a) 0 else readByte s b) : BytesWritten s t a bs := by
  refine ⟨?_, fun b hb => by rw [h, if_neg hb]⟩
  rw [readBytes_eq _ _ ht]
  apply List.ext_getElem
  · simp
  · intro j h1 h2
    simp only [List.getElem_map, List.getElem_range, h]
    rw [if_pos ⟨by omega, by omega⟩]
    simp [List.getD_eq_getElem?_getD, h2]

theorem bytesWritten_writePhys {s : State} (a : Nat) (bs : List Byte) (h : Memory.wf s.mem) : BytesWritten s (writePhys s a bs) a bs :=
  bytesWritten_of_readByte (wf_writePhys a bs h) fun b => readByte_writePhys a b bs h

/-- Consecutive bytes from `a`, written one by one. -/
def writeEach (s : State) (a : Nat) (d : List Byte) : State :=
  ((List.range' a d.length).zip d).foldl (fun s x => writePhys s x.1 [x.2]) s

theorem writeEach_cons (s : State) (a : Nat) (b : Byte) (d : List Byte) :
    writeEach s a (b :: d) = writeEach (writePhys s a [b]) (a + 1) d := by
  simp [writeEach, List.range'_succ]

theorem writeEach_frame (d : List Byte) : ∀ (s : State) (a : Nat), (writeEach s a d).poison = s.poison
    ∧ (writeEach s a d).insts = s.insts ∧ (writeEach s a d).out = s.out ∧ (writeEach s a d).ctr = s.ctr := by
  induction d with
  | nil => exact fun _ _ => ⟨rfl, rfl, rfl, rfl⟩
  | cons b d ih => intro s a; rw [writeEach_cons]; exact ih (writePhys s a [b]) (a + 1)

theorem wf_writeEach (d : List Byte) : ∀ {s : State} (a : Nat), Memory.wf s.mem → Memory.wf (writeEach s a d).mem := by
  induction d with
  | nil => exact fun _ h => h
  | cons b d ih => intro s a h; rw [writeEach_cons]; exact ih (a + 1) (wf_writePhys a [b] h)

theorem readByte_writeEach (d : List Byte) : ∀ {s : State} (a : Nat), Memory.wf s.mem → ∀ k,
    readByte (writeEach s a d) k = if a ≤ k ∧ k < a + d.length then d.getD (k - a) 0 else readByte s k := by
  induction d with
  | nil => intro s a _ k; rw [if_neg (by simp)]; rfl
  | cons b d ih =>
    intro s a h k
    rw [writeEach_cons, ih (a + 1) (wf_writePhys a [b] h) k, readByte_writePhys a k [b] h]
    simp only [List.length_cons, List.length_nil]
    rcases Nat.lt_trichotomy k a with hk | rfl | hk
    · rw [if_neg (by omega), if_neg (by omega), if_neg (by omega)]
    · rw [if_neg (by omega), if_pos (by omega), if_pos (by omega)]; simp
    · by_cases hin : k < a + 1 + d.length
      · rw [if_pos (by omega), if_pos (by omega), show k - a = k - (a + 1) + 1 by omega, List.getD_cons_succ]
      · rw [if_neg (by omega), if_neg (by omega), if_neg (by omega)]

/-- The units that consecutive addresses cover whole. -/
theorem mem_wholeSectors {a n u : Nat} : u ∈ wholeSectors (List.range' a n) ↔ a ≤ 64 * u ∧ 64 * u + 64 ≤ a + n := by
  have hmem : ∀ b, b ∈ List.range' a n ↔ a ≤ b ∧ b < a + n := fun b => List.mem_range'_1
  simp only [wholeSectors, List.mem_filter, List.mem_dedup, List.mem_map, List.all_eq_true, List.mem_range,
    List.contains_iff_mem, hmem]
  constructor
  · rintro ⟨-, h⟩
    have h0 := h 0 (by omega)
    have h63 := h 63 (by omega)
    omega
  · rintro ⟨h1, h2⟩
    exact ⟨⟨64 * u, by omega, by omega⟩, fun j hj => by omega⟩

/-- Physical units cleared of poison, one after another. -/
def clearUnits (s : State) (us : List Nat) : State := us.foldl (fun s u => clearPoison s (.phys u)) s

theorem clearUnits_frame (us : List Nat) : ∀ s : State, (clearUnits s us).mem = s.mem ∧ (clearUnits s us).insts = s.insts
    ∧ (clearUnits s us).out = s.out ∧ (clearUnits s us).ctr = s.ctr := by
  induction us with
  | nil => exact fun _ => ⟨rfl, rfl, rfl, rfl⟩
  | cons u us ih => exact fun s => ih (clearPoison s (.phys u))

theorem poisonAt_clearUnits (us : List Nat) : ∀ (s : State) (u : Nat),
    poisonAt (clearUnits s us) (.phys u) = if u ∈ us then none else poisonAt s (.phys u) := by
  induction us with
  | nil => intro s u; simp [clearUnits]
  | cons v us ih =>
    intro s u
    have hstep : clearUnits s (v :: us) = clearUnits (clearPoison s (.phys v)) us := rfl
    rw [hstep, ih, poisonAt_clear]
    by_cases h : u = v
    · simp [h]
    · simp [h]

/-- A host's write into a window of consecutive bytes (R236): the bytes one by one, then the whole units cleared. -/
theorem exec_hostBarWrite {s : State} {k off a : Nat} {d : List Byte} (on : vfOn s k = true) (at' : WindowAt s k off d.length a) :
    exec (.hostBarWrite k off d) s = .next (clearUnits (writeEach s a d) (wholeSectors (List.range' a d.length))) := by
  change execHostBarWrite k off d s = _
  simp [execHostBarWrite, on, barAddrs_of_windowAt at', clearUnits, writeEach]

/-- What such a write changes (R129, R236): its bytes, the poison of the units that it covers whole. -/
theorem hostBarWrite_effect {s : State} {k off a : Nat} {d : List Byte} (wf : Memory.wf s.mem) (on : vfOn s k = true)
    (at' : WindowAt s k off d.length a) :
    ∃ t, exec (.hostBarWrite k off d) s = .next t ∧ BytesWritten s t a d
      ∧ (∀ u, a ≤ 64 * u → 64 * u + 64 ≤ a + d.length → poisonAt t (.phys u) = none)
      ∧ (∀ u, ¬ (a ≤ 64 * u ∧ 64 * u + 64 ≤ a + d.length) → poisonAt t (.phys u) = poisonAt s (.phys u))
      ∧ t.insts = s.insts ∧ t.out = s.out ∧ t.ctr = s.ctr := by
  obtain ⟨hpoison, hinsts, hout, hctr⟩ := writeEach_frame d s a
  obtain ⟨cmem, cinsts, cout, cctr⟩ := clearUnits_frame (wholeSectors (List.range' a d.length)) (writeEach s a d)
  refine ⟨_, exec_hostBarWrite on at', bytesWritten_of_readByte (by rw [cmem]; exact wf_writeEach d a wf) fun b => ?_,
    fun u h1 h2 => ?_, fun u hu => ?_, cinsts.trans hinsts, cout.trans hout, cctr.trans hctr⟩
  · rw [readByte, cmem]
    exact readByte_writeEach d a wf b
  · rw [poisonAt_clearUnits, if_pos (mem_wholeSectors.mpr ⟨h1, h2⟩)]
  · rw [poisonAt_clearUnits, if_neg (fun h => hu (mem_wholeSectors.mp h)), poisonAt, poisonAt, hpoison]

/-- A host's read of a window (R23). -/
theorem exec_hostBarRead_window {s : State} {k off n : Nat} (on : vfOn s k = true) :
    exec (.hostBarRead (.vf k) 2 off n) s = .next (barRead s k off n) := by
  change execHostBarRead (.vf k) 2 off n s = _
  simp [execHostBarRead, on]

/-- A host's read of a window of consecutive bytes without poison: device-visible contents. -/
theorem barRead_clean {s : State} {k off n a : Nat} (at' : WindowAt s k off n a)
    (clean : ∀ j, j < n → poisonAt s (.phys ((a + j) / 64)) = none) :
    barRead s k off n = Sends s (.completion ((List.range n).map fun j => readByte s (a + j))) := by
  simp only [barRead, barAddrs_of_windowAt at', poisonIn_eq_none clean]
  rw [List.range'_eq_map_range, List.map_map]
  rfl

/-- A host's read that meets media poison at its first byte: Completer Abort and a black-box entry (R130). -/
theorem barRead_poisoned {s : State} {k off n a : Nat} (hn : 0 < n) (at' : WindowAt s k off n a)
    (bad : poisonAt s (.phys (a / 64)) = some false) :
    barRead s k off n = Sends (bbRecord s (dieOfPa (64 * (a / 64))) k 0x013 0xFF 0xFF 0 (locator (.phys (a / 64)) (64 * (a / 64))))
      .completerAbort := by
  simp only [barRead, barAddrs_of_windowAt at', poisonIn_eq_first hn bad]
  rfl

/-! ## AtomicOps -/

/-- CAS has 64 bits (R23). -/
theorem atomicResult_cas (old : Nat) (x y : W64) :
    atomicResult .cas (8 * 8) old x.toNat y.toNat = if old = x.toNat then y.toNat else old := by
  simp [atomicResult, Nat.mod_eq_of_lt x.isLt, Nat.mod_eq_of_lt y.isLt]

/-- An aligned AtomicOp on a byte without poison: the old value returns, the result stands in its place. -/
theorem hostAtomicop_effect {s : State} {k off a : Nat} {op : HostAtomic} {wide : Bool} (x y : W64) (wf : Memory.wf s.mem)
    (on : vfOn s k = true) (aligned : off % (if wide then 8 else 4) = 0) (hcas : op = .cas → wide = true)
    (at' : barAddr s k off = some a) (clean : poisonAt s (.phys (a / 64)) = none) :
    let n := if wide then 8 else 4
    let old := readNat s a n
    ∃ t, exec (.hostAtomicop k off op wide x y) s = .next t ∧ t.out = s.out ++ [.completion (leBytes n old)]
      ∧ BytesWritten s t a (leBytes n (atomicResult op (8 * n) old x.toNat y.toNat)) ∧ t.insts = s.insts ∧ t.poison = s.poison := by
  intro n old
  have known : (op == .cas && !wide) = false := by cases op <;> simp_all
  refine ⟨Sends (writePhys s a (leBytes n (atomicResult op (8 * n) old x.toNat y.toNat))) (.completion (leBytes n old)), ?_, rfl,
    bytesWritten_writePhys a _ wf, rfl, rfl⟩
  change execHostAtomicop k off op wide x y s = _
  simp only [execHostAtomicop, on, aligned, known, at', clean]
  rfl

/-- Settles O43: each event's meaning, taken apart by the lemmas above. -/
theorem hostWindows : Obligations.HostWindows := by
  unfold Obligations.HostWindows
  refine ⟨fun _ _ => rfl, fun _ _ _ => rfl, fun s c d o hc hd ho => rbByte_tower hc hd ho, fun s i x hi hx => rbByte_counter hi hx,
    fun k bar off n s hoff => ?_, fun k off d s hoff => ?_, fun k off op w x y s hoff => ?_, fun k q s on hq => ?_,
    fun k off n a s on hn at' => ?_, fun k off d a s wf on _ at' => hostBarWrite_effect wf on at',
    fun k off op wide x y a s wf on aligned hcas at' clean => ?_, fun k off x y s => ?_⟩
  · change execHostBarRead (.vf k) bar off n s = _
    simp [execHostBarRead, hoff, sends_eq_send]
  · change execHostBarWrite k off d s = _
    simp [execHostBarWrite, hoff, sends_eq_send]
  · change execHostAtomicop k off op w x y s = _
    simp [execHostAtomicop, hoff, sends_eq_send]
  · have aligned : (q * 256 + 0x18) % 8 = 0 := by omega
    change execHostBarRead (.vf k) 0 (q * 256 + 0x18) 8 s = _
    simp [execHostBarRead, on, regBytes_aligned (vfReg s k) aligned, vfReg_qridx hq, sends_eq_send]
  · rw [exec_hostBarRead_window on]
    exact ⟨fun clean => by rw [barRead_clean at' clean], fun bad => by rw [barRead_poisoned hn at' bad]⟩
  · have effect := hostAtomicop_effect x y wf on aligned hcas at' clean
    cases op with
    | fetchAdd => exact effect
    | swap => exact effect
    | cas =>
      obtain rfl := hcas rfl
      simpa only [if_true, atomicResult_cas] using effect
  · change execHostAtomicop k off .cas false x y s = _
    simp [execHostAtomicop, sends_eq_send]

end Sys2Proof.Machine
end

section
/-!
PROOFS for O55: K-links, link training, bridge lanes and remap entries (R24 to R26, R29, R182, R189).
-/

namespace Sys2Proof.Machine

/-! ## Dies after an event is recorded or reported -/

theorem getDie_modDie {s : State} {b : Nat} (f : Die → Die) (h : b < s.dies.length) : getDie (modDie s b f) b = f (getDie s b) := by
  simp [getDie, modDie, List.getD_eq_getElem?_getD, h]

/-- What `g` shows of a die stays where one die is changed by an update that leaves it. -/
theorem getDie_congr_of_modify {α : Type} (g : Die → α) {s t : State} {b : Nat} {f : Die → Die} (ht : t.dies = s.dies.modify b f)
    (hf : ∀ x, g (f x) = g x) (d : Nat) : g (getDie t d) = g (getDie s d) := by
  simp only [getDie, ht, List.getD_eq_getElem?_getD, List.getElem?_modify]
  cases s.dies[d]? with
  | none => rfl
  | some x => by_cases h : b = d <;> simp [h, hf]

/-- The event queues do not change as a black-box entry is made. -/
theorem bbRecord_evq (s : State) (die part code : Nat) (c u : Byte) (tag detail : W64) (d : Nat) :
    (getDie (bbRecord s die part code c u tag detail) d).evq = (getDie s d).evq :=
  getDie_congr_of_modify (·.evq) (s := s) rfl (by intro x; split <;> rfl) d

theorem bbRecord_frz (s : State) (die part code : Nat) (c u : Byte) (tag detail : W64) (d : Nat) :
    (getDie (bbRecord s die part code c u tag detail) d).frz = (getDie s d).frz :=
  getDie_congr_of_modify (·.frz) (s := s) rfl (by intro x; split <;> rfl) d

/-- A black box that is not frozen shows the entry first, and after it the newest 4,095 of before (R85, R145). -/
theorem bbRecord_bb {s : State} {die part code : Nat} {c u : Byte} {tag detail : W64} (hd : die < s.dies.length)
    (hz : (getDie s die).frz = false) :
    ∃ e : BbEntry, e.code = code ∧ e.detail = detail
      ∧ (getDie (bbRecord s die part code c u tag detail) die).bb = e :: (getDie s die).bb.take 4095 := by
  refine ⟨⟨(getDie s die).seq, part, code, c, u, if c = 0xFF then lnc s (20 * die) else lnc s c.toNat, tag, detail⟩, rfl, rfl, ?_⟩
  rw [bbRecord, getDie_modDie _ hd]
  simp only [hz, Bool.false_eq_true, if_false]

theorem pushEvent_evq {s : State} {die : Nat} (code cls part : Nat) (tinfo tcause inst : W64) (hd : die < s.dies.length) :
    (getDie (pushEvent s die code cls part tinfo tcause inst) die).evq = (getDie s die).evq
      ++ [⟨BitVec.ofNat 8 code, BitVec.ofNat 8 cls, BitVec.ofNat 8 part, (getDie s die).nextEv, tinfo, tcause, inst⟩] := by
  rw [pushEvent, getDie_modDie _ hd]

/-- An event for firmware changes its die's queue and event number alone. -/
theorem reportFw_die (s : State) (die d : Nat) :
    { getDie (reportFw s die) d with evq := [], nextEv := 0 } = { getDie s d with evq := [], nextEv := 0 } :=
  getDie_congr_of_modify (s := s) (t := reportFw s die) (fun x => { x with evq := [], nextEv := 0 }) rfl (by intro x; rfl) d

/-- The event stands last in its die's queue. -/
theorem reportFw_evq {s : State} {die : Nat} (hd : die < s.dies.length) :
    ∃ e, (getDie (reportFw s die) die).evq = (getDie s die).evq ++ [e] :=
  ⟨_, pushEvent_evq (s := bumpBy s 4) _ _ _ _ _ _ hd⟩

theorem reportFw_bb (s : State) (die d : Nat) : (getDie (reportFw s die) d).bb = (getDie s d).bb :=
  getDie_congr_of_modify (·.bb) (s := s) rfl (by intro x; rfl) d

/-! ## K-links (R24 to R26) -/

/-- A link goes down: its row, what is recorded and reported of it. -/
def linkDown (s : State) (l : Nat) : State :=
  reportFw (bbRecord { s with klink := s.klink.set l (false, 0) } (l / 6) 0 0x040 0xFF 0xFF 0 (BitVec.ofNat 64 l)) (l / 6)

/-- A pair link that goes down is recorded once more where a pair is configured (R27). -/
def pairRecord (s : State) (l : Nat) : State :=
  if s.pairPeer.isSome && (l == 5 || l == 11) then bbRecord s (l / 6) 0 0x022 0xFF 0xFF 0 (BitVec.ofNat 64 l) else s

theorem exec_kLinkFlitRetry_up {s : State} {l n : Nat} (hl : l < 12) (h : s.klink.getD l (false, 0) = (true, n)) :
    exec (.kLinkFlitRetry l) s = .next (if n < 7 then { s with klink := s.klink.set l (true, n + 1) } else pairRecord (linkDown s l) l) := by
  change execKLinkFlitRetry l s = _
  have hn : n + 1 < 8 ↔ n < 7 := by omega
  simp only [execKLinkFlitRetry, h, Nat.not_le.mpr hl, hn, Bool.not_true, decide_false, Bool.or_self, Bool.false_eq_true, if_false]
  split <;> rfl

theorem pairRecord_frame (s : State) (l : Nat) :
    { pairRecord s l with dies := [] } = { s with dies := [] }
      ∧ (∀ d, (getDie (pairRecord s l) d).evq = (getDie s d).evq) := by
  unfold pairRecord
  split
  · exact ⟨rfl, bbRecord_evq s _ _ _ _ _ _ _⟩
  · exact ⟨rfl, fun _ => rfl⟩

/-- An entry that stood first in a black box that is not frozen still stands there. -/
theorem mem_pairRecord_bb {s : State} {l : Nat} {e : BbEntry} {es : List BbEntry} (hd : l / 6 < s.dies.length)
    (hz : (getDie s (l / 6)).frz = false) (h : (getDie s (l / 6)).bb = e :: es) : e ∈ (getDie (pairRecord s l) (l / 6)).bb := by
  unfold pairRecord
  split
  · obtain ⟨e', -, -, hbb⟩ := bbRecord_bb (part := 0) (code := 0x022) (c := 0xFF) (u := 0xFF) (tag := 0)
      (detail := BitVec.ofNat 64 l) hd hz
    rw [hbb, h]
    simp
  · rw [h]
    exact List.mem_cons_self

theorem linkDown_evq {s : State} {l : Nat} (hd : l / 6 < s.dies.length) :
    ∃ e, (getDie (linkDown s l) (l / 6)).evq = (getDie s (l / 6)).evq ++ [e] := by
  have hlen : l / 6 < (bbRecord { s with klink := s.klink.set l (false, 0) } (l / 6) 0 0x040 0xFF 0xFF 0 (BitVec.ofNat 64 l)).dies.length := by
    simpa [bbRecord, modDie] using hd
  obtain ⟨e, he⟩ := reportFw_evq hlen
  exact ⟨e, by rw [linkDown, he, bbRecord_evq]; rfl⟩

theorem linkDown_bb {s : State} {l : Nat} (hd : l / 6 < s.dies.length) (hz : (getDie s (l / 6)).frz = false) :
    ∃ e : BbEntry, e.code = 0x040 ∧ e.detail = BitVec.ofNat 64 l
      ∧ (getDie (linkDown s l) (l / 6)).bb = e :: (getDie s (l / 6)).bb.take 4095 := by
  obtain ⟨e, hcode, hdetail, hbb⟩ := bbRecord_bb (s := { s with klink := s.klink.set l (false, 0) }) (part := 0) (code := 0x040)
    (c := 0xFF) (u := 0xFF) (tag := 0) (detail := BitVec.ofNat 64 l) hd hz
  exact ⟨e, hcode, hdetail, by rw [linkDown, reportFw_bb, hbb]; rfl⟩

theorem linkDown_frz (s : State) (l d : Nat) : (getDie (linkDown s l) d).frz = (getDie s d).frz := by
  have hdie := reportFw_die (bbRecord { s with klink := s.klink.set l (false, 0) } (l / 6) 0 0x040 0xFF 0xFF 0 (BitVec.ofNat 64 l)) (l / 6) d
  exact (congrArg Die.frz hdie).trans (bbRecord_frz _ _ _ _ _ _ _ _ d)

theorem linkDown_length (s : State) (l : Nat) : (linkDown s l).dies.length = s.dies.length := by
  simp [linkDown, reportFw, pushEvent, bbRecord, modDie, bumpBy]

/-- The eighth retry in a row takes a link down, which is recorded and reported (R24). -/
theorem kLinkFlitRetry_down {s : State} {l n : Nat} (hl : l < 12) (h : s.klink.getD l (false, 0) = (true, n)) (hn : 7 ≤ n) :
    ∃ t, exec (.kLinkFlitRetry l) s = .next t ∧ t.klink = s.klink.set l (false, 0)
      ∧ { t with klink := [], dies := [], tick := 0 } = { s with klink := [], dies := [], tick := 0 }
      ∧ (l / 6 < s.dies.length → ∃ e, (getDie t (l / 6)).evq = (getDie s (l / 6)).evq ++ [e])
      ∧ ((getDie s (l / 6)).frz = false → l / 6 < s.dies.length → ∃ e ∈ (getDie t (l / 6)).bb, e.code = 0x040
          ∧ e.detail = BitVec.ofNat 64 l) := by
  obtain ⟨hframe, hevq⟩ := pairRecord_frame (linkDown s l) l
  refine ⟨pairRecord (linkDown s l) l, ?_, congrArg State.klink hframe, ?_, fun hd => ?_, fun hz hd => ?_⟩
  · rw [exec_kLinkFlitRetry_up hl h, if_neg (by omega)]
  · exact congrArg (fun t : State => { t with klink := [], dies := [], tick := 0 }) hframe
  · obtain ⟨e, he⟩ := linkDown_evq hd
    exact ⟨e, by rw [hevq, he]⟩
  · obtain ⟨e, hcode, hdetail, hbb⟩ := linkDown_bb hd hz
    exact ⟨e, mem_pairRecord_bb (by rwa [linkDown_length]) (by rwa [linkDown_frz]) hbb, hcode, hdetail⟩

theorem kLinkFlitRetry_of_down {s : State} {l n : Nat} (h : s.klink.getD l (false, 0) = (false, n)) :
    exec (.kLinkFlitRetry l) s = .next s := by
  change execKLinkFlitRetry l s = _
  simp only [execKLinkFlitRetry, h, Bool.not_false, Bool.true_or, if_true]

/-! ## Link training (R25, R26) -/

/-- Entries written one after another, each once its key comes. -/
theorem tget_foldl_tset (g : Nat → Nat) (ls : List Nat) : ∀ (t : Tbl Nat) (l : Nat),
    tget 0 (ls.foldl (fun t l => tset 0 t l (g l)) t) l = if l ∈ ls then g l else tget 0 t l := by
  induction ls with
  | nil => intro t l; simp
  | cons m ls ih =>
    intro t l
    rw [List.foldl_cons, ih, tget_tset]
    by_cases hl : l ∈ ls
    · simp [hl]
    · by_cases hm : m = l
      · simp [hm]
      · simp [hl, hm, Ne.symm hm]

/-- The links after a training, the pair cables straight or not. -/
def trained (b : Bool) (far : List (BitVec 8)) (s : State) : State :=
  { s with
    cabling := b, klink := List.replicate 12 (true, 0)
    farPort := (List.range 12).foldl (fun t l => tset 0 t l (far.getD l 0).toNat) s.farPort }

theorem exec_linkTraining (b : Bool) (far : List (BitVec 8)) (s : State) :
    exec (.linkTraining b far) s = .next (if b then trained b far s else reportFw (trained b far s) 0) := rfl

/-- Training brings up every link and names the far packages; crossed pair cables are reported, no other die state changes. -/
theorem linkTraining_effect (b : Bool) (far : List (BitVec 8)) (s : State) :
    ∃ t, exec (.linkTraining b far) s = .next t ∧ t.cabling = b ∧ t.klink = List.replicate 12 (true, 0)
      ∧ (∀ l, l < 12 → tget 0 t.farPort l = (far.getD l 0).toNat)
      ∧ { t with cabling := false, klink := [], farPort := [], dies := [], tick := 0 }
        = { s with cabling := false, klink := [], farPort := [], dies := [], tick := 0 }
      ∧ (b = true → t.dies = s.dies)
      ∧ (∀ d, { getDie t d with evq := [], nextEv := 0 } = { getDie s d with evq := [], nextEv := 0 }) := by
  have ports : ∀ l, l < 12 → tget 0 (trained b far s).farPort l = (far.getD l 0).toNat := fun l hl => by
    rw [trained, tget_foldl_tset (fun l => (far.getD l 0).toNat), if_pos (List.mem_range.mpr hl)]
  refine ⟨_, exec_linkTraining b far s, ?_⟩
  cases b with
  | true => exact ⟨rfl, rfl, ports, rfl, fun _ => rfl, fun _ => rfl⟩
  | false => exact ⟨rfl, rfl, ports, rfl, fun h => absurd h (by decide), reportFw_die (trained false far s) 0⟩

/-! ## Bridge lanes (R29) -/

theorem bridgeLaneFailure_effect {d : Nat} (l : Nat) (s : State) (hd : d < 2) :
    ∃ t, exec (.bridgeLaneFailure d l) s = .next t ∧ t.spare = s.spare.modify d (· - 1)
      ∧ (0 < s.spare.getD d 0 → t.degraded = s.degraded) ∧ (s.spare.getD d 0 = 0 → t.degraded = s.degraded.set d true)
      ∧ { t with spare := [], degraded := [], dies := [] } = { s with spare := [], degraded := [], dies := [] } := by
  change ∃ t, execBridgeLaneFailure d l s = .next t ∧ _
  rw [execBridgeLaneFailure, if_neg (by omega)]
  refine ⟨_, rfl, rfl, fun h => ?_, fun h => ?_, rfl⟩
  · exact if_neg (by rw [beq_iff_eq]; omega)
  · exact if_pos (beq_iff_eq.mpr h)

/-! ## Remap entries (R182, R189) -/

/-- Desk `d` of a class has physical tower `x`; its own tower needs no entry. -/
def withRemap (s : State) (c d x : Nat) : State :=
  modCls s c fun k => { k with remap := if x = d then tdel k.remap d else tput k.remap d x }

theorem physTower_remap_same (k : ClassState) (d x : Nat) :
    physTower { k with remap := if x = d then tdel k.remap d else tput k.remap d x } d = x := by
  by_cases h : x = d
  · simp [physTower, h, tget_tdel]
  · simp [physTower, h, tget_tput]

theorem physTower_remap_ne (k : ClassState) {d e : Nat} (x : Nat) (he : e ≠ d) :
    physTower { k with remap := if x = d then tdel k.remap d else tput k.remap d x } e = physTower k e := by
  by_cases h : x = d
  · simp [physTower, h, tget_tdel, Ne.symm he]
  · simp [physTower, h, tget_tput, Ne.symm he]

/-- A class that is not there reads as no update changes it. -/
theorem getCls_modCls_of_length_le {s : State} {c : Nat} (f : ClassState → ClassState) (h : s.cls.length ≤ c) :
    getCls (modCls s c f) c = getCls s c := by
  simp [getCls, modCls, List.getD_eq_getElem?_getD, h]

theorem physTower_withRemap_same {s : State} {c : Nat} (d x : Nat) (hc : c < s.cls.length) :
    physTower (getCls (withRemap s c d x) c) d = x := by
  rw [withRemap, getCls_modCls s c _ hc, physTower_remap_same]

theorem physTower_withRemap_ne (s : State) (c : Nat) {d e : Nat} (x : Nat) (he : e ≠ d) :
    physTower (getCls (withRemap s c d x) c) e = physTower (getCls s c) e := by
  by_cases hc : c < s.cls.length
  · rw [withRemap, getCls_modCls s c _ hc, physTower_remap_ne _ x he]
  · rw [withRemap, getCls_modCls_of_length_le _ (by omega)]

/-- The machine with tower `x` of a class made ready for use: one that is in use already keeps its data. -/
def readied (s : State) (c x : Nat) : State :=
  if 40 ≤ c || (towersInUse (getCls s c)).contains x then s else freshTower s c x

theorem readied_cls (s : State) (c x : Nat) : (readied s c x).cls = s.cls := by
  unfold readied; split <;> rfl

theorem readByte_freshTower {s : State} (c x a : Nat) (wf : Memory.wf s.mem) :
    readByte (freshTower s c x) a = if towerAddr c x 0 ≤ a ∧ a < towerAddr c x 0 + 2 ^ 25
      then Config.freeByte s.tick (a - towerAddr c x 0) else readByte s a := by
  have h := readByte_writeBytes (towerAddr c x 0) a ((List.range (2 ^ 25)).map (Config.freeByte s.tick)) wf
  rw [List.length_map, List.length_range] at h
  refine h.trans ?_
  split
  · rw [List.getD_eq_getElem?_getD, List.getElem?_map, List.getElem?_range (by omega)]
    rfl
  · rfl

/-- A tower that comes into use holds free bytes (R182; log 8); every other byte stays. -/
theorem readied_bytes {s : State} (c x : Nat) (wf : Memory.wf s.mem) :
    (x ∈ towersInUse (getCls s c) ∨ 40 ≤ c → (readied s c x).mem = s.mem)
      ∧ (∀ a, ¬ (towerAddr c x 0 ≤ a ∧ a < towerAddr c x 0 + 2 ^ 25) → readByte (readied s c x) a = readByte s a)
      ∧ (x ∉ towersInUse (getCls s c) → c < 40 →
          ∀ a, a < 2 ^ 25 → readByte (readied s c x) (towerAddr c x 0 + a) = Config.freeByte s.tick a) := by
  by_cases h : x ∈ towersInUse (getCls s c) ∨ 40 ≤ c
  · have keeps : readied s c x = s := if_pos (by simpa [or_comm] using h)
    rw [keeps]
    exact ⟨fun _ => rfl, fun _ _ => rfl, fun h1 h2 => absurd h (by simp [h1, h2])⟩
  · have fresh : readied s c x = freshTower s c x := if_neg (by simpa [or_comm] using h)
    rw [fresh]
    refine ⟨fun h' => absurd h' h, fun a ha => ?_, fun _ _ a ha => ?_⟩
    · rw [readByte_freshTower c x a wf, if_neg ha]
    · rw [readByte_freshTower c x _ wf, if_pos (by omega), Nat.add_sub_cancel_left]

/-- A spare tower that another desk of the class names. -/
def spareTaken (k : ClassState) (d x : Nat) : Bool :=
  (x == 32 || x == 33) && (List.range 32).any fun e => e != d && physTower k e == x

theorem spareTaken_iff (k : ClassState) {d x : Nat} (hx : x = 32 ∨ x = 33) :
    spareTaken k d x = true ↔ ∃ e, e < 32 ∧ e ≠ d ∧ physTower k e = x := by
  have hs : (x == 32 || x == 33) = true := by simpa using hx
  simp [spareTaken, hs]

theorem exec_remapTableWrite (c d x : Nat) (s : State) :
    exec (.remapTableWrite c d x) s = .next (if 32 ≤ d || !((x == 32 || x == 33) || x == d) || spareTaken (getCls s c) d x || owned s c
      then s else withRemap (readied s c x) c d x) := rfl

/-- A remap entry that is taken: the desk has the tower, the other desks keep theirs, a tower that comes into use is fresh. -/
theorem remapTableWrite_takes {s : State} {c d x : Nat} (hd : d < 32) (free : owned s c = false)
    (hx : (x = 32 ∨ x = 33) ∨ x = d) (hspare : spareTaken (getCls s c) d x = false) :
    exec (.remapTableWrite c d x) s = .next (withRemap (readied s c x) c d x)
      ∧ (c < s.cls.length → physTower (getCls (withRemap (readied s c x) c d x) c) d = x)
      ∧ (∀ e, e ≠ d → physTower (getCls (withRemap (readied s c x) c d x) c) e = physTower (getCls s c) e) := by
  have hcls : getCls (readied s c x) c = getCls s c := by rw [getCls, getCls, readied_cls]
  have named : ((x == 32 || x == 33) || x == d) = true := by simpa using hx
  refine ⟨?_, fun hc => physTower_withRemap_same d x (by rwa [readied_cls]), fun e he => ?_⟩
  · rw [exec_remapTableWrite, named, hspare, free, if_neg (by simpa using hd)]
  · rw [physTower_withRemap_ne _ c x he, hcls]

/-- Settles O55: the links, the bridge lanes and the remap entries one after another. -/
theorem linksAndRemap : Obligations.LinksAndRemap := by
  unfold Obligations.LinksAndRemap
  refine ⟨fun l n s hl h => ⟨fun hn => ?_, fun hn => kLinkFlitRetry_down hl h hn⟩, fun l n s h => kLinkFlitRetry_of_down h,
    fun b far s => linkTraining_effect b far s, fun d l s hd _ _ => bridgeLaneFailure_effect l s hd, fun c d x s hd free wf => ?_,
    fun c d x s owns => ?_⟩
  · rw [exec_kLinkFlitRetry_up hl h, if_pos hn]
  · intro fresh
    have bytes : fresh (withRemap (readied s c x) c d x) := readied_bytes c x wf
    refine ⟨fun hx => ?_, fun hx unused => ?_, fun h1 h2 h3 => ?_, fun hx used => ?_⟩
    · subst hx
      have hspare : spareTaken (getCls s c) x x = false := by
        have : (x == 32 || x == 33) = false := by simp; omega
        simp [spareTaken, this]
      obtain ⟨hexec, hsame, hne⟩ := remapTableWrite_takes hd free (Or.inr rfl) hspare
      exact ⟨_, hexec, hsame, hne, bytes⟩
    · have hspare : spareTaken (getCls s c) d x = false := by
        rw [← Bool.not_eq_true, spareTaken_iff _ hx]
        rintro ⟨e, he, hne, hp⟩
        exact unused e he hne hp
      obtain ⟨hexec, hsame, hne⟩ := remapTableWrite_takes hd free (Or.inl hx) hspare
      exact ⟨_, hexec, hsame, hne, bytes⟩
    · rw [exec_remapTableWrite, if_pos (by simp [h1, h2, h3])]
    · rw [exec_remapTableWrite, if_pos (by simp [(spareTaken_iff _ hx).mpr used])]
  · rw [exec_remapTableWrite, if_pos (by simp [owns])]

end Sys2Proof.Machine
end

section
/-!
PROOFS for O53 and O54: one machine each on which a clause of the statement fails.
-/

namespace Sys2Proof.Machine

/-! ## Stairwells of a die that is not there -/

theorem exec_stairwellDrain (d r : Nat) (s : State) : exec (.stairwellDrain d r) s = execStairwellDrain d r s := rfl

theorem leaveClass_dies (s : State) (c : Nat) : (leaveClass s c).dies = s.dies := by
  unfold leaveClass; split <;> rfl

theorem leaveAll_dies (s : State) : (leaveAll s).dies = s.dies := by
  unfold leaveAll
  generalize List.range 40 = cs
  induction cs generalizing s with
  | nil => rfl
  | cons c cs ih => rw [List.foldl_cons, ih, leaveClass_dies]

/-- A die that is not there reads as a die after reset. -/
theorem getDie_of_length_le {s : State} {d : Nat} (h : s.dies.length ≤ d) : getDie s d = default := by
  simp [getDie, List.getD_eq_getElem?_getD, h]

/-- No drain reaches a router of a die that is not there: it stays as after reset. -/
theorem stairwellDrain_of_length_le {s t : State} {d : Nat} (r : Nat) (hd : s.dies.length ≤ d)
    (ht : exec (.stairwellDrain d r) s = .next t) : getDie t d = default := by
  apply getDie_of_length_le
  rw [exec_stairwellDrain, execStairwellDrain] at ht
  split at ht
  · obtain rfl := Host.Outcome.next.inj ht
    simpa [bbRecord, setWell, modDie, routeAround, leaveAll_dies] using hd
  · obtain rfl := Host.Outcome.next.inj ht
    exact hd

/-- Refutes O54: a drain is said to set STATE 1 at every router whose STATE reads 0, and a router of die 2 reads so after
reset, though the package has dies 0 and 1 only and no write reaches it. -/
theorem not_corridorAndRouters : ¬ Obligations.CorridorAndRouters := by
  unfold Obligations.CorridorAndRouters
  rintro ⟨-, -, -, -, -, -, -, -, -, hdrain, -⟩
  obtain ⟨t, ht, hwell, -⟩ := hdrain 2 0 State.reset (by decide)
  have hdie : getDie t 2 = default := stairwellDrain_of_length_le 0 (by decide) ht
  rw [wellOf, hdie] at hwell
  exact absurd hwell (by decide)

/-! ## A save that ends its own team -/

/-- A partner applies the master's decision on a team of which it is awaited (R283). -/
theorem exec_pairSaveDecisionReceived {s : State} {n : Nat} {tm : Team} (act : TeamAct)
    (found : s.teams.find? (fun t => t.id = n) = some tm) (paired : isPaired s tm.inst = true) (partner : s.pairMaster = false)
    (decided : tm.state = .decided) : exec (.pairSaveDecisionReceived n act) s = .next (actOn s tm act) := by
  change execPairSaveDecisionReceived n act s = _
  simp [execPairSaveDecisionReceived, found, paired, partner, decided]

/-- A team of which the master's decision is awaited. -/
def awaitingTeam : Team := { id := 5, inst := 1, node := 0, ord := 0, classes := [0], state := .decided, own := 0 }

/-- A counted transfer into the class's towers whose data a freeze holds (R126), its add still due at counter 7. -/
def heldTransfer : InFlight :=
  { id := 0, ord := 0, run := 0, eng := .x, instr := .xrecv default default, ops := [64, 64, 7, 1, 1, 0], held := some [] }

/-- The team runs on class 0 of a paired partition, with the transfer held; counter 7 holds integrity poison. -/
def poisonedSave : State :=
  { State.reset with
    parts := State.reset.parts.set 1 { state := 1, paired := true }
    insts := [{ num := 1, part := 1, queue := 0, entry := [], gid := 0, excl := false, snaps := [], nctr := 0,
                state := .running, nodes := [{ state := .ready }] }]
    teams := [awaitingTeam]
    cls := State.reset.cls.modify 0 fun k => { k with live := true, inflight := [heldTransfer] }
    poison := [(.counter 7, true)] }

/-- The save lands the held transfer; its add consumes the poison, which fails all that the team belongs to and takes the team
away (R107, R131). -/
theorem poisonedSave_loses_team : (actOn poisonedSave awaitingTeam .save).teams = [] := by decide +kernel

/-- Refutes O53: where a partner applies the decision to save, the statement has the team there afterwards, with its image. A held
transfer that lands as the save begins can make the team fail: its counted add meets a counter with integrity poison, which the
statement's state may hold (the model's own `setPoison` marks counters with media poison only, log 52). -/
theorem not_killsAndPairMode : ¬ Obligations.KillsAndPairMode := by
  unfold Obligations.KillsAndPairMode
  rintro ⟨-, -, -, -, -, -, -, -, -, -, -, -, -, hsave, -⟩
  have found : poisonedSave.teams.find? (fun t => t.id = 5) = some awaitingTeam := by decide +kernel
  have paired : isPaired poisonedSave awaitingTeam.inst = true := by decide +kernel
  obtain ⟨t, ht, hdecided⟩ := hsave 5 .save poisonedSave awaitingTeam found paired rfl rfl (fun _ => by decide +kernel)
  rw [exec_pairSaveDecisionReceived .save found paired rfl rfl] at ht
  obtain rfl := Host.Outcome.next.inj ht
  obtain ⟨-, -, u, hu, -⟩ := hdecided
  rw [poisonedSave_loses_team] at hu
  exact absurd hu List.not_mem_nil

end Sys2Proof.Machine
end

section
/-!
PROOFS for O60: the relation that every step keeps, and the rules to carry it through the shapes that the model's operations have.
-/

namespace Sys2Proof.Machine

/-- What `EveryStepKeeps` says of a step from `s` to `t` (R54): memory stays in canonical form, the number of power-ups never falls,
and while it stays the reference clock never runs back. -/
structure Keeps (s t : State) : Prop where
  mem : Memory.wf s.mem → Memory.wf t.mem
  born : s.born ≤ t.born
  clock : t.born = s.born → s.ticks8 ≤ t.ticks8

/-- The part of the machine that `Keeps` speaks of. -/
def memClock (s : State) : List Host.Cell × Nat × Nat := (s.mem, s.born, s.ticks8)

section
variable {s t u : State}

theorem Keeps.refl (s : State) : Keeps s s := ⟨id, Nat.le_refl _, fun _ => Nat.le_refl _⟩

/-- A change that leaves memory and clock alone keeps what was kept. -/
theorem Keeps.same (h : Keeps s t) (e : memClock u = memClock t) : Keeps s u := by
  obtain ⟨hm, hb, hc⟩ := h
  simp only [memClock, Prod.mk.injEq] at e
  obtain ⟨em, eb, ec⟩ := e
  exact ⟨em ▸ hm, eb ▸ hb, by rw [eb, ec]; exact hc⟩

/-- A reference tick. -/
theorem Keeps.tick (h : Keeps s t) : Keeps s { t with ticks8 := t.ticks8 + 1 } :=
  ⟨h.mem, h.born, fun e => Nat.le_succ_of_le (h.clock e)⟩

/-- The same for an update of fields, whatever they are, but memory and clock. -/
theorem Keeps.fields {x1 x2 x3 x4 x5 x6 x7 x8 x9 x10 x11 x12 x13 x14 x15 x16 x17 x18 x19 x20 x21 x22 x23 x24 x25 x26 x27 x28 x29 x30
    x31 x32 x33 x34 x35 x36 x37 x38 x39 x40 x41 x42 x43 x44 x45 x46 x47} (h : Keeps s t) :
    Keeps s ⟨x1, x2, x3, t.ticks8, t.born, x4, x5, x6, x7, x8, x9, x10, x11, x12, x13, x14, x15, x16, x17, x18, x19, x20,
      x21, x22, x23, x24, x25, x26, x27, x28, t.mem, x29, x30, x31, x32, x33, x34, x35, x36, x37, x38, x39, x40, x41,
      x42, x43, x44, x45, x46, x47⟩ :=
  ⟨h.mem, h.born, h.clock⟩

/-- A change of memory that keeps the canonical form. -/
theorem Keeps.withMem (h : Keeps s t) {m : List Host.Cell} (hm : Memory.wf t.mem → Memory.wf m) : Keeps s { t with mem := m } :=
  ⟨fun w => hm (h.mem w), h.born, h.clock⟩

theorem keeps_ite {c : Prop} [Decidable c] (ht : Keeps s t) (hu : Keeps s u) : Keeps s (if c then t else u) := by
  split
  · exact ht
  · exact hu

theorem keeps_foldl {α : Type} {f : State → α → State} {l : List α} (h : Keeps s t) (step : ∀ u x, Keeps s u → Keeps s (f u x)) :
    Keeps s (l.foldl f t) := by
  induction l generalizing t with
  | nil => exact h
  | cons x l ih => exact ih (step t x h)

/-! ## Words and events -/

/-- What the body of a word comes to keeps. -/
def Res.Keeps (s : State) : Res → Prop
  | .done t => Machine.Keeps s t
  | .jump t _ => Machine.Keeps s t
  | .async t _ _ => Machine.Keeps s t
  | .paced t _ _ => Machine.Keeps s t
  | .stall => True
  | .trap _ _ => True
  | .stop t => Machine.Keeps s t

/-- The next state that a meaning answers, if it answers one, keeps. -/
def OutKeeps (s : State) : Out → Prop
  | .next t => Keeps s t
  | .fault _ => True
  | .refused _ => True

/-- The next state of an operation that may find none keeps. -/
def OptKeeps (s : State) : Option State → Prop
  | some t => Keeps s t
  | none => True

/-- What an access leaves where it is done keeps. -/
def Acc.Keeps (s : State) : Acc → Prop
  | .ok t _ _ => Machine.Keeps s t
  | .halt _ _ _ => True
  | .wait => True
  | .gone => True

/-- What a movement of bytes leaves where it is done keeps. -/
def Moved.Keeps (s : State) : Moved → Prop
  | .ok t _ => Machine.Keeps s t
  | .halt _ _ _ _ => True
  | .wait => True

theorem keeps_of_some {o : Option State} (e : o = some u) (h : OptKeeps s o) : Keeps s u := by
  subst e
  exact h

theorem OptKeeps.getD {o : Option State} (h : OptKeeps s o) (ht : Keeps s t) : Keeps s (o.getD t) := by
  cases o with
  | none => exact ht
  | some u => exact h

theorem keeps_of_fst {α : Type} {x : State × α} {a : α} (e : x = (u, a)) (h : Keeps s x.1) : Keeps s u := by
  subst e
  exact h

theorem keeps_of_acc {a : Acc} {bs : List Byte} {p : Option Bool} (e : a = .ok u bs p) (h : a.Keeps s) : Keeps s u := by
  subst e
  exact h

theorem keeps_of_moved {m : Moved} {x : Measure} (e : m = .ok u x) (h : m.Keeps s) : Keeps s u := by
  subst e
  exact h

theorem opt_ite {c : Prop} [Decidable c] {a b : Option State} (ha : OptKeeps s a) (hb : OptKeeps s b) :
    OptKeeps s (if c then a else b) := by
  split
  · exact ha
  · exact hb

theorem res_ite {c : Prop} [Decidable c] {a b : Res} (ha : a.Keeps s) (hb : b.Keeps s) : (if c then a else b).Keeps s := by
  split
  · exact ha
  · exact hb

theorem out_ite {c : Prop} [Decidable c] {a b : Out} (ha : OutKeeps s a) (hb : OutKeeps s b) : OutKeeps s (if c then a else b) := by
  split
  · exact ha
  · exact hb

end

end Sys2Proof.Machine
end

section
/-!
PROOFS for O60: what each operation of the model keeps, file by file, in the order of their definitions.
-/

namespace Sys2Proof.Machine

section
variable {s t u : State}

/-! ### Ops -/

theorem keeps_modCls {c f} (h : Keeps s t) : Keeps s (modCls t c f) := h.fields
theorem keeps_modDie {b f} (h : Keeps s t) : Keeps s (modDie t b f) := h.fields
theorem keeps_modFw {b f} (h : Keeps s t) : Keeps s (modFw t b f) := keeps_modDie h
theorem keeps_modWalker {c e f} (h : Keeps s t) : Keeps s (modWalker t c e f) := keeps_modCls h
theorem keeps_setS {c n v} (h : Keeps s t) : Keeps s (setS t c n v) := keeps_ite h (keeps_modCls h)

theorem keeps_sset {n v} (h : Keeps s t) : Keeps s (sset t n v) := by
  unfold sset
  split
  · exact keeps_setS h
  · exact keeps_ite h (keeps_modFw h)

theorem keeps_modMe {f} (h : Keeps s t) : Keeps s (modMe t f) := keeps_modCls h
theorem keeps_aset {n v} (h : Keeps s t) : Keeps s (aset t n v) := keeps_modMe h
theorem keeps_bump (h : Keeps s t) : Keeps s (bump t) := h.fields
theorem keeps_bumpBy {n} (h : Keeps s t) : Keeps s (bumpBy t n) := h.fields
theorem keeps_writeBytes {a bs} (h : Keeps s t) : Keeps s (writeBytes t a bs) := h.withMem (wf_writeBytes a bs)
theorem keeps_writeNat {a n v} (h : Keeps s t) : Keeps s (writeNat t a n v) := keeps_writeBytes h
theorem keeps_writePhys {a bs} (h : Keeps s t) : Keeps s (writePhys t a bs) := (keeps_writeBytes h).fields
theorem keeps_writePhysNat {a n v} (h : Keeps s t) : Keeps s (writePhysNat t a n v) := keeps_writePhys h
theorem keeps_modInst {num f} (h : Keeps s t) : Keeps s (modInst t num f) := h.fields
theorem keeps_modNode {num node f} (h : Keeps s t) : Keeps s (modNode t num node f) := keeps_modInst h
theorem keeps_modTeam {id f} (h : Keeps s t) : Keeps s (modTeam t id f) := h.fields
theorem keeps_modPart {k f} (h : Keeps s t) : Keeps s (modPart t k f) := h.fields
theorem keeps_modQueue {k q f} (h : Keeps s t) : Keeps s (modQueue t k q f) := keeps_modPart h
theorem keeps_markDirty {c phys off} (h : Keeps s t) : Keeps s (markDirty t c phys off) := keeps_modCls h
theorem keeps_clearPoison {u'} (h : Keeps s t) : Keeps s (clearPoison t u') := h.fields
theorem keeps_setPoison {u' kind} (h : Keeps s t) : Keeps s (setPoison t u' kind) := (keeps_clearPoison h).fields

theorem keeps_movePoison {p dst} (h : Keeps s t) : Keeps s (movePoison t p dst) := by
  unfold movePoison
  split
  · exact keeps_setPoison h
  · exact keeps_clearPoison h

theorem keeps_bbRecord {die part code cls unit tag detail} (h : Keeps s t) :
    Keeps s (bbRecord t die part code cls unit tag detail) :=
  keeps_modDie h

theorem keeps_bbClass {c code unit detail} (h : Keeps s t) : Keeps s (bbClass t c code unit detail) := keeps_bbRecord h
theorem keeps_send {m} (h : Keeps s t) : Keeps s (send t m) := h.fields
theorem keeps_sendPair {kind args} (h : Keeps s t) : Keeps s (sendPair t kind args) := keeps_ite h ((keeps_send h).fields)
theorem keeps_msix {fn v} (h : Keeps s t) : Keeps s (msix t fn v) := keeps_send h
theorem keeps_due {m} (h : Keeps s t) : Keeps s (due t m) := h.fields
theorem keeps_pushQs {c v} (h : Keeps s t) : Keeps s (pushQs t c v) := keeps_modCls h
theorem keeps_pushQv {c v} (h : Keeps s t) : Keeps s (pushQv t c v) := keeps_modCls h
theorem keeps_pushQb {c b} (h : Keeps s t) : Keeps s (pushQb t c b) := keeps_modCls h

theorem keeps_ctrSet {h' v} (h : Keeps s t) : Keeps s (ctrSet t h' v) := h.fields

/-! ### Crypt -/

theorem keeps_setIptEntry {t' f e} (h : Keeps s t) : Keeps s (setIptEntry t t' f e) := h.fields
theorem keeps_setAnchor {t' h' f} (h : Keeps s t) : Keeps s (setAnchor t t' h' f) := h.fields
theorem keeps_noteVa {u' va} (h : Keeps s t) : Keeps s (noteVa t u' va) := keeps_ite h.fields h

theorem keeps_noteSpan {a va n} (h : Keeps s t) : Keeps s (noteSpan t a va n) :=
  keeps_ite h (keeps_foldl h fun _ _ h => keeps_noteVa h)

theorem keeps_storeSector {u' c} (h : Keeps s t) : Keeps s (storeSector t u' c) := by
  unfold storeSector
  dsimp only
  split
  · exact keeps_writePhysNat h
  · exact keeps_ite (keeps_writePhysNat h) (keeps_ite (keeps_clearPoison (keeps_writePhysNat h)) ((keeps_setPoison
      (keeps_writePhysNat h)).fields))

theorem keeps_unsealFrame {t' f} (h : Keeps s t) : Keeps s (unsealFrame t t' f) :=
  keeps_ite h (keeps_foldl h fun _ _ h => keeps_ite (keeps_clearPoison (keeps_writePhysNat h)) (keeps_writePhysNat h))

theorem keeps_unsealPart {k} (h : Keeps s t) : Keeps s (unsealPart t k) := keeps_foldl h fun _ _ h => keeps_unsealFrame h

/-! ### Lend -/

theorem keeps_publishPrio {id} (h : Keeps s t) : Keeps s (publishPrio t id) := by
  unfold publishPrio
  split
  · exact h
  · exact keeps_foldl h fun _ _ h => keeps_modCls h

theorem keeps_lendTo {id n} (h : Keeps s t) : Keeps s (lendTo t id n) := by
  unfold lendTo
  split
  · exact h
  · exact h.fields

theorem keeps_lendOnce (h : Keeps s t) : Keeps s (lendOnce t) :=
  keeps_foldl h fun _ _ h => keeps_foldl h fun _ _ h => keeps_lendTo h

theorem keeps_relend (h : Keeps s t) : Keeps s (relend t) :=
  keeps_foldl (keeps_foldl h.fields fun _ _ h => keeps_lendOnce h) fun _ _ h => keeps_ite h (keeps_publishPrio h)

theorem keeps_relendIf {b} (h : Keeps s t) : Keeps s (relendIf b t) := keeps_ite (keeps_relend h) h

/-! ### Contain -/

theorem keeps_pushEvent {die code cls part tinfo tcause inst} (h : Keeps s t) :
    Keeps s (pushEvent t die code cls part tinfo tcause inst) :=
  keeps_modDie h

theorem keeps_stopClasses {f cs} (h : Keeps s t) : Keeps s (stopClasses f cs t) := keeps_foldl h fun _ _ h => keeps_modCls h

theorem keeps_freeShadow {sh} (h : Keeps s t) : Keeps s (freeShadow t sh) := by
  unfold freeShadow
  dsimp only
  split
  · exact h
  · exact keeps_setIptEntry (keeps_setIptEntry (keeps_unsealFrame h))

theorem keeps_discardStaged {inst node} (h : Keeps s t) : Keeps s (discardStaged t inst node) :=
  keeps_modNode (keeps_foldl h fun _ _ h => keeps_freeShadow h)

theorem keeps_cleanRouters (h : Keeps s t) : Keeps s (cleanRouters t) := keeps_ite h.fields h

theorem keeps_dropTeams {inst node} (h : Keeps s t) : Keeps s (dropTeams t inst node) :=
  keeps_relend (keeps_cleanRouters h.fields)

theorem keeps_endInst {num status} (h : Keeps s t) : Keeps s (endInst t num status) := keeps_modInst h

theorem keeps_stopNode {inst node} (h : Keeps s t) : Keeps s (stopNode t inst node) :=
  keeps_discardStaged (keeps_dropTeams (keeps_stopClasses h))

theorem keeps_failInst {num} (h : Keeps s t) : Keeps s (failInst t num) := by
  unfold failInst
  split
  · exact h
  · exact keeps_ite h (keeps_endInst (keeps_foldl h fun _ _ h => keeps_stopNode h))

theorem keeps_failNode {inst node cause} (h : Keeps s t) : Keeps s (failNode t inst node cause) :=
  keeps_failInst (keeps_bbRecord h)

theorem keeps_failNodeOpen {inst node} (h : Keeps s t) : Keeps s (failNodeOpen t inst node) := keeps_failNode (keeps_bump h)

theorem keeps_zeroPoisoned {c} (h : Keeps s t) : Keeps s (zeroPoisoned c t) := by
  unfold zeroPoisoned
  refine keeps_foldl h fun _ _ h => ?_
  split
  · exact keeps_ite (keeps_clearPoison (keeps_bbClass (keeps_writeBytes h))) h
  · exact keeps_ite (keeps_clearPoison (keeps_bbClass (keeps_writeBytes h))) h
  · exact keeps_ite (keeps_clearPoison h) h
  · exact keeps_ite (keeps_clearPoison h) h
  · exact keeps_ite (keeps_clearPoison h) h
  · exact keeps_ite (keeps_clearPoison h) h
  · exact h
  · exact h
  · exact h

theorem keeps_rollBack {inst node cause} (h : Keeps s t) : Keeps s (rollBack t inst node cause) :=
  keeps_ite (keeps_modInst (keeps_modNode (keeps_bbRecord h))) (keeps_failNode h)

theorem keeps_sendKillNotice {inst node} (h : Keeps s t) : Keeps s (sendKillNotice t inst node) := keeps_sendPair h

theorem keeps_killNode {inst node cause} (h : Keeps s t) : Keeps s (killNode t inst node cause) :=
  keeps_ite (keeps_rollBack (keeps_ite (keeps_sendKillNotice (keeps_discardStaged (keeps_dropTeams (keeps_stopClasses
    (keeps_foldl h fun _ _ h => keeps_zeroPoisoned h))))) (keeps_discardStaged (keeps_dropTeams (keeps_stopClasses (keeps_foldl h
    fun _ _ h => keeps_zeroPoisoned h)))))) h

theorem keeps_requestKill {inst node cause} (h : Keeps s t) : Keeps s (requestKill t inst node cause) := keeps_due h.fields

theorem keeps_killOn {c cause} (h : Keeps s t) : Keeps s (killOn t c cause) := by
  unfold killOn
  split
  · exact keeps_requestKill h
  · exact h

theorem keeps_failOn {c} (h : Keeps s t) : Keeps s (failOn t c) := by
  unfold failOn
  split
  · exact keeps_failInst h
  · exact h

theorem keeps_failOpen {c} (h : Keeps s t) : Keeps s (failOpen t c) := by
  unfold failOpen
  split
  · exact keeps_failNodeOpen h
  · exact h

theorem keeps_failEvent {c code} (h : Keeps s t) : Keeps s (failEvent t c code) := keeps_ite (keeps_failOn h) (keeps_failOpen h)
theorem keeps_setCause {c code e ord tinfo} (h : Keeps s t) : Keeps s (setCause t c code e ord tinfo) := keeps_modCls h
theorem keeps_causeEvent {c} (h : Keeps s t) : Keeps s (causeEvent t c) := keeps_pushEvent h

theorem keeps_systemCause {c code e ord tinfo} (h : Keeps s t) : Keeps s (systemCause t c code e ord tinfo) :=
  keeps_causeEvent (keeps_setCause h)

theorem keeps_consumeAt {c e ord kind u' va} (h : Keeps s t) : Keeps s (consumeAt t c e ord kind u' va) :=
  keeps_ite (keeps_failOpen (keeps_msix (keeps_bbClass (keeps_systemCause h)))) (keeps_killOn (keeps_bbClass (keeps_systemCause
    h)))

theorem keeps_consumePoison {c e kind u' va} (h : Keeps s t) : Keeps s (consumePoison t c e kind u' va) := keeps_consumeAt h

/-! ### Walk -/

theorem keeps_controlFlowFault {c addr crc} (h : Keeps s t) : Keeps s (controlFlowFault t c addr crc) :=
  keeps_killOn (keeps_bbClass (keeps_systemCause h))

theorem keeps_takeCause {c x} (h : Keeps s t) : Keeps s (takeCause t c x) :=
  keeps_ite (keeps_modCls (keeps_causeEvent (keeps_modCls (keeps_setCause h)))) (keeps_ite (keeps_controlFlowFault (keeps_modCls
    (keeps_setCause h))) (keeps_modCls (keeps_modCls (keeps_setCause h))))

theorem keeps_enterTrap {c code e ord tinfo} (h : Keeps s t) : Keeps s (enterTrap t c code e ord tinfo) := keeps_takeCause h
theorem keeps_doubleTrap {c e second} (h : Keeps s t) : Keeps s (doubleTrap t c e second) := keeps_failOpen (keeps_systemCause h)

theorem keeps_trapAt {c e code tinfo} (h : Keeps s t) : Keeps s (trapAt t c e code tinfo) :=
  keeps_ite (keeps_doubleTrap h) (keeps_enterTrap (keeps_ite (keeps_modCls h) h))

theorem keeps_raiseLater {c x} (h : Keeps s t) : Keeps s (raiseLater t c x) :=
  keeps_ite h (keeps_ite (keeps_ite h (keeps_modCls h)) (keeps_takeCause h))

theorem keeps_takePending {c} (h : Keeps s t) : Keeps s (takePending t c) := by
  unfold takePending
  dsimp only
  split
  · exact h
  · exact keeps_takeCause (keeps_modCls h)

theorem keeps_returnTrap {c skip} (h : Keeps s t) : Keeps s (returnTrap t c skip) := keeps_takePending (keeps_modCls h)
theorem keeps_finishDone {c e i n} (h : Keeps s t) : Keeps s (finishDone t c e i n) := keeps_modCls h

theorem keeps_finishIssued {c e i ops moves prog segs} (h : Keeps s t) : Keeps s (finishIssued t c e i ops moves prog segs) :=
  keeps_modCls h

theorem keeps_finishAsync {c e i ops moves} (h : Keeps s t) : Keeps s (finishAsync t c e i ops moves) := keeps_finishIssued h
theorem keeps_finishPaced {c e i ops segs} (h : Keeps s t) : Keeps s (finishPaced t c e i ops segs) := keeps_finishIssued h

theorem keeps_finish {c e i} {r : Res} (h : Keeps s t) (hr : r.Keeps s) : Keeps s (finish t c e i r) := by
  cases r with
  | done u => exact keeps_finishDone (keeps_modCls hr)
  | jump u n => exact keeps_finishDone (keeps_modCls hr)
  | async u ops ms => exact keeps_finishAsync hr
  | paced u ops gs => exact keeps_finishPaced hr
  | stall => exact h
  | trap code tinfo => exact keeps_trapAt h
  | stop u => exact hr

theorem keeps_finishAgain {c f} {r : Res} (h : Keeps s t) (hr : r.Keeps s) : Keeps s (finishAgain t c f r) := by
  cases r with
  | done u => exact keeps_modCls hr
  | jump u n => exact hr
  | async u ops ms => exact keeps_modCls hr
  | paced u ops gs => exact hr
  | stall => exact h
  | trap code tinfo => exact keeps_takeCause h
  | stop u => exact hr

theorem keeps_issue {i c e} {body : State → Res} (h : Keeps s t) (hb : ∀ u, Keeps s u → (body u).Keeps s) :
    Keeps s (issue i body t c e) := by
  unfold issue
  dsimp only
  split
  · exact keeps_ite (keeps_finishDone (keeps_modCls h)) h
  · split
    · exact keeps_doubleTrap h
    · split
      · exact keeps_ite (keeps_finishAgain h (hb t h)) h
      · exact keeps_ite h (keeps_finish h (hb t h))

theorem keeps_checked {i c e} {go : State → State} (h : Keeps s t) (hg : ∀ u, Keeps s u → Keeps s (go u)) :
    Keeps s (checked i t c e go) := by
  unfold checked
  split
  · split
    · exact keeps_ite (keeps_controlFlowFault h) h
    · exact keeps_ite (keeps_modCls (hg t h)) (hg t h)
  · exact hg t h

theorem keeps_passOver {i c e} (h : Keeps s t) : Keeps s (passOver i t c e) := by
  unfold passOver
  dsimp only
  split
  · exact keeps_modCls h
  · refine keeps_ite h ?_
    split
    · exact h
    · exact keeps_modCls h

theorem keeps_fwGo {d n} (h : Keeps s t) : Keeps s (fwGo t d n) := keeps_modFw h

theorem keeps_fwIssue {d} {body : State → Res} (h : Keeps s t) (hb : ∀ u, Keeps s u → (body u).Keeps s) :
    Keeps s (fwIssue body t d) := by
  have hr := hb t h
  unfold fwIssue
  dsimp only
  split
  · exact h
  · generalize body t = r at hr
    cases r with
    | done u => exact keeps_fwGo hr
    | jump u n => exact keeps_fwGo hr
    | async u ops ms => exact keeps_fwGo hr
    | paced u ops gs => exact keeps_fwGo hr
    | stall => exact h
    | trap code tinfo => exact keeps_fwGo h
    | stop u => exact hr

/-- A word keeps what its body keeps. -/
theorem keeps_runWord {i} {body : State → Res} (h : Keeps s t) (hb : ∀ u, Keeps s u → (body u).Keeps s) :
    OutKeeps s (runWord i body t) := by
  unfold runWord
  split
  · exact keeps_fwIssue h hb
  · refine out_ite h (out_ite (keeps_checked h fun u hu => keeps_issue hu hb) (out_ite ?_ ?_))
    · exact out_ite (keeps_doubleTrap h) h
    · exact keeps_checked h fun u hu => keeps_passOver hu

theorem keeps_modOp {c id f} (h : Keeps s t) : Keeps s (modOp t c id f) := keeps_modCls h

theorem keeps_complete {c f} (h : Keeps s t) : Keeps s (complete t c f) := keeps_modCls h

/-! ### Net -/

theorem keeps_setWell {die r w} (h : Keeps s t) : Keeps s (setWell t die r w) := keeps_modDie h
theorem keeps_leaveClass {c} (h : Keeps s t) : Keeps s (leaveClass t c) := keeps_ite (keeps_modCls h) h
theorem keeps_leaveAll (h : Keeps s t) : Keeps s (leaveAll t) := keeps_foldl h fun _ _ h => keeps_leaveClass h
theorem keeps_takeKey {c h' r} (h : Keeps s t) : Keeps s (takeKey t c h' r) := keeps_modCls h

theorem keeps_endRegion {c f} (h : Keeps s t) : Keeps s (endRegion t c f) := by
  unfold endRegion
  dsimp only
  split
  · exact keeps_modCls (keeps_ite (keeps_takeKey h) h)
  · exact h

theorem keeps_landNow {c f rs} (h : Keeps s t) : Keeps s (landNow t c f rs) :=
  keeps_complete (keeps_foldl (keeps_endRegion h) fun _ _ h => keeps_setS h)

theorem keeps_land {c f rs} (h : Keeps s t) : Keeps s (land t c f rs) := keeps_ite (keeps_modOp h) (keeps_landNow h)

/-! ### Operands -/

theorem keeps_srWord {i f g} (h : Keeps s t) : OutKeeps s (srWord i f g t) := keeps_runWord h fun _ h => keeps_sset h
theorem keeps_siWord {i f g} (h : Keeps s t) : OutKeeps s (siWord i f g t) := keeps_runWord h fun _ h => keeps_sset h

theorem keeps_arWord {i x g} (h : Keeps s t) : OutKeeps s (arWord i x g t) := keeps_runWord h fun _ h => keeps_aset h

/-! ### Control -/

theorem keeps_clsOnly {r : Res} (h : r.Keeps s) : (clsOnly t r).Keeps s := by
  unfold clsOnly
  split
  · exact h
  · trivial

theorem keeps_runCommon {i} {act : State → Nat → Eng → State} {fwAct : State → Nat → State} (h : Keeps s t)
    (ha : ∀ u c e, Keeps s u → Keeps s (act u c e)) (hf : ∀ u d, Keeps s u → Keeps s (fwAct u d)) :
    OutKeeps s (runCommon i act fwAct t) := by
  unfold runCommon
  split
  · exact keeps_ite (hf t _ h) h
  · exact out_ite h (keeps_checked h fun u hu => ha u _ _ hu)

theorem keeps_execBlk {h' f} (h : Keeps s t) : OutKeeps s (execBlk h' f t) :=
  keeps_runCommon h (fun _ _ _ h => keeps_modCls h) fun _ _ h => keeps_fwGo h

theorem keeps_loopAct {h' f c e} (h : Keeps s t) : Keeps s (loopAct h' f t c e) := by
  unfold loopAct
  dsimp only
  refine keeps_ite (keeps_modCls h) (keeps_ite (keeps_ite (keeps_modCls h) h) ?_)
  split
  · exact keeps_modCls h
  · exact h

theorem keeps_loopFw {f d} (h : Keeps s t) : Keeps s (loopFw f t d) := keeps_ite (keeps_fwGo h) (keeps_fwGo (keeps_modFw h))

theorem keeps_countLowp {c e} (h : Keeps s t) : Keeps s (countLowp t c e) := by
  unfold countLowp
  split
  · exact keeps_ite (keeps_modInst h) h
  · exact h

theorem keeps_takeVariant {f c e} (h : Keeps s t) : (takeVariant f t c e).Keeps s := keeps_modCls (keeps_countLowp h)

theorem keeps_pswBody {f} (h : Keeps s t) : (pswBody f t).Keeps s := by
  unfold pswBody
  dsimp only
  refine res_ite ?_ (keeps_takeVariant ?_)
  · split
    · exact res_ite (keeps_takeVariant (keeps_modCls h.fields)) (keeps_modCls h)
    · exact keeps_modCls h
  · split
    · exact keeps_sendPair h
    · exact h

theorem keeps_execPsw {h' f} (h : Keeps s t) : OutKeeps s (execPsw h' f t) := by
  unfold execPsw
  dsimp only
  refine keeps_runCommon h (fun _ _ _ h => keeps_ite (keeps_ite (keeps_doubleTrap h) (keeps_finish h (keeps_pswBody h))) ?_) fun
    _ _ h => keeps_fwGo h
  split
  · exact keeps_modCls h
  · exact h

theorem keeps_branchIf {i f cond} (h : Keeps s t) : OutKeeps s (branchIf i f cond t) := keeps_runWord h fun _ h => res_ite h h
theorem keeps_execBr {h' f} (h : Keeps s t) : OutKeeps s (execBr h' f t) := keeps_branchIf h
theorem keeps_execBz {h' f} (h : Keeps s t) : OutKeeps s (execBz h' f t) := keeps_branchIf h
theorem keeps_execBnz {h' f} (h : Keeps s t) : OutKeeps s (execBnz h' f t) := keeps_branchIf h
theorem keeps_execBge {h' f} (h : Keeps s t) : OutKeeps s (execBge h' f t) := keeps_branchIf h
theorem keeps_execBgeu {h' f} (h : Keeps s t) : OutKeeps s (execBgeu h' f t) := keeps_branchIf h

theorem keeps_jumpTo {a} {r : State → Nat → Res} (h : Keeps s t) (hr : ∀ u n, Keeps s u → (r u n).Keeps s) :
    (jumpTo t a r).Keeps s := by
  unfold jumpTo
  split
  · exact hr t (wiOf a) h
  · split
    · exact keeps_controlFlowFault h
    · exact h

theorem keeps_popQb {f want} (h : Keeps s t) : (popQb f want t).Keeps s := by
  unfold popQb
  dsimp only
  refine keeps_clsOnly ?_
  split
  · exact trivial
  · exact res_ite (keeps_modMe h) (keeps_modMe h)

theorem keeps_setRstack {l} (h : Keeps s t) : Keeps s (setRstack t l) := by
  unfold setRstack
  split
  · exact keeps_modWalker h
  · exact keeps_modFw h

theorem keeps_cfFault (h : Keeps s t) : (cfFault t).Keeps s := by
  unfold cfFault
  split
  · exact keeps_controlFlowFault h
  · exact h

theorem keeps_callTo {n} (h : Keeps s t) : (callTo t n).Keeps s := res_ite (keeps_setRstack h) (keeps_cfFault h)

theorem keeps_execRet {h'} (h : Keeps s t) : OutKeeps s (execRet h' t) := by
  unfold execRet
  refine keeps_runWord h fun _ h => ?_
  split
  · exact keeps_cfFault h
  · exact keeps_setRstack h

theorem keeps_shiftPoison {c q} (h : Keeps s t) : Keeps s (shiftPoison t c q) := h.fields

theorem keeps_execQpop {h' f} (h : Keeps s t) : OutKeeps s (execQpop h' f t) := by
  unfold execQpop
  dsimp only
  refine keeps_runWord h fun _ h => keeps_clsOnly ?_
  split
  · exact trivial
  · split
    · exact keeps_consumePoison h
    · exact keeps_sset (keeps_shiftPoison (keeps_modMe h))

theorem keeps_setPrio {c p} (h : Keeps s t) : Keeps s (setPrio t c p) := by
  unfold setPrio
  dsimp only
  split
  · exact h
  · exact keeps_relend (keeps_publishPrio (keeps_modTeam h))

theorem keeps_execPrio {h' f} (h : Keeps s t) : OutKeeps s (execPrio h' f t) := by
  unfold execPrio
  refine keeps_runWord h fun _ h => ?_
  split
  · exact keeps_setPrio h
  · exact h

theorem keeps_execSleepns {h' f} (h : Keeps s t) : OutKeeps s (execSleepns h' f t) := by
  unfold execSleepns
  dsimp only
  refine keeps_runWord h fun _ h => ?_
  split
  · exact res_ite h h
  · split
    · exact keeps_modFw h
    · exact res_ite (keeps_modFw h) trivial

/-! ### Csr -/

theorem keeps_execRdcsr {h' f} (h : Keeps s t) : OutKeeps s (execRdcsr h' f t) := by
  unfold execRdcsr
  refine keeps_runWord h fun _ h => ?_
  split
  · exact keeps_bump (keeps_sset h)
  · exact res_ite trivial (res_ite trivial (keeps_sset h))

theorem keeps_execWrcsr {h' f} (h : Keeps s t) : OutKeeps s (execWrcsr h' f t) := by
  unfold execWrcsr
  refine keeps_runWord h fun _ h => ?_
  split
  · exact h
  · exact res_ite trivial (keeps_modCls h)

theorem keeps_execLds {h' f} (h : Keeps s t) : OutKeeps s (execLds h' f t) := by
  unfold execLds
  dsimp only
  refine keeps_runWord h fun _ h => res_ite trivial ?_
  split
  · exact keeps_consumePoison h
  · exact keeps_sset h

/-! ### Records -/

theorem keeps_setRec {h' r} (h : Keeps s t) : Keeps s (setRec t h' r) := h.fields
theorem keeps_mergePartial {p} (h : Keeps s t) : Keeps s (mergePartial t p) := keeps_ite h (keeps_setRec h)

theorem keeps_openPartial {c h'} (h : Keeps s t) : Keeps s (openPartial t c h') := by
  unfold openPartial
  dsimp only
  split
  · exact keeps_modCls h
  · refine keeps_modCls ?_
    split
    · exact h
    · exact keeps_foldl h fun _ _ h => keeps_mergePartial h

theorem keeps_contribute {c h' vs ovf} (h : Keeps s t) : Keeps s (contribute t c h' vs ovf) :=
  keeps_ite h (keeps_modCls (keeps_openPartial h))

theorem keeps_contributePartial {c p} (h : Keeps s t) : Keeps s (contributePartial t c p) :=
  keeps_ite h (keeps_modCls (keeps_openPartial h))

theorem keeps_landTransit {c} (h : Keeps s t) : Keeps s (landTransit t c) :=
  keeps_foldl h.fields fun _ _ h => keeps_mergePartial h

theorem keeps_landNode {inst node} (h : Keeps s t) : Keeps s (landNode t inst node) :=
  keeps_foldl h.fields fun _ _ h => keeps_mergePartial h

theorem keeps_mergePartials {c ctrDie} (h : Keeps s t) : Keeps s (mergePartials t c ctrDie) :=
  keeps_modCls ((keeps_foldl h fun _ _ h => keeps_mergePartial h).fields)

theorem keeps_execRecordMerge {die idx c} (h : Keeps s t) : OutKeeps s (execRecordMerge die idx c t) := by
  unfold execRecordMerge
  split
  · exact h
  · exact keeps_mergePartial h.fields

theorem keeps_recToRegs {d r} (h : Keeps s t) : Keeps s (recToRegs t d r) := keeps_foldl h fun _ _ h => keeps_sset h

theorem keeps_srRead {i f change} (h : Keeps s t) : OutKeeps s (srRead i f change t) := by
  unfold srRead
  dsimp only
  refine keeps_runWord h fun _ h => res_ite trivial ?_
  split
  · exact h
  · exact keeps_recToRegs (keeps_setRec h)

/-! ### Sync -/

theorem keeps_doRelease {c scope upto ctrDie} (h : Keeps s t) : Keeps s (doRelease t c scope upto ctrDie) := by
  unfold doRelease
  dsimp only
  refine keeps_ite ?_ (keeps_ite (keeps_mergePartials (keeps_landTransit h)) (keeps_landTransit h))
  split
  · exact keeps_modNode (keeps_ite (keeps_mergePartials (keeps_landTransit h)) (keeps_landTransit h))
  · exact keeps_ite (keeps_mergePartials (keeps_landTransit h)) (keeps_landTransit h)

theorem keeps_doAcquire {c scope} (h : Keeps s t) : Keeps s (doAcquire t c scope) := by
  unfold doAcquire
  refine keeps_ite ?_ h
  split
  · exact keeps_modNode h
  · exact h

theorem keeps_followBarrier {h' size} (h : Keeps s t) : Keeps s (followBarrier t h' size) := by
  unfold followBarrier
  split
  · exact h
  · exact h.fields

theorem keeps_satisfy {c f} (h : Keeps s t) : Keeps s (satisfy t c f) := by
  unfold satisfy
  dsimp only
  split
  · exact keeps_land (keeps_doAcquire h)
  · exact keeps_land (keeps_doAcquire h)
  · exact keeps_relendIf (keeps_land (keeps_doAcquire h))
  · exact h

theorem keeps_reevalQueues {h'} (h : Keeps s t) : Keeps s (reevalQueues t h') := keeps_ite h.fields h
theorem keeps_reevalFw {h'} (h : Keeps s t) : Keeps s (reevalFw t h') := h.fields
theorem keeps_reevalEdges {h'} (h : Keeps s t) : Keeps s (reevalEdges t h') := keeps_ite h h.fields

theorem keeps_reeval {h'} (h : Keeps s t) : Keeps s (reeval t h') :=
  keeps_foldl (keeps_reevalEdges (keeps_reevalFw (keeps_reevalQueues h))) fun _ _ h => keeps_foldl h fun _ _ h => keeps_ite
    (keeps_satisfy h) h

theorem keeps_closeRounds {h' o n} (h : Keeps s t) : Keeps s (closeRounds t h' o n) := h.fields

theorem keeps_ctrAdd {h' v byt} (h : Keeps s t) : OptKeeps s (ctrAdd t h' v byt) :=
  opt_ite (keeps_reeval (keeps_closeRounds (keeps_ctrSet h))) (opt_ite trivial (keeps_reeval (keeps_closeRounds (keeps_ctrSet
    h))))

theorem keeps_fwAdd {h' v byt} (h : Keeps s t) : (fwAdd t h' v byt).Keeps s := (keeps_ctrAdd h).getD h

theorem keeps_sendCtr {x even ops fw} (h : Keeps s t) (hf : Res.Keeps s fw) : (sendCtr t x even ops fw).Keeps s := by
  unfold sendCtr
  split
  · trivial
  · split
    · exact h
    · exact hf

theorem keeps_fwWait {f until_ hit} (h : Keeps s t) : (fwWait t f until_ hit).Keeps s := by
  unfold fwWait
  dsimp only
  split
  · exact trivial
  · split
    · exact res_ite (keeps_sset h) (res_ite (keeps_sset h) (keeps_modFw h))
    · split
      · exact keeps_sset (keeps_modFw h)
      · split
        · exact res_ite (keeps_sset (keeps_modFw h)) trivial
        · exact trivial

theorem keeps_execTrap {h' f} (h : Keeps s t) : OutKeeps s (execTrap h' f t) := by
  unfold execTrap
  dsimp only
  refine keeps_runWord h fun _ h => ?_
  split
  · exact h
  · refine keeps_enterTrap ?_
    split
    · exact keeps_modCls (keeps_finishDone h)
    · exact keeps_finishDone h

theorem keeps_execRett {h' f} (h : Keeps s t) : OutKeeps s (execRett h' f t) := by
  unfold execRett
  dsimp only
  refine keeps_runWord h fun _ h => ?_
  split
  · exact h
  · exact res_ite h (res_ite (keeps_returnTrap (keeps_modCls h)) trivial)

theorem keeps_releaseAdd {c f scope h' v byt} (h : Keeps s t) : Keeps s (releaseAdd t c f scope h' v byt) := by
  unfold releaseAdd
  dsimp only
  split
  next _ _ e =>
    exact keeps_land (keeps_of_some e (keeps_ctrAdd (keeps_doRelease h)))
  · exact keeps_failOpen (keeps_systemCause (keeps_doRelease h))

theorem keeps_noteArrival {c h' dur} (h : Keeps s t) : Keeps s (noteArrival t c h' dur) := (keeps_followBarrier h).fields

theorem keeps_arriveWait {c f lend} (h : Keeps s t) : Keeps s (arriveWait t c f lend) :=
  keeps_ite (keeps_satisfy (keeps_modOp h)) (keeps_relendIf (keeps_modOp h))

theorem keeps_testOnce {c f g} (h : Keeps s t) : Keeps s (testOnce t c f g) := keeps_ite (keeps_satisfy h) (keeps_land h)
theorem keeps_srAnswer {f g change} (h : Keeps s t) : Keeps s (srAnswer t f g change).1 := keeps_setRec h
theorem keeps_srPerform {c f g change} (h : Keeps s t) : Keeps s (srPerform t c f g change) := keeps_land (keeps_srAnswer h)

theorem keeps_counterRequest {c f} (h : Keeps s t) : Keeps s (counterRequest t c f) := by
  unfold counterRequest
  dsimp only
  split
  · exact keeps_releaseAdd h
  · exact keeps_releaseAdd h
  · exact keeps_releaseAdd (keeps_modCls (keeps_noteArrival h))
  · exact keeps_land h
  · exact keeps_arriveWait h
  · exact keeps_ite (keeps_testOnce h) (keeps_arriveWait h)
  · exact keeps_arriveWait (keeps_ite (keeps_followBarrier h) h)
  · exact keeps_srPerform h
  · exact keeps_srPerform h
  · exact keeps_srPerform h
  · exact h

theorem keeps_execCounterRequestArrival {c id} (h : Keeps s t) : OutKeeps s (execCounterRequestArrival c id t) := by
  unfold execCounterRequestArrival
  split
  · exact h
  · refine out_ite h (out_ite (keeps_complete h) (out_ite h ?_))
    split
    · exact keeps_consumePoison h
    · exact keeps_counterRequest h

theorem keeps_execWaitCancelArrival {c id} (h : Keeps s t) : OutKeeps s (execWaitCancelArrival c id t) := by
  unfold execWaitCancelArrival
  split
  · exact h
  · split
    · exact out_ite (keeps_land h) h
    · exact h

theorem keeps_execNanosecondWaitExpiry {c} (h : Keeps s t) : OutKeeps s (execNanosecondWaitExpiry c t) := by
  unfold execNanosecondWaitExpiry
  split
  · exact h
  · split
    · exact keeps_complete h
    · exact keeps_modOp h

theorem keeps_execEpochRequest {c id} (h : Keeps s t) : OutKeeps s (execEpochRequest c id t) := by
  unfold execEpochRequest
  split
  · exact h
  · split
    · exact out_ite (keeps_land (keeps_doAcquire (keeps_doRelease h))) h
    · exact h

/-! ### Vec -/

theorem keeps_putV {c hot d w} (h : Keeps s t) : Keeps s (putV t c hot d w) := by
  unfold putV
  dsimp only
  split
  · exact keeps_foldl (keeps_modCls h) fun _ _ h => keeps_clearPoison h
  · exact keeps_modCls h

theorem keeps_putK {c d w} (h : Keeps s t) : Keeps s (putK t c d w) :=
  keeps_ite (keeps_modCls h) (keeps_foldl (keeps_modCls h) fun _ _ h => keeps_clearPoison h)

theorem keeps_putDesk {c hot d o} (h : Keeps s t) : Keeps s (putDesk t c hot d o) :=
  keeps_modCls (keeps_foldl (keeps_foldl h fun _ _ h => keeps_putV h) fun _ _ h => keeps_putK h)

theorem keeps_advanceGens {c ds} (h : Keeps s t) : Keeps s (advanceGens t c ds) := keeps_modCls h

theorem keeps_vecBody {i work uses} (h : Keeps s t) : (vecBody i work uses t).Keeps s := by
  unfold vecBody
  dsimp only
  refine keeps_clsOnly (res_ite trivial ?_)
  split
  · exact keeps_consumePoison h
  · exact keeps_ite (keeps_advanceGens (keeps_foldl h fun _ _ h => keeps_putDesk h)) (keeps_foldl h fun _ _ h => keeps_putDesk h)

theorem keeps_laneWord {i f b srcs g} (h : Keeps s t) : OutKeeps s (laneWord i f b srcs g t) :=
  keeps_runWord h fun _ h => keeps_vecBody h

theorem keeps_queueBody {i work uses} (h : Keeps s t) : (queueBody i work uses t).Keeps s := by
  refine keeps_clsOnly ?_
  dsimp only
  split
  · trivial
  · next q _ _ =>
    split
    · exact keeps_consumePoison h
    · have hv := keeps_vecBody (i := i) (work := work q.toNat) (uses := uses) h
      split
      · next e =>
        rw [e] at hv
        exact keeps_shiftPoison (keeps_modCls hv)
      · exact hv

theorem keeps_laneWordQ {i f b srcs g} (h : Keeps s t) : OutKeeps s (laneWordQ i f b srcs g t) :=
  keeps_runWord h fun _ h => keeps_queueBody h

/-! ### Tower -/

theorem keeps_writeTower {c d off bs} (h : Keeps s t) : Keeps s (writeTower t c d off bs) := keeps_markDirty (keeps_writeBytes h)

theorem keeps_writeLine {c d off bs p} (h : Keeps s t) : Keeps s (writeLine t c d off bs p) :=
  keeps_ite (keeps_writeTower h) (keeps_movePoison (keeps_writeTower h))

theorem keeps_writePart {c d off bs p} (h : Keeps s t) : Keeps s (writePart t c d off bs p) := by
  unfold writePart
  dsimp only
  refine keeps_ite (keeps_writeLine h) ?_
  split
  · exact keeps_setPoison (keeps_writeTower h)
  · exact keeps_writeTower h

/-! ### Space -/

theorem keeps_poolWrite {p off bs} (h : Keeps s t) : Keeps s (poolWrite t p off bs) := keeps_writePhys (keeps_noteSpan h)
theorem keeps_poolWriteNat {p off n v} (h : Keeps s t) : Keeps s (poolWriteNat t p off n v) := keeps_poolWrite h
theorem keeps_setEntry {p k e} (h : Keeps s t) : Keeps s (setEntry t p k e) := keeps_poolWriteNat h
theorem keeps_setFtop {p v} (h : Keeps s t) : Keeps s (setFtop t p v) := keeps_poolWriteNat h
theorem keeps_setNlive {p v} (h : Keeps s t) : Keeps s (setNlive t p v) := keeps_poolWriteNat h
theorem keeps_setRefCount {p b v} (h : Keeps s t) : Keeps s (setRefCount t p b v) := keeps_poolWriteNat h

theorem keeps_popBlock {p x} (h : Keeps s t) (e : popBlock t p = some x) : Keeps s x.2 := by
  simp only [popBlock, Option.ite_none_left_eq_some, Option.some.injEq] at e
  obtain ⟨-, rfl⟩ := e
  exact keeps_setFtop h

theorem keeps_pushBlock {p b} (h : Keeps s t) : Keeps s (pushBlock t p b) := keeps_setFtop (keeps_poolWriteNat h)

theorem keeps_copyBlock {p a b} (h : Keeps s t) : Keeps s (copyBlock t p a b) :=
  keeps_ite (keeps_poolWrite h) (keeps_foldl (keeps_poolWrite h) fun _ _ h => keeps_movePoison h)

theorem keeps_copyOnWrite {c va} (h : Keeps s t) : OptKeeps s (copyOnWrite t c va) := by
  unfold copyOnWrite
  dsimp only
  split
  · exact h
  · split
    · exact trivial
    next _ _ _ e =>
      exact keeps_setEntry (keeps_setRefCount (keeps_setRefCount (keeps_copyBlock (keeps_popBlock h e))))

/-! ### Stage -/

theorem keeps_moveTag {s' a b} (h : Keeps s t) : Keeps s (moveTag s' t a b) := by
  unfold moveTag
  dsimp only
  split
  · exact (keeps_movePoison h).fields
  · exact keeps_movePoison h

theorem keeps_copyFrame {a b} (h : Keeps s t) : Keeps s (copyFrame t a b) := by
  have copied : Keeps s { t with mem := copyCells t.mem a b 65536 } := h.withMem (wf_copyCells a b 65536)
  unfold copyFrame
  exact keeps_ite (copied.same rfl) (keeps_foldl (copied.same rfl) fun _ _ h => keeps_moveTag h)

theorem keeps_newShadow {t' x pa} (h : Keeps s t) : Keeps s (newShadow t t' x pa) :=
  keeps_setIptEntry (keeps_setIptEntry (keeps_modNode (keeps_copyFrame h)))

theorem keeps_stageWrite {t' c pa va bs p} (h : Keeps s t) : OptKeeps s (stageWrite t t' c pa va bs p) := by
  unfold stageWrite
  dsimp only
  split
  · exact trivial
  · exact opt_ite trivial (keeps_modNode (keeps_ite (keeps_newShadow h) h))

theorem keeps_stampWrites {c f counted} (h : Keeps s t) : Keeps s (stampWrites t c f counted) := by
  unfold stampWrites
  split
  · exact h
  · exact keeps_ite (keeps_modNode h) h

theorem keeps_writePa {pa bs p} (h : Keeps s t) : Keeps s (writePa t pa bs p) := by
  unfold writePa
  dsimp only
  refine keeps_ite (keeps_writePhys h) (keeps_ite (keeps_movePoison (keeps_writePhys h)) ?_)
  split
  · exact keeps_setPoison (keeps_writePhys h)
  · exact keeps_writePhys h

theorem keeps_kernelWrite {c pa va bs p} (h : Keeps s t) : OptKeeps s (kernelWrite t c pa va bs p) := by
  unfold kernelWrite
  split
  · exact keeps_stageWrite h
  · exact keeps_writePa h

theorem keeps_contributeAll {c m} (h : Keeps s t) : Keeps s (contributeAll t c m) :=
  keeps_foldl h fun _ _ h => keeps_contributePartial h

theorem keeps_writeVa {c held va bs p} (h : Keeps s t) : (writeVa t c held va bs p).Keeps s := by
  unfold writeVa
  split
  · split
    next _ _ e =>
      exact keeps_of_some e (keeps_kernelWrite h)
    · exact trivial
  · exact trivial
  · exact trivial
  · exact trivial

theorem keeps_writeView {c held v tiled p bs} : ∀ {t o}, Keeps s t → (writeView t c held v tiled p bs o).Keeps s := by
  induction bs with
  | nil => exact fun h => h
  | cons b bs ih =>
    intro t o h
    unfold writeView
    split
    · next e => exact ih (keeps_of_acc e (keeps_writeVa h))
    · exact keeps_writeVa h

theorem keeps_writeHandle {c held va bs p} (h : Keeps s t) : (writeHandle t c held va bs p).Keeps s := by
  unfold writeHandle
  split
  · exact trivial
  next _ _ e =>
    split
    · exact keeps_writeVa (keeps_of_some e (opt_ite (keeps_copyOnWrite h) h))
    · exact trivial

theorem keeps_writeEnd {c held e o bs p} (h : Keeps s t) : (writeEnd t c held e o bs p).Keeps s := by
  unfold writeEnd
  split
  · exact keeps_writePart h
  · exact keeps_writeVa h
  · exact keeps_writeView h
  · exact keeps_writeHandle h
  · exact h
  · exact h

theorem keeps_moveBytes {p m x o n} (h : Keeps s t) : (moveBytes p m t x o n).Keeps s := by
  unfold moveBytes
  split
  · exact trivial
  · exact trivial
  · exact h
  next _ _ _ _ e =>
    split
    · exact trivial
    · exact trivial
    · exact h
    next _ _ _ _ e =>
      exact keeps_of_acc e (keeps_writeEnd h)

theorem keeps_moveUpTo {p m n} : ∀ {o} {f : Flow}, Keeps s f.s → Keeps s (moveUpTo p m n o f).1.s := by
  induction n with
  | zero => exact fun h => h
  | succ n ih =>
    intro o f h
    unfold moveUpTo
    split
    · next e => exact ih (keeps_of_moved e (keeps_moveBytes h))
    · exact h
    · exact h

theorem keeps_moveLines {p m n} : ∀ {o} {f : Flow}, Keeps s f.s → Keeps s (moveLines p m n o f).1.s := by
  induction n with
  | zero => exact fun h => h
  | succ n ih =>
    intro o f h
    unfold moveLines
    dsimp only
    split
    · next e => exact ih (keeps_of_moved e (keeps_moveBytes h))
    · split
      · exact ih (keeps_moveUpTo h)
      · exact keeps_moveUpTo h

theorem keeps_moveAll {p ms} : ∀ {skip} {f : Flow}, Keeps s f.s → Keeps s (moveAll p ms skip f).1.s := by
  induction ms with
  | nil => exact fun h => h
  | cons m ms ih =>
    intro skip f h
    unfold moveAll
    split
    · exact ih h
    · dsimp only
      split
      · exact ih (keeps_moveLines h)
      · exact keeps_moveLines h

/-! ### Access -/

theorem addPage_s (b : Batch) (p : Option Page) : (addPage b p).s = b.s := by
  unfold addPage
  repeat' split
  all_goals rfl

theorem keeps_batchCow {c segs kdst e} {b : Batch} (h : Keeps s b.s) : Keeps s (batchCow c segs kdst b e).s := by
  unfold batchCow
  split
  · split
    · exact h
    · split
      · next e =>
        split
        · exact keeps_of_some e (keeps_copyOnWrite h)
        · exact h
      · split
        · exact h
        · exact h
  · exact h

theorem keeps_addPages {f : Nat → Option Page} {l : List Nat} {b : Batch} (h : Keeps s b.s) :
    Keeps s (l.foldl (fun (b : Batch) a => addPage b (f a)) b).s :=
  List.foldlRecOn (motive := fun b : Batch => Keeps s b.s) l _ h fun b hb a _ => by rwa [addPage_s]

theorem keeps_addMove {c segs kdst m} {b : Batch} (h : Keeps s b.s) : Keeps s (addMove c segs kdst b m).s := by
  unfold addMove
  split
  · exact h
  · refine List.foldlRecOn (motive := fun b : Batch => Keeps s b.s) _ _ h fun b hb o _ => keeps_addPages ?_
    split
    · exact keeps_batchCow (keeps_addPages hb)
    · exact keeps_addPages hb

theorem keeps_firstBatch {c segs kdst ms} (h : Keeps s t) : Keeps s (firstBatch t c segs kdst ms).s :=
  List.foldlRecOn (motive := fun b : Batch => Keeps s b.s) ms _ h fun _ hb _ _ => keeps_addMove hb

theorem keeps_accessBody {i c r check ops} (h : Keeps s t) : (accessBody i t c r check ops).Keeps s := by
  unfold accessBody
  dsimp only
  split
  · exact keeps_consumePoison h
  · split
    · exact trivial
    · split
      · exact trivial
      · split
        · exact trivial
        · split
          · exact trivial
          · split
            · exact res_ite trivial (keeps_modCls h)
            · exact keeps_modCls (keeps_firstBatch h)

theorem keeps_haltA {c va cause kind table ord prog} (h : Keeps s t) : Keeps s (haltA t c va cause kind table ord prog) :=
  keeps_causeEvent (keeps_modCls (keeps_setCause h))

theorem keeps_execPageWalkComplete {c} (h : Keeps s t) : OutKeeps s (execPageWalkComplete c t) := by
  unfold execPageWalkComplete
  dsimp only
  split
  · exact h
  · split
    · exact keeps_modCls h
    · split
      · exact h
      · exact keeps_modCls h
      · exact keeps_haltA h

/-! ### AArith -/

theorem keeps_aqWord {i cond} (h : Keeps s t) : OutKeeps s (aqWord i cond t) :=
  keeps_runWord h fun _ h => keeps_clsOnly (res_ite (keeps_pushQb h) trivial)

/-! ### Copy -/

theorem keeps_execCopy {h' f} (h : Keeps s t) : OutKeeps s (execCopy h' f t) := by
  unfold execCopy
  dsimp only
  refine keeps_runWord h fun _ h => keeps_clsOnly ?_
  split
  · exact trivial
  · exact keeps_accessBody h

theorem keeps_execCopy2d {h' f} (h : Keeps s t) : OutKeeps s (execCopy2d h' f t) := by
  unfold execCopy2d
  dsimp only
  refine keeps_runWord h fun _ h => keeps_clsOnly ?_
  split
  · exact trivial
  · split
    · exact trivial
    · exact keeps_accessBody h

theorem keeps_rowBody {i f gather} (h : Keeps s t) : (rowBody i f gather t).Keeps s := by
  unfold rowBody
  dsimp only
  refine keeps_clsOnly ?_
  split
  · exact trivial
  · refine res_ite (res_ite trivial ?_) (keeps_accessBody h)
    split
    · exact keeps_consumePoison (keeps_modCls h)
    · exact keeps_modCls h

theorem keeps_execBrefill {h' f} (h : Keeps s t) : OutKeeps s (execBrefill h' f t) := by
  unfold execBrefill
  dsimp only
  refine keeps_runWord h fun _ h => keeps_clsOnly ?_
  split
  · exact trivial
  · exact res_ite trivial (keeps_accessBody h)

/-! ### Pool -/

theorem keeps_kvWord {i f} (h : Keeps s t) : OutKeeps s (kvWord i f t) := by
  unfold kvWord
  refine keeps_runWord h fun _ h => keeps_clsOnly ?_
  split
  · exact trivial
  · exact h

theorem keeps_addEntry {p k key b} (h : Keeps s t) : Keeps s (addEntry t p k key b).2 := keeps_setNlive (keeps_setEntry h)

theorem keeps_zeroBlock {p b} (h : Keeps s t) : Keeps s (zeroBlock t p b) :=
  keeps_ite (keeps_poolWrite h) (keeps_foldl (keeps_poolWrite h) fun _ _ h => keeps_clearPoison h)

theorem keeps_kvMap {p key} (h : Keeps s t) : Keeps s (kvMap t p key).2.2 := by
  unfold kvMap
  split
  · exact h
  · split
    · next e => exact keeps_addEntry (keeps_setRefCount (keeps_zeroBlock (keeps_popBlock h e)))
    · exact h

theorem keeps_kvShare {p new old} (h : Keeps s t) : Keeps s (kvShare t p new old).2.2 := by
  unfold kvShare
  split
  · exact h
  · split
    · exact h
    · dsimp only
      split
      · exact h
      · split
        · exact h
        · exact keeps_addEntry (keeps_setRefCount h)

theorem keeps_freeEntry {p seq k} {x : Nat × State} (h : Keeps s x.2) : Keeps s (freeEntry p seq x k).2 := by
  unfold freeEntry
  dsimp only
  split
  · have freed : Keeps s (setRefCount (setNlive (setEntry x.2 p k { getEntry x.2 p k with v := false, t := true }) p (nlive x.2 p
      - 1)) p
      (getEntry x.2 p k).block (refCount x.2 p (getEntry x.2 p k).block - 1)) := keeps_setRefCount (keeps_setNlive
        (keeps_setEntry h))
    exact keeps_ite (keeps_pushBlock freed) freed
  · exact h

theorem keeps_kvFree {p seq} (h : Keeps s t) : Keeps s (kvFree t p seq).2 :=
  List.foldlRecOn (motive := fun x : Nat × State => Keeps s x.2) _ _ h fun _ hx _ _ => keeps_freeEntry hx

theorem keeps_setA {c n v} (h : Keeps s t) : Keeps s (setA t c n v) := keeps_modCls h

theorem keeps_execMapOpArrival {c id} (h : Keeps s t) : OutKeeps s (execMapOpArrival c id t) := by
  unfold execMapOpArrival
  dsimp only
  split
  · exact h
  · refine out_ite h ?_
    split
    · refine ?_
      split
      · exact h
      · refine keeps_ite h ?_
        split
        · exact keeps_consumeAt h
        · exact keeps_complete (keeps_setS (keeps_setA (keeps_kvMap h)))
    · refine ?_
      split
      · exact h
      · refine keeps_ite h ?_
        split
        · exact keeps_consumeAt h
        · exact keeps_complete (keeps_setS (keeps_setA (keeps_kvShare h)))
    · refine ?_
      split
      · exact h
      · refine keeps_ite h ?_
        split
        · exact keeps_consumeAt h
        · exact keeps_complete (keeps_setS (keeps_kvFree h))
    · exact h

/-! ### Atomic -/

theorem keeps_amoWord {i f} (h : Keeps s t) : OutKeeps s (amoWord i f t) :=
  keeps_runWord h fun _ h => keeps_clsOnly (res_ite trivial (res_ite trivial (keeps_accessBody h)))

theorem keeps_amoTarget {c f} (h : Keeps s t) : Keeps s (amoTarget t c f).1 := by
  unfold amoTarget
  split
  · exact h
  · split
    · exact h
    · next u e =>
      split
      · exact keeps_of_some e (opt_ite (keeps_copyOnWrite h) h)
      · exact h
  · exact h

theorem keeps_amoCommit {f g pa va o} (h : Keeps s t) : Keeps s (amoCommit t f g pa va o) := keeps_writePhysNat (keeps_noteSpan h)
theorem keeps_amoAnswer {c f g o} (h : Keeps s t) : Keeps s (amoAnswer t c f g o) := keeps_complete (keeps_ite (keeps_pushQs h) h)

theorem keeps_amoFinish {c f g pa va o} (h : Keeps s t) : Keeps s (amoFinish t c f g pa va o) :=
  keeps_amoAnswer (keeps_amoCommit h)

theorem keeps_amoPerform {c f g pa va} (h : Keeps s t) : Keeps s (amoPerform t c f g pa va) := keeps_amoFinish h
theorem keeps_amoRead {c f g pa va} (h : Keeps s t) : Keeps s (amoRead t c f g pa va) := keeps_modOp h

theorem keeps_amoWrite {c f g} (h : Keeps s t) : Keeps s (amoWrite t c f g) := keeps_amoFinish h

/-! ### VMem -/

theorem keeps_storeSeg {c g} (h : Keeps s t) : Keeps s (storeSeg c t g) := keeps_ite (keeps_writeLine h) (keeps_writeTower h)
theorem keeps_storePass {c n gs} (h : Keeps s t) : Keeps s (storePass t c n gs) := keeps_foldl h fun _ _ h => keeps_storeSeg h

theorem keeps_loadSeg {c r g} (h : Keeps s t) : Keeps s (loadSeg c r t g) := by
  unfold loadSeg
  dsimp only
  refine keeps_ite ?_ (keeps_modCls h)
  split
  · exact keeps_movePoison (keeps_modCls h)
  · exact keeps_modCls h

theorem keeps_vmEnd {c f load h' gs} (h : Keeps s t) : Keeps s (vmEnd t c f load h' gs) :=
  keeps_ite (keeps_foldl h fun _ _ h => keeps_loadSeg h) (keeps_ite (keeps_contribute h) h)

theorem keeps_vmPass {c n load gs} (h : Keeps s t) : Keeps s (vmPass t c n load gs).1 := by
  unfold vmPass
  split
  · exact h
  · exact keeps_storePass h

theorem keeps_vmWord {i f p load} (h : Keeps s t) : OutKeeps s (vmWord i f p load t) := by
  refine keeps_runWord h fun u h => keeps_clsOnly ?_
  dsimp only
  split
  · trivial
  · split
    · exact keeps_consumePoison h
    · exact res_ite (keeps_vmEnd (keeps_vmPass h)) (keeps_vmPass h)

theorem keeps_vmAdvance {c o f load} (h : Keeps s t) : Keeps s (vmAdvance t c o f load) := by
  unfold vmAdvance
  dsimp only
  split
  · exact keeps_consumeAt h
  · exact keeps_ite (keeps_complete (keeps_vmEnd (keeps_vmPass h))) (keeps_modOp (keeps_vmPass h))

theorem keeps_advanceV {c o} (h : Keeps s t) : Keeps s (advanceV t c o) := by
  unfold advanceV
  split
  · exact keeps_vmAdvance h
  · exact h

/-! ### Matrix -/

theorem keeps_putTile {c d t' v} (h : Keeps s t) : Keeps s (putTile t c d t' v) :=
  keeps_ite (keeps_modCls h) (keeps_foldl (keeps_modCls h) fun _ _ h => keeps_clearPoison h)

theorem keeps_noFormat {k} : (noFormat k).Keeps s := res_ite trivial trivial
theorem keeps_popQf {c} (h : Keeps s t) : Keeps s (popQf t c) := keeps_shiftPoison (keeps_modCls h)
theorem keeps_runWaves {c} (h : Keeps s t) : Keeps s (runWaves t c).1 := keeps_modCls h

theorem keeps_stepBody {p f} (h : Keeps s t) : (stepBody p f t).Keeps s := by
  unfold stepBody
  dsimp only
  refine keeps_clsOnly ?_
  split
  · exact keeps_noFormat
  · refine res_ite trivial (res_ite trivial ?_)
    split
    · exact keeps_consumePoison h
    · exact keeps_runWaves (keeps_popQf h)

theorem keeps_waveTiles {p zero c o f ds} (h : Keeps s t) : Keeps s (waveTiles p zero t c o f ds) :=
  keeps_foldl h fun _ _ h => keeps_modCls (keeps_putTile h)

theorem keeps_nextStage {c o n} (h : Keeps s t) : Keeps s (nextStage t c o n) := keeps_ite (keeps_complete h) (keeps_modOp h)

theorem keeps_stepWave {p zero c o f} (h : Keeps s t) : Keeps s (stepWave p zero t c o f) := by
  unfold stepWave
  dsimp only
  split
  · exact keeps_consumeAt h
  · exact keeps_nextStage (keeps_waveTiles h)

theorem keeps_loadRow {c t' a d g} (h : Keeps s t) : Keeps s (loadRow c t' a d t g) :=
  keeps_ite (keeps_modCls h) (keeps_movePoison (keeps_modCls h))

theorem keeps_mldcStage {c o f} (h : Keeps s t) : Keeps s (mldcStage t c o f) :=
  keeps_nextStage (keeps_foldl h fun _ _ h => keeps_foldl h fun _ _ h => keeps_loadRow h)

theorem keeps_storeRow {c t' a d g} (h : Keeps s t) : Keeps s (storeRow c t' a d t g) := keeps_writeLine h

theorem keeps_mstcStage {c o f} (h : Keeps s t) : Keeps s (mstcStage t c o f) :=
  keeps_nextStage (keeps_ite (keeps_contribute (keeps_foldl h fun _ _ h => keeps_foldl h fun _ _ h => keeps_storeRow h))
    (keeps_foldl h fun _ _ h => keeps_foldl h fun _ _ h => keeps_storeRow h))

theorem keeps_execMstat {h' f} (h : Keeps s t) : OutKeeps s (execMstat h' f t) :=
  keeps_runWord h fun _ h => keeps_clsOnly (res_ite trivial (res_ite trivial (keeps_foldl h fun _ _ h => keeps_writeLine h)))

theorem keeps_qIssue {p fw sd c} (h : Keeps s t) : (qIssue p fw sd t c).Keeps s := keeps_runWaves h

theorem keeps_qBody {p f} (h : Keeps s t) : (qBody p f t).Keeps s := by
  unfold qBody
  dsimp only
  refine keeps_clsOnly ?_
  split
  · exact res_ite trivial (keeps_qIssue h)
  · split
    · exact keeps_noFormat
    · split
      · exact keeps_consumePoison h
      · exact res_ite trivial (res_ite trivial (res_ite trivial (keeps_qIssue (keeps_popQf h))))

theorem keeps_qEnd {f c o ovf} (h : Keeps s t) : Keeps s (qEnd f t c o ovf) := keeps_complete (keeps_contribute h)

theorem keeps_qWrite {p f os c o} (h : Keeps s t) : Keeps s (qWrite p f os t c o) :=
  keeps_ite (keeps_modOp (keeps_ite (keeps_advanceGens (keeps_foldl h fun _ _ h => keeps_modCls h)) (keeps_foldl h fun _ _ h =>
    keeps_modCls h))) (keeps_qEnd (keeps_foldl (keeps_ite (keeps_advanceGens (keeps_foldl h fun _ _ h => keeps_modCls h))
    (keeps_foldl h fun _ _ h => keeps_modCls h)) fun _ _ h => keeps_foldl h fun _ _ h => keeps_putV h))

theorem keeps_qDone {p f c o} (h : Keeps s t) : Keeps s (qDone p f t c o) := by
  unfold qDone
  dsimp only
  split
  · exact keeps_ite (keeps_modOp h) (keeps_qWrite h)
  · exact keeps_qWrite h

theorem keeps_qStage {p f c o} (h : Keeps s t) : Keeps s (qStage p f t c o) := by
  unfold qStage
  dsimp only
  refine keeps_ite (keeps_ite (keeps_qEnd (keeps_storePass h)) (keeps_modOp (keeps_storePass h))) ?_
  split
  · exact keeps_consumeAt h
  · exact keeps_ite (keeps_qDone h) (keeps_modOp h)

theorem keeps_advanceM {c o} (h : Keeps s t) : Keeps s (advanceM t c o) := by
  unfold advanceM
  split
  · exact keeps_stepWave h
  · exact keeps_stepWave h
  · exact keeps_stepWave h
  · exact keeps_stepWave h
  · exact keeps_stepWave h
  · exact keeps_stepWave h
  · exact keeps_stepWave h
  · exact keeps_stepWave h
  · exact keeps_mldcStage h
  · exact keeps_mstcStage h
  · exact keeps_qStage h
  · exact keeps_qStage h
  · exact keeps_qStage h
  · exact h

theorem keeps_execTrapMerge {c} (h : Keeps s t) : OutKeeps s (execTrapMerge c t) := by
  unfold execTrapMerge
  dsimp only
  split
  · exact h
  · exact keeps_raiseLater (keeps_modOp (keeps_setRec h))

/-! ### Refresh -/

theorem keeps_stopRefill {d f} (h : Keeps s t) : Keeps s (stopRefill t d f) :=
  keeps_ite (keeps_modOp (keeps_moveAll (keeps_bump h))) (keeps_ite (keeps_modOp (keeps_modOp (keeps_moveAll (keeps_bump h))))
    (keeps_modCls (keeps_setS (keeps_modOp (keeps_moveAll (keeps_bump h))))))

theorem keeps_force {c} (h : Keeps s t) : Keeps s (force t c) := by
  unfold force
  dsimp only
  split
  · exact h
  · exact keeps_raiseLater (keeps_foldl (keeps_modCls h) fun _ _ h => keeps_foldl h fun _ _ h => keeps_stopRefill h)

theorem keeps_execRefillReinject {c id} (h : Keeps s t) : OutKeeps s (execRefillReinject c id t) := by
  unfold execRefillReinject
  split
  · exact h
  · exact keeps_ite (keeps_modOp h) h

/-! ### Exchange -/

theorem keeps_putRegUnit {c d r u'} (h : Keeps s t) : Keeps s (putRegUnit t c d r u') := by
  unfold putRegUnit
  dsimp only
  refine keeps_ite (keeps_modCls h) (keeps_foldl (keeps_modCls h) fun _ _ h => ?_)
  split
  · exact keeps_movePoison h
  · exact h

theorem keeps_putTowerUnit {c d off u'} (h : Keeps s t) : Keeps s (putTowerUnit t c d off u') :=
  keeps_foldl h fun _ _ h => keeps_writeLine h

theorem keeps_putUnit {c d t' u'} (h : Keeps s t) : Keeps s (putUnit t c d t' u') := by
  unfold putUnit
  split
  · exact keeps_putRegUnit h
  · exact keeps_putTowerUnit h

theorem keeps_shiftBody {f t' us} (h : Keeps s t) : (shiftBody t f t' us).Keeps s :=
  res_ite h (keeps_foldl h fun _ _ h => keeps_putUnit h)

theorem keeps_execXsht {h' f} (h : Keeps s t) : OutKeeps s (execXsht h' f t) := by
  unfold execXsht
  dsimp only
  refine keeps_runWord h fun _ h => keeps_clsOnly ?_
  split
  · exact trivial
  · exact res_ite (keeps_shiftBody h) trivial

theorem keeps_shiftAll {t' shape} (h : Keeps s t) : Keeps s (shiftAll t t' shape) := by
  unfold shiftAll
  dsimp only
  refine keeps_ite h (keeps_foldl (keeps_foldl h fun _ _ h => ?_) fun _ _ h => ?_)
  · split
    · exact h
    · exact keeps_putUnit h
  · split
    · exact keeps_complete h
    · exact h

theorem keeps_xferBody {i f send} (h : Keeps s t) : (xferBody i f send t).Keeps s := by
  unfold xferBody
  dsimp only
  refine keeps_clsOnly ?_
  split
  · exact trivial
  · exact h

theorem keeps_execXbcast {h' f} (h : Keeps s t) : OutKeeps s (execXbcast h' f t) := by
  unfold execXbcast
  dsimp only
  refine keeps_runWord h fun _ h => keeps_clsOnly ?_
  split
  · exact trivial
  · exact h

theorem keeps_modSender {c team id g} (h : Keeps s t) : Keeps s (modSender t c team id g) := by
  unfold modSender
  split
  · exact keeps_modOp h
  · exact keeps_modCls h

theorem keeps_senderRecord {c team code unit detail} (h : Keeps s t) : Keeps s (senderRecord t c team code unit detail) := by
  unfold senderRecord
  split
  · exact keeps_bbClass h
  · exact keeps_bbRecord h

theorem keeps_heldCause {c code t' f tinfo} (h : Keeps s t) : Keeps s (heldCause t c code t' f tinfo) := keeps_pushEvent h

theorem keeps_heldPoison {c t' f kind u' va} (h : Keeps s t) : Keeps s (heldPoison t c t' f kind u' va) :=
  keeps_ite (keeps_failNodeOpen (keeps_msix (keeps_senderRecord (keeps_heldCause h)))) (keeps_requestKill (keeps_senderRecord
    (keeps_heldCause h)))

theorem keeps_countedAdd {c team f} (h : Keeps s t) : Keeps s (countedAdd t c team f) := by
  unfold countedAdd
  dsimp only
  refine keeps_ite ?_ h
  split
  · exact keeps_consumeAt h
  · exact keeps_heldPoison h
  · exact (keeps_ctrAdd h).getD h

theorem keeps_noteSeen {c src seq} (h : Keeps s t) : Keeps s (noteSeen t c src seq) := keeps_modCls h

theorem keeps_linkDelivers {pkg} (h : Keeps s t) : Keeps s (linkDelivers t pkg) := by
  unfold linkDelivers
  split
  · exact h.fields
  · exact h

theorem keeps_sendFar {pkg m} (h : Keeps s t) : Keeps s (sendFar t pkg m) := keeps_ite (keeps_send (keeps_linkDelivers h)) h

theorem keeps_putLines {c e ls} (h : Keeps s t) : Keeps s (putLines t c e ls) := by
  refine keeps_foldl h fun u x hu => ?_
  split
  · next e => exact keeps_of_acc e (keeps_writeEnd hu)
  · exact hu

theorem keeps_landXfer {c team f j} (h : Keeps s t) : Keeps s (landXfer t c team f j) := keeps_countedAdd (keeps_moveAll h)

theorem keeps_landHeld {c} (h : Keeps s t) : Keeps s (landHeld t c) := by
  unfold landHeld
  refine keeps_foldl h fun _ _ h => ?_
  split
  · exact keeps_ite (keeps_modOp (keeps_landXfer h)) (keeps_landNow h)
  · exact h

theorem keeps_deliveryFault {c f seq team} (h : Keeps s t) : Keeps s (deliveryFault t c f seq team) := by
  unfold deliveryFault
  dsimp only
  split
  · exact keeps_killOn (keeps_bbClass (keeps_systemCause h))
  · exact keeps_requestKill (keeps_senderRecord (keeps_heldCause h))

theorem keeps_heldArrival {t' c f tb} (h : Keeps s t) : Keeps s (heldArrival t t' c f tb) :=
  keeps_modTeam ((keeps_followBarrier h).fields)

theorem keeps_heldAdd {tm c f v byt} (h : Keeps s t) : Keeps s (heldAdd t tm c f v byt).1 := by
  unfold heldAdd
  split
  · next e => exact keeps_of_some e (keeps_ctrAdd (keeps_landTransit h))
  · exact keeps_failNodeOpen (keeps_heldCause h)

theorem keeps_heldPhase {t' c} (h : Keeps s t) : Keeps s (heldPhase t t' c) := keeps_modNode h

theorem keeps_heldAtomic {tm c f g} (h : Keeps s t) : Keeps s (heldAtomic t tm c f g).1 := by
  unfold heldAtomic
  dsimp only
  split
  · exact keeps_amoCommit h
  · split
    · exact keeps_heldPoison h
    · split
      · exact keeps_amoCommit h
      · split
        · exact h
        · exact h

theorem keeps_performHeld {tm c f j} (h : Keeps s t) : Keeps s (performHeld t tm c f j).1 := by
  unfold performHeld
  split
  · exact keeps_heldPoison h
  · dsimp only
    split
    · exact keeps_heldAdd h
    · exact keeps_heldAdd h
    · exact keeps_heldAdd (keeps_heldArrival h)
    · exact h
    · exact keeps_setRec h
    · exact keeps_setRec h
    · exact keeps_setRec h
    · exact keeps_heldPhase h
    · exact h
    · split
      · exact keeps_heldAtomic h
      · exact keeps_landXfer h

theorem keeps_ownArrival {c seq} (h : Keeps s t) : Keeps s (ownArrival t c seq) := by
  unfold ownArrival
  split
  · exact h
  · refine keeps_ite h (keeps_ite (keeps_ite h (keeps_modSender (keeps_sendFar h))) ?_)
    split
    · exact keeps_noteSeen (keeps_modOp (keeps_ite h (keeps_landXfer h)))
    · split
      · next e => exact keeps_of_fst e (keeps_performHeld h)
      · next e =>
        have held := keeps_of_fst e (keeps_performHeld h)
        exact keeps_ite (keeps_noteSeen (keeps_modSender held)) (keeps_modSender held)

theorem keeps_farAnswer {c seq ls} (h : Keeps s t) : Keeps s (farAnswer t c seq ls) := by
  unfold farAnswer
  dsimp only
  split
  · exact h
  · exact keeps_ite h (keeps_ite (keeps_landHeld (keeps_modSender h)) (keeps_modSender h))

theorem keeps_noteAnswer {c src seq ls} (h : Keeps s t) : Keeps s (noteAnswer t c src seq ls) := keeps_modCls (keeps_noteSeen h)

theorem keeps_farAdd {r} (h : Keeps s t) : OptKeeps s (farAdd t r) := by
  unfold farAdd
  split
  · exact h
  · exact opt_ite trivial (keeps_ite ((keeps_ctrAdd h).getD h) h)

theorem keeps_farArrival {pkg seq r} (h : Keeps s t) : Keeps s (farArrival t pkg seq r) := by
  unfold farArrival
  dsimp only
  refine keeps_ite (keeps_sendFar h) (keeps_ite (keeps_sendFar h) ?_)
  split
  · exact keeps_sendFar (keeps_noteAnswer h)
  · split
    next _ _ e =>
      exact keeps_sendFar (keeps_noteSeen (keeps_of_some e (keeps_farAdd (keeps_foldl h fun _ _ h => keeps_putLines h))))
    · exact keeps_sendFar (keeps_bbRecord (keeps_foldl h fun _ _ h => keeps_putLines h))

theorem keeps_execCorridorRequestArrival {src seq} (h : Keeps s t) : OutKeeps s (execCorridorRequestArrival src seq t) := by
  unfold execCorridorRequestArrival
  refine ?_
  split
  · exact keeps_ownArrival h
  · exact keeps_farArrival h
  · exact keeps_farAnswer h
  · split
    · exact h
    · exact keeps_ite (keeps_deliveryFault h) h

theorem keeps_execCorridorAckTimeout {c seq} (h : Keeps s t) : OutKeeps s (execCorridorAckTimeout c seq t) := by
  unfold execCorridorAckTimeout
  dsimp only
  split
  · exact h
  · exact out_ite h (out_ite (keeps_senderRecord (keeps_modSender h)) (keeps_deliveryFault h))

/-! ### Host -/

theorem keeps_writeRecord {e status nrb flags inst} (h : Keeps s t) : Keeps s (writeRecord t e status nrb flags inst) :=
  keeps_ite h (keeps_writePhys h)

theorem keeps_entryIrq {k q e} (h : Keeps s t) : Keeps s (entryIrq t k q e) := keeps_ite (keeps_msix h) h

theorem keeps_finishEntry {k q e status} (h : Keeps s t) : Keeps s (finishEntry t k q e status) :=
  keeps_entryIrq (keeps_writeRecord h)

theorem keeps_restartHm {k q} (h : Keeps s t) : Keeps s (restartHm t k q) := keeps_modQueue h
theorem keeps_consumed {k q} (h : Keeps s t) : Keeps s (consumed t k q) := keeps_restartHm (keeps_modQueue h)
theorem keeps_hostAdd {h' v} (h : Keeps s t) : Keeps s (hostAdd t h' v) := (keeps_ctrAdd h).getD h

theorem keeps_execEntryCadd {k q} (h : Keeps s t) : OutKeeps s (execEntryCadd k q t) := by
  unfold execEntryCadd
  dsimp only
  refine out_ite ?_ h
  split
  · exact keeps_finishEntry (keeps_consumed h)
  · exact keeps_finishEntry (keeps_ite (keeps_consumed h) (keeps_hostAdd (keeps_consumed h)))

theorem keeps_execEntryCwait {k q} (h : Keeps s t) : OutKeeps s (execEntryCwait k q t) := by
  unfold execEntryCwait
  dsimp only
  refine out_ite ?_ h
  split
  · exact keeps_finishEntry (keeps_consumed h)
  · exact keeps_modQueue (keeps_consumed h)

theorem keeps_execEntryCwaitSatisfied {k q} (h : Keeps s t) : OutKeeps s (execEntryCwaitSatisfied k q t) := by
  unfold execEntryCwaitSatisfied
  split
  · exact h
  · exact out_ite (keeps_finishEntry (keeps_modQueue h)) h

theorem keeps_finishInstance {i} (h : Keeps s t) : Keeps s (finishInstance t i) := by
  unfold finishInstance
  dsimp only
  refine (keeps_entryIrq (keeps_ite ?_ (keeps_writeRecord h))).fields
  split
  next _ _ e =>
    exact keeps_of_some e (keeps_ctrAdd (keeps_writeRecord h))
  · exact keeps_bbRecord (keeps_writeRecord h)

theorem keeps_execInstanceEnd {inst} (h : Keeps s t) : OutKeeps s (execInstanceEnd inst t) := by
  unfold execInstanceEnd
  split
  · exact h
  · exact keeps_ite (keeps_finishInstance h) h

/-! ### Launch -/

theorem keeps_keepSegs {i} (h : Keeps s t) : Keeps s (keepSegs t i) := keeps_ite (keeps_modPart h) h

theorem keeps_refuseLaunch {k q e status} (h : Keeps s t) : Keeps s (refuseLaunch t k q e status) :=
  keeps_finishEntry (keeps_pushEvent (keeps_bumpBy h))

theorem keeps_execLaunchAcceptance {k q} (h : Keeps s t) : OutKeeps s (execLaunchAcceptance k q t) := by
  unfold execLaunchAcceptance
  dsimp only
  split
  · exact h
  · refine out_ite (keeps_modQueue h) ?_
    split
    · exact keeps_refuseLaunch (keeps_consumed (keeps_modQueue h))
    · exact keeps_keepSegs ((keeps_consumed (keeps_modQueue h)).fields)

theorem keeps_zeroCounters {lo n} (h : Keeps s t) : Keeps s (zeroCounters t lo n) := h.fields

theorem keeps_execInstanceStart {inst} (h : Keeps s t) : OutKeeps s (execInstanceStart inst t) := by
  unfold execInstanceStart
  dsimp only
  split
  · exact h
  · refine out_ite h ?_
    split
    · exact h
    · exact keeps_modInst (keeps_zeroCounters h)

theorem keeps_execNodeReady {inst node} (h : Keeps s t) : OutKeeps s (execNodeReady inst node t) := by
  unfold execNodeReady
  split
  · exact h
  · exact out_ite (keeps_modNode h) h

/-! ### Image -/

theorem keeps_restoreCells {tm i} (h : Keeps s t) : Keeps s (restoreCells t tm i) :=
  ⟨fun w => wf_restoreCells tm i (h.mem w), h.born, h.clock⟩

/-! ### Team -/

theorem keeps_dispatchMember {t' r idx args h0 pceil c rank} (h : Keeps s t) :
    Keeps s (dispatchMember t t' r idx args h0 pceil c rank) :=
  keeps_doAcquire (keeps_modCls ((keeps_writeBytes (keeps_modCls h)).fields))

theorem keeps_dispatch {i node ord cs} (h : Keeps s t) : Keeps s (dispatch t i node ord cs) :=
  keeps_foldl h.fields fun _ _ h => keeps_dispatchMember h

theorem keeps_leaveClasses {cs} (h : Keeps s t) : Keeps s (leaveClasses t cs) :=
  keeps_ite (keeps_foldl h fun _ _ h => keeps_modCls h) ((keeps_foldl h fun _ _ h => keeps_modCls h).fields)

theorem keeps_endTeam {t'} (h : Keeps s t) : Keeps s (endTeam t t') := keeps_relend ((keeps_leaveClasses h).fields)

theorem keeps_execExit {h'} (h : Keeps s t) : OutKeeps s (execExit h' t) := by
  unfold execExit
  dsimp only
  refine keeps_runWord h fun _ h => ?_
  split
  · exact h
  · refine res_ite trivial ?_
    split
    · exact keeps_modCls (keeps_doRelease h)
    · exact keeps_ite (keeps_endTeam (keeps_modTeam (keeps_modCls (keeps_doRelease h)))) (keeps_modTeam (keeps_modCls
        (keeps_doRelease h)))

theorem keeps_placeAt {x cs} (h : Keeps s t) : Keeps s (placeAt t x cs) := by
  unfold placeAt
  dsimp only
  split
  · exact keeps_modTeam h.fields
  · split
    · exact h
    · exact keeps_modNode (keeps_relend (keeps_dispatch h))

theorem keeps_scan {n} : ∀ {t}, Keeps s t → Keeps s (scan n t) := by
  induction n with
  | zero => exact fun h => h
  | succ n ih =>
    intro t h
    unfold scan
    split
    · exact h
    · exact ih (keeps_placeAt h)

theorem keeps_drainTeam {t'} (h : Keeps s t) : Keeps s (drainTeam t t') := keeps_modTeam h
theorem keeps_releaseTeam {t'} (h : Keeps s t) : Keeps s (releaseTeam t t') := keeps_foldl h fun _ _ h => keeps_doRelease h

theorem keeps_discardTeam {t'} (h : Keeps s t) : Keeps s (discardTeam t t') :=
  keeps_relend ((keeps_modNode (keeps_leaveClasses (keeps_releaseTeam h))).fields)

/-- What saving a team comes to where its image fits at `off` (R119, R280). -/
def savedTeam (s : State) (t : Team) (off : Nat) : State :=
  let saved := t.classes.foldl (fun s c => landHeld (leaveClass s c) c) (releaseTeam s t)
  let img := captureTeam saved t (recResid (snapOf saved t.inst t.node).record) off
  let el := elapsedOf saved t
  let kept := t.classes.map fun c => (c, routedOps saved t c)
  let left := leaveClasses (bumpBy saved t.classes.length) t.classes
  let left := kept.foldl (fun s x => modCls s x.1 fun k => { k with router := k.router ++ x.2 }) left
  relend (modTeam left t.id fun u => { u with state := .saving, image := some img, elapsed := el, decidedAt := left.ticks8 })

/-- A team is saved where its image fits, else drained (R271). The function is unfolded before it is applied: the kernel would
otherwise compute the place of the image in a state that is not known. -/
theorem saveTeam_eq (s : State) (t : Team) : saveTeam s t = (imagePlace s t).elim (drainTeam s t) (savedTeam s t) := by
  have body : ∃ F, saveTeam = F ∧ ∀ s t, F s t = (imagePlace s t).elim (drainTeam s t) (savedTeam s t) :=
    ⟨_, by delta saveTeam; rfl, fun s t => by cases imagePlace s t <;> rfl⟩
  obtain ⟨F, rfl, h⟩ := body
  exact h s t

theorem keeps_saveTeam {tm} (h : Keeps s t) : Keeps s (saveTeam t tm) := by
  rw [saveTeam_eq]
  cases imagePlace t tm with
  | none => exact keeps_drainTeam h
  | some off =>
    exact keeps_relend (keeps_modTeam (keeps_foldl (keeps_leaveClasses (keeps_bumpBy (keeps_foldl (keeps_releaseTeam h) fun _ _ h
      => keeps_landHeld (keeps_leaveClass h)))) fun _ _ h => keeps_modCls h))

theorem keeps_actOn {t' a} (h : Keeps s t) : Keeps s (actOn t t' a) := by
  unfold actOn
  split
  · exact keeps_drainTeam h
  · exact keeps_discardTeam h
  · exact keeps_saveTeam h

theorem keeps_sendDecision {t' a} (h : Keeps s t) : Keeps s (sendDecision t t' a) := keeps_ite (keeps_sendPair h) h

theorem keeps_execVictimDecision {team} (h : Keeps s t) : OutKeeps s (execVictimDecision team t) := by
  unfold execVictimDecision
  dsimp only
  split
  · exact h
  · split
    · exact h
    · exact out_ite (keeps_actOn (keeps_sendDecision h)) (keeps_modTeam h)

theorem keeps_execDrainBoundExpiry {team} (h : Keeps s t) : OutKeeps s (execDrainBoundExpiry team t) := by
  unfold execDrainBoundExpiry
  dsimp only
  split
  · exact h
  · exact out_ite h (out_ite (keeps_actOn (keeps_sendDecision h)) (keeps_modTeam h))

theorem keeps_cleanImage {t' i} (h : Keeps s t) : Keeps s (cleanImage t t' i) := keeps_ite h h.fields

theorem keeps_execSaveComplete {team} (h : Keeps s t) : OutKeeps s (execSaveComplete team t) := by
  unfold execSaveComplete
  dsimp only
  split
  · exact h
  · refine out_ite (keeps_modTeam ?_) h
    split
    · exact keeps_cleanImage h
    · exact h

theorem keeps_resumeMember {team c m} (h : Keeps s t) : Keeps s (resumeMember t team c m) :=
  keeps_ite (keeps_doAcquire (keeps_modCls (keeps_modCls h))) (keeps_landHeld (keeps_doAcquire (keeps_modCls (keeps_modCls h))))

theorem keeps_execResumeComplete {team} (h : Keeps s t) : OutKeeps s (execResumeComplete team t) := by
  unfold execResumeComplete
  dsimp only
  split
  · exact h
  · split
    · exact h
    · exact out_ite (keeps_failNodeOpen h) (keeps_relend (keeps_modTeam (keeps_foldl (keeps_restoreCells h) fun _ _ h =>
        keeps_resumeMember h)))

/-! ### Firmware -/

theorem keeps_fwOnly {i} {body : Nat → State → Res} (h : Keeps s t) (hb : ∀ d u, Keeps s u → (body d u).Keeps s) :
    OutKeeps s (fwOnly i body t) := by
  unfold fwOnly
  split
  · exact keeps_runWord h (hb _)
  · exact h

theorem keeps_fwErr {d} (h : Keeps s t) : Keeps s (fwErr t d) := keeps_modFw h

theorem keeps_setTableByte {p b} (h : Keeps s t) : Keeps s (setTableByte t p b) :=
  keeps_ite (keeps_setIptEntry (keeps_ite h (keeps_unsealFrame h))) (keeps_setAnchor h)

theorem keeps_storeNat {x n v} (h : Keeps s t) : Keeps s (storeNat t x n v) := by
  unfold storeNat
  dsimp only
  split
  · refine keeps_foldl h fun _ _ h => ?_
    split
    · exact keeps_setTableByte h
    · exact h
  · exact keeps_ite (keeps_writePhysNat h) (keeps_storeSector h)

theorem keeps_mailboxDone {status} (h : Keeps s t) : Keeps s (mailboxDone t status) := keeps_msix h.fields
theorem keeps_updateDone (h : Keeps s t) : Keeps s (updateDone t) := keeps_mailboxDone h.fields

theorem keeps_execEvpop {h' f} (h : Keeps s t) : OutKeeps s (execEvpop h' f t) := by
  unfold execEvpop
  dsimp only
  refine keeps_fwOnly h fun _ _ h => ?_
  split
  · exact trivial
  · exact res_ite trivial (keeps_sset (keeps_sset (keeps_sset (keeps_sset (keeps_modDie h)))))

theorem keeps_eventAction {e act} (h : Keeps s t) : Keeps s (eventAction t e act) := by
  unfold eventAction
  dsimp only
  split
  · exact keeps_ite (keeps_returnTrap h) h
  · exact keeps_ite (keeps_returnTrap h) h
  · exact keeps_failEvent h
  · split
    · exact keeps_bump h
    · exact keeps_requestKill (keeps_ite (keeps_sendKillNotice (keeps_bump h)) (keeps_bump h))
  · exact keeps_modCls h
  · exact h

theorem keeps_execEvdone {h' f} (h : Keeps s t) : OutKeeps s (execEvdone h' f t) := by
  unfold execEvdone
  dsimp only
  refine keeps_fwOnly h fun _ _ h => ?_
  split
  · exact keeps_fwErr h
  · exact res_ite (keeps_fwErr h) (keeps_ite (keeps_eventAction (keeps_modDie h)) (keeps_modDie h))

theorem keeps_execShoot {h' f} (h : Keeps s t) : OutKeeps s (execShoot h' f t) := by
  unfold execShoot
  dsimp only
  refine keeps_fwOnly h fun _ _ h => ?_
  split
  · exact res_ite (keeps_sset h) (keeps_modFw h)
  · exact keeps_sset (keeps_modFw h)
  · exact trivial

/-! ### Partition -/

theorem keeps_scrubPartition {k} (h : Keeps s t) : Keeps s (scrubPartition t k) :=
  keeps_zeroCounters (keeps_zeroCounters (((keeps_stopClasses h).withMem (wf_dropped _)).same rfl))

theorem keeps_discardInstance {i} (h : Keeps s t) : Keeps s (discardInstance t i) :=
  keeps_cleanRouters ((keeps_foldl h fun _ _ h => keeps_discardStaged h).fields)

theorem keeps_zeroRecords {k} (h : Keeps s t) : Keeps s (zeroRecords t k) := h.fields

theorem keeps_resetQueue {k status q} (h : Keeps s t) : Keeps s (resetQueue t k status q) := by
  unfold resetQueue
  dsimp only
  split
  · exact keeps_finishEntry (keeps_consumed (keeps_modQueue (keeps_foldl h fun _ _ h => keeps_finishInstance h)))
  · exact keeps_foldl h fun _ _ h => keeps_finishInstance h

theorem keeps_liveCause {c code info} (h : Keeps s t) : Keeps s (liveCause t c code info) := keeps_ite (keeps_systemCause h) h

theorem keeps_resetCause {k code info} (h : Keeps s t) : Keeps s (resetCause t k code info) :=
  keeps_foldl h fun _ _ h => keeps_liveCause h

theorem keeps_partitionReset {k status st code info q} (h : Keeps s t) : Keeps s (partitionReset t k status st code info q) :=
  keeps_relend (keeps_bbRecord (keeps_msix (keeps_modPart (keeps_foldl (keeps_scrubPartition (keeps_foldl (keeps_resetCause
    (keeps_modPart (keeps_foldl (keeps_bump h) fun _ _ h => keeps_finishInstance h))) fun _ _ h => keeps_discardInstance h)) fun
    _ _ h => keeps_resetQueue h))))

theorem keeps_hmTick {k q} (h : Keeps s t) : Keeps s (hmTick t k q) :=
  keeps_ite h (keeps_ite (keeps_due (keeps_modQueue h)) (keeps_modQueue h))

theorem keeps_hmTicks {l : List (Nat × Nat)} (h : Keeps s t) : Keeps s (l.foldr (fun x s => hmTick s x.1 x.2) t) :=
  List.foldrRecOn (motive := Keeps s) l _ h fun _ hu _ _ => keeps_hmTick hu

theorem keeps_mailboxWrite {v} (h : Keeps s t) : Keeps s (mailboxWrite t v) :=
  keeps_ite h.fields (keeps_ite (keeps_mailboxDone h.fields) (keeps_ite (keeps_mailboxDone (keeps_bump h.fields))
    (keeps_pushEvent (keeps_bumpBy h.fields))))

theorem keeps_measureTable (h : Keeps s t) : Keeps s (measureTable t) := h.fields

theorem keeps_execPartCreate (h : Keeps s t) : OutKeeps s (execPartCreate t) :=
  out_ite h (out_ite (keeps_mailboxDone h) (out_ite (keeps_mailboxDone h) (keeps_mailboxDone (keeps_measureTable
    (keeps_zeroRecords (keeps_zeroCounters (keeps_zeroCounters (keeps_modPart h))))))))

theorem keeps_freeFrames {k} (h : Keeps s t) : Keeps s (freeFrames t k) := h.fields

theorem keeps_execPartDestroy (h : Keeps s t) : OutKeeps s (execPartDestroy t) :=
  out_ite h (out_ite (keeps_mailboxDone h) (keeps_mailboxDone (keeps_measureTable (keeps_modPart (keeps_freeFrames
    (keeps_unsealPart (keeps_zeroRecords (keeps_scrubPartition h))))))))

theorem keeps_measurePair (h : Keeps s t) : Keeps s (measurePair t) := h.fields

theorem keeps_execPartRearm (h : Keeps s t) : OutKeeps s (execPartRearm t) :=
  out_ite h (out_ite (keeps_mailboxDone h) (keeps_mailboxDone (keeps_ite (keeps_measurePair ((keeps_modPart h).fields))
    (keeps_modPart h))))

theorem keeps_execPairConfig (h : Keeps s t) : OutKeeps s (execPairConfig t) :=
  out_ite h (out_ite (keeps_mailboxDone h) (out_ite (keeps_mailboxDone (keeps_bump h)) (keeps_mailboxDone (keeps_measurePair
    h.fields))))

/-! ### Finish -/

theorem keeps_releaseMoves {c f} (h : Keeps s t) : Keeps s (releaseMoves t c f) := by
  unfold releaseMoves
  dsimp only
  split
  · exact h
  · exact keeps_modNode h

theorem keeps_dataDone {c f m} (h : Keeps s t) : Keeps s (dataDone t c f m) :=
  keeps_complete (keeps_setS (keeps_ite (keeps_countedAdd (keeps_releaseMoves (keeps_contributeAll h))) (keeps_contributeAll h)))

theorem keeps_haltLater {c f ms k va cause table kind} (h : Keeps s t) (hu : Keeps s u) :
    Keeps s (haltLater t u c f ms k va cause table kind) := keeps_ite h (keeps_haltA (keeps_modOp hu))

theorem keeps_moveData {c f ms} (h : Keeps s t) : Keeps s (moveData t c f ms) := by
  unfold moveData
  dsimp only
  split
  · exact keeps_dataDone (keeps_stampWrites (keeps_moveAll h))
  · exact keeps_modOp (keeps_stampWrites (keeps_moveAll h))
  · exact keeps_haltLater h (keeps_modOp (keeps_stampWrites (keeps_moveAll h)))

theorem keeps_ldqPerform {c f g} (h : Keeps s t) : Keeps s (ldqPerform t c f g) := by
  unfold ldqPerform
  dsimp only
  split
  · exact h
  · split
    · exact keeps_haltLater h h
    · exact h
    · exact keeps_complete (keeps_ite (keeps_pushQv (keeps_bump h)) (keeps_pushQs (keeps_bump h)))
    next _ _ _ _ e =>
      exact keeps_complete (keeps_ite (keeps_pushQv (keeps_ite h (keeps_movePoison h))) (keeps_pushQs (keeps_ite h
        (keeps_movePoison h))))

theorem keeps_amoComplete {c f g} (h : Keeps s t) : Keeps s (amoComplete t c f g) := by
  unfold amoComplete
  dsimp only
  refine keeps_ite (keeps_amoWrite h) ?_
  split
  · split
    · exact keeps_consumeAt h
    · exact keeps_ite (keeps_amoPerform (keeps_amoTarget h)) (keeps_ite h (keeps_amoRead (keeps_amoTarget h)))
  · exact keeps_haltLater h h
  · exact h
  · exact keeps_complete (keeps_ite (keeps_pushQs (keeps_bump h)) h)

theorem keeps_amoAnswered {c f} (h : Keeps s t) : Keeps s (amoAnswered t c f) := by
  unfold amoAnswered
  dsimp only
  split
  · exact keeps_ite (keeps_amoAnswer h) h
  · exact h

theorem keeps_completeA {c f} (h : Keeps s t) : Keeps s (completeA t c f) := by
  unfold completeA
  dsimp only
  refine keeps_ite (keeps_amoAnswered h) (keeps_ite h ?_)
  split
  · exact keeps_consumeAt h
  · split
    · exact keeps_moveData h
    · exact keeps_moveData h
    · exact keeps_moveData h
    · refine keeps_ite (keeps_moveData h) (keeps_ite (keeps_moveData h) ?_)
      split
      · exact keeps_consumeAt h
      · exact keeps_modOp h
    · refine keeps_ite (keeps_moveData h) (keeps_ite (keeps_moveData h) ?_)
      split
      · exact keeps_consumeAt h
      · exact keeps_modOp h
    · exact keeps_ite (keeps_ldqPerform h) h
    · exact keeps_complete (keeps_setA (keeps_setA h))
    · split
      · exact keeps_ite (keeps_amoComplete h) h
      · exact h

theorem keeps_execWordCompletion {c id} (h : Keeps s t) : OutKeeps s (execWordCompletion c id t) := by
  unfold execWordCompletion
  split
  · exact h
  · split
    · exact h
    · exact h
    · exact h
    · refine out_ite (keeps_completeA h) (out_ite (keeps_ite (keeps_complete (keeps_setS h)) h) (out_ite ?_ (out_ite (keeps_ite
        (keeps_advanceM h) (keeps_ite (keeps_advanceV h) h)) h)))
      split
      · exact keeps_ite (keeps_shiftAll h) h
      · exact h

/-! ### Scan -/

theorem keeps_noteScan {die pa r} (h : Keeps s t) : Keeps s (noteScan t die pa r) := keeps_modDie h

theorem keeps_execCodePageScan {c va} (h : Keeps s t) : OutKeeps s (execCodePageScan c va t) := by
  unfold execCodePageScan
  split
  · exact h
  · exact keeps_noteScan h

theorem keeps_poisonLine {c va pa kind} (h : Keeps s t) : Keeps s (poisonLine t c va pa kind) := by
  unfold poisonLine
  dsimp only
  split
  · exact keeps_ite (keeps_consumeAt h) h
  · exact h

theorem keeps_fillLine {c va pa l} (h : Keeps s t) : Keeps s (fillLine t c va pa l) := keeps_modCls h

theorem keeps_classError {c m loc} (h : Keeps s t) : Keeps s (classError t c m loc) :=
  keeps_ite (keeps_modCls h) (keeps_ite h (keeps_ite (keeps_killOn (keeps_bbClass (keeps_systemCause h))) (keeps_bbClass
    (keeps_modCls h))))

theorem keeps_execFetchLineMiss {c va} (h : Keeps s t) : OutKeeps s (execFetchLineMiss c va t) := by
  unfold execFetchLineMiss
  dsimp only
  split
  · exact keeps_ite (keeps_trapAt h) h
  · split
    · exact keeps_due h
    · exact keeps_ite (keeps_trapAt (keeps_noteScan h)) (keeps_noteScan h)
    · split
      · exact keeps_poisonLine (keeps_noteScan h)
      · split
        · exact keeps_fillLine (keeps_noteScan h)
        · exact keeps_classError (keeps_fillLine (keeps_noteScan h))
        · exact keeps_poisonLine (keeps_noteScan h)

/-! ### Update -/

theorem keeps_setStandby {x} (h : Keeps s t) : Keeps s (setStandby t x) := h.fields

theorem keeps_execFwLoad (h : Keeps s t) : OutKeeps s (execFwLoad t) :=
  out_ite h (out_ite (keeps_mailboxDone h) (out_ite (keeps_mailboxDone (keeps_setStandby h)) (keeps_mailboxDone
    ((keeps_setStandby h).fields))))

/-! ### Readback -/

/-! ### Power -/

theorem keeps_execSensorSample {c t0 t1 t2 t3} (h : Keeps s t) : OutKeeps s (execSensorSample c t0 t1 t2 t3 t) :=
  out_ite h (out_ite (keeps_ite (keeps_msix (keeps_bbClass ((keeps_ite (keeps_bbClass (keeps_modCls h)) (keeps_modCls
    h)).fields))) ((keeps_ite (keeps_bbClass (keeps_modCls h)) (keeps_modCls h)).fields)) (keeps_ite (keeps_bbClass (keeps_modCls
    h)) (keeps_modCls h)))

theorem keeps_classTick {c} (h : Keeps s t) : Keeps s (classTick t c) := keeps_modDie (keeps_modCls h)
theorem keeps_expiries (h : Keeps s t) : Keeps s (expiries t) := keeps_foldl h fun _ _ h => keeps_foldl h fun _ _ h => keeps_due h

theorem keeps_execLncTick (h : Keeps s t) : OutKeeps s (execLncTick t) := by
  have run : Keeps s (expiries ((List.range 40).foldl classTick { leaveAll t with ticks8 := (leaveAll t).ticks8 + 1 })) :=
    keeps_expiries (keeps_foldl (keeps_leaveAll h).tick fun _ _ h => keeps_classTick h)
  exact keeps_ite (keeps_hmTicks (keeps_ite (keeps_due run) run)) (keeps_ite (keeps_due run) run)

/-! ### Reliability -/

theorem keeps_recordUnit {code u'} (h : Keeps s t) : Keeps s (recordUnit t code u') := by
  unfold recordUnit
  split
  · exact keeps_bbRecord h
  · exact keeps_bbClass h
  · exact keeps_bbClass h
  · exact keeps_bbClass h
  · exact keeps_bbClass h
  · exact keeps_bbClass h
  · exact keeps_bbClass h
  · exact keeps_bbClass h
  · exact keeps_bbRecord h

/-! ### Bar -/

theorem keeps_vfWrite {k off v} (h : Keeps s t) : Keeps s (vfWrite t k off v) := keeps_ite h (keeps_modQueue h)

theorem keeps_pfWrite {off v} (h : Keeps s t) : Keeps s (pfWrite t off v) := by
  unfold pfWrite
  refine keeps_ite (keeps_mailboxWrite h) (keeps_ite h ?_)
  split
  · exact h.fields
  · exact h

theorem keeps_execRegisterWrite {fn off v} (h : Keeps s t) : OutKeeps s (execRegisterWrite fn off v t) := by
  unfold execRegisterWrite
  refine ?_
  split
  · exact keeps_pfWrite h
  · exact keeps_ite (keeps_vfWrite h) (keeps_send h)

theorem keeps_hostConsumes {k u' kind} (h : Keeps s t) : Keeps s (hostConsumes t k u' kind) :=
  keeps_send (keeps_ite (keeps_msix (keeps_bbRecord h)) (keeps_bbRecord h))

theorem keeps_barRead {k off n} (h : Keeps s t) : Keeps s (barRead t k off n) := by
  unfold barRead
  split
  · exact keeps_send h
  · split
    · exact keeps_hostConsumes h
    · exact keeps_send h

theorem keeps_execHostBarRead {fn bar off n} (h : Keeps s t) : OutKeeps s (execHostBarRead fn bar off n t) := by
  unfold execHostBarRead
  refine ?_
  split
  · exact keeps_ite (keeps_send h) (keeps_ite (keeps_send (keeps_bump h)) (keeps_send h))
  · exact keeps_ite (keeps_send h) (keeps_ite (keeps_send h) (keeps_ite (keeps_barRead h) (keeps_send h)))

theorem keeps_execHostBarWrite {k off data} (h : Keeps s t) : OutKeeps s (execHostBarWrite k off data t) := by
  unfold execHostBarWrite
  dsimp only
  refine out_ite (keeps_send h) ?_
  split
  · exact keeps_send h
  · exact keeps_foldl (keeps_foldl h fun _ _ h => keeps_writePhys h) fun _ _ h => keeps_clearPoison h

theorem keeps_execHostAtomicop {k off op wide x y} (h : Keeps s t) : OutKeeps s (execHostAtomicop k off op wide x y t) := by
  unfold execHostAtomicop
  dsimp only
  refine out_ite (keeps_send h) ?_
  split
  · exact keeps_send h
  · split
    · exact keeps_hostConsumes h
    · exact keeps_send (keeps_writePhysNat h)

/-! ### Boot -/

theorem keeps_applyRepair {e} (h : Keeps s t) : Keeps s (applyRepair t e) := by
  unfold applyRepair
  split
  · exact keeps_modCls h
  · exact h.fields
  · exact h.fields
  · exact keeps_modDie h
  · exact h

theorem keeps_applyDefect {es x} (h : Keeps s t) : Keeps s (applyDefect es t x) := keeps_ite h (keeps_bbRecord h.fields)
theorem keeps_recovery {stepNo} (h : Keeps s t) : Keeps s (recovery t stepNo) := (keeps_bump h).fields

theorem keeps_powerUp {b} (h : Keeps s t) : Keeps s (powerUp t b) :=
  ⟨fun w => wf_powerUp b (h.mem w), Nat.le_succ_of_le h.born, fun e => absurd h.born (Nat.not_le.mpr (Nat.lt_of_succ_le
    (Nat.le_of_eq e)))⟩

theorem keeps_startFirmware {b ok} (h : Keeps s t) : Keeps s (startFirmware t b ok) := h.fields

theorem keeps_execColdStart {b} (h : Keeps s t) : OutKeeps s (execColdStart b t) :=
  out_ite (keeps_recovery (keeps_powerUp h)) (out_ite (keeps_recovery (keeps_powerUp h)) (out_ite (keeps_recovery (keeps_foldl
    (keeps_foldl (keeps_powerUp h) fun _ _ h => keeps_applyRepair h) fun _ _ h => keeps_applyDefect h)) (keeps_startFirmware
    (keeps_foldl (keeps_foldl (keeps_powerUp h) fun _ _ h => keeps_applyRepair h) fun _ _ h => keeps_applyDefect h))))

theorem keeps_execWarmReset (h : Keeps s t) : OutKeeps s (execWarmReset t) := by
  have unsealed : Keeps s ((List.range 17).foldl unsealPart t) := keeps_foldl h fun _ _ h => keeps_unsealPart h
  exact unsealed.fields

/-! ### Retire -/

theorem keeps_swapSector {ws u'} (h : Keeps s t) : Keeps s (swapSector ws t u') := by
  unfold swapSector
  dsimp only
  refine keeps_ite (keeps_writePa ?_) (keeps_foldl ?_ fun _ _ h => keeps_writePa h)
  · split
    · exact keeps_noteVa h
    · exact h
  · split
    · exact keeps_noteVa h
    · exact h

theorem keeps_signal {h0 es} : ∀ {t}, Keeps s t → Keeps s (signal t h0 es).1 := by
  induction es with
  | nil => exact fun h => h
  | cons e es ih =>
    intro t h
    unfold signal
    split
    · split
      · next e => exact ih (keeps_of_some e (keeps_ctrAdd h))
      · exact h
    · exact ih h

theorem keeps_retire {i node} (h : Keeps s t) : Keeps s (retire t i node) := by
  unfold retire
  dsimp only
  refine keeps_ite ?_ (keeps_failNodeOpen (keeps_signal (keeps_landNode (keeps_modNode (keeps_discardStaged (keeps_foldl h fun _
    _ h => keeps_swapSector h))))))
  split
  · exact keeps_ite (keeps_endInst (keeps_restartHm (keeps_signal (keeps_landNode (keeps_modNode (keeps_discardStaged
      (keeps_foldl h fun _ _ h => keeps_swapSector h))))))) (keeps_restartHm (keeps_signal (keeps_landNode (keeps_modNode
      (keeps_discardStaged (keeps_foldl h fun _ _ h => keeps_swapSector h))))))
  · exact keeps_restartHm (keeps_signal (keeps_landNode (keeps_modNode (keeps_discardStaged (keeps_foldl h fun _ _ h =>
      keeps_swapSector h)))))

theorem keeps_execAnchorSwapComplete {inst node} (h : Keeps s t) : OutKeeps s (execAnchorSwapComplete inst node t) := by
  unfold execAnchorSwapComplete
  split
  · exact h
  · exact keeps_ite (keeps_retire h) h

theorem keeps_fence {k node} (h : Keeps s t) : Keeps s (fence t k node) :=
  keeps_ite h (keeps_sendPair (keeps_partitionReset (keeps_bbRecord h)))

theorem keeps_pairAbort {inst node cause} (h : Keeps s t) : Keeps s (pairAbort t inst node cause) :=
  keeps_requestKill (keeps_foldl h fun _ _ h => keeps_liveCause h)

theorem keeps_countMismatch {inst node rollbacks} {kill : State → State} (h : Keeps s t)
    (hk : ∀ u, Keeps s u → Keeps s (kill u)) : Keeps s (countMismatch t inst node rollbacks kill) := by
  exact keeps_ite (keeps_fence (keeps_bbRecord (keeps_modNode (keeps_modPart h)))) (hk _ (keeps_bbRecord (keeps_modNode
    (keeps_modPart h))))

theorem keeps_mismatch {inst node} (h : Keeps s t) : Keeps s (mismatch t inst node) :=
  keeps_countMismatch h fun _ h => keeps_pairAbort h

theorem keeps_commitNode {inst node} (h : Keeps s t) : Keeps s (commitNode t inst node) := keeps_modNode (keeps_modPart h)

theorem keeps_sendVerdict {inst node commit counted} (h : Keeps s t) : Keeps s (sendVerdict t inst node commit counted) :=
  keeps_sendPair h

theorem keeps_decidePair {inst node commit} (h : Keeps s t) : Keeps s (decidePair t inst node commit) :=
  keeps_ite (keeps_commitNode (keeps_sendVerdict h)) (keeps_mismatch (keeps_sendVerdict h))

theorem keeps_comparePair {inst node} (h : Keeps s t) : Keeps s (comparePair t inst node) := by
  unfold comparePair
  dsimp only
  split
  · exact keeps_ite (keeps_decidePair h) h
  · exact h

theorem keeps_execNodeRetirement {inst node} (h : Keeps s t) : OutKeeps s (execNodeRetirement inst node t) := by
  unfold execNodeRetirement
  dsimp only
  split
  · exact h
  · exact out_ite h (out_ite (keeps_modNode h) (out_ite (keeps_mismatch (keeps_modNode h)) (keeps_comparePair (keeps_sendPair
      (keeps_modNode h)))))

theorem keeps_execPairDigestTimeout {inst node} (h : Keeps s t) : OutKeeps s (execPairDigestTimeout inst node t) := by
  unfold execPairDigestTimeout
  split
  · exact keeps_ite (keeps_decidePair h) h
  · exact h

theorem keeps_takeCount {inst node rollbacks} (h : Keeps s t) : Keeps s (takeCount t inst node rollbacks) :=
  keeps_ite h (keeps_modNode h)

theorem keeps_lateMismatch {inst node v} (h : Keeps s t) : Keeps s (lateMismatch t inst node v) :=
  keeps_ite (keeps_countMismatch h fun _ h => h) h

theorem keeps_execPairDecisionReceived {inst node v} (h : Keeps s t) : OutKeeps s (execPairDecisionReceived inst node v t) :=
  keeps_ite h (keeps_ite (keeps_ite (keeps_commitNode h) h) (keeps_ite (keeps_ite (keeps_mismatch (keeps_takeCount h))
    (keeps_pairAbort (keeps_takeCount h))) (keeps_lateMismatch h)))

theorem keeps_execPairDecisionTimeout {inst node} (h : Keeps s t) : OutKeeps s (execPairDecisionTimeout inst node t) := by
  unfold execPairDecisionTimeout
  split
  · exact keeps_ite (keeps_fence h) h
  · exact h

theorem keeps_execPairSelectionTimeout {c} (h : Keeps s t) : OutKeeps s (execPairSelectionTimeout c t) := by
  unfold execPairSelectionTimeout
  dsimp only
  split
  · exact out_ite (keeps_mismatch (keeps_modCls h)) h
  · exact h

theorem keeps_execPairSaveDecisionReceived {team act} (h : Keeps s t) : OutKeeps s (execPairSaveDecisionReceived team act t) := by
  unfold execPairSaveDecisionReceived
  split
  · exact h
  · exact keeps_ite (keeps_actOn h) h

theorem keeps_execPairSaveDecisionTimeout {team} (h : Keeps s t) : OutKeeps s (execPairSaveDecisionTimeout team t) := by
  unfold execPairSaveDecisionTimeout
  split
  · exact h
  · exact keeps_ite (keeps_fence h) h

/-! ### Fabric -/

theorem keeps_reportFw {die} (h : Keeps s t) : Keeps s (reportFw t die) := keeps_pushEvent (keeps_bumpBy h)

theorem keeps_execKLinkFlitRetry {link} (h : Keeps s t) : OutKeeps s (execKLinkFlitRetry link t) :=
  out_ite h (out_ite h.fields (keeps_ite (keeps_bbRecord (keeps_reportFw (keeps_bbRecord h.fields))) (keeps_reportFw
    (keeps_bbRecord h.fields))))

theorem keeps_routeAround {die r} (h : Keeps s t) : Keeps s (routeAround die r t) := h.fields
theorem keeps_losePackets {die r} (h : Keeps s t) : Keeps s (losePackets t die r) := (keeps_bumpBy h).fields

theorem keeps_freshTower {c phys} (h : Keeps s t) : Keeps s (freshTower t c phys) := keeps_bump (keeps_writeBytes h)

/-! ### Service -/

theorem keeps_mapPage {t' f part vpn sa} (h : Keeps s t) : Keeps s (mapPage t t' f part vpn sa) :=
  keeps_setAnchor (keeps_setIptEntry h)

theorem keeps_reserveFrameAdd {t' f} (h : Keeps s t) : Keeps s (reserveFrameAdd t t' f) := (keeps_setIptEntry h).fields
theorem keeps_clearHalt {c} (h : Keeps s t) : Keeps s (clearHalt t c) := keeps_modCls h

theorem keeps_serviceHalt {c} (h : Keeps s t) : Keeps s (serviceHalt t c) := by
  unfold serviceHalt
  dsimp only
  refine keeps_ite (keeps_failOpen (keeps_bump h)) (keeps_ite (keeps_ite (keeps_clearHalt (keeps_reserveFrameAdd (keeps_bump h)))
    (keeps_failOpen (keeps_bump h))) ?_)
  split
  · exact keeps_clearHalt (keeps_bump h)
  · exact keeps_clearHalt (keeps_bump h)
  · exact keeps_ite (keeps_clearHalt (keeps_mapPage (keeps_bump h))) (keeps_failOpen (keeps_bump h))

theorem keeps_rescaleDefault {c} (h : Keeps s t) : Keeps s (rescaleDefault t c) := by
  unfold rescaleDefault
  dsimp only
  split
  · exact h
  · split
    · exact keeps_setRec h
    · exact h

theorem keeps_prescribed {c e} (h : Keeps s t) : OptKeeps s (prescribed t c e) := by
  unfold prescribed
  split
  · exact keeps_returnTrap (keeps_rescaleDefault h)
  · exact opt_ite (keeps_returnTrap h) trivial
  · exact keeps_serviceHalt h
  · exact keeps_failEvent h

theorem keeps_service {d} (h : Keeps s t) : Keeps s (service t d) := by
  unfold service
  dsimp only
  split
  · exact h
  · exact keeps_ite h (keeps_ite ((keeps_prescribed (keeps_modDie h)).getD h) (keeps_modDie h))

/-! ### Paging -/

theorem keeps_acknowledge {c vpn} (h : Keeps s t) : Keeps s (acknowledge c vpn t) := (keeps_modCls h).fields

theorem keeps_migrationStart {t' src dst} (h : Keeps s t) : Keeps s (migrationStart t t' src dst) :=
  keeps_ite ((keeps_setIptEntry h).fields) h

theorem keeps_relink {t' src dst} (h : Keeps s t) : Keeps s (relink t t' src dst) :=
  keeps_setIptEntry (keeps_setIptEntry ((keeps_unsealFrame h).fields))

theorem keeps_migrationEnd {m err bad} (h : Keeps s t) : Keeps s (migrationEnd t m err bad) :=
  keeps_ite h.fields (keeps_ite (keeps_setIptEntry h.fields) (keeps_ite (keeps_foldl (keeps_setIptEntry h.fields) fun _ _ h =>
    keeps_ite h (keeps_recordUnit (keeps_setPoison h))) (keeps_relink (keeps_copyFrame h.fields))))

theorem keeps_execMigration {table src dst err bad} (h : Keeps s t) : OutKeeps s (execMigration table src dst err bad t) := by
  unfold execMigration
  refine ?_
  split
  · exact keeps_migrationStart h
  · exact keeps_ite (keeps_migrationEnd h) h

/-! ### Scalar -/

theorem keeps_execPopc {h' f} (h : Keeps s t) : OutKeeps s (execPopc h' f t) := keeps_srWord h
theorem keeps_execClz {h' f} (h : Keeps s t) : OutKeeps s (execClz h' f t) := keeps_srWord h
theorem keeps_execCtz {h' f} (h : Keeps s t) : OutKeeps s (execCtz h' f t) := keeps_srWord h
theorem keeps_execAddi {h' f} (h : Keeps s t) : OutKeeps s (execAddi h' f t) := keeps_siWord h
theorem keeps_execMuli {h' f} (h : Keeps s t) : OutKeeps s (execMuli h' f t) := keeps_siWord h
theorem keeps_execAndi {h' f} (h : Keeps s t) : OutKeeps s (execAndi h' f t) := keeps_siWord h
theorem keeps_execOri {h' f} (h : Keeps s t) : OutKeeps s (execOri h' f t) := keeps_siWord h
theorem keeps_execXori {h' f} (h : Keeps s t) : OutKeeps s (execXori h' f t) := keeps_siWord h
theorem keeps_execShli {h' f} (h : Keeps s t) : OutKeeps s (execShli h' f t) := keeps_siWord h
theorem keeps_execShri {h' f} (h : Keeps s t) : OutKeeps s (execShri h' f t) := keeps_siWord h
theorem keeps_execSrai {h' f} (h : Keeps s t) : OutKeeps s (execSrai h' f t) := keeps_siWord h
theorem keeps_execCmpeq {h' f} (h : Keeps s t) : OutKeeps s (execCmpeq h' f t) := keeps_srWord h
theorem keeps_execCmpne {h' f} (h : Keeps s t) : OutKeeps s (execCmpne h' f t) := keeps_srWord h
theorem keeps_execCmplt {h' f} (h : Keeps s t) : OutKeeps s (execCmplt h' f t) := keeps_srWord h
theorem keeps_execCmpltu {h' f} (h : Keeps s t) : OutKeeps s (execCmpltu h' f t) := keeps_srWord h
theorem keeps_execCmple {h' f} (h : Keeps s t) : OutKeeps s (execCmple h' f t) := keeps_srWord h
theorem keeps_execCmpleu {h' f} (h : Keeps s t) : OutKeeps s (execCmpleu h' f t) := keeps_srWord h
theorem keeps_execCmpeqi {h' f} (h : Keeps s t) : OutKeeps s (execCmpeqi h' f t) := keeps_siWord h

theorem keeps_execCmplti {h' f} (h : Keeps s t) : OutKeeps s (execCmplti h' f t) := keeps_siWord h

/-! ### Spdm -/

theorem keeps_respond {code data} (h : Keeps s t) : Keeps s (respond t code data) := keeps_send h
theorem keeps_spdmError (h : Keeps s t) : Keeps s (spdmError t) := keeps_respond h

theorem keeps_answer {ok code data} (h : Keeps s t) : OutKeeps s (answer ok t code data) :=
  keeps_ite (keeps_respond h) (keeps_spdmError h)

/-! ### Vector -/

theorem keeps_cmpWord {i f p} (h : Keeps s t) : OutKeeps s (cmpWord i f p t) := keeps_runWord h fun _ h => keeps_vecBody h
theorem keeps_cmpWordQ {i f p} (h : Keeps s t) : OutKeeps s (cmpWordQ i f p t) := keeps_runWord h fun _ h => keeps_queueBody h

theorem keeps_maskWord {i f srcs g} (h : Keeps s t) : OutKeeps s (maskWord i f srcs g t) :=
  keeps_runWord h fun _ h => keeps_vecBody h

theorem keeps_execKandn {h' f} (h : Keeps s t) : OutKeeps s (execKandn h' f t) := keeps_maskWord h
theorem keeps_execKnot {h' f} (h : Keeps s t) : OutKeeps s (execKnot h' f t) := keeps_maskWord h

theorem keeps_permWord {i f pick more} (h : Keeps s t) : OutKeeps s (permWord i f pick more t) :=
  keeps_runWord h fun _ h => keeps_vecBody h

theorem keeps_wideWord {i f acc fF iI} (h : Keeps s t) : OutKeeps s (wideWord i f acc fF iI t) :=
  keeps_runWord h fun _ h => keeps_vecBody h

theorem keeps_reduceWord {i f g} (h : Keeps s t) : OutKeeps s (reduceWord i f g t) := keeps_runWord h fun _ h => keeps_vecBody h

theorem keeps_execVrsum {h' f} (h : Keeps s t) : OutKeeps s (execVrsum h' f t) := keeps_reduceWord h

/-! ### The step -/

/-- The meaning of every instruction keeps: one case for each constructor, as in `exec`. -/
theorem keeps_exec {i} (h : Keeps s t) : OutKeeps s (exec i t) := by
  cases i with
  | coldStart => exact keeps_execColdStart h
  | warmReset => exact keeps_execWarmReset h
  | registerWrite => exact keeps_execRegisterWrite h
  | qwidxWrite => exact out_ite (keeps_send h) (keeps_modQueue h)
  | queueEnable => exact out_ite h (out_ite (keeps_send h) (out_ite (keeps_modQueue h) (keeps_modQueue h)))
  | queueDisable => exact out_ite h (out_ite (keeps_send h) (keeps_modQueue h))
  | entryNop => exact out_ite (keeps_finishEntry (keeps_consumed h)) h
  | entryLaunch => exact out_ite (keeps_modQueue h) h
  | launchAcceptance => exact keeps_execLaunchAcceptance h
  | entryCadd => exact keeps_execEntryCadd h
  | entryCwait => exact keeps_execEntryCwait h
  | entryCwaitSatisfied => exact keeps_execEntryCwaitSatisfied h
  | entryReadError => exact keeps_ite (keeps_modQueue h) h
  | instanceStart => exact keeps_execInstanceStart h
  | instanceEnd => exact keeps_execInstanceEnd h
  | hallMonitorExpiry => exact out_ite (keeps_partitionReset (keeps_modPart h)) h
  | partCreate => exact keeps_execPartCreate h
  | partDestroy => exact keeps_execPartDestroy h
  | partReset => exact out_ite h (out_ite (keeps_mailboxDone h) (keeps_mailboxDone (keeps_partitionReset h)))
  | partRearm => exact keeps_execPartRearm h
  | fwLoad => exact keeps_execFwLoad h
  | fwActivate => exact out_ite h (out_ite (keeps_mailboxDone h) (out_ite h (((keeps_writePhys h).fields).fields)))
  | fwReversion => exact out_ite (keeps_mailboxDone ((keeps_bbRecord h).fields)) h
  | pairConfig => exact keeps_execPairConfig h
  | pcapWrite | refreshTick => exact h.fields
  | bbctlWrite => exact keeps_modDie h
  | readbackRead => exact keeps_send (keeps_bump h)
  | readbackWrite => exact keeps_send h
  | hostBarRead => exact keeps_execHostBarRead h
  | hostBarWrite => exact keeps_execHostBarWrite h
  | hostAtomicop => exact keeps_execHostAtomicop h
  | getVersion => exact keeps_respond h.fields
  | getCapabilities | negotiateAlgorithms | keyExchange | finish | endSession =>
    exact out_ite (keeps_respond h.fields) (keeps_spdmError h)
  | getDigests | getCertificate | challenge | getMeasurements | heartbeat => exact keeps_answer h
  | powerEvaluation => exact out_ite h h.fields
  | frequencyTransition | rampPermitStep | shadowLatchReplay | replayHoldEnd | freezeGuardEnd | refreshPassComplete =>
    exact keeps_modCls h
  | sensorSample => exact keeps_execSensorSample h
  | windowArbitration => exact out_ite h (keeps_modCls h)
  | lncTick => exact keeps_execLncTick h
  | nanosecondWaitExpiry => exact keeps_execNanosecondWaitExpiry h
  | replayGovernorWindow => exact out_ite h (keeps_ite (keeps_bbClass (keeps_modCls h)) (keeps_modCls h))
  | correctableError => exact keeps_ite (keeps_classError h) h
  | freezeEnd => exact keeps_ite (keeps_modCls (keeps_landHeld h)) h
  | uncorrectableError => exact keeps_recordUnit (keeps_setPoison h)
  | nodeKill => exact keeps_ite (keeps_killNode h.fields) h
  | backgroundPassStart | shootdownReceipt | rtblWrite => exact keeps_ite (keeps_modCls h) h
  | forcing => exact keeps_force h
  | refillReinject => exact keeps_execRefillReinject h
  | nodeReady => exact keeps_execNodeReady h
  | dispenseScan => exact (keeps_scan h).fields
  | victimDecision => exact keeps_execVictimDecision h
  | drainBoundExpiry => exact keeps_execDrainBoundExpiry h
  | saveComplete => exact keeps_execSaveComplete h
  | resumeComplete => exact keeps_execResumeComplete h
  | nodeRetirement => exact keeps_execNodeRetirement h
  | anchorSwapComplete => exact keeps_execAnchorSwapComplete h
  | pairDigestReceived => exact out_ite (keeps_comparePair (keeps_modNode h)) h
  | pairDigestTimeout => exact keeps_execPairDigestTimeout h
  | pairDecisionReceived => exact keeps_execPairDecisionReceived h
  | pairDecisionTimeout => exact keeps_execPairDecisionTimeout h
  | killNoticeReceived => exact out_ite (keeps_pairAbort (keeps_takeCount (keeps_ite (keeps_sendVerdict h) h))) h
  | fenceNoticeReceived => exact keeps_ite (keeps_fence h) h
  | pairSelectionReceived => exact keeps_ite h.fields h
  | pairSelectionTimeout => exact keeps_execPairSelectionTimeout h
  | pairSaveDecisionTimeout => exact keeps_execPairSaveDecisionTimeout h
  | corridorRequestArrival => exact keeps_execCorridorRequestArrival h
  | corridorAckTimeout => exact keeps_execCorridorAckTimeout h
  | stairwellDrain => exact out_ite (keeps_bbRecord (keeps_setWell (keeps_routeAround (keeps_leaveAll h)))) h
  | stairwellRetire => exact out_ite (keeps_bbRecord (keeps_setWell h)) h
  | stairwellFailure =>
    exact out_ite h (keeps_bbRecord (keeps_setWell (keeps_routeAround (keeps_losePackets (keeps_leaveAll h)))))
  | kLinkFlitRetry => exact keeps_execKLinkFlitRetry h
  | linkTraining => exact keeps_ite h.fields (keeps_reportFw h.fields)
  | bridgeLaneFailure => exact out_ite h (keeps_bbRecord h.fields)
  | pageWalkComplete => exact keeps_execPageWalkComplete h
  | shootdownAck => exact keeps_ite (keeps_acknowledge (keeps_ite (keeps_modCls h) h)) h
  | migration => exact keeps_execMigration h
  | codePageScan => exact keeps_execCodePageScan h
  | fetchLineMiss => exact keeps_execFetchLineMiss h
  | counterRequestArrival => exact keeps_execCounterRequestArrival h
  | waitCancelArrival => exact keeps_execWaitCancelArrival h
  | epochRequest => exact keeps_execEpochRequest h
  | recordMerge => exact keeps_execRecordMerge h
  | trapMerge => exact keeps_execTrapMerge h
  | mapOpArrival => exact keeps_execMapOpArrival h
  | wordCompletion => exact keeps_execWordCompletion h
  | remapTableWrite => exact keeps_ite h (keeps_modCls (keeps_ite h (keeps_freshTower h)))
  | blk => exact keeps_execBlk h
  | loop => exact keeps_runCommon h (fun _ _ _ h => keeps_loopAct h) fun _ _ h => keeps_loopFw h
  | psw => exact keeps_execPsw h
  | nop => exact keeps_runWord h fun _ h => h
  | add | sub | mul | mulh | mulhu | div | divu | rem | remu | and | or | xor | shl | shr | sra | min | max | minu | maxu =>
    exact keeps_srWord h
  | popc => exact keeps_execPopc h
  | clz => exact keeps_execClz h
  | ctz => exact keeps_execCtz h
  | addi => exact keeps_execAddi h
  | muli => exact keeps_execMuli h
  | andi => exact keeps_execAndi h
  | ori => exact keeps_execOri h
  | xori => exact keeps_execXori h
  | shli => exact keeps_execShli h
  | shri => exact keeps_execShri h
  | srai => exact keeps_execSrai h
  | li | lih | sel => exact keeps_runWord h fun _ h => keeps_sset h
  | cmpeq => exact keeps_execCmpeq h
  | cmpne => exact keeps_execCmpne h
  | cmplt => exact keeps_execCmplt h
  | cmpltu => exact keeps_execCmpltu h
  | cmple => exact keeps_execCmple h
  | cmpleu => exact keeps_execCmpleu h
  | cmpeqi => exact keeps_execCmpeqi h
  | cmplti => exact keeps_execCmplti h
  | br => exact keeps_execBr h
  | brr => exact keeps_runWord h fun _ h => keeps_jumpTo h fun _ _ h => h
  | bz => exact keeps_execBz h
  | bnz => exact keeps_execBnz h
  | beq | bne | blt | bltu => exact keeps_branchIf h
  | bge => exact keeps_execBge h
  | bgeu => exact keeps_execBgeu h
  | bq | bqn => exact keeps_runWord h fun _ h => keeps_popQb h
  | call => exact keeps_runWord h fun _ h => keeps_callTo h
  | callr => exact keeps_runWord h fun _ h => keeps_jumpTo h fun _ _ h => keeps_callTo h
  | ret => exact keeps_execRet h
  | qpop => exact keeps_execQpop h
  | fqpush | join => exact keeps_runWord h fun _ h => keeps_clsOnly (res_ite (keeps_modMe h) trivial)
  | prio => exact keeps_execPrio h
  | sleepns => exact keeps_execSleepns h
  | rdlnc => exact keeps_runWord h fun _ h => res_ite trivial (keeps_sset h)
  | rdcsr => exact keeps_execRdcsr h
  | wrcsr => exact keeps_execWrcsr h
  | lds => exact keeps_execLds h
  | sts => exact keeps_runWord h fun _ h => res_ite trivial (keeps_writeNat h)
  | exit => exact keeps_execExit h
  | aadd | asub | aaddi | amuli | ashli | amov | amovi => exact keeps_arWord h
  | copy => exact keeps_execCopy h
  | copy2d => exact keeps_execCopy2d h
  | gather | scatter => exact keeps_runWord h fun _ h => keeps_rowBody h
  | ldq => exact keeps_runWord h fun _ h => keeps_clsOnly (res_ite trivial (res_ite trivial (keeps_accessBody h)))
  | aqeq | aqne | aqlt | aqltu | aqeqi | aqlti => exact keeps_aqWord h
  | kvmap | kvshare | kvfree => exact keeps_kvWord h
  | viewDef => exact keeps_runWord h fun _ h => keeps_clsOnly (res_ite (keeps_modCls h) trivial)
  | brefill => exact keeps_execBrefill h
  | rfdefer => exact keeps_runWord h fun _ h => keeps_clsOnly (keeps_force (keeps_finishDone (keeps_modCls h)))
  | rfnow | bexp | fence => exact keeps_runWord h fun _ h => keeps_clsOnly (keeps_modMe h)
  | rdretb => exact keeps_runWord h fun _ h => keeps_clsOnly (res_ite (keeps_pushQs h) trivial)
  | xsh => exact keeps_runWord h fun _ h => keeps_clsOnly (keeps_shiftBody h)
  | xsht => exact keeps_execXsht h
  | xsend | xrecv => exact keeps_runWord h fun _ h => keeps_xferBody h
  | xbcast => exact keeps_execXbcast h
  | vadd | vsub | vmul | vfma | vfnma | vmin | vmax | vabs | vneg | vaddsat | vsubsat | vmulh | vand | vor | vxor | vnot | vpopc
  | vclz | vshl | vshr | vsra | vshli | vshri | vsrai | vdot4 | vrcp | vrsq | vrcpf | vrsqf | vexp2 | vmov =>
    exact keeps_laneWord h
  | vaddQ | vsubQ | vmulQ | vfmaQ | vminQ | vmaxQ | vandQ | vorQ | vxorQ | vqbc => exact keeps_laneWordQ h
  | vcmpeqQ | vcmpltQ | vcmpleQ => exact keeps_cmpWordQ h
  | vcmpeq | vcmpne | vcmplt | vcmple | vcmpun => exact keeps_cmpWord h
  | kand | kor | kxor => exact keeps_maskWord h
  | kandn => exact keeps_execKandn h
  | knot => exact keeps_execKnot h
  | kset | vsel | vcvt | vnrw | vmovi => exact keeps_runWord h fun _ h => keeps_vecBody h
  | vwadd | vwmul | vwfma => exact keeps_wideWord h
  | vrsum => exact keeps_execVrsum h
  | vrmax | vrmin | vramax => exact keeps_reduceWord h
  | vperm | vslideup | vslidedn | vsplat => exact keeps_permWord h
  | vld | vlds | vldx | vst | vsts | vstx => exact keeps_vmWord h
  | mmaBf16 | mmaE4m3 | mmaE5m2 | mmaK4 | mmazBf16 | mmazE4m3 | mmazE5m2 | mmazK4 =>
    exact keeps_runWord h fun _ h => keeps_stepBody h
  | mzero => exact keeps_runWord h fun _ h => keeps_clsOnly (keeps_foldl h fun _ _ h => keeps_putTile h)
  | mldc => exact keeps_runWord h fun _ h => keeps_clsOnly (res_ite trivial h)
  | mstc => exact keeps_runWord h fun _ h => keeps_clsOnly (res_ite trivial (res_ite trivial h))
  | mstat => exact keeps_execMstat h
  | qcvtK4 | qcvtE4m3 | qcvtE5m2 => exact keeps_runWord h fun _ h => keeps_qBody h
  | cadd | caddi => exact keeps_runWord h fun _ h => keeps_sendCtr h (keeps_fwAdd h)
  | cwait | cwaitT => exact keeps_runWord h fun _ h => keeps_sendCtr h (keeps_fwWait h)
  | cread => exact keeps_runWord h fun _ h => keeps_sendCtr h (keeps_sset h)
  | barrive => exact keeps_runWord h fun _ h => keeps_clsOnly (keeps_sendCtr (keeps_modMe h) trivial)
  | bwait => exact keeps_runWord h fun _ h => keeps_clsOnly (keeps_sendCtr h trivial)
  | phase => exact keeps_runWord h fun _ h => keeps_clsOnly (res_ite h (res_ite (keeps_doRelease h) trivial))
  | amoAdd | amoMax | amoMin | amoAnd | amoOr | amoXchg | amoCas => exact keeps_amoWord h
  | srread | srreadPol | srreadClr => exact keeps_srRead h
  | trap => exact keeps_execTrap h
  | rett => exact keeps_execRett h
  | hbeat => exact keeps_fwOnly h fun _ _ h => keeps_ite (keeps_updateDone (keeps_modFw h)) (keeps_modFw h)
  | pld => exact keeps_fwOnly h fun _ _ h => res_ite (keeps_sset (keeps_fwErr h)) (keeps_sset h)
  | pst => exact keeps_fwOnly h fun _ _ h => res_ite (keeps_fwErr h) (res_ite h (res_ite trivial (keeps_storeNat h)))
  | evpop => exact keeps_execEvpop h
  | evdone => exact keeps_execEvdone h
  | mbxrd => exact keeps_fwOnly h fun _ _ h => keeps_sset (keeps_ite (keeps_fwErr h) h)
  | mbxwr => exact keeps_fwOnly h fun _ _ h => res_ite (keeps_mailboxDone h) (res_ite h.fields (keeps_fwErr h))
  | fwcsr => exact keeps_fwOnly h fun _ _ h => keeps_ite (keeps_modFw (keeps_sset h)) (keeps_sset h)
  | shoot => exact keeps_execShoot h
  | pairSaveDecisionReceived => exact keeps_execPairSaveDecisionReceived h
  | keyProvisioning => exact out_ite (keeps_modPart h) h

theorem keeps_runFetched {ctx w} (h : Keeps s t) : OutKeeps s (runFetched t ctx w) := by
  unfold runFetched
  split
  · exact keeps_exec h.fields
  · trivial

theorem keeps_nextMover (h : Keeps s t) : Keeps s (nextMover t).2 := by
  unfold nextMover
  split
  · exact h.fields
  · exact h.fields

/-- The move of the agent whose turn it is keeps. -/
theorem keeps_step (s : State) : OutKeeps s (step s) := by
  have moved : ∀ {m t}, nextMover s = (m, t) → Keeps s t := fun e => by
    have := keeps_nextMover (Keeps.refl s)
    rwa [e] at this
  unfold step
  split
  · next e => exact out_ite (moved e) (keeps_exec (moved e))
  · next e =>
    split
    · exact moved e
    · exact keeps_exec (moved e)
    · exact keeps_runFetched (moved e)
  · next e =>
    split
    · exact moved e
    · exact moved e
    · exact keeps_runFetched (moved e)
  · next e => exact keeps_service (moved e)

end

/-- Settles O60: the relation `Keeps` holds from every state to the next. -/
theorem everyStepKeeps : Obligations.EveryStepKeeps := by
  unfold Obligations.EveryStepKeeps
  have kept : ∀ s t, step s = .next t → Keeps s t := fun s t e => by
    have h := keeps_step s
    rwa [e] at h
  exact ⟨fun s t wf e => (kept s t e).mem wf, fun s t e => ⟨(kept s t e).born, (kept s t e).clock⟩⟩

end Sys2Proof.Machine
end

section
/-!
PROOFS for O56: the accessors of the state after reset.
-/

namespace Sys2Proof.Machine

theorem getCls_reset {c : Nat} (hc : c < 40) : getCls State.reset c = ClassState.reset c := by
  simp [getCls, State.reset, List.getD_eq_getElem?_getD, hc]

theorem getPart_reset {k : Nat} (hk : k < 17) : getPart State.reset k = {} :=
  List.getD_replicate _ hk

theorem getQueue_reset {k q : Nat} (hk : k < 17) (hq : q < 8) : getQueue State.reset k q = {} := by
  rw [getQueue, getPart_reset hk]
  exact List.getD_replicate _ hq

theorem getDie_reset {d : Nat} (hd : d < 2) : getDie State.reset d = {} :=
  List.getD_replicate _ hd

theorem wellOf_reset {d r : Nat} (hd : d < 2) (hr : r < 8) : wellOf State.reset d r = {} := by
  rw [wellOf, getDie_reset hd]
  exact List.getD_replicate _ hr

/-- The two stairwells of RTBL after reset (R201): the nearer one first, both of the same row of stairwells. -/
theorem ClassState.reset_route (c : Nat) : (ClassState.reset c).rpri = 2 * (c % 20 / 5) + (if c % 20 % 5 ≤ 1 then 0 else 1)
    ∧ (ClassState.reset c).rpri / 2 = (ClassState.reset c).ralt / 2 ∧ (ClassState.reset c).rpri ≠ (ClassState.reset c).ralt := by
  refine ⟨rfl, ?_, ?_⟩ <;> simp only [ClassState.reset] <;> split <;> omega

/-- A queue of a partition that has none is idle. -/
theorem qstat_reset {k q : Nat} (hk : k < 17) (hq : q < 8) : (qstat State.reset k q).getLsbD 0 = true := by
  have idle : (!pending (getQueue State.reset k q) && (queueInsts State.reset k q).isEmpty) = true := by
    rw [getQueue_reset hk hq]
    rfl
  simp only [qstat, idle]
  rw [BitVec.getLsbD_setWidth, BitVec.getLsbD_append, if_pos (by decide)]
  rfl

/-- Settles O56: the values of `State.reset`, read through the accessors. -/
theorem resetState : Obligations.ResetState := by
  unfold Obligations.ResetState
  refine ⟨rfl, rfl, rfl, rfl, rfl, rfl, wf_reset, rfl, fun c hc => ?_, fun k q hk hk' hq => ?_, fun d r hd hr => ?_, rfl, rfl⟩
  · simp only [getCls_reset hc]
    exact ⟨rfl, rfl, rfl, rfl, rfl, rfl, rfl, rfl, rfl, rfl, rfl, rfl, rfl, rfl, rfl, fun _ _ => rfl, fun _ hv => absurd hv List.not_mem_nil,
      ClassState.reset_route c⟩
  · have hk : k < 17 := by omega
    rw [getPart_reset hk, getQueue_reset hk hq]
    exact ⟨rfl, rfl, rfl, rfl, rfl, rfl, by simp [vfOn, getPart_reset hk], qstat_reset hk hq⟩
  · rw [getDie_reset hd]
    exact ⟨rfl, rfl, by rw [wellOf_reset hd hr]⟩

end Sys2Proof.Machine
end

section
/-!
PROOFS for O9: lending changes nothing of a team but its loans, and publishing nothing of a class but PRIOC.
-/

namespace Sys2Proof.Machine

/-- What lending leaves alone of a team. -/
def Team.unlent (t : Team) : Team := { t with loans := [] }

/-- The classes are the same ones and the teams differ in their loans only. -/
def LentOnly (s t : State) : Prop := t.cls = s.cls ∧ t.teams.map Team.unlent = s.teams.map Team.unlent

theorem LentOnly.refl (s : State) : LentOnly s s := ⟨rfl, rfl⟩
theorem LentOnly.trans {s t u : State} (h : LentOnly s t) (g : LentOnly t u) : LentOnly s u :=
  ⟨g.1.trans h.1, g.2.trans h.2⟩

/-- A fold whose every step stands in a preorder to the state before it. -/
theorem lentOnly_foldl {α : Type} (f : State → α → State) (h : ∀ s a, LentOnly s (f s a)) (l : List α) (s : State) :
    LentOnly s (l.foldl f s) := by
  induction l generalizing s with
  | nil => exact .refl s
  | cons a l ih => exact (h s a).trans (ih _)

theorem lentOnly_map (s : State) (f : Team → Team) (h : ∀ t, (f t).unlent = t.unlent) :
    LentOnly s { s with teams := s.teams.map f } :=
  ⟨rfl, by simp [h]⟩

theorem lentOnly_lendTo (s : State) (id n : Nat) : LentOnly s (lendTo s id n) := by
  unfold lendTo
  split
  · exact .refl s
  · exact lentOnly_map s _ fun u => by split <;> rfl

theorem lentOnly_lendOnce (s : State) : LentOnly s (lendOnce s) :=
  lentOnly_foldl _ (fun _ _ => lentOnly_foldl _ (fun _ _ => lentOnly_lendTo ..) _ _) _ s

/-- The state in which `relend` publishes: the teams with the loans of now. -/
def lent (s : State) : State :=
  s.teams.foldl (fun s _ => lendOnce s) { s with teams := s.teams.map Team.unlent }

theorem lentOnly_lent (s : State) : LentOnly s (lent s) :=
  (lentOnly_map s Team.unlent fun _ => rfl).trans (lentOnly_foldl _ (fun _ _ => lentOnly_lendOnce _) _ _)

theorem relend_eq (s : State) :
    relend s = (lent s).teams.foldl (fun s t => if t.state == .saved then s else publishPrio s t.id) (lent s) := rfl

/-- A class with another PRIOC. -/
def withPrio (k : ClassState) (own eff : BitVec 2) : ClassState := { k with own := own, eff := eff }

theorem getCls_foldl_withPrio (own eff : BitVec 2) (l : List Nat) (s : State) (m : Nat) (hm : m < s.cls.length) :
    getCls (l.foldl (fun s c => modCls s c fun k => withPrio k own eff) s) m
      = if m ∈ l then withPrio (getCls s m) own eff else getCls s m := by
  induction l generalizing s with
  | nil => rfl
  | cons a l ih =>
    rw [List.foldl_cons, ih _ (by simpa using hm)]
    by_cases e : m = a
    · subst e
      rw [getCls_modCls s m _ hm]
      by_cases h : m ∈ l <;> simp [h, withPrio]
    · simp [getCls_modCls_ne s a m _ e, e]

theorem foldl_modCls_frame (g : ClassState → ClassState) (l : List Nat) (s : State) :
    (l.foldl (fun s c => modCls s c g) s).teams = s.teams ∧ (l.foldl (fun s c => modCls s c g) s).cls.length = s.cls.length := by
  induction l generalizing s with
  | nil => exact ⟨rfl, rfl⟩
  | cons a l ih => exact ⟨(ih _).1, (ih _).2.trans (length_modCls ..)⟩

theorem publishPrio_teams (s : State) (id : Nat) : (publishPrio s id).teams = s.teams := by
  unfold publishPrio
  split
  · rfl
  · exact (foldl_modCls_frame ..).1

theorem publishPrio_length (s : State) (id : Nat) : (publishPrio s id).cls.length = s.cls.length := by
  unfold publishPrio
  split
  · rfl
  · exact (foldl_modCls_frame ..).2

theorem getCls_publishPrio {s : State} {id : Nat} {t : Team} (h : s.teams.find? (fun t => t.id = id) = some t) {m : Nat}
    (hm : m < s.cls.length) :
    getCls (publishPrio s id) m = if m ∈ t.classes then withPrio (getCls s m) t.own (effOf t) else getCls s m := by
  simp only [publishPrio, h]
  exact getCls_foldl_withPrio t.own (effOf t) t.classes s m hm

/-- Class `m` stands with own class `v`, and all else of it but PRIOC as `k`. -/
def PrioOf (k : ClassState) (v : BitVec 2) (s : State) (m : Nat) : Prop :=
  m < s.cls.length ∧ ∃ e, getCls s m = withPrio k v e

/-- The teams on class `m` that are not saved have own class `v`. -/
def OwnOn (ts : List Team) (m : Nat) (v : BitVec 2) : Prop :=
  ∀ u ∈ ts, m ∈ u.classes → u.state ≠ .saved → u.own = v

theorem find?_id {ts : List Team} (hd : (ts.map (·.id)).Nodup) {t : Team} (h : t ∈ ts) :
    ts.find? (fun u => u.id = t.id) = some t := by
  induction ts with
  | nil => cases h
  | cons a ts ih =>
    rw [List.map_cons, List.nodup_cons] at hd
    obtain ⟨ha, hd⟩ := hd
    rcases List.mem_cons.1 h with rfl | h
    · simp
    · have ne : a.id ≠ t.id := fun e => ha (e ▸ List.mem_map_of_mem h)
      simp [ne, ih hd h]

theorem prioOf_publishPrio {s : State} {t : Team} {k : ClassState} {v : BitVec 2} {m : Nat} (hd : (s.teams.map (·.id)).Nodup)
    (ho : OwnOn s.teams m v) (ht : t ∈ s.teams) (hs : t.state ≠ .saved) (h : PrioOf k v s m) :
    PrioOf k v (publishPrio s t.id) m := by
  obtain ⟨hm, e, he⟩ := h
  refine ⟨by rwa [publishPrio_length], ?_⟩
  rw [getCls_publishPrio (find?_id hd ht) hm, he]
  split
  · exact ⟨effOf t, by rw [ho t ht ‹_› hs]; rfl⟩
  · exact ⟨e, rfl⟩

/-- Publishing every team that is not saved keeps the own class that all of them on the class have. -/
theorem prioOf_publishAll {k : ClassState} {v : BitVec 2} {m : Nat} {ts : List Team} (hd : (ts.map (·.id)).Nodup)
    (ho : OwnOn ts m v) (l : List Team) (hl : ∀ t ∈ l, t ∈ ts) (s : State) (hs : s.teams = ts) (h : PrioOf k v s m) :
    PrioOf k v (l.foldl (fun s t => if t.state == .saved then s else publishPrio s t.id) s) m := by
  induction l generalizing s with
  | nil => exact h
  | cons t l ih =>
    rw [List.foldl_cons]
    refine ih (fun u hu => hl u (List.mem_cons_of_mem _ hu)) _ ?_ ?_
    · split
      · exact hs
      · rw [publishPrio_teams, hs]
    · split
      case isTrue => exact h
      case isFalse hn =>
        subst hs
        exact prioOf_publishPrio hd ho (hl t List.mem_cons_self) (by simpa using hn) h

theorem ids_of_unlent {ts us : List Team} (h : ts.map Team.unlent = us.map Team.unlent) : ts.map (·.id) = us.map (·.id) := by
  simpa [Function.comp_def, Team.unlent] using congrArg (List.map (·.id)) h

theorem OwnOn.of_unlent {ts us : List Team} {m : Nat} {v : BitVec 2} (h : us.map Team.unlent = ts.map Team.unlent)
    (ho : OwnOn ts m v) : OwnOn us m v := by
  intro u hu hc hs
  have : u.unlent ∈ ts.map Team.unlent := h ▸ List.mem_map_of_mem hu
  obtain ⟨t, ht, e⟩ := List.mem_map.1 this
  have e1 : t.unlent.classes = u.unlent.classes := congrArg _ e
  have e2 : t.unlent.state = u.unlent.state := congrArg _ e
  have e3 : t.unlent.own = u.unlent.own := congrArg _ e
  exact e3 ▸ ho t ht (e1 ▸ hc) (e2 ▸ hs)

theorem prioOf_relend {s : State} {k : ClassState} {v : BitVec 2} {m : Nat} (hd : (s.teams.map (·.id)).Nodup)
    (ho : OwnOn s.teams m v) (h : PrioOf k v s m) : PrioOf k v (relend s) m := by
  obtain ⟨hcls, hteams⟩ := lentOnly_lent s
  rw [relend_eq]
  refine prioOf_publishAll (by rwa [ids_of_unlent hteams]) (ho.of_unlent hteams) _ (fun _ h => h) _ rfl ?_
  simpa only [PrioOf, getCls, hcls] using h

theorem relend_length (s : State) : (relend s).cls.length = s.cls.length := by
  have key : ∀ (l : List Team) (u : State),
      (l.foldl (fun s t => if t.state == .saved then s else publishPrio s t.id) u).cls.length = u.cls.length := by
    intro l
    induction l with
    | nil => exact fun _ => rfl
    | cons t l ih =>
      intro u
      rw [List.foldl_cons, ih]
      split
      · rfl
      · exact publishPrio_length ..
  rw [relend_eq, key, (lentOnly_lent s).1]

theorem setPrio_length (s : State) (c p : Nat) : (setPrio s c p).cls.length = s.cls.length := by
  unfold setPrio
  split
  · rfl
  · rw [relend_length, publishPrio_length]; rfl

theorem toNat_max_prio (b : BitVec 2) {p : Nat} (h : p ≤ 3) : (BitVec.ofNat 2 (max p b.toNat)).toNat = max p b.toNat := by
  rw [BitVec.toNat_ofNat, Nat.mod_eq_of_lt (by omega)]

/-- PRIO sets the own class of every member of the team, and of a class nothing but PRIOC (R364). -/
theorem prioOf_setPrio {s : State} {c m : Nat} (p : Nat) {t0 : Team} (ht : teamOf s c = some t0)
    (hd : (s.teams.map (·.id)).Nodup) (hm : m ∈ t0.classes) (hl : m < s.cls.length)
    (hu : ∀ u ∈ s.teams, m ∈ u.classes → u.state ≠ .saved → u = t0) :
    PrioOf (getCls s m) (BitVec.ofNat 2 (max p (getCls s c).ceil.toNat)) (setPrio s c p) m := by
  unfold setPrio
  rw [ht]
  dsimp only
  generalize BitVec.ofNat 2 (max p (getCls s c).ceil.toNat) = v
  have mem : t0 ∈ s.teams := List.mem_of_find?_eq_some ht
  have ids : ((modTeam s t0.id fun t => { t with own := v }).teams.map (·.id)) = s.teams.map (·.id) := by
    simp only [modTeam, List.map_map]
    exact List.map_congr_left fun t _ => by simp only [Function.comp]; split <;> rfl
  have own : OwnOn (modTeam s t0.id fun t => { t with own := v }).teams m v := by
    intro u h hc hs
    obtain ⟨t, h', rfl⟩ := List.mem_map.1 h
    by_cases e : t.id = t0.id
    · rw [if_pos e]
    · rw [if_neg e] at hc hs
      exact absurd (congrArg Team.id (hu t h' hc hs)) e
  have mem' : { t0 with own := v } ∈ (modTeam s t0.id fun t => { t with own := v }).teams :=
    List.mem_map.2 ⟨t0, mem, if_pos rfl⟩
  refine prioOf_relend (by rwa [publishPrio_teams, ids]) (by rwa [publishPrio_teams]) ⟨by rwa [publishPrio_length], ?_⟩
  rw [getCls_publishPrio (find?_id (ids ▸ hd) mem') hl, if_pos hm]
  exact ⟨_, rfl⟩

/-- Settles O9: PRIO by `prioOf_setPrio`, the others by what their body answers. -/
theorem timeAndPriorityWords : Obligations.TimeAndPriorityWords := by
  unfold Obligations.TimeAndPriorityWords
  refine ⟨fun h f s c R hp => ⟨?_, fun t0 m ht hd hm hl hu => ?_⟩, fun h f s c R h0 => ?_, fun h f s c R h0 => ?_,
    fun h f s c R hq => ?_, fun h f s c R hh hq => ?_⟩
  · exact runWord_done R (by simp only [R.focus]) (by rw [setPrio_length]; exact R.inRange)
  · obtain ⟨-, e, he⟩ := prioOf_setPrio f.imm.toNat ht hd hm hl hu
    rw [he]
    exact ⟨toNat_max_prio _ hp, rfl⟩
  · exact runWord_done R (by simp only [R.focus, sget_cls R.focus, h0, if_true]) R.inRange
  · exact runWord_async R (body := fun s => _) (by simp only [R.focus, sget_cls R.focus, h0, if_false, BitVec.ofNat_toNat,
      BitVec.setWidth_eq]) R.inRange fun _ => rfl
  · refine runWord_done R ?_ (by unfold withS; split <;> simp [R.inRange])
    simp only [pairedOn, focusCls_cls R.focus, hq, Bool.false_eq_true, if_false, sset_cls R.focus, myLnc, R.focus]
  · exact runWord_trap_outside R hh (by simp only [pairedOn, focusCls_cls R.focus, hq, if_true])

end Sys2Proof.Machine
end

section
/-!
PROOFS for O46: the grant, the class clock, the hotspot guard and the window; what a reference tick makes of the classes and
the dies.
-/

namespace Sys2Proof.Machine

/-! ## The grant (R32, R52) -/

theorem overheated_iff (s : State) : overheated s = true ↔ ∃ k ∈ s.cls, ∃ x ∈ k.temps, 125 ≤ x := by
  simp [overheated]

/-- Whether less than 100 µs have passed since the grant was last raised. -/
def raiseRests (s : State) : Bool :=
  match s.raisedAt with
  | some t => decide (s.ticks8 < t + 12500)
  | none => false

theorem nextGrant_of_overheated {s : State} (h : overheated s = true) (n : Nat) : nextGrant s n = 0 := by
  rw [nextGrant, h]; rfl

theorem nextGrant_of_cool {s : State} (h : overheated s = false) (n : Nat) :
    nextGrant s n = min s.pcap (if n ≤ s.grant then n else if !s.capped || raiseRests s then s.grant else s.grant + 1) := by
  rw [nextGrant, h]; rfl

/-- An evaluation never lifts the grant above the cap, and by more than one level only where it may rise. -/
theorem nextGrant_le (s : State) (n : Nat) :
    nextGrant s n ≤ s.pcap ∧ nextGrant s n ≤ s.grant + 1 ∧ (s.capped = false ∨ raiseRests s = true → nextGrant s n ≤ s.grant) := by
  cases h : overheated s with
  | true => simp [nextGrant_of_overheated h]
  | false =>
    rw [nextGrant_of_cool h]
    refine ⟨Nat.min_le_left .., (Nat.min_le_right ..).trans ?_, fun hr => (Nat.min_le_right ..).trans ?_⟩
    · split
      · omega
      · split <;> omega
    · split
      · assumption
      · rw [if_pos (by simpa using hr)]

theorem exec_powerEvaluation {g : BitVec 3} {s : State}
    (h : match s.evalAt with | some t => t + 1250 ≤ s.ticks8 | none => True) :
    exec (.powerEvaluation g) s = .next
      { s with
        grant := nextGrant s (if s.capped then g.toNat else s.grant), evalAt := some s.ticks8
        raisedAt := if s.grant < nextGrant s (if s.capped then g.toNat else s.grant) then some s.ticks8 else s.raisedAt } := by
  show execPowerEvaluation g s = _
  rw [execPowerEvaluation]
  cases he : s.evalAt with
  | none => rfl
  | some t =>
    rw [he] at h
    have h : ¬ s.ticks8 < t + 1250 := Nat.not_lt.2 h
    simp [h]

/-! ## Class clocks (R31, R33) -/

theorem clockOfCode_max {a b : Nat} (ha : a ≤ 8) (hb : b ≤ 8) :
    clockOfCode (max a b) = min (clockOfCode a) (clockOfCode b) := by
  simp only [clockOfCode, ha, hb, Nat.max_le, and_self, if_true]; omega

theorem levelClock_le (l : Nat) : levelClock l ≤ 8 := by
  unfold levelClock; split <;> decide

theorem clockOfCode_levelClock {l : Nat} (h : l ≤ 7) : clockOfCode (levelClock l) = levelQuarters l := by
  interval_cases l <;> rfl

theorem thermalClock_le (l r : Nat) : thermalClock l r ≤ 8 := by
  unfold thermalClock; split <;> omega

theorem clockOfCode_thermalClock {l r : Nat} (hl : l ≤ 7) (hr : r ≤ 3) :
    clockOfCode (thermalClock l r) = thermalQuarters l r := by
  interval_cases r
  · rfl
  · interval_cases l <;> rfl
  · rfl
  · rfl

theorem classClock_le {s : State} {k : ClassState} (hg : ∀ x, k.govCap = some x → x ≤ 8) : classClock s k ≤ 8 := by
  have : k.govCap.getD 0 ≤ 8 := by
    cases h : k.govCap with
    | none => exact Nat.zero_le 8
    | some x => exact hg x h
  exact Nat.max_le.2 ⟨levelClock_le _, Nat.max_le.2 ⟨thermalClock_le .., this⟩⟩

/-- The class clock is the lowest of level clock, thermal cap and governor's cap (R33). -/
theorem clockOfCode_classClock {s : State} {k : ClassState} (h7 : s.grant ≤ 7) (h3 : k.thermRow ≤ 3)
    (hg : ∀ x, k.govCap = some x → x ≤ 8) :
    clockOfCode (classClock s k) = min (levelQuarters s.grant) (min (thermalQuarters s.grant k.thermRow)
      (match k.govCap with | some x => clockOfCode x | none => 10)) := by
  have gov : k.govCap.getD 0 ≤ 8 ∧ clockOfCode (k.govCap.getD 0) = match k.govCap with | some x => clockOfCode x | none => 10 := by
    cases h : k.govCap with
    | none => exact ⟨Nat.zero_le 8, rfl⟩
    | some x => exact ⟨hg x h, rfl⟩
  rw [classClock, clockOfCode_max (levelClock_le _) (Nat.max_le.2 ⟨thermalClock_le .., gov.1⟩),
    clockOfCode_max (thermalClock_le ..) gov.1, clockOfCode_levelClock h7, clockOfCode_thermalClock h7 h3, gov.2]

/-! ## The hotspot guard (R52) -/

theorem thermRowOf_mono {a b : Nat} (h : a ≤ b) : thermRowOf a ≤ thermRowOf b := by
  unfold thermRowOf; (repeat' split) <;> omega

theorem thermLimit_thermRowOf {h : Nat} (hr : thermRowOf h ≠ 0) : thermLimit (thermRowOf h) ≤ h := by
  simp only [thermLimit, thermRowOf] at *; split_ifs at * <;> omega

/-- A sample takes a row of a higher cap only where the reading lies 5 below the threshold of the row in force. -/
theorem guardSample_cases (k : ClassState) :
    ∃ row below peak, guardSample k = { k with thermRow := row, thermBelow := below, thermPeak := peak }
      ∧ (k.thermRow < thermRowOf (hottest k) → row = thermRowOf (hottest k))
      ∧ (thermRowOf (hottest k) ≤ k.thermRow → row = k.thermRow
          ∨ k.thermRow ≠ 0 ∧ hottest k < thermLimit k.thermRow - 5 ∧ thermRowOf (hottest k) ≤ row) := by
  unfold guardSample
  dsimp only
  split
  case isTrue lower => exact ⟨_, _, _, rfl, fun _ => rfl, fun h => absurd lower (by omega)⟩
  case isFalse stays =>
    split
    · exact ⟨_, _, _, rfl, fun h => absurd h stays, fun _ => .inl rfl⟩
    case isFalse cools =>
      split
      · exact ⟨_, _, _, rfl, fun h => absurd h stays, fun _ => .inl rfl⟩
      · exact ⟨_, _, _, rfl, fun h => absurd h stays, fun _ => .inr
          ⟨fun h => cools (.inl h), by omega, thermRowOf_mono (by omega)⟩⟩

theorem hottest_of_length {k : ClassState} (h : k.temps.length = 4) :
    hottest k = hot4 (k.temps.getD 0 0) (k.temps.getD 1 0) (k.temps.getD 2 0) (k.temps.getD 3 0) := by
  obtain ⟨a, b, x, y, e⟩ : ∃ a b x y, k.temps = [a, b, x, y] := by
    match k.temps, h with
    | [a, b, x, y], _ => exact ⟨a, b, x, y, rfl⟩
  rw [e]
  simp [hottest, e, hot4]

theorem hottest_four {k : ClassState} {a b x y : Nat} (h : k.temps = [a, b, x, y]) : hottest k = hot4 a b x y := by
  simp only [hottest, h, List.foldl, hot4]; omega

/-- The class after a sample; its hottest reading is the sample's. -/
def sampled (k : ClassState) (ts : List Nat) : ClassState := guardSample { k with temps := ts }

theorem sampled_temps (k : ClassState) (ts : List Nat) : (sampled k ts).temps = ts := by
  obtain ⟨row, below, peak, h, -⟩ := guardSample_cases { k with temps := ts }
  rw [sampled, h]

theorem sampled_frame (k : ClassState) (ts : List Nat) :
    { sampled k ts with temps := [], thermRow := 0, thermBelow := 0, thermPeak := 0 }
      = { k with temps := [], thermRow := 0, thermBelow := 0, thermPeak := 0 } := by
  obtain ⟨row, below, peak, h, -⟩ := guardSample_cases { k with temps := ts }
  rw [sampled, h]

/-- The row after a sample of hottest reading `h`: a lower row at once, the row in force until the reading lies 5 below its threshold. -/
theorem sampled_thermRow (k : ClassState) (a b x y : Nat) :
    let h := hot4 a b x y
    let r := (sampled k [a, b, x, y]).thermRow
    thermRowOf h ≤ r ∧ (k.thermRow < thermRowOf h → r = thermRowOf h) ∧ (k.thermRow = thermRowOf h → r = thermRowOf h)
      ∧ (85 + 10 * k.thermRow ≤ h → thermRowOf h ≤ k.thermRow → r = k.thermRow) := by
  obtain ⟨row, below, peak, e, lower, stays⟩ := guardSample_cases { k with temps := [a, b, x, y] }
  have hh : hottest { k with temps := [a, b, x, y] } = hot4 a b x y := hottest_four rfl
  rw [hh] at lower stays
  dsimp only at lower stays ⊢
  rw [sampled, e]
  have limit := thermLimit_thermRowOf (h := hot4 a b x y)
  unfold thermLimit at limit stays
  generalize thermRowOf (hot4 a b x y) = r at *
  generalize hot4 a b x y = h at *
  dsimp only
  refine ⟨?_, lower, fun same => ?_, fun warm le => ?_⟩
  · rcases Nat.lt_or_ge k.thermRow r with lt | ge
    · rw [lower lt]
    · rcases stays ge with same | ⟨-, -, le⟩ <;> omega
  · rcases stays same.ge with e | ⟨ne, cool, -⟩
    · omega
    · have := limit (same ▸ ne)
      omega
  · rcases stays le with e | ⟨-, cool, -⟩
    · exact e
    · omega

/-- A black-box entry that one of two cases makes changes dies only. -/
theorem bbClass_eq (s : State) (c code : Nat) (unit : Byte) (v : W64) :
    ∃ ds, bbClass s c code unit v = { s with dies := ds } := ⟨_, rfl⟩

/-- A sample changes its class, what the black boxes hold, and at 125 °C the grant, with the alarm when it came to that (log 63). -/
theorem exec_sensorSample {c : Nat} (a b x y : Nat) {s : State} (h40 : c < 40) (hc : c < s.cls.length) :
    ∃ t, exec (.sensorSample c a b x y) s = .next t ∧ getCls t c = sampled (getCls s c) [a, b, x, y]
      ∧ (∀ j, j ≠ c → getCls t j = getCls s j) ∧ t.grant = (if 125 ≤ hot4 a b x y then 0 else s.grant)
      ∧ (125 ≤ hot4 a b x y → hottest (getCls s c) < 125 → t.out = s.out ++ [.msix .pf0 1]) := by
  have now : getCls (modCls s c fun k => guardSample { k with temps := [a, b, x, y] }) c = sampled (getCls s c) [a, b, x, y] :=
    getCls_modCls s c _ hc
  have ne := fun j => getCls_modCls_ne s c j fun k => guardSample { k with temps := [a, b, x, y] }
  have hh : hottest (sampled (getCls s c) [a, b, x, y]) = hot4 a b x y := hottest_four (sampled_temps ..)
  show ∃ t, execSensorSample c a b x y s = _ ∧ _
  rw [execSensorSample, if_neg (by omega)]
  dsimp only
  rw [now, hh]
  generalize hs1 : (if (getCls s c).thermRow < 3 ∧ (sampled (getCls s c) [a, b, x, y]).thermRow = 3 then _ else _ : State) = s1
  obtain ⟨ds, rfl⟩ : ∃ ds, s1 = { modCls s c fun k => guardSample { k with temps := [a, b, x, y] } with dies := ds } := by
    rw [← hs1]; split
    · exact bbClass_eq ..
    · exact ⟨_, rfl⟩
  by_cases hot : 125 ≤ hot4 a b x y
  · rw [if_pos hot]
    by_cases old : hottest (getCls s c) < 125
    · rw [if_pos old]
      exact ⟨_, rfl, now, ne, (if_pos hot).symm, fun _ _ => rfl⟩
    · rw [if_neg old]
      exact ⟨_, rfl, now, ne, (if_pos hot).symm, fun _ h => absurd h old⟩
  · rw [if_neg hot]
    exact ⟨_, rfl, now, ne, (if_neg hot).symm, fun h => absurd h hot⟩

/-! ## The window (R49) -/

theorem mem_windowRefuses {l : List Nat} {p u : Nat} {a b : Bool} :
    u ∈ windowRefuses l p a b ↔ (a = true ∧ b = true)
      ∧ (u = 2 * p ∧ 2 * p ∉ l ∧ 2 * p + 1 ∈ l ∨ u = 2 * p + 1 ∧ (2 * p ∈ l ∨ 2 * p + 1 ∉ l)) := by
  unfold windowRefuses
  cases a <;> cases b <;> by_cases h0 : 2 * p ∈ l <;> by_cases h1 : 2 * p + 1 ∈ l <;> simp [h0, h1]

theorem mem_window {l : List Nat} {p u : Nat} {a b : Bool} :
    u ∈ windowRefuses l p a b ++ l.filter (fun r => r / 2 != p) ↔
      (u / 2 ≠ p ∧ u ∈ l) ∨ u / 2 = p ∧ u ∈ windowRefuses l p a b := by
  have pair : u ∈ windowRefuses l p a b → u / 2 = p := by
    rw [mem_windowRefuses]; omega
  by_cases h : u / 2 = p
  · simp [h]
  · simp [h, mt pair h]

theorem exec_windowArbitration_of_none {c : Nat} (a b : Bool) (s : State) (h : ¬ (c % 20 % 5 = 1 ∨ c % 20 % 5 = 3)) :
    exec (.windowArbitration c 4 a b) s = .next s := by
  show execWindowArbitration c 4 a b s = _
  have : overStairwell c = false := by simpa [overStairwell, localOf] using h
  simp [execWindowArbitration, this]

theorem exec_windowArbitration {c p : Nat} (a b : Bool) (s : State) (hp : p ≤ 4)
    (h : p = 4 → c % 20 % 5 = 1 ∨ c % 20 % 5 = 3) :
    exec (.windowArbitration c p a b) s = .next (modCls s c fun k => { k with
      refusals := windowRefuses k.refusals p a b ++ k.refusals.filter fun r => r / 2 != p }) := by
  show execWindowArbitration c p a b s = _
  have : (decide (4 < p) || (p == 4 && !overStairwell c)) = false := by
    simpa [overStairwell, localOf, hp, or_iff_not_imp_left] using h
  rw [execWindowArbitration, this]
  rfl

end Sys2Proof.Machine
end

section
/-!
PROOFS for O46: the reference tick, part by part.
-/

namespace Sys2Proof.Machine

/-! ## Requests that leave -/

/-- A word in flight without its requests' state. -/
def InFlight.unreq (f : InFlight) : InFlight := { f with reqs := [] }

/-- Nothing differs but the requests of words in flight. -/
def LeftOnly (s t : State) : Prop :=
  { t with cls := [] } = { s with cls := [] } ∧ t.cls.length = s.cls.length
    ∧ ∀ c, ∃ l, getCls t c = { getCls s c with inflight := l } ∧ l.map InFlight.unreq = (getCls s c).inflight.map InFlight.unreq

theorem LeftOnly.refl (s : State) : LeftOnly s s := ⟨rfl, rfl, fun c => ⟨(getCls s c).inflight, rfl, rfl⟩⟩

theorem LeftOnly.trans {s t u : State} (h : LeftOnly s t) (g : LeftOnly t u) : LeftOnly s u := by
  obtain ⟨h1, h2, h3⟩ := h
  obtain ⟨g1, g2, g3⟩ := g
  refine ⟨g1.trans h1, g2.trans h2, fun c => ?_⟩
  obtain ⟨l, hl, el⟩ := h3 c
  obtain ⟨m, hm, em⟩ := g3 c
  rw [hl] at hm em
  exact ⟨m, hm, em.trans el⟩

theorem leftOnly_leaveClass (s : State) (c : Nat) : LeftOnly s (leaveClass s c) := by
  unfold leaveClass
  split
  · refine ⟨rfl, length_modCls .., fun d => ?_⟩
    by_cases hc : c < s.cls.length ∧ d = c
    · obtain ⟨hc, rfl⟩ := hc
      rw [getCls_modCls s d _ hc]
      refine ⟨_, rfl, ?_⟩
      rw [List.map_map]
      exact List.map_congr_left fun f _ => by simp only [Function.comp]; split <;> rfl
    · refine ⟨_, ?_, rfl⟩
      by_cases hd : d = c
      · subst hd
        exact getCls_modCls_of_length_le _ (by omega)
      · exact getCls_modCls_ne s c d _ hd
  · exact .refl s

theorem leftOnly_leaveAll (s : State) : LeftOnly s (leaveAll s) := by
  unfold leaveAll
  generalize List.range 40 = cs
  induction cs generalizing s with
  | nil => exact .refl s
  | cons c cs ih => exact (leftOnly_leaveClass s c).trans (ih _)

/-! ## The classes and the dies -/

theorem desksOf_congr {s t : State} (ht : t.teams = s.teams) (hi : t.insts = s.insts) (c : Nat) : desksOf t c = desksOf s c := by
  simp only [desksOf, hotOn, teamOf, snapOf, instOf, ht, hi]

/-- A class after a reference tick. -/
def ticked (s : State) (c : Nat) : ClassState := rampTick (desksOf s c).length (countDown (getCls s c))

theorem ballastTick_frame (n : Nat) (k : ClassState) (d : Die) :
    { ballastTick n k d with balNs := 0, balEnergy := 0 } = { d with balNs := 0, balEnergy := 0 } := by
  unfold ballastTick; split <;> rfl

/-- The tick of the classes `l`: of a class what `ticked` says, of a die the telemetry of the ballast. -/
def TickedOn (l : List Nat) (s t : State) : Prop :=
  { t with cls := [], dies := [] } = { s with cls := [], dies := [] } ∧ t.cls.length = s.cls.length
    ∧ (∀ d, { getDie t d with balNs := 0, balEnergy := 0 } = { getDie s d with balNs := 0, balEnergy := 0 })
    ∧ ∀ c, getCls t c = if c ∈ l ∧ c < s.cls.length then ticked s c else getCls s c

theorem tickedOn_one (s : State) (c : Nat) : TickedOn [c] s (classTick s c) := by
  refine ⟨rfl, length_modCls .., fun d => ?_, fun d => ?_⟩
  · exact getDie_congr_of_modify (s := s) (t := classTick s c) (fun x => { x with balNs := 0, balEnergy := 0 }) rfl
      (fun x => ballastTick_frame ..) d
  · show getCls (modCls s c _) d = _
    by_cases hd : d = c
    · subst hd
      by_cases hc : d < s.cls.length
      · rw [getCls_modCls s d _ hc, if_pos ⟨List.mem_singleton_self d, hc⟩]; rfl
      · rw [getCls_modCls_of_length_le _ (Nat.not_lt.1 hc), if_neg (hc ·.2)]
    · rw [getCls_modCls_ne s c d _ hd, if_neg (by simp [hd])]

theorem tickedOn_foldl {l : List Nat} (hl : l.Nodup) (s : State) : TickedOn l s (l.foldl classTick s) := by
  induction l generalizing s with
  | nil => exact ⟨rfl, rfl, fun _ => rfl, fun c => by simp⟩
  | cons a l ih =>
    obtain ⟨ha, hl⟩ := List.nodup_cons.1 hl
    obtain ⟨h1, h2, h3, h4⟩ := tickedOn_one s a
    obtain ⟨g1, g2, g3, g4⟩ := ih hl (classTick s a)
    refine ⟨g1.trans h1, g2.trans h2, fun d => (g3 d).trans (h3 d), fun c => ?_⟩
    rw [List.foldl_cons, g4, h2]
    have same : ticked (classTick s a) c = rampTick (desksOf s c).length (countDown (getCls (classTick s a) c)) := by
      rw [ticked, desksOf_congr (s := s) (t := classTick s a) rfl rfl]
    by_cases e : c = a
    · subst e
      rw [if_neg (fun h => ha h.1), h4]
      simp
    · have still : getCls (classTick s a) c = getCls s c := by rw [h4, if_neg (by simp [e])]
      rw [same, still]
      simp [e, ticked]

theorem countDown_eq (k : ClassState) :
    countDown k = { k with inflight := k.inflight.map fun f => { f with rem := f.rem - clockCk k.clks } } := by
  unfold countDown
  split
  · rfl
  case isFalse h =>
    have : k.inflight.map (fun f => { f with rem := f.rem - clockCk k.clks }) = k.inflight := by
      refine (List.map_congr_left fun f hf => ?_).trans (List.map_id _)
      have h0 : f.rem = 0 := by
        by_contra hn
        exact h (List.any_eq_true.2 ⟨f, hf, by simpa using hn⟩)
      show ({ f with rem := f.rem - clockCk k.clks } : InFlight) = f
      rw [h0, Nat.zero_sub, ← h0]
    rw [this]

/-- A word in flight without what a tick can change of it. -/
def InFlight.still (f : InFlight) : InFlight := { f with reqs := [], rem := 0 }

theorem map_still_of_unreq {l m : List InFlight} (h : l.map InFlight.unreq = m.map InFlight.unreq) :
    l.map InFlight.still = m.map InFlight.still := by
  have := congrArg (List.map fun f : InFlight => { f with rem := 0 }) h
  rw [List.map_map, List.map_map] at this
  exact this

theorem map_still_countDown (k : ClassState) : (countDown k).inflight.map InFlight.still = k.inflight.map InFlight.still := by
  rw [countDown_eq, List.map_map]; rfl

/-- The word that runs a wave, without what a tick changes of it. -/
theorem waving_still (k : ClassState) :
    (waving k).map InFlight.still = (k.inflight.map InFlight.still).find? fun f => (waveHeight f).isSome := by
  rw [List.find?_map]; rfl

theorem waving_congr {k j : ClassState} (h : k.inflight.map InFlight.still = j.inflight.map InFlight.still) :
    (waving k).map InFlight.still = (waving j).map InFlight.still := by
  rw [waving_still, waving_still, h]

theorem unitsNow_still (k : ClassState) (n : Nat) : unitsNow k n = match (waving k).map InFlight.still with
    | some f => min ((waveHeight f).getD 1) (n - f.prog * (waveHeight f).getD 1)
    | none => 0 := by
  unfold unitsNow
  cases waving k <;> rfl

/-- How many units a running wave takes; none where no wave runs. -/
def unitsOf (s : State) (c : Nat) (run : Option InFlight) : Nat :=
  match run with
  | some o => (waveOf s c o).length
  | none => 0

theorem waveHeight_of_isSome {f : InFlight} (h : (waveHeight f).isSome = true) : waveHeight f = some (heightOf f) := by
  unfold waveHeight at *
  dsimp only at *
  split at h
  · rw [if_pos ‹_›]; rfl
  · cases h

/-- The units that run are those of the wave's desks (R428). -/
theorem unitsNow_eq (s : State) (c : Nat) (k : ClassState) : unitsNow k (desksOf s c).length = unitsOf s c (waving k) := by
  unfold unitsNow unitsOf
  cases h : waving k with
  | none => rfl
  | some f =>
    have hf := waveHeight_of_isSome (List.find?_some (p := fun o => (waveHeight o).isSome) h)
    simp [hf, waveOf]

/-! ## What the tick makes of a class -/

/-- The class `k` of a machine before the tick and `t` after it. -/
structure TickOf (s : State) (c : Nat) (t : ClassState) : Prop where
  frame : { t with inflight := [], busy := false, load := 0, bal := false }
    = { getCls s c with inflight := [], busy := false, load := 0, bal := false }
  rems : t.inflight.map InFlight.unreq
    = (getCls s c).inflight.map fun f => { f with reqs := [], rem := f.rem - clockCk (getCls s c).clks }
  busy : t.busy = (waving (getCls s c)).isSome
  load : let u := unitsOf s c (waving (getCls s c))
    t.load = max (625 * u) (min ((getCls s c).load - 4) (625 * max u (desksOf s c).length))
  bal : t.bal = true ↔ 625 * unitsOf s c (waving (getCls s c)) < t.load

theorem tickOf_ticked {s s' : State} {c : Nat} (h : LeftOnly s s') : TickOf s c (ticked s' c) := by
  obtain ⟨h1, -, h3⟩ := h
  obtain ⟨l, hk, hl⟩ := h3 c
  have desks : desksOf s' c = desksOf s c := desksOf_congr (congrArg State.teams h1 :) (congrArg State.insts h1 :) c
  have still : (countDown (getCls s' c)).inflight.map InFlight.still = (getCls s c).inflight.map InFlight.still := by
    rw [map_still_countDown, hk]; exact map_still_of_unreq hl
  have wave := waving_congr still
  have units : unitsNow (countDown (getCls s' c)) (desksOf s' c).length = unitsOf s c (waving (getCls s c)) := by
    rw [desks, ← unitsNow_eq, unitsNow_still, unitsNow_still, wave]
  have runs : (waving (countDown (getCls s' c))).isSome = (waving (getCls s c)).isSome := by
    simpa using congrArg Option.isSome wave
  have load : (countDown (getCls s' c)).load = (getCls s c).load := by rw [countDown_eq, hk]
  refine ⟨?_, ?_, runs, ?_, ?_⟩
  · rw [ticked, rampTick, countDown_eq, hk]
  · rw [ticked, rampTick, countDown_eq, hk]
    have := congrArg (List.map fun f : InFlight => { f with rem := f.rem - clockCk (getCls s c).clks }) hl
    rw [List.map_map, List.map_map] at this
    rw [List.map_map]
    exact this
  · simp only [ticked, rampTick, units, load]
    rw [desks]
  · simp only [ticked, rampTick, units, decide_eq_true_eq]

/-! ## What is due after the tick -/

/-- Putting events on the agenda, one for each of a list. -/
theorem foldl_due {α : Type} (m : Mover) (l : List α) (s : State) :
    l.foldl (fun s _ => due s m) s = { s with agenda := List.replicate l.length m ++ s.agenda } := by
  induction l generalizing s with
  | nil => rfl
  | cons a l ih => rw [List.foldl_cons, ih, List.length_cons, List.replicate_succ', List.append_assoc]; rfl

/-- The countdowns of a class that have run out. -/
def runOut (k : ClassState) : List InFlight := k.inflight.filter fun f => timing f && f.rem == 0

theorem expiries_eq (s : State) : ∃ es, expiries s = { s with agenda := es ++ s.agenda }
    ∧ ∀ e, e ∈ es ↔ ∃ c, c < 40 ∧ e = .event (.nanosecondWaitExpiry c) ∧ runOut (getCls s c) ≠ [] := by
  have key : ∀ (l : List Nat) (a : List Mover), ∃ es,
      l.foldl (fun u c => (runOut (getCls u c)).foldl (fun u _ => due u (.event (.nanosecondWaitExpiry c))) u)
        { s with agenda := a } = { s with agenda := es ++ a }
      ∧ ∀ e, e ∈ es ↔ ∃ c, c ∈ l ∧ e = .event (.nanosecondWaitExpiry c) ∧ runOut (getCls s c) ≠ [] := by
    intro l
    induction l with
    | nil => exact fun a => ⟨[], rfl, by simp⟩
    | cons c l ih =>
      intro a
      obtain ⟨es, hes, mem⟩ := ih (List.replicate (runOut (getCls s c)).length (.event (.nanosecondWaitExpiry c)) ++ a)
      refine ⟨es ++ List.replicate (runOut (getCls s c)).length (.event (.nanosecondWaitExpiry c)), ?_, fun e => ?_⟩
      · rw [List.foldl_cons, foldl_due, List.append_assoc]
        exact hes
      · simp only [List.mem_append, mem, List.mem_replicate, List.mem_cons]
        constructor
        · rintro (⟨d, hd, h⟩ | ⟨hn, rfl⟩)
          · exact ⟨d, .inr hd, h⟩
          · exact ⟨c, .inl rfl, rfl, fun h => hn (by rw [h]; rfl)⟩
        · rintro ⟨d, rfl | hd, rfl, hn⟩
          · exact .inr ⟨fun h => hn (List.eq_nil_of_length_eq_zero h), rfl⟩
          · exact .inl ⟨d, hd, rfl, hn⟩
  obtain ⟨es, h, mem⟩ := key (List.range 40) s.agenda
  exact ⟨es, h, fun e => by simp only [mem, List.mem_range]⟩

/-! ## Hall monitors (R74) -/

theorem getQueue_modQueue (s : State) (k q j r : Nat) (f : Queue → Queue) :
    getQueue (modQueue s k q f) j r = if j = k ∧ r = q ∧ j < s.parts.length ∧ r < (getPart s j).queues.length
      then f (getQueue s j r) else getQueue s j r := by
  simp only [getQueue, getPart, modQueue, modPart, List.getD_eq_getElem?_getD, List.getElem?_modify]
  by_cases hj : j < s.parts.length
  · by_cases e : k = j
    · subst e
      by_cases hr : r < (s.parts[k]).queues.length
      · by_cases e' : q = r <;> simp [hj, hr, e', eq_comm]
      · simp [hj, hr]
    · simp [hj, e, Ne.symm e]
  · simp [hj]

theorem getPart_modQueue_state (s : State) (k q j : Nat) (f : Queue → Queue) :
    (getPart (modQueue s k q f) j).state = (getPart s j).state
      ∧ (getPart (modQueue s k q f) j).queues.length = (getPart s j).queues.length := by
  simp only [getPart, modQueue, modPart, List.getD_eq_getElem?_getD, List.getElem?_modify]
  by_cases hj : j < s.parts.length
  · by_cases e : k = j <;> simp [hj, e]
  · simp [hj]

/-- What a tick of the hall monitors leaves of the machine. -/
structure HallFrame (s t : State) : Prop where
  frame : { t with parts := [], agenda := [] } = { s with parts := [], agenda := [] }
  length : t.parts.length = s.parts.length
  state : ∀ j, (getPart t j).state = (getPart s j).state ∧ (getPart t j).queues.length = (getPart s j).queues.length
  agenda : s.agenda <:+ t.agenda

theorem HallFrame.refl (s : State) : HallFrame s s := ⟨rfl, rfl, fun _ => ⟨rfl, rfl⟩, List.suffix_refl _⟩

theorem HallFrame.trans {s t u : State} (h : HallFrame s t) (g : HallFrame t u) : HallFrame s u :=
  ⟨g.frame.trans h.frame, g.length.trans h.length,
    fun j => ⟨(g.state j).1.trans (h.state j).1, (g.state j).2.trans (h.state j).2⟩, h.agenda.trans g.agenda⟩

/-- A count of the monitor of queue `k`, `q`, put into a queue. -/
def withCount (s : State) (k q : Nat) (x : Queue) : Queue :=
  { x with
    hm := hmCount s k q (getQueue s k q), hmPart := false
    hmDue := (getQueue s k q).hmto != 0 && decide ((getQueue s k q).hmto.toNat ≤ hmCount s k q (getQueue s k q)) && hmRuns s k q }

/-- Queue `k`, `q` after its monitor has counted. -/
def counted (s : State) (k q : Nat) : Queue := withCount s k q (getQueue s k q)

theorem hmTick_eq (s : State) (k q : Nat) :
    hmTick s k q = if s.update.started || (getPart s k).state != 1 then s
      else if (counted s k q).hmDue then due (modQueue s k q (withCount s k q)) (.event (.hallMonitorExpiry k q))
      else modQueue s k q (withCount s k q) := rfl

theorem hallFrame_hmTick (s : State) (k q : Nat) : HallFrame s (hmTick s k q) := by
  rw [hmTick_eq]
  have queue : HallFrame s (modQueue s k q (withCount s k q)) :=
    ⟨rfl, by simp [modQueue, modPart], fun j => getPart_modQueue_state .., List.suffix_refl _⟩
  split
  · exact .refl s
  · split
    · exact queue.trans ⟨rfl, rfl, fun _ => ⟨rfl, rfl⟩, List.suffix_cons ..⟩
    · exact queue

theorem getQueue_hmTick_ne {s : State} {k q j r : Nat} (h : (j, r) ≠ (k, q)) : getQueue (hmTick s k q) j r = getQueue s j r := by
  have : getQueue (modQueue s k q (withCount s k q)) j r = getQueue s j r := by
    rw [getQueue_modQueue, if_neg (fun e => h (by rw [e.1, e.2.1]))]
  rw [hmTick_eq]
  split
  · rfl
  · split <;> exact this

theorem getQueue_hmTick {s : State} {k q : Nat} (hu : s.update.started = false) (h1 : (getPart s k).state = 1)
    (hk : k < s.parts.length) (hq : q < (getPart s k).queues.length) :
    getQueue (hmTick s k q) k q = counted s k q
      ∧ ((counted s k q).hmDue = true → .event (.hallMonitorExpiry k q) ∈ (hmTick s k q).agenda) := by
  have same : getQueue (modQueue s k q (withCount s k q)) k q = counted s k q := by
    rw [getQueue_modQueue, if_pos ⟨rfl, rfl, hk, hq⟩, counted]
  rw [hmTick_eq, hu, h1]
  cases (counted s k q).hmDue with
  | true => exact ⟨same, fun _ => List.mem_cons_self⟩
  | false => exact ⟨same, fun h => by cases h⟩

theorem hmTick_of_started {s : State} (k q : Nat) (h : s.update.started = true) : hmTick s k q = s := by
  rw [hmTick_eq, h]; rfl

/-- What a count rests on: the instances and the queue itself. -/
theorem counted_congr {s t : State} {k q : Nat} (hi : t.insts = s.insts) (hq : getQueue t k q = getQueue s k q) :
    counted t k q = counted s k q := by
  have runs : hmRuns t k q = hmRuns s k q := by simp only [hmRuns, queueInsts, hi, hq]
  have count : hmCount t k q (getQueue t k q) = hmCount s k q (getQueue s k q) := by simp only [hmCount, runs, hq]
  rw [counted, counted, withCount, withCount, runs, count, hq]

/-- The monitors of the queues `l` count, the last first. -/
def hallTicks (l : List (Nat × Nat)) (s : State) : State := l.foldr (fun x s => hmTick s x.1 x.2) s

theorem hallFrame_hallTicks (l : List (Nat × Nat)) (s : State) : HallFrame s (hallTicks l s) := by
  induction l with
  | nil => exact .refl s
  | cons x l ih => exact ih.trans (hallFrame_hmTick ..)

theorem getQueue_hallTicks_of_notMem {l : List (Nat × Nat)} {k q : Nat} (h : (k, q) ∉ l) (s : State) :
    getQueue (hallTicks l s) k q = getQueue s k q := by
  induction l with
  | nil => rfl
  | cons x l ih =>
    rw [List.mem_cons, not_or] at h
    obtain ⟨h1, h2⟩ := h
    exact (getQueue_hmTick_ne h1).trans (ih h2)

theorem getQueue_hallTicks {l : List (Nat × Nat)} (hl : l.Nodup) {k q : Nat} (h : (k, q) ∈ l) {s : State}
    (hu : s.update.started = false) (h1 : (getPart s k).state = 1) (hk : k < s.parts.length)
    (hq : q < (getPart s k).queues.length) :
    getQueue (hallTicks l s) k q = counted s k q
      ∧ ((counted s k q).hmDue = true → .event (.hallMonitorExpiry k q) ∈ (hallTicks l s).agenda) := by
  induction l with
  | nil => cases h
  | cons x l ih =>
    obtain ⟨hx, hl⟩ := List.nodup_cons.1 hl
    have F := hallFrame_hallTicks l s
    by_cases e : x = (k, q)
    · subst e
      have now := getQueue_hmTick (s := hallTicks l s) (k := k) (q := q)
        ((congrArg (fun u => u.update.started) F.frame :).trans hu) ((F.state k).1.trans h1) (F.length ▸ hk)
        ((F.state k).2 ▸ hq)
      have before : counted (hallTicks l s) k q = counted s k q :=
        counted_congr (congrArg State.insts F.frame :) (getQueue_hallTicks_of_notMem hx s)
      rw [before] at now
      exact now
    · obtain ⟨queue, agenda⟩ := ih hl ((List.mem_cons.1 h).resolve_left (Ne.symm e))
      have step := hallFrame_hmTick (hallTicks l s) x.1 x.2
      exact ⟨(getQueue_hmTick_ne (Ne.symm e)).trans queue, fun hd => step.agenda.subset (agenda hd)⟩

theorem hallTicks_of_started {s : State} (h : s.update.started = true) (l : List (Nat × Nat)) : hallTicks l s = s := by
  induction l with
  | nil => rfl
  | cons x l ih => exact (congrArg (hmTick · x.1 x.2) ih).trans (hmTick_of_started _ _ h)

theorem mem_allQueues {k q : Nat} : (k, q) ∈ allQueues ↔ 1 ≤ k ∧ k ≤ 16 ∧ q < 8 := by
  simp only [allQueues, List.mem_flatMap, List.mem_map, List.mem_range, Prod.mk.injEq]
  constructor
  · rintro ⟨a, ha, b, hb, rfl, rfl⟩; omega
  · exact fun ⟨h1, h2, h3⟩ => ⟨k - 1, by omega, q, h3, by omega, rfl⟩

theorem allQueues_nodup : allQueues.Nodup := by decide +kernel

/-! ## The whole tick -/

/-- The machine when a tick has run over the classes. -/
def afterClasses (s : State) : State := (List.range 40).foldl classTick { leaveAll s with ticks8 := (leaveAll s).ticks8 + 1 }

/-- The machine when the events of a tick are due. -/
def afterDue (s : State) : State :=
  if overdue (expiries (afterClasses s)) then due (expiries (afterClasses s)) (.event .fwReversion) else expiries (afterClasses s)

theorem exec_lncTick (s : State) :
    exec .lncTick s = .next (if (afterDue s).ticks8 % 125 = 0 then hallTicks allQueues (afterDue s) else afterDue s) := by
  show execLncTick s = _
  unfold execLncTick hallTicks afterDue afterClasses
  rfl

/-- What a tick has done when its classes are through: the time, the countdowns, the matrix rail, the ballast's telemetry. -/
structure AfterClasses (s t : State) : Prop where
  frame : { t with cls := [], dies := [] } = { s with cls := [], dies := [], ticks8 := s.ticks8 + 1 }
  dies : ∀ d, { getDie t d with balNs := 0, balEnergy := 0 } = { getDie s d with balNs := 0, balEnergy := 0 }
  others : ∀ c, { getCls t c with inflight := [], busy := false, load := 0, bal := false }
    = { getCls s c with inflight := [], busy := false, load := 0, bal := false }
  classes : ∀ c, c < 40 → c < s.cls.length → TickOf s c (getCls t c)

theorem afterClasses_of_tickedOn {s u t : State} (L : LeftOnly s u) (hd : u.dies = s.dies)
    (T : TickedOn (List.range 40) { u with ticks8 := u.ticks8 + 1 } t) : AfterClasses s t := by
  have ⟨l1, l2, l3⟩ := L
  obtain ⟨t1, t2, t3, t4⟩ := T
  have on : ∀ c, c < 40 → c < s.cls.length → TickOf s c (getCls t c) := fun c h hc => by
    rw [t4, if_pos ⟨List.mem_range.2 h, by rwa [← l2] at hc⟩]
    exact (tickOf_ticked L : TickOf s c (ticked u c))
  refine ⟨t1.trans (congrArg (fun u : State => { u with ticks8 := u.ticks8 + 1, dies := [] }) l1), fun d => (t3 d).trans ?_,
    fun c => ?_, on⟩
  · show { getDie u d with balNs := 0, balEnergy := 0 } = _
    rw [getDie, hd]; rfl
  · by_cases h : c < 40 ∧ c < s.cls.length
    · exact (on c h.1 h.2).frame
    · obtain ⟨l, hl, -⟩ := l3 c
      rw [t4, if_neg (fun g => h ⟨List.mem_range.1 g.1, l2 ▸ g.2⟩)]
      show { getCls u c with inflight := [], busy := false, load := 0, bal := false } = _
      rw [hl]

theorem afterClasses_spec (s : State) : AfterClasses s (afterClasses s) :=
  afterClasses_of_tickedOn (leftOnly_leaveAll s) (leaveAll_dies s) (tickedOn_foldl List.nodup_range _)

/-- The reverting of an overdue live update. -/
def reversion (s : State) : List Mover :=
  if s.update.started = true ∧ s.update.transferAt + 1250000 ≤ s.ticks8 + 1 then [.event .fwReversion] else []

theorem afterDue_eq (s : State) : ∃ es, afterDue s = { afterClasses s with agenda := reversion s ++ es ++ s.agenda }
    ∧ ∀ e, e ∈ es ↔ ∃ c, c < 40 ∧ e = .event (.nanosecondWaitExpiry c) ∧ runOut (getCls (afterClasses s) c) ≠ [] := by
  unfold afterDue
  have same := (afterClasses_spec s).frame
  generalize afterClasses s = t at *
  have agenda : t.agenda = s.agenda := (congrArg State.agenda same :)
  have upd : t.update = s.update := (congrArg State.update same :)
  have now : t.ticks8 = s.ticks8 + 1 := (congrArg State.ticks8 same :)
  obtain ⟨es, hes, mem⟩ := expiries_eq t
  refine ⟨es, ?_, mem⟩
  have late : overdue (expiries t) = true ↔ s.update.started = true ∧ s.update.transferAt + 1250000 ≤ s.ticks8 + 1 := by
    rw [hes]
    show overdue t = true ↔ _
    simp [overdue, upd, now]
  rw [reversion, ← agenda]
  by_cases h : s.update.started = true ∧ s.update.transferAt + 1250000 ≤ s.ticks8 + 1
  · rw [if_pos (late.2 h), if_pos h, hes]; rfl
  · rw [if_neg (mt late.1 h), if_neg h, hes]; rfl

/-- An update of a class rests on what it makes of that class as it stands. -/
theorem modCls_congr {s : State} {c : Nat} {f g : ClassState → ClassState} (h : f (getCls s c) = g (getCls s c)) :
    modCls s c f = modCls s c g := by
  unfold modCls
  congr 1
  apply List.ext_getElem?
  intro n
  rw [List.getElem?_modify, List.getElem?_modify]
  by_cases e : c = n
  · subst e
    simp only [getCls, List.getD_eq_getElem?_getD] at h
    cases hk : s.cls[c]? with
    | none => rfl
    | some k => simpa [hk] using h
  · simp [e]

theorem exec_frequencyTransition (c : Nat) (s : State) :
    exec (.frequencyTransition c) s = .next (modCls s c fun k => setClock k (BitVec.ofNat 4 (classClock s (getCls s c)))) :=
  congrArg Host.Outcome.next (modCls_congr rfl)

theorem runOut_ne_nil {k : ClassState} : runOut k ≠ [] ↔ ∃ f ∈ k.inflight, timing f = true ∧ f.rem = 0 := by
  simp [runOut, List.filter_eq_nil_iff]

/-- What every tick does but for the hall monitors. -/
structure Ticked (s t : State) : Prop where
  ticks8 : t.ticks8 = s.ticks8 + 1
  born : t.born = s.born
  mem : t.mem = s.mem
  insts : t.insts = s.insts
  ctr : t.ctr = s.ctr
  dies : ∀ d, { getDie t d with balNs := 0, balEnergy := 0 } = { getDie s d with balNs := 0, balEnergy := 0 }
  others : ∀ c, { getCls t c with inflight := [], busy := false, load := 0, bal := false }
    = { getCls s c with inflight := [], busy := false, load := 0, bal := false }
  classes : ∀ c, c < 40 → c < s.cls.length → TickOf s c (getCls t c)

theorem ticked_afterDue (s : State) : Ticked s (afterDue s) := by
  obtain ⟨es, h, -⟩ := afterDue_eq s
  obtain ⟨frame, dies, others, classes⟩ := afterClasses_spec s
  rw [h]
  generalize afterClasses s = t at *
  exact ⟨(congrArg State.ticks8 frame :), (congrArg State.born frame :), (congrArg State.mem frame :),
    (congrArg State.insts frame :), (congrArg State.ctr frame :), dies, others, classes⟩

theorem afterDue_parts (s : State) : (afterDue s).parts = s.parts ∧ (afterDue s).update = s.update := by
  obtain ⟨es, h, -⟩ := afterDue_eq s
  have frame := (afterClasses_spec s).frame
  rw [h]
  generalize afterClasses s = t at *
  exact ⟨(congrArg State.parts frame :), (congrArg State.update frame :)⟩

theorem afterDue_agenda (s : State) : ∃ es, (afterDue s).agenda = reversion s ++ es ++ s.agenda
    ∧ ∀ e, e ∈ es ↔ ∃ c, c < 40 ∧ e = .event (.nanosecondWaitExpiry c) ∧ runOut (getCls (afterDue s) c) ≠ [] := by
  obtain ⟨es, h, mem⟩ := afterDue_eq s
  rw [h]
  generalize afterClasses s = t at *
  exact ⟨es, rfl, mem⟩

theorem Ticked.of_hallFrame {s t u : State} (h : Ticked s t) (g : HallFrame t u) : Ticked s u := by
  have cls : u.cls = t.cls := (congrArg State.cls g.frame :)
  have dies : u.dies = t.dies := (congrArg State.dies g.frame :)
  have getC : ∀ c, getCls u c = getCls t c := fun c => by rw [getCls, getCls, cls]
  have getD : ∀ d, getDie u d = getDie t d := fun d => by rw [getDie, getDie, dies]
  exact ⟨(congrArg State.ticks8 g.frame :).trans h.ticks8, (congrArg State.born g.frame :).trans h.born,
    (congrArg State.mem g.frame :).trans h.mem, (congrArg State.insts g.frame :).trans h.insts,
    (congrArg State.ctr g.frame :).trans h.ctr, fun d => by rw [getD]; exact h.dies d,
    fun c => by rw [getC]; exact h.others c, fun c h40 hc => by rw [getC]; exact h.classes c h40 hc⟩

theorem Ticked.lnc {s t : State} (h : Ticked s t) (c : Nat) : lnc t c = lnc s c + 8 := by
  rw [Machine.lnc, Machine.lnc, h.born, h.ticks8, Nat.mul_add, BitVec.ofNat_add, ← BitVec.add_assoc]
  rfl

/-- A tick that is no tick of the hall monitors, or comes during a live update, moves none of them. -/
theorem hallTicks_parts {s : State} (h : s.update.started = true) :
    (hallTicks allQueues (afterDue s)).parts = s.parts := by
  have ⟨parts, upd⟩ := afterDue_parts s
  rw [hallTicks_of_started (by rw [upd, h]), parts]

/-- What the tick does to a queue whose hall monitor counts (R74; log 36). -/
theorem getQueue_tick {s : State} {k q : Nat} (hu : s.update.started = false) (h1 : (getPart s k).state = 1) (hk1 : 1 ≤ k)
    (hk : k < 17) (hq : q < 8) (hp : k < s.parts.length) (hl : q < (getPart s k).queues.length) :
    getQueue (hallTicks allQueues (afterDue s)) k q = counted s k q
      ∧ ((counted s k q).hmDue = true → .event (.hallMonitorExpiry k q) ∈ (hallTicks allQueues (afterDue s)).agenda) := by
  have ⟨parts, upd⟩ := afterDue_parts s
  have insts := (ticked_afterDue s).insts
  generalize afterDue s = t at *
  have part : ∀ j, getPart t j = getPart s j := fun j => by rw [getPart, getPart, parts]
  have same : counted t k q = counted s k q := counted_congr insts (by rw [getQueue, getQueue, part])
  rw [← same]
  exact getQueue_hallTicks allQueues_nodup (mem_allQueues.2 ⟨hk1, by omega, hq⟩) (by rw [upd, hu]) (by rw [part, h1])
    (by rwa [parts]) (by rwa [part])

theorem counted_hm (s : State) (k q : Nat) : (counted s k q).hm
    = if hmRuns s k q then (if (getQueue s k q).hmPart then (getQueue s k q).hm else (getQueue s k q).hm + 1) else 0 := by
  show hmCount s k q (getQueue s k q) = _
  unfold hmCount
  cases hmRuns s k q <;> rfl

theorem counted_hmDue (s : State) (k q : Nat) : (counted s k q).hmDue = true ↔
    (getQueue s k q).hmto ≠ 0 ∧ (getQueue s k q).hmto.toNat ≤ (counted s k q).hm ∧ hmRuns s k q = true := by
  show (_ && _ && _) = true ↔ _ ∧ _ ≤ hmCount s k q (getQueue s k q) ∧ _
  simp [and_assoc]

/-- Settles O46: grant and clock, hotspot guard, permit and window, then the reference tick. -/
theorem powerClocksAndHeat : Obligations.PowerClocksAndHeat := by
  unfold Obligations.PowerClocksAndHeat
  refine ⟨fun g s he => ⟨_, exec_powerEvaluation he, rfl, ?_⟩, fun c s h7 h3 hg => ?_, fun c a b x y s h40 hc h3 => ?_, fun c s => rfl,
    fun c a b s h => exec_windowArbitration_of_none a b s h,
    fun c p a b s hp h => ⟨_, exec_windowArbitration a b s hp h, fun j hj => getCls_modCls_ne s c j _ hj, fun hc => ?_⟩,
    fun s => ?_⟩
  · obtain ⟨le, step, rest⟩ := nextGrant_le s (if s.capped then g.toNat else s.grant)
    refine ⟨le, step, fun h => rest (.inl h), fun r hr h => rest (.inr (by simpa [raiseRests, hr] using h)),
      fun h => nextGrant_of_overheated ((overheated_iff s).2 h) _, fun hcap cool hle => ?_⟩
    have : overheated s = false := by
      rw [← Bool.not_eq_true, overheated_iff]
      exact fun ⟨k, hk, x, hx, h⟩ => absurd (cool k hk x hx) (by omega)
    show nextGrant s _ = _
    rw [nextGrant_of_cool this, hcap, if_pos rfl, if_pos hle]
  · have le := classClock_le (s := s) hg
    refine ⟨BitVec.ofNat 4 (classClock s (getCls s c)), exec_frequencyTransition c s, ?_⟩
    rw [BitVec.toNat_ofNat, Nat.mod_eq_of_lt (by omega)]
    exact clockOfCode_classClock h7 h3 hg
  · obtain ⟨t, ht, now, ne, grant, alarm⟩ := exec_sensorSample a b x y h40 hc
    obtain ⟨le, lower, same, stays⟩ := sampled_thermRow (getCls s c) a b x y
    rw [← now] at le lower same stays
    refine ⟨t, ht, by rw [now, sampled_temps], le, lower, same, fun _ => stays, grant, fun hot old h4 => alarm hot ?_, ne,
      by rw [now, sampled_frame]⟩
    rwa [hottest_of_length h4]
  · have even : 2 * p / 2 = p := by omega
    have odd : (2 * p + 1) / 2 = p := by omega
    rw [getCls_modCls s c _ hc]
    refine ⟨?_, ?_, fun u hu => ?_⟩
    · rw [mem_window, mem_windowRefuses]; simp [even, and_assoc]
    · rw [mem_window, mem_windowRefuses]; simp [odd, and_assoc]
    · rw [mem_window]; simp [hu]
  · have T := ticked_afterDue s
    have T' := T.of_hallFrame (hallFrame_hallTicks allQueues (afterDue s))
    obtain ⟨es, agenda, mem⟩ := afterDue_agenda s
    refine ⟨_, exec_lncTick s, ?_⟩
    generalize ht : (if (afterDue s).ticks8 % 125 = 0 then hallTicks allQueues (afterDue s) else afterDue s) = t
    have now : Ticked s t := by
      rw [← ht]; split
      · exact T'
      · exact T
    refine ⟨now.ticks8, now.lnc, now.mem, now.insts, now.ctr, now.dies, now.others, fun c h hc => (now.classes c h hc).rems,
      fun c h hc => ⟨(now.classes c h hc).busy, (now.classes c h hc).load, (now.classes c h hc).bal⟩, fun h125 => ?_,
      fun h125 hu k q hk hq h1 hl hp hk1 => ?_, fun hu => ?_⟩
    · rw [now.ticks8, ← T.ticks8] at h125
      rw [if_neg h125] at ht
      subst ht
      refine ⟨(afterDue_parts s).1, es, ?_, fun e => ?_⟩
      · rw [T.ticks8, agenda, reversion]
      · simp only [mem, runOut_ne_nil]
    · rw [now.ticks8, ← T.ticks8] at h125
      rw [if_pos h125] at ht
      subst ht
      obtain ⟨queue, due⟩ := getQueue_tick hu h1 hk1 hk hq hp hl
      rw [queue, counted_hmDue]
      refine ⟨counted_hm s k q, rfl, ?_, fun h => due ((counted_hmDue s k q).2 h)⟩
      rw [counted_hm]
    · rw [← ht]; split
      · exact hallTicks_parts hu
      · exact (afterDue_parts s).1

end Sys2Proof.Machine
end

section
/-!
PROOFS for O33: what the steps of a counter request leave of the counters and of the words in flight.
-/

namespace Sys2Proof.Machine

/-! ## A class that loses waiting words only -/

/-- From `s` to `t` no counter and no byte changes, no class freezes or thaws, no word comes to wait, and no word of a frozen class
goes. -/
structure Lessened (s t : State) : Prop where
  ctr : t.ctr = s.ctr
  mem : t.mem = s.mem
  length : t.cls.length = s.cls.length
  frozen : ∀ d, (getCls t d).frozen = (getCls s d).frozen
  waits : ∀ d, ∀ w ∈ (getCls t d).inflight, w.status = .waiting → w ∈ (getCls s d).inflight
  ids : ∀ d, (getCls s d).frozen = true → (getCls t d).inflight.map (·.id) = (getCls s d).inflight.map (·.id)

theorem Lessened.refl (s : State) : Lessened s s := ⟨rfl, rfl, rfl, fun _ => rfl, fun _ _ h _ => h, fun _ _ => rfl⟩

theorem Lessened.trans {s t u : State} (h : Lessened s t) (g : Lessened t u) : Lessened s u :=
  ⟨g.ctr.trans h.ctr, g.mem.trans h.mem, g.length.trans h.length, fun d => (g.frozen d).trans (h.frozen d),
    fun d w hw hs => h.waits d w (g.waits d w hw hs) hs,
    fun d hd => (g.ids d ((h.frozen d).trans hd)).trans (h.ids d hd)⟩

/-- What changes neither classes nor counters nor memory. -/
theorem Lessened.of_same {s t : State} (hk : t.cls = s.cls) (hc : t.ctr = s.ctr) (hm : t.mem = s.mem) : Lessened s t := by
  have h : ∀ d, getCls t d = getCls s d := fun d => by rw [getCls, getCls, hk]
  exact ⟨hc, hm, by rw [hk], fun d => by rw [h], fun d w hw _ => by rwa [h] at hw, fun d _ => by rw [h]⟩

theorem lessened_foldl {α : Type} (f : State → α → State) (h : ∀ s a, Lessened s (f s a)) (l : List α) (s : State) :
    Lessened s (l.foldl f s) := by
  induction l generalizing s with
  | nil => exact .refl s
  | cons a l ih => exact (h s a).trans (ih _)

/-- A fold of such steps passes through the step for each element. -/
theorem lessened_foldl_mem {α : Type} (f : State → α → State) (h : ∀ s a, Lessened s (f s a)) {l : List α} {a : α} (ha : a ∈ l)
    (s : State) : ∃ v, Lessened s v ∧ Lessened (f v a) (l.foldl f s) := by
  induction l generalizing s with
  | nil => cases ha
  | cons b l ih =>
    rcases List.mem_cons.1 ha with rfl | ha
    · exact ⟨s, .refl s, lessened_foldl f h l _⟩
    · obtain ⟨v, hv, hl⟩ := ih ha (f s b)
      exact ⟨v, (h s b).trans hv, hl⟩

theorem lessened_modCls (s : State) (c : Nat) (f : ClassState → ClassState) (hf : (f (getCls s c)).frozen = (getCls s c).frozen)
    (hw : ∀ w ∈ (f (getCls s c)).inflight, w.status = .waiting → w ∈ (getCls s c).inflight)
    (hi : (getCls s c).frozen = true → (f (getCls s c)).inflight.map (·.id) = (getCls s c).inflight.map (·.id)) :
    Lessened s (modCls s c f) := by
  have cases_ : ∀ d, getCls (modCls s c f) d = getCls s d ∨ d = c ∧ getCls (modCls s c f) d = f (getCls s c) := by
    intro d
    by_cases hd : d = c
    · subst hd
      rcases Nat.lt_or_ge d s.cls.length with h | h
      · exact .inr ⟨rfl, getCls_modCls s d f h⟩
      · exact .inl (getCls_modCls_of_length_le f h)
    · exact .inl (getCls_modCls_ne s c d f hd)
  refine ⟨rfl, rfl, length_modCls .., fun d => ?_, fun d w => ?_, fun d hd => ?_⟩ <;>
    rcases cases_ d with h | ⟨rfl, h⟩ <;> rw [h]
  · exact hf
  · exact fun h _ => h
  · exact hw w
  · exact hi hd

/-- An update of a class that leaves its words in flight and its freeze. -/
theorem lessened_modCls_same (s : State) (c : Nat) (f : ClassState → ClassState) (hf : ∀ k, (f k).frozen = k.frozen)
    (hi : ∀ k, (f k).inflight = k.inflight) : Lessened s (modCls s c f) :=
  lessened_modCls s c f (hf _) (fun w h _ => by rwa [hi] at h) fun _ => by rw [hi]

/-! ## Lending, releases and acquires -/

theorem lessened_lendTo (s : State) (id n : Nat) : Lessened s (lendTo s id n) := by
  unfold lendTo; split
  · exact .refl s
  · exact .of_same rfl rfl rfl

theorem lessened_publishPrio (s : State) (id : Nat) : Lessened s (publishPrio s id) := by
  unfold publishPrio; split
  case h_1 => exact .refl s
  case h_2 t _ =>
    exact lessened_foldl _ (fun s c => lessened_modCls_same s c (fun k => { k with own := t.own, eff := effOf t })
      (fun _ => rfl) fun _ => rfl) _ s

theorem lessened_relend (s : State) : Lessened s (relend s) := by
  have once : ∀ u, Lessened u (lendOnce u) := fun u =>
    lessened_foldl _ (fun _ _ => lessened_foldl _ (fun _ _ => lessened_lendTo ..) _ _) _ u
  have lends : Lessened s (lent s) :=
    (Lessened.of_same rfl rfl rfl : Lessened s { s with teams := s.teams.map Team.unlent }).trans
      (lessened_foldl _ (fun u _ => once u) _ _)
  rw [relend_eq]
  refine lends.trans (lessened_foldl _ (fun u t => ?_) _ _)
  split
  · exact .refl u
  · exact lessened_publishPrio u t.id

theorem lessened_relendIf (b : Bool) (s : State) : Lessened s (relendIf b s) := by
  cases b
  · exact .refl s
  · exact lessened_relend s

theorem lessened_doAcquire (s : State) (c scope : Nat) : Lessened s (doAcquire s c scope) := by
  unfold doAcquire
  split
  · split
    · exact .of_same rfl rfl rfl
    · exact .refl s
  · exact .refl s

theorem lessened_mergePartial (s : State) (p : Partial) : Lessened s (mergePartial s p) := by
  unfold mergePartial; split
  · exact .refl s
  · exact .of_same rfl rfl rfl

theorem lessened_landTransit (s : State) (c : Nat) : Lessened s (landTransit s c) :=
  (Lessened.of_same rfl rfl rfl : Lessened s { s with transit := s.transit.filter fun t => t.cls ≠ c }).trans
    (lessened_foldl _ lessened_mergePartial _ _)

theorem lessened_mergePartials (s : State) (c : Nat) (d : Option Nat) : Lessened s (mergePartials s c d) := by
  unfold mergePartials
  dsimp only
  refine Lessened.trans ?_ (lessened_modCls_same _ c (fun k => { k with partials := [] }) (fun _ => rfl) fun _ => rfl)
  generalize hm : List.foldl mergePartial s _ = m
  exact (hm ▸ lessened_foldl _ lessened_mergePartial _ s).trans (.of_same rfl rfl rfl)

theorem lessened_doRelease (s : State) (c scope : Nat) (upto : Option WordId) (d : Option Nat) :
    Lessened s (doRelease s c scope upto d) := by
  unfold doRelease
  dsimp only
  have merged : Lessened s (if 1 ≤ scope then mergePartials (landTransit s c) c d else landTransit s c) := by
    split
    · exact (lessened_landTransit s c).trans (lessened_mergePartials ..)
    · exact lessened_landTransit s c
  split
  · split
    · exact merged.trans (.of_same rfl rfl rfl)
    · exact merged
  · exact merged

/-! ## A word that completes -/

/-- What the completion of a word makes of its class. -/
def completed (f : InFlight) (k : ClassState) : ClassState :=
  if isAcquire f.instr then passAcquire (completeOp k f) f else completeOp k f

theorem complete_eq (s : State) (c : Nat) (f : InFlight) : complete s c f = modCls s c (completed f) := rfl

/-- The fields of a class that neither tokens nor the passing of a word touch, and that the clauses name. -/
def ClassState.kept (k : ClassState) : List InFlight × Bool × BitVec 3 × Nat × Option W64 :=
  (k.inflight, k.frozen, k.klvl, k.kbkt, k.region)

theorem kept_passAcquire (k : ClassState) (f : InFlight) : (passAcquire k f).kept = k.kept := by
  unfold passAcquire
  split
  · dsimp only
    have : (passTo k .s f.instr (k.ws.wi + 1)).kept = k.kept := by
      show (passTo k .s f.instr (k.ws.wi + 1)).body.kept = k.body.kept
      rw [body_passTo]
    split <;> exact this
  · split
    · rfl
    · dsimp only; split <;> rfl

theorem kept_completed (f : InFlight) (k : ClassState) :
    (completed f k).kept = { k with inflight := k.inflight.filter fun g => g.id ≠ f.id }.kept := by
  have push : ∀ (j : ClassState) (i : Instr), (pushToken j i).kept = j.kept := fun j i => by unfold pushToken; split <;> rfl
  unfold completed
  split
  · rw [kept_passAcquire, completeOp, push]
  · rw [completeOp, push]

theorem inflight_completed (f : InFlight) (k : ClassState) :
    (completed f k).inflight = k.inflight.filter fun g => g.id ≠ f.id := congrArg Prod.fst (kept_completed f k)

theorem frozen_completed (f : InFlight) (k : ClassState) : (completed f k).frozen = k.frozen :=
  congrArg (·.2.1) (kept_completed f k)

theorem findOp_complete {s : State} {c : Nat} {f : InFlight} (hc : c < s.cls.length) : findOp (complete s c f) c f.id = none := by
  rw [findOp, complete_eq, getCls_modCls s c _ hc, inflight_completed, List.find?_eq_none]
  intro g hg
  simpa using (List.mem_filter.1 hg).2

theorem lessened_endRegion (s : State) (c : Nat) (f : InFlight) : Lessened s (endRegion s c f) := by
  unfold endRegion
  split
  · refine Lessened.trans ?_ (lessened_modCls_same _ c _ (fun _ => rfl) fun _ => rfl)
    split
    · exact lessened_modCls_same s c _ (fun _ => rfl) fun _ => rfl
    · exact .refl s
  · exact .refl s

theorem lessened_setS (s : State) (c n : Nat) (v : W64) : Lessened s (setS s c n v) := by
  unfold setS; split
  · exact .refl s
  · exact lessened_modCls_same s c _ (fun _ => rfl) fun _ => rfl

theorem lessened_complete {s : State} {c : Nat} (f : InFlight) (h : Thawed s c) : Lessened s (complete s c f) := by
  refine lessened_modCls s c (completed f) (frozen_completed f _) (fun w hw _ => ?_) fun hz => absurd h (by simp [Thawed, hz])
  rw [inflight_completed] at hw
  exact (List.mem_filter.1 hw).1

/-- The state in which a result's registers are written. -/
def landed (s : State) (c : Nat) (f : InFlight) (rs : List (Nat × W64)) : State :=
  rs.foldl (fun s r => setS s c r.1 r.2) (endRegion s c f)

theorem lessened_landed (s : State) (c : Nat) (f : InFlight) (rs : List (Nat × W64)) : Lessened s (landed s c f rs) :=
  (lessened_endRegion s c f).trans (lessened_foldl _ (fun _ _ => lessened_setS ..) rs _)

theorem land_of_thawed {s : State} {c : Nat} (f : InFlight) (rs : List (Nat × W64)) (h : Thawed s c) :
    land s c f rs = complete (landed s c f rs) c f := by
  have : ¬ (getCls s c).frozen = true := by rw [show (getCls s c).frozen = false from h]; decide
  rw [land, if_neg this]; rfl

theorem land_of_frozen {s : State} {c : Nat} (f : InFlight) (rs : List (Nat × W64)) (h : ¬ Thawed s c) :
    land s c f rs = modOp s c f.id fun g => { g with status := .answered, held := some rs, prog := f.prog } := by
  rw [land, if_pos (by simpa [Thawed] using h)]

theorem Lessened.thawed {s t : State} (h : Lessened s t) {c : Nat} : Thawed t c ↔ Thawed s c := by
  rw [Thawed, Thawed, h.frozen]

theorem getCls_modOp {s : State} {c : Nat} (id : Nat) (f : InFlight → InFlight) (hc : c < s.cls.length) :
    getCls (modOp s c id f) c = { getCls s c with inflight := (getCls s c).inflight.map fun g => if g.id = id then f g else g } :=
  getCls_modCls s c _ hc

theorem lessened_land (s : State) (c : Nat) (f : InFlight) (rs : List (Nat × W64)) : Lessened s (land s c f rs) := by
  by_cases h : Thawed s c
  · rw [land_of_thawed f rs h]
    have L := lessened_landed s c f rs
    exact L.trans (lessened_complete f (L.thawed.2 h))
  · rw [land_of_frozen f rs h]
    refine lessened_modCls s c _ rfl (fun w hw hs => ?_) fun _ => ?_
    · obtain ⟨g, hg, rfl⟩ := List.mem_map.1 hw
      split at hs
      · cases hs
      · rwa [if_neg ‹_›]
    · rw [List.map_map]
      exact List.map_congr_left fun g _ => by simp only [Function.comp]; split <;> rfl

/-- A word whose result has come waits no more. -/
theorem land_waits {s : State} {c : Nat} (f : InFlight) (rs : List (Nat × W64)) :
    ∀ w ∈ (getCls (land s c f rs) c).inflight, w.status = .waiting → w.id ≠ f.id := by
  rcases Nat.lt_or_ge c s.cls.length with hc | hc
  · by_cases h : Thawed s c
    · rw [land_of_thawed f rs h, complete_eq, getCls_modCls _ c _ ((lessened_landed s c f rs).length ▸ hc), inflight_completed]
      exact fun w hw _ => by simpa using (List.mem_filter.1 hw).2
    · rw [land_of_frozen f rs h, getCls_modOp _ _ hc]
      intro w hw hs
      obtain ⟨g, -, rfl⟩ := List.mem_map.1 hw
      split at hs
      · cases hs
      · rwa [if_neg ‹_›]
  · intro w hw
    have gone : getCls (land s c f rs) c = default := by
      rw [getCls, List.getD_eq_getElem?_getD, List.getElem?_eq_none ((lessened_land s c f rs).length ▸ hc)]; rfl
    rw [gone] at hw
    cases hw

end Sys2Proof.Machine
end

section
/-!
PROOFS for O33: an add re-evaluates every wait on its counter.
-/

namespace Sys2Proof.Machine

/-! ## Waits that an add satisfies (R253) -/

theorem lessened_satisfy (s : State) (c : Nat) (f : InFlight) : Lessened s (satisfy s c f) := by
  have lands : ∀ (g : InFlight) (n : Nat) (rs : List (Nat × W64)), Lessened s (land (doAcquire s c n) c g rs) := fun g n rs =>
    (lessened_doAcquire s c n).trans (lessened_land ..)
  unfold satisfy
  split
  · exact lands ..
  · exact lands ..
  · exact (lands ..).trans (lessened_relendIf ..)
  · exact .refl s

/-- A CWAIT that is satisfied waits no more. -/
theorem satisfy_cwait_waits {s : State} {c : Nat} {f : InFlight} {h : Hdr} {g : FCN} (hf : f.instr = .cwait h g) :
    ∀ w ∈ (getCls (satisfy s c f) c).inflight, w.status = .waiting → w.id ≠ f.id := by
  unfold satisfy
  rw [hf]
  exact land_waits f _

theorem lessened_reevalEdges (s : State) (h : Nat) : Lessened s (reevalEdges s h) := by
  unfold reevalEdges; split
  · exact .refl s
  · exact .of_same rfl rfl rfl

theorem lessened_reevalQueues (s : State) (h : Nat) : Lessened s (reevalQueues s h) := by
  unfold reevalQueues; split
  · exact .of_same rfl rfl rfl
  · exact .refl s

/-- One waiting word of a class is tested again. -/
def retest (c : Nat) (s : State) (f : InFlight) : State := if waitCond s c f then satisfy s c f else s

/-- Every word of a class that waits on a counter is tested again. -/
def retestAll (h : Nat) (s : State) (c : Nat) : State :=
  ((getCls s c).inflight.filter fun f => waitsOn f h).foldl (retest c) s

theorem reeval_eq (s : State) (h : Nat) :
    reeval s h = (List.range 40).foldl (retestAll h) (reevalEdges (reevalFw (reevalQueues s h) h) h) := rfl

theorem lessened_retest (c : Nat) (s : State) (f : InFlight) : Lessened s (retest c s f) := by
  unfold retest; split
  · exact lessened_satisfy s c f
  · exact .refl s

theorem lessened_retestAll (h : Nat) (s : State) (c : Nat) : Lessened s (retestAll h s c) :=
  lessened_foldl _ (lessened_retest c) _ s

theorem lessened_reeval (s : State) (h : Nat) : Lessened s (reeval s h) := by
  rw [reeval_eq]
  have fw : Lessened (reevalQueues s h) (reevalFw (reevalQueues s h) h) := .of_same rfl rfl rfl
  exact (((lessened_reevalQueues s h).trans fw).trans (lessened_reevalEdges ..)).trans
    (lessened_foldl _ (lessened_retestAll h) _ _)

/-- No CWAIT of class `d` that waits on counter `h` has its condition met. -/
def Met0 (h d : Nat) (t : State) : Prop :=
  ∀ w ∈ (getCls t d).inflight, ∀ hh g, w.instr = .cwait hh g → w.status = .waiting → op0 w 0 = h →
    waitMet t h (op0 w 1) (g.imm.getLsbD 21) = false

theorem waitMet_congr {s t : State} (h : t.ctr = s.ctr) (n w : Nat) (b : Bool) : waitMet t n w b = waitMet s n w b := by
  unfold waitMet ctrGet; rw [h]

theorem Met0.of_lessened {h d : Nat} {s t : State} (hs : Met0 h d s) (L : Lessened s t) : Met0 h d t :=
  fun w hw hh g hi hst ho => (waitMet_congr L.ctr ..).trans (hs w (L.waits d w hw hst) hh g hi hst ho)

theorem met0_retestAll (h : Nat) (s : State) (c : Nat) : Met0 h c (retestAll h s c) := by
  intro w hw hh g hi hst ho
  by_contra hne
  have L := lessened_retestAll h s c
  have on : waitsOn w h = true := by simp [waitsOn, isWaiting, hi, hst, ho]
  obtain ⟨v, hv, hl⟩ := lessened_foldl_mem (retest c) (lessened_retest c)
    (List.mem_filter.2 ⟨L.waits c w hw hst, on⟩ : w ∈ (getCls s c).inflight.filter fun f => waitsOn f h) s
  have met : waitCond v c w = true := by
    have : waitCond v c w = waitMet v h (op0 w 1) (g.imm.getLsbD 21) := by simp only [waitCond, hi, ho, bit21]
    rw [this, waitMet_congr hv.ctr, ← waitMet_congr L.ctr]
    simpa using hne
  rw [retest, if_pos met] at hl
  exact satisfy_cwait_waits hi w (hl.waits c w hw hst) hst rfl

theorem met0_reeval (s : State) (h : Nat) {d : Nat} (hd : d < 40) : Met0 h d (reeval s h) := by
  rw [reeval_eq]
  obtain ⟨v, -, hl⟩ := lessened_foldl_mem (retestAll h) (lessened_retestAll h) (List.mem_range.2 hd)
    (reevalEdges (reevalFw (reevalQueues s h) h) h)
  exact (met0_retestAll h v d).of_lessened hl

/-! ## Adds (R441, R442) -/

/-- The value that an add leaves. -/
def sumOf (o v : Nat) (byt : Bool) : Nat := if byt then (o + v) % 2 ^ 40 else o + v

/-- The counter as the add leaves it, before any wait is tested. -/
def raised (s : State) (h v : Nat) (byt : Bool) : State :=
  closeRounds (ctrSet s h (sumOf (ctrGet s h) v byt)) h (ctrGet s h) (sumOf (ctrGet s h) v byt)

theorem ctrAdd_eq {s : State} {h v : Nat} {byt : Bool} (ok : byt = false → ctrGet s h + v < 2 ^ 64) :
    ctrAdd s h v byt = some (reeval (raised s h v byt) h) := by
  cases byt with
  | true => rfl
  | false =>
    unfold ctrAdd
    dsimp only
    rw [if_neg Bool.false_ne_true, if_neg (Nat.not_le.2 (ok rfl))]; rfl

theorem ctrGet_raised (s : State) (h v : Nat) (byt : Bool) (x : Nat) :
    ctrGet (raised s h v byt) x = if h = x then sumOf (ctrGet s h) v byt else ctrGet s x :=
  tget_tset ..

/-- A release that changes no counter, the add, the answer. -/
theorem releaseAdd_eq {s : State} {c h v scope : Nat} (f : InFlight) {byt : Bool} (ok : byt = false → ctrGet s h + v < 2 ^ 64) :
    releaseAdd s c f scope h v byt
      = land (reeval (raised (doRelease s c scope (some (wordId s c f)) (some (ctrDie h))) h v byt) h) c f [] := by
  have L := lessened_doRelease s c scope (some (wordId s c f)) (some (ctrDie h))
  unfold releaseAdd
  dsimp only
  rw [ctrAdd_eq fun hb => by rw [ctrGet, L.ctr]; exact ok hb]

theorem findOp_of_frozen {s t : State} {c id : Nat} {f : InFlight} (hf : findOp s c id = some f)
    (ids : (getCls t c).inflight.map (·.id) = (getCls s c).inflight.map (·.id)) (hz : ¬ Thawed t c) (hc : c < t.cls.length)
    (rs : List (Nat × W64)) : ∃ w, findOp (land t c f rs) c id = some w ∧ w.status = .answered ∧ w.held = some rs := by
  have fid : f.id = id := by simpa using List.find?_some hf
  have mem : id ∈ (getCls t c).inflight.map (·.id) :=
    ids ▸ List.mem_map.2 ⟨f, List.mem_of_find?_eq_some hf, fid⟩
  rw [land_of_frozen f rs hz, findOp, getCls_modOp _ _ hc, fid]
  generalize (getCls t c).inflight = l at mem
  induction l with
  | nil => cases mem
  | cons g l ih =>
    by_cases hg : g.id = id
    · exact ⟨{ g with status := .answered, held := some rs, prog := f.prog }, by simp [hg], rfl, rfl⟩
    · obtain ⟨w, hw, h⟩ := ih (by simpa [Ne.symm hg] using mem)
      exact ⟨w, by simpa [hg] using hw, h⟩

/-- What an add of a request leaves (R253, R441, R442). -/
theorem added_releaseAdd {s u : State} {c id h v scope : Nat} {f : InFlight} {byt : Bool} (hf : findOp s c id = some f)
    (hc : c < s.cls.length) (L : Lessened s u) (ok : byt = false → ctrGet s h + v < 2 ^ 64) :
    Added s (releaseAdd u c f scope h v byt) c id h v byt := by
  have fid : f.id = id := by simpa using List.find?_some hf
  rw [releaseAdd_eq f fun hb => by rw [ctrGet, L.ctr]; exact ok hb]
  generalize hr : doRelease u c scope (some (wordId u c f)) (some (ctrDie h)) = r
  have R : Lessened s r := L.trans (hr ▸ lessened_doRelease ..)
  have E := lessened_reeval (raised r h v byt) h
  have M := fun d hd => met0_reeval (raised r h v byt) h (d := d) hd
  generalize reeval (raised r h v byt) h = e at *
  have A := lessened_land e c f []
  have frozen : Thawed e c ↔ Thawed s c := by rw [Thawed, Thawed, E.frozen, ← R.frozen]; rfl
  have length : c < e.cls.length := by rw [E.length]; exact R.length ▸ hc
  have sum : ∀ x, ctrGet (raised r h v byt) x = if h = x then sumOf (ctrGet s h) v byt else ctrGet s x := fun x => by
    have before : ∀ y, ctrGet r y = ctrGet s y := fun y => by rw [ctrGet, R.ctr]; rfl
    rw [ctrGet_raised, before, before]
  have ctr : ∀ x, ctrGet (land e c f []) x = if h = x then sumOf (ctrGet s h) v byt else ctrGet s x := fun x => by
    rw [← sum, ctrGet, A.ctr, E.ctr]; rfl
  refine ⟨(ctr h).trans (if_pos rfl), fun x hx => (ctr x).trans (if_neg (Ne.symm hx)), fun ht => ?_, fun hz => ?_,
    fun d hd => (M d hd).of_lessened A, A.mem.trans (E.mem.trans R.mem)⟩
  · rw [land_of_thawed f [] (frozen.2 ht), ← fid]
    exact findOp_complete (by rw [(lessened_landed e c f []).length]; exact length)
  · have hz' : (getCls s c).frozen = true := by simpa [Thawed] using hz
    exact findOp_of_frozen hf ((E.ids c ((R.frozen c).trans hz')).trans (R.ids c hz')) (mt frozen.1 hz) length []

end Sys2Proof.Machine
end

section
/-!
PROOFS for O33: the clauses, request by request.
-/

namespace Sys2Proof.Machine

/-! ## A request at its home -/

/-- A request that has come through is performed. -/
theorem exec_counterRequest {s : State} {c id : Nat} {f : InFlight} (R : RequestHere s c id f) (hq : queueOf f.instr = some 2) :
    exec (.counterRequestArrival c id) s = .next (counterRequest s c f) := by
  obtain ⟨stands, reaches, opened, clean, -⟩ := R
  have undone : (reqOf f 0).done = false := by
    unfold arrives at reaches
    simp only [Bool.and_eq_true, Bool.not_eq_true'] at reaches
    exact reaches.1.2
  have sound : ctrPoison s f = none := by rw [ctrPoison, clean]; rfl
  show execCounterRequestArrival c id s = _
  simp only [execCounterRequestArrival, stands, hq, undone, reaches, opened, sound]
  rfl

theorem exec_counterRequest_of_held {s : State} {c id : Nat} {f : InFlight} (hf : findOp s c id = some f) (hs : f.status = .issued)
    (ha : arrives s c f 0 = false) : exec (.counterRequestArrival c id) s = .next s := by
  show execCounterRequestArrival c id s = _
  simp [execCounterRequestArrival, hf, hs, ha]

theorem arrives_of_older {s : State} {c : Nat} {f : InFlight} {h : Hdr} {g : FCN}
    (hi : f.instr = .cadd h g ∨ f.instr = .caddi h g ∨ f.instr = .barrive h g) (ho : olderDone (getCls s c) f = false) :
    arrives s c f 0 = false := by
  have : mayLeave (getCls s c) f = false := by
    rcases hi with hi | hi | hi <;> simp [mayLeave, hi, ho]
  simp [arrives, this]

theorem findOp_id {s : State} {c id : Nat} {f : InFlight} (h : findOp s c id = some f) : f.id = id := by
  simpa using List.find?_some h

/-! ## A word that is answered -/

theorem endRegion_of_ne {s : State} {c : Nat} {f : InFlight} (h : ∀ x g, f.instr ≠ .bwait x g) : endRegion s c f = s := by
  unfold endRegion
  split
  · exact absurd ‹_› (h _ _)
  · rfl

/-- How a word completes rests on its number, its instruction and its run. -/
theorem completed_congr {f f' : InFlight} (hid : f'.id = f.id) (hi : f'.instr = f.instr) (hr : f'.run = f.run) :
    completed f' = completed f := by
  funext k
  have op : completeOp k f' = completeOp k f := by rw [completeOp, completeOp, hid, hi]
  have pass : ∀ j, passAcquire j f' = passAcquire j f := fun j => by rw [passAcquire, passAcquire, hi, hr]
  simp only [completed, hi, op, pass]

theorem complete_congr {s : State} {c : Nat} {f f' : InFlight} (hid : f'.id = f.id) (hi : f'.instr = f.instr)
    (hr : f'.run = f.run) : complete s c f' = complete s c f := by
  rw [complete_eq, complete_eq, completed_congr hid hi hr]

/-- What an update makes of the entry of a word that completes is gone with it. -/
theorem complete_modOp (s : State) (c : Nat) (f : InFlight) {g : InFlight → InFlight} (hg : ∀ w, w.id = f.id → (g w).id = f.id) :
    complete (modOp s c f.id g) c f = complete s c f := by
  have gone : ∀ l : List InFlight, (l.map fun w => if w.id = f.id then g w else w).filter (fun w => w.id ≠ f.id)
      = l.filter fun w => w.id ≠ f.id := by
    intro l
    induction l with
    | nil => rfl
    | cons w l ih =>
      by_cases h : w.id = f.id
      · simpa [h, hg w h] using ih
      · simpa [h] using ih
  rw [complete_eq, complete_eq, modOp, modCls_modCls]
  congr 1
  funext k
  have op : completeOp { k with inflight := k.inflight.map fun w => if w.id = f.id then g w else w } f = completeOp k f := by
    rw [completeOp, completeOp, gone]
  simp only [completed, op]

theorem setS_modOp (s : State) (c id n : Nat) (f : InFlight → InFlight) (v : W64) :
    setS (modOp s c id f) c n v = modOp (setS s c n v) c id f := by
  unfold setS
  split
  · rfl
  · rw [modOp, modOp, modCls_modCls, modCls_modCls]

theorem doAcquire_modCls (s : State) (c d n : Nat) (f : ClassState → ClassState) :
    doAcquire (modCls s c f) d n = modCls (doAcquire s d n) c f := by
  unfold doAcquire
  have team : teamOf (modCls s c f) d = teamOf s d := rfl
  rw [team]
  split
  · split <;> rfl
  · rfl

theorem thawed_modOp {s : State} {c id : Nat} {f : InFlight → InFlight} (h : Thawed s c) : Thawed (modOp s c id f) c := by
  unfold Thawed at *
  rcases Nat.lt_or_ge c s.cls.length with hc | hc
  · rw [getCls_modOp _ _ hc]; exact h
  · rw [modOp, getCls_modCls_of_length_le _ hc]; exact h

/-- A wait that is satisfied with one register: an acquire, the register, the word complete. -/
theorem land_acquire {s : State} {c n d : Nat} {v : W64} {f : InFlight} (ht : Thawed s c) (h : ∀ x g, f.instr ≠ .bwait x g) :
    land (doAcquire s c n) c f [(d, v)] = complete (setS (doAcquire s c n) c d v) c f := by
  rw [land_of_thawed f _ ((lessened_doAcquire s c n).thawed.2 ht), landed, endRegion_of_ne h]; rfl

theorem land_acquire_modOp {s : State} {c n d : Nat} {v : W64} {f f' : InFlight} (ht : Thawed s c) (h : ∀ x g, f.instr ≠ .bwait x g)
    (hid : f'.id = f.id) (hi : f'.instr = f.instr) (hr : f'.run = f.run) :
    land (doAcquire (modOp s c f.id fun _ => f') c n) c f' [(d, v)] = complete (setS (doAcquire s c n) c d v) c f := by
  rw [land_acquire (thawed_modOp ht) (hi ▸ h), modOp, doAcquire_modCls]
  show complete (setS (modOp (doAcquire s c n) c f.id fun _ => f') c d v) c f' = _
  rw [complete_congr hid hi hr, setS_modOp, complete_modOp _ c f fun _ _ => hid]

/-! ## Reads and waits -/

/-- The word as it stands at the engine when its request has arrived (R141, R253). -/
def standing (s : State) (c : Nat) (f : InFlight) : InFlight :=
  let f' := match f.instr with
    | .bwait _ _ => { f with prog := ctrGet s (op0 f 0) / teamSize s c + 1 }
    | _ => { f with prog := 1 }
  markDone { f' with status := if f.status == .cancelling then .cancelling else .waiting } 0

theorem arriveWait_eq (s : State) (c : Nat) (f : InFlight) (lend : Bool) :
    arriveWait s c f lend = if waitCond (modOp s c f.id fun _ => standing s c f) c (standing s c f)
      then satisfy (modOp s c f.id fun _ => standing s c f) c (standing s c f)
      else relendIf lend (modOp s c f.id fun _ => standing s c f) := rfl

/-- Standing at the engine changes a word's progress, status and request only. -/
theorem standing_frame (s : State) (c : Nat) (f : InFlight) :
    { standing s c f with prog := 0, status := .issued, reqs := [] } = { f with prog := 0, status := .issued, reqs := [] } := by
  unfold standing
  dsimp only
  split <;> rfl

theorem standing_same (s : State) (c : Nat) (f : InFlight) : (standing s c f).id = f.id ∧ (standing s c f).instr = f.instr
    ∧ (standing s c f).run = f.run ∧ ∀ n, op0 (standing s c f) n = op0 f n := by
  have h := standing_frame s c f
  generalize standing s c f = g at *
  have ops : g.ops = f.ops := (congrArg InFlight.ops h :)
  exact ⟨(congrArg InFlight.id h :), (congrArg InFlight.instr h :), (congrArg InFlight.run h :), fun n => by rw [op0, op0, ops]⟩

theorem satisfy_cwait {s : State} {c : Nat} {f : InFlight} {h : Hdr} {g : FCN} (hi : f.instr = .cwait h g) (ht : Thawed s c) :
    satisfy s c f = complete (setS (doAcquire s c g.scope.toNat) c g.d.toNat (ctrSeen s (op0 f 0) (g.imm.getLsbD 21))) c f := by
  rw [satisfy, hi]
  exact land_acquire ht (by simp [hi])

theorem satisfy_cwaitT {s : State} {c : Nat} {f : InFlight} {h : Hdr} {g : FCN} (hi : f.instr = .cwaitT h g) (ht : Thawed s c) :
    satisfy s c f = complete (setS (doAcquire s c g.scope.toNat) c g.d.toNat 0) c f := by
  rw [satisfy, hi]
  exact land_acquire ht (by simp [hi])

/-- A standing CWAIT or CWAIT.T is satisfied as the word that arrived is. -/
theorem satisfy_standing {s : State} {c : Nat} {f : InFlight} {h : Hdr} {g : FCN}
    (hi : f.instr = .cwait h g ∨ f.instr = .cwaitT h g) (ht : Thawed s c) :
    satisfy (modOp s c f.id fun _ => standing s c f) c (standing s c f) = satisfy s c f := by
  obtain ⟨hid, hin, hrun, hop⟩ := standing_same s c f
  rcases hi with hi | hi
  · rw [satisfy_cwait hi ht, satisfy, hin, hi]
    dsimp only
    rw [hop, land_acquire_modOp ht (by simp [hi]) hid hin hrun]; rfl
  · rw [satisfy_cwaitT hi ht, satisfy, hin, hi]
    dsimp only
    rw [land_acquire_modOp ht (by simp [hi]) hid hin hrun]

theorem waitCond_cwait {s : State} {c : Nat} {f : InFlight} {h : Hdr} {g : FCN}
    (hi : f.instr = .cwait h g ∨ f.instr = .cwaitT h g) :
    waitCond s c f = waitMet s (op0 f 0) (op0 f 1) (g.imm.getLsbD 21) := by
  rcases hi with hi | hi <;> rw [waitCond, hi] <;> rfl

/-- A CWAIT or CWAIT.T whose request arrives is satisfied where its condition is met, and stands where it is not. -/
theorem arriveWait_cwait {s : State} {c : Nat} {f : InFlight} {h : Hdr} {g : FCN}
    (hi : f.instr = .cwait h g ∨ f.instr = .cwaitT h g) :
    (waitMet s (op0 f 0) (op0 f 1) (g.imm.getLsbD 21) = true → Thawed s c → arriveWait s c f false = satisfy s c f)
      ∧ (waitMet s (op0 f 0) (op0 f 1) (g.imm.getLsbD 21) = false →
          arriveWait s c f false = modOp s c f.id fun _ => standing s c f) := by
  obtain ⟨-, hin, -, hop⟩ := standing_same s c f
  have cond : waitCond (modOp s c f.id fun _ => standing s c f) c (standing s c f)
      = waitMet s (op0 f 0) (op0 f 1) (g.imm.getLsbD 21) := by
    rw [waitCond_cwait (hin ▸ hi), hop, hop]; rfl
  rw [arriveWait_eq, cond]
  exact ⟨fun met ht => by rw [if_pos met, satisfy_standing hi ht], fun unmet => by rw [if_neg (by rw [unmet]; decide)]; rfl⟩

/-- A word that stands with its status and progress as the clauses write them. -/
theorem standing_cwait {s : State} {c : Nat} {f : InFlight} {h : Hdr} {g : FCN}
    (hi : f.instr = .cwait h g ∨ f.instr = .cwaitT h g) :
    standing s c f = markDone { f with prog := 1, status := if f.status = .cancelling then .cancelling else .waiting } 0 := by
  have status : (if f.status == .cancelling then OpStatus.cancelling else .waiting)
      = if f.status = .cancelling then .cancelling else .waiting := by
    cases f.status <;> rfl
  rcases hi with hi | hi <;> rw [standing, hi, status]

/-! ## Barriers -/

/-- The barrier region of a class closes (R256). -/
def closeRegion (k : ClassState) : ClassState := { k with region := none, regionCount := 0, regionOp := 0 }

/-- A BWAIT with the round whose key it takes, 0 for none. -/
def tested (s : State) (c : Nat) (f : InFlight) (g : FCN) : InFlight :=
  { f with prog := if bit21 g then (tbRound s c f).getD 0 else 0 }

theorem satisfy_of_bwait {s : State} {c : Nat} {f : InFlight} {h : Hdr} {g : FCN} (hi : f.instr = .bwait h g) :
    satisfy s c f = relendIf (g.imm.getLsbD 20) (land (doAcquire s c g.scope.toNat) c (tested s c f g) []) := by
  unfold satisfy
  split
  case h_3 h' => cases hi.symm.trans h'; rfl
  all_goals simp_all

/-- A BWAIT without TB that is satisfied: an acquire, the region closed, the word complete, loans as they then stand. -/
theorem satisfy_bwait {s : State} {c : Nat} {f : InFlight} {h : Hdr} {g : FCN} (hi : f.instr = .bwait h g)
    (hb : g.imm.getLsbD 21 = false) (ht : Thawed s c) : satisfy s c f
      = relendIf (g.imm.getLsbD 20) (complete (modCls (doAcquire s c g.scope.toNat) c closeRegion) c f) := by
  have region : landed (doAcquire s c g.scope.toNat) c (tested s c f g) [] = modCls (doAcquire s c g.scope.toNat) c closeRegion := by
    show endRegion _ c (tested s c f g) = _
    simp only [endRegion, tested, hi, bit21, hb]; rfl
  rw [satisfy_of_bwait hi, land_of_thawed _ _ ((lessened_doAcquire s c _).thawed.2 ht), region]
  exact congrArg _ (complete_congr rfl rfl rfl)

theorem waitCond_bwait {s : State} {c : Nat} {f : InFlight} {h : Hdr} {g : FCN} (hi : f.instr = .bwait h g) :
    waitCond s c f = true ↔ arrived s (op0 f 0) (op0 f 1) (op0 f 2) ∧ (g.imm.getLsbD 21 = true → (tbRound s c f).isSome = true) := by
  simp only [waitCond, hi, arrived, bit21]
  cases g.imm.getLsbD 21 <;> simp [and_assoc]

theorem arrived_modOp (s : State) (c id b n e : Nat) (f : InFlight → InFlight) :
    arrived (modOp s c id f) b n e ↔ arrived s b n e := Iff.rfl

/-- The word of a barrier that stands. -/
theorem standing_bwait {s : State} {c : Nat} {f : InFlight} {h : Hdr} {g : FCN} (hi : f.instr = .bwait h g)
    (hs : f.status = .issued) :
    standing s c f = markDone { f with prog := ctrGet s (op0 f 0) / teamSize s c + 1, status := .waiting } 0 := by
  rw [standing, hi, hs]; rfl

theorem modCls_modOp_comm (s : State) (c id : Nat) (f : InFlight → InFlight) :
    modCls (modOp s c id f) c closeRegion = modOp (modCls s c closeRegion) c id f := by
  rw [modOp, modOp, modCls_modCls, modCls_modCls]; rfl

/-- A BWAIT without TB (R448): satisfied where the count and the bytes have arrived, standing elsewhere. -/
theorem arriveWait_bwait {s : State} {c : Nat} {f : InFlight} {h : Hdr} {g : FCN} (hi : f.instr = .bwait h g)
    (hb : g.imm.getLsbD 21 = false) :
    (arrived s (op0 f 0) (op0 f 1) (op0 f 2) → Thawed s c → arriveWait s c f (g.imm.getLsbD 20) = relendIf (g.imm.getLsbD 20)
        (complete (modCls (doAcquire s c g.scope.toNat) c closeRegion) c f))
      ∧ (¬ arrived s (op0 f 0) (op0 f 1) (op0 f 2) →
          arriveWait s c f (g.imm.getLsbD 20) = relendIf (g.imm.getLsbD 20) (modOp s c f.id fun _ => standing s c f)) := by
  obtain ⟨hid, hin, hrun, hop⟩ := standing_same s c f
  have cond := waitCond_bwait (s := modOp s c f.id fun _ => standing s c f) (c := c) (hin.trans hi)
  simp only [hb, Bool.false_eq_true, false_imp_iff, and_true, hop, arrived_modOp] at cond
  rw [arriveWait_eq]
  refine ⟨fun met ht => ?_, fun unmet => if_neg (mt cond.1 unmet)⟩
  rw [if_pos (cond.2 met), satisfy_bwait (hin.trans hi) hb (thawed_modOp ht), modOp, doAcquire_modCls]
  show relendIf _ (complete (modCls (modOp (doAcquire s c _) c f.id fun _ => standing s c f) c closeRegion) c _) = _
  rw [modCls_modOp_comm, complete_congr hid hin hrun, complete_modOp _ c f fun _ _ => hid]

/-! ### A round's key (R449) -/

theorem teamSize_pos (s : State) (c : Nat) : 0 < teamSize s c := by
  unfold teamSize
  cases ht : teamOf s c with
  | none => exact Nat.one_pos
  | some t =>
    have on : c ∈ t.classes := by
      have := List.find?_some ht
      simp only [Bool.and_eq_true, List.contains_eq_mem, decide_eq_true_eq] at this
      exact this.1
    exact List.length_pos_of_mem on

/-- The round that a member waits for is that of its latest arrival, where its region is open on the barrier. -/
theorem tbRound_eq {s : State} {c : Nat} {f : InFlight} (hr : (getCls s c).region = some (BitVec.ofNat 64 (op0 f 0)))
    (hn : (getCls s c).regionCount ≠ 0)
    (hd : roundOf (teamSize s c) (getCls s c).regionCount ≤ ctrGet s (op0 f 0) / teamSize s c) :
    tbRound s c f = some (roundOf (teamSize s c) (getCls s c).regionCount) := by
  simp [tbRound, hr, hn, hd]

theorem roundOf_pos {n m : Nat} (hn : 0 < n) (hm : m ≠ 0) : 0 < roundOf n m :=
  Nat.div_pos (by omega) hn

theorem takeKey_cls {s : State} {c h r : Nat} {b : Barrier} {lvl : BitVec 3} {bkt : Nat}
    (hb : barrierOf s h (teamSize s c) = some b) (hk : b.keys.find? (fun x => x.1 = r) = some (r, lvl, bkt)) :
    takeKey s c h r = modCls s c fun k => { k with klvl := lvl, kbkt := bkt, lncBar := some (lnc s c) } := by
  unfold takeKey
  rw [hb]
  dsimp only
  rw [hk]
  rfl

/-- What publishing loans leaves of a class. -/
theorem kept_publishPrio (s : State) (id d : Nat) : (getCls (publishPrio s id) d).kept = (getCls s d).kept := by
  unfold publishPrio
  split
  · rfl
  case h_2 t ht =>
    clear ht
    generalize t.classes = l
    induction l generalizing s with
    | nil => rfl
    | cons a l ih =>
      rw [List.foldl_cons, ih]
      by_cases hd : d = a
      · subst hd
        rcases Nat.lt_or_ge d s.cls.length with hl | hl
        · rw [getCls_modCls s d _ hl]; rfl
        · rw [getCls_modCls_of_length_le _ hl]
      · rw [getCls_modCls_ne s a d _ hd]

theorem kept_relend (s : State) (d : Nat) : (getCls (relend s) d).kept = (getCls s d).kept := by
  have start : (getCls (lent s) d).kept = (getCls s d).kept := by rw [getCls, getCls, (lentOnly_lent s).1]
  rw [relend_eq, ← start]
  generalize (lent s).teams = l
  generalize lent s = u
  induction l generalizing u with
  | nil => rfl
  | cons t l ih =>
    rw [List.foldl_cons, ih]
    split
    · rfl
    · exact kept_publishPrio u t.id d

theorem kept_relendIf (b : Bool) (s : State) (d : Nat) : (getCls (relendIf b s) d).kept = (getCls s d).kept := by
  cases b
  · rfl
  · exact kept_relend s d

/-- A BWAIT with TB whose round is complete takes the round's key as it completes. -/
theorem kept_satisfy_tb {s : State} {c r : Nat} {f : InFlight} {h : Hdr} {g : FCN} {b : Barrier} {lvl : BitVec 3} {bkt : Nat}
    (hi : f.instr = .bwait h g) (htb : g.imm.getLsbD 21 = true) (ht : Thawed s c) (hc : c < s.cls.length)
    (hr : tbRound s c f = some r) (h0 : r ≠ 0) (hb : barrierOf s (op0 f 0) (teamSize s c) = some b)
    (hk : b.keys.find? (fun x => x.1 = r) = some (r, lvl, bkt)) :
    (getCls (satisfy s c f) c).kept
      = ((getCls s c).inflight.filter fun w => w.id ≠ f.id, (getCls s c).frozen, lvl, bkt, none) := by
  generalize hu : doAcquire s c g.scope.toNat = u
  have A : Lessened s u := hu ▸ lessened_doAcquire s c _
  obtain ⟨hcls, hbar, hteams⟩ : u.cls = s.cls ∧ u.barriers = s.barriers ∧ u.teams = s.teams := by
    rw [← hu]; unfold doAcquire; (repeat' split) <;> exact ⟨rfl, rfl, rfl⟩
  have cls : getCls u c = getCls s c := by rw [getCls, getCls, hcls]
  have size : teamSize u c = teamSize s c := by rw [teamSize, teamSize, teamOf, teamOf, hteams]
  have key : takeKey u c (op0 f 0) r = modCls u c fun k => { k with klvl := lvl, kbkt := bkt, lncBar := some (lnc u c) } :=
    takeKey_cls (by rw [size, barrierOf, hbar]; exact hb) hk
  have region : landed u c (tested s c f g) [] = modCls (takeKey u c (op0 f 0) r) c closeRegion := by
    show endRegion u c (tested s c f g) = _
    have prog : (tested s c f g).prog = r := by simp [tested, bit21, htb, hr]
    have : (r != 0) = true := by simpa using h0
    rw [endRegion, show (tested s c f g).instr = .bwait h g from hi]
    simp only [bit21, htb, prog, this]
    rfl
  rw [satisfy_of_bwait hi, kept_relendIf, hu, land_of_thawed _ _ (A.thawed.2 ht), region, key, modCls_modCls, complete_eq,
    modCls_modCls, getCls_modCls _ c _ (A.length ▸ hc), kept_completed, cls]
  rfl

theorem findOp_of_kept {s : State} {c id : Nat} {l : List InFlight} {x : Bool × BitVec 3 × Nat × Option W64}
    (h : (getCls s c).kept = (l.filter fun w => w.id ≠ id, x)) : findOp s c id = none := by
  have : (getCls s c).inflight = l.filter fun w => w.id ≠ id := congrArg Prod.fst h
  rw [findOp, this, List.find?_eq_none]
  intro w hw
  simpa using (List.mem_filter.1 hw).2

end Sys2Proof.Machine
end

section
/-!
PROOFS for O33: countdowns and epochs, and the statement.
-/

namespace Sys2Proof.Machine

theorem counterRequest_bwait {s : State} {c : Nat} {f : InFlight} {h : Hdr} {g : FCN} (hi : f.instr = .bwait h g) :
    counterRequest s c f = arriveWait (if g.imm.getLsbD 21 then followBarrier s (op0 f 0) (teamSize s c) else s) c f
      (g.imm.getLsbD 20) := by
  rw [counterRequest, hi]; rfl

/-- A TB word that arrives (R449): its round complete, it takes the round's key. -/
theorem counterRequest_tb {s : State} {c : Nat} {f : InFlight} {h : Hdr} {g : FCN} {b : Barrier} {r : Nat} {lvl : BitVec 3}
    {bkt : Nat} (hi : f.instr = .bwait h g) (htb : g.imm.getLsbD 21 = true) (ht : Thawed s c) (hc : c < s.cls.length)
    (ha : arrived s (op0 f 0) (op0 f 1) (op0 f 2)) (hb : barrierOf s (op0 f 0) (teamSize s c) = some b)
    (hreg : (getCls s c).region = some (BitVec.ofNat 64 b.handle)) (hn : (getCls s c).regionCount ≠ 0)
    (hr : r = ((getCls s c).regionCount + b.size - 1) / b.size) (hd : r ≤ ctrGet s b.handle / b.size)
    (hk : b.keys.find? (fun x => x.1 = r) = some (r, lvl, bkt)) :
    findOp (counterRequest s c f) c f.id = none ∧ (getCls (counterRequest s c f) c).klvl = lvl
      ∧ (getCls (counterRequest s c f) c).kbkt = bkt ∧ (getCls (counterRequest s c f) c).region = none := by
  have named : b.handle = op0 f 0 ∧ b.size = teamSize s c := by simpa using List.find?_some hb
  obtain ⟨hh, hs⟩ := named
  rw [hh] at hreg hd
  rw [hs] at hr hd
  have hround : roundOf (teamSize s c) (getCls s c).regionCount = r := hr.symm
  obtain ⟨hid, hin, hrun, hop⟩ := standing_same s c f
  generalize hg : standing s c f = w at *
  have hc' : c < (modOp s c f.id fun _ => w).cls.length := by rw [modOp, length_modCls]; exact hc
  have cls := getCls_modOp f.id (fun _ => w) hc
  have region : (getCls (modOp s c f.id fun _ => w) c).region = (getCls s c).region := by rw [cls]
  have count : (getCls (modOp s c f.id fun _ => w) c).regionCount = (getCls s c).regionCount := by rw [cls]
  have round : tbRound (modOp s c f.id fun _ => w) c w = some r := by
    have := tbRound_eq (s := modOp s c f.id fun _ => w) (c := c) (f := w) (by rw [region, hop]; exact hreg)
      (by rw [count]; exact hn) (by
        rw [count, hop]
        show roundOf (teamSize s c) (getCls s c).regionCount ≤ ctrGet s (op0 f 0) / teamSize s c
        rw [hround]
        exact hd)
    rw [this, count]
    exact congrArg some hround
  have cond : waitCond (modOp s c f.id fun _ => w) c w = true :=
    (waitCond_bwait (hin.trans hi)).2 ⟨by rw [hop, hop, hop]; exact ha, fun _ => by rw [round]; rfl⟩
  have eq : counterRequest s c f = satisfy (modOp s c f.id fun _ => w) c w := by
    rw [counterRequest_bwait hi, htb, if_pos rfl, followBarrier, hb]
    dsimp only
    rw [arriveWait_eq, hg, if_pos cond]
  have kept := kept_satisfy_tb (hin.trans hi) htb (thawed_modOp ht) hc' round (by rw [hr]; exact (roundOf_pos (teamSize_pos s c) hn).ne')
    (by rw [hop]; exact hb) hk
  rw [hid] at kept
  rw [eq]
  exact ⟨findOp_of_kept kept, congrArg (·.2.2.1) kept, congrArg (·.2.2.2.1) kept, congrArg (·.2.2.2.2) kept⟩

theorem counterRequest_cwaitT {s : State} {c : Nat} {f : InFlight} {h : Hdr} {g : FCN} (hi : f.instr = .cwaitT h g) :
    counterRequest s c f = if f.ops.getD 2 0 = 0 then testOnce s c f g else arriveWait s c f false := by
  rw [counterRequest, hi]

/-- What a BARRIVE notes before its add. -/
theorem lessened_barrive (s : State) (c h : Nat) (d : Option Nat) (f : ClassState → Bool) (n : Nat) :
    Lessened s (modCls (noteArrival s c h d) c fun k => if f k then { k with regionCount := n } else k) := by
  have note : Lessened s (noteArrival s c h d) := by
    have follow : Lessened s (followBarrier s h (teamSize s c)) := by
      unfold followBarrier; split
      · exact .refl s
      · exact .of_same rfl rfl rfl
    exact follow.trans (.of_same rfl rfl rfl)
  refine note.trans (lessened_modCls_same _ c _ (fun k => ?_) fun k => ?_) <;> split <;> rfl

/-- O33's clauses on requests at their home. -/
theorem counterRequestClauses : CounterRequestClauses := by
  refine ⟨fun s c id f h g R hi ok => ?_, fun s c id f h g R hi ok => ?_, fun s c id f h g R hi ok => ?_,
    fun s c id f h g i hf hs hi hw ho => ?_, fun s c id f h g R hi ht => ?_, fun s c id f h g R hi ht => ?_,
    fun s c id f h g R hi hs => ⟨fun met ht => ?_, fun unmet => ?_⟩,
    fun s c id f h g R hi => ⟨fun met ht => ?_, fun unmet h0 ht => ?_, fun unmet h0 => ?_⟩,
    fun s c id f h g R hi hs hb => ⟨fun met ht => ?_, fun unmet => ?_⟩,
    fun s c id f h g b r lvl bkt R hi hs ht htb ha hb hreg hn hr hd hk => ?_⟩
  · rw [exec_counterRequest R (by rw [hi]; rfl), counterRequest, hi]
    exact ⟨_, rfl, added_releaseAdd R.stands R.inRange (.refl s) ok⟩
  · rw [exec_counterRequest R (by rw [hi]; rfl), counterRequest, hi]
    exact ⟨_, rfl, added_releaseAdd R.stands R.inRange (.refl s) fun _ => ok⟩
  · rw [exec_counterRequest R (by rw [hi]; rfl), counterRequest, hi]
    exact ⟨_, rfl, added_releaseAdd R.stands R.inRange (lessened_barrive ..) fun _ => ok⟩
  · exact exec_counterRequest_of_held hf hs (arrives_of_older (hi ▸ hw) ho)
  · rw [exec_counterRequest R (by rw [hi]; rfl), counterRequest, hi]
    dsimp only
    rw [land_of_thawed f _ ht, landed, endRegion_of_ne (by simp [hi])]; rfl
  · rw [exec_counterRequest R (by rw [hi]; rfl), counterRequest, hi]
    dsimp only
    rw [land_of_frozen f _ ht, findOp_id R.stands]; rfl
  · rw [exec_counterRequest R (by rw [hi]; rfl), counterRequest, hi]
    exact congrArg _ (((arriveWait_cwait (.inl hi)).1 met ht).trans (satisfy_cwait hi ht))
  · rw [exec_counterRequest R (by rw [hi]; rfl), counterRequest, hi]
    obtain rfl := findOp_id R.stands
    dsimp only
    rw [(arriveWait_cwait (.inl hi)).2 unmet, standing_cwait (.inl hi), hs, if_neg (by decide), hi]
  · rw [exec_counterRequest R (by rw [hi]; rfl), counterRequest_cwaitT hi, ← satisfy_cwaitT hi ht]
    split
    · rw [testOnce, waitCond_cwait (.inr hi), if_pos met]
    · rw [(arriveWait_cwait (.inr hi)).1 met ht]
  · rw [exec_counterRequest R (by rw [hi]; rfl), counterRequest_cwaitT hi, if_pos h0, testOnce, waitCond_cwait (.inr hi), unmet,
      if_neg Bool.false_ne_true, land_of_thawed f _ ht, landed, endRegion_of_ne (by simp [hi])]
    rfl
  · obtain rfl := findOp_id R.stands
    rw [exec_counterRequest R (by rw [hi]; rfl), counterRequest_cwaitT hi, if_neg h0, (arriveWait_cwait (.inr hi)).2 unmet,
      standing_cwait (.inr hi)]
  · rw [exec_counterRequest R (by rw [hi]; rfl), counterRequest_bwait hi, hb]
    exact congrArg _ ((arriveWait_bwait hi hb).1 met ht)
  · obtain rfl := findOp_id R.stands
    have stands := (arriveWait_bwait (c := c) hi hb).2 unmet
    rw [exec_counterRequest R (by rw [hi]; rfl), counterRequest_bwait hi, hb]
    rw [standing_bwait hi hs] at stands
    exact ⟨_, congrArg _ stands⟩
  · rw [exec_counterRequest R (by rw [hi]; rfl)]
    have key := counterRequest_tb hi htb ht R.inRange ha hb hreg hn hr hd hk
    rw [findOp_id R.stands] at key
    exact ⟨_, rfl, key⟩

/-! ## Countdowns -/

theorem find?_append_cons {α : Type} {p : α → Bool} {l m : List α} {a : α} (hl : ∀ x ∈ l, p x = false) (ha : p a = true) :
    (l ++ a :: m).find? p = some a := by
  rw [List.find?_append, List.find?_eq_none.2 fun x hx => by simp [hl x hx], List.find?_cons_of_pos ha]; rfl

theorem exec_expiry_of_find {s : State} {c : Nat} {f : InFlight} {h : Hdr} {g : FCN}
    (hf : (getCls s c).inflight.find? (fun f => timing f && countEnds (getCls s c) f) = some f) (hi : f.instr = .cwaitT h g) :
    exec (.nanosecondWaitExpiry c) s = .next (modOp s c f.id fun f => { f with status := .cancelling }) := by
  show execNanosecondWaitExpiry c s = _
  rw [execNanosecondWaitExpiry, hf]
  dsimp only
  rw [hi]

theorem exec_expiry_sleepns {s : State} {c : Nat} {f : InFlight} {h : Hdr} {g : FSR}
    (hf : (getCls s c).inflight.find? (fun f => timing f && countEnds (getCls s c) f) = some f) (hi : f.instr = .sleepns h g) :
    exec (.nanosecondWaitExpiry c) s = .next (complete s c f) := by
  show execNanosecondWaitExpiry c s = _
  rw [execNanosecondWaitExpiry, hf]
  dsimp only
  rw [hi]

/-! ## Epochs (R242, R244) -/

/-- The staged writes after those that `pick` chooses have taken epoch `e`. -/
def stamped (pick : Staged → Bool) (e : Nat) (l : List Staged) : List Staged :=
  l.foldr (fun w l => if pick w then { w with epoch := some e } :: l.filter fun x => !(x.pa == w.pa && x.epoch == some e) else w :: l) []

theorem stamped_cons (pick : Staged → Bool) (e : Nat) (w : Staged) (l : List Staged) : stamped pick e (w :: l)
    = if pick w then { w with epoch := some e } :: (stamped pick e l).filter fun x => !(x.pa == w.pa && x.epoch == some e)
      else w :: stamped pick e l := rfl

/-- What comes of the writes is a write as it was, or a chosen one with the epoch. -/
theorem mem_stamped {pick : Staged → Bool} {e : Nat} {l : List Staged} {w : Staged} (h : w ∈ stamped pick e l) :
    (w ∈ l ∧ pick w = false) ∨ ∃ x ∈ l, pick x = true ∧ w = { x with epoch := some e } := by
  induction l with
  | nil => cases h
  | cons y l ih =>
    have tail : w ∈ stamped pick e l → (w ∈ y :: l ∧ pick w = false) ∨ ∃ x ∈ y :: l, pick x = true ∧ w = { x with epoch := some e } := by
      intro h
      rcases ih h with ⟨hw, hp⟩ | ⟨x, hx, hp, e⟩
      · exact .inl ⟨List.mem_cons_of_mem _ hw, hp⟩
      · exact .inr ⟨x, List.mem_cons_of_mem _ hx, hp, e⟩
    rw [stamped_cons] at h
    split at h
    · rcases List.mem_cons.1 h with rfl | h
      · exact .inr ⟨y, List.mem_cons_self, ‹_›, rfl⟩
      · exact tail (List.mem_filter.1 h).1
    · rcases List.mem_cons.1 h with rfl | h
      · exact .inl ⟨List.mem_cons_self, by simpa using ‹¬ pick w = true›⟩
      · exact tail h

/-- A version stays unless a later one of the same byte takes its epoch. -/
theorem mem_stamped_cons {pick : Staged → Bool} {e : Nat} {l : List Staged} {w y : Staged} (h : w ∈ stamped pick e l)
    (hy : pick y = true → y.pa ≠ w.pa ∨ w.epoch ≠ some e) : w ∈ stamped pick e (y :: l) := by
  rw [stamped_cons]
  split
  · refine List.mem_cons_of_mem _ (List.mem_filter.2 ⟨h, ?_⟩)
    rcases hy ‹_› with hp | he
    · simp [Ne.symm hp]
    · simp [he]
  · exact List.mem_cons_of_mem _ h

theorem mem_stamped_of_not_picked {pick : Staged → Bool} {e : Nat} {l : List Staged} {w : Staged} (h : w ∈ l)
    (hp : pick w = false) (he : w.epoch ≠ some e) : w ∈ stamped pick e l := by
  induction l with
  | nil => cases h
  | cons y l ih =>
    rcases List.mem_cons.1 h with rfl | h
    · rw [stamped_cons, hp, if_neg Bool.false_ne_true]; exact List.mem_cons_self
    · exact mem_stamped_cons (ih h) fun _ => .inr he

theorem mem_stamped_of_picked {pick : Staged → Bool} {e : Nat} {pre post : List Staged} {w : Staged} (hp : pick w = true)
    (first : ∀ y ∈ pre, pick y = true → y.pa ≠ w.pa) : { w with epoch := some e } ∈ stamped pick e (pre ++ w :: post) := by
  induction pre with
  | nil =>
    rw [List.nil_append, stamped_cons, if_pos hp]; exact List.mem_cons_self
  | cons y pre ih =>
    exact mem_stamped_cons (ih fun y hy => first y (List.mem_cons_of_mem _ hy)) fun hy => .inl (first y List.mem_cons_self hy)

theorem publishNode_eq (n : Node) (pick : Staged → Bool) :
    publishNode n pick = { n with epoch := n.epoch + 1, staged := stamped pick (n.epoch + 1) n.staged } := rfl

theorem published_iff (c : Nat) (upto : Option WordId) (w : Staged) : published c upto w = true ↔
    w.cls = c ∧ w.epoch = none ∧ w.counted = false ∧ ∀ u x, upto = some u → w.word = some x → wordBefore x u = true := by
  unfold published
  cases upto <;> cases w.word <;> simp [and_assoc]

/-- A node after an update of it. -/
theorem nodeOf_modNode {s : State} {num node : Nat} {i : Instance} (f : Node → Node) (hi : instOf s num = some i)
    (hn : node < i.nodes.length) : nodeOf (modNode s num node f) num node = f (nodeOf s num node) := by
  have num_i : i.num = num := by simpa using List.find?_some hi
  have found : instOf (modNode s num node f) num = some { i with nodes := i.nodes.modify node f } := by
    have same : ((fun i : Instance => decide (i.num = num)) ∘ fun i => if i.num = num then { i with nodes := i.nodes.modify node f } else i)
        = fun i => decide (i.num = num) := by
      funext j
      simp only [Function.comp]
      split <;> rfl
    rw [instOf, modNode, modInst, List.find?_map, same, show s.insts.find? (fun i => decide (i.num = num)) = some i from hi]
    simp [num_i]
  simp [nodeOf, found, hi, List.getD_eq_getElem?_getD, hn]

theorem doAcquire_eq {s : State} {c sc : Nat} {t : Team} (h2 : 2 ≤ sc) (ht : teamOf s c = some t) :
    doAcquire s c sc = modNode s t.inst t.node fun n => { n with recorded := tset 0 n.recorded c n.epoch } := by
  rw [doAcquire, if_pos h2, ht]

theorem mergePartial_frame (s : State) (p : Partial) :
    (mergePartial s p).insts = s.insts ∧ (mergePartial s p).teams = s.teams := by
  unfold mergePartial; split <;> exact ⟨rfl, rfl⟩

theorem foldl_mergePartial_frame (l : List Partial) (s : State) :
    (l.foldl mergePartial s).insts = s.insts ∧ (l.foldl mergePartial s).teams = s.teams := by
  induction l generalizing s with
  | nil => exact ⟨rfl, rfl⟩
  | cons p l ih =>
    obtain ⟨h1, h2⟩ := mergePartial_frame s p
    obtain ⟨g1, g2⟩ := ih (mergePartial s p)
    exact ⟨g1.trans h1, g2.trans h2⟩

theorem landTransit_frame (s : State) (c : Nat) : (landTransit s c).insts = s.insts ∧ (landTransit s c).teams = s.teams :=
  foldl_mergePartial_frame _ { s with transit := s.transit.filter fun t => t.cls ≠ c }

theorem mergePartials_frame (s : State) (c : Nat) (d : Option Nat) :
    (mergePartials s c d).insts = s.insts ∧ (mergePartials s c d).teams = s.teams :=
  foldl_mergePartial_frame _ s

/-- A release of node scope or wider publishes in the node of the class's team, whatever merges before it. -/
theorem doRelease_eq {s : State} {c sc : Nat} {t : Team} (upto : Option WordId) (d : Option Nat) (h2 : 2 ≤ sc)
    (ht : teamOf s c = some t) : ∃ u, u.insts = s.insts ∧ Lessened s u
      ∧ doRelease s c sc upto d = modNode u t.inst t.node fun n => publishNode n (published c upto) := by
  obtain ⟨l1, l2⟩ := landTransit_frame s c
  obtain ⟨m1, m2⟩ := mergePartials_frame (landTransit s c) c d
  refine ⟨mergePartials (landTransit s c) c d, m1.trans l1, (lessened_landTransit s c).trans (lessened_mergePartials ..), ?_⟩
  have team : teamOf (mergePartials (landTransit s c) c d) c = some t := by rw [teamOf, m2, l2]; exact ht
  unfold doRelease
  dsimp only
  rw [if_pos (by omega : 1 ≤ sc), if_pos h2, team]

theorem expires_of {k : ClassState} {f : InFlight} (h : timing f = true) (he : f.rem < 20 - 2 * k.clks.toNat) :
    (timing f && countEnds k f) = true := by
  simp [h, countEnds, clockCk, he]

theorem expires_of_not {k : ClassState} {f : InFlight} (h : timing f = true → ¬ f.rem < 20 - 2 * k.clks.toNat) :
    (timing f && countEnds k f) = false := by
  cases ht : timing f with
  | false => rfl
  | true =>
    rw [Bool.true_and, countEnds, clockCk, decide_eq_false_iff_not]
    exact h ht

/-- O33's clauses on countdowns, cancels and epochs. -/
theorem waitAndEpochClauses : WaitAndEpochClauses := by
  refine ⟨fun s c f pre post h g hl hpre hi he => ?_, fun s c f pre post h g hl hpre hi hs he => ?_, fun s c hn => ?_,
    fun s c id f h g hf hi hs hp ht => ?_, fun s c id f h g hf hi hs h2 ha ht => ?_,
    fun s c t0 i sc upto die h2 ht hi hn => ?_, published_iff, fun s c t0 i sc h2 ht hi hn => ?_⟩
  · refine exec_expiry_sleepns (hl ▸ find?_append_cons (fun w hw => ?_) ?_) hi
    · exact expires_of_not (hpre w hw)
    · exact expires_of (by simp [timing, hi]) he
  · refine exec_expiry_of_find (hl ▸ find?_append_cons (fun w hw => ?_) ?_) hi
    · exact expires_of_not (hpre w hw)
    · exact expires_of (by simp only [timing, hi]; rcases hs with hs | hs <;> rw [hs] <;> rfl) he
  · show execNanosecondWaitExpiry c s = _
    rw [execNanosecondWaitExpiry, List.find?_eq_none.2 fun w hw => by rw [expires_of_not (hn w hw)]; decide]
  · show execWaitCancelArrival c id s = _
    simp only [execWaitCancelArrival, hf, hi, hs, hp]
    rw [land_of_thawed f _ ht, landed, endRegion_of_ne (by simp [hi])]
    rfl
  · have R := lessened_doRelease s c g.scope.toNat (some (wordId s c f)) none
    have A := lessened_doAcquire (doRelease s c g.scope.toNat (some (wordId s c f)) none) c g.scope.toNat
    show execEpochRequest c id s = _
    have queue : queueOf (.phase h g) = some 2 :=
      (rfl : _ = if 2 ≤ g.scope.toNat then some 2 else none).trans (if_pos h2)
    simp only [execEpochRequest, hf, hi, hs, queue, ha]
    rw [land_of_thawed f _ ((R.trans A).thawed.2 ht), landed, endRegion_of_ne (by simp [hi])]
    rfl
  · obtain ⟨u, insts, L, eq⟩ := doRelease_eq upto die h2 ht
    have inst : instOf u t0.inst = some i := by rw [instOf, insts]; exact hi
    have node : nodeOf u t0.inst t0.node = nodeOf s t0.inst t0.node := by rw [nodeOf, nodeOf, inst, hi]
    have after : nodeOf (doRelease s c sc upto die) t0.inst t0.node
        = publishNode (nodeOf s t0.inst t0.node) (published c upto) := by
      rw [eq, nodeOf_modNode _ inst hn, node]
    dsimp only
    rw [after, publishNode_eq]
    have R := lessened_doRelease s c sc upto die
    exact ⟨rfl, fun w hw hp he => mem_stamped_of_not_picked hw hp he,
      fun pre w post hst hp first => hst ▸ mem_stamped_of_picked hp first, fun w hw => mem_stamped hw, R.mem, R.ctr⟩
  · dsimp only
    rw [doAcquire_eq h2 ht, nodeOf_modNode _ hi hn]

/-- Settles O33, requests at their home and waits each by the lemmas above. -/
theorem counterRequestsAndWaits : Obligations.CounterRequestsAndWaits := ⟨counterRequestClauses, waitAndEpochClauses⟩

end Sys2Proof.Machine
end

section
/-!
PROOFS for O45: what the repair record and the defects leave of a machine that powers up; what unsealing leaves at a warm reset.
-/

namespace Sys2Proof.Machine

/-! ## Cold start -/

theorem map_modify_of_same {α β : Type} (g : α → β) (f : α → α) (h : ∀ x, g (f x) = g x) (l : List α) (n : Nat) :
    (l.modify n f).map g = l.map g := by
  apply List.ext_getElem?
  intro i
  rw [List.getElem?_map, List.getElem?_map, List.getElem?_modify]
  split
  · cases l[i]? <;> simp [h]
  · simp

/-- What the repair record and the defects leave alone. -/
structure BootSame (s t : State) : Prop where
  frame : { t with cls := [], dies := [], disabled := [], spare := [] } = { s with cls := [], dies := [], disabled := [], spare := [] }
  fw : t.dies.map (·.fw) = s.dies.map (·.fw)
  disabled : ∀ c ∈ s.disabled, c ∈ t.disabled

theorem BootSame.refl (s : State) : BootSame s s := ⟨rfl, rfl, fun _ h => h⟩

theorem BootSame.trans {s t u : State} (h : BootSame s t) (g : BootSame t u) : BootSame s u :=
  ⟨g.frame.trans h.frame, g.fw.trans h.fw, fun c hc => g.disabled c (h.disabled c hc)⟩

theorem bootSame_foldl {α : Type} {f : State → α → State} (h : ∀ s a, BootSame s (f s a)) (l : List α) (s : State) :
    BootSame s (l.foldl f s) := by
  induction l generalizing s with
  | nil => exact .refl s
  | cons a l ih => exact (h s a).trans (ih _)

theorem bootSame_applyRepair (s : State) (e : RepairEntry) : BootSame s (applyRepair s e) := by
  cases e with
  | tower c d p => exact ⟨rfl, rfl, fun _ h => h⟩
  | classOff c d => exact ⟨rfl, rfl, fun _ h => List.mem_cons_of_mem _ h⟩
  | lane dir l p => exact ⟨rfl, rfl, fun _ h => h⟩
  | stairwell die r =>
    exact ⟨rfl, map_modify_of_same (fun d : Die => d.fw) (fun d => { d with wells := d.wells.modify r fun w => { w with state := 2 } })
      (fun _ => rfl) _ _, fun _ h => h⟩
  | bad => exact .refl s

theorem bootSame_bbRecord (s : State) (die part code : Nat) (cls unit : Byte) (tag detail : W64) :
    BootSame s (bbRecord s die part code cls unit tag detail) := by
  refine ⟨rfl, ?_, fun _ h => h⟩
  unfold bbRecord modDie
  exact map_modify_of_same _ _ (fun d => by split <;> rfl) _ _

theorem bootSame_applyDefect (es : List RepairEntry) (s : State) (x : Nat × Nat) : BootSame s (applyDefect es s x) := by
  unfold applyDefect
  split
  · exact .refl s
  · refine BootSame.trans ?_ (bootSame_bbRecord ..)
    exact ⟨rfl, rfl, fun _ h => List.mem_cons_of_mem _ h⟩

/-- A defect that the record does not name disables its class. -/
theorem disabled_applyDefect {es : List RepairEntry} {x : Nat × Nat} (h : namesDefect es x = false) (s : State) :
    x.1 ∈ (applyDefect es s x).disabled := by
  unfold applyDefect
  split
  case isTrue hd => simpa [h] using hd
  case isFalse => exact List.mem_cons_self

theorem disabled_foldl {es : List RepairEntry} {x : Nat × Nat} (h : namesDefect es x = false) {l : List (Nat × Nat)} (hx : x ∈ l)
    (s : State) : x.1 ∈ (l.foldl (applyDefect es) s).disabled := by
  induction l generalizing s with
  | nil => cases hx
  | cons y l ih =>
    rcases List.mem_cons.1 hx with rfl | hx
    · exact (bootSame_foldl (bootSame_applyDefect es) l _).disabled _ (disabled_applyDefect h s)
    · exact ih hx _

/-- The entries that a boot applies. -/
def bootEntries (b : BootInput) : List RepairEntry := if repairOk b then repairEntries b.repair else []

/-- The machine when record and defects have been applied (R86, steps 3 and 4). -/
def repairedBoot (s : State) (b : BootInput) : State :=
  b.defects.foldl (applyDefect (bootEntries b)) ((bootEntries b).foldl applyRepair (powerUp s b))

theorem bootSame_repairedBoot (s : State) (b : BootInput) : BootSame (powerUp s b) (repairedBoot s b) :=
  (bootSame_foldl bootSame_applyRepair _ _).trans (bootSame_foldl (bootSame_applyDefect _) _ _)

theorem exec_coldStart (b : BootInput) (s : State) : exec (.coldStart b) s = .next
    (if b.rootKeyOk = false then recovery (powerUp s b) 1
     else if (b.primaryOk || b.fallbackOk) = false then recovery (powerUp s b) 2
     else if b.certMatches = false then recovery (repairedBoot s b) 5
     else startFirmware (repairedBoot s b) b (repairOk b)) := by
  show execColdStart b s = _
  unfold execColdStart
  cases b.rootKeyOk <;> cases (b.primaryOk || b.fallbackOk) <;> cases b.certMatches <;> rfl

/-- Recovery mode: bit 16 and the step of BOOTSTAT (R88). -/
theorem recovery_bootstat (s : State) {n : Nat} (hn : n < 256) :
    (recovery s n).bootstat.getLsbD 16 = true ∧ (recovery s n).bootstat.toNat % 256 = n := by
  have val : (recovery s n).bootstat.toNat = 2 ^ 16 + (freeVal s).toNat % 256 * 256 + n := by
    show (BitVec.ofNat 17 _).toNat = _
    rw [BitVec.toNat_ofNat, Nat.mod_eq_of_lt (by omega)]
  constructor
  · rw [BitVec.getLsbD, val, Nat.testBit_eq_decide_div_mod_eq, decide_eq_true_eq]
    omega
  · omega

theorem powerUp_fw (s : State) (b : BootInput) : (powerUp s b).dies.map (·.fw) = List.replicate 2 { running := false } := rfl

/-- The processor of a die, where the processors are known. -/
theorem fw_of_map {s : State} {n : Nat} {f : FwState} (h : s.dies.map (·.fw) = List.replicate n f) {d : Nat} (hd : d < n) :
    d < s.dies.length ∧ (getDie s d).fw = f := by
  have length : s.dies.length = n := by simpa using congrArg List.length h
  have at_ := congrArg (·[d]?) h
  refine ⟨length ▸ hd, ?_⟩
  rw [getDie, List.getD_eq_getElem?_getD]
  simp only [List.getElem?_map, List.getElem?_replicate, hd, if_true] at at_
  obtain ⟨k, hk, hf⟩ := Option.map_eq_some_iff.1 at_
  rw [hk]
  exact hf

/-- No processor runs before the image starts. -/
theorem fw_repairedBoot (s : State) (b : BootInput) {d : Nat} (hd : d < 2) :
    d < (repairedBoot s b).dies.length ∧ (getDie (repairedBoot s b) d).fw = { running := false } :=
  fw_of_map ((bootSame_repairedBoot s b).fw.trans (powerUp_fw s b)) hd

theorem fw_startFirmware {s : State} (b : BootInput) (ok : Bool) {d : Nat} (hd : d < s.dies.length) :
    (getDie (startFirmware s b ok) d).fw
      = { (getDie s d).fw with image := ⟨imageWords b.image, b.imageSvn, b.imageDigest⟩, running := true } := by
  simp [getDie, startFirmware, List.getD_eq_getElem?_getD, hd]

theorem bootstat_startFirmware (s : State) (b : BootInput) (ok : Bool) : (startFirmware s b ok).bootstat.getLsbD 16 = false := by
  cases ok
  · exact (by decide : BitVec.getLsbD (0x3006 : BitVec 17) 16 = false)
  · exact (by decide : BitVec.getLsbD (6 : BitVec 17) 16 = false)

/-- A save area has a size that R271 allows (log 45). -/
theorem saveAreaSize_bounds (n : Nat) : 2 ^ 31 ≤ saveAreaSize n ∧ saveAreaSize n ≤ 2 ^ 35 := by
  unfold saveAreaSize; omega

theorem repairOk_nodup {b : BootInput} (h : ¬ (lanesOf (repairEntries b.repair)).Nodup) : repairOk b = false := by
  simp [repairOk, h]

/-- No partition exists after a power-up or a reset. -/
theorem getPart_replicate {s : State} (h : s.parts = State.reset.parts) (k : Nat) : (getPart s k).state = 0 := by
  rcases Nat.lt_or_ge k 17 with hk | hk
  · rw [getPart, h, ← getPart, getPart_reset hk]
  · rw [getPart, h, List.getD_eq_default _ _ (show 17 ≤ k from hk)]; rfl

/-! ## Warm reset -/

/-- What the unsealing of frames leaves alone; a byte of a frame without a key stays. -/
structure UnsealSame (s t : State) : Prop where
  frame : { t with cls := [], dies := [], mem := [], poison := [], tags := [] }
    = { s with cls := [], dies := [], mem := [], poison := [], tags := [] }
  cls : t.cls.map (fun k => { k with fetchBuf := [] }) = s.cls.map fun k => { k with fetchBuf := [] }
  dies : t.dies.map (fun d => { d with scan := [] }) = s.dies.map fun d => { d with scan := [] }
  wf : Memory.wf s.mem → Memory.wf t.mem
  bytes : Memory.wf s.mem → ∀ a, keyOf s a = none → readByte t a = readByte s a

theorem UnsealSame.keyOf {s t : State} (h : UnsealSame s t) (a : Nat) : keyOf t a = keyOf s a := by
  have ipts : t.ipts = s.ipts := (congrArg State.ipts h.frame :)
  have parts : t.parts = s.parts := (congrArg State.parts h.frame :)
  unfold Machine.keyOf iptEntry iptOf partArg getPart
  rw [ipts, parts]

theorem UnsealSame.refl (s : State) : UnsealSame s s := ⟨rfl, rfl, rfl, fun h => h, fun _ _ _ => rfl⟩

theorem UnsealSame.trans {s t u : State} (h : UnsealSame s t) (g : UnsealSame t u) : UnsealSame s u :=
  ⟨g.frame.trans h.frame, g.cls.trans h.cls, g.dies.trans h.dies, fun w => g.wf (h.wf w),
    fun w a ha => (g.bytes (h.wf w) a ((h.keyOf a).trans ha)).trans (h.bytes w a ha)⟩

theorem unsealSame_foldl {α : Type} {f : State → α → State} {l : List α} {s : State}
    (h : ∀ t, ∀ a ∈ l, UnsealSame s t → UnsealSame t (f t a)) {t : State} (ht : UnsealSame s t) : UnsealSame s (l.foldl f t) := by
  induction l generalizing t with
  | nil => exact ht
  | cons a l ih =>
    exact ih (fun u b hb => h u b (List.mem_cons_of_mem _ hb)) (ht.trans (h t a List.mem_cons_self ht))

/-- Frames are 64 KiB: all bytes of one have its key. -/
theorem frameIdx_page {a b : Nat} (h : a / 65536 = b / 65536) : frameIdx a = frameIdx b := by
  have table : a / 2 ^ 36 = b / 2 ^ 36 := by omega
  have frame : a % 2 ^ 36 / 65536 = b % 2 ^ 36 / 65536 := by omega
  have port : (a - 2 ^ 44) / 2 ^ 42 = (b - 2 ^ 44) / 2 ^ 42 := by omega
  have far : (a - 2 ^ 44) % 2 ^ 42 / 65536 = (b - 2 ^ 44) % 2 ^ 42 / 65536 := by omega
  have low : a < 2 ^ 39 ↔ b < 2 ^ 39 := by omega
  have hbm : a % 2 ^ 36 < hbmFrames * 65536 ↔ b % 2 ^ 36 < hbmFrames * 65536 := by unfold hbmFrames; omega
  have host : (2 ^ 44 ≤ a ∧ a < 2 ^ 44 + 6 * 2 ^ 42) ↔ (2 ^ 44 ≤ b ∧ b < 2 ^ 44 + 6 * 2 ^ 42) := by omega
  simp only [frameIdx, table, frame, port, far, low, hbm, host]

theorem keyOf_page {s : State} {a b : Nat} (h : a / 65536 = b / 65536) : keyOf s a = keyOf s b := by
  rw [keyOf, keyOf, frameIdx_page h]

theorem framePa_aligned (t f : Nat) : framePa t f % 65536 = 0 := by
  unfold framePa
  split
  · omega
  · split <;> omega

/-- A sector of a frame with a key is written as stored. -/
def unsealSector (u : Nat) (v : Nat) (s : State) : State :=
  if poisonAt (writePhysNat s (64 * u) 64 v) (.phys u) = some true then clearPoison (writePhysNat s (64 * u) 64 v) (.phys u)
  else writePhysNat s (64 * u) 64 v

theorem unsealSame_writePhysNat {s : State} {a v : Nat} (ha : a % 64 = 0) (hk : keyOf s a ≠ none) :
    UnsealSame s (writePhysNat s a 64 v) := by
  refine ⟨rfl, ?_, ?_, fun w => wf_writePhysNat a 64 v w, fun w b hb => ?_⟩
  · rw [writePhysNat, writePhys]
    dsimp only
    rw [List.map_map]
    exact List.map_congr_left fun k _ => by simp only [Function.comp]; split <;> rfl
  · rw [writePhysNat, writePhys]
    dsimp only
    rw [List.map_map]; rfl
  · rw [writePhysNat, readByte_writePhys a b _ w, length_leBytes, if_neg]
    rintro ⟨h1, h2⟩
    exact hk ((keyOf_page (by omega)).trans hb)

theorem unsealSame_unsealSector {s : State} {u v : Nat} (hk : keyOf s (64 * u) ≠ none) : UnsealSame s (unsealSector u v s) := by
  have W := unsealSame_writePhysNat (v := v) (by omega : 64 * u % 64 = 0) hk
  unfold unsealSector
  split
  · exact W.trans ⟨rfl, rfl, rfl, fun h => h, fun _ _ _ => rfl⟩
  · exact W

theorem unsealSame_unsealFrame (s : State) (t f : Nat) : UnsealSame s (unsealFrame s t f) := by
  unfold unsealFrame
  dsimp only
  split
  · exact .refl s
  case isFalse hk =>
    have aligned := framePa_aligned t f
    refine unsealSame_foldl (fun u j hj hu => ?_) (.refl s)
    rw [List.mem_range] at hj
    refine unsealSame_unsealSector (v := (storedSector s (framePa t f / 64 + j)).toNat) fun h => hk ?_
    rw [hu.keyOf, keyOf_page (b := framePa t f) (by omega)] at h
    rw [h]; rfl

theorem unsealSame_unsealPart (s : State) (k : Nat) : UnsealSame s (unsealPart s k) :=
  unsealSame_foldl (fun u _ _ _ => unsealSame_unsealFrame u _ _) (.refl s)

/-- The machine whose partitions have lost their keys. -/
def unsealAll (s : State) : State := (List.range 17).foldl unsealPart s

theorem unsealSame_unsealAll (s : State) : UnsealSame s (unsealAll s) :=
  unsealSame_foldl (fun u _ _ _ => unsealSame_unsealPart u _) (.refl s)

/-- What warm reset makes of the machine whose partitions have lost their keys (log 27). -/
def warm (s : State) : State :=
  { State.reset with
    tick := s.tick + 1, ticks8 := s.ticks8, born := s.born, boot := s.boot, bootstat := s.bootstat, disabled := s.disabled
    cls := (s.cls.zipIdx).map fun e => warmClass e.2 e.1
    dies := s.dies.map warmDie
    mem := s.mem, poison := s.poison.filter fun e => warmUnit e.1
    nextInst := s.nextInst, handovers := s.handovers, cabling := s.cabling, farPort := s.farPort, klink := s.klink
    spare := s.spare, degraded := s.degraded, out := s.out
    meas := (s.meas.set 5 (Config.partitionDigest [])).set 7 0 }

theorem exec_warmReset (s : State) : exec .warmReset s = .next (warm (unsealAll s)) := rfl

theorem getCls_warm {s : State} {c : Nat} (hc : c < s.cls.length) : getCls (warm s) c = warmClass c (getCls s c) := by
  simp [getCls, warm, List.getD_eq_getElem?_getD, hc]

theorem getDie_warm {s : State} {d : Nat} (hd : d < s.dies.length) : getDie (warm s) d = warmDie (getDie s d) := by
  simp [getDie, warm, List.getD_eq_getElem?_getD, hd]

/-- A value of a class that the buffers of fetched lines are no part of. -/
theorem getCls_of_unsealSame {α : Type} {s t : State} (h : UnsealSame s t) (g : ClassState → α)
    (hg : ∀ k, g { k with fetchBuf := [] } = g k) (c : Nat) : g (getCls t c) = g (getCls s c) := by
  have at_ := congrArg (Option.map g) (congrArg (·[c]?) h.cls)
  simp only [List.getElem?_map, Option.map_map, Function.comp_def, hg] at at_
  rw [getCls, getCls, List.getD_eq_getElem?_getD, List.getD_eq_getElem?_getD, ← Option.getD_map g, ← Option.getD_map g, at_]

theorem getDie_of_unsealSame {α : Type} {s t : State} (h : UnsealSame s t) (g : Die → α)
    (hg : ∀ k, g { k with scan := [] } = g k) (d : Nat) : g (getDie t d) = g (getDie s d) := by
  have at_ := congrArg (Option.map g) (congrArg (·[d]?) h.dies)
  simp only [List.getElem?_map, Option.map_map, Function.comp_def, hg] at at_
  rw [getDie, getDie, List.getD_eq_getElem?_getD, List.getD_eq_getElem?_getD, ← Option.getD_map g, ← Option.getD_map g, at_]

/-! ## The statement -/

/-- A boot that comes to its image (R86, step 6). -/
theorem exec_coldStart_runs {b : BootInput} (s : State) (hr : b.rootKeyOk = true) (hi : b.primaryOk = true ∨ b.fallbackOk = true)
    (hc : b.certMatches = true) : exec (.coldStart b) s = .next (startFirmware (repairedBoot s b) b (repairOk b)) := by
  have image : (b.primaryOk || b.fallbackOk) = true := by simpa using hi
  rw [exec_coldStart, hr, image, hc]; rfl

/-- A cold start never leaves a processor running in recovery mode (R88). -/
theorem coldStart_recovery (b : BootInput) (s : State) : ∃ t, exec (.coldStart b) s = .next t
    ∧ (b.rootKeyOk = false → t.bootstat.getLsbD 16 = true ∧ t.bootstat.toNat % 256 = 1)
    ∧ (b.rootKeyOk = true → b.primaryOk = false → b.fallbackOk = false →
        t.bootstat.getLsbD 16 = true ∧ t.bootstat.toNat % 256 = 2)
    ∧ (b.rootKeyOk = true → b.primaryOk = true → b.certMatches = false →
        t.bootstat.getLsbD 16 = true ∧ t.bootstat.toNat % 256 = 5)
    ∧ (t.bootstat.getLsbD 16 = true → ∀ d, d < 2 → (getDie t d).fw.running = false) := by
  have idle : ∀ d, d < 2 → (getDie (powerUp s b) d).fw.running = false := fun d hd => by
    rw [(fw_of_map (powerUp_fw s b) hd).2]
  have idle' : ∀ d, d < 2 → (getDie (repairedBoot s b) d).fw.running = false := fun d hd => by
    rw [(fw_repairedBoot s b hd).2]
  refine ⟨_, exec_coldStart b s, ?_⟩
  cases hr : b.rootKeyOk with
  | false => exact ⟨fun _ => recovery_bootstat _ (by decide), nofun, nofun, fun _ => idle⟩
  | true =>
    refine ⟨nofun, ?_⟩
    rw [if_neg Bool.noConfusion]
    cases hi : (b.primaryOk || b.fallbackOk) with
    | false =>
      have none_ : b.primaryOk = false ∧ b.fallbackOk = false := by simpa using hi
      exact ⟨fun _ _ _ => recovery_bootstat _ (by decide), 
        fun _ h _ => absurd (none_.1.symm.trans h) Bool.false_ne_true, fun _ => idle⟩
    | true =>
      rw [if_neg Bool.noConfusion]
      refine ⟨fun _ h1 h2 => absurd hi (by rw [h1, h2]; decide), ?_⟩
      cases hm : b.certMatches with
      | false => exact ⟨fun _ _ _ => recovery_bootstat _ (by decide), fun _ => idle'⟩
      | true =>
        refine ⟨nofun, fun h => ?_⟩
        rw [if_neg Bool.noConfusion, bootstat_startFirmware] at h
        cases h

/-- Settles O45: the boot that succeeds, the boots that do not, the warm reset. -/
theorem coldStartAndWarmReset : Obligations.ColdStartAndWarmReset := by
  unfold Obligations.ColdStartAndWarmReset
  refine ⟨fun b s hr hi hc => ⟨_, exec_coldStart_runs s hr hi hc, ?_⟩, coldStart_recovery, fun s => ⟨_, exec_warmReset s, ?_⟩⟩
  · have B := bootSame_repairedBoot s b
    generalize hu : repairedBoot s b = u at *
    have fw : ∀ d, d < 2 → d < u.dies.length ∧ (getDie u d).fw = { running := false } := fun d hd => hu ▸ fw_repairedBoot s b hd
    have boot : u.boot.saveBytes = saveAreaSize b.saveBytes := (congrArg (fun v => v.boot.saveBytes) B.frame :)
    refine ⟨fun d hd => ?_, rfl, rfl, rfl, rfl, rfl, rfl, ?_, ?_, getPart_replicate (congrArg State.parts B.frame :),
      (congrArg State.grant B.frame :), (congrArg State.capped B.frame :), (congrArg State.insts B.frame :),
      (congrArg State.teams B.frame :), (congrArg State.nextInst B.frame :), fun x hx hn => ?_, fun ok => ?_, fun dup => ?_⟩
    · rw [fw_startFirmware b _ (fw d hd).1, (fw d hd).2]
      exact ⟨rfl, rfl, rfl⟩
    · exact (saveAreaSize_bounds b.saveBytes).1.trans_eq boot.symm
    · exact boot.trans_le (saveAreaSize_bounds b.saveBytes).2
    · rw [← hu]
      exact disabled_foldl (es := bootEntries b) hn hx _
    · rw [ok]; rfl
    · have refused := repairOk_nodup dup
      rw [refused]
      exact ⟨rfl, rfl⟩
  · have U := unsealSame_unsealAll s
    generalize unsealAll s = u at *
    have classes : u.cls.length = s.cls.length := by simpa using congrArg List.length U.cls
    have dies : u.dies.length = s.dies.length := by simpa using congrArg List.length U.dies
    have born : u.born = s.born := (congrArg State.born U.frame :)
    have ticks : u.ticks8 = s.ticks8 := (congrArg State.ticks8 U.frame :)
    refine ⟨fun c => ?_, rfl, rfl, fun d hd => ?_, fun c hc => ?_, fun w a ha => U.bytes w a ha,
      (congrArg State.nextInst U.frame :), rfl, getPart_replicate rfl⟩
    · show (Config.lncBase (40 * u.born + c) &&& ~~~7#64) + BitVec.ofNat 64 (8 * u.ticks8) = lnc s c
      rw [born, ticks]; rfl
    · rw [getDie_warm (dies ▸ hd)]
      exact ⟨getDie_of_unsealSame U (·.bb) (fun _ => rfl) d, getDie_of_unsealSame U (·.seq) (fun _ => rfl) d,
        getDie_of_unsealSame U (·.head) (fun _ => rfl) d⟩
    · rw [getCls_warm (classes ▸ hc)]
      exact ⟨getCls_of_unsealSame U (·.remap) (fun _ => rfl) c, rfl, rfl⟩

end Sys2Proof.Machine
end

section
/-!
PROOFS for O52: a machine on which the second decision on a drain, a save, ends the team it is taken on.
-/

namespace Sys2Proof.Machine

/-- A drain that has outrun its bound is decided again where the partition is not paired (R118). -/
theorem exec_drainBoundExpiry {s : State} {n : Nat} {tm : Team} (found : s.teams.find? (fun t => t.id = n) = some tm)
    (draining : tm.state = .draining) (late : tm.bound ≤ 100 * sinceNs s tm.decidedAt)
    (alone : (getPart s (partOfInst s tm.inst)).paired = false) :
    exec (.drainBoundExpiry n) s = .next (actOn s tm (fits s tm (rows34 s tm))) := by
  change execDrainBoundExpiry n s = _
  simp [execDrainBoundExpiry, found, draining, Nat.not_lt.2 late, decidesFor, sendDecision, alone]

/-- A team whose drain has no time left. -/
def drainedTeam : Team := { awaitingTeam with state := .draining }

/-- The team runs on class 0 of a partition that is not paired, with a transfer held whose counter holds integrity poison. -/
def poisonedDrain : State :=
  { poisonedSave with parts := State.reset.parts.set 1 { state := 1 }, teams := [drainedTeam] }

/-- Neither drained, for its image fits, nor discarded, for its node is not idempotent: it is saved. -/
theorem poisonedDrain_rows : recIdemp (snapOf poisonedDrain drainedTeam.inst drainedTeam.node).record = false
    ∧ (imagePlace poisonedDrain drainedTeam).isSome = true ∧ fits poisonedDrain drainedTeam (rows34 poisonedDrain drainedTeam) = .save := by
  decide +kernel

/-- The held transfer lands as the save begins; its add consumes the poison, which fails all that the team belongs to and takes
the team away (R107, R131). -/
theorem poisonedDrain_loses_team : (actOn poisonedDrain drainedTeam .save).teams = [] := by decide +kernel

/-- Refutes O52: where a drain has outrun its bound and rows 3 and 4 come to a save, the statement has the team there afterwards,
with its image. A held transfer that lands as the save begins can make the team fail: its counted add meets a counter with
integrity poison, which the statement's state may hold (the model's own `setPoison` marks counters with media poison only). -/
theorem not_preemptionAndResume : ¬ Obligations.PreemptionAndResume := by
  unfold Obligations.PreemptionAndResume
  rintro ⟨-, -, -, hbound, -⟩
  have found : poisonedDrain.teams.find? (fun t => t.id = 5) = some drainedTeam := by decide +kernel
  have alone : (getPart poisonedDrain (partOfInst poisonedDrain drainedTeam.inst)).paired = false := by decide +kernel
  obtain ⟨idemp, fit, save⟩ := poisonedDrain_rows
  have place : imagePlace poisonedDrain drainedTeam ≠ none := Option.isSome_iff_ne_none.1 fit
  obtain ⟨t, ht, hdecided⟩ := (hbound 5 poisonedDrain drainedTeam found rfl alone place).2 (Nat.zero_le _)
  rw [exec_drainBoundExpiry found rfl (Nat.zero_le _) alone, save] at ht
  obtain rfl := Host.Outcome.next.inj ht
  rw [if_neg (by rw [idemp]; exact fun h => Bool.false_ne_true h.1)] at hdecided
  obtain ⟨-, -, u, hu, -⟩ := hdecided
  rw [poisonedDrain_loses_team] at hu
  exact absurd hu List.not_mem_nil

end Sys2Proof.Machine
end

section
/-!
PROOFS for O44: the SPDM responder's messages (R89, R90).
-/

namespace Sys2Proof.Machine

/-- A message that asks for agreed algorithms is answered or gets ERROR. -/
theorem answer_eq (ok : Bool) (s : State) (code : Nat) (data : List Byte) :
    answer ok s code data = .next (if ok then Sends s (.doe code data) else Sends s (.doe 0x7F [])) := rfl

theorem agreed_of_lt {s : State} (h : s.spdm.stage < 3) : agreed s = false := decide_eq_false (Nat.not_le.2 h)
theorem agreed_of_le {s : State} (h : 3 ≤ s.spdm.stage) : agreed s = true := decide_eq_true h

/-- Before algorithms are agreed every message that needs them gets ERROR. -/
theorem spdm_before_agreed {s : State} (h : s.spdm.stage < 3) :
    exec .getDigests s = .next (Sends s (.doe 0x7F []))
      ∧ (∀ a b c, exec (.getCertificate a b c) s = .next (Sends s (.doe 0x7F [])))
      ∧ (∀ a b, exec (.challenge a b) s = .next (Sends s (.doe 0x7F [])))
      ∧ (∀ a b c, exec (.getMeasurements a b c) s = .next (Sends s (.doe 0x7F [])))
      ∧ (∀ a b, exec (.keyExchange a b) s = .next (Sends s (.doe 0x7F []))) := by
  have no := agreed_of_lt h
  refine ⟨?_, fun a b c => ?_, fun a b => ?_, fun a b c => ?_, fun a b => ?_⟩
  · change execGetDigests s = _
    rw [execGetDigests, no, answer_eq]; rfl
  · change execGetCertificate a b c s = _
    rw [execGetCertificate, no, answer_eq]; rfl
  · change execChallenge a b s = _
    rw [execChallenge, no, answer_eq]; rfl
  · change execGetMeasurements a b c s = _
    rw [execGetMeasurements, no, answer_eq]; rfl
  · change execKeyExchange a b s = _
    rw [execKeyExchange, no]; rfl

/-- GET_CERTIFICATE of an agreed connection: slot 0 alone. -/
theorem exec_getCertificate {s : State} (h : 3 ≤ s.spdm.stage) (slot off n : Nat) : exec (.getCertificate slot off n) s
    = .next (if slot = 0 then Sends s (.doe 0x02 ((Config.certChain.drop off).take n)) else Sends s (.doe 0x7F [])) := by
  change execGetCertificate slot off n s = _
  rw [execGetCertificate, agreed_of_le h, answer_eq]
  simp only [Bool.true_and, beq_iff_eq]

/-- CHALLENGE of an agreed connection: slot 0 alone. -/
theorem exec_challenge {s : State} (h : 3 ≤ s.spdm.stage) (slot : Nat) (nonce : BitVec 256) : exec (.challenge slot nonce) s
    = .next (if slot = 0 then Sends s (.doe 0x03 (digestBytes (sha256 Config.certChain)
        ++ Config.signature (digestBytes nonce ++ digestBytes (sha256 Config.certChain)))) else Sends s (.doe 0x7F [])) := by
  change execChallenge slot nonce s = _
  rw [execChallenge, agreed_of_le h, answer_eq]
  simp only [Bool.true_and, beq_iff_eq]

theorem measuredValues_one {s : State} {j : Nat} (h1 : 1 ≤ j) (h8 : j ≤ 8) :
    measuredValues s j = digestBytes (s.meas.getD (j - 1) 0) := by
  rw [measuredValues, if_neg (by omega), if_neg (by omega)]

/-- GET_MEASUREMENTS of an agreed connection: indices 0 to 8 and 0xFF. -/
theorem exec_getMeasurements {s : State} (h : 3 ≤ s.spdm.stage) (j : Nat) (signed : Bool) (nonce : BitVec 256) :
    exec (.getMeasurements j signed nonce) s = .next (if j ≤ 8 ∨ j = 0xFF then
      Sends s (.doe 0x60 (if signed then measuredValues s j ++ Config.signature (digestBytes nonce ++ measuredValues s j)
        else measuredValues s j)) else Sends s (.doe 0x7F [])) := by
  change execGetMeasurements j signed nonce s = _
  rw [execGetMeasurements, agreed_of_le h, answer_eq]
  simp only [Bool.true_and, Bool.or_eq_true, decide_eq_true_eq, beq_iff_eq]

theorem exec_finish (n : Nat) (mac : BitVec 256) (s : State) : exec (.finish n mac) s
    = .next (if s.spdm.session = some n ∧ s.spdm.established = false ∧ mac = Config.sessionMac n then
        Sends { s with spdm := { s.spdm with established := true } } (.doe 0x65 []) else Sends s (.doe 0x7F [])) := by
  change execFinish n mac s = _
  simp only [execFinish, Bool.not_eq_true', ← apply_ite]
  rfl

theorem exec_heartbeat (n : Nat) (s : State) : exec (.heartbeat n) s
    = .next (if s.spdm.session = some n ∧ s.spdm.established = true then Sends s (.doe 0x68 []) else Sends s (.doe 0x7F [])) := by
  change execHeartbeat n s = _
  rw [execHeartbeat, answer_eq]
  simp only [Bool.and_eq_true, beq_iff_eq]

theorem exec_endSession (n : Nat) (s : State) : exec (.endSession n) s
    = .next (if s.spdm.session = some n ∧ s.spdm.established = true then
        Sends { s with spdm := { s.spdm with session := none, established := false } } (.doe 0x6C []) else Sends s (.doe 0x7F [])) := by
  change execEndSession n s = _
  simp only [execEndSession, ← apply_ite]
  rfl

/-- Settles O44: each message by its equation. -/
theorem spdmMessages : Obligations.SpdmMessages := by
  unfold Obligations.SpdmMessages
  refine ⟨fun _ => rfl, fun s => ?_, fun a b c d s => ?_, fun s h => spdm_before_agreed h, fun s h => ?_, fun n s hs he => ?_,
    fun n s hs he => ?_, fun n s h => ?_⟩
  · change execGetCapabilities s = _
    simp only [execGetCapabilities, ← apply_ite]
    rfl
  · change execNegotiateAlgorithms a b c d s = _
    simp only [execNegotiateAlgorithms, Bool.and_eq_true, decide_eq_true_eq, and_assoc, ← apply_ite]
    rfl
  · refine ⟨?_, fun off n => exec_getCertificate h 0 off n, fun nonce => exec_challenge h 0 nonce, fun slot off n x hslot => ?_,
      fun j nonce h1 h8 => ?_, fun j x nonce h8 hff => ?_, fun pub hn => ?_⟩
    · change execGetDigests s = _
      rw [execGetDigests, agreed_of_le h, answer_eq]; rfl
    · rw [exec_getCertificate h, exec_challenge h, if_neg hslot, if_neg hslot]
      exact ⟨rfl, rfl⟩
    · simp [exec_getMeasurements h, h8, measuredValues_one h1 h8]
    · rw [exec_getMeasurements h, if_neg (by omega)]
    · change execKeyExchange 0 pub s = _
      rw [execKeyExchange, agreed_of_le h, hn]; rfl
  · refine ⟨?_, fun mac hmac => ?_⟩
    · rw [exec_finish, if_pos ⟨hs, he, rfl⟩]
    · rw [exec_finish, if_neg fun x => hmac x.2.2]
  · rw [exec_heartbeat, exec_endSession, if_pos ⟨hs, he⟩, if_pos ⟨hs, he⟩]
    exact ⟨rfl, rfl⟩
  · rw [exec_heartbeat, exec_endSession, if_neg h, if_neg h]
    exact ⟨rfl, rfl⟩

end Sys2Proof.Machine
end

section
/-!
PROOFS for O38 and O40: what a write to physical memory leaves of the machine, and numbers as their bytes.
-/

namespace Sys2Proof.Machine

theorem getDie_map {α : Type} (g : Die → α) {f : Die → Die} {s t : State} (ht : t.dies = s.dies.map f) (h : ∀ x, g (f x) = g x)
    (d : Nat) : g (getDie t d) = g (getDie s d) := by
  simp only [getDie, ht, List.getD_eq_getElem?_getD, List.getElem?_map]
  cases s.dies[d]? with
  | none => rfl
  | some x => exact h x

theorem getCls_map {α : Type} (g : ClassState → α) {f : ClassState → ClassState} {s t : State} (ht : t.cls = s.cls.map f)
    (h : ∀ x, g (f x) = g x) (c : Nat) : g (getCls t c) = g (getCls s c) := by
  simp only [getCls, ht, List.getD_eq_getElem?_getD, List.getElem?_map]
  cases s.cls[c]? with
  | none => rfl
  | some x => exact h x

/-- A write to physical memory makes scan results and fetch line buffers stale, and nothing else (R338, R350). -/
theorem memOnly_writePhys (s : State) (a : Nat) (bs : List Byte) : MemOnly s (writePhys s a bs) := by
  refine ⟨rfl, fun d => ?_,
    fun c => ?_⟩
  · exact getDie_map (fun x => { x with scan := [] }) (s := s) (t := writePhys s a bs) rfl (fun _ => rfl) d
  · refine getCls_map (fun x => { x with fetchBuf := [] }) (s := s) (t := writePhys s a bs) rfl (fun k => ?_) c
    split <;> rfl

theorem MemOnly.refl (s : State) : MemOnly s s := ⟨rfl, fun _ => rfl, fun _ => rfl⟩

theorem leNat_lt (bs : List Byte) : leNat bs < 256 ^ bs.length := by
  induction bs with
  | nil => decide
  | cons b bs ih =>
    have := b.isLt
    rw [leNat, List.length_cons, Nat.pow_succ]
    omega

/-- The bytes from the n-th on. -/
theorem leNat_drop (n : Nat) (bs : List Byte) : leNat bs / 256 ^ n = leNat (bs.drop n) := by
  induction n generalizing bs with
  | zero => simp
  | succ n ih =>
    cases bs with
    | nil => simp [leNat]
    | cons b bs =>
      have e : leNat (b :: bs) / 256 = leNat bs := by
        have := b.isLt
        rw [leNat]; omega
      rw [List.drop_succ_cons, ← ih, Nat.pow_succ', ← Nat.div_div_eq_div_mul, e]

/-- The first n bytes. -/
theorem leNat_take (n : Nat) (bs : List Byte) : leNat bs % 256 ^ n = leNat (bs.take n) := by
  induction n generalizing bs with
  | zero => simp [leNat, Nat.mod_one]
  | succ n ih =>
    cases bs with
    | nil => simp [leNat]
    | cons b bs =>
      have e : leNat (b :: bs) / 256 = leNat bs := by
        have := b.isLt
        rw [leNat]; omega
      have m : leNat (b :: bs) % 256 = b.toNat := by
        have := b.isLt
        rw [leNat]; omega
      rw [Nat.pow_succ', Nat.mod_mul, e, m, ih, List.take_succ_cons, leNat]

end Sys2Proof.Machine
end

section
/-!
PROOFS for O38: the words of the timetable processors (R91, R92, R253, R444, R458 to R464).
-/

namespace Sys2Proof.Machine

/-! ## A word on a timetable processor -/

/-- A word with an effect at once. -/
theorem fwRuns_of_done {i : Instr} {body : State → Res} {s s' : State} {d : Nat} (R : FwReady s d)
    (he : exec i s = runWord i body s) (hb : body s = .done s') : FwRuns i s d s' := by
  rw [FwRuns, he, runWord_fw _ R.1, fwIssue, R.2.2, hb]
  rfl

/-- A word that waits. -/
theorem fwWaits_of_stall {i : Instr} {body : State → Res} {s : State} {d : Nat} (R : FwReady s d)
    (he : exec i s = runWord i body s) (hb : body s = .stall) : Waits i s := by
  rw [Waits, he, runWord_fw _ R.1, fwIssue, R.2.2, hb]
  rfl

/-- A word that has begun what it waits for. -/
theorem exec_of_stop {i : Instr} {body : State → Res} {s s' : State} {d : Nat} (R : FwReady s d)
    (he : exec i s = runWord i body s) (hb : body s = .stop s') : exec i s = .next s' := by
  rw [he, runWord_fw _ R.1, fwIssue, R.2.2, hb]
  rfl

/-- A word of firmware frames alone. -/
theorem exec_fwOnly {i : Instr} {body : Nat → State → Res} {s : State} {d : Nat} (R : FwReady s d) (he : exec i s = fwOnly i body s) :
    exec i s = runWord i (body d) s := by
  rw [he, fwOnly, R.1]

theorem FwReady.sget {s : State} {d : Nat} (R : FwReady s d) (n : BitVec 5) : sget s n = regFw s d n := sget_fw R.1 n

theorem FwReady.sset {s : State} {d : Nat} (R : FwReady s d) (n : BitVec 5) (v : W64) : sset s n v = withFwS s d n v := sset_fw R.1 n v

theorem withFwS_focus {s : State} {d : Nat} (h : s.focus = .fw d) (n : BitVec 5) (v : W64) : (withFwS s d n v).focus = .fw d := by
  unfold withFwS
  split <;> exact h

/-! ## Physical loads and stores (R460) -/

theorem physOk_iff (s : State) (x n : Nat) : physOk s x n = true ↔ PhysBacked s x n := by
  simp [physOk, PhysBacked, and_assoc]

/-- Sign extension of a number of n bytes, in the two ways to say it. -/
theorem extended_eq (sx : Bool) {n v : Nat} (hn : 1 ≤ n) (hv : v < 256 ^ n) :
    (if sx then sext64 (8 * n) v else BitVec.ofNat 64 v) = extended sx n v := by
  have hp : (256 : Nat) ^ n = 2 ^ (8 * n) := by rw [Nat.pow_mul]
  cases sx with
  | false => simp [extended, BitVec.ofInt_natCast]
  | true =>
    have half : 2 ^ (8 * n) = 2 * 2 ^ (8 * n - 1) := by rw [← Nat.pow_succ']; congr 1; omega
    have small : (BitVec.ofNat (8 * n) v).toNat = v := by rw [BitVec.toNat_ofNat, ← hp, Nat.mod_eq_of_lt hv]
    rw [if_pos rfl, sext64, BitVec.signExtend, BitVec.toInt_eq_toNat_cond, small, extended]
    by_cases h : 2 ^ (8 * n - 1) ≤ v
    · rw [if_neg (by omega), if_pos ⟨rfl, h⟩]
      push_cast
      rfl
    · rw [if_pos (by omega), if_neg fun x => h x.2]

/-- Aligned bytes lie in one sector. -/
theorem within_sector {x : Nat} {z : BitVec 2} (h : x % 2 ^ z.toNat = 0) : x % 64 + 2 ^ z.toNat ≤ 64 := by
  have := z.isLt
  generalize z.toNat = n at *
  interval_cases n <;> simp at h ⊢ <;> omega

/-- A frame without a key reads as it stands. -/
theorem storedNat_plain {s : State} {x n : Nat} (wf : Memory.wf s.mem) (ht : tablePlace s x = none)
    (hk : keyOf s (64 * (x / 64)) = none) (hn : x % 64 + n ≤ 64) :
    storedNat s x n = leNat ((List.range n).map fun j => readByte s (x + j)) := by
  have plain : (storedSector s (x / 64)).toNat = leNat ((List.range 64).map fun j => readByte s (64 * (x / 64) + j)) := by
    have lt := leNat_lt ((List.range 64).map fun j => readByte s (64 * (x / 64) + j))
    rw [List.length_map, List.length_range, show (256 : Nat) = 2 ^ 8 from rfl, ← Nat.pow_mul, show 8 * 64 = 512 from rfl] at lt
    simp only [storedSector, sealOf, hk, Option.map_none, readNat, readBytes_eq _ _ wf, BitVec.toNat_ofNat]
    exact Nat.mod_eq_of_lt lt
  have split : (((List.range 64).map fun j => readByte s (64 * (x / 64) + j)).drop (x % 64)).take n
      = (List.range n).map fun j => readByte s (x + j) := by
    apply List.ext_getElem
    · simp; omega
    · intro j h1 h2
      simp only [List.getElem_take, List.getElem_drop, List.getElem_map, List.getElem_range]
      congr 1
      omega
  simp only [storedNat, ht]
  rw [plain, ← split, ← leNat_take, ← leNat_drop, Nat.pow_mul, Nat.pow_mul]

/-- A table lies within its stack (R207). -/
theorem tablePlace_entry {s : State} {x b j k : Nat} (hb : b < 8) (hj : j < tableLen s b) (hk : k < 16)
    (hx : x = tableBase b + 16 * j + k) : tablePlace s x = some (b, true, j, k) := by
  have len : tableLen s b ≤ hbmFrames + 2 ^ 26 := by
    unfold tableLen
    split
    · exact Nat.add_le_add_left (Nat.min_le_left _ _) _
    · exact Nat.le_add_right _ _
  have frame := Nat.mod_lt (Config.tableFrame b) (show 0 < hbmFrames - 16641 by decide)
  unfold hbmFrames at len frame
  have base : tableBase b = b * 2 ^ 36 + (1 + Config.tableFrame b % (786432 - 16641)) * 65536 := rfl
  have stack : x / 2 ^ 36 = b := by omega
  unfold tablePlace
  simp only [stack]
  rw [if_neg (by omega), if_pos (by omega)]
  simp only [Option.some.injEq, Prod.mk.injEq, true_and]
  omega

/-- The low bytes of a number, read one by one. -/
theorem leNat_map_byte (n v : Nat) : leNat ((List.range n).map fun k => BitVec.ofNat 8 (v / 256 ^ k)) = v % 256 ^ n := by
  rw [← leBytes_eq_map, leNat_leBytes]

/-- Bytes of a table as stored. -/
theorem storedNat_table {s : State} {x n : Nat} {p : Nat × Bool × Nat × Nat} (h : tablePlace s x = some p) :
    storedNat s x n = leNat ((List.range n).map fun k => ((tablePlace s (x + k)).map (tableByte s)).getD 0) := by
  rw [storedNat, h]

/-- The first eight bytes of an entry of a table as firmware reads them (R207, R208). -/
theorem storedNat_entry {s : State} {b j : Nat} (hb : b < 8) (hj : j < tableLen s b) :
    storedNat s (tableBase b + 16 * j) 8 = entryNat (shownEntry s b j) % 2 ^ 64 := by
  have bytes : ((List.range 8).map fun k => ((tablePlace s (tableBase b + 16 * j + k)).map (tableByte s)).getD 0)
      = (List.range 8).map fun k => BitVec.ofNat 8 (entryNat (shownEntry s b j) / 256 ^ k) := by
    apply List.map_congr_left
    intro k hk
    have hk := List.mem_range.mp hk
    rw [tablePlace_entry hb hj (show k < 16 by omega) rfl, Option.map_some, Option.getD_some, tableByte, if_pos rfl]
  have first : tablePlace s (tableBase b + 16 * j) = some (b, true, j, 0) :=
    tablePlace_entry hb hj (by decide) (Nat.add_zero _).symm
  rw [storedNat_table first, bytes]
  exact leNat_map_byte 8 _

theorem ofNat_add_mul (a b : Nat) : BitVec.ofNat 64 (a + b * 2 ^ 64) = BitVec.ofNat 64 a := by
  apply BitVec.eq_of_toNat_eq
  rw [BitVec.toNat_ofNat, Nat.add_mul_mod_self_right, BitVec.toNat_ofNat]

/-- The low and the high eight bytes of an entry (R208). -/
theorem entryNat_eq (e : IptEntry) : entryNat e = (e.vpn % 2 ^ 40 * 2 ^ 24 + e.part % 32 * 2 ^ 19 + e.v.toNat * 2 ^ 18
    + e.sa.toNat * 2 ^ 17 + e.mig.toNat * 2 ^ 16 + e.shd.toNat * 2 ^ 15)
    + (e.next % 2 ^ 32 + e.shadow % 2 ^ 32 * 2 ^ 32) * 2 ^ 64 := by
  have bit : ∀ (p : Bool) (n : Nat), (if p = true then 2 ^ n else 0) = p.toNat * 2 ^ n := fun p n => by cases p <;> simp
  have high : e.shadow % 2 ^ 32 * 2 ^ 96 = e.shadow % 2 ^ 32 * 2 ^ 32 * 2 ^ 64 := by rw [Nat.mul_assoc, ← Nat.pow_add]
  simp only [entryNat, bit]
  rw [high, Nat.add_mul]
  simp only [Nat.add_assoc]

/-- PLD (R460). -/
theorem fwRuns_pld {h : Hdr} {f : FSM} {s : State} {d : Nat} (R : FwReady s d)
    (ok : PhysBacked s ((regFw s d f.a).toNat + f.off.toNat) (2 ^ f.sz.toNat)) :
    FwRuns (.pld h f) s d (withFwS s d f.d (if f.sx
      then sext64 (8 * 2 ^ f.sz.toNat) (storedNat s ((regFw s d f.a).toNat + f.off.toNat) (2 ^ f.sz.toNat))
      else BitVec.ofNat 64 (storedNat s ((regFw s d f.a).toNat + f.off.toNat) (2 ^ f.sz.toNat)))) := by
  refine fwRuns_of_done R (exec_fwOnly R rfl) ?_
  simp only [physAddr, physBytes, R.sget, R.sset, (physOk_iff _ _ _).2 ok]
  rfl

/-- PLD of an address that is not aligned or not backed (R460). -/
theorem fwRuns_pld_bad {h : Hdr} {f : FSM} {s : State} {d : Nat} (R : FwReady s d)
    (bad : ¬ PhysBacked s ((regFw s d f.a).toNat + f.off.toNat) (2 ^ f.sz.toNat)) :
    FwRuns (.pld h f) s d (withFwS (withErr s d) d f.d (BitVec.allOnes 64)) := by
  have no := Bool.eq_false_iff.2 fun x => bad ((physOk_iff _ _ _).1 x)
  refine fwRuns_of_done R (exec_fwOnly R rfl) ?_
  simp only [physAddr, physBytes, R.sget, no]
  exact congrArg Res.done (sset_fw (s := withErr s d) R.1 _ _)

/-- PLD of the first eight bytes of an entry (R207, R208, R460). -/
theorem fwRuns_pld_entry {h : Hdr} {f : FSM} {s : State} {d b j : Nat} (R : FwReady s d) (hb : b < 8) (hj : j < tableLen s b)
    (hx : (regFw s d f.a).toNat + f.off.toNat = tableBase b + 16 * j) (hz : f.sz = 3)
    (ok : PhysBacked s ((regFw s d f.a).toNat + f.off.toNat) (2 ^ f.sz.toNat)) :
    FwRuns (.pld h f) s d (withFwS s d f.d (BitVec.ofNat 64 (entryNat (shownEntry s b j)))) := by
  have run := fwRuns_pld (h := h) R ok
  have z : 2 ^ f.sz.toNat = 8 := by rw [hz]; rfl
  rw [z, hx, storedNat_entry hb hj] at run
  have value : (if f.sx then sext64 (8 * 8) (entryNat (shownEntry s b j) % 2 ^ 64) else BitVec.ofNat 64 (entryNat (shownEntry s b j) % 2 ^ 64))
      = BitVec.ofNat 64 (entryNat (shownEntry s b j)) := by
    have whole : BitVec.ofNat 64 (entryNat (shownEntry s b j) % 2 ^ 64) = BitVec.ofNat 64 (entryNat (shownEntry s b j)) :=
      BitVec.eq_of_toNat_eq (by simp only [BitVec.toNat_ofNat, Nat.mod_mod])
    split
    · exact (BitVec.signExtend_eq _).trans whole
    · exact whole
  rwa [value] at run

/-- PST to a frame without a key (R460). -/
theorem storeNat_plain {s : State} {x n v : Nat} (ht : tablePlace s x = none) (hk : keyOf s x = none) :
    storeNat s x n v = writePhys s x (leBytes n v) := by
  simp only [storeNat, ht, hk]
  rfl

theorem byte_eq_extract {v : W64} {j : Nat} : BitVec.ofNat 8 (v.toNat / 256 ^ j) = v.extractLsb' (8 * j) 8 := by
  apply BitVec.eq_of_toNat_eq
  rw [BitVec.toNat_ofNat, BitVec.extractLsb'_toNat, Nat.shiftRight_eq_div_pow, Nat.pow_mul]

/-- PST (R233, R460), once its address is found good and it is not the handover memory that is named. -/
theorem pst_effect {h : Hdr} {f : FSM} {s : State} {d : Nat} (R : FwReady s d)
    (ok : PhysBacked s ((regFw s d f.a).toNat + f.off.toNat) (2 ^ f.sz.toNat))
    (ht : tablePlace s ((regFw s d f.a).toNat + f.off.toNat) = none) (hk : keyOf s ((regFw s d f.a).toNat + f.off.toNat) = none)
    (hu : s.update.started = false) (ha : amoOpen s ((regFw s d f.a).toNat + f.off.toNat) (2 ^ f.sz.toNat) = false) :
    FwRuns (.pst h f) s d (writePhys s ((regFw s d f.a).toNat + f.off.toNat) (leBytes (2 ^ f.sz.toNat) (regFw s d f.d).toNat)) := by
  refine fwRuns_of_done R (exec_fwOnly R rfl) ?_
  simp only [physAddr, physBytes, R.sget, (physOk_iff _ _ _).2 ok, hu, ha, ← storeNat_plain ht hk]
  rfl

theorem pst_bytes {s : State} (x : Nat) (v : W64) (z : BitVec 2) (wf : Memory.wf s.mem) :
    (∀ j, j < 2 ^ z.toNat → readByte (writePhys s x (leBytes (2 ^ z.toNat) v.toNat)) (x + j) = v.extractLsb' (8 * j) 8)
      ∧ ∀ a, ¬ (x ≤ a ∧ a < x + 2 ^ z.toNat) → readByte (writePhys s x (leBytes (2 ^ z.toNat) v.toNat)) a = readByte s a := by
  refine ⟨fun j hj => ?_, fun a ha => ?_⟩
  · rw [readByte_writePhys _ _ _ wf, length_leBytes, if_pos ⟨by omega, by omega⟩, leBytes_eq_map, Nat.add_sub_cancel_left]
    simp [List.getD_eq_getElem?_getD, hj, byte_eq_extract]
  · rw [readByte_writePhys _ _ _ wf, length_leBytes, if_neg ha]

/-! ## Heartbeat and events (R92, R459, R461) -/

/-- The heartbeat word of a die's processor is its LNC. -/
def beaten (s : State) (d : Nat) : State := modFw s d fun f => { f with beat := lnc s (20 * d) }

theorem fwRuns_hbeat (h : Hdr) {s : State} {d : Nat} (R : FwReady s d) : FwRuns (.hbeat h) s d
    (if s.update.started && !overdue s then updateDone (beaten s d) else beaten s d) :=
  fwRuns_of_done R (exec_fwOnly R rfl) rfl

theorem overdue_of_le {s : State} (hu : s.update.started = true) (h : s.update.transferAt + 1250000 ≤ s.ticks8) : overdue s = true := by
  rw [overdue, hu, decide_eq_true h]; rfl

theorem overdue_of_lt {s : State} (h : s.ticks8 < s.update.transferAt + 1250000) : overdue s = false := by
  rw [overdue, decide_eq_false (Nat.not_le.2 h), Bool.and_false]

theorem getDie_of_map {s t : State} {f : Die → Die} (ht : t.dies = s.dies.map f) {d : Nat} (hd : d < s.dies.length) :
    getDie t d = f (getDie s d) := by
  simp [getDie, ht, List.getD_eq_getElem?_getD, hd]

/-- A field of the processors that the heartbeat does not touch. -/
theorem fw_beaten {α : Type} (g : FwState → α) (h : ∀ (f : FwState) (b : W64), g { f with beat := b } = g f) (s : State) (d b : Nat) :
    g (getDie (beaten s d) b).fw = g (getDie s b).fw :=
  getDie_congr_of_modify (fun x => g x.fw) (s := s) (t := beaten s d) rfl (fun _ => h _ _) b

/-- The first heartbeat of a new image completes the update (R92). -/
theorem updateDone_beaten {s : State} {d : Nat} (hd : d < s.dies.length) :
    (getDie (updateDone (beaten s d)) d).fw.beat = lnc s (20 * d)
      ∧ (∀ b, b < s.dies.length → (getDie (updateDone (beaten s d)) b).fw.previous = none
          ∧ (getDie (updateDone (beaten s d)) b).fw.standby = (getDie s b).fw.previous.map FwCtx.image)
      ∧ (updateDone (beaten s d)).meas
          = (s.meas.set 1 (getDie s 0).fw.image.digest).set 2 ((getDie s 0).fw.image.svn.setWidth 256) := by
  have len : (beaten s d).dies.length = s.dies.length := List.length_modify ..
  have die : ∀ {b}, b < s.dies.length → getDie (updateDone (beaten s d)) b = _ := fun {b} hb =>
    getDie_of_map (s := beaten s d) rfl (len.symm ▸ hb)
  refine ⟨?_, fun b hb => ?_, ?_⟩
  · rw [die hd]
    show (getDie (beaten s d) d).fw.beat = _
    rw [beaten, modFw, getDie_modDie _ hd]
  · rw [die hb]
    refine ⟨rfl, ?_⟩
    rw [← fw_beaten FwState.previous (fun _ _ => rfl) s d b]
  · rw [← fw_beaten FwState.image (fun _ _ => rfl) s d 0]
    rfl

theorem toNat_append_eq {m n : Nat} (x : BitVec m) (y : BitVec n) : (x ++ y).toNat = x.toNat * 2 ^ n + y.toNat := by
  rw [BitVec.toNat_append, ← Nat.shiftLeft_add_eq_or_of_lt y.isLt, Nat.shiftLeft_eq]

theorem eventWord_eq (e : FwEvent) : eventWord e
    = BitVec.ofNat 64 (e.code.toNat * 2 ^ 56 + e.cls.toNat * 2 ^ 48 + e.part.toNat * 2 ^ 40 + e.id % 2 ^ 40) := by
  apply BitVec.eq_of_toNat_eq
  have h1 := e.code.isLt
  have h2 := e.cls.isLt
  have h3 := e.part.isLt
  simp only [eventWord, toNat_append_eq, BitVec.toNat_ofNat]
  omega

/-- EVPOP: the oldest event goes into four registers (R461). -/
theorem fwRuns_evpop {h : Hdr} {f : FSR} {s : State} {d : Nat} {e : FwEvent} {es : List FwEvent} (R : FwReady s d)
    (hq : (getDie s d).evq = e :: es) (hu : s.update.started = false) : FwRuns (.evpop h f) s d
      (withFwS (withFwS (withFwS (withFwS (modDie s d fun x => { x with evq := es, openEv := e :: x.openEv }) d f.d
        (BitVec.ofNat 64 (e.code.toNat * 2 ^ 56 + e.cls.toNat * 2 ^ 48 + e.part.toNat * 2 ^ 40 + e.id % 2 ^ 40)))
        d (f.d + 1) e.tinfo) d (f.d + 2) e.tcause) d (f.d + 3) e.inst) := by
  refine fwRuns_of_done R (exec_fwOnly R rfl) ?_
  have at0 : (modDie s d fun x => { x with evq := es, openEv := e :: x.openEv }).focus = .fw d := R.1
  simp only [hq, hu, ← eventWord_eq]
  rw [sset_fw at0, sset_fw (withFwS_focus at0 _ _), sset_fw (withFwS_focus (withFwS_focus at0 _ _) _ _),
    sset_fw (withFwS_focus (withFwS_focus (withFwS_focus at0 _ _) _ _) _ _)]
  rfl

/-- The event is closed (R461). -/
def eventClosed (s : State) (d : Nat) (e : FwEvent) : State := modDie s d fun x => { x with openEv := x.openEv.erase e }

/-- EVDONE of an open event that its class still waits for: the action (R461). -/
theorem fwRuns_evdone {h : Hdr} {f : FSR} {s : State} {d : Nat} {e : FwEvent} (R : FwReady s d)
    (he : (getDie s d).openEv.find? (fun x => x.id = (regFw s d f.a).toNat) = some e) {act : Nat} (ha : (regFw s d f.b).toNat = act)
    (h5 : act ≤ 5) (hw : waitsEvent (eventClosed s d e) d e = true) :
    FwRuns (.evdone h f) s d (eventAction (eventClosed s d e) e act) := by
  refine fwRuns_of_done R (exec_fwOnly R rfl) ?_
  simp only [R.sget, he, ha, if_neg (Nat.not_lt.2 h5)]
  exact congrArg Res.done (if_pos hw)

/-- EVDONE of an open event that its class waits for no more closes it alone (R461). -/
theorem fwRuns_evdone_closed {h : Hdr} {f : FSR} {s : State} {d : Nat} {e : FwEvent} (R : FwReady s d)
    (he : (getDie s d).openEv.find? (fun x => x.id = (regFw s d f.a).toNat) = some e) (h5 : (regFw s d f.b).toNat ≤ 5)
    (hw : waitsEvent (eventClosed s d e) d e = false) : FwRuns (.evdone h f) s d (eventClosed s d e) := by
  refine fwRuns_of_done R (exec_fwOnly R rfl) ?_
  simp only [R.sget, he, if_neg (Nat.not_lt.2 h5)]
  exact congrArg Res.done (if_neg (Bool.eq_false_iff.1 hw))

theorem fwRuns_evdone_refused {h : Hdr} {f : FSR} {s : State} {d : Nat} {e : FwEvent} (R : FwReady s d)
    (he : (getDie s d).openEv.find? (fun x => x.id = (regFw s d f.a).toNat) = some e) (ha : 5 < (regFw s d f.b).toNat) :
    FwRuns (.evdone h f) s d (withErr s d) := by
  refine fwRuns_of_done R (exec_fwOnly R rfl) ?_
  simp only [R.sget, he, if_pos ha]
  rfl

theorem fwRuns_evdone_unknown {h : Hdr} {f : FSR} {s : State} {d : Nat} (R : FwReady s d)
    (he : (getDie s d).openEv.find? (fun x => x.id = (regFw s d f.a).toNat) = none) : FwRuns (.evdone h f) s d (withErr s d) := by
  refine fwRuns_of_done R (exec_fwOnly R rfl) ?_
  simp only [R.sget, he]
  rfl

/-- Actions 0 and 1 return the class from its trap (R461). -/
theorem eventAction_return {s : State} {e : FwEvent} {act : Nat} (held : (getCls s e.cls.toNat).hold = some e.id) (ha : act ≤ 1) :
    eventAction s e act = returnTrap s e.cls.toNat (act == 1) := by
  interval_cases act <;> simp [eventAction, held]

/-- Action 4 drops the halt record that came with the event. -/
theorem eventAction_unhalt {s : State} {e : FwEvent} (halt : (getCls s e.cls.toNat).halt.ev = e.id) :
    eventAction s e 4 = modCls s e.cls.toNat fun k => { k with halt := { k.halt with valid := false } } :=
  modCls_congr (by simp only [halt, if_true])

/-! ## Registers (R462, R463) -/

theorem fwRuns_mbxrd (h : Hdr) (f : FSR) {s : State} {d : Nat} (R : FwReady s d) : FwRuns (.mbxrd h f) s d
    (withFwS (if 9 < (regFw s d f.a).toNat then withErr s d else s) d f.d (mailboxReg s (regFw s d f.a).toNat)) := by
  refine fwRuns_of_done R (exec_fwOnly R rfl) ?_
  simp only [R.sget]
  refine congrArg Res.done (sset_fw ?_ _ _)
  split <;> exact R.1

theorem mailboxReg_eq (s : State) (n : Nat) : mailboxReg s n
    = if n = 0 then s.mbcmd else if n ≤ 8 then s.mbarg.getD (n - 1) 0 else if n = 9 then BitVec.ofNat 64 s.mbstat.toNat else 0 := by
  rw [mailboxReg, BitVec.ofNat_toNat]

/-- MBXWR: the status, an argument, or no register (R463). -/
theorem fwRuns_mbxwr (h : Hdr) (f : FSR) {s : State} {d : Nat} (R : FwReady s d) : FwRuns (.mbxwr h f) s d
    (if (regFw s d f.a).toNat = 9 then mailboxDone s ((regFw s d f.b).extractLsb' 8 8).toNat
     else if 1 ≤ (regFw s d f.a).toNat ∧ (regFw s d f.a).toNat ≤ 8
       then { s with mbarg := s.mbarg.set ((regFw s d f.a).toNat - 1) (regFw s d f.b) }
     else withErr s d) := by
  refine fwRuns_of_done R (exec_fwOnly R rfl) ?_
  simp only [R.sget, ← apply_ite Res.done]
  rfl

theorem fwid_eq {s : State} {d : Nat} (hd : d < 2) : fwid s d = BitVec.ofNat 64
    ((getDie s d).fw.err.toNat * 8 + s.pairPeer.isSome.toNat * 4 + (!s.update.started).toNat * 2 + d) := by
  apply BitVec.eq_of_toNat_eq
  have h1 := (getDie s d).fw.err.toNat_lt
  have h2 := s.pairPeer.isSome.toNat_lt
  have h3 := (!s.update.started).toNat_lt
  simp only [fwid, BitVec.toNat_setWidth, toNat_append_eq, BitVec.toNat_ofBool, BitVec.toNat_ofNat]
  omega

/-- What FWCSR reads. -/
def fwcsrValue (s : State) (d : Nat) (x : BitVec 8) : W64 :=
  match x.toNat with
  | 0 => fwid s d
  | 1 => BitVec.ofNat 64 (getDie s d).evq.length
  | _ => BitVec.ofNat 64 handoverBase

theorem fwcsrValue_eq {s : State} {d : Nat} {x : BitVec 8} (hd : d < 2) : fwcsrValue s d x
    = if x = 0 then BitVec.ofNat 64
        ((getDie s d).fw.err.toNat * 8 + s.pairPeer.isSome.toNat * 4 + (!s.update.started).toNat * 2 + d)
      else if x = 1 then BitVec.ofNat 64 (getDie s d).evq.length else BitVec.ofNat 64 handoverBase := by
  by_cases h0 : x = 0
  · subst h0
    exact fwid_eq hd
  · by_cases h1 : x = 1
    · subst h1
      rfl
    · rw [if_neg h0, if_neg h1]
      have n0 : x.toNat ≠ 0 := fun h => h0 (BitVec.eq_of_toNat_eq h)
      have n1 : x.toNat ≠ 1 := fun h => h1 (BitVec.eq_of_toNat_eq h)
      unfold fwcsrValue
      split
      next h => exact absurd h n0
      next h => exact absurd h n1
      next => rfl

/-- FWCSR (R463). -/
theorem fwRuns_fwcsr (h : Hdr) (f : FSR) {s : State} {d : Nat} (R : FwReady s d) :
    FwRuns (.fwcsr h f) s d (if f.a ≠ 0 ∧ f.csr = 0 ∧ (regFw s d f.a).getLsbD 3 = true
      then modFw (withFwS s d f.d (fwcsrValue s d f.csr)) d fun x => { x with err := false }
      else withFwS s d f.d (fwcsrValue s d f.csr)) := by
  refine fwRuns_of_done R (exec_fwOnly R rfl) ?_
  simp only [R.sget, R.sset]
  rfl

/-! ## Shoot-down (R464) -/

theorem fwRuns_shoot_nobody {h : Hdr} {f : FSR} {s : State} {d : Nat} (R : FwReady s d) (hs : (getDie s d).fw.shoot = none)
    (hc : partClasses s ((regFw s d f.b).toNat % 32) = []) : FwRuns (.shoot h f) s d (withFwS s d f.d 0) := by
  refine fwRuns_of_done R (exec_fwOnly R rfl) ?_
  simp only [R.sget, R.sset, hs, hc]
  rfl

theorem exec_shoot {h : Hdr} {f : FSR} {s : State} {d : Nat} (R : FwReady s d) (hs : (getDie s d).fw.shoot = none)
    (hc : partClasses s ((regFw s d f.b).toNat % 32) ≠ []) : exec (.shoot h f) s
      = .next (modFw s d fun x => { x with shoot := some ((regFw s d f.a).toNat / 2 ^ 16 % 2 ^ 40,
          partClasses s ((regFw s d f.b).toNat % 32), (partClasses s ((regFw s d f.b).toNat % 32)).length) }) := by
  refine exec_of_stop R (exec_fwOnly R rfl) ?_
  simp only [R.sget, hs, List.isEmpty_eq_false_iff.2 hc]
  rfl

theorem fwRuns_shoot_acked {h : Hdr} {f : FSR} {s : State} {d vpn n : Nat} (R : FwReady s d)
    (hs : (getDie s d).fw.shoot = some (vpn, [], n)) :
    FwRuns (.shoot h f) s d (withFwS (modFw s d fun x => { x with shoot := none }) d f.d (BitVec.ofNat 64 n)) := by
  refine fwRuns_of_done R (exec_fwOnly R rfl) ?_
  simp only [hs]
  exact congrArg Res.done (sset_fw (s := modFw s d _) R.1 _ _)

theorem shoot_waits {h : Hdr} {f : FSR} {s : State} {d vpn c n : Nat} {l : List Nat} (R : FwReady s d)
    (hs : (getDie s d).fw.shoot = some (vpn, c :: l, n)) : Waits (.shoot h f) s := by
  refine fwWaits_of_stall R (exec_fwOnly R rfl) ?_
  simp only [hs]

/-! ## Waits (R253, R444, R458) -/

/-- The handle of a word of a timetable processor is any counter's. -/
theorem handleOk_fw {s : State} {d n : Nat} (R : FwReady s d) (hn : n < 2 ^ 25) : handleOk s n = true := by
  simp only [handleOk, R.1, decide_eq_true hn]

/-- What a request to a synchronisation engine does on a timetable processor. -/
theorem sendCtr_fw {s : State} {d : Nat} {h : W64} (R : FwReady s d) (hn : h.toNat < 2 ^ 25) (ops : List W64) (r : Res) :
    sendCtr s h false ops r = r := by
  simp only [sendCtr, handleOk_fw R hn, R.1]
  rfl

/-- A wait of a timetable processor that begins. -/
theorem fwWait_begins {s : State} {d : Nat} {f : FCN} (R : FwReady s d) (hw : (getDie s d).fw.wait = none) (u : Option Nat) (hit : Nat → W64) :
    fwWait s f u hit = if waitMet s (regFw s d f.h).toNat (regFw s d f.v).toNat (f.imm.getLsbD 21)
      then .done (withFwS s d f.d (hit (ctrGet s (regFw s d f.h).toNat)))
      else if u = some (nowNs s) then .done (withFwS s d f.d 1)
      else .stop (modFw s d fun x => { x with wait := some ⟨(regFw s d f.h).toNat, (regFw s d f.v).toNat, f.imm.getLsbD 21, none⟩
                                              sleepUntil := u }) := by
  simp only [fwWait, R.1, hw, R.sget, R.sset]
  rfl

/-- A processor whose wait is over. -/
def unwaiting (s : State) (d : Nat) : State := modFw s d fun x => { x with wait := none, sleepUntil := none }

/-- A wait of a timetable processor that stands at the counter's engine. -/
theorem fwWait_stands {s : State} {d : Nat} {f : FCN} {w : FwWait} (R : FwReady s d) (hw : (getDie s d).fw.wait = some w) (u : Option Nat)
    (hit : Nat → W64) : fwWait s f u hit = match w.met with
      | some x => .done (withFwS (unwaiting s d) d f.d (hit x))
      | none => match (getDie s d).fw.sleepUntil with
        | some t => if t ≤ nowNs s then .done (withFwS (unwaiting s d) d f.d 1) else .stall
        | none => .stall := by
  simp only [fwWait, R.1, hw]
  have set : ∀ v, sset (unwaiting s d) f.d v = withFwS (unwaiting s d) d f.d v := fun v =>
    sset_fw (s := unwaiting s d) R.1 _ _
  simp only [← set]
  rfl

/-- CWAIT on a timetable processor, by what its wait does. -/
theorem cwait_body {h : Hdr} {f : FCN} {s : State} {d : Nat} (R : FwReady s d) (hn : (regFw s d f.h).toNat < 2 ^ 25) :
    ∃ body, exec (.cwait h f) s = runWord (.cwait h f) body s
      ∧ body s = fwWait s f none fun x => BitVec.ofNat 64 (if f.imm.getLsbD 21 then x % 2 ^ 40 else x) :=
  ⟨_, rfl, by rw [sendCtr_fw R (by rwa [R.sget])]; rfl⟩

/-- CWAIT.T on a timetable processor. -/
theorem cwaitT_body {h : Hdr} {f : FCN} {s : State} {d : Nat} (R : FwReady s d) (hn : (regFw s d f.h).toNat < 2 ^ 25) :
    ∃ body, exec (.cwaitT h f) s = runWord (.cwaitT h f) body s
      ∧ body s = fwWait s f (some (nowNs s + (regFw s d f.t).toNat)) fun _ => 0 :=
  ⟨_, rfl, by rw [sendCtr_fw R (by rwa [R.sget]), R.sget]⟩

/-! ## The statement -/

/-- Settles O38: each word by its lemma. -/
theorem firmwareWords : Obligations.FirmwareWords := by
  unfold Obligations.FirmwareWords
  refine ⟨fun h f s d R wf => ⟨fun ok ht hk => ?_, fun bad => fwRuns_pld_bad R bad, fun b j hb hj hx hz ok => ?_,
      fun ok hu hlo hhi => ?_, fun ok hu ha => ?_, fun ok ht hk hu ha => ?_, fun bad => ?_⟩,
    fun h s d R hu => ?_, fun h s d R hu hlate => ?_, fun h s d R hu hin => ?_, fun h f s d e es R hq => ⟨fun hu => fwRuns_evpop R hq hu, fun hu => ?_⟩,
    fun h f s d R hq => ?_, fun h f s d e R he => ⟨fun ha => fwRuns_evdone_refused R he ha, fun ha hw => ?_, fun hw hh ha => ?_, fun hw ha => ?_,
      fun hw ha hh => ?_, fun hw ha => ?_⟩,
    fun h f s d R he => fwRuns_evdone_unknown R he, fun h f s d R => ⟨?_, fun h1 h8 => ?_, fun h9 => ?_, fun hn => ?_⟩,
    fun h f s d R hd => fwcsrValue_eq hd ▸ fwRuns_fwcsr h f R,
    fun h f s d R => ⟨fun hs hc => fwRuns_shoot_nobody R hs hc, fun hs hc => exec_shoot R hs hc, fun vpn n hs => fwRuns_shoot_acked R hs,
      fun vpn c l n hs => shoot_waits R hs⟩,
    fun h f s d R hn hw => ⟨fun met => ?_, fun unmet => ?_⟩, fun h f s d w R hn hw => ⟨fun x hx => ?_, fun t hm hs => ?_, fun hm hs => ?_⟩⟩
  · have run := fwRuns_pld (h := h) R ok
    have lt := leNat_lt ((List.range (2 ^ f.sz.toNat)).map fun j => readByte s ((regFw s d f.a).toNat + f.off.toNat + j))
    rw [List.length_map, List.length_range] at lt
    rwa [storedNat_plain wf ht hk (within_sector ok.1), extended_eq f.sx (Nat.one_le_two_pow) lt] at run
  · have run := fwRuns_pld_entry (h := h) R hb hj hx hz ok
    rwa [entryNat_eq, ofNat_add_mul] at run
  · refine fwRuns_of_done R (exec_fwOnly R rfl) ?_
    simp [physAddr, physBytes, R.sget, (physOk_iff _ _ _).2 ok, hu, hlo, hhi]
  · refine fwWaits_of_stall R (exec_fwOnly R rfl) ?_
    simp [physAddr, physBytes, R.sget, (physOk_iff _ _ _).2 ok, hu, ha]
  · exact ⟨_, pst_effect R ok ht hk hu ha, memOnly_writePhys _ _ _, pst_bytes _ _ _ wf⟩
  · refine fwRuns_of_done R (exec_fwOnly R rfl) ?_
    have no := Bool.eq_false_iff.2 fun x => bad ((physOk_iff _ _ _).1 x)
    simp only [physAddr, physBytes, R.sget, no]
    rfl
  · have run := fwRuns_hbeat h R
    rw [hu] at run
    exact run
  · have run := fwRuns_hbeat h R
    rw [overdue_of_le hu hlate, Bool.not_true, Bool.and_false] at run
    exact run
  · have run := fwRuns_hbeat h R
    rw [hu, overdue_of_lt hin] at run
    exact ⟨_, run, rfl, rfl, updateDone_beaten R.2.1⟩
  · refine fwWaits_of_stall R (exec_fwOnly R rfl) ?_
    simp only [hq, hu, if_true]
  · refine fwWaits_of_stall R (exec_fwOnly R rfl) ?_
    simp only [hq]
  · exact fwRuns_evdone_closed R he ha hw
  · have run := fwRuns_evdone (h := h) R he rfl (by omega) hw
    rwa [eventAction_return (s := eventClosed s d e) hh ha] at run
  · exact fwRuns_evdone R he ha (by omega) hw
  · have run := fwRuns_evdone (h := h) R he ha (by omega) hw
    rwa [eventAction_unhalt (s := eventClosed s d e) hh] at run
  · exact fwRuns_evdone R he ha (by omega) hw
  · simpa only [mailboxReg_eq] using fwRuns_mbxrd h f R
  · have run := fwRuns_mbxwr h f R
    rwa [if_neg (by omega), if_pos ⟨h1, h8⟩] at run
  · have run := fwRuns_mbxwr h f R
    rw [if_pos h9, BitVec.extractLsb'_toNat, Nat.shiftRight_eq_div_pow] at run
    exact run
  · have run := fwRuns_mbxwr h f R
    rwa [if_neg (by omega), if_neg (by omega)] at run
  · obtain ⟨body, he, hb⟩ := cwait_body (h := h) R hn
    obtain ⟨body', he', hb'⟩ := cwaitT_body (h := h) R hn
    rw [fwWait_begins R hw, if_pos met] at hb hb'
    exact ⟨fwRuns_of_done R he hb, fwRuns_of_done R he' hb'⟩
  · obtain ⟨body, he, hb⟩ := cwait_body (h := h) R hn
    obtain ⟨body', he', hb'⟩ := cwaitT_body (h := h) R hn
    rw [fwWait_begins R hw, if_neg (by rw [unmet]; exact Bool.false_ne_true)] at hb hb'
    rw [if_neg (by simp)] at hb
    refine ⟨exec_of_stop R he hb, fun h0 => ?_, fun h0 => ?_⟩
    · rw [h0, Nat.add_zero, if_pos rfl] at hb'
      exact fwRuns_of_done R he' hb'
    · rw [if_neg fun x => h0 (by simpa using x), nowNs, Nat.mul_comm] at hb'
      exact exec_of_stop R he' hb'
  · obtain ⟨body, he, hb⟩ := cwait_body (h := h) R hn
    obtain ⟨body', he', hb'⟩ := cwaitT_body (h := h) R hn
    rw [fwWait_stands R hw, hx] at hb hb'
    exact ⟨fwRuns_of_done R he hb, fwRuns_of_done R he' hb'⟩
  · obtain ⟨body', he', hb'⟩ := cwaitT_body (h := h) R hn
    rw [fwWait_stands R hw, hm, hs] at hb'
    simp only [nowNs, Nat.mul_comm 8] at hb'
    refine ⟨fun le => ?_, fun lt => ?_⟩
    · rw [if_pos le] at hb'
      exact fwRuns_of_done R he' hb'
    · rw [if_neg (Nat.not_le.2 lt)] at hb'
      exact fwWaits_of_stall R he' hb'
  · obtain ⟨body, he, hb⟩ := cwait_body (h := h) R hn
    rw [fwWait_stands R hw, hm, hs] at hb
    exact fwWaits_of_stall R he hb

end Sys2Proof.Machine
end

section
/-!
PROOFS for O51: a machine on which the number of the next team is that of a saved team.
-/

namespace Sys2Proof.Machine

theorem exec_dispenseScan (s : State) : exec .dispenseScan s = .next { scan 40 s with requests := passedOver (scan 40 s) } := rfl

/-- A node's record (R103): P0, one team of one class of any die, one iteration. -/
def oneClassRecord : List Byte :=
  leBytes 8 (2 * 2 ^ 51 + 2 ^ 43 + 2 ^ 40) ++ List.replicate 32 0 ++ leBytes 4 1 ++ List.replicate 84 0

/-- A running instance of partition 1 whose one node is ready. -/
def readyInstance : Instance :=
  { num := 1, part := 1, queue := 0, entry := [], gid := 0, excl := false, snaps := [⟨oneClassRecord, [], [], []⟩], nctr := 0
    state := .running, nodes := [{ state := .ready }], pceil := 0 }

/-- A team that was saved on class 0, of P3, of an instance that is not there. -/
def savedStray : Team := { id := 5, inst := 9, node := 0, ord := 0, classes := [0], state := .saved, own := 3 }

/-- Partition 1 has class 0; the next team gets the saved team's number. -/
def sharedNumber : State :=
  { State.reset with parts := State.reset.parts.set 1 { state := 1, args := [1, 1, 0, 0, 0, 0, 0, 0] }
                     insts := [readyInstance], teams := [savedStray], nextTeam := 5 }

/-- The one item of the scan. -/
def readyItem : Item := ⟨0, 1, 1, 0, 0, none⟩

/-- The item goes to class 0, and the scan ends there. -/
theorem sharedNumber_places : firstPlace sharedNumber (items sharedNumber) = some (readyItem, [0])
    ∧ firstPlace (placeAt sharedNumber readyItem [0]) (items (placeAt sharedNumber readyItem [0])) = none := by decide +kernel

/-- Publishing the priorities (R364) finds the saved team by the number of the new one, and writes its own P3 on the class. -/
theorem sharedNumber_own : (getCls (scan 40 sharedNumber) 0).own = 3 := by decide +kernel

/-- Refutes O51: the statement asks the class of a new iteration to hold the own class of its node. Where a team that was saved
holds the number that the new team gets, and was saved on that class, what is published there is the saved team's: the statement's
state may hold two teams of one number, which the model's own numbering never makes. -/
theorem not_dispenseAndDispatch : ¬ Obligations.DispenseAndDispatch := by
  unfold Obligations.DispenseAndDispatch
  rintro ⟨-, -, placed⟩
  obtain ⟨first, last⟩ := sharedNumber_places
  obtain ⟨t, -, ht, -, -, -, -, -, -, -, -, -, -, members⟩ :=
    placed sharedNumber readyItem [0] readyInstance first rfl rfl last (by decide) (by decide +kernel) rfl
  obtain ⟨-, -, -, -, -, -, -, -, -, -, -, -, -, -, -, -, -, own, -⟩ := members 0 0 rfl
  rw [exec_dispenseScan] at ht
  obtain rfl := Host.Outcome.next.inj ht
  have published : (getCls { scan 40 sharedNumber with requests := passedOver (scan 40 sharedNumber) } 0).own = 3 := sharedNumber_own
  rw [published] at own
  exact absurd own (by decide +kernel)

end Sys2Proof.Machine
end

section
/-!
PROOFS for O39: a machine that holds a counter beyond 64 bits, which no signal of the node that retires names.
-/

namespace Sys2Proof.Machine

/-- A running instance of two nodes without edges: the first swaps its anchors, the second waits. -/
def swappingInstance : Instance :=
  { num := 1, part := 1, queue := 0, entry := [], gid := 0, excl := false
    snaps := List.replicate 2 ⟨List.replicate 128 0, [], [], []⟩, nctr := 0
    state := .running, nodes := [{ state := .swapping }, { state := .waiting }] }

/-- Counter 7 holds 2^64. -/
def beyondWord : State := { State.reset with insts := [swappingInstance], ctr := [(7, 2 ^ 64)] }

/-- The state after the swap of the first node. -/
def swappedBeyond : State := retire beyondWord swappingInstance 0

theorem exec_anchorSwap_beyondWord : exec (.anchorSwapComplete 1 0) beyondWord = .next swappedBeyond := by
  have free : swapFree beyondWord 1 0 = true := by decide +kernel
  change execAnchorSwapComplete 1 0 beyondWord = _
  have found : instOf beyondWord 1 = some swappingInstance := rfl
  rw [execAnchorSwapComplete, found]
  exact congrArg Host.Outcome.next (if_pos ⟨rfl, by decide, rfl, free⟩)

/-- No signal is added, none overflows: the instance goes on with its second node (R106). -/
theorem swappedBeyond_runs : (instOf swappedBeyond 1).map (·.state) = some .running := by decide +kernel

/-- Refutes O39: as a node retires, the statement has its instance fail where some counter and the signals on it come to 2^64 or more,
whether or not the node signals that counter. A state with a counter of 2^64, which the statement does not exclude though the model's
own adds never make it, has no signal to overflow, and the instance runs on. -/
theorem not_launchesAndInstances : ¬ Obligations.LaunchesAndInstances := by
  unfold Obligations.LaunchesAndInstances
  rintro ⟨-, -, -, -, -, -, -, swap, -⟩
  obtain ⟨t, ht, -, -, -, -, -, overflow⟩ := (swap 1 0 beyondWord swappingInstance rfl rfl (by decide) rfl).2 (by decide +kernel)
  obtain ⟨u, hu, ended, -⟩ := overflow ⟨7, Nat.le_add_right _ _⟩
  rw [exec_anchorSwap_beyondWord] at ht
  obtain rfl := Host.Outcome.next.inj ht
  have runs := swappedBeyond_runs
  rw [hu, Option.map_some, ended] at runs
  exact absurd runs (by decide)

end Sys2Proof.Machine
end

section
/-!
PROOFS for O42: FW_LOAD, FW_ACTIVATE and the reversion of an update (R91 to R93).
-/

namespace Sys2Proof.Machine

/-! ## The mailbox (R79) -/

theorem mailboxDone_eq (s : State) (status : Nat) : mailboxDone s status = MailboxEnds s status := by
  rw [mailboxDone, MailboxEnds, Nat.mul_comm]
  rfl

theorem argsEnd_iff (s : State) (j : Nat) : argsEnd s j = true ↔ ∀ x ∈ s.mbarg.drop j, x = 0 := by
  simp [argsEnd, List.all_eq_true]

/-! ## FW_LOAD (R91) -/

theorem getDie_setStandby {s : State} {d : Nat} (x : Option FwImage) (hd : d < s.dies.length) :
    getDie (setStandby s x) d = { getDie s d with fw := { (getDie s d).fw with standby := x } } :=
  getDie_of_map (f := fun d => { d with fw := { d.fw with standby := x } }) rfl hd

/-- The bytes that MBARG0 and MBARG1 name. -/
def imageBytes (s : State) : List Byte := readBytes s (hostAddr (s.mbarg.getD 0 0).toNat) (s.mbarg.getD 1 0).toNat

/-- Measurement 7 with a verified image. -/
def measuredImage (s : State) (b : List Byte) : List (BitVec 256) :=
  s.meas.set 6 (sha256 (digestBytes (s.meas.getD 6 0) ++ digestBytes (imageOf b).digest))

theorem exec_fwLoad {s : State} (busy : mailboxBusy s 0x10 = true) (args : ∀ x ∈ s.mbarg.drop 2, x = 0) : exec .fwLoad s
    = .next (if imageOk (imageBytes s)
        then MailboxEnds { setStandby s (some (imageOf (imageBytes s))) with meas := measuredImage s (imageBytes s) } 0
        else MailboxEnds (setStandby s none) 5) := by
  change execFwLoad s = _
  have he : argsEnd s 2 = true := (argsEnd_iff s 2).2 args
  have hb : readBytes s (hostAddr (mbarg s 0)) (mbarg s 1) = imageBytes s := rfl
  simp only [execFwLoad, busy, he, hb, mailboxDone_eq]
  cases imageOk (imageBytes s) <;> rfl

/-! ## FW_ACTIVATE (R91, R92) -/

/-- The machine after the transfer point (R92). -/
def activated (s : State) : State :=
  { writePhys s handoverBase (handover s) with
    handovers := s.handovers + 1, update := ⟨true, s.ticks8⟩
    dies := (writePhys s handoverBase (handover s)).dies.map fun d => { d with fw := transfer d.fw } }

theorem exec_fwActivate_refused {s : State} (busy : mailboxBusy s 0x11 = true) (rest : s.update.started = false)
    (bare : ∃ d ∈ s.dies, d.fw.standby = none) : exec .fwActivate s = .next (MailboxEnds s 2) := by
  change execFwActivate s = _
  have none_ : (s.dies.any fun d => d.fw.standby.isNone) = true := by
    obtain ⟨d, hd, h⟩ := bare
    exact List.any_eq_true.2 ⟨d, hd, by rw [h]; rfl⟩
  simp only [execFwActivate, busy, rest, none_, mailboxDone_eq, Bool.not_true, Bool.or_self, Bool.or_true, if_true, Bool.false_eq_true, if_false]

/-- With an image on every die FW_ACTIVATE waits for the entry boundaries, then starts it. -/
theorem exec_fwActivate {s : State} (busy : mailboxBusy s 0x11 = true) (rest : s.update.started = false) (args : ∀ x ∈ s.mbarg, x = 0)
    (images : ∀ d ∈ s.dies, d.fw.standby ≠ none) : exec .fwActivate s = .next (if atRest s then activated s else s) := by
  change execFwActivate s = _
  have he : argsEnd s 0 = true := (argsEnd_iff s 0).2 args
  have all : (s.dies.any fun d => d.fw.standby.isNone) = false := by
    rw [List.any_eq_false]
    exact fun d hd h => images d hd (Option.isNone_iff_eq_none.1 h)
  simp only [execFwActivate, busy, rest, he, all, Bool.not_true, Bool.or_self, Bool.false_eq_true, if_false]
  cases atRest s <;> rfl

theorem atRest_iff (s : State) : atRest s = true ↔ ∀ p ∈ s.parts, ∀ x ∈ p.queues, x.checking = none ∧ x.hmDue = false := by
  simp [atRest, List.all_eq_true]

theorem atRest_eq_false {s : State} (h : ∃ p ∈ s.parts, ∃ x ∈ p.queues, x.checking ≠ none ∨ x.hmDue = true) : atRest s = false := by
  obtain ⟨p, hp, x, hx, busy⟩ := h
  refine Bool.eq_false_iff.2 fun all => ?_
  obtain ⟨hc, hd⟩ := (atRest_iff s).1 all p hp x hx
  rcases busy with hn | ht
  · exact hn hc
  · exact absurd (hd.symm.trans ht) Bool.false_ne_true

theorem fw_activated {s : State} {d : Nat} (hd : d < s.dies.length) : (getDie (activated s) d).fw = transfer (getDie s d).fw := by
  have hd' : d < (writePhys s handoverBase (handover s)).dies.length := (List.length_map _).symm ▸ hd
  rw [getDie_of_map (s := writePhys s handoverBase (handover s)) (t := activated s) rfl hd']
  exact congrArg transfer (getDie_map Die.fw (s := s) (t := writePhys s handoverBase (handover s)) rfl (fun _ => rfl) d)

/-- Nothing is consumed from a queue while an update is under way (R92). -/
theorem canConsume_of_started {s : State} (h : s.update.started = true) (k q : Nat) : canConsume s k q = false := by
  simp only [canConsume, h, Bool.not_true, Bool.and_false]

/-! ## Reversion (R93) -/

/-- The machine after a reversion. -/
def reverted (s : State) : State :=
  let u := bbRecord s 0 0 0x061 0xFF 0xFF 0 ((getDie s 0).fw.image.svn.setWidth 64)
  { u with dies := u.dies.map fun d => { d with fw := revert d.fw }, update := {} }

theorem exec_fwReversion (s : State) : exec .fwReversion s = .next (if overdue s then MailboxEnds (reverted s) 5 else s) := by
  change execFwReversion s = _
  simp only [execFwReversion, mailboxDone_eq, ← apply_ite]
  rfl

theorem fw_bbRecord (s : State) (die part code : Nat) (c u : Byte) (tag detail : W64) (d : Nat) :
    (getDie (bbRecord s die part code c u tag detail) d).fw = (getDie s d).fw :=
  getDie_congr_of_modify (·.fw) (s := s) rfl (by intro x; split <;> rfl) d

theorem fw_reverted {s : State} {d : Nat} (hd : d < s.dies.length) : (getDie (reverted s) d).fw = revert (getDie s d).fw := by
  have hd' : d < (bbRecord s 0 0 0x061 0xFF 0xFF 0 ((getDie s 0).fw.image.svn.setWidth 64)).dies.length :=
    (List.length_modify ..).symm ▸ hd
  rw [getDie_of_map (s := bbRecord s 0 0 0x061 0xFF 0xFF 0 ((getDie s 0).fw.image.svn.setWidth 64)) (t := reverted s) rfl hd']
  exact congrArg revert (fw_bbRecord ..)

/-- Settles O42: each command by its equation, the processors by theirs. -/
theorem firmwareUpdate : Obligations.FirmwareUpdate := by
  unfold Obligations.FirmwareUpdate
  refine ⟨fun s busy args => ?_, fun s busy rest bare => exec_fwActivate_refused busy rest bare, fun s busy rest args images work => ?_,
    fun s wf busy rest args images boundary => ?_, fun s hu late => ?_, fun s _ early => ?_⟩
  · have run := exec_fwLoad busy args
    intro b
    rw [show imageBytes s = b from rfl] at run
    cases ok : imageOk b with
    | true =>
      rw [ok, if_pos rfl] at run
      exact ⟨_, run, fun d hd => getDie_setStandby (some (imageOf b)) hd, rfl, rfl⟩
    | false =>
      rw [ok, if_neg Bool.false_ne_true] at run
      exact ⟨_, run, fun d hd => getDie_setStandby none hd, rfl, rfl⟩
  · rw [exec_fwActivate busy rest args images, atRest_eq_false work]
    rfl
  · refine ⟨activated s, ?_, rfl, bytesWritten_writePhys _ _ wf, fun d x hd hx => ?_, canConsume_of_started rfl, rfl, rfl, rfl⟩
    · rw [exec_fwActivate busy rest args images, (atRest_iff s).2 boundary, if_pos rfl]
    · dsimp only
      rw [fw_activated hd, transfer, hx]
      exact ⟨rfl, rfl, rfl, rfl, rfl, rfl, rfl, rfl⟩
  · refine ⟨MailboxEnds (reverted s) 5, ?_, rfl, rfl, rfl, fun d p hd hp => ?_, rfl, rfl, rfl⟩
    · rw [exec_fwReversion, overdue_of_le hu late, if_pos rfl]
    · dsimp only
      rw [show (getDie (MailboxEnds (reverted s) 5) d).fw = revert (getDie s d).fw from fw_reverted hd, revert, hp]
      exact ⟨rfl, rfl, rfl, rfl, rfl, rfl, rfl, rfl⟩
  · rw [exec_fwReversion, overdue_of_lt early]
    rfl

end Sys2Proof.Machine
end

section
/-!
PROOFS for O40: a queue after a change of it, completion records, the registers of launch queues and mailbox, the entries that are
no launch (R62 to R66, R68 to R71, R73, R74, R79).
-/

namespace Sys2Proof.Machine

/-! ## A queue after a change of it -/

theorem modify_congr {α : Type} [Inhabited α] {l : List α} {n : Nat} {f g : α → α} (h : f (l.getD n default) = g (l.getD n default)) :
    l.modify n f = l.modify n g := by
  apply List.ext_getElem?
  intro m
  rw [List.getElem?_modify, List.getElem?_modify]
  by_cases e : n = m
  · subst e
    rw [List.getD_eq_getElem?_getD] at h
    cases hm : l[n]? with
    | none => rfl
    | some x => simpa [hm] using h
  · simp [e]

theorem modQueue_congr {s : State} {k q : Nat} {f g : Queue → Queue} (h : f (getQueue s k q) = g (getQueue s k q)) :
    modQueue s k q f = modQueue s k q g := by
  simp only [modQueue, modPart]
  congr 1
  exact modify_congr (congrArg (fun x => { getPart s k with queues := x }) (modify_congr h))

/-- A changed queue is the queue with its new contents. -/
theorem modQueue_eq (s : State) (k q : Nat) (f : Queue → Queue) : modQueue s k q f = withQueue s k q (f (getQueue s k q)) :=
  modQueue_congr rfl

theorem modQueue_modQueue (s : State) (k q : Nat) (f g : Queue → Queue) :
    modQueue (modQueue s k q f) k q g = modQueue s k q fun x => g (f x) := by
  have inner : ∀ p : Partition, (p.queues.modify q f).modify q g = p.queues.modify q fun x => g (f x) := fun p =>
    List.modify_modify_eq ..
  simp only [modQueue, modPart, List.modify_modify_eq]
  congr 2
  funext p
  exact congrArg (fun x => { p with queues := x }) (inner p)

/-- The hall monitor's part of a µs as it starts anew (R74). -/
theorem consumed_eq (s : State) (k q : Nat) : consumed s k q = modQueue s k q fun x =>
    { x with qridx := x.qridx + 1, wait := false, hm := 0, hmPart := decide (s.ticks8 % 125 ≠ 0) } := by
  rw [consumed, restartHm, modQueue_modQueue]
  rfl

/-! ## Completion records and their messages (R70, R71) -/

/-- The message of an entry that asks for one (R70). -/
def withIrq (s : State) (k q : Nat) (e : List Byte) : State := { s with out := s.out ++ if entIrq e then [.msix (.vf k) q] else [] }

theorem entryIrq_eq (s : State) (k q : Nat) (e : List Byte) : entryIrq s k q e = withIrq s k q e := by
  unfold entryIrq withIrq
  cases entIrq e with
  | true => rfl
  | false => simp only [Bool.false_eq_true, if_false, List.append_nil]

theorem writeRecord_eq (s : State) (e : List Byte) (status nrb flags inst : Nat) : writeRecord s e status nrb flags inst
    = if entCpl e = 0 then s else writePhys s (hostAddr (entCpl e)) (recordOf e status nrb flags inst) := by
  rw [writeRecord]
  split
  · rfl
  · next h => rw [recordOf, if_neg h]

theorem BytesWritten.nil (s : State) (a : Nat) : BytesWritten s s a [] := ⟨rfl, fun _ _ => rfl⟩

theorem bytesWritten_writeRecord {s : State} (e : List Byte) (status nrb flags inst : Nat) (wf : Memory.wf s.mem) :
    BytesWritten s (writeRecord s e status nrb flags inst) (hostAddr (entCpl e)) (recordOf e status nrb flags inst) := by
  rw [writeRecord_eq]
  split
  · next h =>
    rw [recordOf, if_pos h]
    exact .nil s _
  · exact bytesWritten_writePhys _ _ wf

theorem finishEntry_eq (s : State) (k q : Nat) (e : List Byte) (status : Nat) :
    finishEntry s k q e status = writeRecord (withIrq s k q e) e status 0 (pairFlag s k) 0 := by
  rw [finishEntry, entryIrq_eq, writeRecord, writeRecord]
  split <;> rfl

/-- The record and the message of an entry that is no accepted instance (R68, R71). -/
theorem recordSent_finishEntry {s : State} (k q : Nat) (e : List Byte) (status : Nat) (wf : Memory.wf s.mem) :
    RecordSent s (finishEntry s k q e status) k q e status := by
  rw [finishEntry_eq]
  refine ⟨?_, bytesWritten_writeRecord (s := withIrq s k q e) e status 0 (pairFlag s k) 0 wf⟩
  change MemOnly (withIrq s k q e) _
  rw [writeRecord_eq]
  split
  · exact .refl _
  · exact memOnly_writePhys _ _ _

theorem finishEntry_ctr (s : State) (k q : Nat) (e : List Byte) (status : Nat) : (finishEntry s k q e status).ctr = s.ctr := by
  rw [finishEntry_eq, writeRecord_eq]
  split <;> rfl

/-! ## The registers of a queue (R62 to R65, R73) -/

/-- A write to a register of a virtual function that is enabled (R62). -/
theorem exec_registerWrite_vf {s : State} {k : Nat} (on : vfOn s k = true) (off : Nat) (v : W64) :
    exec (.registerWrite (.vf k) off v) s = .next (vfWrite s k off v) := by
  change execRegisterWrite (.vf k) off v s = _
  simp only [execRegisterWrite, on, if_true]

theorem vfWrite_qbase {q : Nat} (hq : q < 8) (s : State) (k : Nat) (v : W64) : vfWrite s k (q * 256) v
    = modQueue s k q fun x => if x.en then x else { x with qbase := v &&& ~~~0x7F#64 } := by
  have div : q * 256 / 256 = q := Nat.mul_div_cancel q (by decide)
  have mod : q * 256 % 256 = 0 := Nat.mul_mod_left q 256
  have low : ¬ 0x800 ≤ q * 256 := by omega
  simp only [vfWrite, if_neg low, div, mod]

theorem vfWrite_hmto {q : Nat} (hq : q < 8) (s : State) (k : Nat) (v : W64) : vfWrite s k (q * 256 + 0x20) v
    = modQueue s k q fun x => { x with hmto := v.setWidth 32 } := by
  have div : (q * 256 + 0x20) / 256 = q := by omega
  have mod : (q * 256 + 0x20) % 256 = 0x20 := by omega
  have low : ¬ 0x800 ≤ q * 256 + 0x20 := by omega
  simp only [vfWrite, if_neg low, div, mod]

/-- QBASE with bits [6:0] RZ (R62). -/
theorem and_not_127 (v : W64) : v &&& ~~~0x7F#64 = BitVec.ofNat 64 (v.toNat / 128 * 128) := by
  have shift : v &&& ~~~0x7F#64 = (v >>> 7) <<< 7 := by
    apply BitVec.eq_of_getLsbD_eq
    intro i hi
    have mask : (~~~0x7F#64).getLsbD i = decide (7 ≤ i) := by
      revert hi
      revert i
      decide
    rw [BitVec.getLsbD_and, mask, BitVec.getLsbD_shiftLeft, BitVec.getLsbD_ushiftRight]
    by_cases h : 7 ≤ i
    · simp [h, hi, Nat.not_lt.2 h]
    · simp [h, Nat.lt_of_not_le h]
  rw [shift]
  apply BitVec.eq_of_toNat_eq
  rw [BitVec.toNat_shiftLeft, BitVec.toNat_ushiftRight, Nat.shiftRight_eq_div_pow, Nat.shiftLeft_eq, BitVec.toNat_ofNat]

/-- QWIDX: an overrun keeps the old value (R64). -/
theorem exec_qwidxWrite {s : State} {k : Nat} (on : vfOn s k = true) (q : Nat) (v : W32) : exec (.qwidxWrite k q v) s
    = .next (withQueue s k q (if 2 ^ (getQueue s k q).log2n < (v - (getQueue s k q).qridx).toNat
        then { getQueue s k q with halt := true, err := 2 } else { getQueue s k q with qwidx := v })) := by
  change execQwidxWrite k q v s = _
  rw [execQwidxWrite, on, ← modQueue_eq s k q fun x => if 2 ^ x.log2n < (v - x.qridx).toNat then { x with halt := true, err := 2 } else { x with qwidx := v }]
  rfl

theorem log2n_field (v : W64) : (v.extractLsb' 0 5).toNat = v.toNat % 32 := by
  rw [BitVec.extractLsb'_toNat, Nat.shiftRight_zero]

theorem pceil_field (v : W64) : v.extractLsb' 5 2 = BitVec.ofNat 2 (v.toNat / 32) := by
  apply BitVec.eq_of_toNat_eq
  rw [BitVec.extractLsb'_toNat, BitVec.toNat_ofNat, Nat.shiftRight_eq_div_pow]

/-- Setting EN (R63, R73). -/
theorem exec_queueEnable {s : State} {k q : Nat} {v : W64} (on : vfOn s k = true) (hv : v.getLsbD 7 = true)
    (hen : (getQueue s k q).en = false) : exec (.queueEnable k q v) s = .next (withQueue s k q
      (let x := { getQueue s k q with log2n := v.toNat % 32, pceil := BitVec.ofNat 2 (v.toNat / 32) }
       if v.toNat % 32 < 4 ∨ 16 < v.toNat % 32 then { x with err := 1 }
       else if (getPart s k).state = 1 then { x with en := true, err := 0, halt := false } else { x with en := true })) := by
  change execQueueEnable k q v s = _
  simp only [execQueueEnable, hv, on, hen, Bool.not_true, Bool.false_eq_true, if_false, modQueue_eq, log2n_field, pceil_field]

/-- Setting EN where it is set takes back a clearing that waits (log 34). -/
theorem exec_queueEnable_again {s : State} {k q : Nat} {v : W64} (on : vfOn s k = true) (hv : v.getLsbD 7 = true)
    (hen : (getQueue s k q).en = true) : exec (.queueEnable k q v) s = .next (withQueue s k q { getQueue s k q with stopping := false }) := by
  change execQueueEnable k q v s = _
  simp only [execQueueEnable, hv, on, hen, Bool.not_true, Bool.false_eq_true, if_false, if_true, modQueue_eq]

/-- Clearing EN waits for the entry boundary (R65). -/
theorem exec_queueDisable {s : State} {k q : Nat} {v : W64} (on : vfOn s k = true) (hv : v.getLsbD 7 = false) :
    exec (.queueDisable k q v) s = .next (withQueue s k q (if (getQueue s k q).en
      then (if (getQueue s k q).checking.isSome then { getQueue s k q with stopping := true }
        else { getQueue s k q with en := false, halt := true })
      else { getQueue s k q with log2n := v.toNat % 32, pceil := BitVec.ofNat 2 (v.toNat / 32) })) := by
  change execQueueDisable k q v s = _
  simp only [execQueueDisable, hv, on, Bool.not_true, Bool.false_eq_true, if_false, modQueue_eq, log2n_field, pceil_field]

/-- A virtual function that is disabled answers nothing (R23). -/
theorem disabled_refuses {s : State} {k : Nat} (hoff : vfOn s k = false) :
    (∀ off v, exec (.registerWrite (.vf k) off v) s = .next { s with out := s.out ++ [.unsupported] })
      ∧ (∀ q v, exec (.qwidxWrite k q v) s = .next { s with out := s.out ++ [.unsupported] })
      ∧ ∀ q (v : W64), exec (if v.getLsbD 7 then .queueEnable k q v else .queueDisable k q v) s
          = .next { s with out := s.out ++ [.unsupported] } := by
  refine ⟨fun off v => ?_, fun q v => ?_, fun q v => ?_⟩
  · change execRegisterWrite (.vf k) off v s = _
    rw [execRegisterWrite]
    simp only [hoff]
    rfl
  · change execQwidxWrite k q v s = _
    rw [execQwidxWrite, hoff]
    rfl
  · cases hv : v.getLsbD 7 with
    | true =>
      change execQueueEnable k q v s = _
      rw [execQueueEnable, hv, hoff]
      rfl
    | false =>
      change execQueueDisable k q v s = _
      rw [execQueueDisable, hv, hoff]
      rfl

/-! ## The mailbox's registers (R79) -/

theorem exec_registerWrite_pf0 (off : Nat) (v : W64) (s : State) : exec (.registerWrite .pf0 off v) s = .next (pfWrite s off v) := rfl

theorem pfWrite_mbarg {j : Nat} (hj : j < 7) (v : W64) (s : State) : pfWrite s (8 * (j + 1)) v = { s with mbarg := s.mbarg.set j v } := by
  have other : [0x040, 0x100, 0x108, 0x110, 0x118].contains (8 * (j + 1)) = false := by interval_cases j <;> rfl
  have at' : mbargAt (8 * (j + 1)) = some j := by
    rw [mbargAt, if_pos (by omega)]
    congr 1
    omega
  rw [pfWrite, if_neg (by omega), other, at']
  rfl

theorem pfWrite_high {off : Nat} (h : 0x40 < off) (hl : off ∉ [0x100, 0x108, 0x110, 0x118]) (v : W64) (s : State) :
    pfWrite s off v = if off = Config.mbarg7At then { s with mbarg := s.mbarg.set 7 v } else s := by
  have other : [0x040, 0x100, 0x108, 0x110, 0x118].contains off = false := by
    rw [List.contains_eq_mem, decide_eq_false_iff_not, List.mem_cons, not_or]
    exact ⟨h.ne', hl⟩
  have low : ¬ (off % 8 = 0 ∧ 0x008 ≤ off ∧ off < 0x040) := fun x => Nat.lt_asymm h x.2.2
  rw [pfWrite, if_neg (by omega), other, mbargAt, if_neg low]
  by_cases e : off = Config.mbarg7At
  · rw [if_pos e, if_pos e]
    rfl
  · rw [if_neg e, if_neg e]
    rfl

/-- The codes of R79 and R80. -/
theorem contains_commands (n : Nat) : [0x01, 0x02, 0x03, 0x04, 0x10, 0x11, 0x20].contains n = true
    ↔ n ∈ [1, 2, 3, 4, 0x10, 0x11, 0x20] := List.contains_iff_mem

/-- A write to MBCMD while no command is under way (R6, R79, R88). -/
theorem mailboxWrite_idle {s : State} (v : W64) (idle : s.mbstat.getLsbD 0 = false) :
    (mailboxWrite s v).mbcmd = BitVec.ofNat 64 (v.toNat / 2 ^ 56 * 2 ^ 56)
      ∧ (v.toNat / 2 ^ 56 ∉ [1, 2, 3, 4, 0x10, 0x11, 0x20] → (mailboxWrite s v).mbstat = 0x0100
          ∧ (mailboxWrite s v).out = s.out ++ [.msix .pf0 0])
      ∧ (v.toNat / 2 ^ 56 ∈ [1, 2, 3, 4, 0x10, 0x11, 0x20] → s.bootstat.getLsbD 16 = false →
          (mailboxWrite s v).mbstat = 1 ∧ (mailboxWrite s v).out = s.out) := by
  unfold mailboxWrite
  dsimp only
  rw [idle, if_neg Bool.false_ne_true, ← contains_commands]
  cases hc : [0x01, 0x02, 0x03, 0x04, 0x10, 0x11, 0x20].contains (v.toNat / 2 ^ 56) with
  | false => exact ⟨rfl, fun _ => ⟨rfl, rfl⟩, fun h => absurd h Bool.false_ne_true⟩
  | true =>
    rw [Bool.not_true, if_neg Bool.false_ne_true]
    refine ⟨?_, fun h => absurd rfl h, fun _ hb => ?_⟩
    · split <;> rfl
    · rw [hb, Bool.false_and, if_neg Bool.false_ne_true]
      exact ⟨rfl, rfl⟩

theorem queueRegisterClauses : QueueRegisterClauses := by
  refine ⟨fun k q v s on hq => ⟨?_, ?_⟩, fun k s hoff => disabled_refuses hoff, fun j v s hj => ?_, fun off v s h hl => ?_,
    fun v s busy => ?_, fun v s idle => ⟨_, exec_registerWrite_pf0 0 v s, mailboxWrite_idle v idle⟩, fun k q v s on => ⟨fun h => ?_, fun h => ?_⟩,
    fun k q v s on hv hen => exec_queueEnable on hv hen, fun k q v s on hv hen => exec_queueEnable_again on hv hen,
    fun k q v s on hv => exec_queueDisable on hv⟩
  · rw [exec_registerWrite_vf on, vfWrite_qbase hq, modQueue_eq, and_not_127]
  · rw [exec_registerWrite_vf on, vfWrite_hmto hq, modQueue_eq, ← BitVec.ofNat_toNat]
  · rw [exec_registerWrite_pf0]
    by_cases h7 : j < 7
    · rw [if_pos h7, pfWrite_mbarg h7]
    · obtain rfl : j = 7 := by omega
      rfl
  · rw [exec_registerWrite_pf0, pfWrite_high h hl, apply_ite Host.Outcome.next]
  · rw [exec_registerWrite_pf0, pfWrite, if_pos rfl, mailboxWrite, if_pos busy]
  · rw [exec_qwidxWrite on, if_neg (Nat.not_lt.2 h)]
  · rw [exec_qwidxWrite on, if_pos h]

/-! ## Entries that are no launch (R66, R68, R69, R71) -/

/-- A NOP or an entry of unknown KIND. -/
theorem exec_entryNop {s : State} {k q : Nat} (can : canConsume s k q = true)
    (kind : entKind (headEntry s k q) = 0 ∨ 3 < entKind (headEntry s k q)) : exec (.entryNop k q) s
      = .next (finishEntry (consumed s k q) k q (headEntry s k q) ((lowest (entryFails s k (headEntry s k q))).getD 0)) := by
  change execEntryNop k q s = _
  simp only [execEntryNop, can, Bool.true_and, Bool.or_eq_true, beq_iff_eq, decide_eq_true_eq]
  rw [if_pos kind]

theorem exec_entryNop_not {s : State} {k q : Nat} (h : canConsume s k q = false ∨ entKind (headEntry s k q) ∈ [1, 2, 3]) :
    exec (.entryNop k q) s = .next s := by
  change execEntryNop k q s = _
  rw [execEntryNop]
  refine if_neg fun x => ?_
  simp only [Bool.and_eq_true, Bool.or_eq_true, beq_iff_eq, decide_eq_true_eq] at x
  rcases h with h | h
  · exact absurd (h.symm.trans x.1) Bool.false_ne_true
  · simp only [List.mem_cons, List.not_mem_nil, or_false] at h
    omega

/-- An unknown KIND is malformed, and no other status is lower. -/
theorem lowest_unknown {s : State} {k : Nat} {e : List Byte} (h : 3 < entKind e) : lowest (entryFails s k e) = some 1 := by
  have bad : entryBad e = true := by simp [entryBad, h]
  have kind : ¬ entKind e = 2 := by omega
  rw [entryFails, if_pos bad]
  simp only [kind, decide_false, Bool.false_and, Bool.false_eq_true, if_false, List.append_nil]
  split <;> rfl

theorem ctrGet_consumed (s : State) (k q h : Nat) : ctrGet (consumed s k q) h = ctrGet s h := rfl

/-- A CADD whose checks fail adds nothing (R68). -/
theorem exec_entryCadd_refused {s : State} {k q x : Nat} (can : canConsume s k q = true) (kind : entKind (headEntry s k q) = 2)
    (bad : lowest (entryFails s k (headEntry s k q)) = some x) :
    exec (.entryCadd k q) s = .next (finishEntry (consumed s k q) k q (headEntry s k q) x) := by
  change execEntryCadd k q s = _
  simp only [execEntryCadd, can, kind, bad, beq_self_eq_true, Bool.and_self, if_true]

theorem exec_entryCadd_zero {s : State} {k q : Nat} (can : canConsume s k q = true) (kind : entKind (headEntry s k q) = 2)
    (ok : entryFails s k (headEntry s k q) = []) (zero : entCval (headEntry s k q) = 0) :
    exec (.entryCadd k q) s = .next (finishEntry (consumed s k q) k q (headEntry s k q) 0) := by
  change execEntryCadd k q s = _
  simp only [execEntryCadd, can, kind, ok, zero, beq_self_eq_true, Bool.and_self, if_true]
  rfl

theorem exec_entryCadd_adds {s s1 : State} {k q : Nat} (can : canConsume s k q = true) (kind : entKind (headEntry s k q) = 2)
    (ok : entryFails s k (headEntry s k q) = []) (pos : entCval (headEntry s k q) ≠ 0)
    (add : ctrAdd (consumed s k q) (entCctr (headEntry s k q)) (entCval (headEntry s k q)) false = some s1) :
    exec (.entryCadd k q) s = .next (finishEntry s1 k q (headEntry s k q) 0) := by
  change execEntryCadd k q s = _
  simp only [execEntryCadd, can, kind, ok, beq_self_eq_true, Bool.and_self, if_true, pos, if_false, hostAdd, add, Option.getD_some]
  rfl

/-- No add of an entry without faults overflows (R69). -/
theorem cadd_fits {s : State} {k : Nat} {e : List Byte} (kind : entKind e = 2) (h : entryFails s k e = []) :
    ctrGet s (entCctr e) + entCval e < 2 ^ 64 := by
  by_contra big
  have last := (List.append_eq_nil_iff.1 h).2
  rw [kind, decide_eq_true (Nat.not_lt.1 big)] at last
  exact absurd last (by simp)

/-- The add of a CADD, as the counters hold it after the record (R69). -/
theorem cadd_record {s s1 : State} {c v : Nat} (k q : Nat) (e : List Byte) (wf : Memory.wf s.mem) (fits : ctrGet s c + v < 2 ^ 64)
    (add : ctrAdd s c v false = some s1) : RecordSent s1 (finishEntry s1 k q e 0) k q e 0
      ∧ ∀ h, ctrGet (finishEntry s1 k q e 0) h = if h = c then ctrGet s h + v else ctrGet s h := by
  rw [ctrAdd_eq fun _ => fits, Option.some.injEq] at add
  subst add
  have same := lessened_reeval (raised s c v false) c
  refine ⟨recordSent_finishEntry k q e 0 (by rw [same.mem]; exact wf), fun h => ?_⟩
  have value : ctrGet (finishEntry (reeval (raised s c v false) c) k q e 0) h = ctrGet (raised s c v false) h := by
    rw [ctrGet, finishEntry_ctr, same.ctr]
    rfl
  rw [value, ctrGet_raised]
  by_cases hc : h = c
  · subst hc
    rw [if_pos rfl, if_pos rfl]
    rfl
  · rw [if_neg hc, if_neg (Ne.symm hc)]

theorem exec_entryCwait {s : State} {k q : Nat} (can : canConsume s k q = true) (kind : entKind (headEntry s k q) = 3)
    (h : entryFails s k (headEntry s k q) = []) : exec (.entryCwait k q) s
      = .next (modQueue (consumed s k q) k q fun x => { x with
          armed := some (headEntry s k q), wait := true
          waits := some (entSctr (headEntry s k q), entSval (headEntry s k q),
            decide (entSval (headEntry s k q) ≤ ctrGet s (entSctr (headEntry s k q)))) }) := by
  change execEntryCwait k q s = _
  simp only [execEntryCwait, can, kind, h, beq_self_eq_true, Bool.and_self, if_true]
  rfl

theorem exec_entryCwaitSatisfied {s : State} {k q h v : Nat} {e : List Byte} {met : Bool} (armed : (getQueue s k q).armed = some e)
    (waits : (getQueue s k q).waits = some (h, v, met)) : exec (.entryCwaitSatisfied k q) s = .next (if met
      then finishEntry (modQueue s k q fun x => { x with armed := none, waits := none, wait := false }) k q e 0 else s) := by
  change execEntryCwaitSatisfied k q s = _
  rw [execEntryCwaitSatisfied, armed, waits]
  cases met <;> rfl

theorem queueEntryClauses : QueueEntryClauses := by
  refine ⟨fun k q s _ => ?_, fun k q s wf can => ⟨fun kind ok => ?_, fun kind => ?_, fun kind ok zero => ?_, fun kind ok pos => ?_,
      fun x kind bad => ?_, fun kind ok => ?_, ?_⟩,
    fun k q s h => exec_entryNop_not h, fun k q s e h v wf armed waits => ?_, fun k q s e h v armed waits => ?_⟩
  · rw [consumed_eq, modQueue_eq]
  · refine ⟨_, exec_entryNop can (.inl kind), ?_⟩
    rw [ok]
    exact recordSent_finishEntry k q _ 0 wf
  · refine ⟨_, exec_entryNop can (.inr kind), ?_⟩
    rw [lowest_unknown kind]
    exact recordSent_finishEntry k q _ 1 wf
  · exact ⟨_, exec_entryCadd_zero can kind ok zero, recordSent_finishEntry k q _ 0 wf⟩
  · have fits : ctrGet (consumed s k q) (entCctr (headEntry s k q)) + entCval (headEntry s k q) < 2 ^ 64 := by
      rw [ctrGet_consumed]
      exact cadd_fits kind ok
    have add := ctrAdd_eq (byt := false) fun _ => fits
    obtain ⟨sent, values⟩ := cadd_record k q (headEntry s k q) (s := consumed s k q) wf fits add
    simp only [ctrGet_consumed] at values
    exact ⟨_, _, exec_entryCadd_adds can kind ok pos.ne' add, add, sent, values⟩
  · exact ⟨_, exec_entryCadd_refused can kind bad, recordSent_finishEntry k q _ x wf⟩
  · rw [exec_entryCwait can kind ok, consumed_eq, modQueue_modQueue, modQueue_eq]
  · change execEntryReadError k q s = _
    rw [execEntryReadError, can, if_pos rfl, modQueue_eq]
  · refine ⟨_, exec_entryCwaitSatisfied armed waits, ?_⟩
    rw [if_pos rfl, modQueue_eq]
    exact recordSent_finishEntry k q e 0 wf
  · rw [exec_entryCwaitSatisfied armed waits]
    rfl

/-- Settles O40: the registers, then the entries. -/
theorem launchQueues : Obligations.LaunchQueues := ⟨queueRegisterClauses, queueEntryClauses⟩

end Sys2Proof.Machine
end

section
/-!
PROOFS for O41: the partition commands of the mailbox that reset nothing, key provisioning, the pair (R26, R61, R78, R80, R81, R85, R140,
R229, R312, R486).
-/

namespace Sys2Proof.Machine

/-! ## Partitions and tables after a change -/

theorem getPart_modPart {s : State} {k : Nat} (f : Partition → Partition) (hk : k < s.parts.length) :
    getPart (modPart s k f) k = f (getPart s k) := by
  simp [getPart, modPart, List.getD_eq_getElem?_getD, hk]

theorem getPart_modPart_ne {s : State} {j k : Nat} (f : Partition → Partition) (h : j ≠ k) :
    getPart (modPart s k f) j = getPart s j := by
  simp [getPart, modPart, List.getD_eq_getElem?_getD, h.symm]

/-- A partition in a state other than 0 is one of the machine's. -/
theorem lt_of_state {s : State} {k : Nat} (h : (getPart s k).state ≠ 0) : k < s.parts.length := by
  by_contra out
  rw [getPart, List.getD_eq_default _ _ (Nat.not_lt.1 out)] at h
  exact h rfl

theorem tget_tdrop {α : Type} (d : α) (p : Nat → Bool) (t : Tbl α) (k : Nat) :
    tget d (tdrop p t) k = if p k then d else tget d t k := by
  induction t with
  | nil => simp [tdrop, tget]
  | cons e t ih =>
    obtain ⟨j, v⟩ := e
    rw [tdrop] at ih ⊢
    by_cases hp : p j
    · rw [List.filter_cons_of_neg (by simp [hp]), ih]
      by_cases hk : j = k
      · subst hk
        rw [if_pos hp, if_pos hp]
      · rw [tget, if_neg hk]
    · rw [List.filter_cons_of_pos (by simp [hp]), tget, tget, ih]
      by_cases hk : j = k
      · subst hk
        rw [if_pos rfl, if_pos rfl, if_neg hp]
      · rw [if_neg hk, if_neg hk]

theorem ctrGet_zeroCounters (s : State) (lo n h : Nat) :
    ctrGet (zeroCounters s lo n) h = if lo ≤ h ∧ h < lo + n then 0 else ctrGet s h := by
  refine (tget_tdrop 0 (fun x => decide (lo ≤ x) && decide (x < lo + n)) s.ctr h).trans ?_
  simp only [Bool.and_eq_true, decide_eq_true_eq]
  rfl

/-- The counters of both ranges of a partition. -/
theorem ctrGet_zeroed (s : State) (a b h : Nat) :
    (InRanges a b h → ctrGet (zeroCounters (zeroCounters s (a / 2 ^ 32) (a % 2 ^ 32)) (b / 2 ^ 32) (b % 2 ^ 32)) h = 0)
      ∧ (¬ InRanges a b h →
        ctrGet (zeroCounters (zeroCounters s (a / 2 ^ 32) (a % 2 ^ 32)) (b / 2 ^ 32) (b % 2 ^ 32)) h = ctrGet s h) := by
  rw [ctrGet_zeroCounters, ctrGet_zeroCounters]
  refine ⟨fun inside => ?_, fun outside => ?_⟩
  · rcases inside with first | second
    · rw [if_pos first, ite_self]
    · rw [if_pos second]
  · rw [InRanges, not_or] at outside
    rw [if_neg outside.1, if_neg outside.2]

theorem getRec_zeroRecords (s : State) (k h : Nat) :
    getRec (zeroRecords s k) h = if recInRange s k h then {} else getRec s h := tget_tdrop _ _ s.recs h

/-- What stays where records and counters are zeroed. -/
def State.shared (s : State) : List OutMsg × List Host.Cell × List ClassState × List Instance × List Partition × List Ipt × BitVec 16 :=
  (s.out, s.mem, s.cls, s.insts, s.parts, s.ipts, s.mbstat)

theorem shared_zeroRecords (s : State) (k : Nat) : (zeroRecords s k).shared = s.shared := rfl
theorem shared_zeroCounters (s : State) (lo n : Nat) : (zeroCounters s lo n).shared = s.shared := rfl

/-- The end of a command that has changed the partitions (R79, R90). -/
def tableEnds (u : State) : State := MailboxEnds (measureTable u) 0

theorem shared_tableEnds (u : State) :
    (tableEnds u).shared = (u.out ++ [.msix .pf0 0], u.mem, u.cls, u.insts, u.parts, u.ipts, 0) := rfl

theorem readByte_tableEnds (u : State) (a : Nat) : readByte (tableEnds u) a = readByte u a := rfl
theorem iptEntry_tableEnds (u : State) (st f : Nat) : iptEntry (tableEnds u) st f = iptEntry u st f := rfl
theorem out_tableEnds (u : State) : (tableEnds u).out = u.out ++ [.msix .pf0 0] := rfl
theorem getPart_tableEnds (u : State) (j : Nat) : getPart (tableEnds u) j = getPart u j := rfl
theorem ctrGet_tableEnds (u : State) (h : Nat) : ctrGet (tableEnds u) h = ctrGet u h := rfl
theorem getRec_tableEnds (u : State) (h : Nat) : getRec (tableEnds u) h = getRec u h := rfl
theorem recInRange_tableEnds (u : State) (k h : Nat) : recInRange (tableEnds u) k h = recInRange u k h := rfl

/-! ## PART_CREATE (R61, R80, R486) -/

/-- The partition that PART_CREATE makes. -/
def madePart (s : State) (p : Partition) : Partition :=
  let pair := s.pairPeer.isSome && s.pairSet.testBit (mbarg s 0)
  { state := 1, args := s.mbarg, keys := p.keys, paired := pair, peer := if pair then s.pairPeer else none }

/-- The machine with the new partition, its counters and records zero. -/
def withMade (s : State) : State :=
  zeroRecords (zeroCounters (zeroCounters (modPart s (mbarg s 0) (madePart s)) (mbarg s 2 / 2 ^ 32) (mbarg s 2 % 2 ^ 32))
    (mbarg s 3 / 2 ^ 32) (mbarg s 3 % 2 ^ 32)) (mbarg s 0)

theorem createBad_place {s : State} (h : createBad s = false) : mbarg s 0 ≤ 16 := by
  simp only [createBad, Bool.or_eq_false_iff, decide_eq_false_iff_not] at h
  omega

theorem exec_partCreate {s : State} (busy : mailboxBusy s 0x01 = true) (ok : createBad s = false) (free : createConflict s = false)
    (hk : mbarg s 0 < s.parts.length) : exec .partCreate s = .next (tableEnds (withMade s)) := by
  have args : ∀ j, partArg (modPart s (mbarg s 0) (madePart s)) (mbarg s 0) j = mbarg s j := fun j => by
    rw [partArg, getPart_modPart _ hk]
    rfl
  rw [tableEnds, ← mailboxDone_eq, withMade, ← args 2, ← args 3]
  change execPartCreate s = _
  rw [execPartCreate, busy, ok, free]
  rfl

theorem shared_withMade (s : State) : (withMade s).shared = (modPart s (mbarg s 0) (madePart s)).shared := by
  rw [withMade, shared_zeroRecords, shared_zeroCounters, shared_zeroCounters]

theorem getPart_withMade (s : State) (j : Nat) : getPart (withMade s) j = getPart (modPart s (mbarg s 0) (madePart s)) j := rfl

theorem getRec_withMade (s : State) (h : Nat) :
    getRec (withMade s) h = if recInRange (withMade s) (mbarg s 0) h then {} else getRec s h := tget_tdrop _ _ s.recs h

theorem ctrGet_withMade (s : State) (h : Nat) : (InRanges (mbarg s 2) (mbarg s 3) h → ctrGet (withMade s) h = 0)
    ∧ (¬ InRanges (mbarg s 2) (mbarg s 3) h → ctrGet (withMade s) h = ctrGet s h) :=
  ctrGet_zeroed (modPart s (mbarg s 0) (madePart s)) _ _ h

theorem partCreate_done {s : State} (busy : mailboxBusy s 0x01 = true) (hl : s.parts.length = 17) (ok : createBad s = false)
    (free : createConflict s = false) : ∃ t, exec .partCreate s = .next t ∧ getPart t (mbarg s 0) = madePart s (getPart s (mbarg s 0))
      ∧ (∀ h, recInRange t (mbarg s 0) h = true → getRec t h = {})
      ∧ (∀ h, recInRange t (mbarg s 0) h = false → getRec t h = getRec s h)
      ∧ (∀ j, j ≠ mbarg s 0 → getPart t j = getPart s j)
      ∧ (∀ h, (InRanges (mbarg s 2) (mbarg s 3) h → ctrGet t h = 0) ∧ (¬ InRanges (mbarg s 2) (mbarg s 3) h → ctrGet t h = ctrGet s h))
      ∧ t.mbstat = 0 ∧ t.out = s.out ++ [.msix .pf0 0] ∧ t.mem = s.mem ∧ t.cls = s.cls ∧ t.insts = s.insts := by
  have hk : mbarg s 0 < s.parts.length := by
    have := createBad_place ok
    omega
  have ends := shared_tableEnds (withMade s)
  have made := shared_withMade s
  simp only [State.shared, Prod.mk.injEq] at ends made
  obtain ⟨out, mem, cls, insts, -, -, mbstat⟩ := ends
  obtain ⟨out', mem', cls', insts', -⟩ := made
  refine ⟨_, exec_partCreate busy ok free hk, ?_, fun h => ?_, fun h => ?_, fun j hj => ?_, fun h => ?_, mbstat, out.trans (by rw [out']; rfl),
    mem.trans mem', cls.trans cls', insts.trans insts'⟩
  · rw [getPart_tableEnds, getPart_withMade, getPart_modPart _ hk]
  · rw [recInRange_tableEnds, getRec_tableEnds, getRec_withMade]
    exact fun hr => if_pos hr
  · rw [recInRange_tableEnds, getRec_tableEnds, getRec_withMade]
    exact fun hr => if_neg (Bool.eq_false_iff.1 hr)
  · rw [getPart_tableEnds, getPart_withMade, getPart_modPart_ne _ hj]
  · rw [ctrGet_tableEnds]
    exact ctrGet_withMade s h

end Sys2Proof.Machine
end

section
/-!
PROOFS for O41: PART_DESTROY, PART_REARM, PAIR_CONFIG, key provisioning, PCAP and BBCTL (R26, R75, R78, R80, R81, R85, R140, R229).
-/

namespace Sys2Proof.Machine

/-! ## The scrub of a partition's classes, cells and counters (R75 step 4) -/

theorem stopClasses_eq (f : ClassState → ClassState) (cs : List Nat) (s : State) :
    stopClasses f cs s = { s with cls := cs.foldl (fun l c => l.modify c f) s.cls } := by
  induction cs generalizing s with
  | nil => rfl
  | cons c cs ih => exact ih (modCls s c f)

/-- The machine with the partition's classes and their cells scrubbed. -/
def cellsScrubbed (s : State) (k : Nat) : State :=
  { s with
    cls := (classesOf s k).foldl (fun l c => l.modify c scrubbedClass) s.cls
    transit := s.transit.filter fun t => !(classesOf s k).contains t.cls
    mem := tdrop (classCell (classesOf s k)) s.mem
    poison := s.poison.filter fun e => !classUnit (classesOf s k) e.1 }

theorem scrubPartition_eq (s : State) (k : Nat) : scrubPartition s k
    = zeroCounters (zeroCounters (cellsScrubbed s k) (partArg s k 2 / 2 ^ 32) (partArg s k 2 % 2 ^ 32))
        (partArg s k 3 / 2 ^ 32) (partArg s k 3 % 2 ^ 32) := by
  rw [scrubPartition, stopClasses_eq]
  rfl

theorem shared_scrubPartition (s : State) (k : Nat) : (scrubPartition s k).shared = (cellsScrubbed s k).shared := by
  rw [scrubPartition_eq, shared_zeroCounters, shared_zeroCounters]

theorem ctrGet_scrubPartition {s : State} {k h : Nat} (hr : InRanges (partArg s k 2) (partArg s k 3) h) :
    ctrGet (scrubPartition s k) h = 0 := by
  rw [scrubPartition_eq]
  exact (ctrGet_zeroed _ _ _ h).1 hr

theorem readByte_of_shared {s t : State} (h : t.shared = s.shared) (a : Nat) : readByte t a = readByte s a := by
  have mem : t.mem = s.mem := congrArg (·.2.1) h
  rw [readByte, mem]
  rfl

theorem readByte_scrubPartition (s : State) (k a : Nat) :
    readByte (scrubPartition s k) a = if classCell (classesOf s k) a then 0 else readByte s a := by
  rw [readByte_of_shared (shared_scrubPartition s k)]
  exact tget_tdrop 0 _ s.mem a

theorem wf_scrubPartition {s : State} (k : Nat) (wf : Memory.wf s.mem) : Memory.wf (scrubPartition s k).mem := by
  have mem : (scrubPartition s k).mem = (cellsScrubbed s k).mem := congrArg (·.2.1) (shared_scrubPartition s k)
  rw [mem]
  exact wf_dropped _ wf

/-! ## PART_DESTROY (R75, R80, R229, R312) -/

theorem freedEntry_part {k : Nat} (hk : 1 ≤ k) (e : IptEntry) : (freedEntry k e).part ≠ k := by
  unfold freedEntry
  split
  · exact (Nat.ne_of_lt hk)
  · assumption

/-- What every entry of a table has, and the entry of none, each lookup has. -/
theorem tget_forall {α : Type} {d : α} {p : α → Prop} (hd : p d) {t : Tbl α} (h : ∀ e ∈ t, p e.2) (k : Nat) : p (tget d t k) := by
  induction t with
  | nil => exact hd
  | cons e t ih =>
    rw [tget]
    split
    · exact h e List.mem_cons_self
    · exact ih fun x hx => h x (List.mem_cons_of_mem _ hx)

/-- A destroyed partition has no frame any more. -/
theorem iptEntry_freeFrames (s : State) {k : Nat} (hk : 1 ≤ k) (st f : Nat) : (iptEntry (freeFrames s k) st f).part ≠ k := by
  refine tget_forall (p := fun e : IptEntry => e.part ≠ k) (show (0 : Nat) ≠ k from Nat.ne_of_lt hk) (fun e he => ?_) f
  simp only [iptOf, freeFrames, List.getD_eq_getElem?_getD, List.getElem?_map] at he
  cases ht : s.ipts[st]? with
  | none =>
    rw [ht] at he
    cases he
  | some t =>
    rw [ht] at he
    obtain ⟨x, -, rfl⟩ := List.mem_map.1 (List.mem_of_mem_filter he)
    exact freedEntry_part hk x.2

/-- The machine without the cells, counters and records of a partition. -/
def emptied (s : State) (k : Nat) : State := zeroRecords (scrubPartition s k) k

/-- The partition and its frames go. -/
def dropPart (u : State) (k : Nat) : State := modPart (freeFrames u k) k fun _ => {}

theorem getPart_dropPart {u : State} {k : Nat} (hk : k < u.parts.length) : getPart (dropPart u k) k = {} := getPart_modPart _ hk
theorem getPart_dropPart_ne {u : State} {j k : Nat} (h : j ≠ k) : getPart (dropPart u k) j = getPart u j := getPart_modPart_ne _ h
theorem readByte_dropPart (u : State) (k a : Nat) : readByte (dropPart u k) a = readByte u a := rfl
theorem ctrGet_dropPart (u : State) (k h : Nat) : ctrGet (dropPart u k) h = ctrGet u h := rfl
theorem getRec_dropPart (u : State) (k h : Nat) : getRec (dropPart u k) h = getRec u h := rfl
theorem out_dropPart (u : State) (k : Nat) : (dropPart u k).out = u.out := rfl
theorem iptEntry_dropPart (u : State) {k : Nat} (hk : 1 ≤ k) (st f : Nat) : (iptEntry (dropPart u k) st f).part ≠ k :=
  iptEntry_freeFrames u hk st f

/-- The machine without the partition and its frames. -/
def withoutPart (s : State) (k : Nat) : State := dropPart (unsealPart (emptied s k) k) k

theorem shared_emptied (s : State) (k : Nat) : (emptied s k).shared = (cellsScrubbed s k).shared := by
  rw [emptied, shared_zeroRecords, shared_scrubPartition]

theorem exec_partDestroy {s : State} (busy : mailboxBusy s 0x02 = true) (names : namesPart s = true) (stopped : 3 ≤ (getPart s (mbarg s 0)).state) :
    exec .partDestroy s = .next (tableEnds (withoutPart s (mbarg s 0))) := by
  rw [tableEnds, ← mailboxDone_eq]
  change execPartDestroy s = _
  rw [execPartDestroy, busy, names, halted, decide_eq_true stopped]
  rfl

theorem exec_partDestroy_refused {s : State} (busy : mailboxBusy s 0x02 = true)
    (bad : namesPart s = false ∨ (getPart s (mbarg s 0)).state < 3) : exec .partDestroy s = .next (MailboxEnds s 2) := by
  rw [← mailboxDone_eq]
  change execPartDestroy s = _
  rw [execPartDestroy, busy, halted, Bool.not_true, if_neg Bool.false_ne_true]
  refine if_pos ?_
  rcases bad with bad | bad
  · rw [bad]
    rfl
  · rw [decide_eq_false (Nat.not_le.2 bad), Bool.not_false, Bool.or_true]

theorem keyOf_congr {s t : State} (parts : t.parts = s.parts) (ipts : t.ipts = s.ipts) (a : Nat) : keyOf t a = keyOf s a := by
  unfold keyOf iptEntry iptOf partArg getPart
  rw [parts, ipts]

/-- The unsealing of the partition's frames changes what is stored in them, and nothing that the other clauses name. -/
theorem unsealed_emptied (s : State) (k : Nat) : (unsealPart (emptied s k) k).parts = s.parts
    ∧ (unsealPart (emptied s k) k).ctr = (scrubPartition s k).ctr ∧ (unsealPart (emptied s k) k).recs = (emptied s k).recs
    ∧ (unsealPart (emptied s k) k).out = s.out := by
  have same := (unsealSame_unsealPart (emptied s k) k).frame
  have parts : (emptied s k).parts = s.parts := congrArg (·.2.2.2.2.1) (shared_emptied s k)
  have out : (emptied s k).out = s.out := congrArg (·.1) (shared_emptied s k)
  have parts' := congrArg State.parts same
  have ctr' := congrArg State.ctr same
  have recs' := congrArg State.recs same
  have out' := congrArg State.out same
  exact ⟨parts'.trans parts, ctr', recs', out'.trans out⟩

theorem partArg_scrubPartition (s : State) (k j : Nat) : partArg (scrubPartition s k) k j = partArg s k j := by
  have parts : (scrubPartition s k).parts = s.parts := congrArg (·.2.2.2.2.1) (shared_scrubPartition s k)
  rw [partArg, getPart, parts]
  rfl

theorem readByte_withoutPart {s : State} {k : Nat} (wf : Memory.wf s.mem) {a : Nat} (plain : keyOf s a = none) :
    readByte (withoutPart s k) a = if classCell (classesOf s k) a then 0 else readByte s a := by
  have wf' : Memory.wf (emptied s k).mem := wf_scrubPartition k wf
  have none' : keyOf (emptied s k) a = none := by
    rw [keyOf_congr (congrArg (·.2.2.2.2.1) (shared_emptied s k) : (emptied s k).parts = s.parts)
      (congrArg (·.2.2.2.2.2.1) (shared_emptied s k) : (emptied s k).ipts = s.ipts), plain]
  rw [withoutPart, readByte_dropPart, (unsealSame_unsealPart _ k).bytes wf' a none', emptied,
    readByte_of_shared (shared_zeroRecords ..), readByte_scrubPartition]

/-- What PART_DESTROY leaves. -/
theorem partDestroy_done {s : State} (busy : mailboxBusy s 0x02 = true) (names : namesPart s = true)
    (stopped : 3 ≤ (getPart s (mbarg s 0)).state) : ∃ t, exec .partDestroy s = .next t ∧ getPart t (mbarg s 0) = {}
      ∧ (∀ j, j ≠ mbarg s 0 → getPart t j = getPart s j)
      ∧ (∀ h, InRanges (partArg s (mbarg s 0) 2) (partArg s (mbarg s 0) 3) h → ctrGet t h = 0)
      ∧ (∀ h, recInRange s (mbarg s 0) h = true → getRec t h = {})
      ∧ (Memory.wf s.mem → ∀ a, keyOf s a = none →
          readByte t a = if classCell (classesOf s (mbarg s 0)) a then 0 else readByte s a)
      ∧ (∀ st f, (iptEntry t st f).part ≠ mbarg s 0) ∧ t.mbstat = 0 ∧ t.out = s.out ++ [.msix .pf0 0] := by
  generalize hk : mbarg s 0 = k at stopped
  have one : 1 ≤ k := by
    simp only [namesPart, Bool.and_eq_true, decide_eq_true_eq] at names
    omega
  have here : k < s.parts.length := lt_of_state (by omega)
  obtain ⟨parts, ctr, recs, out⟩ := unsealed_emptied s k
  refine ⟨_, exec_partDestroy busy names (hk ▸ stopped), ?_, fun j hj => ?_, fun h hr => ?_, fun h hr => ?_, fun wf a plain => ?_,
    fun st f => ?_, rfl, ?_⟩
  · rw [getPart_tableEnds, hk, withoutPart, getPart_dropPart]
    rwa [parts]
  · rw [getPart_tableEnds, hk, withoutPart, getPart_dropPart_ne hj, getPart, parts]
    rfl
  · rw [ctrGet_tableEnds, hk, withoutPart, ctrGet_dropPart, ctrGet, ctr]
    exact ctrGet_scrubPartition hr
  · have range : recInRange (scrubPartition s k) k h = true := by
      rw [← hr]
      simp only [recInRange, partArg_scrubPartition]
    rw [getRec_tableEnds, hk, withoutPart, getRec_dropPart, getRec, recs]
    exact (getRec_zeroRecords _ k h).trans (if_pos range)
  · rw [readByte_tableEnds, hk, readByte_withoutPart wf plain]
  · rw [iptEntry_tableEnds, hk, withoutPart]
    exact iptEntry_dropPart _ one st f
  · rw [out_tableEnds, hk, withoutPart, out_dropPart, out]

/-! ## PART_REARM (R78, R140) -/

/-- A partition that runs again, after a fence unpaired. -/
def rearmedPart (p : Partition) : Partition :=
  { p with state := 1, paired := p.paired && !(p.state == 4)
           queues := p.queues.map fun x => if x.err = 0 ∨ x.err = 4 then { x with err := 0, halt := !x.en } else x }

/-- The pair configuration after PART_REARM. -/
def rearmed (s : State) (k : Nat) : State :=
  if (getPart s k).state == 4 then
    measurePair { modPart s k rearmedPart with pairSet := s.pairSet &&& (2 ^ 17 - 1 - 2 ^ k) }
  else modPart s k rearmedPart

theorem modPart_congr {s : State} {k : Nat} {f g : Partition → Partition} (h : f (getPart s k) = g (getPart s k)) :
    modPart s k f = modPart s k g := by
  rw [modPart, modify_congr h, ← modPart]

theorem exec_partRearm {s : State} (busy : mailboxBusy s 0x04 = true) (names : namesPart s = true)
    (stopped : 3 ≤ (getPart s (mbarg s 0)).state) : exec .partRearm s = .next (MailboxEnds (rearmed s (mbarg s 0)) 0) := by
  rw [← mailboxDone_eq]
  change execPartRearm s = _
  rw [execPartRearm, busy, names, halted, decide_eq_true stopped, rearmed,
    modPart_congr (g := fun p => { p with
      state := 1, paired := p.paired && !((getPart s (mbarg s 0)).state == 4)
      queues := p.queues.map fun x => if x.err = 0 ∨ x.err = 4 then { x with err := 0, halt := !x.en } else x }) rfl]
  rfl

theorem exec_partRearm_refused {s : State} (busy : mailboxBusy s 0x04 = true) (runs : (getPart s (mbarg s 0)).state < 3) :
    exec .partRearm s = .next (MailboxEnds s 2) := by
  rw [← mailboxDone_eq]
  change execPartRearm s = _
  rw [execPartRearm, busy, halted, decide_eq_false (Nat.not_le.2 runs), Bool.not_false, Bool.or_true]
  rfl

theorem namesPart_place {s : State} (names : namesPart s = true) : 1 ≤ mbarg s 0 ∧ mbarg s 0 ≤ 16 := by
  simp only [namesPart, Bool.and_eq_true, decide_eq_true_eq] at names
  exact names.1

/-- A set of partitions without one of them. -/
theorem testBit_without (x : Nat) {j k : Nat} (hj : j < 17) (hk : k < 17) :
    (x &&& (2 ^ 17 - 1 - 2 ^ k)).testBit j = (x.testBit j && !(j == k)) := by
  have mask : ∀ k, k < 17 → ∀ j, j < 17 → (2 ^ 17 - 1 - 2 ^ k).testBit j = !(j == k) := by decide
  rw [Nat.testBit_and, mask k hk j hj]

theorem rearmed_pairSet (s : State) {j k : Nat} (hj : j < 17) (hk : k < 17) :
    (rearmed s k).pairSet.testBit j = (s.pairSet.testBit j && !((getPart s k).state == 4 && j == k)) := by
  rw [rearmed]
  split
  case isTrue fenced => rw [fenced, Bool.true_and, ← testBit_without _ hj hk]; rfl
  case isFalse free => rw [Bool.eq_false_iff.2 free, Bool.false_and, Bool.not_false, Bool.and_true]; rfl

theorem getPart_rearmed {s : State} {k : Nat} (hk : k < s.parts.length) : getPart (rearmed s k) k = rearmedPart (getPart s k) := by
  rw [rearmed]
  split <;> exact getPart_modPart rearmedPart hk

theorem rearmed_frame (s : State) (k : Nat) : { MailboxEnds (rearmed s k) 0 with parts := [], meas := [], pairSet := 0 }
    = { MailboxEnds s 0 with parts := [], meas := [], pairSet := 0 } := by
  rw [rearmed]
  split <;> rfl

/-! ## PAIR_CONFIG (R26, R80) -/

/-- A partition under a pair configuration. -/
def pairedPart (peer set : Nat) (e : Partition × Nat) : Partition :=
  if set.testBit e.2 then { e.1 with paired := true, peer := some peer, mismatches := 0 } else { e.1 with paired := false }

/-- The machine under the pair configuration of the mailbox's arguments. -/
def configured (s : State) : State :=
  { s with parts := (s.parts.zipIdx).map (pairedPart (mbarg s 0) (mbarg s 2)), pairPeer := some (mbarg s 0)
           pairMaster := mbarg s 1 == 1, pairSet := mbarg s 2 }

theorem exec_pairConfig {s : State} (busy : mailboxBusy s 0x20 = true) (cabled : s.cabling = true) (peer : mbarg s 0 < 256)
    (role : mbarg s 1 < 2) (set : mbarg s 2 < 2 ^ 17) (even : mbarg s 2 % 2 = 0) (args : ∀ x ∈ s.mbarg.drop 3, x = 0) :
    exec .pairConfig s = .next (MailboxEnds (measurePair (configured s)) 0) := by
  rw [← mailboxDone_eq]
  change execPairConfig s = _
  have good : ¬ (decide (256 ≤ mbarg s 0) || decide (2 ≤ mbarg s 1) || decide (2 ^ 17 ≤ mbarg s 2) || decide (mbarg s 2 % 2 ≠ 0)
      || !argsEnd s 3) = true := by
    simp only [(argsEnd_iff s 3).2 args, Bool.or_eq_true, decide_eq_true_eq, Bool.not_true, Bool.false_eq_true, or_false]
    omega
  have straight : ¬ (!s.cabling) = true := by
    rw [cabled]
    decide
  rw [execPairConfig, busy, Bool.not_true, if_neg Bool.false_ne_true, if_neg good, if_neg straight]
  rfl

theorem getPart_configured {s : State} {k : Nat} (hk : k < s.parts.length) :
    getPart (configured s) k = pairedPart (mbarg s 0) (mbarg s 2) (getPart s k, k) := by
  simp [getPart, configured, List.getD_eq_getElem?_getD, hk]

theorem paired_pairedPart (peer set : Nat) (e : Partition × Nat) : (pairedPart peer set e).paired = set.testBit e.2 := by
  rw [pairedPart]
  split
  case isTrue h => rw [h]
  case isFalse h => rw [Bool.eq_false_iff.2 h]

end Sys2Proof.Machine
end

section
/-!
PROOFS for O41: what an add, the end of an instance and the discarding of one leave of the host's side: instances but for their nodes and
latches, partitions but for their STATE and the latched waits of their queues (R70, R75, R253).
-/

namespace Sys2Proof.Machine

/-! ## What stays of instances and partitions -/

/-- An instance without its nodes and the latch of its start condition. -/
def Instance.fixed (i : Instance) : Instance := { i with nodes := [], sctrMet := false }

/-- A partition without its STATE and without what waits and hall monitors hold of its queues. -/
def Partition.fixed (p : Partition) : Partition :=
  { p with state := 0, queues := p.queues.map fun x => { err := x.err, checking := x.checking } }

/-- The same instances and partitions stand at the host's side. -/
structure SameDesk (s t : State) : Prop where
  insts : t.insts.map Instance.fixed = s.insts.map Instance.fixed
  parts : t.parts.map Partition.fixed = s.parts.map Partition.fixed

theorem SameDesk.refl (s : State) : SameDesk s s := ⟨rfl, rfl⟩

theorem SameDesk.trans {s t u : State} (h : SameDesk s t) (g : SameDesk t u) : SameDesk s u :=
  ⟨g.insts.trans h.insts, g.parts.trans h.parts⟩

theorem SameDesk.of_same {s t : State} (insts : t.insts = s.insts) (parts : t.parts = s.parts) : SameDesk s t :=
  ⟨by rw [insts], by rw [parts]⟩

theorem sameDesk_foldl {α : Type} (f : State → α → State) (h : ∀ s a, SameDesk s (f s a)) (l : List α) (s : State) :
    SameDesk s (l.foldl f s) := by
  induction l generalizing s with
  | nil => exact .refl s
  | cons a l ih => exact (h s a).trans (ih _)

theorem sameDesk_modCls (s : State) (c : Nat) (f : ClassState → ClassState) : SameDesk s (modCls s c f) := .of_same rfl rfl

theorem sameDesk_modNode (s : State) (num node : Nat) (f : Node → Node) : SameDesk s (modNode s num node f) := by
  refine ⟨?_, rfl⟩
  rw [modNode, modInst, List.map_map]
  exact List.map_congr_left fun i _ => by
    rw [Function.comp]
    split <;> rfl

/-! ## What the publishing of priorities leaves -/

/-- What a class runs, and its scalar registers. -/
def ClassState.stood (k : ClassState) : Bool × Tbl W64 × List InFlight := (k.live, k.sreg, k.inflight)

theorem map_modify_same {α β : Type} {f : α → α} {g : α → β} (h : ∀ x, g (f x) = g x) (l : List α) (n : Nat) :
    (l.modify n f).map g = l.map g := by
  apply List.ext_getElem?
  intro m
  rw [List.getElem?_map, List.getElem?_map, List.getElem?_modify]
  by_cases e : n = m
  · cases l[m]? <;> simp [e, h]
  · simp [e]

/-- Only teams and the priorities of classes change. -/
structure PrioOnly (s t : State) : Prop where
  frame : { t with cls := [], teams := [] } = { s with cls := [], teams := [] }
  cls : t.cls.map ClassState.stood = s.cls.map ClassState.stood

theorem PrioOnly.refl (s : State) : PrioOnly s s := ⟨rfl, rfl⟩

theorem PrioOnly.trans {s t u : State} (h : PrioOnly s t) (g : PrioOnly t u) : PrioOnly s u :=
  ⟨g.frame.trans h.frame, g.cls.trans h.cls⟩

theorem prioOnly_foldl {α : Type} (f : State → α → State) (h : ∀ s a, PrioOnly s (f s a)) (l : List α) (s : State) :
    PrioOnly s (l.foldl f s) := by
  induction l generalizing s with
  | nil => exact .refl s
  | cons a l ih => exact (h s a).trans (ih _)

theorem prioOnly_lendTo (s : State) (id n : Nat) : PrioOnly s (lendTo s id n) := by
  unfold lendTo
  split
  · exact .refl s
  · exact ⟨rfl, rfl⟩

theorem prioOnly_modCls (s : State) (c : Nat) {f : ClassState → ClassState} (h : ∀ k, (f k).stood = k.stood) : PrioOnly s (modCls s c f) :=
  ⟨rfl, map_modify_same h s.cls c⟩

theorem prioOnly_publishPrio (s : State) (id : Nat) : PrioOnly s (publishPrio s id) := by
  unfold publishPrio
  split
  case h_1 => exact .refl s
  case h_2 t _ => exact prioOnly_foldl _ (fun s c => prioOnly_modCls s c (f := fun k => withPrio k t.own (effOf t)) fun _ => rfl) _ s

theorem prioOnly_relend (s : State) : PrioOnly s (relend s) := by
  have once : ∀ u, PrioOnly u (lendOnce u) := fun u =>
    prioOnly_foldl _ (fun _ _ => prioOnly_foldl _ (fun _ _ => prioOnly_lendTo ..) _ _) _ u
  have lends : PrioOnly s (lent s) :=
    (⟨rfl, rfl⟩ : PrioOnly s { s with teams := s.teams.map Team.unlent }).trans (prioOnly_foldl _ (fun u _ => once u) _ _)
  rw [relend_eq]
  refine lends.trans (prioOnly_foldl _ (fun u t => ?_) _ _)
  split
  · exact .refl u
  · exact prioOnly_publishPrio u t.id

theorem sameDesk_relend (s : State) : SameDesk s (relend s) :=
  .of_same (congrArg State.insts (prioOnly_relend s).frame :) (congrArg State.parts (prioOnly_relend s).frame :)

theorem sameDesk_relendIf (b : Bool) (s : State) : SameDesk s (relendIf b s) := by
  cases b
  · exact .refl s
  · exact sameDesk_relend s

/-! ## An add (R253) -/

theorem sameDesk_doAcquire (s : State) (c scope : Nat) : SameDesk s (doAcquire s c scope) := by
  unfold doAcquire
  split
  · split
    · exact sameDesk_modNode ..
    · exact .refl s
  · exact .refl s

theorem sameDesk_endRegion (s : State) (c : Nat) (f : InFlight) : SameDesk s (endRegion s c f) := by
  unfold endRegion
  split
  · refine SameDesk.trans ?_ (sameDesk_modCls _ c _)
    split
    · exact sameDesk_modCls s c _
    · exact .refl s
  · exact .refl s

theorem sameDesk_setS (s : State) (c n : Nat) (v : W64) : SameDesk s (setS s c n v) := by
  unfold setS
  split
  · exact .refl s
  · exact sameDesk_modCls s c _

theorem sameDesk_land (s : State) (c : Nat) (f : InFlight) (rs : List (Nat × W64)) : SameDesk s (land s c f rs) := by
  by_cases h : Thawed s c
  · rw [land_of_thawed f rs h, complete_eq, landed]
    exact ((sameDesk_endRegion s c f).trans (sameDesk_foldl _ (fun _ _ => sameDesk_setS ..) rs _)).trans (sameDesk_modCls _ c _)
  · rw [land_of_frozen f rs h]
    exact sameDesk_modCls s c _

theorem sameDesk_satisfy (s : State) (c : Nat) (f : InFlight) : SameDesk s (satisfy s c f) := by
  have lands : ∀ (g : InFlight) (n : Nat) (rs : List (Nat × W64)), SameDesk s (land (doAcquire s c n) c g rs) := fun g n rs =>
    (sameDesk_doAcquire s c n).trans (sameDesk_land ..)
  unfold satisfy
  split
  · exact lands ..
  · exact lands ..
  · exact (lands ..).trans (sameDesk_relendIf ..)
  · exact .refl s

theorem sameDesk_reevalQueues (s : State) (h : Nat) : SameDesk s (reevalQueues s h) := by
  unfold reevalQueues
  split
  · refine ⟨rfl, ?_⟩
    rw [List.map_map]
    refine List.map_congr_left fun p _ => ?_
    rw [Function.comp, Partition.fixed, Partition.fixed, List.map_map]
    congr 1
    refine List.map_congr_left fun x _ => ?_
    rw [Function.comp]
    cases x.waits with
    | none => rfl
    | some w => dsimp only; split <;> rfl
  · exact .refl s

theorem sameDesk_reevalEdges (s : State) (h : Nat) : SameDesk s (reevalEdges s h) := by
  unfold reevalEdges
  split
  · exact .refl s
  · refine ⟨?_, rfl⟩
    rw [List.map_map]
    exact List.map_congr_left fun i _ => rfl

theorem sameDesk_reeval (s : State) (h : Nat) : SameDesk s (reeval s h) := by
  rw [reeval_eq]
  have fw : SameDesk (reevalQueues s h) (reevalFw (reevalQueues s h) h) := .of_same rfl rfl
  refine (((sameDesk_reevalQueues s h).trans fw).trans (sameDesk_reevalEdges ..)).trans (sameDesk_foldl _ (fun u c => ?_) _ _)
  refine sameDesk_foldl _ (fun u f => ?_) _ u
  rw [retest]
  split
  · exact sameDesk_satisfy ..
  · exact .refl u

/-- An add that is performed. -/
theorem ctrAdd_some {s t : State} {h v : Nat} (add : ctrAdd s h v false = some t) : t = reeval (raised s h v false) h := by
  by_cases fits : ctrGet s h + v < 2 ^ 64
  · rw [ctrAdd_eq fun _ => fits] at add
    exact (Option.some.inj add).symm
  · rw [ctrAdd] at add
    dsimp only at add
    rw [if_neg Bool.false_ne_true, if_pos (Nat.not_lt.1 fits)] at add
    cases add

/-! ## The end of an instance (R70) -/

/-- The completion add of an instance, or what die 0 records of one that would overflow. -/
def endAdd (i : Instance) (s : State) : State :=
  if i.status = 0 ∧ entCval i.entry ≠ 0 then
    match ctrAdd s (entCctr i.entry) (entCval i.entry) false with
    | some s' => s'
    | none => bbRecord s 0 i.part 0x063 0xFF 0xFF 0 (BitVec.ofNat 64 (entCctr i.entry))
  else s

theorem endAdd_of_failed {i : Instance} (h : i.status ≠ 0) (s : State) : endAdd i s = s := if_neg fun x => h x.1

theorem endAdd_kept (i : Instance) (s : State) :
    SameDesk s (endAdd i s) ∧ (endAdd i s).mem = s.mem ∧ (endAdd i s).cls.length = s.cls.length := by
  unfold endAdd
  split
  · split
    next t add =>
      rw [ctrAdd_some add]
      have same := lessened_reeval (raised s (entCctr i.entry) (entCval i.entry) false) (entCctr i.entry)
      have base : SameDesk s (raised s (entCctr i.entry) (entCval i.entry) false) := .of_same rfl rfl
      exact ⟨base.trans (sameDesk_reeval ..), same.mem, same.length⟩
    · exact ⟨.of_same rfl rfl, rfl, rfl⟩
  · exact ⟨.refl s, rfl, rfl⟩

/-- The record of an instance (R71), with its entry. -/
def endRecord (s : State) (i : Instance) : List Byte × List Byte :=
  (i.entry, recordOf i.entry i.status.toNat i.nrb ((if i.lowp then 1 else 0) + pairFlag s i.part) i.num)

/-- The message of an instance that ends, which is gone then. -/
def leave (i : Instance) (s : State) : State :=
  { withIrq s i.part i.queue i.entry with insts := (withIrq s i.part i.queue i.entry).insts.filter fun j => j.num ≠ i.num }

theorem leave_insts (i : Instance) (s : State) : (leave i s).insts = s.insts.filter fun j => j.num ≠ i.num := rfl
theorem leave_parts (i : Instance) (s : State) : (leave i s).parts = s.parts := rfl
theorem leave_cls (i : Instance) (s : State) : (leave i s).cls = s.cls := rfl
theorem leave_ctr (i : Instance) (s : State) : (leave i s).ctr = s.ctr := rfl
theorem leave_mem (i : Instance) (s : State) : (leave i s).mem = s.mem := rfl

/-- The record of an instance is written (R70). -/
def recordInst (s : State) (i : Instance) : State :=
  writeRecord s i.entry i.status.toNat i.nrb ((if i.lowp then 1 else 0) + pairFlag s i.part) i.num

theorem finishInstance_eq (s : State) (i : Instance) : finishInstance s i = leave i (endAdd i (recordInst s i)) := by
  rw [leave, ← entryIrq_eq]
  rfl

/-! ## Bytes that records change -/

/-- The byte at an address after a record is written. -/
def recordByte (a : Nat) (b : Byte) (r : List Byte × List Byte) : Byte :=
  if hostAddr (entCpl r.1) ≤ a ∧ a < hostAddr (entCpl r.1) + r.2.length then r.2.getD (a - hostAddr (entCpl r.1)) 0 else b

/-- From `s` to `t` memory from 2^39 on, so all but HBM, changes by these records only. -/
structure Recorded (rs : List (List Byte × List Byte)) (s t : State) : Prop where
  wf : Memory.wf s.mem → Memory.wf t.mem
  bytes : Memory.wf s.mem → ∀ a, 2 ^ 39 ≤ a → readByte t a = rs.foldl (recordByte a) (readByte s a)

theorem Recorded.of_mem {s t : State} (h : t.mem = s.mem) : Recorded [] s t :=
  ⟨fun wf => by rwa [h], fun _ a _ => by rw [readByte, h]; rfl⟩

theorem Recorded.trans {rs qs : List (List Byte × List Byte)} {s t u : State} (h : Recorded rs s t) (g : Recorded qs t u) :
    Recorded (rs ++ qs) s u :=
  ⟨fun wf => g.wf (h.wf wf), fun wf a ha => by rw [g.bytes (h.wf wf) a ha, h.bytes wf a ha, List.foldl_append]⟩

theorem recorded_writeRecord (s : State) (e : List Byte) (status nrb flags inst : Nat) :
    Recorded [(e, recordOf e status nrb flags inst)] s (writeRecord s e status nrb flags inst) := by
  rw [writeRecord_eq]
  split
  case isTrue none_ =>
    refine ⟨fun wf => wf, fun _ a _ => ?_⟩
    rw [recordOf, if_pos none_, List.foldl_cons, List.foldl_nil, recordByte, if_neg]
    exact fun x => Nat.lt_irrefl _ (Nat.lt_of_le_of_lt x.1 x.2)
  case isFalse some_ =>
    exact ⟨fun wf => wf_writePhys _ _ wf, fun wf a _ => readByte_writePhys _ _ _ wf⟩

theorem recorded_finishInstance (s : State) (i : Instance) : Recorded [endRecord s i] s (finishInstance s i) := by
  rw [finishInstance_eq]
  refine (recorded_writeRecord s i.entry _ _ _ _).trans (.of_mem ?_ : Recorded [] (recordInst s i) _)
  rw [leave_mem, (endAdd_kept i _).2.1]

theorem writeRecord_frame (s : State) (e : List Byte) (status nrb flags inst : Nat) :
    (writeRecord s e status nrb flags inst).insts = s.insts ∧ (writeRecord s e status nrb flags inst).parts = s.parts
      ∧ (writeRecord s e status nrb flags inst).ctr = s.ctr
      ∧ (writeRecord s e status nrb flags inst).cls.length = s.cls.length := by
  rw [writeRecord_eq]
  split
  · exact ⟨rfl, rfl, rfl, rfl⟩
  · exact ⟨rfl, rfl, rfl, List.length_map ..⟩

theorem finishInstance_desk (s : State) (i : Instance) :
    (finishInstance s i).insts.map Instance.fixed = (s.insts.map Instance.fixed).filter (fun j => j.num ≠ i.num)
      ∧ (finishInstance s i).parts.map Partition.fixed = s.parts.map Partition.fixed
      ∧ (finishInstance s i).cls.length = s.cls.length := by
  obtain ⟨insts, parts, -, len⟩ := writeRecord_frame s i.entry i.status.toNat i.nrb ((if i.lowp then 1 else 0) + pairFlag s i.part) i.num
  obtain ⟨desk, -, len'⟩ := endAdd_kept i (recordInst s i)
  have cores : (endAdd i (recordInst s i)).insts.map Instance.fixed = s.insts.map Instance.fixed := desk.insts.trans (by rw [recordInst, insts])
  rw [finishInstance_eq, leave_insts, leave_parts, leave_cls, desk.parts, len', ← cores, List.filter_map, recordInst, parts]
  exact ⟨rfl, rfl, len⟩

end Sys2Proof.Machine
end

section
/-!
PROOFS for O41: a partition's ended instances end, its classes stop, what its nodes staged is discarded (R75 steps 1 to 3).
-/

namespace Sys2Proof.Machine

/-! ## What equal lists of fixed parts give -/

theorem getD_of_map {α β : Type} [Inhabited α] {f : α → β} {l m : List α} (h : l.map f = m.map f) (n : Nat) :
    f (l.getD n default) = f (m.getD n default) := by
  have at_ := congrArg (·[n]?) h
  simp only [List.getElem?_map] at at_
  rw [List.getD_eq_getElem?_getD, List.getD_eq_getElem?_getD]
  cases hl : l[n]? <;> cases hm : m[n]? <;> simp_all

section
variable {s t : State} (h : t.parts.map Partition.fixed = s.parts.map Partition.fixed)
include h

theorem fixedPart (k : Nat) : (getPart t k).fixed = (getPart s k).fixed := getD_of_map h k

theorem partArg_of_fixed (k j : Nat) : partArg t k j = partArg s k j := by
  have args : (getPart t k).args = (getPart s k).args := (congrArg Partition.args (fixedPart h k) :)
  rw [partArg, args]
  rfl

theorem pairFlag_of_fixed (k : Nat) : pairFlag t k = pairFlag s k := by
  have paired : (getPart t k).paired = (getPart s k).paired := (congrArg Partition.paired (fixedPart h k) :)
  rw [pairFlag, paired]
  rfl

theorem fixedQueue (k q : Nat) : (getQueue t k q).err = (getQueue s k q).err ∧ (getQueue t k q).checking = (getQueue s k q).checking := by
  have queue := getD_of_map (congrArg Partition.queues (fixedPart h k)) q
  exact ⟨(congrArg Queue.err queue :), (congrArg Queue.checking queue :)⟩

theorem endRecord_of_fixed (i : Instance) : endRecord t i = endRecord s i := by
  rw [endRecord, pairFlag_of_fixed h]
  rfl

end

/-! ## Steps that leave the host's side and host memory -/

/-- Instances, partitions, all memory but HBM and the number of classes stay. -/
structure Harmless (s t : State) : Prop where
  desk : SameDesk s t
  mem : Recorded [] s t
  length : t.cls.length = s.cls.length

theorem Harmless.refl (s : State) : Harmless s s := ⟨.refl s, .of_mem rfl, rfl⟩

theorem Harmless.trans {s t u : State} (h : Harmless s t) (g : Harmless t u) : Harmless s u :=
  ⟨h.desk.trans g.desk, h.mem.trans g.mem, g.length.trans h.length⟩

theorem Harmless.of_same {s t : State} (insts : t.insts = s.insts) (parts : t.parts = s.parts) (mem : t.mem = s.mem)
    (length : t.cls.length = s.cls.length) : Harmless s t := ⟨.of_same insts parts, .of_mem mem, length⟩

theorem harmless_foldl {α : Type} (f : State → α → State) (h : ∀ s a, Harmless s (f s a)) (l : List α) (s : State) :
    Harmless s (l.foldl f s) := by
  induction l generalizing s with
  | nil => exact .refl s
  | cons a l ih => exact (h s a).trans (ih _)

theorem harmless_liveCause (s : State) (c code info : Nat) : Harmless s (liveCause s c code info) := by
  unfold liveCause
  split
  · exact .of_same rfl rfl rfl (length_modCls ..)
  · exact .refl s

theorem harmless_resetCause (s : State) (k code info : Nat) : Harmless s (resetCause s k code info) :=
  harmless_foldl _ (fun _ _ => harmless_liveCause ..) _ s

/-- Only frames of HBM have a key (R229). -/
theorem keyOf_beyond (s : State) {a : Nat} (ha : 2 ^ 39 ≤ a) : keyOf s a = none := by
  rw [keyOf]
  split
  · rfl
  next x hx =>
    rw [frameIdx, if_neg (Nat.not_lt.2 ha)] at hx
    split at hx
    · obtain rfl := Option.some.inj hx
      simp
    · cases hx

theorem UnsealSame.harmless {s t : State} (h : UnsealSame s t) : Harmless s t := by
  refine ⟨.of_same (congrArg State.insts h.frame :) (congrArg State.parts h.frame :), ⟨h.wf, fun wf a ha => h.bytes wf a (keyOf_beyond s ha)⟩, ?_⟩
  have := congrArg List.length h.cls
  rwa [List.length_map, List.length_map] at this

theorem harmless_setIptEntry (s : State) (t f : Nat) (e : IptEntry) : Harmless s (setIptEntry s t f e) := .of_same rfl rfl rfl rfl

theorem harmless_freeShadow (s : State) (sh : Shadow) : Harmless s (freeShadow s sh) := by
  unfold freeShadow
  split
  · exact .refl s
  · exact ((unsealSame_unsealFrame ..).harmless.trans (harmless_setIptEntry ..)).trans (harmless_setIptEntry ..)

theorem harmless_discardStaged (s : State) (inst node : Nat) : Harmless s (discardStaged s inst node) :=
  (harmless_foldl _ harmless_freeShadow _ s).trans ⟨sameDesk_modNode .., .of_mem rfl, rfl⟩

theorem harmless_cleanRouters (s : State) : Harmless s (cleanRouters s) := by
  unfold cleanRouters
  split
  · exact .of_same rfl rfl rfl (List.length_map ..)
  · exact .refl s

/-- The machine without the teams of an instance and its selections. -/
def withoutTeams (s : State) (num : Nat) : State :=
  { s with teams := s.teams.filter fun t => t.inst ≠ num, pairSel := s.pairSel.filter fun x => x.tag.inst ≠ num }

theorem harmless_withoutTeams (s : State) (num : Nat) : Harmless s (withoutTeams s num) := .of_same rfl rfl rfl rfl

theorem discardInstance_eq (s : State) (i : Instance) : discardInstance s i
    = cleanRouters (withoutTeams ((unretired i).foldl (fun s n => discardStaged s i.num n) s) i.num) := rfl

theorem harmless_discardInstance (s : State) (i : Instance) : Harmless s (discardInstance s i) := by
  rw [discardInstance_eq]
  exact ((harmless_foldl _ (fun _ _ => harmless_discardStaged ..) _ s).trans (harmless_withoutTeams ..)).trans (harmless_cleanRouters _)

/-- The STATE of a partition is no fixed part of it. -/
theorem harmless_setState (s : State) (k n : Nat) : Harmless s (modPart s k fun p => { p with state := n }) :=
  ⟨⟨rfl, map_modify_same (f := fun p : Partition => { p with state := n }) (fun _ => rfl) s.parts k⟩, .of_mem rfl, rfl⟩

/-! ## The ended instances of the partition end -/

theorem finishAll (l : List Instance) (s : State) :
    (l.foldl finishInstance s).insts.map Instance.fixed = (s.insts.map Instance.fixed).filter (fun j => l.all fun i => j.num ≠ i.num)
      ∧ (l.foldl finishInstance s).parts.map Partition.fixed = s.parts.map Partition.fixed
      ∧ (l.foldl finishInstance s).cls.length = s.cls.length
      ∧ Recorded (l.map (endRecord s)) s (l.foldl finishInstance s) := by
  induction l generalizing s with
  | nil => exact ⟨by simp, rfl, rfl, .of_mem rfl⟩
  | cons i l ih =>
    obtain ⟨insts, parts, len⟩ := finishInstance_desk s i
    obtain ⟨insts', parts', len', recs'⟩ := ih (finishInstance s i)
    have same : l.map (endRecord (finishInstance s i)) = l.map (endRecord s) := List.map_congr_left fun j _ => endRecord_of_fixed parts j
    refine ⟨?_, parts'.trans parts, len'.trans len, ?_⟩
    · rw [List.foldl_cons, insts', insts, List.filter_filter]
      exact List.filter_congr fun j _ => by rw [List.all_cons, Bool.and_comm]
    · rw [same] at recs'
      exact (recorded_finishInstance s i).trans recs'

/-- The partition's instances that have ended. -/
def endedInsts (s : State) (k : Nat) : List Instance := s.insts.filter fun i => i.part = k && i.state = .ended

/-- The partition halts: its ended instances have ended, its classes take the cause. -/
def haltPart (s : State) (k code info : Nat) : State :=
  resetCause (modPart ((endedInsts s k).foldl finishInstance (bump s)) k fun p => { p with state := 2 }) k code info

/-- What the partition's nodes staged is gone. -/
def stopPart (s : State) (k code info : Nat) : State :=
  ((haltPart s k code info).insts.filter fun i => i.part = k).foldl discardInstance (haltPart s k code info)

theorem stopPart_kept (s : State) (k code info : Nat) :
    (stopPart s k code info).insts.map Instance.fixed
        = (s.insts.map Instance.fixed).filter (fun j => (endedInsts s k).all fun i => j.num ≠ i.num)
      ∧ (stopPart s k code info).parts.map Partition.fixed = s.parts.map Partition.fixed
      ∧ (stopPart s k code info).cls.length = s.cls.length
      ∧ Recorded ((endedInsts s k).map (endRecord s)) s (stopPart s k code info) := by
  obtain ⟨insts, parts, len, recs⟩ := finishAll (endedInsts s k) (bump s)
  have halts : Harmless ((endedInsts s k).foldl finishInstance (bump s)) (haltPart s k code info) :=
    (harmless_setState _ k 2).trans (harmless_resetCause ..)
  have stops := halts.trans (harmless_foldl _ harmless_discardInstance ((haltPart s k code info).insts.filter fun i => i.part = k) _)
  rw [← stopPart] at stops
  have all := ((Recorded.of_mem rfl : Recorded [] s (bump s)).trans recs).trans stops.mem
  rw [List.nil_append, List.append_nil] at all
  exact ⟨stops.desk.insts.trans insts, stops.desk.parts.trans parts, stops.length.trans len, all⟩

end Sys2Proof.Machine
end

section
/-!
PROOFS for O41: the queues of a partition that is reset: the records of its live instances and of its launches under check (R75 step 5).
-/

namespace Sys2Proof.Machine

/-! ## Steps that write records and stop nothing more -/

/-- These records are written; counters stay, and what the classes run. -/
structure Closes (rs : List (List Byte × List Byte)) (s t : State) : Prop where
  recorded : Recorded rs s t
  ctr : t.ctr = s.ctr
  cls : t.cls.map ClassState.stood = s.cls.map ClassState.stood

theorem Closes.of_same {s t : State} (mem : t.mem = s.mem) (ctr : t.ctr = s.ctr) (cls : t.cls = s.cls) : Closes [] s t :=
  ⟨.of_mem mem, ctr, by rw [cls]⟩

theorem Closes.trans {rs qs : List (List Byte × List Byte)} {s t u : State} (h : Closes rs s t) (g : Closes qs t u) :
    Closes (rs ++ qs) s u := ⟨h.recorded.trans g.recorded, g.ctr.trans h.ctr, g.cls.trans h.cls⟩

theorem closes_writeRecord (s : State) (e : List Byte) (status nrb flags inst : Nat) :
    Closes [(e, recordOf e status nrb flags inst)] s (writeRecord s e status nrb flags inst) := by
  refine ⟨recorded_writeRecord .., (writeRecord_frame ..).2.2.1, ?_⟩
  rw [writeRecord_eq]
  split
  · rfl
  · rw [writePhys, List.map_map]
    refine List.map_congr_left fun k _ => ?_
    rw [Function.comp]
    split <;> rfl

/-! ## Instances that fail with the partition -/

/-- An instance with the status of the reset. -/
def failedWith (status : Nat) (i : Instance) : Instance := { i with status := BitVec.ofNat 8 status }

theorem finishFailed {i : Instance} (failed : i.status ≠ 0) (s : State) : Closes [endRecord s i] s (finishInstance s i)
    ∧ (finishInstance s i).insts = s.insts.filter (fun j => j.num ≠ i.num) ∧ (finishInstance s i).parts = s.parts := by
  obtain ⟨insts, parts, -, -⟩ := writeRecord_frame s i.entry i.status.toNat i.nrb ((if i.lowp then 1 else 0) + pairFlag s i.part) i.num
  rw [finishInstance_eq, endAdd_of_failed failed, leave_insts, leave_parts, recordInst, insts, parts]
  exact ⟨(closes_writeRecord ..).trans (.of_same (leave_mem i _) (leave_ctr i _) (leave_cls i _)), rfl, rfl⟩

theorem endRecord_congr {s t : State} (parts : t.parts = s.parts) (i : Instance) : endRecord t i = endRecord s i :=
  endRecord_of_fixed (by rw [parts]) i

theorem finishAllFailed (l : List Instance) (failed : ∀ i ∈ l, i.status ≠ 0) (s : State) :
    Closes (l.map (endRecord s)) s (l.foldl finishInstance s)
      ∧ (l.foldl finishInstance s).insts = s.insts.filter (fun j => l.all fun i => j.num ≠ i.num)
      ∧ (l.foldl finishInstance s).parts = s.parts := by
  induction l generalizing s with
  | nil => exact ⟨.of_same rfl rfl rfl, by simp, rfl⟩
  | cons i l ih =>
    obtain ⟨closes, insts, parts⟩ := finishFailed (failed i List.mem_cons_self) s
    obtain ⟨closes', insts', parts'⟩ := ih (fun j hj => failed j (List.mem_cons_of_mem _ hj)) (finishInstance s i)
    have same : l.map (endRecord (finishInstance s i)) = l.map (endRecord s) := List.map_congr_left fun j _ => endRecord_congr parts j
    refine ⟨?_, ?_, parts'.trans parts⟩
    · rw [same] at closes'
      exact closes.trans closes'
    · rw [List.foldl_cons, insts', insts, List.filter_filter]
      exact List.filter_congr fun j _ => by rw [List.all_cons, Bool.and_comm]

/-! ## A launch under check -/

/-- A queue whose launch under check is consumed by the reset. -/
def boundQueue (s : State) (x : Queue) : Queue :=
  { atBoundary x with qridx := (atBoundary x).qridx + 1, wait := false, hm := 0, hmPart := decide (s.ticks8 % 125 ≠ 0) }

theorem boundQueue_err (s : State) (x : Queue) : (boundQueue s x).err = x.err := by
  rw [boundQueue, atBoundary]
  split <;> rfl

theorem consumed_atBoundary (s : State) (k q : Nat) : consumed (modQueue s k q atBoundary) k q = modQueue s k q (boundQueue s) := by
  rw [consumed_eq, modQueue_modQueue]
  rfl

/-- A partition without its STATE, with the ERR of its queues alone. -/
def Partition.closing (p : Partition) : Partition := { p with state := 0, queues := p.queues.map fun x => { err := x.err } }

theorem closing_fixed (p : Partition) : p.fixed.closing = p.closing := by
  rw [Partition.closing, Partition.fixed, Partition.closing, List.map_map]
  rfl

theorem closing_modQueue {s : State} {k q : Nat} {f : Queue → Queue} (h : ∀ x, (f x).err = x.err) :
    (modQueue s k q f).parts.map Partition.closing = s.parts.map Partition.closing := by
  refine map_modify_same (fun p => ?_) s.parts k
  rw [Partition.closing, Partition.closing]
  exact congrArg (fun x => { p with state := 0, queues := x }) (map_modify_same (f := f) (g := fun x => { err := x.err })
    (fun x => by rw [h]) p.queues q)

/-- The records of a queue's instances, then of its launch under check. -/
def queueRecords (s : State) (k status q : Nat) : List (List Byte × List Byte) :=
  ((queueInsts s k q).map fun i => endRecord s (failedWith status i))
    ++ ((getQueue s k q).checking.map fun e => (e, recordOf e status 0 (pairFlag s k) 0)).toList

/-- The instances of a queue have failed. -/
def failQueue (s : State) (k status q : Nat) : State := ((queueInsts s k q).map (failedWith status)).foldl finishInstance s

theorem resetQueue_of_none {s : State} {k status q : Nat} (h : (getQueue (failQueue s k status q) k q).checking = none) :
    resetQueue s k status q = failQueue s k status q := by
  rw [failQueue, List.foldl_map] at h ⊢
  rw [resetQueue]
  split
  next e he => exact absurd (h.symm.trans he) (Option.some_ne_none e).symm
  next => rfl

theorem resetQueue_of_some {s : State} {k status q : Nat} {e : List Byte}
    (h : (getQueue (failQueue s k status q) k q).checking = some e) : resetQueue s k status q
      = finishEntry (modQueue (failQueue s k status q) k q (boundQueue (failQueue s k status q))) k q e status := by
  rw [← consumed_atBoundary]
  rw [failQueue, List.foldl_map] at h ⊢
  rw [resetQueue]
  split
  next e' he =>
    obtain rfl := Option.some.inj (h.symm.trans he)
    rfl
  next he => exact absurd (he.symm.trans h) (Option.some_ne_none e).symm

/-- The reset of one queue (R75 step 5). -/
theorem resetQueue_kept {status : Nat} (failed : BitVec.ofNat 8 status ≠ 0) (s : State) (k q : Nat) :
    Closes (queueRecords s k status q) s (resetQueue s k status q)
      ∧ (resetQueue s k status q).insts = s.insts.filter (fun j => (queueInsts s k q).all fun i => j.num ≠ i.num)
      ∧ (resetQueue s k status q).parts.map Partition.closing = s.parts.map Partition.closing
      ∧ ∀ r, r ≠ q → getQueue (resetQueue s k status q) k r = getQueue s k r := by
  have all : ∀ i ∈ (queueInsts s k q).map (failedWith status), i.status ≠ 0 := by
    intro i hi
    obtain ⟨j, -, rfl⟩ := List.mem_map.1 hi
    exact failed
  obtain ⟨closes, insts, parts⟩ := finishAllFailed _ all s
  rw [List.map_map, ← failQueue] at closes
  rw [← failQueue] at insts parts
  replace insts : (failQueue s k status q).insts = s.insts.filter (fun j => (queueInsts s k q).all fun i => j.num ≠ i.num) :=
    insts.trans (List.filter_congr fun j _ => by rw [List.all_map]; rfl)
  have queue : ∀ r, getQueue (failQueue s k status q) k r = getQueue s k r := fun r => by
    rw [getQueue, getPart, parts]
    rfl
  rw [queueRecords]
  cases hc : (getQueue s k q).checking with
  | none =>
    rw [resetQueue_of_none (by rw [queue, hc])]
    refine ⟨?_, insts, by rw [parts], fun r _ => queue r⟩
    rw [Option.map_none, Option.toList_none, List.append_nil]
    exact closes
  | some e =>
    rw [resetQueue_of_some (by rw [queue, hc])]
    generalize failQueue s k status q = u at closes insts parts queue
    have flag : pairFlag (modQueue u k q (boundQueue u)) k = pairFlag s k := by
      have closing := getD_of_map (closing_modQueue (s := u) (k := k) (q := q) (boundQueue_err u)) k
      have paired : (getPart (modQueue u k q (boundQueue u)) k).paired = (getPart u k).paired := (congrArg Partition.paired closing :)
      rw [pairFlag, paired, getPart, parts]
      rfl
    have frame := writeRecord_frame (withIrq (modQueue u k q (boundQueue u)) k q e) e status 0 (pairFlag s k) 0
    obtain ⟨insts', parts', -, -⟩ := frame
    rw [finishEntry_eq, flag]
    refine ⟨?_, insts'.trans insts, ?_, fun r hr => ?_⟩
    · have base : Closes [] u (withIrq (modQueue u k q (boundQueue u)) k q e) := .of_same rfl rfl rfl
      exact closes.trans (base.trans (closes_writeRecord ..))
    · rw [parts']
      exact (closing_modQueue (boundQueue_err u)).trans (by rw [parts])
    · rw [getQueue, getPart, parts']
      refine Eq.trans ?_ (queue r)
      exact (getQueue_modQueue u k q k r (boundQueue u)).trans (if_neg fun x => hr x.2.1)

/-! ## All queues -/

/-- What the reset of the first `n` queues leaves of the partition that has stopped. -/
structure ClosedTo (u : State) (k status n : Nat) (t : State) : Prop where
  insts : ∀ i ∈ t.insts, i ∈ u.insts ∧ ¬ (i.part = k ∧ i.queue < n)
  exact : (u.insts.map (·.num)).Nodup → t.insts = u.insts.filter fun i => !(decide (i.part = k) && decide (i.queue < n))
  parts : t.parts.map Partition.closing = u.parts.map Partition.closing
  later : ∀ q, n ≤ q → getQueue t k q = getQueue u k q
  closes : ∃ rs, Closes rs u t ∧ ((u.insts.map (·.num)).Nodup → rs = (List.range n).flatMap (queueRecords u k status))

theorem closedTo_zero (u : State) (k status : Nat) : ClosedTo u k status 0 u :=
  ⟨fun i hi => ⟨hi, fun x => Nat.not_lt_zero _ x.2⟩, fun _ => by simp, rfl, fun _ _ => rfl, [], .of_same rfl rfl rfl, fun _ => rfl⟩

theorem eq_of_num {l : List Instance} (nodup : (l.map (·.num)).Nodup) {i j : Instance} (hi : i ∈ l) (hj : j ∈ l) (h : i.num = j.num) : i = j :=
  List.inj_on_of_nodup_map nodup hi hj h

theorem closedTo_succ {u t : State} {k status n : Nat} (failed : BitVec.ofNat 8 status ≠ 0) (h : ClosedTo u k status n t) :
    ClosedTo u k status (n + 1) (resetQueue t k status n) := by
  obtain ⟨insts, exact_, parts, later, rs, closes, records⟩ := h
  obtain ⟨closes', insts', parts', later'⟩ := resetQueue_kept failed t k n
  have member : ∀ i ∈ t.insts, i.part = k → i.queue = n → i ∈ queueInsts t k n := fun i hi hp hq =>
    List.mem_filter.2 ⟨hi, by simp [hp, hq]⟩
  refine ⟨fun i hi => ?_, fun nodup => ?_, parts'.trans parts, fun q hq => ?_, _, closes.trans closes', fun nodup => ?_⟩
  · rw [insts', List.mem_filter, List.all_eq_true] at hi
    obtain ⟨hi, other⟩ := hi
    refine ⟨(insts i hi).1, fun x => ?_⟩
    have last : i.queue = n := (Nat.lt_succ_iff_lt_or_eq.1 x.2).resolve_left fun y => (insts i hi).2 ⟨x.1, y⟩
    simpa using other i (member i hi x.1 last)
  · rw [insts', exact_ nodup, List.filter_filter]
    refine List.filter_congr fun i hi => ?_
    have gone : ((queueInsts t k n).all fun j => decide (i.num ≠ j.num))
        = !(decide (i.part = k) && decide (i.queue = n)) := by
      rw [Bool.eq_iff_iff, List.all_eq_true, Bool.not_eq_true', Bool.and_eq_false_iff, decide_eq_false_iff_not, decide_eq_false_iff_not]
      constructor
      · intro apart
        by_contra both
        simp only [not_or, not_not] at both
        have there : i ∈ t.insts := by
          rw [exact_ nodup, List.mem_filter]
          exact ⟨hi, by simp [both.2]⟩
        simpa using apart i (member i there both.1 both.2)
      · intro apart j hj
        obtain ⟨hj, place⟩ := List.mem_filter.1 hj
        simp only [Bool.and_eq_true, decide_eq_true_eq] at place
        rw [decide_eq_true_eq]
        intro same
        rw [eq_of_num nodup hi (insts j hj).1 same] at apart
        exact apart.elim (· place.1) (· place.2)
    rw [gone]
    by_cases hp : i.part = k
    · by_cases hq : i.queue = n <;> simp [hp, hq, Nat.le_iff_lt_or_eq]
    · simp [hp]
  · rw [later' q (by omega), later q (by omega)]
  · have flags : ∀ i, endRecord t i = endRecord u i := fun i => by
      have closing := getD_of_map parts i.part
      have paired : (getPart t i.part).paired = (getPart u i.part).paired := (congrArg Partition.paired closing :)
      rw [endRecord, pairFlag, paired]
      rfl
    have flag : pairFlag t k = pairFlag u k := by
      have paired : (getPart t k).paired = (getPart u k).paired := (congrArg Partition.paired (getD_of_map parts k) :)
      rw [pairFlag, paired]
      rfl
    have same : queueInsts t k n = queueInsts u k n := by
      rw [queueInsts, exact_ nodup, List.filter_filter]
      refine List.filter_congr fun i _ => ?_
      by_cases hq : i.queue = n <;> simp [hq]
    rw [records nodup, List.range_succ, List.flatMap_append, List.flatMap_singleton, queueRecords, same, later n le_rfl, flag]
    simp only [flags]
    rfl

theorem closedTo_range {status : Nat} (failed : BitVec.ofNat 8 status ≠ 0) (u : State) (k n : Nat) :
    ClosedTo u k status n ((List.range n).foldl (fun s j => resetQueue s k status j) u) := by
  induction n with
  | zero => exact closedTo_zero u k status
  | succ n ih =>
    rw [List.range_succ, List.foldl_append]
    exact closedTo_succ failed ih

end Sys2Proof.Machine
end

section
/-!
PROOFS for O41: the reset of a partition (R74, R75, R78), and all its commands.
-/

namespace Sys2Proof.Machine

/-! ## The end of the reset -/

/-- The queues of a partition after its reset. -/
def resetPart (st : Nat) (q : Option Nat) (p : Partition) : Partition :=
  { p with state := st
           queues := (p.queues.zipIdx).map fun e =>
             { e.1 with halt := true, armed := none, waits := none, checking := none, wait := false, hm := 0, hmPart := false
                        hmDue := false
                        err := if (q = some e.2 ∨ e.1.hmDue = true) ∧ e.1.err = 0 then 4 else e.1.err } }

/-- The machine whose queues of the partition have been reset. -/
def closePart (s : State) (k status : Nat) : State := (List.range 8).foldl (fun s j => resetQueue s k status j) (scrubPartition s k)

/-- The partition's STATE, its queues, the message and the black box's entry. -/
def announce (s : State) (k st : Nat) (q : Option Nat) (x : Nat) : State :=
  bbRecord (msix (modPart s k (resetPart st q)) (.vf k) 8) 0 k 0x060 0xFF 0xFF 0 (BitVec.ofNat 64 (q.getD x % 256))

theorem partitionReset_eq (s : State) (k status st code : Nat) (info q : Option Nat) : partitionReset s k status st code info q
    = relend (announce (closePart (stopPart s k code (info.getD (freeVal s).toNat)) k status) k st q (freeVal s).toNat) := rfl

theorem announce_frame (s : State) (k st : Nat) (q : Option Nat) (x : Nat) : (announce s k st q x).parts = s.parts.modify k (resetPart st q)
    ∧ (announce s k st q x).insts = s.insts ∧ (announce s k st q x).ctr = s.ctr ∧ (announce s k st q x).mem = s.mem
    ∧ (announce s k st q x).cls = s.cls ∧ OutMsg.msix (.vf k) 8 ∈ (announce s k st q x).out :=
  ⟨rfl, rfl, rfl, rfl, rfl, List.mem_append_right _ List.mem_cons_self⟩

/-! ## Bytes under several records -/

/-- An address lies in a record. -/
def InRecord (a : Nat) (r : List Byte × List Byte) : Prop := hostAddr (entCpl r.1) ≤ a ∧ a < hostAddr (entCpl r.1) + r.2.length

theorem recordByte_of_in {a : Nat} {r : List Byte × List Byte} (h : InRecord a r) (b : Byte) :
    recordByte a b r = r.2.getD (a - hostAddr (entCpl r.1)) 0 := if_pos h

theorem recordByte_of_out {a : Nat} {r : List Byte × List Byte} (h : ¬ InRecord a r) (b : Byte) : recordByte a b r = b := if_neg h

/-- Where no record lies the byte stays. -/
theorem records_outside {a : Nat} {rs : List (List Byte × List Byte)} (h : ∀ r ∈ rs, ¬ InRecord a r) (b : Byte) :
    rs.foldl (recordByte a) b = b := by
  induction rs with
  | nil => rfl
  | cons r rs ih =>
    rw [List.foldl_cons, recordByte_of_out (h r List.mem_cons_self), ih fun x hx => h x (List.mem_cons_of_mem _ hx)]

/-- A record that no other overlaps stands. -/
theorem records_inside {a : Nat} {r : List Byte × List Byte} {rs : List (List Byte × List Byte)} (hr : r ∈ rs) (ha : InRecord a r)
    (alone : ∀ x ∈ rs, InRecord a x → x = r) (b : Byte) : rs.foldl (recordByte a) b = r.2.getD (a - hostAddr (entCpl r.1)) 0 := by
  induction rs generalizing b with
  | nil => cases hr
  | cons x rs ih =>
    rw [List.foldl_cons]
    by_cases later : r ∈ rs
    · exact ih later (fun y hy => alone y (List.mem_cons_of_mem _ hy)) _
    · obtain rfl := (List.mem_cons.1 hr).resolve_right later
      rw [recordByte_of_in ha, records_outside fun y hy hin => later (alone y (List.mem_cons_of_mem _ hy) hin ▸ hy)]

/-! ## Where records lie (R67) -/

theorem recordOf_length (e : List Byte) (status nrb flags inst : Nat) :
    (recordOf e status nrb flags inst).length = if entCpl e = 0 then 0 else 16 := by
  rw [recordOf]
  split
  · rfl
  · simp [length_leBytes]

/-- A completion record with its entry. -/
def IsRecord (r : List Byte × List Byte) : Prop := r.2.length = if entCpl r.1 = 0 then 0 else 16

/-- Records of aligned addresses that share a byte lie at one address. -/
theorem entCpl_of_overlap {a : Nat} {r x : List Byte × List Byte} (hr : IsRecord r) (hx : IsRecord x) (ar : entCpl r.1 % 16 = 0)
    (ax : entCpl x.1 % 16 = 0) (inr : InRecord a r) (inx : InRecord a x) : entCpl x.1 = entCpl r.1 := by
  unfold IsRecord at hr hx
  unfold InRecord hostAddr hostBase at inr inx
  split at hr <;> split at hx <;> split at inr <;> split at inx <;> omega

/-- No record lies in towers or scratch. -/
theorem not_inRecord_cell {a : Nat} {r : List Byte × List Byte} (hr : IsRecord r) (ar : entCpl r.1 % 16 = 0) (lo : 2 ^ 52 ≤ a)
    (hi : a < 2 ^ 56) : ¬ InRecord a r := by
  unfold IsRecord at hr
  unfold InRecord hostAddr hostBase
  split at hr <;> split <;> omega

theorem classCell_host {a : Nat} {r : List Byte × List Byte} (hr : IsRecord r) (ar : entCpl r.1 % 16 = 0) (ha : InRecord a r)
    (cs : List Nat) : classCell cs a = false := by
  have place : a < 2 ^ 52 ∨ 2 ^ 56 ≤ a := by
    by_contra x
    exact not_inRecord_cell hr ar (by omega) (by omega) ha
  have none_ : granAt a = none := if_neg (by omega)
  rw [classCell, none_]
  simp only [Bool.and_eq_false_iff, decide_eq_false_iff_not]
  omega

theorem classCell_tower {cs : List Nat} {c p off : Nat} (hc : c ∈ cs) (c40 : c < 40) (hp : p < 34) (hoff : off < 2 ^ 25) :
    classCell cs (towerAddr c p off) = true ∧ 2 ^ 52 ≤ towerAddr c p off ∧ towerAddr c p off < 2 ^ 53 := by
  have lo : 2 ^ 52 ≤ towerAddr c p off := by unfold towerAddr; omega
  have hi : towerAddr c p off < 2 ^ 53 := by unfold towerAddr; omega
  have cls : (towerAddr c p off - 2 ^ 52) / 2 ^ 25 / 34 = c := by unfold towerAddr; omega
  refine ⟨?_, lo, hi⟩
  rw [classCell, granAt, if_pos ⟨lo, hi⟩]
  dsimp only
  rw [cls]
  exact List.contains_iff_mem.2 hc

theorem classCell_scratch {cs : List Nat} {c off : Nat} (hc : c ∈ cs) (c40 : c < 40) (hoff : off < 2 ^ 16) :
    classCell cs (scratchAddr c off) = true ∧ 2 ^ 52 ≤ scratchAddr c off ∧ scratchAddr c off < 2 ^ 56 := by
  have lo : 2 ^ 53 ≤ scratchAddr c off := by unfold scratchAddr; omega
  have hi : scratchAddr c off < 2 ^ 53 + 40 * 2 ^ 16 := by unfold scratchAddr; omega
  have cls : (scratchAddr c off - 2 ^ 53) / 2 ^ 16 = c := by unfold scratchAddr; omega
  have none_ : granAt (scratchAddr c off) = none := if_neg (by omega)
  refine ⟨?_, by omega, by omega⟩
  rw [classCell, none_]
  dsimp only
  rw [cls, decide_eq_true lo, decide_eq_true hi, List.contains_iff_mem.2 hc]
  rfl

/-! ## The classes of the partition -/

theorem getD_modify {α : Type} [Inhabited α] (l : List α) (n m : Nat) (f : α → α) :
    (l.modify n f).getD m default = if n = m ∧ m < l.length then f (l.getD m default) else l.getD m default := by
  rw [List.getD_eq_getElem?_getD, List.getD_eq_getElem?_getD, List.getElem?_modify]
  by_cases hm : m < l.length
  · by_cases e : n = m <;> simp [hm, e]
  · simp [hm]

theorem stood_scrubbed (k : ClassState) : (scrubbedClass k).stood = (false, [], []) := by
  rw [scrubbedClass, clearClass, stopClass]
  rfl

/-- A class that has been scrubbed stays so. -/
theorem scrubbed_stays {l : List ClassState} {c : Nat} (h : (l.getD c default).stood = (false, [], [])) (cs : List Nat) :
    ((cs.foldl (fun l c => l.modify c scrubbedClass) l).getD c default).stood = (false, [], []) := by
  induction cs generalizing l with
  | nil => exact h
  | cons d cs ih =>
    refine ih ?_
    rw [getD_modify]
    split
    · exact stood_scrubbed _
    · exact h

theorem scrubbed_all {cs : List Nat} {c : Nat} (hc : c ∈ cs) {l : List ClassState} (here : c < l.length) :
    ((cs.foldl (fun l c => l.modify c scrubbedClass) l).getD c default).stood = (false, [], []) := by
  induction cs generalizing l with
  | nil => cases hc
  | cons d cs ih =>
    rw [List.foldl_cons]
    rcases List.mem_cons.1 hc with rfl | hc
    · refine scrubbed_stays ?_ cs
      rw [getD_modify, if_pos ⟨rfl, here⟩]
      exact stood_scrubbed _
    · exact ih hc (by rwa [List.length_modify])

theorem getCls_scrubPartition {s : State} {k c : Nat} (hc : c ∈ classesOf s k) (here : c < s.cls.length) :
    (getCls (scrubPartition s k) c).stood = (false, [], []) := by
  have cls : (scrubPartition s k).cls = (cellsScrubbed s k).cls := congrArg (·.2.2.1) (shared_scrubPartition s k)
  rw [getCls, cls]
  exact scrubbed_all hc here

/-! ## The records of the reset -/

/-- FLAGS[1] of a partition's records. -/
theorem pairFlag_eq (s : State) (k : Nat) : pairFlag s k = 2 * (getPart s k).paired.toNat := by
  rw [pairFlag]
  cases (getPart s k).paired <;> rfl

/-- The record of an instance as the reset leaves it. -/
def lastRecord (s : State) (status : Nat) (i : Instance) : List Byte × List Byte :=
  if i.state = .ended then endRecord s i else endRecord s (failedWith status i)

theorem endRecord_eq (s : State) (i : Instance) : endRecord s i
    = (i.entry, recordOf i.entry i.status.toNat i.nrb (i.lowp.toNat + 2 * (getPart s i.part).paired.toNat) i.num) := by
  rw [endRecord, pairFlag_eq]
  cases i.lowp <;> rfl

theorem mem_resetRecords {s : State} {k status : Nat} (small : status < 256) (r : List Byte × List Byte) : r ∈ resetRecords s k status
    ↔ (∃ i ∈ s.insts, i.part = k ∧ lastRecord s status i = r)
      ∨ ∃ q, q < 8 ∧ ∃ e, (getQueue s k q).checking = some e ∧ (e, recordOf e status 0 (pairFlag s k) 0) = r := by
  have value : (BitVec.ofNat 8 status).toNat = status := by
    rw [BitVec.toNat_ofNat]
    exact Nat.mod_eq_of_lt small
  have record : ∀ i : Instance, i.part = k → lastRecord s status i = (i.entry, recordOf i.entry
      (if i.state = .ended then i.status.toNat else status) i.nrb (i.lowp.toNat + 2 * (getPart s k).paired.toNat) i.num) := by
    intro i hi
    rw [lastRecord, endRecord_eq, endRecord_eq, hi]
    split
    · rfl
    · rw [failedWith, value, hi]
  rw [resetRecords, List.mem_append, List.mem_map, List.mem_filterMap]
  refine or_congr ?_ ?_
  · refine exists_congr fun i => ?_
    rw [List.mem_filter, decide_eq_true_eq, and_assoc]
    exact and_congr_right fun _ => and_congr_right fun hp => by rw [record i hp]
  · refine exists_congr fun q => ?_
    rw [List.mem_range, Option.map_eq_some_iff, pairFlag_eq]

/-- What the partition that has stopped holds of the host's side. -/
structure StoppedAs (s u : State) (k : Nat) : Prop where
  insts : u.insts.map Instance.fixed = (s.insts.map Instance.fixed).filter (fun j => (endedInsts s k).all fun i => j.num ≠ i.num)
  parts : u.parts.map Partition.fixed = s.parts.map Partition.fixed

/-- An instance is left where its number is none of an ended one's. -/
theorem StoppedAs.exists_insts {s u : State} {k : Nat} (h : StoppedAs s u k) {P : Instance → Prop} (hP : ∀ i : Instance, P i.fixed ↔ P i) :
    (∃ i ∈ u.insts, P i) ↔ ∃ i ∈ s.insts, (∀ d ∈ endedInsts s k, i.num ≠ d.num) ∧ P i := by
  have lift : ∀ l : List Instance, (∃ i ∈ l, P i) ↔ ∃ j ∈ l.map Instance.fixed, P j := fun l => by simp [hP]
  rw [lift, h.insts]
  constructor
  · rintro ⟨j, hj, p⟩
    obtain ⟨hj, other⟩ := List.mem_filter.1 hj
    obtain ⟨i, hi, rfl⟩ := List.mem_map.1 hj
    refine ⟨i, hi, fun d hd => ?_, (hP i).1 p⟩
    exact of_decide_eq_true (List.all_eq_true.1 other d hd)
  · rintro ⟨i, hi, other, p⟩
    refine ⟨i.fixed, List.mem_filter.2 ⟨List.mem_map_of_mem hi, ?_⟩, (hP i).2 p⟩
    exact List.all_eq_true.2 fun d hd => decide_eq_true (other d hd)

theorem StoppedAs.nodup {s u : State} {k : Nat} (h : StoppedAs s u k) (nodup : (s.insts.map (·.num)).Nodup) :
    (u.insts.map (·.num)).Nodup := by
  have nums : ∀ l : List Instance, l.map (·.num) = (l.map Instance.fixed).map (·.num) := fun l => by
    rw [List.map_map]
    rfl
  rw [nums, h.insts]
  rw [nums] at nodup
  exact nodup.sublist (List.filter_sublist.map _)

/-- With distinct numbers the instances left of the partition are those that had not ended. -/
theorem notEnded_iff {s : State} {k : Nat} (nodup : (s.insts.map (·.num)).Nodup) {i : Instance} (hi : i ∈ s.insts) (hp : i.part = k) :
    (∀ d ∈ endedInsts s k, i.num ≠ d.num) ↔ i.state ≠ .ended := by
  constructor
  · intro other ended
    exact other i (List.mem_filter.2 ⟨hi, by simp [hp, ended]⟩) rfl
  · intro live d hd same
    obtain ⟨hd, ended⟩ := List.mem_filter.1 hd
    rw [eq_of_num nodup hi hd same] at live
    simp only [Bool.and_eq_true, decide_eq_true_eq] at ended
    exact live ended.2

/-- The records that the reset writes are those of the statement. -/
theorem mem_written {s u : State} {k status : Nat} (small : status < 256) (h : StoppedAs s u k) (nodup : (s.insts.map (·.num)).Nodup)
    (queues : ∀ i ∈ s.insts, i.queue < 8) (r : List Byte × List Byte) :
    r ∈ (endedInsts s k).map (endRecord s) ++ (List.range 8).flatMap (queueRecords u k status) ↔ r ∈ resetRecords s k status := by
  have live : (∃ q, q < 8 ∧ ∃ i ∈ queueInsts u k q, endRecord u (failedWith status i) = r)
      ↔ ∃ i ∈ s.insts, i.part = k ∧ i.state ≠ .ended ∧ endRecord s (failedWith status i) = r := by
    have flat : (∃ q, q < 8 ∧ ∃ i ∈ queueInsts u k q, endRecord u (failedWith status i) = r)
        ↔ ∃ i ∈ u.insts, i.part = k ∧ i.queue < 8 ∧ endRecord s (failedWith status i) = r := by
      constructor
      · rintro ⟨q, hq, i, hi, e⟩
        obtain ⟨hi, place⟩ := List.mem_filter.1 hi
        simp only [Bool.and_eq_true, decide_eq_true_eq] at place
        exact ⟨i, hi, place.1, place.2 ▸ hq, endRecord_of_fixed h.parts _ ▸ e⟩
      · rintro ⟨i, hi, hp, hq, e⟩
        exact ⟨i.queue, hq, i, List.mem_filter.2 ⟨hi, by simp [hp]⟩, (endRecord_of_fixed h.parts _).trans e⟩
    rw [flat, h.exists_insts (P := fun i => i.part = k ∧ i.queue < 8 ∧ endRecord s (failedWith status i) = r) fun i => Iff.rfl]
    refine exists_congr fun i => and_congr_right fun hi => ⟨?_, ?_⟩
    · rintro ⟨other, hp, -, e⟩
      exact ⟨hp, (notEnded_iff nodup hi hp).1 other, e⟩
    · rintro ⟨hp, alive, e⟩
      exact ⟨(notEnded_iff nodup hi hp).2 alive, hp, queues i hi, e⟩
  have ended : r ∈ (endedInsts s k).map (endRecord s) ↔ ∃ i ∈ s.insts, i.part = k ∧ i.state = .ended ∧ endRecord s i = r := by
    simp only [endedInsts, List.mem_map, List.mem_filter, Bool.and_eq_true, decide_eq_true_eq, and_assoc]
  have checks : (∃ q, q < 8 ∧ r ∈ ((getQueue u k q).checking.map fun e => (e, recordOf e status 0 (pairFlag u k) 0)).toList)
      ↔ ∃ q, q < 8 ∧ ∃ e, (getQueue s k q).checking = some e ∧ (e, recordOf e status 0 (pairFlag s k) 0) = r := by
    refine exists_congr fun q => and_congr_right fun _ => ?_
    rw [(fixedQueue h.parts k q).2, pairFlag_of_fixed h.parts, Option.mem_toList, Option.map_eq_some_iff]
  have last : (∃ i ∈ s.insts, i.part = k ∧ lastRecord s status i = r)
      ↔ (∃ i ∈ s.insts, i.part = k ∧ i.state = .ended ∧ endRecord s i = r)
        ∨ ∃ i ∈ s.insts, i.part = k ∧ i.state ≠ .ended ∧ endRecord s (failedWith status i) = r := by
    rw [← exists_or]
    refine exists_congr fun i => ?_
    by_cases e : i.state = .ended <;> simp [lastRecord, e]
  rw [mem_resetRecords small, last, ← ended, ← live, ← checks, List.mem_append, List.mem_flatMap, or_assoc, ← exists_or]
  refine or_congr_right (exists_congr fun q => ?_)
  rw [List.mem_range, queueRecords, List.mem_append, List.mem_map, ← and_or_left]

theorem isRecord_of_mem {s : State} {k status : Nat} (small : status < 256) {r : List Byte × List Byte} (hr : r ∈ resetRecords s k status) :
    IsRecord r := by
  rcases (mem_resetRecords small r).1 hr with ⟨i, -, -, rfl⟩ | ⟨q, -, e, -, rfl⟩
  · rw [lastRecord]
    split
    · exact recordOf_length ..
    · exact recordOf_length ..
  · exact recordOf_length ..

end Sys2Proof.Machine
end

section
/-!
PROOFS for O41: the reset sequence ends as R75 says, and the mailbox's partition commands.
-/

namespace Sys2Proof.Machine

/-! ## A partition after its reset -/

theorem resetPart_queues (st : Nat) (q : Option Nat) (p : Partition) : ∀ x ∈ (resetPart st q p).queues,
    x.halt = true ∧ x.armed = none ∧ x.checking = none ∧ x.wait = false := by
  intro x hx
  obtain ⟨e, -, rfl⟩ := List.mem_map.1 hx
  exact ⟨rfl, rfl, rfl, rfl⟩

theorem resetPart_err (st : Nat) {q : Nat} {p : Partition} (hq : q < p.queues.length) :
    ((resetPart st (some q) p).queues.getD q default).err
      = if (p.queues.getD q default).err = 0 then 4 else (p.queues.getD q default).err := by
  simp [resetPart, List.getD_eq_getElem?_getD, hq]

theorem err_of_closing {p r : Partition} (h : p.closing = r.closing) (q : Nat) :
    (p.queues.getD q default).err = (r.queues.getD q default).err := by
  have queues : p.queues.map (fun x => ({ err := x.err } : Queue)) = r.queues.map fun x => { err := x.err } :=
    (congrArg Partition.queues h :)
  exact (congrArg Queue.err (getD_of_map queues q) :)

theorem queues_length_of_closing {p r : Partition} (h : p.closing = r.closing) : p.queues.length = r.queues.length := by
  have number := congrArg (fun x => List.length (Partition.queues x)) h
  simpa only [Partition.closing, List.length_map] using number

section
variable {s : State} {k status st code : Nat} {info q : Option Nat}

/-- The state in which the reset scrubs. -/
def beforeScrub (s : State) (k code : Nat) (info : Option Nat) : State := stopPart s k code (info.getD (freeVal s).toNat)

theorem stoppedAs_beforeScrub (s : State) (k code : Nat) (info : Option Nat) :
    StoppedAs s (scrubPartition (beforeScrub s k code info) k) k := by
  obtain ⟨insts, parts, -, -⟩ := stopPart_kept s k code (info.getD (freeVal s).toNat)
  have scrubbed := shared_scrubPartition (beforeScrub s k code info) k
  have insts' : (scrubPartition (beforeScrub s k code info) k).insts = (beforeScrub s k code info).insts :=
    congrArg (·.2.2.2.1) scrubbed
  have parts' : (scrubPartition (beforeScrub s k code info) k).parts = (beforeScrub s k code info).parts :=
    congrArg (·.2.2.2.2.1) scrubbed
  exact ⟨by rw [insts']; exact insts, by rw [parts']; exact parts⟩

theorem classesOf_beforeScrub (s : State) (k code : Nat) (info : Option Nat) :
    classesOf (beforeScrub s k code info) k = classesOf s k := by
  obtain ⟨-, parts, -, -⟩ := stopPart_kept s k code (info.getD (freeVal s).toNat)
  rw [classesOf, beforeScrub, partArg_of_fixed parts]
  rfl

theorem partArg_beforeScrub (s : State) (k code : Nat) (info : Option Nat) (j : Nat) :
    partArg (beforeScrub s k code info) k j = partArg s k j := by
  obtain ⟨-, parts, -, -⟩ := stopPart_kept s k code (info.getD (freeVal s).toNat)
  exact partArg_of_fixed parts k j

/-- The state in which the reset has written its records. -/
def closed (s : State) (k status code : Nat) (info : Option Nat) : State := closePart (beforeScrub s k code info) k status

theorem closedTo_closed (failed : BitVec.ofNat 8 status ≠ 0) (s : State) (k code : Nat) (info : Option Nat) :
    ClosedTo (scrubPartition (beforeScrub s k code info) k) k status 8 (closed s k status code info) :=
  closedTo_range failed _ k 8

/-- The closed partition has the fixed parts that it had, but for its checks. -/
theorem closing_closed (failed : BitVec.ofNat 8 status ≠ 0) (s : State) (k code : Nat) (info : Option Nat) :
    (closed s k status code info).parts.map Partition.closing = s.parts.map Partition.closing := by
  have fixed : ∀ l : List Partition, l.map Partition.closing = (l.map Partition.fixed).map Partition.closing := fun l => by
    rw [List.map_map]
    exact List.map_congr_left fun p _ => (closing_fixed p).symm
  rw [(closedTo_closed failed s k code info).parts, fixed, (stoppedAs_beforeScrub s k code info).parts, ← fixed]

/-- The reset leaves the closed state but for what it announces and the priorities. -/
theorem partitionReset_frame (s : State) (k status st code : Nat) (info q : Option Nat) :
    (partitionReset s k status st code info q).parts = (closed s k status code info).parts.modify k (resetPart st q)
      ∧ (partitionReset s k status st code info q).insts = (closed s k status code info).insts
      ∧ (partitionReset s k status st code info q).ctr = (closed s k status code info).ctr
      ∧ (partitionReset s k status st code info q).mem = (closed s k status code info).mem
      ∧ (partitionReset s k status st code info q).cls.map ClassState.stood = (closed s k status code info).cls.map ClassState.stood
      ∧ OutMsg.msix (.vf k) 8 ∈ (partitionReset s k status st code info q).out := by
  rw [partitionReset_eq, ← beforeScrub, ← closed]
  obtain ⟨parts, insts, ctr, mem, cls, out⟩ := announce_frame (closed s k status code info) k st q (freeVal s).toNat
  generalize announce (closed s k status code info) k st q (freeVal s).toNat = u at parts insts ctr mem cls out
  have prio := prioOnly_relend u
  have parts' : (relend u).parts = u.parts := (congrArg State.parts prio.frame :)
  have insts' : (relend u).insts = u.insts := (congrArg State.insts prio.frame :)
  have ctr' : (relend u).ctr = u.ctr := (congrArg State.ctr prio.frame :)
  have mem' : (relend u).mem = u.mem := (congrArg State.mem prio.frame :)
  have out' : (relend u).out = u.out := (congrArg State.out prio.frame :)
  exact ⟨parts'.trans parts, insts'.trans insts, ctr'.trans ctr, mem'.trans mem, prio.cls.trans (by rw [cls]), by rwa [out']⟩

theorem length_closed (failed : BitVec.ofNat 8 status ≠ 0) (s : State) (k code : Nat) (info : Option Nat) :
    (closed s k status code info).parts.length = s.parts.length := by
  have len := congrArg List.length (closing_closed failed s k code info)
  rwa [List.length_map, List.length_map] at len

theorem getPart_partitionReset (failed : BitVec.ofNat 8 status ≠ 0) (st code : Nat) (info q : Option Nat) (hk : k < s.parts.length) :
    getPart (partitionReset s k status st code info q) k = resetPart st q (getPart (closed s k status code info) k) := by
  have here : k < (closed s k status code info).parts.length := by rwa [length_closed failed]
  rw [getPart, (partitionReset_frame s k status st code info q).1, getD_modify, if_pos ⟨rfl, here⟩, ← getPart]

/-- Memory from 2^39 on after the reset. -/
theorem readByte_partitionReset (failed : BitVec.ofNat 8 status ≠ 0) (st : Nat) (q : Option Nat) (wf : Memory.wf s.mem)
    (nodup : (s.insts.map (·.num)).Nodup) : Memory.wf (partitionReset s k status st code info q).mem
      ∧ ∀ a, 2 ^ 39 ≤ a → readByte (partitionReset s k status st code info q) a
        = ((List.range 8).flatMap (queueRecords (scrubPartition (beforeScrub s k code info) k) k status)).foldl (recordByte a)
            (if classCell (classesOf s k) a then 0 else ((endedInsts s k).map (endRecord s)).foldl (recordByte a) (readByte s a)) := by
  obtain ⟨-, -, -, stops⟩ := stopPart_kept s k code (info.getD (freeVal s).toNat)
  obtain ⟨-, -, -, -, rs, closes, records⟩ := closedTo_closed failed s k code info
  obtain ⟨-, -, -, mem, -, -⟩ := partitionReset_frame s k status st code info q
  have wf1 : Memory.wf (beforeScrub s k code info).mem := stops.wf wf
  have wf2 := wf_scrubPartition k wf1
  obtain rfl := records ((stoppedAs_beforeScrub s k code info).nodup nodup)
  refine ⟨by rw [mem]; exact closes.recorded.wf wf2, fun a ha => ?_⟩
  have last : readByte (partitionReset s k status st code info q) a = readByte (closed s k status code info) a := by
    rw [readByte, mem]
    rfl
  rw [last, closes.recorded.bytes wf2 a ha, readByte_scrubPartition, classesOf_beforeScrub, beforeScrub, stops.bytes wf a ha]

theorem resetDone_partitionReset (failed : BitVec.ofNat 8 status ≠ 0) (small : status < 256) (st code : Nat) (info q : Option Nat)
    (hk : k < s.parts.length) (queues : ∀ i ∈ s.insts, i.queue < 8) :
    ResetDone s (partitionReset s k status st code info q) k status st := by
  obtain ⟨-, insts, ctr, -, cls, out⟩ := partitionReset_frame s k status st code info q
  have shut := closedTo_closed failed s k code info
  have stopped := stoppedAs_beforeScrub s k code info
  obtain ⟨rs, closes, -⟩ := shut.closes
  have part := getPart_partitionReset failed st code info q hk
  refine ⟨congrArg Partition.state part, fun x hx => ?_, fun i hi hp => ?_, fun h hr => ?_, out, fun c hc here => ?_,
    fun wf nodup aligned => ?_⟩
  · rw [part] at hx
    exact resetPart_queues _ _ _ x hx
  · rw [insts] at hi
    obtain ⟨there, still⟩ := shut.insts i hi
    obtain ⟨j, hj, -, same⟩ := (stopped.exists_insts (P := fun j => j.queue = i.queue) fun _ => Iff.rfl).1 ⟨i, there, rfl⟩
    exact still ⟨hp, same ▸ queues j hj⟩
  · rw [ctrGet, ctr, closes.ctr]
    refine ctrGet_scrubPartition ?_
    rwa [partArg_beforeScrub, partArg_beforeScrub]
  · have len : (beforeScrub s k code info).cls.length = s.cls.length := (stopPart_kept ..).2.2.1
    have stood := getCls_scrubPartition (s := beforeScrub s k code info) (k := k) (by rwa [classesOf_beforeScrub]) (len ▸ here)
    have same := getD_of_map (cls.trans closes.cls) c
    have all := same.trans stood
    simp only [ClassState.stood, Prod.mk.injEq] at all
    exact all
  · obtain ⟨wf', bytes⟩ := readByte_partitionReset (info := info) (code := code) (k := k) failed st q wf nodup
    have written := mem_written small stopped nodup queues
    have record : ∀ x ∈ resetRecords s k status, IsRecord x := fun x hx => isRecord_of_mem small hx
    have cell : ∀ a, 2 ^ 52 ≤ a → a < 2 ^ 56 → classCell (classesOf s k) a = true →
        readByte (partitionReset s k status st code info q) a = 0 := fun a lo hi scrubbed => by
      rw [bytes a (by omega), if_pos scrubbed]
      refine records_outside (fun x hx => ?_) 0
      have hx := (written x).1 (List.mem_append_right _ hx)
      exact not_inRecord_cell (record x hx) (aligned x hx) lo hi
    refine ⟨fun c hc p off hp hoff => ?_, fun c hc off hoff => ?_, fun r hr some_ alone => ?_⟩
    · have c40 : c < 40 := List.mem_range.1 (List.mem_filter.1 hc).1
      obtain ⟨scrubbed, lo, hi⟩ := classCell_tower hc c40 hp hoff
      exact cell _ lo (by omega) scrubbed
    · have c40 : c < 40 := List.mem_range.1 (List.mem_filter.1 hc).1
      obtain ⟨scrubbed, lo, hi⟩ := classCell_scratch hc c40 hoff
      exact cell _ lo hi scrubbed
    · have len : r.2.length = 16 := (record r hr).trans (if_neg some_)
      rw [readBytes_eq _ _ wf']
      refine List.ext_getElem (by simp [len]) fun j hj hj' => ?_
      have at_ : InRecord (hostAddr (entCpl r.1) + j) r := ⟨by omega, by omega⟩
      have high : 2 ^ 39 ≤ hostAddr (entCpl r.1) := by
        unfold hostAddr hostBase
        split <;> omega
      have host := classCell_host (record r hr) (aligned r hr) at_ (classesOf s k)
      rw [List.getElem_map, List.getElem_range, bytes _ (by omega), host, if_neg Bool.false_ne_true, ← List.foldl_append,
        records_inside ((written r).2 hr) at_]
      · rw [Nat.add_sub_cancel_left, List.getD_eq_getElem _ _ hj']
      · intro x hx inx
        have hx := (written x).1 hx
        exact alone x hx (entCpl_of_overlap (record r hr) (record x hx) (aligned r hr) (aligned x hx) at_ inx)

/-- The watchdog count and a queue's ERR after the reset. -/
theorem partitionReset_part (failed : BitVec.ofNat 8 status ≠ 0) (st code : Nat) (info : Option Nat) {q : Nat} (hk : k < s.parts.length)
    (hq : q < (getPart s k).queues.length) : (getPart (partitionReset s k status st code info (some q)) k).wdcnt = (getPart s k).wdcnt
      ∧ (getQueue (partitionReset s k status st code info (some q)) k q).err
        = if (getQueue s k q).err = 0 then 4 else (getQueue s k q).err := by
  have closing := closing_closed failed s k code info
  have part := getPart_partitionReset failed st code info (some q) hk
  have same : (getPart (closed s k status code info) k).closing = (getPart s k).closing := getD_of_map closing k
  have here : q < (getPart (closed s k status code info) k).queues.length := by rwa [queues_length_of_closing same]
  constructor
  · exact (congrArg Partition.wdcnt part).trans (congrArg Partition.wdcnt same :)
  · rw [getQueue, part, resetPart_err st here, err_of_closing same]
    rfl

end

end Sys2Proof.Machine
end

section
/-!
PROOFS for O41: the clauses of the partition commands (R26, R61, R74, R75, R78, R80, R81, R85, R140, R229, R486).
-/

namespace Sys2Proof.Machine

/-! ## PART_RESET and the hall monitor (R74, R75) -/

theorem exec_partReset_refused {s : State} (busy : mailboxBusy s 0x03 = true) (empty : (getPart s (mbarg s 0)).state = 0) :
    exec .partReset s = .next (MailboxEnds s 2) := by
  rw [← mailboxDone_eq]
  change execPartReset s = _
  rw [execPartReset, busy, empty, Bool.not_true, if_neg Bool.false_ne_true, beq_self_eq_true, Bool.or_true, if_pos rfl]

theorem exec_partReset {s : State} (busy : mailboxBusy s 0x03 = true) (names : namesPart s = true)
    (made : (getPart s (mbarg s 0)).state ≠ 0) :
    exec .partReset s = .next (MailboxEnds (partitionReset s (mbarg s 0) 0x07 5 0x26 none none) 0) := by
  rw [← mailboxDone_eq]
  change execPartReset s = _
  rw [execPartReset, busy, names, beq_false_of_ne made]
  rfl

/-- The end of the command changes nothing that the reset leaves. -/
theorem resetDone_mailbox {s t : State} {k status st : Nat} (h : ResetDone s t k status st) (n : Nat) :
    ResetDone s (MailboxEnds t n) k status st := by
  obtain ⟨state, queues, insts, ctr, out, rest⟩ := h
  exact ⟨state, queues, insts, ctr, List.mem_append_left _ out, rest⟩

/-- A partition whose watchdog has counted. -/
def watched (p : Partition) : Partition := { p with wdcnt := min 255 (p.wdcnt + 1) }

theorem getPart_watched {s : State} {k : Nat} (hk : k < s.parts.length) : getPart (modPart s k watched) k = watched (getPart s k) :=
  getPart_modPart watched hk

theorem resetDone_watched {s t : State} {k status st : Nat} (hk : k < s.parts.length) (h : ResetDone (modPart s k watched) t k status st) :
    ResetDone s t k status st := by
  have args : ∀ j, partArg (modPart s k watched) k j = partArg s k j := fun j => by
    rw [partArg, getPart_watched hk]
    rfl
  have classes : classesOf (modPart s k watched) k = classesOf s k := by
    rw [classesOf, args]
    rfl
  have records : resetRecords (modPart s k watched) k status = resetRecords s k status := by
    have queues : ∀ q, getQueue (modPart s k watched) k q = getQueue s k q := fun q => by
      rw [getQueue, getPart_watched hk]
      rfl
    simp only [resetRecords, queues, getPart_watched hk]
    rfl
  obtain ⟨state, queues, insts, ctr, out, stood, rest⟩ := h
  rw [args, args] at ctr
  rw [classes] at stood rest
  rw [records] at rest
  exact ⟨state, queues, insts, ctr, out, stood, rest⟩

theorem exec_hallMonitorExpiry {s : State} {k q : Nat} (runs : (getPart s k).state = 1) (hq : q < 8) (due : (getQueue s k q).hmDue = true) :
    exec (.hallMonitorExpiry k q) s = .next (partitionReset (modPart s k watched) k 0x05 3 0x26 (some q) (some q)) := by
  change execHallMonitorExpiry k q s = _
  rw [execHallMonitorExpiry, if_pos ⟨runs, hq, due⟩]
  rfl

theorem exec_hallMonitorExpiry_not {s : State} {k q : Nat} (due : (getQueue s k q).hmDue = false) :
    exec (.hallMonitorExpiry k q) s = .next s := by
  change execHallMonitorExpiry k q s = _
  exact if_neg fun x => absurd (due.symm.trans x.2.2) Bool.false_ne_true

theorem lt_of_hmDue {s : State} {k q : Nat} (due : (getQueue s k q).hmDue = true) : q < (getPart s k).queues.length := by
  by_contra out
  rw [getQueue, List.getD_eq_default _ _ (Nat.not_lt.1 out)] at due
  exact Bool.false_ne_true due

theorem hallMonitor_done {s : State} {k q : Nat} (runs : (getPart s k).state = 1) (hq : q < 8) (queues : ∀ i ∈ s.insts, i.queue < 8)
    (due : (getQueue s k q).hmDue = true) : ∃ t, exec (.hallMonitorExpiry k q) s = .next t ∧ ResetDone s t k 0x05 3
      ∧ (getPart t k).wdcnt = min 255 ((getPart s k).wdcnt + 1)
      ∧ (getQueue t k q).err = if (getQueue s k q).err = 0 then 4 else (getQueue s k q).err := by
  have hk : k < s.parts.length := lt_of_state (by rw [runs]; decide)
  have here : k < (modPart s k watched).parts.length := by
    rw [modPart, List.length_modify]
    exact hk
  have failed : BitVec.ofNat 8 0x05 ≠ 0 := by decide
  have queue : getQueue (modPart s k watched) k q = getQueue s k q := by
    rw [getQueue, getPart_watched hk]
    rfl
  obtain ⟨wdcnt, err⟩ := partitionReset_part failed 3 0x26 (some q) here (q := q) (by
    rw [getPart_watched hk]
    exact lt_of_hmDue due)
  refine ⟨_, exec_hallMonitorExpiry runs hq due, resetDone_watched hk (resetDone_partitionReset failed (by decide) 3 0x26 _ _ here queues),
    ?_, ?_⟩
  · rw [wdcnt, getPart_watched hk]
    rfl
  · rw [err, queue]

/-! ## Keys, PCAP, BBCTL (R81, R85, R229) -/

theorem exec_keyProvisioning {s : State} (k : Nat) (k1 k2 ik : BitVec 256) :
    exec (.keyProvisioning k k1 k2 ik) s = .next (if s.spdm.established = true ∧ 1 ≤ k ∧ k ≤ 16 ∧ (getPart s k).state = 0
      then modPart s k fun p => { p with keys := some (k1, k2, ik) } else s) := by
  change execKeyProvisioning k k1 k2 ik s = _
  rw [execKeyProvisioning, apply_ite Host.Outcome.next]
  simp only [Bool.and_eq_true, decide_eq_true_eq, beq_iff_eq, and_assoc]

theorem exec_bbctlWrite (d : Nat) (v : W64) (s : State) : exec (.bbctlWrite d v) s = .next (modDie s d fun x =>
    { x with frz := v.getLsbD 0, lost := if v.getLsbD 0 = true ∧ x.frz = false then 0 else x.lost }) := by
  change execBbctlWrite d v s = _
  simp only [execBbctlWrite, Bool.and_eq_true, Bool.not_eq_true']

/-! ## The mailbox's arguments -/

theorem mod_two_of_getLsbD {v : W64} (h : v.getLsbD 0 = false) : v.toNat % 2 = 0 := by
  have bit : v.toNat.testBit 0 = false := h
  rw [Nat.testBit_zero, decide_eq_false_iff_not] at bit
  omega

theorem role_of_getLsbD {v : W64} (h : v.toNat < 2) : (v.toNat == 1) = v.getLsbD 0 := by
  rw [BitVec.getLsbD, Nat.testBit_zero]
  have : v.toNat = 0 ∨ v.toNat = 1 := by omega
  rcases this with e | e <;> rw [e] <;> rfl

/-- Settles O41: a lemma for each command; for the reset its phases, what each leaves, and the bytes under the records it writes. -/
theorem partitionCommands : Obligations.PartitionCommands := by
  refine ⟨fun s busy hl => ⟨fun bad => ?_, fun ok taken => ?_, fun ok free => partCreate_done busy hl ok free⟩,
    fun s busy => ⟨fun bad => exec_partDestroy_refused busy bad, fun names stopped => partDestroy_done busy names stopped⟩,
    fun s busy names queues => ⟨fun empty => exec_partReset_refused busy empty, fun made => ?_⟩,
    fun s busy names => ⟨fun runs => exec_partRearm_refused busy runs, fun stopped => ?_⟩,
    fun k q s runs hq queues => ⟨fun due => hallMonitor_done runs hq queues due, fun due => exec_hallMonitorExpiry_not due⟩,
    fun s busy cabled peer role set even args => ?_, fun k k1 k2 ik s secure lo hi empty => ?_, fun k k1 k2 ik s open_ => ?_,
    fun v s => rfl, fun d v s => exec_bbctlWrite d v s⟩
  · rw [← mailboxDone_eq]
    change execPartCreate s = _
    rw [execPartCreate, busy, bad]
    rfl
  · rw [← mailboxDone_eq]
    change execPartCreate s = _
    rw [execPartCreate, busy, ok, taken]
    rfl
  · have hk := lt_of_state made
    exact ⟨_, exec_partReset busy names made, resetDone_mailbox
      (resetDone_partitionReset (by decide) (by decide) 5 0x26 none none hk queues) 0, rfl⟩
  · have hk := lt_of_state (Nat.ne_of_gt (Nat.lt_of_lt_of_le (show 0 < 3 by decide) stopped))
    exact ⟨_, exec_partRearm busy names stopped, getPart_rearmed hk,
      fun j hj => rearmed_pairSet s hj (Nat.lt_succ_of_le (namesPart_place names).2), rearmed_frame s _⟩
  · refine ⟨_, exec_pairConfig busy cabled peer role set (mod_two_of_getLsbD even) args, rfl, role_of_getLsbD role, fun k hk => ?_, rfl, rfl⟩
    exact (congrArg Partition.paired (getPart_configured hk)).trans (paired_pairedPart ..)
  · rw [exec_keyProvisioning, if_pos ⟨secure, lo, hi, empty⟩]
  · rw [exec_keyProvisioning, if_neg fun x => absurd (open_.symm.trans x.1) Bool.false_ne_true]

end Sys2Proof.Machine
end

section
/-!
PROOFS for O26: a later pass of a load (R415, R416) over a memory whose bytes are listed out of order.
-/

namespace Sys2Proof.Machine

/-- An issued VLD takes the lines of its next pass, and waits while a later pass is to come (R416). -/
theorem exec_wordCompletion_vld {h : Hdr} {f : FVM} {s : State} {c : Nat} {o : InFlight} (under : UnderWay s c o (.vld h f))
    (eng : o.eng = .v) (more : o.prog < lastPass o.segs) : exec (.wordCompletion c o.id) s
      = .next (modOp s c o.id fun g => { g with prog := o.prog + 1, segs := loadPass s c o.prog o.segs }) := by
  obtain ⟨stands, word, issued, ⟨live, thawed⟩, clean⟩ := under
  have advance : advanceV s c o
      = modOp s c o.id fun g => { g with prog := o.prog + 1, segs := loadPass s c o.prog o.segs } := by
    rw [advanceV, word]
    change vmAdvance s c o f true = _
    simp [vmAdvance, passPoison, clean, vmPass, Nat.not_le.2 more]
  have queue : queueOf (.vld h f) = none := rfl
  have shift : shiftFields (.vld h f) = none := rfl
  change execWordCompletion c o.id s = _
  rw [execWordCompletion, stands]
  simp [word, queue, shift, issued, live, thawed, eng, advance]

/-- An entry of the replay queue after a change of it. -/
theorem findOp_modOp {s : State} {c : Nat} {o : InFlight} {g : InFlight → InFlight} (hc : c < s.cls.length)
    (stands : findOp s c o.id = some o) (keeps : ∀ w, (g w).id = w.id) : findOp (modOp s c o.id g) c o.id = some (g o) := by
  have same : ((fun w : InFlight => decide (w.id = o.id)) ∘ fun w => if w.id = o.id then g w else w)
      = fun w => decide (w.id = o.id) := by
    funext w
    by_cases h : w.id = o.id <;> simp [h, keeps]
  rw [findOp, getCls_modOp _ _ hc, List.find?_map, same, show List.find? _ (getCls s c).inflight = some o from stands]
  simp

/-- The lines that an entry is given can be told from the state after. -/
theorem modOp_segs_inj {s : State} {c n : Nat} {o : InFlight} {as bs : List Strip} (hc : c < s.cls.length)
    (stands : findOp s c o.id = some o) (same : modOp s c o.id (fun g => { g with prog := n, segs := as })
      = modOp s c o.id fun g => { g with prog := n, segs := bs }) : as = bs := by
  have entry := congrArg (findOp · c o.id) same
  simp only [findOp_modOp hc stands, implies_true, Option.some.injEq] at entry
  exact congrArg InFlight.segs entry

/-- The first two bytes of desk 0's tower, the second listed before the first. -/
def unsortedBytes : List Host.Cell := [(2 ^ 52 + 1, 7), (2 ^ 52, 5)]

/-- A VLD after its first pass: desk 0's line 0 is due now, its line 1 in the pass after. -/
def pendingLoad : InFlight :=
  { id := 0, ord := 0, run := 0, eng := .v, instr := .vld default default, prog := 1
    segs := [{ pass := 1, desk := 0, unit := 0, off := 0, mask := 1 },
             { pass := 2, desk := 0, unit := 1, off := 64, mask := 1, line := List.replicate 64 0 }] }

/-- Class 0 with the load under way over these bytes. -/
def unsortedLoad : State :=
  { State.reset with
    cls := State.reset.cls.modify 0 fun k => { k with live := true, inflight := [pendingLoad] }
    mem := unsortedBytes }

theorem unsortedLoad_underWay : UnderWay unsortedLoad 0 pendingLoad (.vld default default) :=
  ⟨by decide +kernel, rfl, rfl, by decide +kernel, rfl⟩

theorem unsortedLoad_stripsOk : StripsOk unsortedLoad 0 (taken unsortedLoad 0 1 pendingLoad.segs) := by
  have lines : ∀ g ∈ taken unsortedLoad 0 1 pendingLoad.segs, g.off % 64 = 0 ∧ g.off + 64 ≤ 2 ^ 25 ∧ g.desk < 32 ∧ g.mask < 2 ^ 16
      ∧ g.p = none ∧ g.line.length = 64 := by decide +kernel
  have cold : hotOn unsortedLoad 0 = false := by decide +kernel
  refine ⟨fun g hg => ?_, fun g hg => (lines g hg).2.2.2.2.2⟩
  obtain ⟨aligned, below, desk, mask, clean, -⟩ := lines g hg
  exact ⟨⟨aligned, by decide, by decide, by simpa [cold] using below⟩, desk, mask, clean⟩

/-- Taken as a list of consecutive bytes the line begins with 0, taken byte by byte with the 5 that is listed. -/
theorem unsortedLoad_lines : (loadPass unsortedLoad 0 1 pendingLoad.segs).map (·.line.head?) = [some 0, some 0]
    ∧ (taken unsortedLoad 0 1 pendingLoad.segs).map (·.line.head?) = [some 5, some 0] := by decide +kernel

/-- Refutes O26: the clause of a load's later passes asks for no canonical memory (`Memory.wf`), where the clauses of its first pass
and of the stores do. The statement's line has each byte as the memory lists it (`readByte`); the model walks the consecutive bytes
in rising order (`readBytes`), and on bytes that are listed out of order the two differ. -/
theorem not_vectorTowerWords : ¬ Obligations.VectorTowerWords := by
  unfold Obligations.VectorTowerWords
  rintro ⟨-, -, ⟨-, later⟩, -⟩
  obtain ⟨pass, -⟩ := later default default unsortedLoad 0 pendingLoad unsortedLoad_underWay rfl unsortedLoad_stripsOk
    (by decide) (by decide +kernel)
  have inRange : 0 < unsortedLoad.cls.length := by decide
  have same := pass ⟨_, .tail _ (.head _), by decide⟩
  rw [exec_wordCompletion_vld unsortedLoad_underWay rfl (by decide)] at same
  have lines : loadPass unsortedLoad 0 1 pendingLoad.segs = taken unsortedLoad 0 1 pendingLoad.segs :=
    modOp_segs_inj inRange unsortedLoad_underWay.stands (Host.Outcome.next.inj same)
  obtain ⟨walked, listed⟩ := unsortedLoad_lines
  rw [lines, listed] at walked
  exact absurd walked (by decide)

end Sys2Proof.Machine
end

section
/-!
PROOFS for O7: a system cause that has its node killed, and the words that push and pop the return stack (R133, R361).
-/

namespace Sys2Proof.Machine

/-! ## A system cause that kills -/

@[simp] theorem getCls_killOn (s : State) (c cause j : Nat) : getCls (killOn s c cause) j = getCls s j := by
  unfold killOn
  split <;> rfl

@[simp] theorem readByte_killOn (s : State) (c cause a : Nat) : readByte (killOn s c cause) a = readByte s a := by
  unfold killOn
  split <;> rfl

theorem killOn_of_team {s : State} {c : Nat} {tm : Team} (ht : teamOf s c = some tm) (cause : Nat) :
    killOn s c cause = requestKill s tm.inst tm.node cause := by
  rw [killOn, ht]

theorem killOn_kills {s : State} {c : Nat} {tm : Team} (ht : teamOf s c = some tm) (cause : Nat) :
    (killOn s c cause).kills = ⟨tm.inst, tm.node, BitVec.ofNat 8 cause⟩ :: s.kills := by
  rw [killOn_of_team ht]
  rfl

theorem killOn_agenda {s : State} {c : Nat} {tm : Team} (ht : teamOf s c = some tm) (cause : Nat) :
    (killOn s c cause).agenda = .event (.nodeKill tm.inst tm.node (BitVec.ofNat 8 cause)) :: s.agenda := by
  rw [killOn_of_team ht]
  rfl

theorem getCls_systemCause {s : State} {c : Nat} (code : Nat) (e : BitVec 3) (ord : Nat) (tinfo : W64) (hc : c < s.cls.length) :
    getCls (systemCause s c code e ord tinfo) c
      = { getCls s c with tcode := BitVec.ofNat 8 code, teng := e, tord := BitVec.ofNat 48 ord, tinfo := tinfo } :=
  getCls_modCls s c _ hc

/-- A class with a system cause that is recorded and has its node killed. -/
theorem getCls_killOn_systemCause {s : State} {c : Nat} (code : Nat) (e : BitVec 3) (ord : Nat) (tinfo : W64) (n : Nat) (unit : Byte)
    (detail : W64) (cause : Nat) (hc : c < s.cls.length) :
    getCls (killOn (bbClass (systemCause s c code e ord tinfo) c n unit detail) c cause) c
      = { getCls s c with tcode := BitVec.ofNat 8 code, teng := e, tord := BitVec.ofNat 48 ord, tinfo := tinfo } :=
  (getCls_killOn ..).trans (getCls_systemCause code e ord tinfo hc)

/-! ## The control-flow fault -/

theorem getCls_controlFlowFault {s : State} {c : Nat} (addr : Nat) (crc : BitVec 16) (hc : c < s.cls.length) :
    getCls (controlFlowFault s c addr crc) c
      = { getCls s c with tcode := 0x22, teng := 0, tord := BitVec.ofNat 48 (getCls s c).ws.ord, tinfo := BitVec.ofNat 64 addr } :=
  getCls_killOn_systemCause 0x22 0 _ _ _ _ _ _ hc

/-- The S walker stands where it stood, so that its block signature does not move on. -/
theorem runWord_stop_s {i : Instr} {s t : State} {c : Nat} (R : Ready i s c .s) {body : State → Res} (hb : body s = .stop t)
    (stays : (getCls t c).ws = (getCls s c).ws) : runWord i body s = .next t := by
  obtain ⟨b, h⟩ := runWord_ready R body
  rw [h, hb]
  simp [finish, stays]

theorem cfFault_cls {s : State} {c : Nat} {e : Eng} (h : s.focus = .cls c e) :
    cfFault s = .stop (controlFlowFault s c (wordAddr (curWi s)) 0) := by
  rw [cfFault, h]

/-- A ready word whose body comes to the control-flow fault raises it. -/
theorem controlFlowFault_of_body {i : Instr} {s : State} {c : Nat} (R : Ready i s c .s) {body : State → Res}
    (hx : exec i s = runWord i body s) (hb : body s = cfFault s) : ControlFlowFault i s c := by
  intro tm ht
  refine ⟨_, hx.trans (runWord_stop_s R (hb.trans (cfFault_cls R.focus)) (controlFlowFault_ws ..)), ?_⟩
  have cls := getCls_controlFlowFault (wordAddr (curWi s)) 0 R.inRange
  exact ⟨killOn_kills (by exact ht) 0x12, killOn_agenda (by exact ht) 0x12, by rw [cls], by rw [cls], by rw [cls],
    fun a => readByte_killOn ..⟩

/-! ## Register targets and the return stack -/

theorem jumpTo_of_good {s : State} {a : Nat} (r : State → Nat → Res) (good : a < 2 ^ 56 ∧ a % 64 < 6) :
    jumpTo s a r = r s (6 * (a / 64) + a % 64) := by
  rw [jumpTo, if_pos (by simpa [isWordAddr] using good)]
  rfl

theorem jumpTo_of_bad {s : State} {c a : Nat} {e : Eng} (h : s.focus = .cls c e) (r : State → Nat → Res)
    (bad : ¬ (a < 2 ^ 56 ∧ a % 64 < 6)) : jumpTo s a r = cfFault s := by
  rw [jumpTo, if_neg (by simpa [isWordAddr] using bad), h, cfFault_cls h]

theorem setRstack_cls {s : State} {c : Nat} (h : s.focus = .cls c .s) (l : List Nat) : setRstack s l = withStack s c l := by
  rw [setRstack, h]
  rfl

theorem callTo_of_room {s : State} {c : Nat} (h : s.focus = .cls c .s) (room : (getCls s c).ws.rstack.length < 16) (n : Nat) :
    callTo s n = .jump (withStack s c (((getCls s c).ws.wi + 1) :: (getCls s c).ws.rstack)) n := by
  rw [callTo, rstackOf_cls h, curWi_cls h, setRstack_cls h]
  exact if_pos room

theorem callTo_of_full {s : State} {c : Nat} (h : s.focus = .cls c .s) (full : 16 ≤ (getCls s c).ws.rstack.length) (n : Nat) :
    callTo s n = cfFault s := by
  rw [callTo, rstackOf_cls h]
  exact if_neg (Nat.not_lt.2 full)

/-- A ready word whose body goes to word `n` with another return stack goes there with it. -/
theorem executesTo_withStack {i : Instr} {s : State} {c n : Nat} {l : List Nat} (R : Ready i s c .s) {body : State → Res}
    (hx : exec i s = runWord i body s) (hb : body s = .jump (withStack s c l) n) : ExecutesTo i s c .s (withStack s c l) n := by
  rw [ExecutesTo, hx]
  exact runWord_jump R hb (by simpa [withStack] using R.inRange)

/-! ## What the bodies come to -/

/-- The body of RET (R361). -/
def retBody (s : State) : Res :=
  match rstackOf s with
  | [] => cfFault s
  | n :: r => .jump (setRstack s r) n

theorem exec_ret (h : Hdr) (s : State) : exec (.ret h) s = runWord (.ret h) retBody s := rfl

theorem retBody_cons {s : State} {c n : Nat} {r : List Nat} (h : s.focus = .cls c .s) (top : (getCls s c).ws.rstack = n :: r) :
    retBody s = .jump (withStack s c r) n := by
  rw [retBody, show rstackOf s = n :: r from (rstackOf_cls h).trans top, ← setRstack_cls h]

theorem retBody_nil {s : State} {c : Nat} (h : s.focus = .cls c .s) (empty : (getCls s c).ws.rstack = []) :
    retBody s = cfFault s := by
  rw [retBody, show rstackOf s = [] from (rstackOf_cls h).trans empty]

/-- Settles O7: each word by what its body comes to. -/
theorem callsAndReturns : Obligations.CallsAndReturns := by
  unfold Obligations.CallsAndReturns
  refine ⟨fun h f s c R room => ?_, fun h f s c R room below slot => ?_, fun h s c n r R top => ?_, fun h f s c R full => ?_,
    fun h s c R empty => ?_, fun h f s c R bad => ?_, fun h f s c R bad => ?_⟩
  · refine executesTo_withStack R rfl ?_
    rw [curWi_cls R.focus]
    exact callTo_of_room R.focus room _
  · refine executesTo_withStack R rfl ?_
    rw [sget_cls R.focus, jumpTo_of_good _ ⟨below, slot⟩]
    exact callTo_of_room R.focus room _
  · exact executesTo_withStack R (exec_ret h s) (retBody_cons R.focus top)
  · exact controlFlowFault_of_body R rfl (callTo_of_full R.focus full _)
  · exact controlFlowFault_of_body R (exec_ret h s) (retBody_nil R.focus empty)
  · refine controlFlowFault_of_body R rfl ?_
    rw [sget_cls R.focus]
    by_cases good : (regS s c f.a).toNat < 2 ^ 56 ∧ (regS s c f.a).toNat % 64 < 6
    · rw [jumpTo_of_good _ good]
      exact callTo_of_full R.focus (bad.resolve_left (not_not_intro good)) _
    · exact jumpTo_of_bad R.focus _ good
  · refine controlFlowFault_of_body R rfl ?_
    rw [sget_cls R.focus]
    exact jumpTo_of_bad R.focus _ bad

end Sys2Proof.Machine
end

section
/-!
PROOFS for O47: what a movement of data leaves of the classes, line by line (R119, R130, R236, R350).
-/

namespace Sys2Proof.Machine

/-- A class without what a movement of data may change of it: dirty granules and fetch line buffers (R119, R350). -/
def ClassState.unmoved (k : ClassState) : ClassState := { k with dirty := [], fetchBuf := [] }

/-- Data have moved from `s` to `t`: the classes stand but for dirty granules and fetch line buffers. -/
def DataOnly (s t : State) : Prop := t.cls.map ClassState.unmoved = s.cls.map ClassState.unmoved

theorem DataOnly.refl (s : State) : DataOnly s s := rfl

theorem DataOnly.trans {s t u : State} (h : DataOnly s t) (g : DataOnly t u) : DataOnly s u := Eq.trans g h

theorem DataOnly.of_cls {s t : State} (h : t.cls = s.cls) : DataOnly s t := by rw [DataOnly, h]

theorem DataOnly.length {s t : State} (h : DataOnly s t) : t.cls.length = s.cls.length := by
  simpa using congrArg List.length h

theorem DataOnly.inflight {s t : State} (h : DataOnly s t) (c : Nat) : (getCls t c).inflight = (getCls s c).inflight :=
  (congrArg ClassState.inflight (getD_of_map h c) :)

theorem dataOnly_modCls (s : State) (c : Nat) {f : ClassState → ClassState} (h : ∀ k, (f k).unmoved = k.unmoved) :
    DataOnly s (modCls s c f) := map_modify_same h s.cls c

theorem dataOnly_foldl {α : Type} {f : State → α → State} (h : ∀ s a, DataOnly s (f s a)) (l : List α) (s : State) :
    DataOnly s (l.foldl f s) := by
  induction l generalizing s with
  | nil => exact .refl s
  | cons a l ih => exact (h s a).trans (ih _)

/-- Fetch line buffers with lines of written frames are cleared. -/
theorem map_unmoved_cleared (p : ClassState → Bool) (l : List ClassState) :
    (l.map fun k => if p k then { k with fetchBuf := [] } else k).map ClassState.unmoved = l.map ClassState.unmoved := by
  rw [List.map_map]
  refine List.map_congr_left fun k _ => ?_
  rw [Function.comp]
  split <;> rfl

/-! ## Bytes, poison, tower lines -/

theorem dataOnly_writePhys (s : State) (a : Nat) (bs : List Byte) : DataOnly s (writePhys s a bs) := map_unmoved_cleared _ s.cls

theorem dataOnly_movePoison (s : State) (p : Option Bool) (u : PUnit) : DataOnly s (movePoison s p u) := by
  cases p <;> exact .refl s

theorem dataOnly_writeTower (s : State) (c d off : Nat) (bs : List Byte) : DataOnly s (writeTower s c d off bs) :=
  dataOnly_modCls _ c fun _ => rfl

theorem dataOnly_writeLine (s : State) (c d off : Nat) (bs : List Byte) (p : Option Bool) : DataOnly s (writeLine s c d off bs p) := by
  have T := dataOnly_writeTower s c d (off / 64 * 64) bs
  unfold writeLine
  dsimp only
  split
  · exact T
  · exact T.trans (dataOnly_movePoison ..)

theorem dataOnly_writePart (s : State) (c d off : Nat) (bs : List Byte) (p : Option Bool) : DataOnly s (writePart s c d off bs p) := by
  have T := dataOnly_writeTower s c d off bs
  unfold writePart
  split
  · exact dataOnly_writeLine ..
  · cases p <;> exact T

/-! ## Blocks of a pool (R228) -/

theorem dataOnly_noteSpan (s : State) (a va n : Nat) : DataOnly s (noteSpan s a va n) := by
  have note : ∀ s u va, DataOnly s (noteVa s u va) := fun s u va => by
    unfold noteVa
    split <;> exact .refl s
  unfold noteSpan
  split
  · exact .refl s
  · exact dataOnly_foldl (fun s j => note s _ _) _ s

theorem dataOnly_poolWrite (s : State) (p : Pool) (off : Nat) (bs : List Byte) : DataOnly s (poolWrite s p off bs) :=
  (dataOnly_noteSpan ..).trans (dataOnly_writePhys ..)

theorem dataOnly_popBlock {s t : State} {p : Pool} {b : Nat} (e : popBlock s p = some (b, t)) : DataOnly s t := by
  simp only [popBlock, Option.ite_none_left_eq_some, Option.some.injEq, Prod.mk.injEq] at e
  obtain ⟨-, -, rfl⟩ := e
  exact dataOnly_poolWrite ..

theorem dataOnly_copyBlock (s : State) (p : Pool) (a b : Nat) : DataOnly s (copyBlock s p a b) := by
  unfold copyBlock
  dsimp only
  split
  · exact dataOnly_poolWrite ..
  · exact (dataOnly_poolWrite ..).trans (dataOnly_foldl (fun _ _ => dataOnly_movePoison ..) _ _)

theorem dataOnly_copyOnWrite {s t : State} {c va : Nat} (e : copyOnWrite s c va = some t) : DataOnly s t := by
  unfold copyOnWrite at e
  split at e
  · cases e
    exact .refl s
  · split at e
    · cases e
    next pop =>
      cases e
      -- the block popped and copied, both reference counts, the map entry
      exact (dataOnly_popBlock pop).trans <| (dataOnly_copyBlock ..).trans <| (dataOnly_poolWrite ..).trans <|
        (dataOnly_poolWrite ..).trans (dataOnly_poolWrite ..)

/-! ## Staged writes and shadows (R218, R236) -/

theorem dataOnly_moveTag (s t : State) (a b : Nat) : DataOnly t (moveTag s t a b) := by
  have P := dataOnly_movePoison t (poisonAt s (.phys a)) (.phys b)
  unfold moveTag
  dsimp only
  split <;> exact P

theorem dataOnly_copyFrame (s : State) (a b : Nat) : DataOnly s (copyFrame s a b) := by
  have cleared := map_unmoved_cleared (fun k => k.fetchBuf.any fun l => l.2.1 / 65536 * 65536 == b) s.cls
  unfold copyFrame
  dsimp only
  split
  · exact cleared
  · exact Eq.trans (dataOnly_foldl (fun _ _ => dataOnly_moveTag ..) _ _) cleared

theorem modNode_cls (s : State) (num node : Nat) (f : Node → Node) : (modNode s num node f).cls = s.cls := rfl

theorem setIptEntry_cls (s : State) (t f : Nat) (e : IptEntry) : (setIptEntry s t f e).cls = s.cls := rfl

theorem dataOnly_newShadow (s : State) (t : Team) (x : Nat × Nat) (pa : Nat) : DataOnly s (newShadow s t x pa) := by
  unfold newShadow
  exact (dataOnly_copyFrame ..).trans (.of_cls (by rw [setIptEntry_cls, setIptEntry_cls, modNode_cls]))

theorem dataOnly_stageWrite {s u : State} {t : Team} {c pa va : Nat} {bs : List Byte} {p : Option Bool}
    (e : stageWrite s t c pa va bs p = some u) : DataOnly s u := by
  unfold stageWrite at e
  split at e
  · cases e
  · rw [Option.ite_none_left_eq_some] at e
    obtain ⟨-, e⟩ := e
    cases e
    refine DataOnly.trans ?_ (.of_cls (modNode_cls ..))
    split
    · exact dataOnly_newShadow ..
    · exact .refl s

theorem dataOnly_writePa (s : State) (pa : Nat) (bs : List Byte) (p : Option Bool) : DataOnly s (writePa s pa bs p) := by
  have W := dataOnly_writePhys s pa bs
  unfold writePa
  dsimp only
  split
  · exact W
  · split
    · exact W.trans (dataOnly_movePoison ..)
    · cases p <;> exact W

theorem dataOnly_kernelWrite {s t : State} {c pa va : Nat} {bs : List Byte} {p : Option Bool}
    (e : kernelWrite s c pa va bs p = some t) : DataOnly s t := by
  unfold kernelWrite at e
  split at e
  · exact dataOnly_stageWrite e
  · cases e
    exact dataOnly_writePa ..

/-! ## The ends of a movement -/

theorem dataOnly_writeVa {s t : State} {c va : Nat} {held : List (Nat × Nat)} {bs qs : List Byte} {p q : Option Bool}
    (e : writeVa s c held va bs p = .ok t qs q) : DataOnly s t := by
  unfold writeVa at e
  split at e
  · split at e
    next k =>
      cases e
      exact dataOnly_kernelWrite k
    · cases e
  all_goals cases e

theorem dataOnly_writeView {c : Nat} {held : List (Nat × Nat)} {v : ViewSlot} {tiled : Bool} {qs : List Byte} {p q : Option Bool}
    {t : State} : ∀ {bs : List Byte} {s : State} {o : Nat}, writeView s c held v tiled p bs o = .ok t qs q → DataOnly s t
  | [], _, _, e => by
    cases e
    exact .refl _
  | b :: bs, _, _, e => by
    unfold writeView at e
    split at e
    next w => exact (dataOnly_writeVa w).trans (dataOnly_writeView e)
    · exact dataOnly_writeVa e

theorem dataOnly_writeHandle {s t : State} {c va : Nat} {held : List (Nat × Nat)} {bs qs : List Byte} {p q : Option Bool}
    (e : writeHandle s c held va bs p = .ok t qs q) : DataOnly s t := by
  unfold writeHandle at e
  split at e
  · cases e
  next u copied =>
    have C : DataOnly s u := by
      split at copied
      · exact dataOnly_copyOnWrite copied
      · cases copied
        exact .refl s
    split at e
    · exact C.trans (dataOnly_writeVa e)
    · cases e

theorem dataOnly_writeEnd {s t : State} {c o : Nat} {held : List (Nat × Nat)} {d : End} {bs qs : List Byte} {p q : Option Bool}
    (e : writeEnd s c held d o bs p = .ok t qs q) : DataOnly s t := by
  cases d with
  | tower d k x =>
    cases e
    exact dataOnly_writePart ..
  | mem va => exact dataOnly_writeVa e
  | view i v tiled x => exact dataOnly_writeView e
  | handle va => exact dataOnly_writeHandle e
  | line ls lp =>
    cases e
    exact .refl s
  | none =>
    cases e
    exact .refl s

/-! ## Movements -/

theorem dataOnly_moveBytes {p : Port} {m : Move} {s t : State} {x y : Measure} {o n : Nat}
    (e : moveBytes p m s x o n = .ok t y) : DataOnly s t := by
  unfold moveBytes at e
  split at e
  case h_3 =>
    cases e
    exact .refl s
  case h_4 =>
    split at e
    case h_3 =>
      cases e
      exact .refl s
    case h_4 w =>
      cases e
      exact dataOnly_writeEnd w
    all_goals cases e
  all_goals cases e

theorem dataOnly_moveUpTo (p : Port) (m : Move) (n : Nat) : ∀ (o : Nat) (f : Flow), DataOnly f.s (moveUpTo p m n o f).1.s := by
  induction n with
  | zero => exact fun _ f => .refl f.s
  | succ n ih =>
    intro o f
    unfold moveUpTo
    split
    next b => exact (dataOnly_moveBytes b).trans (ih ..)
    all_goals exact .refl f.s

theorem dataOnly_moveLines (p : Port) (m : Move) (n : Nat) : ∀ (o : Nat) (f : Flow), DataOnly f.s (moveLines p m n o f).1.s := by
  induction n with
  | zero => exact fun _ f => .refl f.s
  | succ n ih =>
    intro o f
    unfold moveLines
    dsimp only
    split
    next b => exact (dataOnly_moveBytes b).trans (ih ..)
    · have U := dataOnly_moveUpTo p m (min (64 - o % 64) (m.len - o)) o f
      split
      · exact U.trans (ih ..)
      · exact U

/-- A movement changes of the classes nothing but dirty granules and fetch line buffers. -/
theorem dataOnly_moveAll (p : Port) (ms : List Move) : ∀ (skip : Nat) (f : Flow), DataOnly f.s (moveAll p ms skip f).1.s := by
  induction ms with
  | nil => exact fun _ f => .refl f.s
  | cons m ms ih =>
    intro skip f
    unfold moveAll
    split
    · exact ih _ { f with k := f.k + m.len }
    · have L := dataOnly_moveLines p m (lineCount m - skip / 64) skip { f with k := f.k + skip }
      dsimp only
      split
      · exact L.trans (ih ..)
      · exact L

end Sys2Proof.Machine
end

section
/-!
PROOFS for O47: replays and their governor, freezes and what they have held, errors in class memories, poison that is only marked
(R123, R125, R126, R128, R129).
-/

namespace Sys2Proof.Machine

/-! ## Results that a freeze has held (R126) -/

/-- The freeze of a class ends and its guard begins. -/
def endFreeze (s : State) (c : Nat) : State := modCls s c fun k => { k with frozen := false, guard := true }

/-- What a freeze has held of one word lands. -/
def landOne (c : Nat) (s : State) (f : InFlight) : State :=
  match f.held with
  | some rs => if isRecv f.instr then modOp (landXfer s c none f 0) c f.id fun f => { f with held := none } else landNow s c f rs
  | none => s

theorem landHeld_eq (s : State) (c : Nat) : landHeld s c = (getCls s c).inflight.foldl (landOne c) s := rfl

theorem getCls_endFreeze {s : State} {c : Nat} (hc : c < s.cls.length) :
    getCls (endFreeze s c) c = { getCls s c with frozen := false, guard := true } := getCls_modCls s c _ hc

theorem exec_freezeEnd_frozen {c : Nat} {s : State} (h : (getCls s c).frozen = true) :
    exec (.freezeEnd c) s = .next (endFreeze (landHeld s c) c) := by
  change execFreezeEnd c s = _
  rw [execFreezeEnd, if_pos h]
  rfl

theorem exec_freezeEnd_thawed {c : Nat} {s : State} (h : (getCls s c).frozen = false) : exec (.freezeEnd c) s = .next s := by
  change execFreezeEnd c s = _
  rw [execFreezeEnd, if_neg (by simp [h])]

theorem foldl_landOne_of_none {c : Nat} {l : List InFlight} (h : ∀ f ∈ l, f.held = none) (s : State) :
    l.foldl (landOne c) s = s := by
  induction l with
  | nil => rfl
  | cons f l ih =>
    rw [List.foldl_cons, landOne, h f List.mem_cons_self]
    exact ih fun g hg => h g (List.mem_cons_of_mem f hg)

/-- Where one word alone holds a result, that lands and nothing else. -/
theorem landHeld_single {s : State} {c : Nat} {pre post : List InFlight} {f : InFlight}
    (at_ : (getCls s c).inflight = pre ++ f :: post) (others : ∀ g ∈ pre ++ post, g.held = none) :
    landHeld s c = landOne c s f := by
  rw [landHeld_eq, at_, List.foldl_append, foldl_landOne_of_none fun g hg => others g (List.mem_append_left post hg), List.foldl_cons,
    foldl_landOne_of_none fun g hg => others g (List.mem_append_right pre hg)]

theorem landOne_of_result {c : Nat} {s : State} {f : InFlight} {rs : List (Nat × W64)} (held : f.held = some rs)
    (result : isRecv f.instr = false) :
    landOne c s f = complete (rs.foldl (fun s r => setS s c r.1 r.2) (endRegion s c f)) c f := by
  rw [landOne, held]
  exact if_neg (by simp [result])

theorem endRegion_of_bwait {s : State} {c : Nat} {f : InFlight} {h : Hdr} {g : FCN} (word : f.instr = .bwait h g)
    (noTb : g.imm.getLsbD 21 = false) : endRegion s c f = modCls s c closeRegion := by
  rw [endRegion, word]
  simp only [bit21, noTb]
  rfl

/-- The data of a transfer's first request are where they go. -/
def dataReceived (s : State) (c : Nat) (f : InFlight) : State := (moveAll { cls := c } (requestMoves f 0) 0 { s := s, k := 0 }).1.s

theorem dataOnly_dataReceived (s : State) (c : Nat) (f : InFlight) : DataOnly s (dataReceived s c f) := dataOnly_moveAll ..

theorem landOne_of_recv {c : Nat} {s : State} {f : InFlight} {rs : List (Nat × W64)} (held : f.held = some rs)
    (recv : isRecv f.instr = true) (uncounted : f.ops.getD 3 0 ≠ 1) :
    landOne c s f = modOp (dataReceived s c f) c f.id fun f => { f with held := none } := by
  rw [landOne, held, ← show landXfer s c none f 0 = dataReceived s c f by rw [landXfer, countedAdd, if_neg uncounted]; rfl]
  exact if_pos recv

/-- A class with that word's result landed and its freeze ended. -/
theorem getCls_endFreeze_dataReceived {s : State} {c : Nat} (f : InFlight) (g : InFlight → InFlight) (hc : c < s.cls.length) :
    getCls (endFreeze (modOp (dataReceived s c f) c f.id g) c) c
      = { getCls (dataReceived s c f) c with
          frozen := false, guard := true, inflight := (getCls s c).inflight.map fun x => if x.id = f.id then g x else x } := by
  have moved := dataOnly_dataReceived s c f
  have hc' : c < (dataReceived s c f).cls.length := moved.length.symm ▸ hc
  rw [getCls_endFreeze (by rwa [modOp, length_modCls]), getCls_modOp _ _ hc', moved.inflight]

theorem inRange_of_frozen {s : State} {c : Nat} (h : (getCls s c).frozen = true) : c < s.cls.length := by
  by_contra out
  rw [getCls, List.getD_eq_default _ _ (Nat.not_lt.1 out)] at h
  cases h

/-- A change of the word `f` in a list where no other word has its number. -/
theorem map_of_id {pre post : List InFlight} {f : InFlight} (others : ∀ x ∈ pre ++ post, x.id ≠ f.id) (g : InFlight → InFlight) :
    ((pre ++ f :: post).map fun x => if x.id = f.id then g x else x) = pre ++ g f :: post := by
  have same : ∀ l : List InFlight, (∀ x ∈ l, x.id ≠ f.id) → (l.map fun x => if x.id = f.id then g x else x) = l := fun l hl =>
    (List.map_congr_left fun x hx => if_neg (hl x hx)).trans (List.map_id' l)
  rw [List.map_append, List.map_cons, if_pos rfl, same pre fun x hx => others x (List.mem_append_left post hx),
    same post fun x hx => others x (List.mem_append_right pre hx)]

/-! ## The governor (R125) -/

section
variable {level : Nat} {k : ClassState}

theorem governorNext_of_many (many : 64 < k.replays) : governorNext level k = (some (min 8 (k.govCap.getD level + 1)), 0) := by
  rw [governorNext, if_pos many]

theorem governorNext_uncapped (few : k.replays ≤ 64) (none_ : k.govCap = none) : governorNext level k = (none, 0) := by
  rw [governorNext, if_neg (Nat.not_lt.2 few), if_pos (.inr (by rw [none_]; rfl)), none_]

theorem governorNext_of_some (some_ : 16 < k.replays) (few : k.replays ≤ 64) : governorNext level k = (k.govCap, 0) := by
  rw [governorNext, if_neg (Nat.not_lt.2 few), if_pos (.inl some_)]

/-- A quiet window under a cap. -/
theorem governorNext_quiet {x : Nat} (cap : k.govCap = some x) (quiet : k.replays ≤ 16) : governorNext level k
    = if k.quiet + 1 < 1000 then (some x, k.quiet + 1) else (if x - 1 ≤ level then none else some (x - 1), 0) := by
  rw [governorNext, if_neg (by omega), if_neg (by simp [cap, quiet]), cap]
  rfl

end

/-- A class after a window of the governor. -/
def windowed (level : Nat) (k : ClassState) : ClassState :=
  { k with govCap := (governorNext level k).1, quiet := (governorNext level k).2, replays := 0 }

theorem exec_replayGovernorWindow {c : Nat} {s : State} (h40 : c < 40) (hc : c < s.cls.length) :
    ∃ t, exec (.replayGovernorWindow c) s = .next t ∧ getCls t c = windowed (levelClock s.grant) (getCls s c) := by
  refine ⟨_, if_neg (Nat.not_le.2 h40), ?_⟩
  split <;> exact getCls_modCls s c _ hc

/-- A window above 64 replays is recorded, with the caps before and after. -/
theorem exec_replayGovernorWindow_many {c : Nat} {s : State} (h40 : c < 40) (many : 64 < (getCls s c).replays) :
    exec (.replayGovernorWindow c) s = .next (bbClass
      (modCls s c fun k => { k with govCap := some (min 8 (k.govCap.getD (levelClock s.grant) + 1)), quiet := 0, replays := 0 })
      c 0x003 0xFF (BitVec.ofNat 64 ((getCls s c).govCap.getD (levelClock s.grant) * 16
        + min 8 ((getCls s c).govCap.getD (levelClock s.grant) + 1)))) := by
  change execReplayGovernorWindow c s = _
  rw [execReplayGovernorWindow, if_neg (Nat.not_le.2 h40)]
  simp only [governorNext_of_many many, many, or_true, if_true, Option.getD_some]
  exact congrArg (fun t => Host.Outcome.next (bbClass t c 0x003 0xFF _)) (modCls_congr rfl)

/-! ## Errors in class memories (R126, R128) -/

section
variable {c : Nat} {m : ClassMem} {loc : BitVec 56} {s : State}

theorem exec_correctableError (h40 : c < 40) : exec (.correctableError c m loc) s = .next (classError s c m loc.toNat) := by
  change execCorrectableError c m loc s = _
  rw [execCorrectableError, if_pos h40]

theorem runnable_of_frozen (frozen : (getCls s c).frozen = true) : runnable s c = false := by
  simp [runnable, frozen]

theorem classError_patched {n : Nat} (known : (m, n) ∈ (getCls s c).patch) :
    classError s c m n = modCls s c fun k => { k with patch := (m, n) :: k.patch.erase (m, n) } := by
  rw [classError]
  exact if_pos (List.contains_iff_mem.2 known)

theorem classError_freezes {n : Nat} (new : (m, n) ∉ (getCls s c).patch) (thawed : (getCls s c).frozen = false)
    (open_ : (getCls s c).guard = false) : classError s c m n
      = bbClass (modCls s c fun k => { k with frozen := true, patch := ((m, n) :: k.patch).take 32 }) c 0x001 0xFF
          (BitVec.ofNat 64 (classError.memCode m * 2 ^ 56 + n % 2 ^ 56)) := by
  simp [classError, new, thawed, open_]

theorem classError_storm {n : Nat} (new : (m, n) ∉ (getCls s c).patch) (thawed : (getCls s c).frozen = false)
    (guard : (getCls s c).guard = true) : classError s c m n
      = killOn (bbClass (systemCause s c 0x23 7 (leastPos (getCls s c) (slipEngines (getCls s c)) (getCls s c).ws.ord)
          (BitVec.ofNat 64 n)) c 0x002 0xFF (BitVec.ofNat 64 (classError.memCode m * 2 ^ 56 + n % 2 ^ 56))) c 0x02 := by
  simp [classError, new, thawed, guard]

end

/-! ## Poison that nothing consumes (R129) -/

theorem recordUnit_eq (s : State) (code : Nat) (u : PUnit) : ∃ ds, recordUnit s code u = { s with dies := ds } := by
  cases u <;> exact ⟨_, rfl⟩

/-! ## The statement -/

/-- Settles O47: freezes by what they have held, the governor by its kinds of window, the rest by its branches. -/
theorem replaysFreezesAndPoison : Obligations.ReplaysFreezesAndPoison := by
  unfold Obligations.ReplaysFreezesAndPoison
  refine ⟨fun c s => ⟨rfl, rfl, exec_freezeEnd_thawed, fun frozen none_ => ?_, rfl⟩,
    fun c s pre f post rs frozen at_ held others result => ⟨fun word => ?_, fun h g word noTb nothing => ?_⟩,
    fun c s pre f post rs h g frozen at_ held others word uncounted _ => ?_, fun c s h40 hc => ?_,
    fun c m loc s h40 hc thawed => ⟨fun known => ?_, fun new open_ => ?_, fun new guard => ?_⟩, fun u s => ?_⟩
  · rw [exec_freezeEnd_frozen frozen, landHeld_eq, foldl_landOne_of_none none_]
    rfl
  · rw [exec_freezeEnd_frozen frozen, landHeld_single at_ others, landOne_of_result held result, endRegion_of_ne word]
    rfl
  · rw [exec_freezeEnd_frozen frozen, landHeld_single at_ others, landOne_of_result held result, endRegion_of_bwait word noTb, nothing]
    rfl
  · rw [exec_freezeEnd_frozen frozen, landHeld_single at_ fun x hx => (others x hx).1,
      landOne_of_recv held (by rw [word]; rfl) uncounted]
    have now := getCls_endFreeze_dataReceived f (fun f => { f with held := none }) (inRange_of_frozen frozen)
    rw [at_, map_of_id fun x hx => (others x hx).2] at now
    exact ⟨_, rfl, congrArg ClassState.frozen now, congrArg ClassState.inflight now, rfl⟩
  · obtain ⟨t, step, now⟩ := exec_replayGovernorWindow h40 hc
    refine ⟨t, step, by rw [now]; rfl, fun many => ⟨?_, ?_⟩, fun few none_ => ?_, fun x cap some_ few => ?_,
      fun x cap quiet early => ?_, fun x cap quiet late => ?_⟩
    · rw [now, windowed, governorNext_of_many many]
    · exact Host.Outcome.next.inj (step.symm.trans (exec_replayGovernorWindow_many h40 many))
    · rw [now, windowed, governorNext_uncapped few none_]
    · rw [now, windowed, governorNext_of_some some_ few]
      exact ⟨cap, rfl⟩
    · rw [now, windowed, governorNext_quiet cap quiet, if_pos (by omega)]
      exact ⟨rfl, rfl⟩
    · rw [now, windowed, governorNext_quiet cap quiet, if_neg (by omega)]
  · rw [exec_correctableError h40, classError_patched known]
  · rw [exec_correctableError h40, classError_freezes new thawed open_]
    have now := getCls_modCls s c (fun k => { k with frozen := true, patch := ((m, loc.toNat) :: k.patch).take 32 }) hc
    exact ⟨_, rfl, now, runnable_of_frozen (congrArg ClassState.frozen now), fun j hj => getCls_modCls_ne s c j _ hj⟩
  · rw [exec_correctableError h40, classError_storm new thawed guard]
    have now := getCls_killOn_systemCause 0x23 7 (leastPos (getCls s c) (slipEngines (getCls s c)) (getCls s c).ws.ord)
      (BitVec.ofNat 64 loc.toNat) 0x002 0xFF (BitVec.ofNat 64 (classError.memCode m * 2 ^ 56 + loc.toNat % 2 ^ 56)) 0x02 hc
    exact ⟨_, rfl, congrArg ClassState.tcode now, congrArg ClassState.tinfo now, (congrArg ClassState.frozen now).trans thawed,
      fun tm team => ⟨killOn_kills (by exact team) 0x02, killOn_agenda (by exact team) 0x02⟩⟩
  · obtain ⟨ds, recorded⟩ := recordUnit_eq (setPoison s u false) 0x015 u
    exact ⟨_, congrArg Host.Outcome.next recorded, (poisonAt_set s u u false).trans (if_pos rfl),
      fun v hv => (poisonAt_set s u v false).trans (if_neg hv), rfl⟩

end Sys2Proof.Machine
end

section
/-!
PROOFS for O8 and O14: the words that take from a queue of the class or put into one (R158, R360, R362, R363, R375).
-/

namespace Sys2Proof.Machine

/-! ## A ready word, by what its body comes to -/

section
variable {i : Instr} {s s' : State} {c n : Nat} {e : Eng} {body : State → Res}

theorem executes_of_done (R : Ready i s c e) (word : exec i s = runWord i body s) (hb : body s = .done s')
    (hc : c < s'.cls.length) : Executes i s c e s' := by
  rw [Executes, ExecutesTo, word]
  exact runWord_done R hb hc

theorem executesTo_of_jump (R : Ready i s c e) (word : exec i s = runWord i body s) (hb : body s = .jump s' n)
    (hc : c < s'.cls.length) : ExecutesTo i s c e s' n := by
  rw [ExecutesTo, word]
  exact runWord_jump R hb hc

theorem waits_of_stall (R : Ready i s c e) (word : exec i s = runWord i body s) (hb : body s = .stall) : Waits i s :=
  word.trans (runWord_stall R hb)

end

/-! ## QB: the branches on an outcome -/

/-- The S walker has taken the head of QB, which leaves `r`. -/
def qbTaken (s : State) (c : Nat) (r : List Bool) : State :=
  modCls s c fun k => { k with qb := r, ws := { k.ws with qbSeen := k.ws.qbSeen + 1 } }

theorem popQb_cons {s : State} {c : Nat} {b : Bool} {r : List Bool} (at_ : s.focus = .cls c .s) (head : (getCls s c).qb = b :: r)
    (f : FB) (want : Bool) : popQb f want s
      = if b = want then .jump (qbTaken s c r) (branchTarget s c f) else .done (qbTaken s c r) := by
  rw [popQb, clsOnly_cls at_, me_cls at_, head]
  simp only [modMe_cls at_, curWi_cls at_, beq_iff_eq]
  rfl

theorem popQb_nil {s : State} {c : Nat} (at_ : s.focus = .cls c .s) (empty : (getCls s c).qb = []) (f : FB) (want : Bool) :
    popQb f want s = .stall := by
  rw [popQb, clsOnly_cls at_, me_cls at_, empty]

/-- A word that pops QB goes to its target on the outcome it wants, and to the next word on the other. -/
theorem executes_popQb {i : Instr} {s : State} {c : Nat} {b : Bool} {r : List Bool} {f : FB} (want : Bool) (R : Ready i s c .s)
    (word : exec i s = runWord i (popQb f want) s) (head : (getCls s c).qb = b :: r) :
    (b = want → ExecutesTo i s c .s (qbTaken s c r) (branchTarget s c f))
      ∧ (b ≠ want → Executes i s c .s (qbTaken s c r)) := by
  have body := popQb_cons R.focus head f want
  have inRange : c < (qbTaken s c r).cls.length := by simpa [qbTaken] using R.inRange
  exact ⟨fun eq => executesTo_of_jump R word (body.trans (if_pos eq)) inRange,
    fun ne => executes_of_done R word (body.trans (if_neg ne)) inRange⟩

/-! ## QS and QF -/

/-- The body of QPOP (R362). -/
def qpopBody (f : FSR) (s : State) : Res :=
  clsOnly s <|
    let c := focusCls s
    match (me s).qs with
    | [] => .stall
    | v :: r =>
      match poisonAt s (.queue c 0 0) with
      | some kind => .stop (consumePoison s c .s kind (.queue c 0 0) 0)
      | none => .done (sset (shiftPoison (modMe s fun k => headOn { k with qs := r } 0 64) c 0) f.d v)

theorem exec_qpop (h : Hdr) (f : FSR) (s : State) : exec (.qpop h f) s = runWord (.qpop h f) (qpopBody f) s := rfl

/-- No element of the queue is poisoned: none moves up with the pop. -/
theorem shiftPoison_of_sound {s : State} {c q : Nat} (sound : ∀ e ∈ s.poison, ∀ n, e.1 ≠ .queue c q n) :
    shiftPoison s c q = s := by
  refine congrArg (fun l => ({ s with poison := l } : State))
    ((List.filterMap_congr (g := some) fun e mem => ?_).trans List.filterMap_some)
  have other := sound e mem
  split
  case h_1 n at_ => exact if_neg fun ⟨hc, hq⟩ => other n (by rw [at_, hc, hq])
  all_goals rfl

theorem qpopBody_cons {s : State} {c : Nat} {v : W64} {r : List W64} {f : FSR} (at_ : s.focus = .cls c .s)
    (head : (getCls s c).qs = v :: r) (sound : ∀ e ∈ s.poison, ∀ n, e.1 ≠ .queue c 0 n) : qpopBody f s
      = .done (withS (modCls s c fun k => { k with qs := r, qhead := tset 0 k.qhead 0 ((tget 0 k.qhead 0 + 1) % 64) }) c f.d v) := by
  have clean : poisonAt s (.queue c 0 0) = none := by
    rw [poisonAt, Option.map_eq_none_iff, List.find?_eq_none]
    exact fun e mem => by simpa using sound e mem 0
  rw [qpopBody, clsOnly_cls at_, me_cls at_, head, focusCls_cls at_]
  simp only [clean, modMe_cls at_]
  rw [shiftPoison_of_sound (by exact sound), sset_cls (by exact at_)]
  rfl

theorem qpopBody_nil {s : State} {c : Nat} (at_ : s.focus = .cls c .s) (empty : (getCls s c).qs = []) (f : FSR) :
    qpopBody f s = .stall := by
  rw [qpopBody, clsOnly_cls at_, me_cls at_, empty]

/-- The body of FQPUSH (R363). -/
def fqpushBody (f : FSR) (s : State) : Res :=
  clsOnly s <| if (me s).qf.length < 16 then .done (modMe s fun k => { k with qf := k.qf ++ [sget s f.a] }) else .stall

theorem exec_fqpush (h : Hdr) (f : FSR) (s : State) : exec (.fqpush h f) s = runWord (.fqpush h f) (fqpushBody f) s := rfl

theorem fqpushBody_cls {s : State} {c : Nat} (at_ : s.focus = .cls c .s) (f : FSR) : fqpushBody f s
    = if (getCls s c).qf.length < 16 then .done (modCls s c fun k => { k with qf := k.qf ++ [regS s c f.a] }) else .stall := by
  rw [fqpushBody, clsOnly_cls at_, me_cls at_, modMe_cls at_, sget_cls at_]

/-- Settles O8: each word by what its body comes to, BQ and BQN as one. How the head indices move is the model's choice (log 54). -/
theorem queueWords : Obligations.QueueWords := by
  unfold Obligations.QueueWords
  refine ⟨fun h f s c b r R head => ?_, fun h f s c b r R head => ?_, fun h f s c v r R head sound => ?_, fun h f s c R room => ?_,
    fun h f s c R empty => ?_, fun h f s c R empty => ?_, fun h f s c R empty => ?_, fun h f s c R full => ?_⟩
  · obtain ⟨taken, passed⟩ := executes_popQb true R rfl head
    exact ⟨taken, fun no => passed (by simp [no])⟩
  · obtain ⟨taken, passed⟩ := executes_popQb false R rfl head
    exact ⟨taken, fun yes => passed (by simp [yes])⟩
  · exact executes_of_done R (exec_qpop h f s) (qpopBody_cons R.focus head sound) (by simpa using R.inRange)
  · exact executes_of_done R (exec_fqpush h f s) ((fqpushBody_cls R.focus f).trans (if_pos room)) (by simpa using R.inRange)
  · exact waits_of_stall R rfl (popQb_nil R.focus empty f true)
  · exact waits_of_stall R rfl (popQb_nil R.focus empty f false)
  · exact waits_of_stall R (exec_qpop h f s) (qpopBody_nil R.focus empty f)
  · exact waits_of_stall R (exec_fqpush h f s) ((fqpushBody_cls R.focus f).trans (if_neg (Nat.not_lt.2 full)))

/-! ## QB: the outcome compares -/

/-- A word that pushes the outcome `g` into QB obeys the rule of the outcome compares for every condition that `g` decides. -/
theorem aqRule_of_word {F : Type} {mk : Hdr → F → Instr} {cond : State → Nat → F → Prop} (g : F → State → Bool)
    (word : ∀ h f s, exec (mk h f) s = aqWord (mk h f) (g f) s)
    (decides : ∀ f s c, s.focus = .cls c .a → (g f s = true ↔ cond s c f)) : AqRule mk cond := by
  intro h f s c R
  have body : clsOnly s (if (me s).qb.length < 64 then .done (pushQb s (focusCls s) (g f s)) else .stall)
      = if (getCls s c).qb.length < 64 then .done (pushQb s c (g f s)) else .stall := by
    rw [clsOnly_cls R.focus, me_cls R.focus, focusCls_cls R.focus]
  refine ⟨fun b holds room => ?_, fun full => ?_⟩
  · have outcome : g f s = b := Bool.eq_iff_iff.2 ((decides f s c R.focus).trans holds.symm)
    rw [if_pos room] at body
    exact outcome ▸ executes_of_done R (word h f s) body (by simpa [pushQb] using R.inRange)
  · exact waits_of_stall R (word h f s) (body.trans (if_neg (Nat.not_lt.2 full)))

/-- The second operand of the immediate forms: s[S] + m (R356, R375). -/
theorem sget_add_imms {s : State} {c : Nat} {e : Eng} (at_ : s.focus = .cls c e) (n : BitVec 5) (m : W32) :
    sget s n + imms m = BitVec.ofInt 64 ((regS s c n).toNat + m.toInt) := by
  rw [sget_cls at_, imms, BitVec.signExtend, BitVec.ofInt_add, BitVec.ofInt_natCast, BitVec.ofNat_toNat, BitVec.setWidth_eq]

/-- Settles O14: the six compares by the condition that each decides. -/
theorem outcomeCompares : Obligations.OutcomeCompares := by
  unfold Obligations.OutcomeCompares
  refine ⟨aqRule_of_word _ (fun _ _ _ => rfl) fun f s c at_ => ?_, aqRule_of_word _ (fun _ _ _ => rfl) fun f s c at_ => ?_,
    aqRule_of_word _ (fun _ _ _ => rfl) fun f s c at_ => ?_, aqRule_of_word _ (fun _ _ _ => rfl) fun f s c at_ => ?_,
    aqRule_of_word _ (fun _ _ _ => rfl) fun f s c at_ => ?_, aqRule_of_word _ (fun _ _ _ => rfl) fun f s c at_ => ?_⟩
  · rw [aget_cls at_, aget_cls at_, beq_iff_eq]
  · rw [aget_cls at_, aget_cls at_, bne_iff_ne]
  · rw [aget_cls at_, aget_cls at_, BitVec.slt_iff_toInt_lt]
  · rw [aget_cls at_, aget_cls at_, BitVec.ult_iff_toNat_lt]
  · rw [aget_cls at_, sget_add_imms at_, beq_iff_eq]
  · rw [aget_cls at_, sget_add_imms at_, BitVec.slt_iff_toInt_lt]

end Sys2Proof.Machine
end

section
/-!
PROOFS for O11: what WRCSR makes of each control register (R151, R155, R295, R300, R368, R394).
-/

namespace Sys2Proof.Machine

/-! ## The word -/

/-- The body of WRCSR (R368). -/
def wrcsrBody (f : FSR) (s : State) : Res :=
  match s.focus with
  | .fw _ => .done s
  | .cls c _ =>
    if (f.csr = 0x05 ∨ f.csr = 0x09) ∧ !vmDone (getCls s c) (getCls s c).ws.ord then .stall
    else .done (modCls s c fun k => csrWrite k f.csr.toNat (sget s f.a))

theorem exec_wrcsr (h : Hdr) (f : FSR) (s : State) : exec (.wrcsr h f) s = runWord (.wrcsr h f) (wrcsrBody f) s := rfl

theorem wrcsrBody_writes {s : State} {c : Nat} {f : FSR} (at_ : s.focus = .cls c .s)
    (due : f.csr = 0x05 ∨ f.csr = 0x09 → vmDone (getCls s c) (getCls s c).ws.ord = true) :
    wrcsrBody f s = .done (modCls s c fun k => csrWrite k f.csr.toNat (regS s c f.a)) := by
  simp only [wrcsrBody, at_, sget_cls at_]
  exact if_neg fun ⟨named, busy⟩ => by simp [due named] at busy

theorem wrcsrBody_waits {s : State} {c : Nat} {f : FSR} (at_ : s.focus = .cls c .s) (named : f.csr = 0x05 ∨ f.csr = 0x09)
    (busy : vmDone (getCls s c) (getCls s c).ws.ord = false) : wrcsrBody f s = .stall := by
  simp only [wrcsrBody, at_]
  exact if_pos ⟨named, by simp [busy]⟩

/-! ## The values that are stored -/

theorem slipStore_eq (v : W64) : slipStore v
    = if v.toNat % 2 ^ 13 = 0 then 1 else if 4096 < v.toNat % 2 ^ 13 then 4096 else BitVec.ofNat 13 v.toNat := by
  have field : v.extractLsb' 0 13 = BitVec.ofNat 13 v.toNat := by simp [BitVec.extractLsb']
  have zero : BitVec.ofNat 13 v.toNat = 0 ↔ v.toNat % 2 ^ 13 = 0 := by
    rw [← BitVec.toNat_inj, BitVec.toNat_ofNat]
    rfl
  simp only [slipStore, field, zero, BitVec.toNat_ofNat]

theorem vlStore_eq (v : W64) : vlStore v
    = if v.toNat % 2 ^ 10 = 0 then 64 else if 512 < v.toNat % 2 ^ 10 then 512
      else BitVec.ofNat 10 ((v.toNat % 2 ^ 10 + 63) / 64 * 64) := by
  have field : (v.extractLsb' 0 10).toNat = v.toNat % 2 ^ 10 := by simp
  simp only [vlStore, field]

theorem seed_stored (v : W64) : v &&& 0x1FFFFFFFF#64 = BitVec.ofNat 64 (v.toNat % 2 ^ 33) := by
  apply BitVec.eq_of_toNat_eq
  have low : v.toNat &&& 0x1FFFFFFFF = v.toNat % 2 ^ 33 := Nat.and_two_pow_sub_one_eq_mod v.toNat 33
  rw [BitVec.toNat_and, BitVec.toNat_ofNat]
  exact low.trans (Nat.mod_eq_of_lt (by omega)).symm

/-! ## Tables of one entry for each desk -/

/-- A fold that writes `g d` of the old entry at each listed place. -/
theorem tget_foldl_tset_of {α : Type} [DecidableEq α] (e : α) (g : Nat → α → α) {l : List Nat} (once : l.Nodup) (t : Tbl α)
    (d : Nat) :
    tget e (l.foldl (fun t d => tset e t d (g d (tget e t d))) t) d = if d ∈ l then g d (tget e t d) else tget e t d := by
  induction l generalizing t with
  | nil => rfl
  | cons a l ih =>
    obtain ⟨fresh, once⟩ := List.nodup_cons.1 once
    rw [List.foldl_cons, ih once, tget_tset]
    by_cases at_ : a = d
    · subst at_
      simp [fresh]
    · simp [at_, Ne.symm at_]

theorem genOf_loadSeeds (k : ClassState) (v : W64) {d : Nat} (hd : d < 32) : genOf (loadSeeds k v) d = deskSeed v d := by
  rw [genOf, loadSeeds, tget_foldl_tset_of 1 (fun d _ => deskSeed v d) List.nodup_range, if_pos (List.mem_range.2 hd)]

theorem tget_aflgWrite (k : ClassState) (v : W64) {d : Nat} (hd : d < 32) :
    (tget 0 (aflgWrite k v).aflg d : BitVec 6) = tget 0 k.aflg d &&& ~~~(v.setWidth 6) := by
  rw [aflgWrite, tget_foldl_tset_of 0 (fun _ x => x &&& ~~~(v.setWidth 6)) List.nodup_range, if_pos (List.mem_range.2 hd)]

/-- Settles O11: the word by its body, the registers one by one. -/
theorem writeControlRegister : Obligations.WriteControlRegister := by
  unfold Obligations.WriteControlRegister
  refine ⟨fun h f s c R due => ?_,
    fun k v => ⟨?_, ?_, rfl, ?_, ?_, fun _ d hd => ?_, rfl, fun _ d j hd hj => ?_, fun n ro => ?_⟩,
    fun h f s c R named busy => ?_⟩
  · exact executes_of_done R (exec_wrcsr h f s) (wrcsrBody_writes R.focus due) (by simpa using R.inRange)
  · rw [← slipStore_eq]
    rfl
  · rw [← vlStore_eq]
    rfl
  · rw [show BitVec.ofNat 2 v.toNat = v.extractLsb' 0 2 by simp [BitVec.extractLsb']]
    rfl
  · rw [← seed_stored]
    rfl
  · refine (genOf_loadSeeds _ v hd).trans ?_
    rw [deskSeed, show v.extractLsb' 0 32 = v.setWidth 32 from (BitVec.setWidth_eq_extractLsb' (by decide)).symm]
  · refine (congrArg (·.getLsbD j) (tget_aflgWrite k v hd)).trans ?_
    simp [hj]
  · fin_cases ro <;> rfl
  · exact waits_of_stall R (exec_wrcsr h f s) (wrcsrBody_waits R.focus named busy)

end Sys2Proof.Machine
end

section
/-!
PROOFS for O12: sequencer scratch (R369) and the words that every walker passes (R156, R172, R351 to R353).
-/

namespace Sys2Proof.Machine

/-! ## Loads and stores of sequencer scratch -/

/-- Where a scratch word of class `c` points: u(s[A]) + OFF (R369). -/
def scratchPlace (s : State) (c : Nat) (f : FSM) : Nat := (regS s c f.a).toNat + f.off.toNat

/-- The body of LDS (R369). -/
def ldsBody (f : FSM) (s : State) : Res :=
  let x := scratchOff s f
  let n := szBytes f.sz
  if !scratchOk s f then .trap 0x02 (BitVec.ofNat 64 x)
  else
    let c := focusCls s
    match poisonAt s (.scratch c (x / 64)) with
    | some kind => .stop (consumePoison s c .s kind (.scratch c (x / 64)) 0)
    | none =>
      let v := readNat s (myScratch s + x) n
      .done (sset s f.d (if f.sx then sext64 (8 * n) v else BitVec.ofNat 64 v))

/-- The body of STS (R369). -/
def stsBody (f : FSM) (s : State) : Res :=
  let x := scratchOff s f
  let n := szBytes f.sz
  if !scratchOk s f then .trap 0x02 (BitVec.ofNat 64 x)
  else .done (writeNat s (myScratch s + x) n (sget s f.d).toNat)

theorem exec_lds (h : Hdr) (f : FSM) (s : State) : exec (.lds h f) s = runWord (.lds h f) (ldsBody f) s := rfl
theorem exec_sts (h : Hdr) (f : FSM) (s : State) : exec (.sts h f) s = runWord (.sts h f) (stsBody f) s := rfl

theorem scratchAddr_add (c x j : Nat) : scratchAddr c x + j = scratchAddr c (x + j) := Nat.add_assoc ..

section
variable {s : State} {c : Nat} {f : FSM} (at_ : s.focus = .cls c .s)
include at_

theorem scratchOff_cls : scratchOff s f = scratchPlace s c f := by rw [scratchOff, sget_cls at_, scratchPlace]

theorem scratchOk_iff : scratchOk s f = true
    ↔ scratchPlace s c f + 2 ^ f.sz.toNat ≤ 65536 ∧ scratchPlace s c f % 2 ^ f.sz.toNat = 0 := by
  simp [scratchOk, szBytes, scratchOff_cls at_]

theorem myScratch_add (x : Nat) : myScratch s + x = scratchAddr c x := by
  simp [myScratch, at_, scratchAddr]

/-- The number that LDS reads, byte by byte. -/
theorem readNat_scratch (wf : Memory.wf s.mem) (x n : Nat) :
    readNat s (myScratch s + x) n = leNat ((List.range n).map fun j => readByte s (scratchAddr c (x + j))) := by
  rw [readNat, readBytes_eq _ _ wf]
  simp only [myScratch_add at_, scratchAddr_add]

theorem ldsBody_reads (wf : Memory.wf s.mem)
    (good : scratchPlace s c f + 2 ^ f.sz.toNat ≤ 65536 ∧ scratchPlace s c f % 2 ^ f.sz.toNat = 0)
    (sound : poisonAt s (.scratch c (scratchPlace s c f / 64)) = none) : ldsBody f s = .done (withS s c f.d
      (extended f.sx (2 ^ f.sz.toNat)
        (leNat ((List.range (2 ^ f.sz.toNat)).map fun j => readByte s (scratchAddr c (scratchPlace s c f + j)))))) := by
  have fits := leNat_lt ((List.range (2 ^ f.sz.toNat)).map fun j => readByte s (scratchAddr c (scratchPlace s c f + j)))
  rw [List.length_map, List.length_range] at fits
  simp only [ldsBody, (scratchOk_iff at_).2 good, scratchOff_cls at_, focusCls_cls at_, sound, szBytes, sset_cls at_,
    readNat_scratch at_ wf, extended_eq f.sx Nat.one_le_two_pow fits]
  rfl

theorem stsBody_writes (good : scratchPlace s c f + 2 ^ f.sz.toNat ≤ 65536 ∧ scratchPlace s c f % 2 ^ f.sz.toNat = 0) :
    stsBody f s = .done (writeBytes s (scratchAddr c (scratchPlace s c f))
      ((List.range (2 ^ f.sz.toNat)).map fun j => (regS s c f.d).extractLsb' (8 * j) 8)) := by
  simp only [stsBody, (scratchOk_iff at_).2 good, scratchOff_cls at_, szBytes, sget_cls at_, myScratch_add at_, writeNat,
    leBytes_eq_map, byte_eq_extract]
  rfl

theorem scratchBody_bad (bad : ¬ (scratchPlace s c f + 2 ^ f.sz.toNat ≤ 65536 ∧ scratchPlace s c f % 2 ^ f.sz.toNat = 0)) :
    ldsBody f s = .trap 0x02 (BitVec.ofNat 64 (scratchPlace s c f))
      ∧ stsBody f s = .trap 0x02 (BitVec.ofNat 64 (scratchPlace s c f)) := by
  have refused : scratchOk s f = false := Bool.eq_false_iff.2 (mt (scratchOk_iff at_).1 bad)
  simp [ldsBody, stsBody, refused, scratchOff_cls at_]

end

theorem extended_eq_ite (sx : Bool) (n v : Nat) : extended sx n v
    = if sx = true ∧ 2 ^ (8 * n - 1) ≤ v then BitVec.ofInt 64 ((v : Int) - 2 ^ (8 * n)) else BitVec.ofNat 64 v := by
  rw [extended, apply_ite (BitVec.ofInt 64), BitVec.ofInt_natCast]

theorem scratchClauses : ScratchClauses := by
  unfold ScratchClauses
  refine ⟨fun h f s c R wf => ?_, fun h f s c R => ?_, fun h f s c R outside => ?_, fun h f s c R outside => ?_⟩
  · intro x n below aligned sound v
    have body := ldsBody_reads R.focus wf ⟨below, aligned⟩ sound
    rw [extended_eq_ite] at body
    exact executes_of_done R (exec_lds h f s) body (by simpa using R.inRange)
  · intro x n below aligned
    exact executes_of_done R (exec_sts h f s) (stsBody_writes R.focus ⟨below, aligned⟩) R.inRange
  · intro x bad
    exact (exec_lds h f s).trans (runWord_trap_outside R outside (scratchBody_bad R.focus bad).1)
  · intro x bad
    exact (exec_sts h f s).trans (runWord_trap_outside R outside (scratchBody_bad R.focus bad).2)

/-! ## Passing a common word -/

/-- A word that consumes and allocates no tag leaves the tokens as they are (R161, R324). -/
theorem tok_tagsDone_of_free {h : Hdr} (none_ : h.cmask = 0) (noTag : h.av = false) (k : ClassState) (e : Eng) :
    (tagsDone k e h).tok = k.tok := by
  have taken : (consume k e h).tok = k.tok := by
    unfold consume
    split
    · rfl
    · simp [takeTokens, none_, maskTags]
  simp [tagsDone, noTag, taken]

@[simp] theorem tok_noteResolved (k : ClassState) (b : Bool) (n : Nat) : (noteResolved k b n).tok = k.tok := by
  unfold noteResolved; split <;> rfl
@[simp] theorem rsv_noteResolved (k : ClassState) (b : Bool) (n : Nat) : (noteResolved k b n).rsv = k.rsv := by
  unfold noteResolved; split <;> rfl
@[simp] theorem run_noteResolved (k : ClassState) (b : Bool) (n : Nat) : (noteResolved k b n).run = k.run :=
  run_of_body (body_noteResolved k b n)

/-- A walker goes on past a common word, of which S may have noted what it resolves to (R156). -/
theorem passed_of_passTo {i : Instr} {s : State} {c n : Nat} {e : Eng} {g : ClassState → ClassState} (none_ : (hdr i).cmask = 0)
    (noTag : (hdr i).av = false) (b : Bool) (m : Nat) (goes : g (getCls s c) = passTo (noteResolved (getCls s c) b m) e i n)
    (hc : c < s.cls.length) : Passed i s (modCls s c g) c e n := by
  have now : getCls (modCls s c g) c = _ := (getCls_modCls s c g hc).trans goes
  refine ⟨⟨rfl, fun j hj => getCls_modCls_ne s c j _ hj, ?_⟩, ?_, fun e' he => ?_, ?_, ?_⟩ <;> rw [now]
  · rw [body_passTo, body_noteResolved]
  · rw [walkerOf_passTo, walkerOf_noteResolved, run_noteResolved]
  · rw [walkerOf_passTo_ne _ _ _ _ _ he, walkerOf_noteResolved]
  · rw [tok_passTo, tok_noteResolved, tok_tagsDone_of_free none_ noTag]
  · rw [rsv_passTo, rsv_noteResolved]

section
variable {i : Instr} {s s' : State} {c n : Nat} {e : Eng} {act : State → Nat → Eng → State} {fwAct : State → Nat → State}

/-- A common word that can pass does what its action says; at S its block signature moves on. -/
theorem executesTo_of_common (R : ReadyCommon i s c e) (word : exec i s = runCommon i act fwAct s)
    (passed : Passed i s' (act s c e) c e n) (hc : c < (act s c e).cls.length) : ExecutesTo i s c e s' n := by
  have runs : runCommon i act fwAct s = .next (checked i s c e fun s => act s c e) := by
    have awake : (e == .s && asleep (getCls s c)) = false := by
      by_cases at_ : e = .s
      · simp [R.awake at_]
      · simp [at_]
    simp [runCommon, R.focus, R.runs, R.walks, R.open_, R.slip, awake]
  rw [ExecutesTo, word, runs]
  refine ⟨_, rfl, ?_⟩
  by_cases at_ : e = .s
  · obtain ⟨b, ok⟩ := R.signed at_
    simp only [checked, if_pos at_, ok]
    split
    · exact passed_block (some b) hc passed
    · exact passed
  · simpa only [checked, if_neg at_] using passed

/-- A common word whose action has its walker go on at `n` goes there. -/
theorem executesTo_of_passTo {g : ClassState → ClassState} (R : ReadyCommon i s c e) (word : exec i s = runCommon i act fwAct s)
    (none_ : (hdr i).cmask = 0) (noTag : (hdr i).av = false) (acts : act s c e = modCls s' c g) (b : Bool) (m : Nat)
    (goes : g (getCls s' c) = passTo (noteResolved (getCls s' c) b m) e i n) (hc : c < s'.cls.length) :
    ExecutesTo i s c e s' n :=
  executesTo_of_common R word (acts ▸ passed_of_passTo none_ noTag b m goes hc) (by rwa [acts, length_modCls])

end

theorem exec_blk (h : Hdr) (f : FBK) (s : State) : exec (.blk h f) s
    = runCommon (.blk h f) (fun s c e => modCls s c fun k => passTo k e (.blk h f) ((walkerOf k e).wi + 1))
        (fun s d => fwGo s d ((getDie s d).fw.wi + 1)) s := rfl

/-! ## LOOP (R172, R352) -/

/-- Walker `e`, which was `w`, with a counter of `n` passes for the `len` words after its own. -/
def withLoop (k : ClassState) (e : Eng) (w : Walker) (len n : Nat) : ClassState :=
  setWalker k e { w with loops := ⟨w.wi + 1, w.wi + 1 + len, n, k.run⟩ :: w.loops }

theorem openLoop_eq (k : ClassState) (e : Eng) (i : Instr) (len n : Nat) : openLoop k e i len n
    = if n = 0 then passTo k e i ((walkerOf k e).wi + 1 + len)
      else passTo (withLoop k e (walkerOf k e) len n) e i ((walkerOf k e).wi + 1) := rfl

theorem withLoop_noteResolved (k : ClassState) {b : Bool} {e : Eng} (byS : b = true → e = .s) (len n : Nat) :
    withLoop (noteResolved k b n) e (walkerOf k e) len n = noteResolved (withLoop k e (walkerOf k e) len n) b n := by
  cases b with
  | false => rfl
  | true =>
    rw [byS rfl]
    rfl

/-- LOOP at a walker that knows its count: S opens it and, with a register count, notes it; another walker goes by what S has
noted. -/
theorem loopAct_eq {h : Hdr} {f : FLP} {s : State} {c n : Nat} {e : Eng} (at_ : s.focus = .cls c e)
    (count : (f.rs = false ∧ n = f.count.toNat)
        ∨ (f.rs = true ∧ e = .s ∧ regsFree (getCls s c) (getCls s c).ws.ord (.loop h f) = true
            ∧ n = (regS s c (f.count.extractLsb' 27 5)).toNat)
        ∨ (f.rs = true ∧ e ≠ .s
            ∧ (getCls s c).resolved.find? (fun r => r.1 = (walkerOf (getCls s c) e).ord)
                = some ((walkerOf (getCls s c) e).ord, n))) :
    ∃ b, (b = true → e = .s) ∧ loopAct h f s c e
      = modCls s c fun k => openLoop (noteResolved k b n) e (.loop h f) f.len.toNat n := by
  rw [loopAct]
  rcases count with ⟨imm, rfl⟩ | ⟨reg, rfl, free, rfl⟩ | ⟨reg, other, found⟩
  · exact ⟨false, nofun, if_pos (by rw [imm]; rfl)⟩
  · refine ⟨true, fun _ => rfl, (if_neg (by simp [reg])).trans ((if_pos rfl).trans ((if_pos free).trans ?_))⟩
    rw [sget_cls at_]
    exact modCls_congr rfl
  · refine ⟨false, nofun, (if_neg (by simp [reg])).trans ((if_neg other).trans ?_)⟩
    rw [found]
    rfl

theorem executes_loop {h : Hdr} {f : FLP} {s : State} {c n : Nat} {e : Eng} {b : Bool} (R : ReadyCommon (.loop h f) s c e)
    (none_ : h.cmask = 0) (noTag : h.av = false) (byS : b = true → e = .s)
    (acts : loopAct h f s c e = modCls s c fun k => openLoop (noteResolved k b n) e (.loop h f) f.len.toNat n) :
    (n = 0 → ExecutesTo (.loop h f) s c e s ((walkerOf (getCls s c) e).wi + 1 + f.len.toNat))
      ∧ (n ≠ 0 → Executes (.loop h f) s c e (modCls s c fun k => withLoop k e (walkerOf (getCls s c) e) f.len.toNat n)) := by
  refine ⟨fun zero => ?_, fun more => ?_⟩
  · refine executesTo_of_passTo (act := loopAct h f) R rfl none_ noTag acts b n ?_ R.inRange
    rw [openLoop_eq, if_pos zero, walkerOf_noteResolved]
  · have opened : loopAct h f s c e = modCls (modCls s c fun k => withLoop k e (walkerOf (getCls s c) e) f.len.toNat n) c
        fun k => passTo (noteResolved k b n) e (.loop h f) ((walkerOf (getCls s c) e).wi + 1) := by
      rw [acts, modCls_modCls]
      refine modCls_congr ?_
      rw [openLoop_eq, if_neg more, walkerOf_noteResolved, withLoop_noteResolved _ byS]
    exact executesTo_of_passTo (act := loopAct h f) R rfl none_ noTag opened b n rfl (by simpa using R.inRange)

/-! ## PSW (R39, R43, R353) -/

/-- What PSW does at a walker (R353). -/
def pswAct (h : Hdr) (f : FPW) (s : State) (c : Nat) (e : Eng) : State :=
  let k := getCls s c
  if e = .s then if k.hmode then doubleTrap s c .s 0x08 else finish s c .s (.psw h f) (pswBody f s)
  else match otherNext k e (.psw h f) with
    | some r => modCls s c fun k => passTo k e (.psw h f) r.2
    | none => s

theorem exec_psw (h : Hdr) (f : FPW) (s : State) : exec (.psw h f) s
    = runCommon (.psw h f) (pswAct h f) (fun s d => fwGo s d ((getDie s d).fw.wi + 1)) s := rfl

/-- A class after the selection of variant `e` (R39, R40). -/
def variantTaken (s : State) (c e : Nat) : State :=
  modCls (countLowp s c e) c fun k => { k with
    vsel := BitVec.ofNat 2 e
    hub := min (schedBudget (schedOf s c) e) (min (allowance (getCls s c).klvl.toNat) (desksOf s c).length) }

theorem countLowp_cls (s : State) (c e : Nat) : (countLowp s c e).cls = s.cls := by
  unfold countLowp
  split
  · split <;> rfl
  · rfl

theorem variantTaken_length (s : State) (c e : Nat) : (variantTaken s c e).cls.length = s.cls.length := by
  rw [variantTaken, length_modCls, countLowp_cls]

/-- Outside pair mode S goes to the variant that the table chooses. -/
theorem pswBody_unpaired {f : FPW} {s : State} {c : Nat} (at_ : s.focus = .cls c .s)
    (alone : (getPart s (partOf s c)).paired = false) : pswBody f s = .jump (variantTaken s c (chosen s c))
      (((getCls s c).ws.wi : Int)
        + (if chosen s c = 0 then f.t0 else if chosen s c = 1 then f.t1 else f.t2).toInt).toNat := by
  simp only [pswBody, focusCls_cls at_, pairedOn, alone, Bool.false_and, Bool.false_eq_true, if_false, takeVariant, curWi_cls at_]
  rfl

theorem pswAct_s {h : Hdr} {f : FPW} {s : State} {c : Nat} (outside : (getCls s c).hmode = false) :
    pswAct h f s c .s = finish s c .s (.psw h f) (pswBody f s) := by
  rw [pswAct, if_pos rfl, if_neg (by simp [outside])]

theorem pswAct_other {h : Hdr} {f : FPW} {s : State} {c n : Nat} {e : Eng} (other : e ≠ .s)
    (found : (getCls s c).resolved.find? (fun r => r.1 = (walkerOf (getCls s c) e).ord)
      = some ((walkerOf (getCls s c) e).ord, n)) :
    pswAct h f s c e = modCls s c fun k => passTo k e (.psw h f) n := by
  have next : otherNext (getCls s c) e (.psw h f) = some (walkerOf (getCls s c) e, n) := by
    simp [otherNext, resolvedByS, found]
  rw [pswAct, if_neg other, next]

theorem commonClauses : CommonClauses := by
  unfold CommonClauses
  refine ⟨fun h s c R => ?_, fun h f s c e R none_ noTag => ?_, fun h f s c e n R none_ noTag count => ?_,
    fun h f s c R none_ noTag outside alone => ?_, fun h f s c e n R none_ noTag other found => ?_⟩
  · exact executes_of_done (body := .done) R rfl rfl R.inRange
  · exact executesTo_of_passTo R (exec_blk h f s) none_ noTag rfl false 0 rfl R.inRange
  · obtain ⟨b, byS, acts⟩ := loopAct_eq R.focus count
    exact executes_loop R none_ noTag byS acts
  · have acts := (pswAct_s (h := h) (f := f) outside).trans (congrArg _ (pswBody_unpaired R.focus alone))
    have inRange : c < (variantTaken s c (chosen s c)).cls.length := by simpa [variantTaken_length] using R.inRange
    refine executesTo_of_common R (exec_psw h f s) ?_ ?_ <;> rw [acts]
    · exact finishDone_passed (.psw h f) _ c .s _ none true _ inRange
    · simpa [finish, finishDone] using inRange
  · exact executesTo_of_passTo R (exec_psw h f s) none_ noTag (pswAct_other other found) false 0 rfl R.inRange

/-- Settles O12: scratch words by their bodies, the others by what passing a common word does. -/
theorem scratchAndCommonWords : Obligations.ScratchAndCommonWords := ⟨scratchClauses, commonClauses⟩

end Sys2Proof.Machine
end

section
/-!
PROOFS for O37: what a word that neither issues nor waits leaves, and TRAP (R269, R456).
-/

namespace Sys2Proof.Machine

/-! ## Words that neither issue nor wait -/

theorem modCls_of_fixed {s : State} {c : Nat} {f : ClassState → ClassState} (h : f (getCls s c) = getCls s c) :
    modCls s c f = s := by
  have id_ : modCls s c (fun k => k) = s := by
    rw [modCls, show s.cls.modify c (fun k => k) = s.cls from List.modify_id c s.cls]
  exact (modCls_congr (g := fun k => k) h).trans id_

/-- Of the state that a word's body leaves, nothing but the block signature of the class may still move on. -/
def UpToBlock (c : Nat) (u t : State) : Prop := ∃ b, t = modCls u c fun k => { k with block := b }

theorem UpToBlock.refl (c : Nat) (u : State) : UpToBlock c u u := ⟨(getCls u c).block, (modCls_of_fixed rfl).symm⟩

/-- The word of S whose signature steps on to `b`, and whose body neither issues nor waits. -/
theorem runWord_stop_signed {i : Instr} {s u : State} {c : Nat} {b : BlockSig} {body : State → Res} (R : Ready i s c .s)
    (signs : blockStep (getCls s c) i = .ok b) (hb : body s = .stop u) : runWord i body s
      = .next (if (getCls u c).ws.ord = (getCls s c).ws.ord + 1 ∧ (getCls u c).run = (getCls s c).run
          then modCls u c fun k => { k with block := some b } else u) := by
  have issued : issue i body s c .s = u := by
    simp [issue, R.notRetired, R.handler, R.free, hb, finish]
  simp [runWord, R.focus, R.runs, R.walks, R.open_, R.owns, checked, signs, issued]

theorem runWord_stop_upToBlock {i : Instr} {s u : State} {c : Nat} {body : State → Res} (R : Ready i s c .s)
    (hb : body s = .stop u) : ∃ t, runWord i body s = .next t ∧ UpToBlock c u t := by
  obtain ⟨b, signs⟩ := R.signed rfl
  refine ⟨_, runWord_stop_signed R signs hb, ?_⟩
  split
  · exact ⟨some b, rfl⟩
  · exact .refl c u

theorem UpToBlock.getCls {c : Nat} {u t : State} (h : UpToBlock c u t) (hc : c < u.cls.length) :
    ∃ b, Machine.getCls t c = { Machine.getCls u c with block := b } := by
  obtain ⟨b, rfl⟩ := h
  exact ⟨b, getCls_modCls u c _ hc⟩

theorem UpToBlock.getCls_ne {c j : Nat} {u t : State} (h : UpToBlock c u t) (ne : j ≠ c) :
    Machine.getCls t j = Machine.getCls u j := by
  obtain ⟨b, rfl⟩ := h
  exact getCls_modCls_ne u c j _ ne

theorem UpToBlock.teams {c : Nat} {u t : State} (h : UpToBlock c u t) : t.teams = u.teams := by
  obtain ⟨b, rfl⟩ := h
  rfl

theorem UpToBlock.mem {c : Nat} {u t : State} (h : UpToBlock c u t) : t.mem = u.mem := by
  obtain ⟨b, rfl⟩ := h
  rfl

theorem UpToBlock.live {c : Nat} {u t : State} (h : UpToBlock c u t) (j : Nat) :
    (Machine.getCls t j).live = (Machine.getCls u j).live := by
  obtain ⟨b, rfl⟩ := h
  have same := getD_of_map (map_modify_same (f := fun k : ClassState => { k with block := b }) (g := ClassState.stood)
    (fun _ => rfl) u.cls c) j
  exact congrArg Prod.fst same

/-! ## TRAP -/

/-- Taking a cause leaves the block signature, or begins a handler at position 0 of its path (R267, R269). -/
theorem takeCause_block (s : State) (c : Nat) (x : Cause) (hc : c < s.cls.length) :
    (getCls (takeCause s c x) c).block = (getCls s c).block ∨ (getCls (takeCause s c x) c).ws.ord = 0 := by
  simp only [takeCause]
  generalize named : modCls (setCause s c _ _ _ _) c _ = s1
  have inRange : c < s1.cls.length := by subst named; simpa [setCause] using hc
  have block : (getCls s1 c).block = (getCls s c).block := by
    subst named
    rw [getCls_modCls _ c _ (by simpa [setCause] using hc), setCause, getCls_modCls s c _ hc]
  split
  · exact .inl (by rw [getCls_modCls (causeEvent s1 c) c _ inRange]; exact block)
  · split
    · exact .inl (by rw [getCls_controlFlowFault _ _ inRange]; exact block)
    · exact .inr (by rw [getCls_modCls s1 c _ inRange])

/-- The machine once TRAP has passed, its block signature stepped on to `b`. -/
def trapPassed (h : Hdr) (f : FSI) (s : State) (c : Nat) (b : BlockSig) : State :=
  modCls (finishDone s c .s (.trap h f) ((getCls s c).ws.wi + 1)) c fun k => { k with block := some b }

/-- The body of TRAP (R456). -/
def trapBody (h : Hdr) (f : FSI) (s : State) : Res :=
  match s.focus with
  | .fw _ => .done s
  | .cls c e =>
    let k := getCls s c
    let b := blockStep k (.trap h f)
    let ord := k.ws.ord
    let s := finishDone s c e (.trap h f) (k.ws.wi + 1)
    let s := match b with
      | .ok b => modCls s c fun k => { k with block := some b }
      | .error _ => s
    .stop (enterTrap s c 0x07 (some .s) ord (f.imm.setWidth 64))

theorem exec_trap (h : Hdr) (f : FSI) (s : State) : exec (.trap h f) s = runWord (.trap h f) (trapBody h f) s := rfl

theorem trapBody_cls {h : Hdr} {f : FSI} {s : State} {c : Nat} {b : BlockSig} (at_ : s.focus = .cls c .s)
    (signs : blockStep (getCls s c) (.trap h f) = .ok b) : trapBody h f s
      = .stop (enterTrap (trapPassed h f s c b) c 0x07 (some .s) (getCls s c).ws.ord (BitVec.ofNat 64 f.imm.toNat)) := by
  rw [BitVec.ofNat_toNat]
  simp only [trapBody, at_, signs]
  rfl

theorem passed_trapPassed {h : Hdr} {f : FSI} {s : State} {c : Nat} (b : BlockSig) (hc : c < s.cls.length) :
    Passed (.trap h f) s (trapPassed h f s c b) c .s ((getCls s c).ws.wi + 1) := by
  have passed := finishDone_passed (.trap h f) s c .s ((getCls s c).ws.wi + 1) none false 0 hc
  have silent : modCls s c (fun k => noteResolved k false 0) = s := modCls_of_fixed rfl
  rw [silent] at passed
  exact passed_block (some b) (by simpa [finishDone] using hc) passed

/-- TRAP passes, then raises its cause. -/
theorem exec_trap_passes {h : Hdr} {f : FSI} {s : State} {c : Nat} (R : Ready (.trap h f) s c .s) :
    ∃ t, Passed (.trap h f) s t c .s ((getCls s c).ws.wi + 1) ∧ exec (.trap h f) s
      = .next (enterTrap t c 0x07 (some .s) (getCls s c).ws.ord (BitVec.ofNat 64 f.imm.toNat)) := by
  obtain ⟨b, signs⟩ := R.signed rfl
  refine ⟨trapPassed h f s c b, passed_trapPassed b R.inRange, ?_⟩
  rw [exec_trap, runWord_stop_signed R signs (trapBody_cls R.focus signs)]
  congr 1
  have inRange : c < (finishDone s c .s (.trap h f) ((getCls s c).ws.wi + 1)).cls.length := by simpa [finishDone] using R.inRange
  have stepped : (getCls (trapPassed h f s c b) c).block = some b := by
    rw [trapPassed, getCls_modCls _ c _ inRange]
  refine ite_eq_right_iff.2 fun ⟨on, _⟩ => modCls_of_fixed ?_
  -- the S walker stands past TRAP, so no handler has begun and the signature is the one that TRAP left
  rw [enterTrap] at on ⊢
  have block := (takeCause_block (trapPassed h f s c b) c _ (by simpa [trapPassed] using inRange)).resolve_right
    fun zero => absurd (zero.symm.trans on) (by omega)
  rw [← stepped, ← block]

end Sys2Proof.Machine
end

section
/-!
PROOFS for O37: RETT puts the interrupted walkers back and settles the trapping word (R269, R335, R457).
-/

namespace Sys2Proof.Machine

/-! ## What settling makes of the trapping word (R269) -/

/-- Settling leaves of a class everything but its trap, the words in flight, TFMT, the tags and the words to retire. -/
theorem settle_eq (k : ClassState) (skip : Bool) : ∃ trap inflight tfmt rsv tok retire,
    settle k skip = { k with trap := trap, inflight := inflight, tfmt := tfmt, rsv := rsv, tok := tok, retire := retire } := by
  unfold settle
  split
  · exact ⟨_, _, _, _, _, _, rfl⟩
  · dsimp only
    split
    · split
      · exact ⟨_, _, _, _, _, _, rfl⟩
      · split
        · unfold retireOp pushToken
          split <;> exact ⟨_, _, _, _, _, _, rfl⟩
        · exact ⟨_, _, _, _, _, _, rfl⟩
    · split
      · exact ⟨_, _, _, _, _, _, rfl⟩
      · split <;> exact ⟨_, _, _, _, _, _, rfl⟩

theorem settle_retires {k : ClassState} {x : Cause} {e : Eng} (trapped : k.trap = some x) (unissued : x.op = none)
    (at_ : x.eng = some e) (notTrap : x.code ≠ 0x07) : (settle k true).retire = (e, k.run, x.ord) :: k.retire := by
  simp [settle, trapped, unissued, at_, show x.code ≠ 7#8 from notTrap]

theorem inflight_retireOp (k : ClassState) (f : InFlight) : (retireOp k f).inflight = k.inflight.filter fun g => g.id ≠ f.id := by
  unfold retireOp pushToken
  split <;> rfl

theorem settle_drops {k : ClassState} {x : Cause} {id : Nat} (trapped : k.trap = some x) (issued : x.op = some id) :
    ∀ w ∈ (settle k true).inflight, w.id ≠ id := by
  intro w mem
  simp only [settle, trapped, issued] at mem
  split at mem
  next absent => simpa using List.find?_eq_none.1 absent w mem
  next f found =>
    have named : f.id = id := by simpa using List.find?_some found
    simp only [if_true, inflight_retireOp] at mem
    simpa [named] using (List.mem_filter.1 mem).2

theorem settle_reissues {k : ClassState} {x : Cause} {id : Nat} {w : InFlight} (trapped : k.trap = some x) (issued : x.op = some id)
    (found : k.inflight.find? (fun w => w.id = id) = some w) :
    (settle k false).inflight = k.inflight.map fun w => if w.id = id then { w with status := .again } else w := by
  simp [settle, trapped, issued, found]

/-! ## RETT -/

/-- A class whose handler returns to the frame, the trapping word not yet settled (R269). -/
def unframed (fr : TrapFrame) (k : ClassState) : ClassState :=
  let back := fun (w now : Walker) => { w with loops := now.loops, rstack := now.rstack }
  { k with
    hold := none, hmode := false, frame := none, run := fr.run, block := fr.block
    ws := back fr.ws k.ws, wa := back fr.wa k.wa, wx := back fr.wx k.wx, wv := fr.wv, wm := fr.wm
    strictOld := k.strictOld.filter fun x => x.1 == fr.run, pend := fr.pend, resolved := fr.resolved }

/-- With no further cause pending the return is a change of the class alone. -/
theorem returnTrap_eq {s : State} {c : Nat} {fr : TrapFrame} {skip : Bool} (framed : (getCls s c).frame = some fr)
    (alone : (getCls s c).causes = []) (hc : c < s.cls.length) :
    returnTrap s c skip = modCls s c fun k => settle (unframed fr k) skip := by
  have back : returnTrap s c skip = takePending (modCls s c fun k => settle (unframed fr k) skip) c := by
    rw [returnTrap]
    exact congrArg (takePending · c) (modCls_congr (by rw [framed]; rfl))
  obtain ⟨_, _, _, _, _, _, settled⟩ := settle_eq (unframed fr (getCls s c)) skip
  have none_ : (getCls (modCls s c fun k => settle (unframed fr k) skip) c).causes = [] := by
    rw [getCls_modCls s c _ hc, settled]
    exact alone
  rw [back, takePending, none_]
  rfl

theorem tagsDone_unpend_eq (k : ClassState) (e : Eng) (h : Hdr) : ∃ tok taken pend,
    tagsDone (unpend k e) e h = { k with tok := tok, taken := taken, pend := pend } := by
  unfold tagsDone consume unpend
  dsimp only
  (repeat' split) <;> exact ⟨_, _, _, rfl⟩

/-- The body of RETT (R457). -/
def rettBody (h : Hdr) (f : FSI) (s : State) : Res :=
  match s.focus with
  | .fw _ => .done s
  | .cls c _ =>
    let k := getCls s c
    if !k.hmode then .done s
    else if k.wa.ord = k.ws.ord ∧ k.wx.ord = k.ws.ord then
      .stop (returnTrap (modCls s c fun k => tagsDone (unpend k .s) .s h) c (f.imm = 1))
    else .stall

theorem exec_rett (h : Hdr) (f : FSI) (s : State) : exec (.rett h f) s = runWord (.rett h f) (rettBody h f) s := rfl

section
variable {h : Hdr} {f : FSI} {s : State} {c : Nat} (at_ : s.focus = .cls c .s)
include at_

theorem rettBody_outside (outside : (getCls s c).hmode = false) : rettBody h f s = .done s := by
  simp [rettBody, at_, outside]

theorem rettBody_waits (handler : (getCls s c).hmode = true)
    (apart : ¬ ((getCls s c).wa.ord = (getCls s c).ws.ord ∧ (getCls s c).wx.ord = (getCls s c).ws.ord)) :
    rettBody h f s = .stall := by
  simp only [rettBody, at_, handler, Bool.not_true, Bool.false_eq_true, if_false, if_neg apart]

theorem rettBody_returns {fr : TrapFrame} (handler : (getCls s c).hmode = true) (framed : (getCls s c).frame = some fr)
    (a : (getCls s c).wa.ord = (getCls s c).ws.ord) (x : (getCls s c).wx.ord = (getCls s c).ws.ord)
    (alone : (getCls s c).causes = []) (hc : c < s.cls.length) : rettBody h f s
      = .stop (modCls s c fun k => settle (unframed fr (tagsDone (unpend k .s) .s h)) (f.imm = 1)) := by
  have tagged := getCls_modCls s c (fun k => tagsDone (unpend k .s) .s h) hc
  obtain ⟨tok, taken, pend, eq⟩ := tagsDone_unpend_eq (getCls s c) .s h
  have back := returnTrap_eq (s := modCls s c fun k => tagsDone (unpend k .s) .s h) (c := c) (fr := fr) (skip := decide (f.imm = 1))
    (by rw [tagged, eq]; exact framed) (by rw [tagged, eq]; exact alone) (by simpa using hc)
  simp only [rettBody, at_, handler, Bool.not_true, Bool.false_eq_true, if_false, if_pos (And.intro a x), back, modCls_modCls]

end

/-- RETT in a handler that A and X have reached, but for the block signature. -/
theorem exec_rett_returns {h : Hdr} {f : FSI} {s : State} {c : Nat} {fr : TrapFrame} (R : Ready (.rett h f) s c .s)
    (handler : (getCls s c).hmode = true) (framed : (getCls s c).frame = some fr)
    (a : (getCls s c).wa.ord = (getCls s c).ws.ord) (x : (getCls s c).wx.ord = (getCls s c).ws.ord)
    (alone : (getCls s c).causes = []) : ∃ t tok taken pend block, exec (.rett h f) s = .next t
      ∧ getCls t c = { settle (unframed fr { getCls s c with tok := tok, taken := taken, pend := pend }) (f.imm = 1) with
          block := block }
      ∧ (∀ j, j ≠ c → getCls t j = getCls s j) ∧ t.mem = s.mem := by
  obtain ⟨t, step, same⟩ := runWord_stop_upToBlock R (rettBody_returns R.focus handler framed a x alone R.inRange)
  obtain ⟨block, now⟩ := same.getCls (by simpa using R.inRange)
  obtain ⟨tok, taken, pend, tagged⟩ := tagsDone_unpend_eq (getCls s c) .s h
  rw [getCls_modCls s c _ R.inRange, tagged] at now
  exact ⟨t, tok, taken, pend, block, step, now, fun j ne => (same.getCls_ne ne).trans (getCls_modCls_ne s c j _ ne), same.mem⟩

end Sys2Proof.Machine
end

section
/-!
PROOFS for O37: EXIT, and the statement (R175, R237, R370).
-/

namespace Sys2Proof.Machine

/-! ## EXIT -/

theorem doRelease_teams (s : State) (c scope : Nat) (upto : Option WordId) (d : Option Nat) :
    (doRelease s c scope upto d).teams = s.teams := by
  have merged : (if 1 ≤ scope then mergePartials (landTransit s c) c d else landTransit s c).teams = s.teams := by
    split
    · exact (mergePartials_frame ..).2.trans (landTransit_frame s c).2
    · exact (landTransit_frame s c).2
  unfold doRelease
  dsimp only
  split
  · split <;> exact merged
  · exact merged

/-- The machine once the release of an EXIT is made and the S walker stands at EXIT (R237, R370). -/
def exitReleased (h : Hdr) (s : State) (c : Nat) : State :=
  modCls (doRelease s c 2 none none) c fun k => { tagsDone k .s h with ws := { k.ws with atExit := true } }

/-- A team of which class `c` has arrived at the exit barrier. -/
def arrivedTeam (t : Team) (c : Nat) : Team := { t with arrived := c :: t.arrived }

/-- The machine once class `c` has arrived. -/
def exitArrived (h : Hdr) (s : State) (c : Nat) (t : Team) : State :=
  modTeam (exitReleased h s c) t.id fun _ => arrivedTeam t c

/-- What the arrival of class `c` comes to: the last one ends the team (R175). -/
def exitTaken (h : Hdr) (s : State) (c : Nat) (t : Team) : State :=
  if (arrivedTeam t c).classes.all (arrivedTeam t c).arrived.contains then endTeam (exitArrived h s c t) (arrivedTeam t c)
  else exitArrived h s c t

/-- Something of class `c` has not come to EXIT yet, or the class has arrived (R157, R370). -/
def exitBusy (k : ClassState) : Bool :=
  k.ws.atExit || !([Eng.a, .v, .m, .x].all fun e => (walkerOf k e).atExit) || !k.inflight.isEmpty || !k.pend.isEmpty

/-- The body of EXIT (R370). -/
def exitBody (h : Hdr) (s : State) : Res :=
  match s.focus with
  | .fw _ => .done s
  | .cls c _ =>
    if exitBusy (getCls s c) then .stall
    else match teamOf (exitReleased h s c) c with
      | none => .stop (exitReleased h s c)
      | some t => .stop (exitTaken h s c t)

theorem exec_exit (h : Hdr) (s : State) : exec (.exit h) s = runWord (.exit h) (exitBody h) s := rfl

theorem exitReleased_teams (h : Hdr) (s : State) (c : Nat) : (exitReleased h s c).teams = s.teams := doRelease_teams ..

theorem exitReleased_length (h : Hdr) (s : State) (c : Nat) : (exitReleased h s c).cls.length = s.cls.length := by
  rw [exitReleased, length_modCls, (lessened_doRelease ..).length]

theorem exitBusy_eq_false {k : ClassState} (open_ : k.ws.atExit = false)
    (there : ∀ e : Eng, e ≠ .s → (walkerOf k e).atExit = true) (idle : k.inflight = []) (none_ : k.pend = []) :
    exitBusy k = false := by
  simp [exitBusy, open_, there .a, there .v, there .m, there .x, idle, none_]

theorem exitBusy_of {k : ClassState}
    (busy : (∃ e : Eng, e ≠ .s ∧ (walkerOf k e).atExit = false) ∨ k.inflight ≠ [] ∨ k.pend ≠ []) : exitBusy k = true := by
  rcases busy with ⟨e, other, early⟩ | flying | pending
  · have listed : e ∈ [Eng.a, .v, .m, .x] := by cases e <;> simp at other ⊢
    have missing : ([Eng.a, .v, .m, .x].all fun e => (walkerOf k e).atExit) = false :=
      List.all_eq_false.2 ⟨e, listed, by simp [early]⟩
    simp [exitBusy, missing]
  · simp [exitBusy, flying]
  · simp [exitBusy, pending]

theorem exitBody_arrives {h : Hdr} {s : State} {c : Nat} {t : Team} (at_ : s.focus = .cls c .s)
    (free : exitBusy (getCls s c) = false) (team : teamOf s c = some t) : exitBody h s = .stop (exitTaken h s c t) := by
  have stays : teamOf (exitReleased h s c) c = some t := by rw [teamOf, exitReleased_teams]; exact team
  simp only [exitBody, at_, free, stays]
  rfl

theorem exitBody_waits {h : Hdr} {s : State} {c : Nat} (at_ : s.focus = .cls c .s) (busy : exitBusy (getCls s c) = true) :
    exitBody h s = .stall := by
  simp only [exitBody, at_, busy, if_true]

/-! ### The last arrival (R175) -/

theorem relend_unlent (s : State) : (relend s).teams.map Team.unlent = s.teams.map Team.unlent := by
  have publish : ∀ (l : List Team) (u : State),
      (l.foldl (fun s t => if t.state == .saved then s else publishPrio s t.id) u).teams = u.teams := by
    intro l
    induction l with
    | nil => exact fun _ => rfl
    | cons t l ih =>
      intro u
      rw [List.foldl_cons, ih]
      split
      · rfl
      · exact publishPrio_teams ..
  rw [relend_eq, publish, (lentOnly_lent s).2]

theorem leaveClasses_cls (s : State) (cs : List Nat) :
    (leaveClasses s cs).cls = (cs.foldl (fun s c => modCls s c leftClass) s).cls := by
  unfold leaveClasses
  dsimp only
  split <;> rfl

theorem leaveClasses_teams (s : State) (cs : List Nat) : (leaveClasses s cs).teams = s.teams := by
  have frame := (foldl_modCls_frame leftClass cs s).1
  unfold leaveClasses
  dsimp only
  split <;> exact frame

/-- A class that its team has left runs no more. -/
theorem live_foldl_leftClass {cs : List Nat} {m : Nat} : ∀ {s : State}, m < s.cls.length →
    m ∈ cs ∨ (getCls s m).live = false → (getCls (cs.foldl (fun s c => modCls s c leftClass) s) m).live = false := by
  induction cs with
  | nil => exact fun _ left => left.resolve_left List.not_mem_nil
  | cons c cs ih =>
    intro s inRange left
    rw [List.foldl_cons]
    refine ih (by simpa using inRange) ?_
    by_cases at_ : m = c
    · subst at_
      rw [getCls_modCls s m _ inRange]
      exact .inr rfl
    · rw [getCls_modCls_ne s c m _ at_]
      exact left.imp_left fun mem => (List.mem_cons.1 mem).resolve_left at_

/-- The team ends: it stands no more and its classes run no more. -/
theorem endTeam_effect (s : State) (t : Team) : (∀ u ∈ (endTeam s t).teams, u.id ≠ t.id)
    ∧ ∀ m ∈ t.classes, m < s.cls.length → (getCls (endTeam s t) m).live = false := by
  let left : State := { leaveClasses s t.classes with teams := (leaveClasses s t.classes).teams.filter fun u => u.id ≠ t.id }
  have ended : endTeam s t = relend left := rfl
  rw [ended]
  refine ⟨fun u mem => ?_, fun m mem inRange => ?_⟩
  · have listed : u.id ∈ left.teams.map (·.id) := ids_of_unlent (relend_unlent left) ▸ List.mem_map_of_mem mem
    obtain ⟨v, standing, same⟩ := List.mem_map.1 listed
    have other : v.id ≠ t.id := by simpa using (List.mem_filter.1 standing).2
    exact same ▸ other
  · have live : (getCls (relend left) m).live = (getCls left m).live :=
      congrArg Prod.fst (getD_of_map (prioOnly_relend left).cls m)
    rw [live, getCls, show left.cls = _ from leaveClasses_cls s t.classes]
    exact live_foldl_leftClass inRange (.inl mem)

/-- The last arrival is that after which every member has arrived. -/
theorem exitTaken_eq (h : Hdr) (s : State) (c : Nat) (t : Team) : exitTaken h s c t
    = if ∀ m ∈ t.classes, m = c ∨ m ∈ t.arrived then endTeam (exitArrived h s c t) (arrivedTeam t c)
      else exitArrived h s c t := by
  simp [exitTaken, arrivedTeam]

theorem exitArrived_effect {h : Hdr} {s : State} {c : Nat} {t0 : Team} (team : teamOf s c = some t0) (hc : c < s.cls.length) :
    (getCls (exitArrived h s c t0) c).ws.atExit = true
      ∧ ∃ u ∈ (exitArrived h s c t0).teams, u.id = t0.id ∧ u.arrived = c :: t0.arrived := by
  have stands : t0 ∈ (exitReleased h s c).teams := by
    rw [exitReleased_teams]
    exact List.mem_of_find?_eq_some team
  refine ⟨?_, arrivedTeam t0 c, List.mem_map.2 ⟨t0, stands, if_pos rfl⟩, rfl, rfl⟩
  exact congrArg (·.ws.atExit) (getCls_modCls (doRelease s c 2 none none) c _ (by rwa [(lessened_doRelease ..).length]))

/-- Settles O37: TRAP by what passes and is taken, RETT by what settling leaves, EXIT by what an arrival does. -/
theorem trapReturnExitWords : Obligations.TrapReturnExitWords := by
  unfold Obligations.TrapReturnExitWords
  refine ⟨fun h f s c R _ => exec_trap_passes R, fun h f s c R outside => ?_, fun h f s c fr R handler framed a x alone => ?_,
    fun h f s c R handler apart => ?_, fun h s c t0 R team _ there idle none_ => ?_, fun h s c R busy => ?_⟩
  · exact executes_of_done R (exec_rett h f s) (rettBody_outside R.focus outside) R.inRange
  · obtain ⟨t, tok, taken, pend, block, step, now, others, mem⟩ := exec_rett_returns R handler framed a x alone
    refine ⟨t, step, ?_, others, mem⟩
    generalize back : unframed fr { getCls s c with tok := tok, taken := taken, pend := pend } = k at now
    obtain ⟨_, _, _, _, _, _, settled⟩ := settle_eq k (f.imm = 1)
    rw [now]
    refine ⟨?_, ?_, ?_, ?_, ?_, ?_, ?_, ?_, ?_, ?_, ?_, ?_, ?_, fun skip x e trapped unissued at_ notTrap => ?_,
      fun skip x id trapped issued => ?_, fun again x id w trapped issued found => ?_⟩
    rotate_left 13
    · simp only [skip, decide_true]
      subst back
      exact settle_retires trapped unissued at_ notTrap
    · simp only [skip, decide_true]
      subst back
      exact settle_drops trapped issued
    · simp only [again, decide_false]
      subst back
      exact settle_reissues trapped issued found
    all_goals
      rw [settled]
      subst back
      rfl
  · exact waits_of_stall R (exec_rett h f s) (rettBody_waits R.focus handler apart)
  · have free := exitBusy_eq_false R.open_ there idle none_
    obtain ⟨t, step, same⟩ := runWord_stop_upToBlock R (exitBody_arrives R.focus free team)
    have inRange : ∀ m, m < s.cls.length → m < (exitArrived h s c t0).cls.length := fun m hm => by
      simpa [exitArrived, modTeam, exitReleased_length] using hm
    rw [exitTaken_eq] at same
    refine ⟨t, step, fun ⟨m, mem, other, missing⟩ => ?_, fun all_ => ?_⟩
    · rw [if_neg fun all_ => (all_ m mem).elim other missing] at same
      obtain ⟨atExit, arrived⟩ := exitArrived_effect (h := h) team R.inRange
      obtain ⟨_, now⟩ := same.getCls (inRange c R.inRange)
      rw [now, same.teams]
      exact ⟨atExit, arrived⟩
    · rw [if_pos all_] at same
      obtain ⟨gone, stopped⟩ := endTeam_effect (exitArrived h s c t0) (arrivedTeam t0 c)
      rw [same.teams]
      exact ⟨gone, fun m mem hm => (same.live m).trans (stopped m mem (inRange m hm))⟩
  · exact waits_of_stall R (exec_exit h s) (exitBody_waits R.focus (exitBusy_of busy))

end Sys2Proof.Machine
end

section
/-!
PROOFS for O34: a machine on which the clause of the answered corridor words fails.
-/

namespace Sys2Proof.Machine

/-- A corridor word whose data wait to land does not complete, whatever its status (R126, R280). -/
theorem exec_wordCompletion_of_held {s : State} {c id : Nat} {f : InFlight} {h : Hdr} {g : FXC} (found : findOp s c id = some f)
    (word : f.instr = .xrecv h g) (held : f.held.isSome = true) : exec (.wordCompletion c id) s = .next s := by
  have waits : f.held.isNone = false := by simp [Option.isNone_eq_false_iff, held]
  change execWordCompletion c id s = _
  rw [execWordCompletion, found]
  simp only [word, waits, Bool.and_false, Bool.false_eq_true, if_false]
  rfl

/-- An XRECV whose request is acknowledged and whose data have not landed. -/
def answeredTransfer : InFlight := { heldTransfer with status := .answered }

/-- Class 0 runs, with the transfer in flight. -/
def answeredMachine : State :=
  { State.reset with cls := State.reset.cls.modify 0 fun k => { k with live := true, inflight := [answeredTransfer] } }

/-- Refutes O34: an answered corridor word of a class that runs is said to complete. The model has it wait while it still holds data
that have not landed (`held`), of which the clause says nothing; the statement's state may hold such data on a class that is not
frozen. -/
theorem not_issuedWordsComplete : ¬ Obligations.IssuedWordsComplete := by
  unfold Obligations.IssuedWordsComplete
  rintro ⟨-, -, -, -, -, hcorridor, -⟩
  have found : findOp answeredMachine 0 0 = some answeredTransfer := by decide +kernel
  obtain ⟨completes, -⟩ := hcorridor answeredMachine 0 0 answeredTransfer default default found (.inr (.inl rfl))
  have step := completes rfl (by decide +kernel) (by decide +kernel)
  rw [exec_wordCompletion_of_held found rfl rfl] at step
  -- a completed word is no longer in flight
  have gone : findOp answeredMachine 0 answeredTransfer.id = none := by
    have inRange : 0 < answeredMachine.cls.length := by decide +kernel
    rw [Host.Outcome.next.inj step]
    exact findOp_complete (by rwa [(lessened_setS ..).length])
  exact absurd (found.symm.trans gone) nofun

end Sys2Proof.Machine
end

section
/-!
PROOFS for O15: a GATHER under the seating plan that stands in the middle of an index line.
-/

namespace Sys2Proof.Machine

/-- A run of partition 1 whose one node asks for the seating plan (R103, R111). -/
def seatedInstance : Instance :=
  { num := 1, part := 1, queue := 0, entry := [], gid := 0, excl := false
    snaps := [⟨leBytes 8 (2 * 2 ^ 60) ++ List.replicate 120 0, [], [], []⟩], nctr := 0
    state := .running, nodes := [{ state := .ready }] }

/-- A GATHER of 17 rows of 64 bytes from address 0 to tower offset 0, its index lists at a[1]. -/
def gatherFields : FAM := ⟨0, 0, 1, 0, 0, 0, 17⟩

/-- What has been read of the lists: one index of desk 5, the third of the desks that execute, and none of the others. -/
def partLists : List (List Nat) := [[], [], [0]]

/-- Class 0 runs under the seating plan with its A walker at the GATHER; the lists begin with the last line of the desk's own tower.
Line 0 of tower 4, which desk 5 borrows (R111), holds a one. -/
def straddling : State :=
  { State.reset with
    focus := .cls 0 .a
    insts := [seatedInstance]
    teams := [{ id := 5, inst := 1, node := 0, ord := 0, classes := [0], own := 0 }]
    cls := State.reset.cls.modify 0 fun k =>
      { k with live := true, areg := [(1, 2 ^ 25 - 64)], taken := [⟨0, 0, some partLists⟩] }
    mem := [(towerAddr 0 4 0, 1)] }

theorem straddling_ready : Ready (.gather default gatherFields) straddling 0 .a where
  focus := rfl
  inRange := by decide +kernel
  runs := by decide +kernel
  walks := rfl
  open_ := rfl
  owns := rfl
  notRetired := by decide +kernel
  handler := rfl
  free := by decide +kernel
  signed := nofun
  once := nofun

/-- The last index of desk 5 in what a word has read of its lists. -/
def lastIndex (o : Out) : Option Nat :=
  match o with
  | .next t => (getCls t 0).taken.head?.bind fun x => x.index.bind fun ls => (ls.getD 2 []).getLast?
  | _ => none

/-- From the second index on, the 64 bytes read at once begin inside a line and run past the end of tower 5, whose neighbour in the
class's memory is tower 6 (R176). -/
theorem lastIndex_gather : lastIndex (exec (.gather default gatherFields) straddling) = some 0 := by decide +kernel

/-- Refutes O15: of the third clause of the indexed words, each index that GATHER reads comes from the tower that its own offset
names. The model reads index lists in runs of 64 bytes; where the lists read so far end inside a line, a run can begin in the desk's
own tower and end past it, and its last index is not the borrowed tower's. The statement takes any lists as read so far, while the
model's own cycles read whole lines, eight of each desk (R381), so that no run of theirs crosses a tower's end. -/
theorem not_copyAndIndexedWordsIssue : ¬ Obligations.CopyAndIndexedWordsIssue := by
  unfold Obligations.CopyAndIndexedWordsIssue IndexedClauses
  rintro ⟨-, -, -, reads, -⟩
  have alone : olderOps (getCls straddling 0) (getCls straddling 0).wa.ord = [] := by decide +kernel
  have soFar : partLists = ((takenHere (getCls straddling 0) .a).bind (·.index)).getD [] := by decide +kernel
  have rowsFit : TowerRange straddling 0 (regA straddling 0 gatherFields.ad).toNat
      (gatherFields.imm.toNat * (64 * 2 ^ (gatherFields.mode.extractLsb' 4 4).toNat)) := by unfold TowerRange; decide +kernel
  have listsFit : TowerRange straddling 0 (regA straddling 0 gatherFields.an).toNat ((4 * gatherFields.imm.toNat + 63) / 64 * 64) := by
    unfold TowerRange; decide +kernel
  have uncounted : CounterOk straddling 0 (gatherFields.mode.getLsbD 3) gatherFields.sc := fun h => absurd h (by decide)
  have base : (regA straddling 0 gatherFields.as).toNat % 64 = 0 := by decide +kernel
  have unread : (partLists.headD []).length ≠ gatherFields.imm.toNat := by decide +kernel
  have step := reads default gatherFields straddling 0 (.gather default gatherFields) _ partLists (.inl ⟨rfl, rfl⟩)
    straddling_ready (by decide +kernel) soFar rfl unread rowsFit base listsFit uncounted (fun g older => absurd (alone ▸ older) List.not_mem_nil)
  have differ := congrArg lastIndex step
  rw [lastIndex_gather] at differ
  exact absurd differ (by decide +kernel)

end Sys2Proof.Machine
end

section
/-!
PROOFS for O18: a line of two classes whose remap tables name one tower twice.
-/

namespace Sys2Proof.Machine

/-- Fields of a shift of one tower line to the east that wraps round the edge. -/
def eastFields : FXS := ⟨0, 0, 2, 0, 0⟩

/-- That shift in flight, its destination the first line of the towers, each desk's source a line of bytes `b`. -/
def eastShift (b : Byte) : InFlight :=
  { id := 0, ord := 0, run := 0, eng := .x, instr := .xsht default eastFields, ops := [0]
    moves := List.replicate 32 ⟨.line (List.replicate 64 b) none, .none, 64⟩ }

/-- What its class brings to the line. -/
def eastLine (b : Byte) : LineShift := ⟨2, 0, 1, fun _ => [(List.replicate 64 b, none)]⟩

theorem keptUnits_eastShift (b : Byte) : KeptUnits (eastShift b) eastFields (eastLine b) where
  dir := rfl
  edge := rfl
  lines := rfl
  moves := rfl
  sized := fun _ _ => rfl
  whole := fun _ _ l h => by rw [List.mem_singleton.1 h]; exact ⟨rfl, nofun⟩

/-- Team 5 of classes 0 and 1. -/
def eastTeam : Team := { id := 5, inst := 1, node := 0, ord := 0, classes := [0, 1], own := 0 }

/-- The team is an east-west line, and both members hold their shift, class 0 with bytes 0 and class 1 with bytes 6. The remap table
of class 0 has tower 34 for desk 0, where a class has 34 towers, 0 to 33 (R189). -/
def remappedLine : State :=
  { State.reset with
    insts := [{ num := 1, part := 1, queue := 0, entry := [], gid := 0, excl := false
                snaps := [⟨leBytes 8 (2 ^ 53) ++ List.replicate 120 0, [], [], []⟩], nctr := 0
                state := .running, nodes := [{ state := .ready }] }]
    teams := [eastTeam]
    cls := (State.reset.cls.modify 0 fun k => { k with live := true, inflight := [eastShift 0], remap := [(0, 34)] }).modify 1 fun k =>
      { k with live := true, inflight := [eastShift 6] } }


theorem remappedLine_found : findOp remappedLine 0 0 = some (eastShift 0) := by decide +kernel

/-- Both members have issued: the line moves (R193). -/
theorem exec_remappedLine : exec (.wordCompletion 0 0) remappedLine = .next (shiftAll remappedLine eastTeam 1) := by
  have members : (eastTeam.classes.all fun m => (getCls remappedLine m).live && !(getCls remappedLine m).frozen) = true := by
    decide +kernel
  have shape : shapeOf remappedLine 0 = 1 := by decide +kernel
  have team : teamOf remappedLine 0 = some eastTeam := by decide +kernel
  change execWordCompletion 0 0 remappedLine = _
  rw [execWordCompletion, remappedLine_found]
  simp only [eastShift, team, members, shape, if_true]
  rfl

/-- Desk 0 of class 0 is to receive the line of class 1's last column. -/
theorem lineIn_eastLine : lineIn 1 [eastLine 0, eastLine 6] 0 0 = [(List.replicate 64 6, none)] := by decide +kernel

/-- Its tower holds what desk 0 of class 1 received, which the shift writes later to the same tower. -/
theorem towerUnit_remappedLine :
    towerUnit (shiftAll remappedLine eastTeam 1) 0 0 0 1 = [(List.replicate 64 0, none)] := by decide +kernel

theorem remapOk_remappedLine : RemapOk (getCls remappedLine 0) ∧ RemapOk (getCls remappedLine 1) := by
  have zero : (getCls remappedLine 0).remap = [(0, 34)] := by decide +kernel
  have one : (getCls remappedLine 1).remap = [] := by decide +kernel
  constructor <;> intro d e hd he same
  · simp only [physTower, zero, tget] at same
    split at same <;> split at same <;> omega
  · simpa [physTower, one, tget] using same

/-- Refutes O18: of its last clause, each desk of a line holds what it is to receive. Where the remap table of one member names a
tower that lies in the memory of the next member's first, two desks write one tower, and it holds what came to the later of them. The
statement takes remap tables that name no tower twice within a class (`RemapOk`) and sets no bound on the towers they name, which the
model's own repairs keep below 34 (R189). -/
theorem not_systolicShifts : ¬ Obligations.SystolicShifts := by
  unfold Obligations.SystolicShifts
  rintro ⟨-, -, -, -, moves⟩
  obtain ⟨remap0, remap1⟩ := remapOk_remappedLine
  have members : ∀ m ∈ eastTeam.classes, m < remappedLine.cls.length ∧ (getCls remappedLine m).live = true
      ∧ (getCls remappedLine m).frozen = false ∧ RemapOk (getCls remappedLine m) ∧ hotOn remappedLine m = false := by
    simp only [eastTeam, List.forall_mem_cons]
    exact ⟨⟨by decide +kernel, by decide +kernel, by decide +kernel, remap0, by decide +kernel⟩,
      ⟨by decide +kernel, by decide +kernel, by decide +kernel, remap1, by decide +kernel⟩, nofun⟩
  have oldest : eastTeam.classes.map (oldestShift remappedLine)
      = [(eastShift 0, eastFields), (eastShift 6, eastFields)].map some := by decide +kernel
  have inRange : (0 : Nat) % 64 = 0 ∧ 0 + 64 * 1 ≤ 2 ^ 25 := by decide
  obtain ⟨u, step, written, -⟩ := moves remappedLine 0 0 (eastShift 0) eastTeam 1 [(eastShift 0, eastFields), (eastShift 6, eastFields)]
    [eastLine 0, eastLine 6] remappedLine_found rfl (by decide +kernel) (by decide +kernel) (.inl rfl) (by decide +kernel)
    (by decide) members oldest rfl (by
      intro q f g x hf hx
      match q with
      | 0 => cases hf; cases hx; exact ⟨keptUnits_eastShift 0, inRange⟩
      | 1 => cases hf; cases hx; exact ⟨keptUnits_eastShift 6, inRange⟩)
  rw [exec_remappedLine] at step
  obtain rfl := Host.Outcome.next.inj step
  have line : towerUnit (shiftAll remappedLine eastTeam 1) 0 0 0 1 = lineIn 1 [eastLine 0, eastLine 6] 0 0 :=
    ((written 0 0 (eastShift 0) eastFields (eastLine 0) rfl rfl rfl).2 0 (by decide)).1
  rw [towerUnit_remappedLine, lineIn_eastLine] at line
  exact absurd line (by decide)

end Sys2Proof.Machine
end

section
/-!
PROOFS for O48: the identifiers of firmware events stand while data move (R461).
-/

namespace Sys2Proof.Machine

/-- The identifier of each die's next event for firmware (R461). -/
def nextEvents (s : State) : List Nat := s.dies.map (·.nextEv)

theorem nextEv_of_nextEvents {s t : State} (h : nextEvents t = nextEvents s) (d : Nat) : (getDie t d).nextEv = (getDie s d).nextEv :=
  getD_of_map (f := Die.nextEv) h d

theorem nextEvents_foldl {α : Type} {f : State → α → State} (h : ∀ s a, nextEvents (f s a) = nextEvents s) (l : List α) (s : State) :
    nextEvents (l.foldl f s) = nextEvents s := by
  induction l generalizing s with
  | nil => rfl
  | cons a l ih => exact (ih _).trans (h s a)

@[simp] theorem nextEvents_modCls (s : State) (c : Nat) (f : ClassState → ClassState) : nextEvents (modCls s c f) = nextEvents s := rfl
@[simp] theorem nextEvents_modNode (s : State) (i n : Nat) (f : Node → Node) : nextEvents (modNode s i n f) = nextEvents s := rfl
@[simp] theorem nextEvents_setIptEntry (s : State) (t f : Nat) (e : IptEntry) : nextEvents (setIptEntry s t f e) = nextEvents s := rfl

/-- Scan results of written frames are dropped (R338). -/
theorem nextEv_rescanned (p : Nat × Option Nat → Bool) (l : List Die) :
    (l.map fun d => { d with scan := d.scan.filter p }).map (·.nextEv) = l.map (·.nextEv) := List.map_map

@[simp] theorem nextEvents_writePhys (s : State) (a : Nat) (bs : List Byte) : nextEvents (writePhys s a bs) = nextEvents s :=
  nextEv_rescanned _ s.dies

@[simp] theorem nextEvents_movePoison (s : State) (p : Option Bool) (u : PUnit) : nextEvents (movePoison s p u) = nextEvents s := by
  cases p <;> rfl

theorem nextEvents_writePart (s : State) (c d off : Nat) (bs : List Byte) (p : Option Bool) :
    nextEvents (writePart s c d off bs p) = nextEvents s := by
  unfold writePart
  split
  · unfold writeLine
    dsimp only
    split
    · rfl
    · exact nextEvents_movePoison ..
  · cases p <;> rfl

/-! ## Blocks of a pool (R228) -/

@[simp] theorem nextEvents_poolWrite (s : State) (p : Pool) (off : Nat) (bs : List Byte) :
    nextEvents (poolWrite s p off bs) = nextEvents s := by
  have note : ∀ s u va, nextEvents (noteVa s u va) = nextEvents s := fun s u va => by
    unfold noteVa
    split <;> rfl
  rw [poolWrite, nextEvents_writePhys]
  unfold noteSpan
  split
  · rfl
  · exact nextEvents_foldl (fun s j => note s _ _) _ s

theorem nextEvents_copyBlock (s : State) (p : Pool) (a b : Nat) : nextEvents (copyBlock s p a b) = nextEvents s := by
  unfold copyBlock
  dsimp only
  split
  · exact nextEvents_poolWrite ..
  · exact (nextEvents_foldl (fun _ _ => nextEvents_movePoison ..) _ _).trans (nextEvents_poolWrite ..)

theorem nextEvents_copyOnWrite {s t : State} {c va : Nat} (e : copyOnWrite s c va = some t) : nextEvents t = nextEvents s := by
  unfold copyOnWrite at e
  split at e
  · cases e
    rfl
  · split at e
    · cases e
    next pop =>
      simp only [popBlock, Option.ite_none_left_eq_some, Option.some.injEq, Prod.mk.injEq] at pop
      obtain ⟨-, -, rfl⟩ := pop
      cases e
      simp only [setEntry, setRefCount, setFtop, poolWriteNat, nextEvents_poolWrite, nextEvents_copyBlock]

/-! ## Staged writes and shadows (R218, R236) -/

theorem nextEvents_copyFrame (s : State) (a b : Nat) : nextEvents (copyFrame s a b) = nextEvents s := by
  have tag : ∀ s t a b, nextEvents (moveTag s t a b) = nextEvents t := fun s t a b => by
    have P := nextEvents_movePoison t (poisonAt s (.phys a)) (.phys b)
    unfold moveTag
    dsimp only
    split <;> exact P
  have rescanned := nextEv_rescanned (fun e => !(e.1 == b)) s.dies
  unfold copyFrame
  dsimp only
  split
  · exact rescanned
  · exact (nextEvents_foldl (fun _ _ => tag ..) _ _).trans rescanned

theorem nextEvents_stageWrite {s u : State} {t : Team} {c pa va : Nat} {bs : List Byte} {p : Option Bool}
    (e : stageWrite s t c pa va bs p = some u) : nextEvents u = nextEvents s := by
  unfold stageWrite at e
  split at e
  · cases e
  · rw [Option.ite_none_left_eq_some] at e
    obtain ⟨-, e⟩ := e
    cases e
    rw [nextEvents_modNode]
    split
    · simp only [newShadow, nextEvents_setIptEntry, nextEvents_modNode, nextEvents_copyFrame]
    · rfl

theorem nextEvents_kernelWrite {s t : State} {c pa va : Nat} {bs : List Byte} {p : Option Bool}
    (e : kernelWrite s c pa va bs p = some t) : nextEvents t = nextEvents s := by
  unfold kernelWrite at e
  split at e
  · exact nextEvents_stageWrite e
  · cases e
    unfold writePa
    dsimp only
    split
    · exact nextEvents_writePhys ..
    · split
      · exact (nextEvents_movePoison ..).trans (nextEvents_writePhys ..)
      · cases p <;> exact nextEvents_writePhys ..

/-! ## The ends of a movement -/

theorem nextEvents_writeVa {s t : State} {c va : Nat} {held : List (Nat × Nat)} {bs qs : List Byte} {p q : Option Bool}
    (e : writeVa s c held va bs p = .ok t qs q) : nextEvents t = nextEvents s := by
  unfold writeVa at e
  split at e
  · split at e
    next k =>
      cases e
      exact nextEvents_kernelWrite k
    · cases e
  all_goals cases e

theorem nextEvents_writeView {c : Nat} {held : List (Nat × Nat)} {v : ViewSlot} {tiled : Bool} {qs : List Byte} {p q : Option Bool}
    {t : State} : ∀ {bs : List Byte} {s : State} {o : Nat}, writeView s c held v tiled p bs o = .ok t qs q → nextEvents t = nextEvents s
  | [], _, _, e => by
    cases e
    rfl
  | b :: bs, _, _, e => by
    unfold writeView at e
    split at e
    next w => exact (nextEvents_writeView e).trans (nextEvents_writeVa w)
    · exact nextEvents_writeVa e

theorem nextEvents_writeHandle {s t : State} {c va : Nat} {held : List (Nat × Nat)} {bs qs : List Byte} {p q : Option Bool}
    (e : writeHandle s c held va bs p = .ok t qs q) : nextEvents t = nextEvents s := by
  unfold writeHandle at e
  split at e
  · cases e
  next u copied =>
    have C : nextEvents u = nextEvents s := by
      split at copied
      · exact nextEvents_copyOnWrite copied
      · cases copied
        rfl
    split at e
    · exact (nextEvents_writeVa e).trans C
    · cases e

theorem nextEvents_writeEnd {s t : State} {c o : Nat} {held : List (Nat × Nat)} {d : End} {bs qs : List Byte} {p q : Option Bool}
    (e : writeEnd s c held d o bs p = .ok t qs q) : nextEvents t = nextEvents s := by
  cases d with
  | tower d k x =>
    cases e
    exact nextEvents_writePart ..
  | mem va => exact nextEvents_writeVa e
  | view i v tiled x => exact nextEvents_writeView e
  | handle va => exact nextEvents_writeHandle e
  | line ls lp =>
    cases e
    rfl
  | none =>
    cases e
    rfl

/-! ## Movements -/

theorem nextEvents_moveBytes {p : Port} {m : Move} {s t : State} {x y : Measure} {o n : Nat}
    (e : moveBytes p m s x o n = .ok t y) : nextEvents t = nextEvents s := by
  unfold moveBytes at e
  split at e
  case h_3 =>
    cases e
    rfl
  case h_4 =>
    split at e
    case h_3 =>
      cases e
      rfl
    case h_4 w =>
      cases e
      exact nextEvents_writeEnd w
    all_goals cases e
  all_goals cases e

theorem nextEvents_moveUpTo (p : Port) (m : Move) (n : Nat) : ∀ (o : Nat) (f : Flow),
    nextEvents (moveUpTo p m n o f).1.s = nextEvents f.s := by
  induction n with
  | zero => exact fun _ f => rfl
  | succ n ih =>
    intro o f
    unfold moveUpTo
    split
    next b => exact (ih ..).trans (nextEvents_moveBytes b)
    all_goals rfl

theorem nextEvents_moveLines (p : Port) (m : Move) (n : Nat) : ∀ (o : Nat) (f : Flow),
    nextEvents (moveLines p m n o f).1.s = nextEvents f.s := by
  induction n with
  | zero => exact fun _ f => rfl
  | succ n ih =>
    intro o f
    unfold moveLines
    dsimp only
    split
    next b => exact (ih ..).trans (nextEvents_moveBytes b)
    · have U := nextEvents_moveUpTo p m (min (64 - o % 64) (m.len - o)) o f
      split
      · exact (ih ..).trans U
      · exact U

/-- A movement pushes no event for firmware. -/
theorem nextEvents_moveAll (p : Port) (ms : List Move) : ∀ (skip : Nat) (f : Flow),
    nextEvents (moveAll p ms skip f).1.s = nextEvents f.s := by
  induction ms with
  | nil => exact fun _ f => rfl
  | cons m ms ih =>
    intro skip f
    unfold moveAll
    split
    · exact ih _ { f with k := f.k + m.len }
    · have L := nextEvents_moveLines p m (lineCount m - skip / 64) skip { f with k := f.k + skip }
      dsimp only
      split
      · exact (ih ..).trans L
      · exact L

end Sys2Proof.Machine
end

section
/-!
PROOFS for O48: passes, the end of deferral, forcing (R183, R184, R187, R188).
-/

namespace Sys2Proof.Machine

/-! ## Passes that start together (R183) -/

theorem passOn_iff {k : ClassState} {t : Nat} : passOn k t = true ↔ ∃ p ∈ k.passes, p.tower = t := by
  simp [passOn]

theorem startPasses_frame (b : Bool) (ts : List Nat) (k : ClassState) : { ts.foldl (startPass b) k with passes := k.passes } = k := by
  induction ts generalizing k with
  | nil => rfl
  | cons t ts ih => exact congrArg (fun j : ClassState => { j with passes := k.passes }) (ih (startPass b k t))

/-- Each tower listed has a pass begun now; on the other towers the passes run that ran. -/
theorem mem_startPasses {b : Bool} {ts : List Nat} (once : ts.Nodup) {k : ClassState} {p : Pass} :
    p ∈ (ts.foldl (startPass b) k).passes ↔ (∃ t ∈ ts, p = ⟨t, consOf k t, b⟩) ∨ (p ∈ k.passes ∧ p.tower ∉ ts) := by
  induction ts generalizing k with
  | nil => simp
  | cons t ts ih =>
    obtain ⟨fresh, once⟩ := List.nodup_cons.1 once
    have one : p ∈ (startPass b k t).passes ↔ p = ⟨t, consOf k t, b⟩ ∨ (p ∈ k.passes ∧ p.tower ≠ t) := by
      simp [startPass]
    have cons : ∀ u, consOf (startPass b k t) u = consOf k u := fun _ => rfl
    rw [List.foldl_cons, ih once, one]
    simp only [cons, List.mem_cons, exists_eq_or_imp, not_or]
    constructor
    · rintro (h | ⟨rfl | ⟨h, ne⟩, out⟩)
      · exact .inl (.inr h)
      · exact .inl (.inl rfl)
      · exact .inr ⟨h, ne, out⟩
    · rintro ((rfl | h) | ⟨h, ne, out⟩)
      · exact .inr ⟨.inl rfl, fresh⟩
      · exact .inl h
      · exact .inr ⟨.inr ⟨h, ne⟩, out⟩

theorem passOn_startPasses {b : Bool} {ts : List Nat} (once : ts.Nodup) (k : ClassState) (t : Nat) :
    passOn (ts.foldl (startPass b) k) t = (decide (t ∈ ts) || passOn k t) := by
  rw [Bool.eq_iff_iff, Bool.or_eq_true, decide_eq_true_iff]
  simp only [passOn_iff, mem_startPasses once]
  constructor
  · rintro ⟨p, ⟨u, hu, rfl⟩ | ⟨hp, -⟩, rfl⟩
    · exact .inl hu
    · exact .inr ⟨p, hp, rfl⟩
  · intro h
    by_cases ht : t ∈ ts
    · exact ⟨_, .inl ⟨t, ht, rfl⟩, rfl⟩
    · obtain ⟨p, hp, rfl⟩ := h.resolve_left ht
      exact ⟨p, .inr ⟨hp, ht⟩, rfl⟩

/-! ## Towers without a pass -/

theorem mem_idleAt {k : ClassState} {n t : Nat} : t ∈ idleAt k n ↔ t ∈ towersInUse k ∧ passOn k t = false ∧ n ≤ consOf k t := by
  simp [idleAt]

theorem nodup_idleAt (k : ClassState) (n : Nat) : (idleAt k n).Nodup := (List.nodup_dedup _).filter _

/-- No pass that runs is stopped for one on an idle tower. -/
theorem mem_startIdle {b : Bool} {k : ClassState} {n : Nat} {p : Pass} (h : p ∈ k.passes) :
    p ∈ ((idleAt k n).foldl (startPass b) k).passes := by
  refine (mem_startPasses (nodup_idleAt k n)).2 (.inr ⟨h, fun idle => ?_⟩)
  obtain ⟨-, off, -⟩ := mem_idleAt.1 idle
  exact absurd (passOn_iff.2 ⟨p, h, rfl⟩) (by rw [off]; nofun)

/-- Every tower in use that has consumed `n` has a pass then. -/
theorem passOn_startIdle {b : Bool} {k : ClassState} {n t : Nat} (used : t ∈ towersInUse k) :
    passOn ((idleAt k n).foldl (startPass b) k) t = (passOn k t || decide (n ≤ consOf k t)) := by
  rw [passOn_startPasses (nodup_idleAt k n)]
  cases on : passOn k t <;> simp [mem_idleAt, used, on]

/-! ## The end of deferral (R184) -/

theorem endDefer_eq (k : ClassState) :
    endDefer k = (idleAt { k with defer := false, lim := 0 } passAt).foldl (startPass false) { k with defer := false, lim := 0 } := rfl

theorem endDefer_frame (k : ClassState) : { endDefer k with passes := k.passes } = { k with defer := false, lim := 0 } := by
  rw [endDefer_eq]
  exact startPasses_frame ..

theorem mem_endDefer {k : ClassState} {p : Pass} (h : p ∈ k.passes) : p ∈ (endDefer k).passes := by
  rw [endDefer_eq]
  exact mem_startIdle h

theorem passOn_endDefer {k : ClassState} {t : Nat} (used : t ∈ towersInUse k) :
    passOn (endDefer k) t = (passOn k t || decide (1000000 * 256 ≤ consOf k t)) := by
  rw [endDefer_eq]
  exact passOn_startIdle used

theorem defer_endDefer (k : ClassState) : (endDefer k).defer = false := by
  have h := congrArg ClassState.defer (endDefer_frame k)
  dsimp only at h
  exact h

theorem lim_endDefer (k : ClassState) : (endDefer k).lim = 0 := by
  have h := congrArg ClassState.lim (endDefer_frame k)
  dsimp only at h
  exact h

theorem remap_endDefer (k : ClassState) : (endDefer k).remap = k.remap := by
  have h := congrArg ClassState.remap (endDefer_frame k)
  dsimp only at h
  exact h

/-! ## What refills that stop leave alone (R196) -/

/-- What refresh and the causes of a class rest on. -/
def ClassState.refresh (k : ClassState) : ClassState :=
  { cons := k.cons, passes := k.passes, defer := k.defer, lim := k.lim, remap := k.remap, live := k.live, hmode := k.hmode, hold := k.hold
    thnd := k.thnd, causes := k.causes }

/-- Refresh, causes and the identifiers of firmware events stand. -/
structure RefreshSame (s t : State) : Prop where
  cls : t.cls.map ClassState.refresh = s.cls.map ClassState.refresh
  events : nextEvents t = nextEvents s

theorem RefreshSame.refl (s : State) : RefreshSame s s := ⟨rfl, rfl⟩

theorem RefreshSame.trans {s t u : State} (h : RefreshSame s t) (g : RefreshSame t u) : RefreshSame s u :=
  ⟨g.cls.trans h.cls, g.events.trans h.events⟩

theorem RefreshSame.of_dataOnly {s t : State} (h : DataOnly s t) (e : nextEvents t = nextEvents s) : RefreshSame s t := by
  refine ⟨?_, e⟩
  have same := congrArg (List.map ClassState.refresh) h
  rw [List.map_map, List.map_map] at same
  exact same

theorem RefreshSame.getCls {s t : State} (h : RefreshSame s t) (c : Nat) : (getCls t c).refresh = (getCls s c).refresh := getD_of_map h.cls c

theorem RefreshSame.length {s t : State} (h : RefreshSame s t) : t.cls.length = s.cls.length := by
  simpa using congrArg List.length h.cls

theorem refreshSame_foldl {α : Type} {f : State → α → State} (h : ∀ s a, RefreshSame s (f s a)) (l : List α) (s : State) :
    RefreshSame s (l.foldl f s) := by
  induction l generalizing s with
  | nil => exact .refl s
  | cons a l ih => exact (h s a).trans (ih _)

theorem refreshSame_modCls (s : State) (c : Nat) {f : ClassState → ClassState} (h : ∀ k, (f k).refresh = k.refresh) :
    RefreshSame s (modCls s c f) := ⟨map_modify_same h s.cls c, rfl⟩

theorem refreshSame_modOp (s : State) (c id : Nat) (f : InFlight → InFlight) : RefreshSame s (modOp s c id f) :=
  refreshSame_modCls s c fun _ => rfl

theorem refreshSame_setS (s : State) (c n : Nat) (v : W64) : RefreshSame s (setS s c n v) := by
  unfold setS
  split
  · exact .refl s
  · exact refreshSame_modCls s c fun _ => rfl

theorem refreshSame_moveAll (p : Port) (ms : List Move) (skip : Nat) (f : Flow) : RefreshSame f.s (moveAll p ms skip f).1.s :=
  .of_dataOnly (dataOnly_moveAll ..) (nextEvents_moveAll ..)

theorem refreshSame_bump (s : State) : RefreshSame s (bump s) := ⟨rfl, rfl⟩

theorem refreshSame_stopRefill (s : State) (d : Nat) (f : InFlight) : RefreshSame s (stopRefill s d f) := by
  unfold stopRefill
  extract_lets total per at0 j r f' u next tok v
  have moved : RefreshSame s u := (refreshSame_bump s).trans
    ((refreshSame_moveAll { cls := d, held := f.pages } _ f.prog { s := bump s, k := 0 }).trans (refreshSame_modOp ..))
  split
  · exact moved
  · split
    · exact moved.trans (refreshSame_modOp ..)
    · refine moved.trans ((refreshSame_setS ..).trans (refreshSame_modCls _ d fun k => ?_))
      dsimp only
      split <;> rfl

/-- The refills that write towers of class `c` have stopped. -/
def refillsStopped (s : State) (c : Nat) : State :=
  (List.range 40).foldl (fun s d => (refillsInto s c d).foldl (fun s f => stopRefill s d f) s) s

theorem refreshSame_refillsStopped (s : State) (c : Nat) : RefreshSame s (refillsStopped s c) :=
  refreshSame_foldl (fun s d => refreshSame_foldl (fun s f => refreshSame_stopRefill s d f) _ s) _ s

/-! ## Forcing (R187) -/

theorem mem_forcedTowers {k : ClassState} {t : Nat} : t ∈ forcedTowers k ↔ Forces k t := by
  change _ ↔ t ∈ towersInUse k ∧ ((forceAt ≤ consOf k t ∧ _) ∨ _)
  simp only [forcedTowers, List.mem_filter, List.mem_dedup, Bool.or_eq_true, Bool.and_eq_true, decide_eq_true_eq, Bool.not_eq_true',
    List.any_eq_false, beq_iff_eq]
  simp

theorem nodup_forcedTowers (k : ClassState) : (forcedTowers k).Nodup := (List.nodup_dedup _).filter _

/-- The class as its forced passes have begun and its deferral has ended. -/
def forcedClass (k : ClassState) : ClassState := endDefer ((forcedTowers k).foldl (startPass true) k)

theorem mem_forcedClass {k : ClassState} {t : Nat} (h : Forces k t) : ⟨t, consOf k t, true⟩ ∈ (forcedClass k).passes :=
  mem_endDefer ((mem_startPasses (nodup_forcedTowers k)).2 (.inl ⟨t, mem_forcedTowers.2 h, rfl⟩))

/-- The least of the towers, as forcing finds it. -/
theorem foldl_least {g : Option Nat → Nat → Option Nat} (first : ∀ t, g none t = some t) (next : ∀ x t, g (some x) t = some (min x t))
    (ts : List Nat) : ts.foldl g none = ts.min? := by
  have later : ∀ (l : List Nat) a, l.foldl g (some a) = some (l.foldl min a) := fun l => by
    induction l with
    | nil => exact fun _ => rfl
    | cons t l ih => exact fun a => by rw [List.foldl_cons, next, ih, List.foldl_cons]
  cases ts with
  | nil => rfl
  | cons t ts => rw [List.foldl_cons, first, later]; rfl

/-- The machine as forcing on a class raises its cause. -/
def forcedState (s : State) (c : Nat) : State := refillsStopped (modCls s c forcedClass) c

/-- The refresh-forced cause for the lowest forced tower. -/
def forcedCause (k : ClassState) (low : Nat) : Cause :=
  { code := 5, eng := none, ord := leastPos k (slipEngines k) k.ws.ord, tinfo := BitVec.ofNat 64 low, op := none }

theorem force_of_none {s : State} {c : Nat} (h : forcedTowers (getCls s c) = []) : force s c = s := by
  rw [force, h]
  rfl

theorem force_of_least {s : State} {c low : Nat} (forces : Forces (getCls s c) low) (least : ∀ x, Forces (getCls s c) x → low ≤ x) :
    force s c = raiseLater (forcedState s c) c (forcedCause (getCls (forcedState s c) c) low) := by
  have found : (forcedTowers (getCls s c)).min? = some low :=
    List.min?_eq_some_iff.2 ⟨mem_forcedTowers.2 forces, fun x hx => least x (mem_forcedTowers.1 hx)⟩
  have congr : modCls s c (fun k => endDefer ((forcedTowers (getCls s c)).foldl (startPass true) k)) = modCls s c forcedClass :=
    modCls_congr rfl
  unfold force forcedState refillsStopped forcedCause
  dsimp only
  rw [foldl_least (fun _ => rfl) (fun _ _ => rfl), congr, found]

/-! ## The cause that forcing raises (R188, R264) -/

/-- What a cause that is raised leaves alone. -/
def ClassState.retention (k : ClassState) : Bool × BitVec 24 × List Pass × Tbl Nat := (k.defer, k.lim, k.passes, k.remap)

theorem getCls_setCause {s : State} {c : Nat} (hc : c < s.cls.length) (code : Nat) (e : BitVec 3) (ord : Nat) (tinfo : W64) :
    getCls (setCause s c code e ord tinfo) c
      = { getCls s c with tcode := BitVec.ofNat 8 code, teng := e, tord := BitVec.ofNat 48 ord, tinfo := tinfo } :=
  getCls_modCls _ _ _ hc

theorem length_setCause (s : State) (c code : Nat) (e : BitVec 3) (ord : Nat) (tinfo : W64) :
    (setCause s c code e ord tinfo).cls.length = s.cls.length := length_modCls ..

theorem retention_takeCause {s : State} {c : Nat} (x : Cause) (hc : c < s.cls.length) :
    (getCls (takeCause s c x) c).retention = (getCls s c).retention := by
  unfold takeCause
  extract_lets k ec ord u h id h'
  have hv := (length_setCause s c x.code.toNat ec ord x.tinfo).symm ▸ hc
  have hu : c < u.cls.length := (length_modCls ..).symm ▸ hv
  have here : (getCls u c).retention = (getCls s c).retention := by
    rw [getCls_modCls _ _ _ hv, getCls_setCause hc]
    rfl
  split
  · rw [getCls_modCls (causeEvent u c) c _ hu]
    exact here
  · split
    · rw [getCls_controlFlowFault _ _ hu]
      exact here
    · rw [getCls_modCls _ _ _ hu]
      exact here

theorem retention_raiseLater {s : State} {c : Nat} (x : Cause) (hc : c < s.cls.length) :
    (getCls (raiseLater s c x) c).retention = (getCls s c).retention := by
  unfold raiseLater
  dsimp only
  split
  · rfl
  · split
    · split
      · rfl
      · rw [getCls_modCls _ _ _ hc]
        rfl
    · exact retention_takeCause x hc

/-- With THND zero firmware has the class held by the event that names the cause (R270). -/
theorem takeCause_held {s : State} {c : Nat} {x : Cause} (hc : c < s.cls.length) (noHandler : (getCls s c).thnd = 0)
    (own : x.eng = none) : (getCls (takeCause s c x) c).tcode = x.code ∧ (getCls (takeCause s c x) c).teng = 7
      ∧ (getCls (takeCause s c x) c).tinfo = x.tinfo ∧ (getCls (takeCause s c x) c).hold = some (getDie s (dieOf c)).nextEv := by
  unfold takeCause
  extract_lets k ec ord u h id h'
  have hv := (length_setCause s c x.code.toNat ec ord x.tinfo).symm ▸ hc
  have hu : c < u.cls.length := (length_modCls ..).symm ▸ hv
  have zero : h = 0 := congrArg BitVec.toNat noHandler
  have asynchronous : ec = 7 := by
    simp only [ec, own]
    rfl
  rw [if_pos zero, getCls_modCls (causeEvent u c) c _ hu]
  change (getCls u c).tcode = _ ∧ (getCls u c).teng = _ ∧ (getCls u c).tinfo = _ ∧ _
  rw [getCls_modCls _ _ _ hv, getCls_setCause hc]
  exact ⟨BitVec.ofNat_toNat .., asynchronous, rfl, rfl⟩

end Sys2Proof.Machine
end

section
/-!
PROOFS for O48: the clauses of the events (R181, R183, R187, R188, R196).
-/

namespace Sys2Proof.Machine

/-! ## Forcing as a whole -/

theorem remap_forcedClass (k : ClassState) : (forcedClass k).remap = k.remap := by
  rw [forcedClass, remap_endDefer]
  have h := congrArg ClassState.remap (startPasses_frame true (forcedTowers k) k)
  dsimp only at h
  exact h

theorem defer_forcedClass (k : ClassState) : (forcedClass k).defer = false := by
  rw [forcedClass, defer_endDefer]

theorem lim_forcedClass (k : ClassState) : (forcedClass k).lim = 0 := by
  rw [forcedClass, lim_endDefer]

theorem signals_forcedClass (k : ClassState) : ((forcedClass k).live, (forcedClass k).hmode, (forcedClass k).hold, (forcedClass k).thnd,
    (forcedClass k).causes) = (k.live, k.hmode, k.hold, k.thnd, k.causes) := by
  have ended := congrArg (fun j : ClassState => (j.live, j.hmode, j.hold, j.thnd, j.causes))
    (endDefer_frame ((forcedTowers k).foldl (startPass true) k))
  have begun := congrArg (fun j : ClassState => (j.live, j.hmode, j.hold, j.thnd, j.causes)) (startPasses_frame true (forcedTowers k) k)
  dsimp only at ended begun
  exact ended.trans begun

theorem length_forcedState (s : State) (c : Nat) : (forcedState s c).cls.length = s.cls.length :=
  (refreshSame_refillsStopped _ c).length.trans (length_modCls ..)

theorem refresh_forcedState {s : State} {c : Nat} (hc : c < s.cls.length) :
    (getCls (forcedState s c) c).refresh = (forcedClass (getCls s c)).refresh :=
  ((refreshSame_refillsStopped _ c).getCls c).trans (congrArg _ (getCls_modCls _ _ _ hc))

theorem nextEv_forcedState (s : State) (c d : Nat) : (getDie (forcedState s c) d).nextEv = (getDie s d).nextEv :=
  nextEv_of_nextEvents (refreshSame_refillsStopped (modCls s c forcedClass) c).events d

theorem retention_refresh (k : ClassState) : k.refresh.retention = k.retention := rfl

/-- What a class keeps of retention once forcing is done with it. -/
theorem retention_force {s : State} {c low : Nat} (hc : c < s.cls.length) (forces : Forces (getCls s c) low)
    (least : ∀ x, Forces (getCls s c) x → low ≤ x) : (getCls (force s c) c).retention = (forcedClass (getCls s c)).retention := by
  calc (getCls (force s c) c).retention
    _ = (getCls (forcedState s c) c).retention := by
      rw [force_of_least forces least, retention_raiseLater _ ((length_forcedState s c).symm ▸ hc)]
    _ = (getCls (forcedState s c) c).refresh.retention := (retention_refresh _).symm
    _ = (forcedClass (getCls s c)).refresh.retention := congrArg ClassState.retention (refresh_forcedState hc)
    _ = (forcedClass (getCls s c)).retention := retention_refresh _

theorem frcOf_of_forced {k : ClassState} {p : Pass} (running : p ∈ k.passes) (forced : p.forced = true) (used : p.tower ∈ towersInUse k) :
    frcOf k = true := by
  unfold frcOf
  rw [List.any_eq_true]
  exact ⟨p, running, by rw [forced, Bool.true_and, List.contains_iff_mem]; exact used⟩

theorem towersInUse_congr {k j : ClassState} (h : j.remap = k.remap) : towersInUse j = towersInUse k := by
  unfold towersInUse physTower
  rw [h]

theorem exec_forcing (c : Nat) (s : State) : exec (.forcing c) s = .next (force s c) := rfl

theorem forcing_unforced {c : Nat} {s : State} (unforced : ∀ x, ¬ Forces (getCls s c) x) : exec (.forcing c) s = .next s := by
  have empty : forcedTowers (getCls s c) = [] := List.eq_nil_iff_forall_not_mem.2 fun x hx => unforced x (mem_forcedTowers.1 hx)
  rw [exec_forcing, force_of_none empty]

theorem forcing_begins {c : Nat} {s : State} {low : Nat} (hc : c < s.cls.length) (forces : Forces (getCls s c) low)
    (least : ∀ x, Forces (getCls s c) x → low ≤ x) : (getCls (force s c) c).defer = false ∧ (getCls (force s c) c).lim = 0
      ∧ (∀ x, Forces (getCls s c) x → ⟨x, consOf (getCls s c) x, true⟩ ∈ (getCls (force s c) c).passes)
      ∧ frcOf (getCls (force s c) c) = true := by
  have kept := retention_force hc forces least
  simp only [ClassState.retention, Prod.mk.injEq] at kept
  obtain ⟨defer, lim, passes, remap⟩ := kept
  have begun : ∀ x, Forces (getCls s c) x → ⟨x, consOf (getCls s c) x, true⟩ ∈ (getCls (force s c) c).passes := fun x hx => by
    rw [passes]
    exact mem_forcedClass hx
  refine ⟨defer.trans (defer_forcedClass _), lim.trans (lim_forcedClass _), begun, frcOf_of_forced (begun low forces) rfl ?_⟩
  rw [towersInUse_congr (remap.trans (remap_forcedClass _))]
  exact forces.1

/-- What decides where the cause of forcing goes is as it stood before. -/
theorem signals_forcedState {s : State} {c : Nat} (hc : c < s.cls.length) : let k := getCls (forcedState s c) c
    (k.live, k.hmode, k.hold, k.thnd, k.causes)
      = ((getCls s c).live, (getCls s c).hmode, (getCls s c).hold, (getCls s c).thnd, (getCls s c).causes) := by
  have same := congrArg (fun j : ClassState => (j.live, j.hmode, j.hold, j.thnd, j.causes)) (refresh_forcedState hc)
  dsimp only [ClassState.refresh] at same
  exact same.trans (signals_forcedClass _)

theorem forcing_held {c : Nat} {s : State} {low : Nat} (hc : c < s.cls.length) (forces : Forces (getCls s c) low)
    (least : ∀ x, Forces (getCls s c) x → low ≤ x) (live : (getCls s c).live = true) (outside : (getCls s c).hmode = false)
    (unheld : (getCls s c).hold = none) (noHandler : (getCls s c).thnd = 0) :
    (getCls (force s c) c).tcode = 5 ∧ (getCls (force s c) c).teng = 7 ∧ (getCls (force s c) c).tinfo = BitVec.ofNat 64 low
      ∧ (getCls (force s c) c).hold = some (getDie s (dieOf c)).nextEv := by
  have same := signals_forcedState hc
  simp only [Prod.mk.injEq] at same
  obtain ⟨live', hmode', hold', thnd', -⟩ := same
  have taken : ∀ x, raiseLater (forcedState s c) c x = takeCause (forcedState s c) c x := fun x => by
    simp only [raiseLater, live', hmode', hold', live, outside, unheld, Bool.not_true, Bool.false_eq_true, Option.isSome_none, Bool.or_self,
      if_false]
  rw [force_of_least forces least, taken, ← nextEv_forcedState s c]
  exact takeCause_held ((length_forcedState s c).symm ▸ hc) (thnd'.trans noHandler) rfl

theorem forcing_pending {c : Nat} {s : State} {low : Nat} (hc : c < s.cls.length) (forces : Forces (getCls s c) low)
    (least : ∀ x, Forces (getCls s c) x → low ≤ x) (live : (getCls s c).live = true) (inside : (getCls s c).hmode = true)
    (first : ∀ y ∈ (getCls s c).causes, y.eng ≠ none) : ∃ y, (getCls (force s c) c).causes = (getCls s c).causes ++ [y]
      ∧ y.code = 5 ∧ y.eng = none ∧ y.tinfo = BitVec.ofNat 64 low := by
  have same := signals_forcedState hc
  simp only [Prod.mk.injEq] at same
  obtain ⟨live', hmode', -, -, causes'⟩ := same
  have noneYet : (getCls s c).causes.any (fun y => y.eng.isNone) = false := List.any_eq_false.2 fun y hy => by
    simpa using first y hy
  refine ⟨forcedCause (getCls (forcedState s c) c) low, ?_, rfl, rfl, rfl⟩
  rw [force_of_least forces least]
  simp only [raiseLater, live', hmode', causes', live, inside, noneYet, Bool.not_true, Bool.false_eq_true, Bool.true_or, Bool.and_false,
    if_true, if_false]
  rw [getCls_modCls _ _ _ ((length_forcedState s c).symm ▸ hc)]
  rw [causes']

end Sys2Proof.Machine
end

section
/-!
PROOFS for O48: consumption, background passes, passes that complete, re-injection (R181, R183, R188).
-/

namespace Sys2Proof.Machine

/-! ## The weight of a tick (R181) -/

/-- The bits still to come make the root exact. -/
theorem rootBits_spec {k n b r : Nat} (low : r ^ k ≤ n) (high : n < (r + 2 ^ b) ^ k) :
    (rootBits k n b r) ^ k ≤ n ∧ n < (rootBits k n b r + 1) ^ k := by
  induction b generalizing r with
  | zero => exact ⟨low, high⟩
  | succ b ih =>
    unfold rootBits
    split
    next fits =>
      refine ih fits ?_
      rwa [add_assoc, ← Nat.two_mul, ← Nat.pow_succ']
    next above => exact ih low (not_le.1 above)

theorem two_pow_lt_pow {a b c : Nat} (h : a < b * c) : 2 ^ a < (0 + 2 ^ b) ^ c := by
  rw [zero_add, ← pow_mul]
  exact Nat.pow_lt_pow_right Nat.one_lt_two h

theorem isLeakWeight_leakWeight {T : Nat} (cool : T ≤ 200) : IsLeakWeight T (leakWeight T) := by
  refine ⟨fun h => if_pos h, fun hot => ?_⟩
  have scale : 256 ^ 10 * 2 ^ (T - 85) = 2 ^ (80 + (T - 85)) := by
    rw [pow_add]
    rfl
  have bits : 80 + (T - 85) < 64 * 10 := by omega
  obtain ⟨low, high⟩ := rootBits_spec (Nat.zero_le _) (two_pow_lt_pow bits)
  rw [scale, leakWeight, if_neg (not_le.2 hot)]
  extract_lets n r
  split
  next whole =>
    have positive : 0 < r := Nat.pos_of_ne_zero fun zero => by
      rw [zero, zero_pow (by decide)] at whole
      exact absurd whole.symm (by simp [n])
    refine ⟨lt_of_lt_of_le (Nat.pow_lt_pow_left (Nat.sub_lt positive Nat.one_pos) (by decide)) low, whole.ge⟩
  next inexact => exact ⟨lt_of_le_of_ne low inexact, high.le⟩

theorem foldl_max_le {l : List Nat} {a n : Nat} (first : a ≤ n) (all : ∀ x ∈ l, x ≤ n) : l.foldl max a ≤ n := by
  induction l generalizing a with
  | nil => exact first
  | cons x l ih =>
    obtain ⟨head, rest⟩ := List.forall_mem_cons.1 all
    exact ih (max_le first head) rest

/-! ## A tick -/

theorem consOf_tickClass (k : ClassState) (x : Nat) :
    consOf (tickClass k) x = consOf k x + if x ∈ towersInUse k then leakWeight (hottest k) else 0 := by
  have sum := tget_foldl_tset_of 0 (fun _ v => v + leakWeight (hottest k)) (List.nodup_dedup (towersInUse k)) k.cons x
  simp only [List.mem_dedup] at sum
  rw [consOf, tickClass]
  dsimp only
  rw [sum, consOf]
  split
  · rfl
  · exact (Nat.add_zero _).symm

theorem getCls_mapped {s : State} {c : Nat} (hc : c < s.cls.length) (f : ClassState → ClassState) :
    getCls { s with cls := s.cls.map f } c = f (getCls s c) := by
  simp [getCls, List.getD_eq_getElem?_getD, hc]

theorem rest_tickClass (k : ClassState) : { tickClass k with cons := [] } = { k with cons := [] } := by
  dsimp only [tickClass]

theorem exec_refreshTick (s : State) : exec .refreshTick s = .next { s with cls := s.cls.map tickClass } := rfl

theorem refreshTick_consumes (s : State) (cool : ∀ k ∈ s.cls, ∀ x ∈ k.temps, x ≤ 200) : ∃ t, exec .refreshTick s = .next t
    ∧ { t with cls := [] } = { s with cls := [] } ∧ t.cls.length = s.cls.length
    ∧ ∀ c, c < s.cls.length → { getCls t c with cons := [] } = { getCls s c with cons := [] }
        ∧ ∃ w, IsLeakWeight ((getCls s c).temps.foldl max 0) w
            ∧ ∀ x, consOf (getCls t c) x = consOf (getCls s c) x + if x ∈ towersInUse (getCls s c) then w else 0 := by
  refine ⟨{ s with cls := s.cls.map tickClass }, exec_refreshTick s, rfl, List.length_map .., fun c hc => ?_⟩
  have here : getCls s c ∈ s.cls := by
    rw [getCls, List.getD_eq_getElem _ _ hc]
    exact List.getElem_mem hc
  rw [getCls_mapped hc]
  exact ⟨rest_tickClass _, _, isLeakWeight_leakWeight (foldl_max_le (Nat.zero_le _) (cool _ here)), consOf_tickClass _⟩

/-! ## Passes that start and complete -/

theorem passOn_eq_false {k : ClassState} {x : Nat} (idle : ∀ p ∈ k.passes, p.tower ≠ x) : passOn k x = false :=
  Bool.eq_false_iff.2 fun on => by
    obtain ⟨p, hp, at_⟩ := passOn_iff.1 on
    exact idle p hp at_

theorem startPass_of_idle {k : ClassState} {x : Nat} (b : Bool) (idle : ∀ p ∈ k.passes, p.tower ≠ x) :
    startPass b k x = { k with passes := ⟨x, consOf k x, b⟩ :: k.passes } := by
  have all : k.passes.filter (fun p => p.tower != x) = k.passes := List.filter_eq_self.2 fun p hp => by simpa using idle p hp
  rw [startPass, all]

theorem backgroundPass_starts {c x : Nat} {s : State} (used : x ∈ towersInUse (getCls s c))
    (idle : ∀ p ∈ (getCls s c).passes, p.tower ≠ x) (soon : (getCls s c).defer = false)
    (due : 1000000 * 256 ≤ consOf (getCls s c) x) : exec (.backgroundPassStart c x) s
      = .next (modCls s c fun k => { k with passes := ⟨x, consOf k x, false⟩ :: k.passes }) := by
  have listed : x ∈ idleAt (getCls s c) passAt := mem_idleAt.2 ⟨used, passOn_eq_false idle, due⟩
  have starts : (!(getCls s c).defer && (idleAt (getCls s c) passAt).contains x) = true := by
    rw [soon, Bool.not_false, Bool.true_and, List.contains_iff_mem]
    exact listed
  have step : exec (.backgroundPassStart c x) s = execBackgroundPassStart c x s := rfl
  rw [step, execBackgroundPassStart]
  have started : modCls s c (fun k => startPass false k x)
      = modCls s c fun k => { k with passes := ⟨x, consOf k x, false⟩ :: k.passes } := modCls_congr (startPass_of_idle false idle)
  rw [if_pos starts, started]

theorem backgroundPass_waits {c x : Nat} {s : State} (early : (getCls s c).defer = true ∨ consOf (getCls s c) x < 1000000 * 256) :
    exec (.backgroundPassStart c x) s = .next s := by
  have not : ¬ (!(getCls s c).defer && (idleAt (getCls s c) passAt).contains x) = true := by
    rw [Bool.and_eq_true, List.contains_iff_mem]
    rintro ⟨soon, listed⟩
    obtain ⟨-, -, due⟩ := mem_idleAt.1 listed
    rcases early with deferred | less
    · rw [deferred] at soon
      cases soon
    · exact absurd due (not_le.2 less)
  have step : exec (.backgroundPassStart c x) s = execBackgroundPassStart c x s := rfl
  rw [step, execBackgroundPassStart]
  rw [if_neg not]

/-- The class as the pass `p` completes. -/
def passDone (k : ClassState) (p : Pass) (x : Nat) : ClassState :=
  { k with passes := k.passes.filter fun q => q.tower != x, cons := tset 0 k.cons x (consOf k x - p.at0) }

theorem consOf_passDone (k : ClassState) (p : Pass) (x y : Nat) :
    consOf (passDone k p x) y = if y = x then consOf k x - p.at0 else consOf k y := by
  have written := tget_tset 0 k.cons x y (consOf k x - p.at0)
  rw [consOf, passDone, written]
  simp only [eq_comm (a := x), consOf]

theorem exec_refreshPassComplete {c x : Nat} {s : State} {p : Pass}
    (found : (getCls s c).passes.find? (fun q => q.tower = x) = some p) :
    exec (.refreshPassComplete c x) s = .next (modCls s c fun k => passDone k p x) := by
  have step : exec (.refreshPassComplete c x) s = execRefreshPassComplete c x s := rfl
  rw [step, execRefreshPassComplete]
  refine congrArg _ (modCls_congr ?_)
  rw [found]
  rfl

theorem pass_completes {c x : Nat} {s : State} {p : Pass} (found : (getCls s c).passes.find? (fun q => q.tower = x) = some p) :
    ∃ t, exec (.refreshPassComplete c x) s = .next t
      ∧ (∀ y, consOf (getCls t c) y = if y = x then consOf (getCls s c) x - p.at0 else consOf (getCls s c) y)
      ∧ (∀ q ∈ (getCls t c).passes, q.tower ≠ x) ∧ (∀ j, j ≠ c → getCls t j = getCls s j) ∧ t.mem = s.mem := by
  have hc : c < s.cls.length := by
    by_contra beyond
    rw [getCls, List.getD_eq_default _ _ (not_lt.1 beyond)] at found
    cases found
  refine ⟨_, exec_refreshPassComplete found, ?_⟩
  rw [getCls_modCls _ _ _ hc]
  refine ⟨consOf_passDone _ p x, fun q hq => ?_, fun j hj => getCls_modCls_ne _ _ _ _ hj, rfl⟩
  simpa using (List.mem_filter.1 hq).2

/-! ## Re-injection (R188) -/

theorem exec_refillReinject {c n : Nat} {s : State} {f : InFlight} (found : findOp s c n = some f) (stopped : f.status = .stopped) :
    exec (.refillReinject c n) s = .next (if (refillClasses f).all (fun d => !frcOf (getCls s d)) then
      modOp s c n fun f => { f with status := .issued } else s) := by
  have step : exec (.refillReinject c n) s = execRefillReinject c n s := rfl
  have held : (f.status == .stopped) = true := by rw [stopped]; rfl
  rw [step, execRefillReinject, found]
  dsimp only
  rw [held, Bool.true_and]

theorem refill_goesOn {c n : Nat} {s : State} {f : InFlight} (found : findOp s c n = some f) (stopped : f.status = .stopped) :
    ((∀ d ∈ refillClasses f, frcOf (getCls s d) = false) →
        exec (.refillReinject c n) s = .next (modOp s c n fun f => { f with status := .issued }))
      ∧ ((∃ d ∈ refillClasses f, frcOf (getCls s d) = true) → exec (.refillReinject c n) s = .next s) := by
  rw [exec_refillReinject found stopped]
  refine ⟨fun free => ?_, fun ⟨d, hd, forced⟩ => ?_⟩
  · rw [if_pos (List.all_eq_true.2 fun d hd => by rw [free d hd]; rfl)]
  · rw [if_neg fun free => ?_]
    have := List.all_eq_true.1 free d hd
    rw [forced] at this
    cases this

theorem refreshEventClauses : RefreshEventClauses := by
  refine ⟨refreshTick_consumes, fun c x s _ used idle => ⟨backgroundPass_starts used idle, backgroundPass_waits⟩,
    fun c x s p => pass_completes, fun c s => forcing_unforced, fun c s low hc forces least => ?_, fun c n s f => refill_goesOn⟩
  obtain ⟨deferred, limit, begun, forced⟩ := forcing_begins hc forces least
  exact ⟨force s c, exec_forcing c s, deferred, limit, begun, forced, forcing_held hc forces least, forcing_pending hc forces least⟩

end Sys2Proof.Machine
end

section
/-!
PROOFS for O48: the refresh words (R184-R186, R387).
-/

namespace Sys2Proof.Machine

/-! ## RFDEFER -/

/-- What a class forces by is its body's. -/
theorem forcedTowers_congr {j k : ClassState} (h : j.body = k.body) : forcedTowers j = forcedTowers k := by
  have same := congrArg (fun b : ClassState => (b.remap, b.cons, b.passes, b.defer, b.lim)) h
  simp only [ClassState.body, Prod.mk.injEq] at same
  obtain ⟨remap, cons, passes, defer, lim⟩ := same
  have consumed : consOf j = consOf k := funext fun t => by rw [consOf, consOf, cons]
  unfold forcedTowers
  rw [towersInUse_congr remap, passes, defer, lim, consumed]

theorem exec_rfdefer {h : Hdr} {f : FAI} {s : State} {c : Nat} (R : Ready (.rfdefer h f) s c .a) :
    let l := min ((regS s c f.s).toNat + f.imm.toNat) (2 ^ 64 - 1)
    let s' := modCls s c fun k => if l = 0 then endDefer k else { k with defer := true, lim := BitVec.ofNat 24 (min l 1950000) }
    exec (.rfdefer h f) s = .next (force (finishDone s' c .a (.rfdefer h f) ((getCls s c).wa.wi + 1)) c) := by
  intro l s'
  have limit : deferLimit s f = l := by rw [deferLimit, sget_cls R.focus]
  have wa : (getCls s' c).wa = (getCls s c).wa := by
    rw [getCls_modCls _ _ _ R.inRange]
    split
    · have h := congrArg ClassState.wa (endDefer_frame (getCls s c))
      dsimp only at h
      exact h
    · rfl
  have step : exec (.rfdefer h f) s = execRfdefer h f s := rfl
  rw [step, execRfdefer]
  refine runWord_stop R nofun ?_
  rw [clsOnly_cls R.focus, focusCls_cls R.focus, limit]
  dsimp only [setDefer]
  rw [wa]

theorem rfdefer_passes {h : Hdr} {f : FAI} {s : State} {c : Nat} (R : Ready (.rfdefer h f) s c .a) :
    let l := min ((regS s c f.s).toNat + f.imm.toNat) (2 ^ 64 - 1)
    let s' := modCls s c fun k => if l = 0 then endDefer k else { k with defer := true, lim := BitVec.ofNat 24 (min l 1950000) }
    (∃ t, Passed (.rfdefer h f) s' t c .a ((getCls s c).wa.wi + 1) ∧ exec (.rfdefer h f) s = .next (force t c))
      ∧ (forcedTowers (getCls s' c) = [] → Executes (.rfdefer h f) s c .a s') := by
  intro l s'
  have hc : c < s'.cls.length := (length_modCls ..).symm ▸ R.inRange
  have idle : modCls s' c (fun k => noteResolved k false 0) = s' := modCls_of_fixed rfl
  have passed := finishDone_passed (.rfdefer h f) s' c .a ((getCls s c).wa.wi + 1) none false 0 hc
  dsimp only at passed
  rw [idle] at passed
  refine ⟨⟨_, passed, exec_rfdefer R⟩, fun unforced => ⟨_, ?_, passed⟩⟩
  obtain ⟨⟨-, -, body⟩, -⟩ := passed
  rw [exec_rfdefer R, force_of_none ((forcedTowers_congr body).trans unforced)]

/-! ## RFNOW -/

/-- The class as RFNOW leaves it. -/
def rfnowClass (k : ClassState) : ClassState := (idleAt (endDefer k) 0).foldl (startPass false) (endDefer k)

theorem passes_frame_trans {k j i l : ClassState} (h : { i with passes := j.passes } = j) (g : { j with passes := k.passes } = l) :
    { i with passes := k.passes } = l :=
  (congrArg (fun i : ClassState => { i with passes := k.passes }) h).trans g

theorem rfnowClass_frame (k : ClassState) : { rfnowClass k with passes := k.passes } = { k with defer := false, lim := 0 } := by
  rw [rfnowClass]
  exact passes_frame_trans (startPasses_frame ..) (endDefer_frame k)

theorem defer_rfnowClass (k : ClassState) : (rfnowClass k).defer = false := by
  have h := congrArg ClassState.defer (rfnowClass_frame k)
  dsimp only at h
  exact h

theorem lim_rfnowClass (k : ClassState) : (rfnowClass k).lim = 0 := by
  have h := congrArg ClassState.lim (rfnowClass_frame k)
  dsimp only at h
  exact h

theorem mem_rfnowClass {k : ClassState} {p : Pass} (h : p ∈ k.passes) : p ∈ (rfnowClass k).passes := by
  rw [rfnowClass]
  exact mem_startIdle (mem_endDefer h)

theorem passOn_rfnowClass {k : ClassState} {t : Nat} (used : t ∈ towersInUse k) : passOn (rfnowClass k) t = true := by
  rw [← towersInUse_congr (remap_endDefer k)] at used
  rw [rfnowClass, passOn_startIdle used, decide_eq_true (Nat.zero_le _), Bool.or_true]

theorem rfnow_executes {h : Hdr} {s : State} {c : Nat} (R : Ready (.rfnow h) s c .a) :
    Executes (.rfnow h) s c .a (modCls s c fun _ => rfnowClass (getCls s c)) := by
  have word : exec (.rfnow h) s = execRfnow h s := rfl
  have effect : modCls s c rfnowClass = modCls s c fun _ => rfnowClass (getCls s c) := modCls_congr rfl
  rw [execRfnow] at word
  rw [← effect]
  refine executes_of_done R word ?_ ((length_modCls ..).symm ▸ R.inRange)
  rw [clsOnly_cls R.focus, modMe_cls R.focus]
  rfl

/-! ## RDRETB -/

theorem rdretb_pushes {h : Hdr} {s : State} {c : Nat} (R : Ready (.rdretb h) s c .a) :
    (roomQ (getCls s c) false = true → reservedQ (getCls s c) false = 0 →
        Executes (.rdretb h) s c .a (modCls s c fun k => { k with qs := k.qs ++ [retb (getCls s c)] }))
      ∧ (roomQ (getCls s c) false = false ∨ reservedQ (getCls s c) false ≠ 0 → Waits (.rdretb h) s) := by
  have word : exec (.rdretb h) s = execRdretb h s := rfl
  rw [execRdretb] at word
  refine ⟨fun room unreserved => executes_of_done R word ?_ ((length_modCls ..).symm ▸ R.inRange), fun full => waits_of_stall R word ?_⟩
  · rw [clsOnly_cls R.focus, me_cls R.focus, focusCls_cls R.focus]
    dsimp only
    rw [room, unreserved, if_pos (by decide), pushQs]
  · rw [clsOnly_cls R.focus, me_cls R.focus]
    dsimp only
    refine if_neg fun free => ?_
    rw [Bool.and_eq_true, beq_iff_eq] at free
    obtain ⟨room, unreserved⟩ := free
    rcases full with full | reserved
    · rw [full] at room
      cases room
    · exact reserved unreserved

theorem refreshWordClauses : RefreshWordClauses :=
  ⟨fun _ _ _ _ R => rfdefer_passes R,
    fun k => ⟨defer_endDefer k, lim_endDefer k, fun _ hp => mem_endDefer hp, fun _ ht => passOn_endDefer ht, endDefer_frame k⟩,
    fun _ s c R => ⟨rfnowClass (getCls s c), rfnow_executes R, defer_rfnowClass _, lim_rfnowClass _, fun _ ht => passOn_rfnowClass ht,
      fun _ hp => mem_rfnowClass hp, rfnowClass_frame _⟩,
    fun _ _ _ R => rdretb_pushes R⟩

/-- Settles O48, by what a pass that starts, the end of deferral and forcing do to a class, and because refills that stop leave its
refresh and its causes alone. -/
theorem refreshWordsAndEvents : Obligations.RefreshWordsAndEvents := ⟨refreshWordClauses, refreshEventClauses⟩

end Sys2Proof.Machine
end

section
/-!
PROOFS for O17: VIEW.DEF (R220, R384).
-/

namespace Sys2Proof.Machine

/-- The view that VIEW.DEF's operands describe. -/
def viewNamed (s : State) (c : Nat) (f : FAM) : ViewSlot :=
  { defined := true, base := (regA s c f.as).toNat, pitch := (regS s c f.sc).toNat, nc := (regA s c f.an).toNat / 2 ^ 25,
    nr := (regA s c f.an).toNat % 2 ^ 25, e := 2 ^ (f.mode.extractLsb' 4 2).toNat }

/-- The checks of VIEW.DEF's operands (R220). -/
def ViewAdmitted (s : State) (c : Nat) (v : ViewSlot) : Prop :=
  1 ≤ v.nr ∧ v.nr ≤ 2 ^ 24 ∧ 1 ≤ v.nc ∧ v.pitch % 64 = 0 ∧ v.nc * v.e ≤ v.pitch ∧ v.nr * v.nc * v.e ≤ 2 ^ 42
    ∧ ∃ g, findSeg (segsOf (winOf s c)) v.base = some g ∧ v.base + v.nr * v.pitch ≤ g.vbase + g.len

/-- The aliases that go to a[AD] and a[AD + 1] (R220, R384). -/
def viewAliases (v : ViewSlot) (slot : Nat) : List W64 :=
  [BitVec.ofNat 64 (0xFD * 2 ^ 48 + 2 ^ 46 + slot * 2 ^ 42),
    if v.nc * v.e % 64 = 0 ∧ v.nr % 64 = 0 then BitVec.ofNat 64 (0xFD * 2 ^ 48 + 2 ^ 47 + slot * 2 ^ 42) else 0]

/-- Slot `slot` of the class holds the view. -/
def withView (s : State) (c slot : Nat) (v : ViewSlot) : State :=
  modCls s c fun k => { k with views := (List.range 16).map fun j => if j = slot then v else k.views.getD j {} }

theorem hasTiled_iff (v : ViewSlot) : hasTiled v = true ↔ v.nc * v.e % 64 = 0 ∧ v.nr % 64 = 0 := by
  rw [hasTiled, Bool.and_eq_true, beq_iff_eq, beq_iff_eq]

/-- VIEW.DEF is a word whose body defines the slot or raises the segment fault. -/
theorem viewDef_word (h : Hdr) (f : FAM) : ∃ body, (∀ s, exec (.viewDef h f) s = runWord (.viewDef h f) body s)
    ∧ ∀ s c, s.focus = .cls c .a →
      (ViewAdmitted s c (viewNamed s c f) → body s = .async (withView s c (f.mode.extractLsb' 0 4).toNat (viewNamed s c f))
        (viewAliases (viewNamed s c f) (f.mode.extractLsb' 0 4).toNat) [])
      ∧ (¬ ViewAdmitted s c (viewNamed s c f) → body s = .trap 0x02 (regA s c f.as)) := by
  refine ⟨_, fun _ => rfl, fun s c hf => ?_⟩
  have inSeg : (∃ g, findSeg (segsOf (winOf s c)) (regA s c f.as).toNat = some g
        ∧ (regA s c f.as).toNat + (regA s c f.an).toNat % 2 ^ 25 * (regS s c f.sc).toNat ≤ g.vbase + g.len)
      ↔ (match findSeg (segsOf (winOf s c)) (regA s c f.as).toNat with
        | some g => decide ((regA s c f.as).toNat + (regA s c f.an).toNat % 2 ^ 25 * (regS s c f.sc).toNat ≤ g.vbase + g.len)
        | none => false) = true := by
    cases findSeg (segsOf (winOf s c)) (regA s c f.as).toNat <;> simp
  dsimp only
  rw [clsOnly_cls hf, focusCls_cls hf, aget_cls hf, aget_cls hf, sget_cls hf, ViewAdmitted, viewNamed]
  dsimp only
  rw [inSeg]
  refine ⟨fun good => (if_pos good).trans ?_, fun bad => (if_neg bad).trans ?_⟩
  · have rowMajor (n : Nat) : 0xFD * 2 ^ 48 + n * 2 ^ 42 + 2 ^ 46 = 0xFD * 2 ^ 48 + 2 ^ 46 + n * 2 ^ 42 := by omega
    have tiled (n : Nat) : 0xFD * 2 ^ 48 + n * 2 ^ 42 + 2 ^ 47 = 0xFD * 2 ^ 48 + 2 ^ 47 + n * 2 ^ 42 := by omega
    rw [if_congr (hasTiled_iff _) rfl rfl, rowMajor, tiled]
    rfl
  · rw [BitVec.ofNat_toNat, BitVec.setWidth_eq]

/-- Settles O17, by what the body of VIEW.DEF comes to. -/
theorem viewDefinition : Obligations.ViewDefinition := by
  intro h f s c R
  obtain ⟨body, word, comes⟩ := viewDef_word h f
  obtain ⟨good, bad⟩ := comes s c R.focus
  refine ⟨fun admitted => runWord_async R (good admitted) ((length_modCls ..).symm ▸ R.inRange) word, fun refused => ?_⟩
  exact (word s).trans (runWord_trap R nofun (bad refused))

end Sys2Proof.Machine
end

section
/-!
PROOFS for O49: code pages are scanned and lines fetched (R206, R325, R328, R330, R337 to R339).
-/

namespace Sys2Proof.Machine

/-! ## The scanned frames of a die (R338) -/

/-- A scan result that is noted stands first, and 4,096 are kept. -/
theorem noteScan_scan {s : State} {d : Nat} (pa : Nat) (r : Option Nat) (hd : d < s.dies.length) :
    (getDie (noteScan s d pa r) d).scan = ((pa, r) :: (getDie s d).scan.filter fun e => e.1 ≠ pa).take 4096 := by
  rw [noteScan, getDie_modDie _ hd]
  simp only [bne, decide_not, ne_eq, beq_eq_decide]

/-- Noting a scan result changes a die's scan results alone. -/
theorem noteScan_die (s : State) (b pa : Nat) (r : Option Nat) (d : Nat) :
    { getDie (noteScan s b pa r) d with scan := [] } = { getDie s d with scan := [] } :=
  getDie_congr_of_modify (fun x => { x with scan := [] }) (s := s) (t := noteScan s b pa r) rfl (fun _ => rfl) d

theorem noteScan_found {s : State} {d : Nat} (pa : Nat) (r : Option Nat) (hd : d < s.dies.length) :
    (getDie (noteScan s d pa r) d).scan.find? (fun e => e.1 = pa) = some (pa, r) := by
  rw [noteScan_scan pa r hd]
  simp

theorem noteScan_length {s : State} {d : Nat} (pa : Nat) (r : Option Nat) (hd : d < s.dies.length) :
    (getDie (noteScan s d pa r) d).scan.length ≤ 4096 := by
  rw [noteScan_scan pa r hd]
  exact List.length_take_le ..

theorem exec_codePageScan {s : State} {c va pa : Nat} (hf : codeFrame s c va = some pa) :
    exec (.codePageScan c va) s = .next (noteScan s (dieOf c) pa (scanFrame s pa)) := by
  show execCodePageScan c va s = _
  rw [execCodePageScan, hf]

/-! ## A miss, by what the scan of its frame has given -/

theorem exec_miss_unscanned {s : State} {c va pa : Nat} (hf : codeFrame s c va = some pa)
    (hs : (getDie s (dieOf c)).scan.find? (fun e => e.1 = pa) = none) :
    exec (.fetchLineMiss c va) s = .next { s with agenda := .event (.codePageScan c va) :: s.agenda } := by
  show execFetchLineMiss c va s = _
  simp only [execFetchLineMiss, hf, hs]
  rfl

theorem exec_miss_refused {s : State} {c va pa w : Nat} (hf : codeFrame s c va = some pa)
    (hs : (getDie s (dieOf c)).scan.find? (fun e => e.1 = pa) = some (pa, some w)) (live : (getCls s c).live = true)
    (unheld : (getCls s c).hold = none) (stands : 64 * ((getCls s c).ws.wi / 6) = va) :
    exec (.fetchLineMiss c va) s
      = .next (trapAt (noteScan s (dieOf c) pa (some w)) c .s 0x02 (BitVec.ofNat 64 (va / 65536 * 65536 + wordAddr w))) := by
  have here : (sInLine (getCls s c) va && (getCls s c).live && (getCls s c).hold.isNone) = true := by
    rw [sInLine, stands, live, unheld, beq_self_eq_true]
    rfl
  show execFetchLineMiss c va s = _
  simp only [execFetchLineMiss, hf, hs, here, if_true]

/-- A line of a frame that the scanner has passed, by its poison (R328, R339). -/
theorem exec_miss_passed {s : State} {c va pa : Nat} (hf : codeFrame s c va = some pa)
    (hs : (getDie s (dieOf c)).scan.find? (fun e => e.1 = pa) = some (pa, none)) :
    let t := noteScan s (dieOf c) pa none
    let a := pa + va % 65536
    (∀ kind, poisonUnder s (a / 64) va = some kind → exec (.fetchLineMiss c va) s = .next (poisonLine t c va a kind))
      ∧ (poisonUnder s (a / 64) va = none → checkLine (BitVec.ofNat 512 (readNat s a 64)) = .clean →
          exec (.fetchLineMiss c va) s = .next (fillLine t c va a (BitVec.ofNat 512 (readNat s a 64)))) := by
  intro t a
  have poison : poisonUnder (noteScan s (dieOf c) pa none) ((pa + va % 65536) / 64) va = poisonUnder s (a / 64) va := rfl
  have bytes : readNat (noteScan s (dieOf c) pa none) (pa + va % 65536) 64 = readNat s a 64 := rfl
  have step : exec (.fetchLineMiss c va) s = execFetchLineMiss c va s := rfl
  rw [step]
  simp only [execFetchLineMiss, hf, hs, poison, bytes]
  refine ⟨fun kind h => ?_, fun h clean => ?_⟩
  · rw [h]
  · rw [h, clean]

/-! ## The fetch line buffers -/

theorem fillLine_found {s : State} {c : Nat} (va pa : Nat) (l : Line) (hc : c < s.cls.length) :
    (getCls (fillLine s c va pa l) c).fetchBuf.find? (fun x => x.1 = va) = some (va, pa, l)
      ∧ (getCls (fillLine s c va pa l) c).fetchBuf.length ≤ 64
      ∧ { getCls (fillLine s c va pa l) c with fetchBuf := [] } = { getCls s c with fetchBuf := [] } := by
  rw [fillLine, getCls_modCls _ _ _ hc]
  exact ⟨by simp, List.length_take_le .., rfl⟩

/-! ## Poison in a line (R328) -/

theorem leastOf_eq_none {l : List Nat} (h : l = []) : leastOf l = none := by rw [h]; rfl

theorem leastOf_isSome {n : Nat} {l : List Nat} : ∃ o, leastOf (n :: l) = some o := by
  have some_ : ∀ (l : List Nat) (n : Nat), ∃ o, l.foldl (fun m x => match m with
      | none => some x
      | some y => some (min x y)) (some n) = some o := by
    intro l
    induction l with
    | nil => exact fun n => ⟨n, rfl⟩
    | cons x l ih => exact fun n => ih (min x n)
  exact some_ l n

/-- No walker stands in the line. -/
theorem firstInLine_none {k : ClassState} {va : Nat} (away : ∀ e : Eng, 64 * ((walkerOf k e).wi / 6) ≠ va) :
    firstInLine k va = none := by
  refine leastOf_eq_none ?_
  rw [List.map_eq_nil_iff, List.filter_eq_nil_iff]
  exact fun e _ h => away e (beq_iff_eq.1 h)

/-- The S walker stands in the line, and counts in handler mode too. -/
theorem firstInLine_some {k : ClassState} {va : Nat} (stands : 64 * (k.ws.wi / 6) = va) : ∃ o, firstInLine k va = some o := by
  have first : ∃ es, slipEngines k = .s :: es := by
    unfold slipEngines
    split
    · exact ⟨_, rfl⟩
    · exact ⟨_, rfl⟩
  obtain ⟨es, first⟩ := first
  have here : (64 * ((walkerOf k .s).wi / 6) == va) = true := beq_iff_eq.2 stands
  rw [firstInLine, first, List.filter_cons, if_pos here]
  exact leastOf_isSome

/-- Poison in a line that no walker stands in is left. -/
theorem poisonLine_away {s : State} {c va pa : Nat} {kind : Bool} (away : ∀ e : Eng, 64 * ((walkerOf (getCls s c) e).wi / 6) ≠ va) :
    poisonLine s c va pa kind = s := by
  simp only [poisonLine, firstInLine_none away]

/-- Media poison in the S walker's line is consumed as that of the line. -/
theorem poisonLine_stands {s : State} {c va : Nat} (pa : Nat) (live : (getCls s c).live = true) (unheld : (getCls s c).hold = none)
    (stands : 64 * ((getCls s c).ws.wi / 6) = va) :
    ∃ o, poisonLine s c va pa false = consumeAt s c .s o false (.code c va) va := by
  obtain ⟨o, first⟩ := firstInLine_some stands
  refine ⟨o, ?_⟩
  simp only [poisonLine, first, live, unheld, Option.isNone_none, Bool.and_self, if_true, Bool.false_eq_true, if_false]

/-- Media poison that a class consumes: the cause that it takes, and the kill of its node (R131). -/
theorem consumeAt_media {s : State} {c : Nat} (e : Eng) (ord : Nat) (u : PUnit) (va : Nat) (hc : c < s.cls.length) :
    (getCls (consumeAt s c e ord false u va) c).tcode = 0x20
      ∧ (getCls (consumeAt s c e ord false u va) c).teng = engCode e
      ∧ (getCls (consumeAt s c e ord false u va) c).tinfo = locatorOn s u va
      ∧ ∀ tm, teamOf s c = some tm → (consumeAt s c e ord false u va).kills = ⟨tm.inst, tm.node, 0x13⟩ :: s.kills := by
  have cause := getCls_killOn_systemCause 0x20 (engCode e) ord (locatorOn s u va) 0x013 (BitVec.ofNat 8 (0x40 + (engCode e).toNat))
    (locatorOn s u va) 0x13 hc
  have consumed : consumeAt s c e ord false u va = killOn (bbClass (systemCause s c 0x20 (engCode e) ord (locatorOn s u va)) c 0x013
    (BitVec.ofNat 8 (0x40 + (engCode e).toNat)) (locatorOn s u va)) c 0x13 := rfl
  rw [consumed, cause]
  exact ⟨rfl, rfl, rfl, fun tm ht => killOn_kills (by exact ht) 0x13⟩

/-- Settles O49, by what a miss comes to for each result of the scan of its frame. -/
theorem fetchAndScan : Obligations.FetchAndScan := by
  refine ⟨fun c va pa s hf => ?_, fun s pa far => if_pos far, fun c va pa s => exec_miss_unscanned,
    fun c va pa w s hf hs live unheld stands => ?_, ?_, fun c va pa s kind hf hs poisoned => ?_⟩
  · exact ⟨_, exec_codePageScan hf, fun hd => ⟨noteScan_found _ _ hd, noteScan_length _ _ hd⟩, rfl, noteScan_die _ _ _ _⟩
  · exact ⟨exec_miss_refused hf hs live unheld stands, fun hd => noteScan_scan _ _ hd⟩
  · intro c va pa s hf hs a l wf clean good hc
    obtain ⟨-, filled⟩ := exec_miss_passed hf hs
    have line : BitVec.ofNat 512 (readNat s a 64) = l := by rw [readNat, readBytes_eq _ _ wf]
    rw [line] at filled
    obtain ⟨found, room, same⟩ := fillLine_found (s := noteScan s (dieOf c) pa none) va a l hc
    exact ⟨_, filled clean good, found, room, same, fun j hj => getCls_modCls_ne _ _ _ _ hj, rfl, noteScan_die _ _ _ _,
      fun hd => noteScan_scan _ _ hd⟩
  · obtain ⟨met, -⟩ := exec_miss_passed hf hs
    refine ⟨fun away => ⟨_, met kind poisoned, ?_⟩, fun media live unheld hc stands => ⟨_, met kind poisoned, ?_⟩⟩
    · rw [poisonLine_away (s := noteScan s (dieOf c) pa none) away]
      rfl
    · obtain ⟨o, consumed⟩ := poisonLine_stands (s := noteScan s (dieOf c) pa none) (pa + va % 65536) live unheld stands
      rw [media, consumed]
      exact consumeAt_media (s := noteScan s (dieOf c) pa none) .s o (.code c va) va hc

end Sys2Proof.Machine
end

section
/-!
PROOFS for O50: page walks, shoot-downs, migration, merges of statistics records (R206, R209, R211, R214 to R217, R234, R316, R317).
-/

namespace Sys2Proof.Machine

/-! ## A page walk that has come to its end (R209, R211, R213) -/

theorem exec_pageWalk_frame {s : State} {c w f : Nat} {g : Seg} (hw : (getCls s c).walk = some w)
    (hg : findSeg (segsOf (winOf s c)) (w / 4) = some g) (h : walk s g.table (partOf s c) (w / 4 / 65536) = .frame f) :
    exec (.pageWalkComplete c) s = .next (modCls s c fun k =>
      { k with walk := none, tcache := ((pageKey g.table (w / 4 / 65536), f) :: k.tcache).take 256 }) := by
  have step : exec (.pageWalkComplete c) s = execPageWalkComplete c s := rfl
  rw [step]
  simp only [execPageWalkComplete, hw, hg, h]

theorem exec_pageWalk_wait {s : State} {c w f : Nat} {g : Seg} (hw : (getCls s c).walk = some w)
    (hg : findSeg (segsOf (winOf s c)) (w / 4) = some g) (h : walk s g.table (partOf s c) (w / 4 / 65536) = .wait f) :
    exec (.pageWalkComplete c) s = .next s := by
  have step : exec (.pageWalkComplete c) s = execPageWalkComplete c s := rfl
  rw [step]
  simp only [execPageWalkComplete, hw, hg, h]

theorem exec_pageWalk_halt {s : State} {c w x : Nat} {g : Seg} (hw : (getCls s c).walk = some w)
    (hg : findSeg (segsOf (winOf s c)) (w / 4) = some g) (h : walk s g.table (partOf s c) (w / 4 / 65536) = .halt x) :
    exec (.pageWalkComplete c) s = .next (haltA s c (w / 4) x (w % 4) g.table (getCls s c).wa.ord 0) := by
  have step : exec (.pageWalkComplete c) s = execPageWalkComplete c s := rfl
  rw [step]
  simp only [execPageWalkComplete, hw, hg, h]

/-- Class `c` has halted; firmware has not heard of it yet. -/
def halting (s : State) (c va cause kind table ord prog : Nat) : State :=
  modCls (setCause s c 0x10 1 ord (BitVec.ofNat 64 va)) c fun k => { k with
    walk := none
    halt := ⟨BitVec.ofNat 64 va, ord, BitVec.ofNat 8 cause, BitVec.ofNat 8 kind, true, table, prog, (getDie s (dieOf c)).nextEv⟩
    taken := k.taken.map fun t => { t with index := none } }

theorem haltA_eq (s : State) (c va cause kind table ord prog : Nat) :
    haltA s c va cause kind table ord prog = causeEvent (halting s c va cause kind table ord prog) c := rfl

theorem getCls_causeEvent (s : State) (c d : Nat) : getCls (causeEvent s c) d = getCls s d := rfl

theorem getCls_halting {s : State} {c : Nat} (va cause kind table ord prog : Nat) (hc : c < s.cls.length) :
    getCls (halting s c va cause kind table ord prog) c
      = { getCls s c with
          tcode := 0x10, teng := 1, tord := BitVec.ofNat 48 ord, tinfo := BitVec.ofNat 64 va, walk := none
          halt := ⟨BitVec.ofNat 64 va, ord, BitVec.ofNat 8 cause, BitVec.ofNat 8 kind, true, table, prog, (getDie s (dieOf c)).nextEv⟩
          taken := (getCls s c).taken.map fun t => { t with index := none } } := by
  have there : c < (setCause s c 0x10 1 ord (BitVec.ofNat 64 va)).cls.length := (length_setCause ..).symm ▸ hc
  rw [halting, getCls_modCls _ _ _ there, getCls_setCause hc]
  rfl

/-- The event of a cause stands last in its die's queue. -/
theorem causeEvent_event {s : State} {c : Nat} (hd : dieOf c < s.dies.length) :
    ∃ e, (getDie (causeEvent s c) (dieOf c)).evq = (getDie s (dieOf c)).evq ++ [e] ∧ e.code = BitVec.ofNat 8 (getCls s c).tcode.toNat
      ∧ e.cls = BitVec.ofNat 8 c ∧ e.tinfo = (getCls s c).tinfo :=
  ⟨_, pushEvent_evq (s := s) _ _ _ _ _ _ hd, rfl, rfl, rfl⟩

/-- The class and its die's queue as a halt leaves them. -/
theorem haltA_clause {s : State} {c : Nat} (va cause kind table ord : Nat) (hc : c < s.cls.length) :
    let t := haltA s c va cause kind table ord 0
    (getCls t c).halt = ⟨BitVec.ofNat 64 va, ord, BitVec.ofNat 8 cause, BitVec.ofNat 8 kind, true, table, 0, (getDie s (dieOf c)).nextEv⟩
      ∧ (getCls t c).tcode = 0x10 ∧ (getCls t c).teng = 1 ∧ (getCls t c).tinfo = BitVec.ofNat 64 va
      ∧ (getCls t c).walk = none ∧ (getCls t c).wa = (getCls s c).wa
      ∧ (dieOf c < s.dies.length → ∃ e, (getDie t (dieOf c)).evq = (getDie s (dieOf c)).evq ++ [e] ∧ e.code = 0x10
        ∧ e.cls = BitVec.ofNat 8 c ∧ e.tinfo = BitVec.ofNat 64 va) := by
  have here := getCls_halting va cause kind table ord 0 hc
  intro t
  rw [show t = _ from haltA_eq .., getCls_causeEvent, here]
  refine ⟨rfl, rfl, rfl, rfl, rfl, rfl, fun hd => ?_⟩
  obtain ⟨e, evq, code, cls, tinfo⟩ := causeEvent_event (s := halting s c va cause kind table ord 0) hd
  rw [here] at code tinfo
  exact ⟨e, evq, code, cls, tinfo⟩

/-! ## Shoot-downs (R214, R215) -/

theorem exec_shootdownReceipt {s : State} {c : Nat} {v : BitVec 40} (h : shootPending s c v.toNat = true) :
    exec (.shootdownReceipt c v) s = .next (modCls s c fun k =>
      { k with tcache := k.tcache.filter fun e => e.1 % 2 ^ 40 != v.toNat
               shootAcks := v.toNat :: k.shootAcks.filter (· != v.toNat) }) :=
  congrArg Host.Outcome.next (if_pos h)

/-- The classes that a page still waits for, once class `c` has acknowledged page `v`. -/
theorem awaited_acknowledge (cs : List Nat) (w v u d c : Nat) :
    (w == u && (if w = v then cs.filter (· != c) else cs).contains d) = ((w == u && cs.contains d) && !(d == c && u == v)) := by
  by_cases hu : w = u
  · subst hu
    by_cases hv : w = v
    · rw [Bool.eq_iff_iff]
      simp [hv]
    · simp [hv]
  · rw [beq_eq_false_iff_ne.2 hu]
    rfl

theorem any_and_const {α : Type} (l : List α) (f : α → Bool) (b : Bool) : (l.any fun x => f x && b) = (l.any f && b) := by
  induction l with
  | nil => simp
  | cons x l ih => simp only [List.any_cons, ih, Bool.and_or_distrib_right]

/-- An acknowledgement is that of one class for one page. -/
theorem shootPending_acknowledge (s : State) (c v d u : Nat) :
    shootPending (acknowledge c v s) d u = (shootPending s d u && !(d == c && u == v)) := by
  unfold shootPending acknowledge
  dsimp only
  rw [List.any_map, List.any_map, Bool.and_or_distrib_right, ← any_and_const, ← any_and_const]
  congr 1
  · refine congrArg (List.any _) (funext fun x => ?_)
    cases hs : x.fw.shoot with
    | none => simp [hs]
    | some y =>
      obtain ⟨w, cs, n⟩ := y
      refine Eq.trans ?_ (awaited_acknowledge cs w v u d c)
      by_cases hw : w = v <;> simp [hs, hw]
  · refine congrArg (List.any _) (funext fun m => ?_)
    refine Eq.trans ?_ (awaited_acknowledge m.pending m.vpn v u d c)
    by_cases hv : m.vpn = v <;> simp [hv]

theorem exec_shootdownAck {s : State} {c : Nat} {v : BitVec 40} (h : v.toNat ∈ (getCls s c).shootAcks)
    (pending : shootPending s c v.toNat = true) :
    exec (.shootdownAck c v) s = .next (if usesPage (getCls s c) v.toNat = true then s
      else acknowledge c v.toNat (if holdsPage (getCls s c) v.toNat then
        modCls s c fun k => { k with tcache := k.tcache.filter fun e => e.1 % 2 ^ 40 != v.toNat } else s)) := by
  have step : exec (.shootdownAck c v) s = execShootdownAck c v s := rfl
  rw [step, execShootdownAck, List.contains_iff_mem.2 h, pending]
  cases usesPage (getCls s c) v.toNat <;> rfl

/-- A class that acknowledges holds no translation of the page. -/
theorem tcache_acknowledge (s : State) {c : Nat} (v : Nat) (hc : c < s.cls.length) :
    ∀ e ∈ (getCls (acknowledge c v (if holdsPage (getCls s c) v then
      modCls s c fun k => { k with tcache := k.tcache.filter fun e => e.1 % 2 ^ 40 != v } else s)) c).tcache, e.1 % 2 ^ 40 ≠ v := by
  have kept (t : State) (ht : c < t.cls.length) : (getCls (acknowledge c v t) c).tcache = (getCls t c).tcache := by
    change (getCls (modCls t c _) c).tcache = _
    rw [getCls_modCls _ _ _ ht]
  by_cases held : holdsPage (getCls s c) v = true
  · rw [if_pos held, kept _ ((length_modCls ..).symm ▸ hc), getCls_modCls _ _ _ hc]
    exact fun e he => bne_iff_ne.1 (List.mem_filter.1 he).2
  · rw [if_neg held, kept _ hc]
    exact fun e he same => held (List.any_eq_true.2 ⟨e, he, beq_iff_eq.2 same⟩)

/-- SHOOTDOWN_ACK, whatever else waits (R214, R215). -/
theorem shootdownAck_clause (c : Nat) (v : BitVec 40) (s : State) (h : v.toNat ∈ (getCls s c).shootAcks)
    (pending : shootPending s c v.toNat = true) :
    (usesPage (getCls s c) v.toNat = true → exec (.shootdownAck c v) s = .next s)
      ∧ (usesPage (getCls s c) v.toNat = false → ∃ t, exec (.shootdownAck c v) s = .next t ∧ shootPending t c v.toNat = false
        ∧ (∀ e ∈ (getCls t c).tcache, e.1 % 2 ^ 40 ≠ v.toNat)
        ∧ (∀ d u, (d, u) ≠ (c, v.toNat) → shootPending t d u = shootPending s d u) ∧ t.mem = s.mem ∧ t.ipts = s.ipts) := by
  have hc : c < s.cls.length := by
    by_contra out
    rw [getCls, List.getD_eq_default _ _ (Nat.le_of_not_lt out)] at h
    exact absurd h (List.not_mem_nil)
  have step := exec_shootdownAck h pending
  refine ⟨fun used => by rw [step, if_pos used], fun free => ?_⟩
  rw [if_neg (by rw [free]; exact Bool.false_ne_true)] at step
  refine ⟨_, step, ?_, tcache_acknowledge s v.toNat hc, fun d u other => ?_, ?_, ?_⟩
  · rw [shootPending_acknowledge]
    simp
  · rw [shootPending_acknowledge]
    have apart : (d == c && u == v.toNat) = false := by
      rw [Bool.and_eq_false_iff, beq_eq_false_iff_ne, beq_eq_false_iff_ne]
      by_cases hd : d = c
      · exact .inr fun hu => other (by rw [hd, hu])
      · exact .inl hd
    rw [apart, Bool.not_false, Bool.and_true]
    split
    · rfl
    · rfl
  · split <;> rfl
  · split <;> rfl

/-! ## Entries of the inverted page tables (R208) -/

/-- A table after a change of one. -/
theorem iptOf_modify {s : State} {t : Nat} (f : Ipt → Ipt) (ht : t < s.ipts.length) (y : Nat) :
    iptOf { s with ipts := s.ipts.modify t f } y = if y = t then f (iptOf s y) else iptOf s y := by
  unfold iptOf
  by_cases hy : y = t
  · subst hy
    simp [List.getD_eq_getElem?_getD, ht]
  · simp [List.getD_eq_getElem?_getD, hy, Ne.symm hy]

/-- An entry after a write of one. -/
theorem iptEntry_setIptEntry {s : State} {t : Nat} (f : Nat) (e : IptEntry) (ht : t < s.ipts.length) (y g : Nat) :
    iptEntry (setIptEntry s t f e) y g = if y = t ∧ g = f then e else iptEntry s y g := by
  rw [iptEntry, setIptEntry, iptOf_modify _ ht]
  by_cases hy : y = t
  · rw [if_pos hy, tget_tset, iptEntry]
    simp only [hy, true_and, eq_comm]
  · rw [if_neg hy, if_neg fun h => hy h.1, iptEntry]

theorem iptEntry_setIptEntry_same {s : State} {t : Nat} (f : Nat) (e : IptEntry) (ht : t < s.ipts.length) :
    iptEntry (setIptEntry s t f e) t f = e := by
  rw [iptEntry_setIptEntry f e ht, if_pos ⟨rfl, rfl⟩]

theorem iptEntry_setIptEntry_other {s : State} {t f : Nat} (e : IptEntry) (ht : t < s.ipts.length) {y g : Nat} (h : (y, g) ≠ (t, f)) :
    iptEntry (setIptEntry s t f e) y g = iptEntry s y g := by
  rw [iptEntry_setIptEntry f e ht, if_neg fun same => h (by rw [same.1, same.2])]

/-! ## The beginning of a migration (R206, R216, R234) -/

theorem exec_migration_begins {s : State} {x a : Nat} (b : Nat) (err : Bool) (bad : List Nat)
    (h : s.migs.find? (fun m => m.table = x ∧ m.src = a) = none) : exec (.migration x a b err bad) s = .next (migrationStart s x a b) := by
  have step : exec (.migration x a b err bad) s = execMigration x a b err bad s := rfl
  rw [step, execMigration, h]

/-- The checks of a migration's beginning. -/
def MigrationAdmitted (s : State) (x a b : Nat) : Prop :=
  let e := iptEntry s x a
  e.v = true ∧ e.shd = false ∧ e.shadow = 0xFFFFFFFF ∧ e.mig = false ∧ frameFree s x b = true ∧ a ≠ b
    ∧ frameExec s e.part (framePa x a) = false ∧ (e.sa = false ∨ b < hbmFrames)

theorem migrationStart_eq (s : State) (x a b : Nat) :
    (MigrationAdmitted s x a b → migrationStart s x a b = { setIptEntry s x a { iptEntry s x a with mig := true } with
        migs := s.migs ++ [⟨x, a, b, (iptEntry s x a).vpn, partClasses s (iptEntry s x a).part⟩] })
      ∧ (¬ MigrationAdmitted s x a b → migrationStart s x a b = s) := by
  have checks : MigrationAdmitted s x a b ↔ ((iptEntry s x a).v && !(iptEntry s x a).shd && (iptEntry s x a).shadow == 0xFFFFFFFF
      && !(iptEntry s x a).mig && frameFree s x b && a != b && !frameExec s (iptEntry s x a).part (framePa x a)
      && (!(iptEntry s x a).sa || decide (b < hbmFrames))) = true := by
    simp only [MigrationAdmitted, Bool.and_eq_true, Bool.or_eq_true, Bool.not_eq_true', beq_iff_eq, bne_iff_ne, decide_eq_true_eq,
      and_assoc]
  rw [checks]
  exact ⟨fun good => if_pos good, fun bad => if_neg bad⟩

theorem migrationStart_clause (x a b : Nat) (err : Bool) (bad : List Nat) (s : State)
    (h : s.migs.find? (fun m => m.table = x ∧ m.src = a) = none) :
    let e := iptEntry s x a
    (frameExec s e.part (framePa x a) = true → exec (.migration x a b err bad) s = .next s)
      ∧ (e.sa = true → hbmFrames ≤ b → exec (.migration x a b err bad) s = .next s)
      ∧ (e.shd = true ∨ e.shadow ≠ 0xFFFFFFFF → exec (.migration x a b err bad) s = .next s)
      ∧ (e.v = true → e.shd = false → e.shadow = 0xFFFFFFFF → e.mig = false → frameFree s x b = true → a ≠ b → x < s.ipts.length →
      frameExec s e.part (framePa x a) = false → e.sa = false ∨ b < hbmFrames →
      ∃ t, exec (.migration x a b err bad) s = .next t ∧ iptEntry t x a = { e with mig := true }
        ∧ t.migs = s.migs ++ [⟨x, a, b, e.vpn, partClasses s e.part⟩] ∧ t.mem = s.mem
        ∧ (∀ y f, (y, f) ≠ (x, a) → iptEntry t y f = iptEntry s y f)) := by
  intro e
  rw [exec_migration_begins b err bad h]
  obtain ⟨starts, stays⟩ := migrationStart_eq s x a b
  have refused (no : ¬ MigrationAdmitted s x a b) : (Host.Outcome.next (migrationStart s x a b) : Out) = .next s :=
    congrArg _ (stays no)
  refine ⟨fun pinned => refused ?_, fun atomic far => refused ?_, fun shadow => refused ?_,
    fun v shd shadow mig free apart inRange plain near => ?_⟩
  · rintro ⟨-, -, -, -, -, -, plain, -⟩
    exact Bool.false_ne_true (plain.symm.trans pinned)
  · rintro ⟨-, -, -, -, -, -, -, near⟩
    rcases near with near | near
    · exact Bool.false_ne_true (near.symm.trans atomic)
    · exact absurd near (Nat.not_lt.2 far)
  · rintro ⟨-, shd, none_, -⟩
    rcases shadow with shadow | shadow
    · exact Bool.false_ne_true (shd.symm.trans shadow)
    · exact shadow none_
  · exact ⟨_, congrArg _ (starts ⟨v, shd, shadow, mig, free, apart, plain, near⟩), iptEntry_setIptEntry_same a _ inRange, rfl, rfl,
      fun y f other => iptEntry_setIptEntry_other _ inRange other⟩

/-! ## Bytes that a copy moves -/

theorem tget_append_of_left {α : Type} (d : α) (t u : Tbl α) (k : Nat) (h : ∀ e ∈ u, e.1 ≠ k) : tget d (t ++ u) k = tget d t k := by
  have absent (u : Tbl α) (h : ∀ e ∈ u, e.1 ≠ k) : tget d u k = d := by
    induction u with
    | nil => rfl
    | cons e u ih => exact (if_neg (h e List.mem_cons_self)).trans (ih fun x hx => h x (List.mem_cons_of_mem _ hx))
  induction t with
  | nil => exact absent u h
  | cons e t ih =>
    show (if e.1 = k then e.2 else tget d (t ++ u) k) = if e.1 = k then e.2 else tget d t k
    rw [ih]

theorem tget_append_of_right {α : Type} (d : α) (t u : Tbl α) (k : Nat) (h : ∀ e ∈ t, e.1 ≠ k) : tget d (t ++ u) k = tget d u k := by
  rw [tget_append, if_neg fun hk => ?_]
  obtain ⟨e, he, rfl⟩ := List.mem_map.1 hk
  exact h e he rfl

/-- A filter that passes the entries of a key leaves what the key reads. -/
theorem tget_filter_of_passes {α : Type} (d : α) (p : Nat × α → Bool) {k : Nat} (h : ∀ v, p (k, v) = true) (t : Tbl α) :
    tget d (t.filter p) k = tget d t k := by
  induction t with
  | nil => rfl
  | cons e t ih =>
    obtain ⟨j, v⟩ := e
    by_cases hj : j = k
    · subst hj
      rw [List.filter_cons, if_pos (h v)]
      simp only [tget, if_true]
    · rw [List.filter_cons]
      split <;> simp only [tget, hj, if_false, ih]

/-- A table whose keys have moved by one distance. -/
theorem tget_shift {α : Type} (d : α) (a b : Nat) {k : Nat} (hk : b ≤ k) : ∀ {t : Tbl α}, (∀ e ∈ t, a ≤ e.1) →
    tget d (t.map fun e => (e.1 - a + b, e.2)) k = tget d t (k - b + a) := by
  intro t
  induction t with
  | nil => exact fun _ => rfl
  | cons e t ih =>
    intro low
    have here := low e List.mem_cons_self
    have keys : e.1 - a + b = k ↔ e.1 = k - b + a := by omega
    show (if e.1 - a + b = k then e.2 else _) = if e.1 = k - b + a then e.2 else _
    rw [ih fun x hx => low x (List.mem_cons_of_mem _ hx), if_congr keys rfl rfl]

/-- A byte after a copy: in the destination it is that of the source, elsewhere it stays. -/
theorem tget_copyCells (m : List Host.Cell) (a b n k : Nat) :
    tget 0 (copyCells m a b n) k = if b ≤ k ∧ k < b + n then tget 0 m (k - b + a) else tget 0 m k := by
  have low : ∀ e ∈ m.filter (fun e => decide (e.1 < b)), e.1 < b := fun e he => of_decide_eq_true (List.mem_filter.1 he).2
  have high : ∀ e ∈ m.filter (fun e => decide (b + n ≤ e.1)), b + n ≤ e.1 := fun e he => of_decide_eq_true (List.mem_filter.1 he).2
  have source : ∀ e ∈ m.filter (fun e => decide (a ≤ e.1) && decide (e.1 < a + n)), a ≤ e.1 ∧ e.1 < a + n := fun e he => by
    simpa using (List.mem_filter.1 he).2
  have moved : ∀ e ∈ (m.filter fun e => decide (a ≤ e.1) && decide (e.1 < a + n)).map (fun e => (e.1 - a + b, e.2)),
      b ≤ e.1 ∧ e.1 < b + n := fun e he => by
    obtain ⟨x, hx, rfl⟩ := List.mem_map.1 he
    obtain ⟨h1, h2⟩ := source x hx
    exact ⟨Nat.le_add_left .., by show x.1 - a + b < b + n; omega⟩
  unfold copyCells
  by_cases below : k < b
  · rw [if_neg (by omega), List.append_assoc, tget_append_of_left _ _ _ _ fun e he => ?_,
      tget_filter_of_passes _ _ fun _ => decide_eq_true below]
    rcases List.mem_append.1 he with he | he
    · have := moved e he; omega
    · have := high e he; omega
  · by_cases inside : k < b + n
    · rw [if_pos ⟨Nat.le_of_not_lt below, inside⟩, tget_append_of_left _ _ _ _ fun e he => by have := high e he; omega,
        tget_append_of_right _ _ _ _ fun e he => by have := low e he; omega,
        tget_shift _ _ _ (Nat.le_of_not_lt below) fun e he => (source e he).1, tget_filter_of_passes _ _ fun _ => ?_]
      exact Bool.and_eq_true_iff.2 ⟨decide_eq_true (by omega), decide_eq_true (by omega)⟩
    · rw [if_neg (by omega), tget_append_of_right _ _ _ _ fun e he => ?_,
        tget_filter_of_passes _ _ fun _ => decide_eq_true (Nat.le_of_not_lt inside)]
      rcases List.mem_append.1 he with he | he
      · have := low e he; omega
      · have := moved e he; omega

/-! ## A frame that is copied (R216, R218) -/

/-- Nothing but poison and tags differs. -/
def TagsOnly (s t : State) : Prop := { t with poison := [], tags := [] } = { s with poison := [], tags := [] }

theorem tagsOnly_movePoison (t : State) (p : Option Bool) (u : PUnit) : TagsOnly t (movePoison t p u) := by
  cases p <;> exact rfl

theorem tagsOnly_moveTag (s t : State) (a b : Nat) : TagsOnly t (moveTag s t a b) := by
  unfold moveTag
  dsimp only
  split
  · exact tagsOnly_movePoison ..
  · exact tagsOnly_movePoison ..

theorem tagsOnly_moveTags (s : State) (from_ to_ : Nat → Nat) (l : List Nat) (t : State) :
    TagsOnly t (l.foldl (fun u j => moveTag s u (from_ j) (to_ j)) t) := by
  induction l generalizing t with
  | nil => exact rfl
  | cons j l ih => exact (ih _).trans (tagsOnly_moveTag ..)

/-- A copy changes memory, its poison and tags, and what is kept of the lines of the frame that it overwrites. -/
theorem copyFrame_frame (s : State) (a b : Nat) :
    { copyFrame s a b with dies := [], cls := [], poison := [], tags := [] }
      = { s with dies := [], cls := [], poison := [], tags := [], mem := copyCells s.mem a b 65536 } := by
  unfold copyFrame
  dsimp only
  split
  · rfl
  · generalize List.range 1024 = sectors
    exact congrArg (fun u : State => { u with dies := [], cls := [] })
      (tagsOnly_moveTags s (fun j => a / 64 + j) (fun j => b / 64 + j) sectors _)

theorem copyFrame_mem (s : State) (a b : Nat) : (copyFrame s a b).mem = copyCells s.mem a b 65536 :=
  (congrArg State.mem (copyFrame_frame s a b) :)

theorem copyFrame_ipts (s : State) (a b : Nat) : (copyFrame s a b).ipts = s.ipts := (congrArg State.ipts (copyFrame_frame s a b) :)

theorem copyFrame_insts (s : State) (a b : Nat) : (copyFrame s a b).insts = s.insts := (congrArg State.insts (copyFrame_frame s a b) :)

theorem copyFrame_teams (s : State) (a b : Nat) : (copyFrame s a b).teams = s.teams := (congrArg State.teams (copyFrame_frame s a b) :)

theorem copyFrame_parts (s : State) (a b : Nat) : (copyFrame s a b).parts = s.parts := (congrArg State.parts (copyFrame_frame s a b) :)

theorem wf_copyFrame {s : State} (a b : Nat) (wf : Memory.wf s.mem) : Memory.wf (copyFrame s a b).mem := by
  rw [copyFrame_mem]
  exact wf_copyCells a b 65536 wf

theorem readByte_copyFrame (s : State) (a b k : Nat) :
    readByte (copyFrame s a b) k = if b ≤ k ∧ k < b + 65536 then readByte s (k - b + a) else readByte s k := by
  rw [readByte, copyFrame_mem, tget_copyCells]
  rfl

/-! ## A frame whose key goes (R229) -/

theorem readByte_unsealSector {s : State} {u v k : Nat} (wf : Memory.wf s.mem) (out : ¬ (64 * u ≤ k ∧ k < 64 * u + 64)) :
    readByte (unsealSector u v s) k = readByte s k := by
  have written : readByte (writePhysNat s (64 * u) 64 v) k = readByte s k := by
    rw [writePhysNat, readByte_writePhys _ _ _ wf, length_leBytes, if_neg out]
  unfold unsealSector
  split
  · exact written
  · exact written

theorem wf_unsealSector {s : State} (u v : Nat) (wf : Memory.wf s.mem) : Memory.wf (unsealSector u v s).mem := by
  unfold unsealSector
  split
  · exact wf_writePhysNat _ _ _ wf
  · exact wf_writePhysNat _ _ _ wf

/-- Bytes outside the frame stay. -/
theorem readByte_unsealFrame {s : State} {t f k : Nat} (wf : Memory.wf s.mem) (out : ¬ (framePa t f ≤ k ∧ k < framePa t f + 65536)) :
    readByte (unsealFrame s t f) k = readByte s k := by
  have aligned := framePa_aligned t f
  unfold unsealFrame
  dsimp only
  split
  · rfl
  · refine (List.foldlRecOn (motive := fun u : State => Memory.wf u.mem ∧ readByte u k = readByte s k) _ _ ⟨wf, rfl⟩
      fun u ⟨wfU, same⟩ j hj => ?_).2
    have hj := List.mem_range.1 hj
    exact ⟨wf_unsealSector _ _ wfU, (readByte_unsealSector (u := framePa t f / 64 + j)
      (v := (storedSector s (framePa t f / 64 + j)).toNat) wfU (by omega)).trans same⟩

theorem unsealFrame_keyless {s : State} {t f : Nat} (h : keyOf s (framePa t f) = none) : unsealFrame s t f = s :=
  if_pos (by rw [h]; rfl)

theorem framePa_hbm {x f : Nat} (hf : f < hbmFrames) : framePa x f = x * 2 ^ 36 + f * 65536 := if_pos hf

theorem framePa_port {x f p : Nat} (hf : ¬ f < hbmFrames) (hp : tablePort x = some p) :
    framePa x f = 2 ^ 44 + p * 2 ^ 42 + (f - hbmFrames) * 65536 := by
  rw [framePa, if_neg hf, hp]

theorem framePa_nowhere {x f : Nat} (hf : ¬ f < hbmFrames) (hp : tablePort x = none) : framePa x f = 2 ^ 43 := by
  rw [framePa, if_neg hf, hp]

theorem tablePort_lt {x p : Nat} (hp : tablePort x = some p) : x < 8 := by
  rcases Nat.lt_or_ge x 8 with h | h
  · exact h
  · obtain ⟨n, rfl⟩ := Nat.exists_eq_add_of_le' h
    exact absurd (show none = some p from hp) nofun

/-- No key is set for an address that no table covers. -/
theorem keyOf_nowhere (s : State) : keyOf s (2 ^ 43) = none := by
  have outside : frameIdx (2 ^ 43) = none := by decide
  rw [keyOf, outside]

/-- Two frames of one table do not meet, but for those that lie nowhere and have no key. -/
theorem framePa_apart {x a b : Nat} (h : a ≠ b) :
    framePa x a + 65536 ≤ framePa x b ∨ framePa x b + 65536 ≤ framePa x a ∨ framePa x a = 2 ^ 43 ∧ framePa x b = 2 ^ 43 := by
  have hbm : hbmFrames = 786432 := rfl
  by_cases ha : a < hbmFrames
  · by_cases hb : b < hbmFrames
    · rw [framePa_hbm ha, framePa_hbm hb]
      omega
    · cases hp : tablePort x with
      | some p =>
        have := tablePort_lt hp
        rw [framePa_hbm ha, framePa_port hb hp]
        omega
      | none =>
        rw [framePa_hbm ha, framePa_nowhere hb hp]
        omega
  · by_cases hb : b < hbmFrames
    · cases hp : tablePort x with
      | some p =>
        have := tablePort_lt hp
        rw [framePa_port ha hp, framePa_hbm hb]
        omega
      | none =>
        rw [framePa_nowhere ha hp, framePa_hbm hb]
        omega
    · cases hp : tablePort x with
      | some p =>
        rw [framePa_port ha hp, framePa_port hb hp]
        omega
      | none => exact .inr (.inr ⟨framePa_nowhere ha hp, framePa_nowhere hb hp⟩)

/-! ## The end of a migration (R216, R217) -/

theorem exec_migration_ends {s : State} {x a b vpn : Nat} (err : Bool) (bad : List Nat)
    (h : s.migs.find? (fun m => m.table = x ∧ m.src = a) = some ⟨x, a, b, vpn, []⟩) :
    exec (.migration x a b err bad) s = .next (migrationEnd s ⟨x, a, b, vpn, []⟩ err bad) := by
  have step : exec (.migration x a b err bad) s = execMigration x a b err bad s := rfl
  rw [step, execMigration, h]
  exact congrArg _ (if_pos ⟨rfl, rfl⟩)

theorem unsealFrame_ipts (s : State) (t f : Nat) : (unsealFrame s t f).ipts = s.ipts :=
  (congrArg State.ipts (unsealSame_unsealFrame s t f).frame :)

/-- The entries of a page that has moved. -/
theorem relink_entries {s : State} {x a b : Nat} (apart : a ≠ b) (hx : x < s.ipts.length) :
    iptEntry (relink s x a b) x a = {}
      ∧ iptEntry (relink s x a b) x b = { vpn := (iptEntry s x a).vpn, part := (iptEntry s x a).part, v := true, sa := (iptEntry s x a).sa,
                                          next := (iptEntry s x a).next } := by
  unfold relink
  extract_lets e u to_ v w
  have hv : x < v.ipts.length := by
    rw [show v.ipts = u.ipts.modify x _ from rfl, List.length_modify, unsealFrame_ipts]
    exact hx
  have hw : x < w.ipts.length := by
    rw [show w.ipts = v.ipts.modify x _ from rfl, List.length_modify]
    exact hv
  refine ⟨iptEntry_setIptEntry_same a {} hw, ?_⟩
  rw [iptEntry_setIptEntry_other {} hw fun h => apart (Prod.mk.inj h).2.symm]
  exact iptEntry_setIptEntry_same b _ hv

theorem setIptEntry_mem (s : State) (t f : Nat) (e : IptEntry) : (setIptEntry s t f e).mem = s.mem := rfl

theorem readByte_relink (s : State) (x a b k : Nat) : readByte (relink s x a b) k = readByte (unsealFrame s x a) k := by
  have mem : (relink s x a b).mem = (unsealFrame s x a).mem := by
    unfold relink
    extract_lets e u to_ v w
    rw [setIptEntry_mem, setIptEntry_mem]
  rw [readByte, readByte, mem]

/-- The bytes of a page that has moved: those of the source stand in the destination; without a key nothing else changes. -/
theorem readByte_moved {s : State} {x a b : Nat} (apart : a ≠ b) (wf : Memory.wf s.mem) :
    let t := relink (copyFrame s (framePa x a) (framePa x b)) x a b
    (∀ j, j < 65536 → readByte t (framePa x b + j) = readByte s (framePa x a + j))
      ∧ (∀ y, ¬ (framePa x b ≤ y ∧ y < framePa x b + 65536) → keyOf s (framePa x a) = none → readByte t y = readByte s y) := by
  have same_key : keyOf (copyFrame s (framePa x a) (framePa x b)) (framePa x a) = keyOf s (framePa x a) :=
    keyOf_congr (copyFrame_parts ..) (copyFrame_ipts ..) _
  have wfCopy := wf_copyFrame (framePa x a) (framePa x b) wf
  have copied := readByte_copyFrame s (framePa x a) (framePa x b)
  dsimp only
  generalize copyFrame s (framePa x a) (framePa x b) = u at same_key wfCopy copied ⊢
  refine ⟨fun j hj => ?_, fun y out plain => ?_⟩
  · have here : readByte u (framePa x b + j) = readByte s (framePa x a + j) := by
      rw [copied, if_pos ⟨Nat.le_add_right .., by omega⟩, Nat.add_sub_cancel_left, Nat.add_comm]
    rw [readByte_relink, ← here]
    by_cases plain : keyOf s (framePa x a) = none
    · rw [unsealFrame_keyless (same_key.trans plain)]
    · refine readByte_unsealFrame wfCopy fun inside => ?_
      rcases framePa_apart (x := x) apart with far | far | ⟨nowhere, -⟩
      · omega
      · omega
      · exact plain (by rw [nowhere]; exact keyOf_nowhere s)
  · rw [readByte_relink, unsealFrame_keyless (same_key.trans plain), copied, if_neg out]

/-- A sector of a frame at `a` that an error has found bad: media poison, with its entry in the black box. -/
def markBad (a : Nat) (s : State) (j : Nat) : State :=
  if (poisonAt s (.phys (a / 64 + j % 1024))).isSome then s
  else recordUnit (setPoison s (.phys (a / 64 + j % 1024)) false) 0x015 (.phys (a / 64 + j % 1024))

theorem markBad_frame (a : Nat) (s : State) (j : Nat) : (markBad a s j).mem = s.mem ∧ (markBad a s j).ipts = s.ipts := by
  unfold markBad
  split <;> exact ⟨rfl, rfl⟩

theorem markBad_poison (a : Nat) (s : State) (j : Nat) :
    (poisonAt (markBad a s j) (.phys (a / 64 + j % 1024))).isSome = true
      ∧ ∀ u, (poisonAt s u).isSome = true → (poisonAt (markBad a s j) u).isSome = true := by
  unfold markBad
  split
  case isTrue h => exact ⟨h, fun _ hu => hu⟩
  case isFalse h =>
    have marked (u : PUnit) : poisonAt (recordUnit (setPoison s (.phys (a / 64 + j % 1024)) false) 0x015 (.phys (a / 64 + j % 1024))) u
        = poisonAt (setPoison s (.phys (a / 64 + j % 1024)) false) u := rfl
    refine ⟨?_, fun u hu => ?_⟩
    · rw [marked, poisonAt_set, if_pos rfl]
      rfl
    · rw [marked, poisonAt_set]
      split
      · rfl
      · exact hu

/-- Every sector that is found bad is poisoned, and memory and tables stay. -/
theorem markBad_all (a : Nat) (bad : List Nat) (s : State) :
    (bad.foldl (markBad a) s).mem = s.mem ∧ (bad.foldl (markBad a) s).ipts = s.ipts
      ∧ (∀ u, (poisonAt s u).isSome = true → (poisonAt (bad.foldl (markBad a) s) u).isSome = true)
      ∧ ∀ j ∈ bad, (poisonAt (bad.foldl (markBad a) s) (.phys (a / 64 + j % 1024))).isSome = true := by
  induction bad generalizing s with
  | nil => exact ⟨rfl, rfl, fun _ h => h, fun _ h => absurd h List.not_mem_nil⟩
  | cons i bad ih =>
    obtain ⟨mem, ipts, kept, marked⟩ := ih (markBad a s i)
    obtain ⟨mem', ipts'⟩ := markBad_frame a s i
    obtain ⟨here, still⟩ := markBad_poison a s i
    refine ⟨mem.trans mem', ipts.trans ipts', fun u hu => kept u (still u hu), fun j hj => ?_⟩
    rcases List.mem_cons.1 hj with rfl | hj
    · exact kept _ here
    · exact marked j hj

/-- What the end of a migration comes to, for a page that is mapped and marked. -/
theorem migrationEnd_eq {s : State} (m : Mig) (err : Bool) (bad : List Nat) (v : (iptEntry s m.table m.src).v = true)
    (mig : (iptEntry s m.table m.src).mig = true) :
    let e := iptEntry s m.table m.src
    let t := { s with migs := s.migs.erase m }
    let back := setIptEntry t m.table m.src { e with mig := false }
    migrationEnd s m err bad = if e.shd = true ∨ e.shadow ≠ 0xFFFFFFFF then back
      else if err = true then bad.foldl (markBad (framePa m.table m.src)) back
      else relink (copyFrame t (framePa m.table m.src) (framePa m.table m.dst)) m.table m.src m.dst := by
  have mapped : (!(iptEntry s m.table m.src).v || !(iptEntry s m.table m.src).mig) = false := by rw [v, mig]; rfl
  intro e t back
  have shadowed : (e.shd || decide (e.shadow ≠ 0xFFFFFFFF)) = true ↔ e.shd = true ∨ e.shadow ≠ 0xFFFFFFFF := by
    rw [Bool.or_eq_true, decide_eq_true_iff]
  exact (if_neg fun h => Bool.false_ne_true (mapped.symm.trans h)).trans (if_congr shadowed rfl rfl)

theorem migrationEnd_clause (x a b vpn : Nat) (err : Bool) (bad : List Nat) (s : State)
    (h : s.migs.find? (fun m => m.table = x ∧ m.src = a) = some ⟨x, a, b, vpn, []⟩) :
    let e := iptEntry s x a
    e.v = true → e.mig = true → a ≠ b → x < s.ipts.length → Memory.wf s.mem →
      (e.shd = true ∨ e.shadow ≠ 0xFFFFFFFF → ∃ t, exec (.migration x a b err bad) s = .next t
        ∧ iptEntry t x a = { e with mig := false } ∧ (∀ y f, (y, f) ≠ (x, a) → iptEntry t y f = iptEntry s y f) ∧ t.mem = s.mem)
      ∧ (e.shd = false → e.shadow = 0xFFFFFFFF → err = false → ∃ t, exec (.migration x a b err bad) s = .next t
        ∧ iptEntry t x a = {} ∧ (iptEntry t x b).vpn = e.vpn ∧ (iptEntry t x b).part = e.part ∧ (iptEntry t x b).v = true
        ∧ (iptEntry t x b).sa = e.sa ∧ (iptEntry t x b).mig = false
        ∧ (∀ j, j < 65536 → readByte t (framePa x b + j) = readByte s (framePa x a + j))
        ∧ (∀ y, ¬ (framePa x b ≤ y ∧ y < framePa x b + 65536) → keyOf s (framePa x a) = none → readByte t y = readByte s y))
      ∧ (e.shd = false → e.shadow = 0xFFFFFFFF → err = true → ∃ t, exec (.migration x a b err bad) s = .next t
          ∧ iptEntry t x a = { e with mig := false } ∧ t.mem = s.mem
          ∧ (∀ j ∈ bad, (poisonAt t (.phys (framePa x a / 64 + j % 1024))).isSome = true)) := by
  intro e v mig apart inRange wf
  have ends := migrationEnd_eq (s := s) ⟨x, a, b, vpn, []⟩ err bad v mig
  have step := exec_migration_ends err bad h
  have back : iptEntry (setIptEntry { s with migs := s.migs.erase ⟨x, a, b, vpn, []⟩ } x a { e with mig := false }) x a
      = { e with mig := false } :=
    iptEntry_setIptEntry_same a _ inRange
  refine ⟨fun shadow => ?_, fun shd none_ fine => ?_, fun shd none_ wrong => ?_⟩
  · exact ⟨_, step.trans (congrArg _ (ends.trans (if_pos shadow))), back,
      fun y f other => iptEntry_setIptEntry_other _ inRange other, rfl⟩
  · have plain : ¬ (e.shd = true ∨ e.shadow ≠ 0xFFFFFFFF) := by simp [shd, none_]
    have moves := ends.trans ((if_neg plain).trans (if_neg (by rw [fine]; exact Bool.false_ne_true)))
    have length : x < (copyFrame { s with migs := s.migs.erase ⟨x, a, b, vpn, []⟩ } (framePa x a) (framePa x b)).ipts.length := by
      rw [copyFrame_ipts]
      exact inRange
    have same : iptEntry (copyFrame { s with migs := s.migs.erase ⟨x, a, b, vpn, []⟩ } (framePa x a) (framePa x b)) x a = e := by
      rw [iptEntry, iptOf, copyFrame_ipts]
      rfl
    obtain ⟨gone, taken⟩ := relink_entries apart length
    rw [same] at taken
    obtain ⟨bytes, others⟩ := readByte_moved (s := { s with migs := s.migs.erase ⟨x, a, b, vpn, []⟩ }) (x := x) apart wf
    exact ⟨_, step.trans (congrArg _ moves), gone, by rw [taken], by rw [taken], by rw [taken], by rw [taken], by rw [taken], bytes,
      fun y out plain => others y out plain⟩
  · have plain : ¬ (e.shd = true ∨ e.shadow ≠ 0xFFFFFFFF) := by simp [shd, none_]
    have marks := ends.trans ((if_neg plain).trans (if_pos wrong))
    obtain ⟨mem, ipts, -, marked⟩ := markBad_all (framePa x a) bad
      (setIptEntry { s with migs := s.migs.erase ⟨x, a, b, vpn, []⟩ } x a { e with mig := false })
    refine ⟨_, step.trans (congrArg _ marks), ?_, mem, marked⟩
    rw [iptEntry, iptOf, ipts]
    exact back

/-! ## Merges of statistics records (R316, R317) -/

theorem exec_recordMerge {s : State} {d i c : Nat} {x : Transit}
    (h : s.transit.find? (fun y => y.cls = c && y.part.hdl = d * 4096 + i) = some x) (some_ : 0 < x.part.count ∨ x.part.ovf = true) :
    exec (.recordMerge d i c) s
      = .next (setRec { s with transit := s.transit.erase x } (d * 4096 + i) (mergeRec (getRec s (d * 4096 + i)) x.part)) := by
  have hdl : x.part.hdl = d * 4096 + i := by
    have found := List.find?_some h
    rw [Bool.and_eq_true, decide_eq_true_iff, decide_eq_true_iff] at found
    exact found.2
  have merged : (decide (x.part.count = 0) && !x.part.ovf) = false := by
    rw [Bool.and_eq_false_iff, decide_eq_false_iff_not, Bool.not_eq_false']
    exact some_.imp Nat.pos_iff_ne_zero.1 id
  have step : exec (.recordMerge d i c) s = execRecordMerge d i c s := rfl
  rw [step, execRecordMerge, h]
  refine congrArg _ ((if_neg fun bad => Bool.false_ne_true (merged.symm.trans bad)).trans ?_)
  rw [hdl]
  rfl

theorem getRec_setRec (s : State) (h g : Nat) (r : Record) : getRec (setRec s h r) g = if h = g then r else getRec s g :=
  tget_tset ..

/-- The fields of a record once a partial has merged into it (R316). -/
theorem mergeRec_fields (r : Record) (p : Partial) (hr : r.bins.length = 16) (hp : p.bins.length = 16) :
    (mergeRec r p).amax.toNat = max r.amax.toNat p.amax.toNat
      ∧ ∀ j, j < 16 → (mergeRec r p).bins.getD j 0 = min (r.bins.getD j 0 + p.bins.getD j 0) (2 ^ 24 - 1) := by
  refine ⟨?_, fun j hj => ?_⟩
  · show (if p.amax.toNat ≤ r.amax.toNat then r.amax else p.amax).toNat = _
    split <;> omega
  · simp [mergeRec, List.getD_eq_getElem?_getD, hr, hp, hj]

theorem mergePartial_recs (s : State) (p : Partial) : { mergePartial s p with recs := [] } = { s with recs := [] } := by
  unfold mergePartial
  split <;> rfl

theorem foldl_mergePartial_recs (l : List Partial) (s : State) : { l.foldl mergePartial s with recs := [] } = { s with recs := [] } := by
  induction l generalizing s with
  | nil => rfl
  | cons p l ih => exact (ih _).trans (mergePartial_recs s p)

theorem landTransit_transit (s : State) (c : Nat) : (landTransit s c).transit = s.transit.filter fun t => t.cls ≠ c :=
  (congrArg State.transit (foldl_mergePartial_recs ((s.transit.filter fun t => t.cls = c).map (·.part))
    { s with transit := s.transit.filter fun t => t.cls ≠ c }) :)

theorem landTransit_cls (s : State) (c : Nat) : (landTransit s c).cls = s.cls :=
  (congrArg State.cls (foldl_mergePartial_recs ((s.transit.filter fun t => t.cls = c).map (·.part))
    { s with transit := s.transit.filter fun t => t.cls ≠ c }) :)

/-- What a boundary sends on its way are partials of the class (R260). -/
theorem mem_transit_mergePartials {s : State} {c : Nat} {die : Option Nat} {x : Transit} (h : x ∈ (mergePartials s c die).transit) :
    x ∈ s.transit ∨ x.cls = c ∧ x.part ∈ (getCls s c).partials := by
  unfold mergePartials at h
  extract_lets ps now u at' v at h
  have stayed : u.transit = s.transit := (congrArg State.transit (foldl_mergePartial_recs (ps.filter now) s) :)
  rcases List.mem_append.1 h with h | h
  · exact .inl (stayed ▸ h)
  · obtain ⟨p, hp, rfl⟩ := List.mem_map.1 h
    exact .inr ⟨rfl, (List.mem_filter.1 (List.mem_filter.1 hp).1).1⟩

/-- A release's own merges, if it has any, find what the class sent before at its home (R317). -/
theorem doRelease_transit (s : State) (c sc : Nat) (upto : Option WordId) (die : Option Nat) :
    (doRelease s c sc upto die).transit
      = (if 1 ≤ sc then mergePartials (landTransit s c) c die else landTransit s c).transit := by
  unfold doRelease
  extract_lets u v
  split
  · split <;> rfl
  · rfl

theorem doRelease_clause (s : State) (c sc : Nat) (upto : Option WordId) (die : Option Nat) :
    ∀ x ∈ (doRelease s c sc upto die).transit, x.cls = c → x.part ∈ (getCls s c).partials := by
  intro x hx mine
  have landed : x ∉ (landTransit s c).transit := by
    rw [landTransit_transit, List.mem_filter]
    exact fun h => of_decide_eq_true h.2 mine
  have partials : (getCls (landTransit s c) c).partials = (getCls s c).partials := by rw [getCls, landTransit_cls]; rfl
  rw [doRelease_transit] at hx
  split at hx
  · rcases mem_transit_mergePartials hx with h | ⟨-, h⟩
    · exact absurd h landed
    · exact partials ▸ h
  · exact absurd hx landed

/-- Settles O50, clause by clause: a walk by its result, a shoot-down by the words in flight, the two ends of a migration, a merge. -/
theorem walksShootdownsAndMerges : Obligations.WalksShootdownsAndMerges := by
  refine ⟨fun c s w g hc hw hg => ?_, fun c v s hc pending => ?_, shootdownAck_clause, migrationStart_clause, migrationEnd_clause,
    fun d i c s x found some_ hp hr => ?_, fun s c sc upto die => doRelease_clause s c sc upto die⟩
  · refine ⟨fun f h => exec_pageWalk_frame hw hg h, fun f h => exec_pageWalk_wait hw hg h,
      fun x h => ⟨_, exec_pageWalk_halt hw hg h, ?_⟩⟩
    exact haltA_clause _ _ _ _ _ hc
  · have here := getCls_modCls s c (fun k => { k with tcache := k.tcache.filter fun e => e.1 % 2 ^ 40 != v.toNat
                                                      shootAcks := v.toNat :: k.shootAcks.filter (· != v.toNat) }) hc
    refine ⟨_, exec_shootdownReceipt pending, ?_⟩
    rw [here]
    exact ⟨fun e he => bne_iff_ne.1 (List.mem_filter.1 he).2, List.mem_cons_self,
      fun e he other => List.mem_filter.2 ⟨he, bne_iff_ne.2 other⟩, rfl⟩
  · obtain ⟨amax, bins⟩ := mergeRec_fields (getRec s (d * 4096 + i)) x.part hr hp
    have here (u : State) (r : Record) : getRec (setRec u (d * 4096 + i) r) (d * 4096 + i) = r := (getRec_setRec ..).trans (if_pos rfl)
    refine ⟨_, exec_recordMerge found some_, rfl, ?_⟩
    rw [here]
    exact ⟨amax, bins, rfl, rfl, rfl, fun h other => (getRec_setRec ..).trans (if_neg (Ne.symm other)), rfl⟩

end Sys2Proof.Machine
end

section
/-!
PROOFS for O35: record reads, the layout of a record, the atomics (R232 to R234, R309 to R312, R318, R453 to R455).
-/

namespace Sys2Proof.Machine

/-! ## Record reads (R318, R455) -/

theorem setS_toNat (s : State) (c : Nat) (n : BitVec 5) (v : W64) : setS s c n.toNat v = withS s c n v := by
  simp only [withS, setS, BitVec.toNat_eq]
  rfl

/-- The words that read a record and the change that each makes (R318). -/
structure RecordRead (mk : Hdr → FSR → Instr) (change : Record → W64 → Record) : Prop where
  word : ∀ h f s, exec (mk h f) s = srRead (mk h f) f change s
  queue : ∀ h f, queueOf (mk h f) = some 2
  performed : ∀ s c (f : InFlight) h g, f.instr = mk h g → counterRequest s c f = srPerform s c f g change
  noWait : ∀ h f x g, mk h f ≠ .bwait x g

/-- The state that the answer of a record read leaves before the word completes. -/
theorem srPerform_thawed {s : State} {c : Nat} {f : InFlight} (g : FSR) (change : Record → W64 → Record) (thawed : Thawed s c)
    (noWait : ∀ x g, f.instr ≠ .bwait x g) :
    let r := getRec s (op0 f 0)
    srPerform s c f g change = complete ((List.range 8).foldl
      (fun t j => withS t c (g.d + BitVec.ofNat 5 j) (BitVec.ofNat 64 (recNat r / 2 ^ (64 * j))))
      { s with recs := tset {} s.recs (op0 f 0) (change r (f.ops.getD 1 0)) }) c f := by
  intro r
  have still : Thawed (srAnswer s f g change).1 c := thawed
  have registers (t : State) (j : Nat) : setS t c (g.d + BitVec.ofNat 5 j).toNat (BitVec.ofNat 64 (recNat r / 2 ^ (64 * j)))
      = withS t c (g.d + BitVec.ofNat 5 j) (BitVec.ofNat 64 (recNat r / 2 ^ (64 * j))) := setS_toNat ..
  rw [srPerform, land_of_thawed f _ still, landed, endRegion_of_ne noWait]
  unfold srAnswer
  dsimp only
  rw [List.foldl_map]
  simp only [r] at registers
  simp only [registers]
  rfl

theorem recordReadRule {mk : Hdr → FSR → Instr} {change : Record → W64 → Record} (W : RecordRead mk change) :
    RecordReadRule mk change := by
  have word (h : Hdr) (f : FSR) : ∃ body, (∀ s, exec (mk h f) s = runWord (mk h f) body s) ∧ ∀ s c, s.focus = .cls c .s →
      (recInRange s (partOf s c) (regS s c f.a).toNat = true → body s = .async s [regS s c f.a, regS s c f.b] [])
      ∧ (recInRange s (partOf s c) (regS s c f.a).toNat = false → body s = .trap 0x02 (regS s c f.a)) := by
    refine ⟨_, fun s => W.word h f s, fun s c hf => ?_⟩
    have checked : recOk s (regS s c f.a).toNat = recInRange s (partOf s c) (regS s c f.a).toNat := by rw [recOk, hf]
    dsimp only
    rw [sget_cls hf, sget_cls hf, checked, hf]
    exact ⟨fun good => by rw [good]; rfl, fun bad => by rw [bad]; rfl⟩
  refine ⟨fun h f s c R good => ?_, fun h f s c R outside bad => ?_, fun s c id f h g R hi thawed => ?_⟩
  · obtain ⟨body, runs, comes⟩ := word h f
    exact runWord_async R ((comes s c R.focus).1 good) R.inRange runs
  · obtain ⟨body, runs, comes⟩ := word h f
    exact (runs s).trans (runWord_trap_outside R outside ((comes s c R.focus).2 bad))
  · have step := exec_counterRequest R (hi ▸ W.queue h g)
    rw [W.performed s c f h g hi, srPerform_thawed g change thawed fun x y => hi ▸ W.noWait h g x y] at step
    exact ⟨_, step, fun x => (getRec_setRec s _ x _).trans (if_congr eq_comm rfl rfl)⟩

theorem recordRead_srread : RecordRead .srread fun r _ => r :=
  ⟨fun _ _ _ => rfl, fun _ _ => rfl, fun s c f h g hi => by rw [counterRequest, hi]; rfl, fun _ _ _ _ => nofun⟩

theorem recordRead_srreadPol :
    RecordRead .srreadPol fun r v => { r with policy := v.setWidth 32 &&& 0xFCFFF000, gen := genAfter r.gen } :=
  ⟨fun _ _ _ => rfl, fun _ _ => rfl, fun s c f h g hi => by rw [counterRequest, hi]; rfl, fun _ _ _ _ => nofun⟩

theorem recordRead_srreadClr :
    RecordRead .srreadClr fun r v => { amax := 0, bins := List.replicate 16 0, count := 0
                                       policy := v.setWidth 32 &&& 0xFCFFF000, gen := genAfter r.gen } :=
  ⟨fun _ _ _ => rfl, fun _ _ => rfl, fun s c f h g hi => by rw [counterRequest, hi]; rfl, fun _ _ _ _ => nofun⟩

/-! ## The 64 bytes of a record (R309) -/

/-- The 16 bins as one number, of 24 bits each, the first the least. -/
def binsNat : List Nat → Nat
  | [] => 0
  | b :: bs => b + 2 ^ 24 * binsNat bs

theorem foldl_bins (bs : List Nat) (a k : Nat) :
    (bs.zipIdx k).foldl (fun a e => a + e.1 * 2 ^ (32 + 24 * e.2)) a = a + binsNat bs * 2 ^ (32 + 24 * k) := by
  induction bs generalizing a k with
  | nil => simp [binsNat]
  | cons b bs ih =>
    rw [List.zipIdx_cons, List.foldl_cons, ih, binsNat, show 32 + 24 * (k + 1) = 24 + (32 + 24 * k) by omega, Nat.pow_add]
    ring

theorem binsNat_lt {bs : List Nat} (h : ∀ b ∈ bs, b < 2 ^ 24) : binsNat bs < 2 ^ (24 * bs.length) := by
  induction bs with
  | nil => exact Nat.one_pos
  | cons b bs ih =>
    have here := h b List.mem_cons_self
    have rest := ih fun x hx => h x (List.mem_cons_of_mem _ hx)
    rw [binsNat, List.length_cons, Nat.mul_succ, Nat.pow_add]
    omega

/-- A bin stands at its 24 bits. -/
theorem binsNat_div (bs : List Nat) (h : ∀ b ∈ bs, b < 2 ^ 24) (j : Nat) : binsNat bs / 2 ^ (24 * j) % 2 ^ 24 = bs.getD j 0 := by
  induction bs generalizing j with
  | nil => simp [binsNat]
  | cons b bs ih =>
    have here := h b List.mem_cons_self
    cases j with
    | zero => rw [Nat.mul_zero, Nat.pow_zero, Nat.div_one, binsNat, Nat.add_mul_mod_self_left, Nat.mod_eq_of_lt here, List.getD_cons_zero]
    | succ j =>
      have shifted : (b + 2 ^ 24 * binsNat bs) / 2 ^ 24 = binsNat bs := by omega
      rw [binsNat, Nat.mul_succ, Nat.add_comm (24 * j), Nat.pow_add, ← Nat.div_div_eq_div_mul, shifted,
        ih (fun x hx => h x (List.mem_cons_of_mem _ hx)), List.getD_cons_succ]

/-- A record's fields above AMAX and the bins. -/
def recTail (r : Record) : Nat := r.count + 2 ^ 32 * (r.gen + 2 ^ 32 * r.policy.toNat)

theorem recNat_eq (r : Record) : recNat r = r.amax.toNat + 2 ^ 32 * (binsNat r.bins + 2 ^ 384 * recTail r) := by
  have field (n : Nat) : 2 ^ (32 + n) = 2 ^ 32 * 2 ^ n := Nat.pow_add 2 32 n
  rw [recNat, foldl_bins, recTail, show 480 = 32 + (32 + (32 + 384)) from rfl, show 448 = 32 + (32 + 384) from rfl,
    show 416 = 32 + 384 from rfl]
  simp only [field]
  generalize (2 : Nat) ^ 384 = high
  ring

/-- What stands above the bins does not reach into them. -/
theorem bins_under_tail (b x : Nat) {j : Nat} (hj : j < 16) :
    (b + 2 ^ 384 * x) / 2 ^ (24 * j) % 2 ^ 24 = b / 2 ^ (24 * j) % 2 ^ 24 := by
  have split_ : 2 ^ 384 * x = 2 ^ (24 * j) * (2 ^ 24 * (2 ^ (360 - 24 * j) * x)) := by
    rw [← Nat.mul_assoc, ← Nat.mul_assoc, ← Nat.pow_add, ← Nat.pow_add]
    congr 2
    omega
  rw [split_, Nat.add_mul_div_left _ _ (Nat.two_pow_pos _), Nat.add_mul_mod_self_left]

/-- A number that stands above a lower one. -/
theorem number_above {n b h x : Nat} (low : b < h) (above : n / 2 ^ 32 = b + h * x) : n / (2 ^ 32 * h) = x := by
  rw [← Nat.div_div_eq_div_mul, above, Nat.add_mul_div_left _ _ (Nat.zero_lt_of_lt low), Nat.div_eq_of_lt low, Nat.zero_add]

/-- The layout of a record: AMAX, 16 bins, COUNT, GEN, POLICY. -/
theorem recNat_layout (r : Record) (len : r.bins.length = 16) (bins : ∀ b ∈ r.bins, b < 2 ^ 24) (count : r.count < 2 ^ 32)
    (gen : r.gen < 2 ^ 32) :
    recNat r % 2 ^ 32 = r.amax.toNat
      ∧ (∀ j, j < 16 → recNat r / 2 ^ (32 + 24 * j) % 2 ^ 24 = r.bins.getD j 0)
      ∧ recNat r / 2 ^ 416 % 2 ^ 32 = r.count ∧ recNat r / 2 ^ 448 % 2 ^ 32 = r.gen
      ∧ recNat r / 2 ^ 480 = r.policy.toNat := by
  have amax := r.amax.isLt
  have low := binsNat_lt bins
  rw [len, show 24 * 16 = 384 from rfl] at low
  have above : recNat r / 2 ^ 32 = binsNat r.bins + 2 ^ 384 * recTail r := by
    rw [recNat_eq]
    omega
  have tail : recNat r / 2 ^ 416 = recTail r := by
    rw [show 416 = 32 + 384 from rfl, Nat.pow_add 2 32 384]
    exact number_above low above
  have genAt : recNat r / 2 ^ 448 = r.gen + 2 ^ 32 * r.policy.toNat := by
    rw [show 448 = 416 + 32 from rfl, Nat.pow_add, ← Nat.div_div_eq_div_mul, tail, recTail]
    omega
  refine ⟨?_, fun j hj => ?_, ?_, ?_, ?_⟩
  · rw [recNat_eq, Nat.add_mul_mod_self_left, Nat.mod_eq_of_lt amax]
  · rw [Nat.pow_add, ← Nat.div_div_eq_div_mul, above, bins_under_tail _ _ hj, binsNat_div _ bins]
  · rw [tail, recTail, Nat.add_mul_mod_self_left, Nat.mod_eq_of_lt count]
  · rw [genAt, Nat.add_mul_mod_self_left, Nat.mod_eq_of_lt gen]
  · rw [show 480 = 448 + 32 from rfl, Nat.pow_add, ← Nat.div_div_eq_div_mul, genAt]
    omega

/-! ## The atomics: issue (R453) -/

/-- An atomic and the function that makes its new value (R453). -/
structure Atomic (mk : Hdr → FAO → Instr) (new : Nat → Nat → Nat → Nat → Nat) : Prop where
  word : ∀ h f s, exec (mk h f) s = amoWord (mk h f) f s
  queue : ∀ h f, queueOf (mk h f) = some 0
  fields : ∀ h f, amoFields (mk h f) = some f
  value : ∀ h f b o v w, amoNew (mk h f) b o v w = some (new b o v w)
  fits : ∀ b o v w, o < 2 ^ (8 * b) → v < 2 ^ (8 * b) → new b o v w < 2 ^ (8 * b)

theorem amoBytes_eq (f : FAO) : amoBytes f = opBytes f := rfl

/-- A device address is below host memory. -/
theorem amoCheck_device {s : State} {c va : Nat} {ms : List Move}
    (device : ∀ m ∈ ms, ∀ a pa, m.dst = .mem a → placeOf s c [] a = .pa pa → pa < 2 ^ 51) : amoCheck s c va ms = none := by
  refine if_neg fun hit => ?_
  obtain ⟨m, hm, host⟩ := List.any_eq_true.1 hit
  cases hd : m.dst with
  | mem a =>
    simp only [hd, inHost] at host
    cases hp : placeOf s c [] a with
    | pa pa =>
      simp only [hp, decide_eq_true_iff] at host
      exact absurd (device m hm a pa hd hp) (Nat.not_lt.2 host)
    | _ => simp [hp] at host
  | _ => simp [hd] at host

/-- The body of an atomic, by alignment and room in QS. -/
theorem atomic_body {mk : Hdr → FAO → Instr} {new : Nat → Nat → Nat → Nat → Nat} (A : Atomic mk new) (h : Hdr) (f : FAO) :
    ∃ body, (∀ s, exec (mk h f) s = runWord (mk h f) body s) ∧ ∀ s c, s.focus = .cls c .a →
      ((regA s c f.ad).toNat % opBytes f ≠ 0 → body s = .trap 0x02 (regA s c f.ad))
      ∧ ((regA s c f.ad).toNat % opBytes f = 0 → f.ret = true → roomQ (getCls s c) false = false → body s = .stall)
      ∧ ((regA s c f.ad).toNat % opBytes f = 0 → (f.ret = true → roomQ (getCls s c) false = true) →
        body s = accessBody (mk h f) s c { legs := [⟨.none, .glob (regA s c f.ad).toNat, opBytes f⟩], al := ⟨false, false⟩, kdst := 2 }
          (amoCheck s c (regA s c f.ad).toNat) [regS s c f.sv, regS s c f.sw]) := by
  refine ⟨_, fun s => A.word h f s, fun s c hf => ?_⟩
  dsimp only
  rw [clsOnly_cls hf, focusCls_cls hf, aget_cls hf, sget_cls hf, sget_cls hf, amoBytes_eq]
  refine ⟨fun odd => ?_, fun even ret full => ?_, fun even room => ?_⟩
  · rw [if_pos odd, BitVec.ofNat_toNat, BitVec.setWidth_eq]
  · rw [if_neg (not_not.2 even), ret, full]
    rfl
  · rw [if_neg (not_not.2 even)]
    refine if_neg fun full => ?_
    rw [Bool.and_eq_true, Bool.not_eq_true'] at full
    exact Bool.false_ne_true (full.2.symm.trans (room full.1))

/-- The first batch changes memory alone, and what a write to it makes stale (R211, R228). -/
theorem dataOnly_firstBatch (s : State) (c : Nat) (segs : List Seg) (kdst : Nat) (ms : List Move) :
    DataOnly s (firstBatch s c segs kdst ms).s := by
  have pages {b : Batch} (h : DataOnly s b.s) (f : Nat → Option Page) (l : List Nat) :
      DataOnly s (l.foldl (fun b a => addPage b (f a)) b).s :=
    List.foldlRecOn (motive := fun b : Batch => DataOnly s b.s) l _ h fun b hb a _ => by rwa [addPage_s]
  have cow {b : Batch} (h : DataOnly s b.s) (e : End) : DataOnly s (batchCow c segs kdst b e).s := by
    unfold batchCow
    split
    · split
      · exact h
      · split
        next copied =>
          split
          · exact h.trans (dataOnly_copyOnWrite copied)
          · exact h
        next =>
          split
          · exact h
          · exact h
    · exact h
  refine List.foldlRecOn (motive := fun b : Batch => DataOnly s b.s) ms _ (.refl s) fun b hb m _ => ?_
  unfold addMove
  split
  · exact hb
  · refine List.foldlRecOn (motive := fun b : Batch => DataOnly s b.s) _ _ hb fun b hb o _ => pages ?_ ..
    split
    · exact cow (pages hb ..) _
    · exact pages hb ..

theorem atomic_issues {mk : Hdr → FAO → Instr} {new : Nat → Nat → Nat → Nat → Nat} (A : Atomic mk new) {h : Hdr} {f : FAO}
    {s s1 : State} {c : Nat} {ms : List Move} (R : Ready (mk h f) s c .a) (even : (regA s c f.ad).toNat % opBytes f = 0)
    (room : f.ret = true → roomQ (getCls s c) false = true)
    (P : Presented s c ⟨false, false⟩ 2 [⟨.none, .glob (regA s c f.ad).toNat, opBytes f⟩] s1 ms)
    (device : ∀ m ∈ ms, ∀ a pa, m.dst = .mem a → placeOf s c [] a = .pa pa → pa < 2 ^ 51) :
    IssuesWith (mk h f) s c .a (noted s s1 c 2 ms)
      (keptOps [⟨.none, .glob (regA s c f.ad).toNat, opBytes f⟩] [regS s c f.sv, regS s c f.sw]) ms := by
  obtain ⟨sound, resolved, ordered, copied, translated, rfl⟩ := P
  obtain ⟨body, runs, comes⟩ := atomic_body A h f
  obtain ⟨ms', same, -, issues⟩ := accessBody_issues (i := mk h f)
    (r := { legs := [⟨.none, .glob (regA s c f.ad).toNat, opBytes f⟩], al := ⟨false, false⟩, kdst := 2 })
    (ops := [regS s c f.sv, regS s c f.sw]) sound resolved (amoCheck_device (va := (regA s c f.ad).toNat) device) ordered copied translated
  obtain rfl := same rfl
  refine runWord_async R (((comes s c R.focus).2.2 even room).trans issues) ?_ runs
  show c < (modCls _ c _).cls.length
  rw [length_modCls, (dataOnly_firstBatch ..).length]
  exact R.inRange

/-! ## The atomics: completion (R232 to R234, R454) -/

/-- An issued atomic that can be performed reaches its engine, unless an older word still has to push into QS. -/
theorem exec_atomic {s : State} {c id : Nat} {f : InFlight} {g : FAO} (P : Performable s c id f) (queue : queueOf f.instr = some 0)
    (fields : amoFields f.instr = some g) (turn : g.ret = true → pushTurn (getCls s c) f false = true) :
    exec (.wordCompletion c id) s = .next (amoComplete s c f g) := by
  obtain ⟨stands, isReady, issued, clean⟩ := P
  have may : (!g.ret || pushTurn (getCls s c) f false) = true := by
    cases hr : g.ret
    · rfl
    · rw [turn hr]
      rfl
  have other {i : Instr} (hi : f.instr = i) (none_ : amoFields i = none) : False := by
    rw [hi, none_] at fields
    cases fields
  have performed : completeA s c f = amoComplete s c f g := by
    unfold completeA
    rw [issued, isReady, clean, if_neg (by decide), if_neg (by decide)]
    dsimp only
    split
    iterate 7 exact (other ‹_› rfl).elim
    · rw [fields]
      exact if_pos may
  have step : exec (.wordCompletion c id) s = execWordCompletion c id s := rfl
  rw [step, execWordCompletion, stands]
  dsimp only
  split
  iterate 3 exact (other ‹_› rfl).elim
  · rw [if_pos queue, performed]

/-- The addresses that sectors are kept under are all that a note of them changes (R230). -/
theorem noteSpan_frame (s : State) (a va n : Nat) : { noteSpan s a va n with tweaks := [] } = { s with tweaks := [] } := by
  unfold noteSpan
  split
  · rfl
  · refine List.foldlRecOn (motive := fun t : State => { t with tweaks := [] } = { s with tweaks := [] }) _ _ rfl fun t ht j _ => ?_
    unfold noteVa
    split <;> exact ht

/-- What the engine's write of a value comes to (R232, R233). -/
theorem amoCommit_effect {s : State} (f : InFlight) (g : FAO) (pa va o : Nat) (wf : Memory.wf s.mem) :
    MemSealed s (amoCommit s f g pa va o) ∧ readNat (amoCommit s f g pa va o) pa (opBytes g) = amoStore f g o % 2 ^ (8 * opBytes g)
      ∧ ∀ a, ¬ (pa ≤ a ∧ a < pa + opBytes g) → readByte (amoCommit s f g pa va o) a = readByte s a := by
  have frame := noteSpan_frame s pa va (amoBytes g)
  have mem : (noteSpan s pa va (amoBytes g)).mem = s.mem := (congrArg State.mem frame :)
  have wfNoted : Memory.wf (noteSpan s pa va (amoBytes g)).mem := mem ▸ wf
  refine ⟨?_, ?_, fun a out => ?_⟩
  · have written := memOnly_writePhys { noteSpan s pa va (amoBytes g) with tweaks := [] } pa (leBytes (amoBytes g) (amoStore f g o))
    rw [frame] at written
    refine Eq.mp (congrArg (MemOnly { s with tweaks := [] }) ?_) written
    rw [← frame]
    rfl
  · have back := readNat_writeNat (s := noteSpan s pa va (amoBytes g)) pa (opBytes g) (amoStore f g o) wfNoted
    rw [Nat.pow_mul]
    exact back
  · have same := readByte_writePhys (s := noteSpan s pa va (amoBytes g)) pa a (leBytes (amoBytes g) (amoStore f g o)) wfNoted
    rw [length_leBytes, amoBytes_eq, if_neg out] at same
    exact same.trans (congrArg (tget 0 · a) mem)

theorem readNat_lt {s : State} (a n : Nat) (wf : Memory.wf s.mem) : readNat s a n < 2 ^ (8 * n) := by
  have bound := leNat_lt (readBytes s a n)
  have length : (readBytes s a n).length = n := by rw [readBytes_eq a n wf, List.length_map, List.length_range]
  rwa [length, ← show 2 ^ 8 = 256 from rfl, ← Nat.pow_mul] at bound

/-- What an atomic stores of the value `o` that it has read. -/
theorem amoStore_eq {mk : Hdr → FAO → Instr} {new : Nat → Nat → Nat → Nat → Nat} (A : Atomic mk new) {f : InFlight} {h : Hdr}
    {g : FAO} (hi : f.instr = mk h g) (o : Nat) :
    amoStore f g o = new (opBytes g) o (op0 f 0 % 2 ^ (8 * opBytes g)) (op0 f 1 % 2 ^ (8 * opBytes g)) := by
  rw [amoStore, hi, A.value]
  rfl

/-- An atomic that has not read yet, by the page of its target (R233, R234). -/
theorem amoComplete_first {s s1 : State} {c va pa : Nat} {f : InFlight} {g : FAO} (prog : f.prog = 0)
    (target : amoTarget s c f = (s1, va, .pa pa)) (sound : poisonUnder s1 (pa / 64) va = none) :
    amoComplete s c f g = if saPage s1 pa then amoPerform s1 c f g pa va else if engineBusy s pa then s else amoRead s1 c f g pa va := by
  unfold amoComplete
  rw [if_neg (by rw [prog]; decide), target]
  dsimp only
  rw [sound]

theorem atomicRule {mk : Hdr → FAO → Instr} {new : Nat → Nat → Nat → Nat → Nat} (A : Atomic mk new) : AtomicRule mk new := by
  refine ⟨fun h f s c s1 ms R even room P device => atomic_issues A R even room P device, fun h f s c R odd => ?_,
    fun h f s c R even ret full => ?_, fun s c id f h g s1 va pa P hi prog target sound wf turn => ?_, fun s c f src va n ms moves => ?_,
    fun s c id f h g P hi prog wf turn => ?_⟩
  · obtain ⟨body, runs, comes⟩ := atomic_body A h f
    exact (runs s).trans (runWord_trap R nofun ((comes s c R.focus).1 odd))
  · obtain ⟨body, runs, comes⟩ := atomic_body A h f
    exact waits_of_stall R (runs s) ((comes s c R.focus).2.1 even ret full)
  · have step := exec_atomic P (hi ▸ A.queue h g) (hi ▸ A.fields h g) turn
    rw [amoComplete_first prog target sound] at step
    refine ⟨fun atomic => ?_, fun plain busy => ?_, fun plain idle => ?_⟩
    · rw [if_pos atomic] at step
      obtain ⟨sealed, back, others⟩ := amoCommit_effect f g pa va (readNat s1 pa (opBytes g)) wf
      refine ⟨_, step, sealed, back.trans ?_, others⟩
      rw [amoStore_eq A hi]
      exact Nat.mod_eq_of_lt (A.fits _ _ _ _ (readNat_lt pa _ wf) (Nat.mod_lt _ (Nat.two_pow_pos _)))
    · rwa [plain, busy] at step
    · rw [plain, idle] at step
      exact findOp_id P.1 ▸ step
  · rw [amoTarget, moves]
  · have step := exec_atomic P (hi ▸ A.queue h g) (hi ▸ A.fields h g) turn
    obtain ⟨sealed, back, others⟩ := amoCommit_effect f g (op0 f 3) (op0 f 4) (op0 f 2) wf
    refine ⟨amoCommit s f g (op0 f 3) (op0 f 4) (op0 f 2), step.trans (congrArg _ (if_pos prog)), sealed, ?_, others⟩
    rw [back, amoStore_eq A hi]

/-! ## The seven atomics (R453) -/

theorem atomic_amoAdd : Atomic .amoAdd fun b o v _ => (o + v) % 2 ^ (8 * b) :=
  ⟨fun _ _ _ => rfl, fun _ _ => rfl, fun _ _ => rfl, fun _ _ _ _ _ _ => rfl, fun _ _ _ _ _ _ => Nat.mod_lt _ (Nat.two_pow_pos _)⟩

theorem atomic_amoMax : Atomic .amoMax fun _ o v _ => if o ≤ v then v else o :=
  ⟨fun _ _ _ => rfl, fun _ _ => rfl, fun _ _ => rfl, fun _ _ _ _ _ _ => congrArg some Nat.max_def,
    fun _ o v _ ho hv => by split <;> assumption⟩

theorem atomic_amoMin : Atomic .amoMin fun _ o v _ => if o ≤ v then o else v :=
  ⟨fun _ _ _ => rfl, fun _ _ => rfl, fun _ _ => rfl, fun _ _ _ _ _ _ => congrArg some Nat.min_def,
    fun _ o v _ ho hv => by split <;> assumption⟩

theorem atomic_amoAnd : Atomic .amoAnd fun _ o v _ => o &&& v :=
  ⟨fun _ _ _ => rfl, fun _ _ => rfl, fun _ _ => rfl, fun _ _ _ _ _ _ => rfl, fun _ _ _ _ ho _ => Nat.lt_of_le_of_lt Nat.and_le_left ho⟩

theorem atomic_amoOr : Atomic .amoOr fun _ o v _ => o ||| v :=
  ⟨fun _ _ _ => rfl, fun _ _ => rfl, fun _ _ => rfl, fun _ _ _ _ _ _ => rfl, fun _ _ _ _ ho hv => Nat.or_lt_two_pow ho hv⟩

theorem atomic_amoXchg : Atomic .amoXchg fun _ _ v _ => v :=
  ⟨fun _ _ _ => rfl, fun _ _ => rfl, fun _ _ => rfl, fun _ _ _ _ _ _ => rfl, fun _ _ _ _ _ hv => hv⟩

theorem atomic_amoCas : Atomic .amoCas fun _ o v w => if o = w then v else o :=
  ⟨fun _ _ _ => rfl, fun _ _ => rfl, fun _ _ => rfl, fun _ _ _ _ _ _ => rfl, fun _ o v w ho hv => by split <;> assumption⟩

/-- Settles O35, word by word: the rule of the record reads by the change of each, that of the atomics by the value of each. -/
theorem recordsAndAtomics : Obligations.RecordsAndAtomics :=
  ⟨recordReadRule recordRead_srread, recordReadRule recordRead_srreadPol, recordReadRule recordRead_srreadClr, recNat_layout,
    atomicRule atomic_amoAdd, atomicRule atomic_amoMax, atomicRule atomic_amoMin, atomicRule atomic_amoAnd, atomicRule atomic_amoOr,
    atomicRule atomic_amoXchg, atomicRule atomic_amoCas⟩

end Sys2Proof.Machine
end

section
/-!
PROOFS for O32: staged writes and who reads them (R218, R236, R243, R244).
-/

namespace Sys2Proof.Machine

/-! ## What a class reads of the bytes staged (R243) -/

/-- The staged bytes of a node once class `c` has written `bs` at `pa`: the new ones stand first, those of its own that they replace
are gone. -/
def stagedAs (c pa va : Nat) (q : Option Bool) (bs : List Byte) (l : List Staged) : List Staged :=
  (bs.zipIdx.map fun e => (⟨c, pa + e.2, va + e.2, e.1, none, q, none, false⟩ : Staged))
    ++ l.filter fun w => !(w.cls == c && w.epoch.isNone && w.word.isNone && decide (pa ≤ w.pa) && decide (w.pa < pa + bs.length))

/-- A staged byte has been published in an epoch up to `r`. -/
def seenAt (w : Staged) (r : Nat) : Bool := match w.epoch with
  | some e => decide (e ≤ r)
  | none => false

/-- The newest of some versions. -/
def newest (vs : List Staged) : Option Staged :=
  vs.foldl (fun (m : Option Staged) w => match m with
    | none => some w
    | some x => if x.epoch.getD 0 < w.epoch.getD 0 then some w else some x) none

theorem stagedByte_eq (s : State) (n : Node) (h : Shadow) (c pa va : Nat) : stagedByte s n h c pa va
    = match n.staged.find? fun w => w.cls = c && w.pa = pa with
      | some w => writtenByte s w va
      | none => match newest (n.staged.filter fun w => w.pa = pa && seenAt w (tget 0 n.recorded c)) with
        | some w => writtenByte s w va
        | none => shadowByte s h pa va := rfl

theorem mem_new_staged {c pa va : Nat} {q : Option Bool} {bs : List Byte} {w : Staged}
    (h : w ∈ bs.zipIdx.map fun e => (⟨c, pa + e.2, va + e.2, e.1, none, q, none, false⟩ : Staged)) : w.cls = c ∧ w.epoch = none := by
  obtain ⟨e, -, rfl⟩ := List.mem_map.1 h
  exact ⟨rfl, rfl⟩

/-- The class that wrote finds its byte first. -/
theorem find_new_staged (c pa va : Nat) (q : Option Bool) (bs : List Byte) : ∀ (k j : Nat) (hj : j < bs.length),
    ((bs.zipIdx k).map fun e => (⟨c, pa + e.2, va + e.2, e.1, none, q, none, false⟩ : Staged)).find?
      (fun w => w.cls = c && w.pa = pa + (k + j)) = some ⟨c, pa + (k + j), va + (k + j), bs[j], none, q, none, false⟩ := by
  induction bs with
  | nil => exact fun _ _ hj => absurd hj (Nat.not_lt_zero _)
  | cons b bs ih =>
    intro k j hj
    rw [List.zipIdx_cons, List.map_cons]
    cases j with
    | zero => rw [List.find?_cons_of_pos (by simp)]; rfl
    | succ j =>
      rw [List.find?_cons_of_neg (by simp), show k + (j + 1) = k + 1 + j by omega]
      exact ih (k + 1) j (Nat.lt_of_succ_lt_succ hj)

theorem find_stagedAs_own {c pa : Nat} (va : Nat) (q : Option Bool) {bs : List Byte} (l : List Staged) {j : Nat} (hj : j < bs.length) :
    (stagedAs c pa va q bs l).find? (fun w => w.cls = c && w.pa = pa + j) = some ⟨c, pa + j, va + j, bs[j], none, q, none, false⟩ := by
  have new := find_new_staged c pa va q bs 0 j hj
  rw [Nat.zero_add] at new
  rw [stagedAs, List.find?_append, new]
  rfl

/-- Another class finds what it found. -/
theorem find_stagedAs_other {c d : Nat} (hd : d ≠ c) (pa va : Nat) (q : Option Bool) (bs : List Byte) (l : List Staged) (a : Nat) :
    (stagedAs c pa va q bs l).find? (fun w => w.cls = d && w.pa = a) = l.find? fun w => w.cls = d && w.pa = a := by
  have none_ : (bs.zipIdx.map fun e => (⟨c, pa + e.2, va + e.2, e.1, none, q, none, false⟩ : Staged)).find?
      (fun w => w.cls = d && w.pa = a) = none := by
    refine List.find?_eq_none.2 fun w hw h => ?_
    rw [Bool.and_eq_true, decide_eq_true_iff] at h
    exact hd (h.1.symm.trans (mem_new_staged hw).1)
  rw [stagedAs, List.find?_append, none_, Option.none_or, List.find?_filter]
  congr 1
  funext w
  by_cases hw : w.cls = d
  · simp [hw, hd]
  · simp [hw]

/-- What has been published of an address stands as it did. -/
theorem versions_stagedAs (c pa va : Nat) (q : Option Bool) (bs : List Byte) (l : List Staged) (a r : Nat) :
    ((stagedAs c pa va q bs l).filter fun w => w.pa = a && seenAt w r)
      = l.filter fun w => w.pa = a && seenAt w r := by
  have none_ : (bs.zipIdx.map fun e => (⟨c, pa + e.2, va + e.2, e.1, none, q, none, false⟩ : Staged)).filter
      (fun w => w.pa = a && seenAt w r) = [] := by
    refine List.filter_eq_nil_iff.2 fun w hw h => ?_
    rw [seenAt, (mem_new_staged hw).2, Bool.and_false] at h
    cases h
  rw [stagedAs, List.filter_append, none_, List.nil_append, List.filter_filter]
  congr 1
  funext w
  cases he : w.epoch <;> simp [seenAt, he]

/-- What a class reads of a byte rests on its own staged writes, the versions of the byte, its recorded epoch, the shadow's byte. -/
theorem stagedByte_congr {s t : State} {n m : Node} {h : Shadow} {c pa : Nat} (va : Nat) (recorded : m.recorded = n.recorded)
    (own : (m.staged.find? fun w => w.cls = c && w.pa = pa) = n.staged.find? fun w => w.cls = c && w.pa = pa)
    (versions : ∀ r, (m.staged.filter fun w => w.pa = pa && seenAt w r)
      = n.staged.filter fun w => w.pa = pa && seenAt w r)
    (shadow : readByte t (shadowPa h pa) = readByte s (shadowPa h pa)) :
    (stagedByte t m h c pa va).1 = (stagedByte s n h c pa va).1 := by
  rw [stagedByte_eq, stagedByte_eq, own, recorded, versions]
  split
  · rfl
  · split
    · rfl
    · exact shadow

/-- With nothing staged of a byte that it may see a class reads the shadow's. -/
theorem stagedByte_shadow {s : State} {n : Node} {h : Shadow} {c pa : Nat} (va : Nat)
    (own : (n.staged.find? fun w => w.cls = c && w.pa = pa) = none)
    (versions : ∀ r, (n.staged.filter fun w => w.pa = pa && seenAt w r) = []) :
    (stagedByte s n h c pa va).1 = readByte s (shadowPa h pa) := by
  rw [stagedByte_eq, own, versions]
  rfl

/-- A shadow that a node has taken last covers its frame, and no other. -/
theorem shadowOf_cons_same {n : Node} {h : Shadow} {l : List Shadow} {pa : Nat} (shadows : n.shadows = h :: l)
    (hit : h.frame = pa / 65536 * 65536) : shadowOf n pa = some h := by
  rw [shadowOf, shadows]
  exact List.find?_cons_of_pos (decide_eq_true hit)

theorem shadowOf_cons_other {n m : Node} {h : Shadow} {pa : Nat} (shadows : m.shadows = h :: n.shadows)
    (miss : h.frame ≠ pa / 65536 * 65536) : shadowOf m pa = shadowOf n pa := by
  rw [shadowOf, shadows]
  exact List.find?_cons_of_neg fun hit => miss (of_decide_eq_true hit)

theorem nodeOn_of_team {s : State} {c : Nat} {t : Team} (h : teamOf s c = some t) : nodeOn s c = some (nodeOf s t.inst t.node) := by
  rw [nodeOn, h]
  rfl

/-- Where no shadow covers an address a class reads device-visible memory. -/
theorem readPa_visible {s : State} {c pa : Nat} {nd : Node} (va n : Nat) (hn : nodeOn s c = some nd) (none_ : shadowOf nd pa = none) :
    (readPa s c pa va n).1 = readBytes s pa n := by
  unfold readPa
  rw [hn]
  dsimp only
  rw [none_]
  split <;> rfl

theorem readPa_uncovered {s : State} {c pa : Nat} {nd : Node} (va n : Nat) (hn : nodeOn s c = some nd) (none_ : frameIdx pa = none) :
    (readPa s c pa va n).1 = readBytes s pa n := by
  unfold readPa
  rw [hn]
  dsimp only
  rw [none_]
  rfl

theorem readPa_shadowed {s : State} {c pa : Nat} {nd : Node} {x : Nat × Nat} {h : Shadow} (va n : Nat) (hn : nodeOn s c = some nd)
    (covered : frameIdx pa = some x) (some_ : shadowOf nd pa = some h) :
    (readPa s c pa va n).1 = (List.range n).map fun j => (stagedByte s nd h c (pa + j) (va + j)).1 := by
  unfold readPa
  rw [hn]
  dsimp only
  rw [covered, some_]
  rfl

/-! ## A staged write (R218, R236, R244) -/

theorem instOf_modNode {s : State} {num node : Nat} {i : Instance} (f : Node → Node) (hi : instOf s num = some i) :
    instOf (modNode s num node f) num = some { i with nodes := i.nodes.modify node f } := by
  have num_i : i.num = num := by simpa using List.find?_some hi
  have same : ((fun i : Instance => decide (i.num = num)) ∘ fun i => if i.num = num then { i with nodes := i.nodes.modify node f } else i)
      = fun i => decide (i.num = num) := by
    funext j
    simp only [Function.comp]
    split <;> rfl
  rw [instOf, modNode, modInst, List.find?_map, same, show s.insts.find? (fun i => decide (i.num = num)) = some i from hi]
  simp [num_i]

/-- A write staged in a frame that has its shadow. -/
theorem stageWrite_again {s u : State} {t : Team} {c pa va : Nat} {bs : List Byte} {i : Instance} (hi : instOf s t.inst = some i)
    (hn : t.node < i.nodes.length) {x : Nat × Nat} (covered : frameIdx pa = some x) {w : Shadow}
    (some_ : shadowOf (nodeOf s t.inst t.node) pa = some w)
    (h : stageWrite s t c pa va bs none = some u) :
    ∃ q, nodeOf u t.inst t.node = { nodeOf s t.inst t.node with staged := stagedAs c pa va q bs (nodeOf s t.inst t.node).staged }
      ∧ u.teams = s.teams ∧ u.mem = s.mem := by
  unfold stageWrite at h
  rw [covered] at h
  dsimp only at h
  rw [some_] at h
  rw [Option.ite_none_left_eq_some] at h
  obtain ⟨-, h⟩ := h
  cases h
  exact ⟨_, nodeOf_modNode _ hi hn, rfl, rfl⟩

/-- The shadow that a first write takes. -/
def takenShadow (s : State) (x : Nat × Nat) (pa : Nat) : Shadow := ⟨pa / 65536 * 65536, x.1, reserveFrame s x.1⟩

theorem takenShadow_frame (s : State) (x : Nat × Nat) (pa : Nat) : (takenShadow s x pa).frame = pa / 65536 * 65536 := rfl

/-- The frame of the reserve that the shadow takes. -/
def takenPa (s : State) (x : Nat × Nat) : Nat := framePa x.1 (reserveFrame s x.1)

theorem modNode_teams (s : State) (num node : Nat) (f : Node → Node) : (modNode s num node f).teams = s.teams := rfl

theorem modNode_mem (s : State) (num node : Nat) (f : Node → Node) : (modNode s num node f).mem = s.mem := rfl

/-- The node knows of one more shadow. -/
def withShadow (h : Shadow) (n : Node) : Node := { n with shadows := h :: n.shadows }

/-- The copy that a new shadow takes is made, and the node knows of it. -/
def shadowTaken (s : State) (t : Team) (x : Nat × Nat) (pa : Nat) : State :=
  modNode (copyFrame s (pa / 65536 * 65536) (takenPa s x)) t.inst t.node (withShadow (takenShadow s x pa))

/-- For the rest a new shadow is two table entries. -/
theorem newShadow_frame (s : State) (t : Team) (x : Nat × Nat) (pa : Nat) :
    { newShadow s t x pa with ipts := [] } = { shadowTaken s t x pa with ipts := [] } := rfl

theorem newShadow_insts (s : State) (t : Team) (x : Nat × Nat) (pa : Nat) : (newShadow s t x pa).insts = (shadowTaken s t x pa).insts :=
  (congrArg State.insts (newShadow_frame s t x pa) :)

theorem newShadow_mem (s : State) (t : Team) (x : Nat × Nat) (pa : Nat) :
    (newShadow s t x pa).mem = (copyFrame s (pa / 65536 * 65536) (takenPa s x)).mem := by
  have same : (newShadow s t x pa).mem = (shadowTaken s t x pa).mem := (congrArg State.mem (newShadow_frame s t x pa) :)
  rw [same, shadowTaken, modNode_mem]

theorem newShadow_teams (s : State) (t : Team) (x : Nat × Nat) (pa : Nat) : (newShadow s t x pa).teams = s.teams := by
  have same : (newShadow s t x pa).teams = (shadowTaken s t x pa).teams := (congrArg State.teams (newShadow_frame s t x pa) :)
  rw [same, shadowTaken, modNode_teams, copyFrame_teams]

/-- A write staged in a frame that has no shadow yet. -/
theorem stageWrite_first {s u : State} {t : Team} {c pa va : Nat} {bs : List Byte} {i : Instance} {x : Nat × Nat}
    (hi : instOf s t.inst = some i) (hn : t.node < i.nodes.length) (covered : frameIdx pa = some x)
    (none_ : shadowOf (nodeOf s t.inst t.node) pa = none) (h : stageWrite s t c pa va bs none = some u) :
    ∃ q, nodeOf u t.inst t.node = { nodeOf s t.inst t.node with
          shadows := takenShadow s x pa :: (nodeOf s t.inst t.node).shadows
          staged := stagedAs c pa va q bs (nodeOf s t.inst t.node).staged }
      ∧ u.teams = s.teams ∧ u.mem = (copyFrame s (pa / 65536 * 65536) (takenPa s x)).mem := by
  have hi' : instOf (copyFrame s (pa / 65536 * 65536) (takenPa s x)) t.inst = some i := by
    rw [instOf, copyFrame_insts]
    exact hi
  have same : nodeOf (copyFrame s (pa / 65536 * 65536) (takenPa s x)) t.inst t.node = nodeOf s t.inst t.node := by
    rw [nodeOf, instOf, copyFrame_insts]
    rfl
  have shadowed : nodeOf (newShadow s t x pa) t.inst t.node
      = withShadow (takenShadow s x pa) (nodeOf s t.inst t.node) := by
    rw [nodeOf, instOf, newShadow_insts]
    exact (nodeOf_modNode (withShadow (takenShadow s x pa)) hi' hn).trans (by rw [same])
  have found : instOf (newShadow s t x pa) t.inst
      = some { i with nodes := i.nodes.modify t.node (withShadow (takenShadow s x pa)) } := by
    rw [instOf, newShadow_insts]
    exact instOf_modNode (withShadow (takenShadow s x pa)) hi'
  have hn' : t.node < (i.nodes.modify t.node (withShadow (takenShadow s x pa))).length := by
    rw [List.length_modify]
    exact hn
  unfold stageWrite at h
  rw [covered] at h
  dsimp only at h
  rw [none_] at h
  rw [Option.ite_none_left_eq_some] at h
  obtain ⟨-, h⟩ := h
  simp only [Option.isNone_none, if_true, Option.some.injEq] at h
  subst h
  exact ⟨_, (nodeOf_modNode _ found hn').trans (by rw [shadowed]; rfl), (modNode_teams ..).trans (newShadow_teams s t x pa),
    (modNode_mem ..).trans (newShadow_mem s t x pa)⟩

/-! ## Who reads what after a staged write -/

/-- A write leaves a node that the class of the team reads from. -/
theorem nodeOn_staged {s u : State} {t : Team} {d : Nat} (hd : teamOf s d = some t) (teams : u.teams = s.teams) :
    nodeOn u d = some (nodeOf u t.inst t.node) := by
  refine nodeOn_of_team ?_
  rw [teamOf, teams]
  exact hd

/-- The class that wrote reads its bytes back. -/
theorem readPa_own {u : State} {c pa va : Nat} {q : Option Bool} {bs : List Byte} {l : List Staged} {x : Nat × Nat} {h : Shadow}
    {nd : Node} (on : nodeOn u c = some nd) (covered : frameIdx pa = some x) (shadowed : shadowOf nd pa = some h)
    (staged : nd.staged = stagedAs c pa va q bs l) (v : Nat) : (readPa u c pa v bs.length).1 = bs := by
  rw [readPa_shadowed v _ on covered shadowed]
  refine List.ext_getElem (by simp) fun j h1 h2 => ?_
  rw [List.getElem_map, List.getElem_range, stagedByte_eq, staged, find_stagedAs_own va q l h2]
  rfl

/-- A class whose staged bytes, versions, recorded epoch and shadow bytes stand reads what it read. -/
theorem readPa_same {s u : State} {d a n : Nat} {nd md : Node} (v : Nat) (onS : nodeOn s d = some nd) (onU : nodeOn u d = some md)
    (shadow : shadowOf md a = shadowOf nd a) (recorded : md.recorded = nd.recorded)
    (own : ∀ a, (md.staged.find? fun w => w.cls = d && w.pa = a) = nd.staged.find? fun w => w.cls = d && w.pa = a)
    (versions : ∀ a r, (md.staged.filter fun w => w.pa = a && seenAt w r) = nd.staged.filter fun w => w.pa = a && seenAt w r)
    (bytes : ∀ h, shadowOf nd a = some h → ∀ j, readByte u (shadowPa h (a + j)) = readByte s (shadowPa h (a + j)))
    (visible : readBytes u a n = readBytes s a n) : (readPa u d a v n).1 = (readPa s d a v n).1 := by
  cases hx : frameIdx a with
  | none => rw [readPa_uncovered v n onU hx, readPa_uncovered v n onS hx, visible]
  | some x =>
    cases hh : shadowOf nd a with
    | none => rw [readPa_visible v n onU (shadow.trans hh), readPa_visible v n onS hh, visible]
    | some h =>
      rw [readPa_shadowed v n onU hx (shadow.trans hh), readPa_shadowed v n onS hx hh]
      exact List.map_congr_left fun j _ => stagedByte_congr _ recorded (own _) (versions _) (bytes h hh j)

theorem readBytes_congr {s u : State} {a n : Nat} (wfS : Memory.wf s.mem) (wfU : Memory.wf u.mem)
    (h : ∀ j, j < n → readByte u (a + j) = readByte s (a + j)) : readBytes u a n = readBytes s a n := by
  rw [readBytes_eq a n wfU, readBytes_eq a n wfS]
  exact List.map_congr_left fun j hj => h j (List.mem_range.1 hj)

/-- The bytes that the new shadow's frame takes, and those that stay. -/
theorem readByte_taken {s u : State} {x : Nat × Nat} {pa : Nat} (mem : u.mem = (copyFrame s (pa / 65536 * 65536) (takenPa s x)).mem) :
    (∀ a, ¬ (takenPa s x ≤ a ∧ a < takenPa s x + 65536) → readByte u a = readByte s a)
      ∧ ∀ j, j < 65536 → readByte u (takenPa s x + j) = readByte s (pa / 65536 * 65536 + j) := by
  have bytes (a : Nat) : readByte u a = readByte (copyFrame s (pa / 65536 * 65536) (takenPa s x)) a := by rw [readByte, mem]; rfl
  refine ⟨fun a out => ?_, fun j hj => ?_⟩
  · rw [bytes, readByte_copyFrame, if_neg out]
  · rw [bytes, readByte_copyFrame, if_pos ⟨Nat.le_add_right .., by omega⟩, Nat.add_sub_cancel_left, Nat.add_comm]

/-- The bytes of a sector lie in one frame. -/
theorem frame_of_sector {a j n : Nat} (within : a % 64 + n ≤ 64) (hj : j < n) : (a + j) / 65536 * 65536 = a / 65536 * 65536 := by
  omega

/-- Another class reads what it read, when a first write has taken a shadow. -/
theorem readPa_other_first {s u : State} {c d pa va a n : Nat} {q : Option Bool} {bs : List Byte} {x : Nat × Nat} {nd md : Node}
    (v : Nat) (hd : d ≠ c) (onS : nodeOn s d = some nd) (onU : nodeOn u d = some md)
    (node : md = { nd with shadows := takenShadow s x pa :: nd.shadows, staged := stagedAs c pa va q bs nd.staged })
    (mem : u.mem = (copyFrame s (pa / 65536 * 65536) (takenPa s x)).mem) (wf : Memory.wf s.mem) (none_ : shadowOf nd pa = none)
    (inShadow : ∀ w ∈ nd.staged, (shadowOf nd w.pa).isSome = true) (apart : ∀ h ∈ nd.shadows, framePa h.table h.idx ≠ takenPa s x)
    (covered : frameIdx pa = some x) (within : a % 64 + n ≤ 64) (elsewhere : a / 65536 * 65536 ≠ takenPa s x) :
    (readPa u d a v n).1 = (readPa s d a v n).1 := by
  have aligned : takenPa s x % 65536 = 0 := framePa_aligned ..
  obtain ⟨stay, taken⟩ := readByte_taken mem
  have wfU : Memory.wf u.mem := mem ▸ wf_copyFrame _ _ wf
  have visible : readBytes u a n = readBytes s a n := readBytes_congr wf wfU fun j hj => stay _ (by omega)
  by_cases base : a / 65536 * 65536 = pa / 65536 * 65536
  · have free {b : Nat} (hb : b / 65536 * 65536 = pa / 65536 * 65536) : shadowOf nd b = none := by
      rw [shadowOf, hb]
      exact none_
    have shadowed : shadowOf md a = some (takenShadow s x pa) :=
      shadowOf_cons_same (by rw [node]) ((takenShadow_frame s x pa).trans base.symm)
    have coveredA : frameIdx a = some x := by rw [frameIdx_page (b := pa) (by omega)]; exact covered
    rw [readPa_shadowed v n onU coveredA shadowed, readPa_visible v n onS (free base), readBytes_eq a n wf]
    refine List.map_congr_left fun j hj => ?_
    have hj := List.mem_range.1 hj
    have unstaged : ∀ w ∈ nd.staged, w.pa ≠ a + j := fun w hw here => by
      have some_ := inShadow w hw
      rw [here, free ((frame_of_sector within hj).trans base)] at some_
      cases some_
    have own : (md.staged.find? fun w => w.cls = d && w.pa = a + j) = none := by
      rw [node]
      exact (find_stagedAs_other hd ..).trans
        (List.find?_eq_none.2 fun w hw h => unstaged w hw (of_decide_eq_true (Bool.and_eq_true_iff.1 h).2))
    have versions (r : Nat) : (md.staged.filter fun w => w.pa = a + j && seenAt w r) = [] := by
      rw [node]
      exact (versions_stagedAs ..).trans
        (List.filter_eq_nil_iff.2 fun w hw h => unstaged w hw (of_decide_eq_true (Bool.and_eq_true_iff.1 h).1))
    have place : shadowPa (takenShadow s x pa) (a + j) = takenPa s x + (a + j) % 65536 := rfl
    rw [stagedByte_shadow _ own versions, place, taken _ (Nat.mod_lt _ (by decide))]
    rw [← base, ← frame_of_sector within hj, Nat.div_add_mod']
  · refine readPa_same v onS onU ?_ (by rw [node]) (fun b => by rw [node]; exact find_stagedAs_other hd ..)
      (fun b r => by rw [node]; exact versions_stagedAs ..) (fun h hh j => stay _ ?_) visible
    · exact shadowOf_cons_other (h := takenShadow s x pa) (by rw [node]) fun hit => base (hit.symm.trans (takenShadow_frame s x pa))
    · have low := Nat.mod_lt (a + j) (show 0 < 65536 by decide)
      have far := apart h (List.mem_of_find?_eq_some hh)
      have even := framePa_aligned h.table h.idx
      rw [shadowPa]
      omega

/-- A write of a class of a team to a covered frame is staged. -/
theorem kernelWrite_staged {s : State} {t : Team} {c pa va : Nat} {bs : List Byte} {p : Option Bool} {x : Nat × Nat}
    (team : teamOf s c = some t) (covered : frameIdx pa = some x) : kernelWrite s c pa va bs p = stageWrite s t c pa va bs p := by
  rw [kernelWrite, covered, team]

/-- Settles O32, by whether the node has a shadow of the frame already: what is staged, where memory changes, who finds what. -/
theorem stagedWritesAreReadOwn : Obligations.StagedWritesAreReadOwn := by
  intro s c t0 i pa va bs s' x team hi hn covered within wf clean nd sh inShadow apart written
  rw [kernelWrite_staged team covered] at written
  cases old : shadowOf nd pa with
  | some h =>
    obtain ⟨q, node, teams, mem⟩ := stageWrite_again hi hn covered old written
    have bytes (a : Nat) : readByte s' a = readByte s a := by rw [readByte, mem]; rfl
    refine ⟨fun _ => mem, fun a _ => bytes a, fun v => ?_, fun d a v n hd teamD _ _ => ?_⟩
    · exact readPa_own (h := h) (nodeOn_staged team teams) covered (by rw [node]; exact old) (by rw [node]) v
    · exact readPa_same v (nodeOn_of_team teamD) (nodeOn_staged teamD teams) (by rw [node]; rfl) (by rw [node])
        (fun b => by rw [node]; exact find_stagedAs_other hd ..) (fun b r => by rw [node]; exact versions_stagedAs ..)
        (fun _ _ _ => bytes _) (by rw [readBytes, mem]; rfl)
  | none =>
    obtain ⟨q, node, teams, mem⟩ := stageWrite_first hi hn covered old written
    obtain ⟨-, apart⟩ := apart old
    refine ⟨nofun, (readByte_taken mem).1, fun v => ?_, fun d a v n hd teamD inSector elsewhere => ?_⟩
    · exact readPa_own (nodeOn_staged team teams) covered (shadowOf_cons_same (by rw [node]) (takenShadow_frame s x pa)) (by rw [node]) v
    · exact readPa_other_first v hd (nodeOn_of_team teamD) (nodeOn_staged teamD teams) node mem wf old inShadow apart covered inSector
        elsewhere

end Sys2Proof.Machine
end

section
/-!
PROOFS for O16: a pool of 2^32 blocks whose free stack holds all but one of them.
-/

namespace Sys2Proof.Machine

/-- A KVFREE of pool 3. -/
def releaseFields : FAM := ⟨0, 0, 0, 0, 3, 0, 0⟩

/-- It stands issued, for sequence 0. -/
def releaseWord : InFlight := { id := 0, ord := 0, run := 0, eng := .a, instr := .kvfree default releaseFields, ops := [0, 0] }

/-- Pool 3 at physical address 0: one map entry, 2^32 blocks of one byte. -/
@[irreducible] def vastPool : Pool := ⟨⟨2 ^ 40, 65536, 0, false, false, false, false, true, 0, 3, false, 0⟩, 0, 1, 2 ^ 32, 2 ^ 35⟩

/-- Class 0 runs with the KVFREE in flight. Of the pool: FTOP is 2^32 - 1, NLIVE is 1, the entry is live with key 0 and block 0, whose
count is 1. -/
@[irreducible] def vastMachine : State :=
  { State.reset with
    insts := [{ num := 1, part := 1, queue := 0, entry := [], gid := 0, excl := false, nctr := 0, state := .running
                nodes := [{ state := .ready }]
                snaps := [⟨[], [], leBytes 8 (2 ^ 40) ++ leBytes 8 1 ++ leBytes 8 0 ++ leBytes 8 (2 ^ 63 + 2 ^ 58 + 3 * 2 ^ 50),
                  [(3, [0, 1, 2 ^ 32, 2 ^ 35])]⟩] }]
    teams := [{ id := 5, inst := 1, node := 0, ord := 0, classes := [0], own := 0 }]
    cls := State.reset.cls.modify 0 fun k => { k with live := true, inflight := [releaseWord] }
    mem := [(16, 255), (17, 255), (18, 255), (19, 255), (20, 1), (79, 128), (80, 1)] }

theorem vastPool_nent : vastPool.nent = 1 := by decide +kernel

theorem vastPool_nblk : vastPool.nblk = 2 ^ 32 := by decide +kernel

theorem vastMachine_ready : MapOpReady vastMachine 0 0 releaseWord 3 vastPool where
  stands := by decide +kernel
  first := by decide +kernel
  clean := by decide +kernel
  pool := by decide +kernel
  written := by
    intro k hk
    obtain rfl := Nat.lt_one_iff.1 (vastPool_nent ▸ hk)
    decide +kernel
  settled := by decide +kernel
  wf := by decide +kernel
  laid := by
    unfold PoolLaidOut
    decide +kernel

/-- FTOP of the pool in the state that `exec` answers. -/
def vastTop (o : Out) : Option Nat := match o with
  | .next t => some (ftop t vastPool)
  | _ => none

/-- The pushed block makes FTOP 2^32, of which memory keeps 0. -/
theorem vastTop_release : vastTop (exec (.mapOpArrival 0 0) vastMachine) = some 0 := by decide +kernel

/-- A word's completion and its status leave FTOP alone. -/
theorem vastTop_complete (t : State) (n : Nat) (v : W64) (f : InFlight) :
    vastTop (.next (complete (setS t 0 n v) 0 f)) = some (ftop t vastPool) := by
  unfold setS
  split <;> rfl

/-- A free stack has room for block 0 alone where one place is left. -/
theorem countP_room {freed : Nat → Bool} {top n : Nat} (alone : ∀ b, freed b = true → b = 0) (left : top + 1 ≤ n) :
    top + (List.range n).countP freed ≤ n := by
  have few : (List.range n).countP freed ≤ 1 :=
    calc (List.range n).countP freed
        ≤ (List.range n).countP (· == 0) := List.countP_mono_left fun b _ hb => beq_iff_eq.2 (alone b hb)
      _ ≤ 1 := List.nodup_iff_count_le_one.1 List.nodup_range 0
  omega

/-- The entries of sequence 0 that a release finds live. -/
def vastLive (k : Nat) : Bool :=
  (getEntry vastMachine vastPool k).v && (getEntry vastMachine vastPool k).key / 2 ^ 32 == (releaseWord.ops.getD 0 0).toNat / 2 ^ 32

theorem vastEntry : getEntry vastMachine vastPool 0 = ⟨0, 0, true, false, 0⟩ := by decide +kernel

theorem vastLive_zero : vastLive 0 = true := by
  rw [vastLive, vastEntry]
  rfl

/-- How many of them name a block. -/
def vastRefs (b : Nat) : Nat := (List.range vastPool.nent).countP fun k => vastLive k && (getEntry vastMachine vastPool k).block == b

/-- The live entry names block 0 and no other. -/
theorem vastRefs_eq (b : Nat) : vastRefs b = if b = 0 then 1 else 0 := by
  rw [vastRefs, vastPool_nent, List.range_one, List.countP_singleton, vastLive_zero, vastEntry, Bool.true_and]
  exact if_congr (beq_iff_eq.trans eq_comm) rfl rfl

/-- The counts agree with the map. -/
theorem vastRefs_le (b : Nat) : vastRefs b ≤ refCount vastMachine vastPool b := by
  rw [vastRefs_eq]
  split
  next zero =>
    rw [zero]
    decide +kernel
  next => exact Nat.zero_le _

/-- The release frees block 0 at the most. -/
def vastFreed (b : Nat) : Bool := decide (0 < vastRefs b) && decide (refCount vastMachine vastPool b = vastRefs b)

theorem vastTop_before : ftop vastMachine vastPool = 2 ^ 32 - 1 := by decide +kernel

theorem vastFreed_zero {b : Nat} (h : vastFreed b = true) : b = 0 := by
  rw [vastFreed, vastRefs_eq, Bool.and_eq_true, decide_eq_true_iff] at h
  by_contra other
  rw [if_neg other] at h
  exact Nat.lt_irrefl 0 h.1

/-- Refutes O16: of the last clause, FTOP rises by the number of blocks freed. FTOP is a field of 4 bytes (R225) and the statement
bounds NBLK nowhere: in a pool of 2^32 blocks with 2^32 - 1 of them free the last block's release makes FTOP 0. A pool that the
graph's 4-byte NBLK describes has fewer blocks, and no such release. -/
theorem not_blockStoreWords : ¬ Obligations.BlockStoreWords := by
  unfold Obligations.BlockStoreWords
  rintro ⟨-, -, -, kvfree⟩
  obtain ⟨t, step, -, -, counts⟩ := kvfree vastMachine 0 0 releaseWord default releaseFields vastPool vastMachine_ready rfl
  have wrapped : ftop t vastPool = 0 := by
    have same := vastTop_release
    rw [step, vastTop_complete] at same
    exact Option.some.inj same
  have named (k : Nat) (hk : k < vastPool.nent) (_ : vastLive k = true) : (getEntry vastMachine vastPool k).block < vastPool.nblk := by
    obtain rfl := Nat.lt_one_iff.1 (vastPool_nent ▸ hk)
    rw [vastEntry, vastPool_nblk]
    exact Nat.two_pow_pos 32
  have left : ftop vastMachine vastPool + 1 ≤ vastPool.nblk := by
    rw [vastTop_before, vastPool_nblk]
    decide
  obtain ⟨-, risen, -⟩ := counts (by decide +kernel) named (fun b _ => vastRefs_le b)
    (by exact countP_room (fun b h => vastFreed_zero h) left)
  rw [wrapped, vastTop_before] at risen
  exact absurd risen (by omega)

end Sys2Proof.Machine
end
